-- ==== Sys2Proof/Word.lean ====
section
/-! DEFINITION. The word types of the PZ4 and the names of small index types. Only types and their plainest
synonyms stand here; every computation on bits is in Machine/Bits.lean. -/

namespace Sys2Proof

/-- One byte. -/
abbrev Byte := BitVec 8
/-- A 16-bit halfword; also one code word (R94). -/
abbrev W16 := BitVec 16
/-- A 32-bit word; also a code address (R97). -/
abbrev W32 := BitVec 32
/-- A 64-bit doubleword: the width of s-registers, Hem entries and system registers (R68, R167). -/
abbrev W64 := BitVec 64

/-- A 7-bit operand or destination code (Tables 07.5 and 07.6). -/
abbrev Code7 := BitVec 7
/-- A 12-bit slice spec (Table 07.10). -/
abbrev Spec := BitVec 12
/-- A 4-bit element type code (Table 07.16). -/
abbrev TypeCode := BitVec 4

/-- The seven operation slots of a bundle, in slot order (Table 07.2); `tree` is TRAPLEAF.SLOT = 7 (Table 09.10). -/
inductive Slot where
  | a | b | l | v | m | c | s | tree
  deriving DecidableEq, Repr

/-- A hardware context of the module: die, logical core, context (R65, R31). -/
structure CtxId where
  die  : Fin 4
  core : Fin 16
  ctx  : Fin 8
  deriving DecidableEq, Repr

/-- A core of the module. -/
structure CoreId where
  die  : Fin 4
  core : Fin 16
  deriving DecidableEq, Repr

/-- The core a context belongs to. -/
def CtxId.coreId (c : CtxId) : CoreId := ⟨c.die, c.core⟩

/-- What a flit belongs to (the TAG of Table 25.2): a request that a target may refuse (R202), which is a non-local access, a remote
operation, a copy row, a window row or a link-buffer send; or a member of a collective round or of a reconfiguration (R373); or the text, a template or
a successor list, that a task of a context reads from a host window (R203, R354, R356), or the header that a die's dispatcher reads there (R72); or
the operation of a die of another package with its TAG there (R373); or the memory run of a host frame (R406); or the kernel header that the supervisor reads
there as it maps a page (R203). -/
inductive Req where
  | access (id : Nat)
  | remote (id : Nat)
  | row (c : CoreId) (ch : Fin 2) (k : Nat)
  | winRow (c : CoreId) (w : Fin 8) (n : Nat)
  | lbSend (id : Nat)
  | coll (id : Nat) (c : CtxId)
  | plan (c : CtxId)
  | text (c : CtxId)
  | header (d : Fin 4) (t : BitVec 4) (r : W64)
  | away (src : BitVec 12) (tag : BitVec 16)
  | frame (id : Nat)
  | mapHdr (t : BitVec 4) (va : W64)
  deriving DecidableEq, Repr

/-- The ICMPv6 packets the module answers, or heeds for the detection of duplicate addresses (R404). -/
inductive IcmpKind where
  | neighbourSolicitation | neighbourAdvertisement | routerSolicitation | echoRequest | other
  deriving DecidableEq, Repr

end Sys2Proof
end

