-- ==== Sys2Proof/Syntax.lean ====
section
/-! DEFINITION. The instructions and events of the PZ4: one constructor for each row of spec/opcode_table.json, in
first the rows with operand fields, then the rows without, each in the table's order. A slot instruction carries the operand fields that its encoding uses (07, 09, 13, 17, 19, 23, 25, 27);
an event has no fields: the context, engine, request or host frame it concerns stands in State's event argument
(EvArg), which step fills before it runs the event (log 12). -/

namespace Sys2Proof

/-- A UDP datagram, or an ICMPv6 packet, as it arrives at the Ethernet port: the addresses and ports of its headers, and its bytes, which for BHP are a frame
(R403, Table 27.1). -/
structure Frame where
  to6 : BitVec 128
  dport : W16
  src : BitVec 128
  port : W16
  bytes : List Byte
  deriving DecidableEq, Repr

/-- What an event concerns (log 12): each event reads the fields that its docstring names. -/
structure EvArg where
  die : Fin 4
  core : Fin 16
  ctx : Fin 8
  unit : Nat
  id : Nat
  num : Nat
  ok : Bool
  tenant : BitVec 4
  va : W64
  val : W64
  req : Req
  icmp : IcmpKind
  frame : Frame
  data : List Byte
  list : List (Nat × Nat)
  deriving DecidableEq, Repr

/-- A frame with nothing in it. -/
def Frame.none : Frame := ⟨0, 0, 0, 0, []⟩

/-- An event argument with nothing in it. -/
def EvArg.none : EvArg := ⟨0, 0, 0, 0, 0, 0, false, 0, 0, 0, .access 0, .other, .none, [], []⟩

/-- One instruction or event. -/
inductive Instr where
  /-- ADD (R148): dst := x + y, wrapping modulo 2^64. -/
  | add (d : Code7) (x : Code7) (y : Code7)
  /-- SUB (R148): dst := x − y, wrapping. -/
  | sub (d : Code7) (x : Code7) (y : Code7)
  /-- ADDW (R148): dst := 32-bit sum sign-extended. -/
  | addw (d : Code7) (x : Code7) (y : Code7)
  /-- SUBW (R148): dst := 32-bit difference sign-extended. -/
  | subw (d : Code7) (x : Code7) (y : Code7)
  /-- MUL (R148): dst := low 64 bits of x·y. -/
  | mul (d : Code7) (x : Code7) (y : Code7)
  /-- MULH (R148): dst := high 64 bits of the signed 128-bit product. -/
  | mulh (d : Code7) (x : Code7) (y : Code7)
  /-- MULHU (R148): dst := high 64 bits of the unsigned 128-bit product. -/
  | mulhu (d : Code7) (x : Code7) (y : Code7)
  /-- MULW (R148): dst := 32-bit product sign-extended. -/
  | mulw (d : Code7) (x : Code7) (y : Code7)
  /-- DIV (R149): Signed division toward zero, with defined results for zero and overflow. -/
  | div (d : Code7) (x : Code7) (y : Code7)
  /-- DIVU (R149): Unsigned division. -/
  | divu (d : Code7) (x : Code7) (y : Code7)
  /-- REM (R149): Signed remainder. -/
  | rem (d : Code7) (x : Code7) (y : Code7)
  /-- REMU (R149): Unsigned remainder. -/
  | remu (d : Code7) (x : Code7) (y : Code7)
  /-- AND (R148): Bitwise AND. -/
  | and (d : Code7) (x : Code7) (y : Code7)
  /-- OR (R148): Bitwise OR. -/
  | or (d : Code7) (x : Code7) (y : Code7)
  /-- XOR (R148): Bitwise XOR. -/
  | xor (d : Code7) (x : Code7) (y : Code7)
  /-- ANDN (R148): dst := x AND NOT y. -/
  | andn (d : Code7) (x : Code7) (y : Code7)
  /-- SHL (R148): Shift left by y[5:0]. -/
  | shl (d : Code7) (x : Code7) (y : Code7)
  /-- SHR (R148): Logical shift right by y[5:0]. -/
  | shr (d : Code7) (x : Code7) (y : Code7)
  /-- SAR (R148): Arithmetic shift right by y[5:0]. -/
  | sar (d : Code7) (x : Code7) (y : Code7)
  /-- ROT (R148): Rotate left by y[5:0]. -/
  | rot (d : Code7) (x : Code7) (y : Code7)
  /-- MIN (R148): Signed minimum. -/
  | min (d : Code7) (x : Code7) (y : Code7)
  /-- MAX (R148): Signed maximum. -/
  | max (d : Code7) (x : Code7) (y : Code7)
  /-- MINU (R148): Unsigned minimum. -/
  | minu (d : Code7) (x : Code7) (y : Code7)
  /-- MAXU (R148): Unsigned maximum. -/
  | maxu (d : Code7) (x : Code7) (y : Code7)
  /-- CMP_EQ (R148): dst := 1 if x equals y, else 0. -/
  | cmpEq (d : Code7) (x : Code7) (y : Code7)
  /-- CMP_NE (R148): dst := 1 if x differs from y. -/
  | cmpNe (d : Code7) (x : Code7) (y : Code7)
  /-- CMP_LT (R148): dst := 1 if x < y signed. -/
  | cmpLt (d : Code7) (x : Code7) (y : Code7)
  /-- CMP_GE (R148): dst := 1 if x ≥ y signed. -/
  | cmpGe (d : Code7) (x : Code7) (y : Code7)
  /-- CMP_LTU (R148): dst := 1 if x < y unsigned. -/
  | cmpLtu (d : Code7) (x : Code7) (y : Code7)
  /-- CMP_GEU (R148): dst := 1 if x ≥ y unsigned. -/
  | cmpGeu (d : Code7) (x : Code7) (y : Code7)
  /-- ADDI (R148): dst := x + sign-extended imm7. -/
  | addi (d : Code7) (x : Code7) (imm : BitVec 7)
  /-- ANDI (R148): dst := x AND sign-extended imm7. -/
  | andi (d : Code7) (x : Code7) (imm : BitVec 7)
  /-- SHLI (R148): Shift left by an immediate 0–63. -/
  | shli (d : Code7) (x : Code7) (imm : BitVec 7)
  /-- SHRI (R148): Logical shift right by an immediate. -/
  | shri (d : Code7) (x : Code7) (imm : BitVec 7)
  /-- SARI (R148): Arithmetic shift right by an immediate. -/
  | sari (d : Code7) (x : Code7) (imm : BitVec 7)
  /-- LDI (R148): dst := sign-extended imm14 shifted left by 14·n. -/
  | ldi (d : Code7) (hi : BitVec 7) (lo : BitVec 7) (n : BitVec 4)
  /-- LEA (R148): dst := x + (y << n). -/
  | lea (d : Code7) (x : Code7) (y : Code7) (n : BitVec 4)
  /-- SEXT_B (R148): Sign-extend the low 8 bits. -/
  | sextB (d : Code7) (x : Code7)
  /-- SEXT_H (R148): Sign-extend the low 16 bits. -/
  | sextH (d : Code7) (x : Code7)
  /-- SEXT_W (R148): Sign-extend the low 32 bits. -/
  | sextW (d : Code7) (x : Code7)
  /-- ZEXT_B (R148): Zero-extend the low 8 bits. -/
  | zextB (d : Code7) (x : Code7)
  /-- ZEXT_H (R148): Zero-extend the low 16 bits. -/
  | zextH (d : Code7) (x : Code7)
  /-- ZEXT_W (R148): Zero-extend the low 32 bits. -/
  | zextW (d : Code7) (x : Code7)
  /-- CLZ (R148): Count leading zero bits. -/
  | clz (d : Code7) (x : Code7)
  /-- CTZ (R148): Count trailing zero bits. -/
  | ctz (d : Code7) (x : Code7)
  /-- POPC (R148): Count set bits. -/
  | popc (d : Code7) (x : Code7)
  /-- FADD (R150): F32 addition rounded to nearest even. -/
  | fadd (d : Code7) (x : Code7) (y : Code7)
  /-- FSUB (R150): F32 subtraction. -/
  | fsub (d : Code7) (x : Code7) (y : Code7)
  /-- FMUL (R150): F32 multiplication. -/
  | fmul (d : Code7) (x : Code7) (y : Code7)
  /-- FMIN (R150): F32 minimum under R51. -/
  | fmin (d : Code7) (x : Code7) (y : Code7)
  /-- FMAX (R150): F32 maximum under R51. -/
  | fmax (d : Code7) (x : Code7) (y : Code7)
  /-- FCMP_EQ (R150): dst := 1 if the F32 operands are equal. -/
  | fcmpEq (d : Code7) (x : Code7) (y : Code7)
  /-- FCMP_LT (R150): dst := 1 if x < y in F32. -/
  | fcmpLt (d : Code7) (x : Code7) (y : Code7)
  /-- FCMP_LE (R150): dst := 1 if x ≤ y in F32. -/
  | fcmpLe (d : Code7) (x : Code7) (y : Code7)
  /-- FCMP_UN (R150): dst := 1 if either F32 operand is NaN. -/
  | fcmpUn (d : Code7) (x : Code7) (y : Code7)
  /-- FCVT_F32_I32 (R150): Convert I32 to F32. -/
  | fcvtF32I32 (d : Code7) (x : Code7)
  /-- FCVT_I32_F32 (R150): Convert F32 to I32, nearest-even, saturated. -/
  | fcvtI32F32 (d : Code7) (x : Code7)
  /-- FCVT_I32_F32_RZ (R150): Convert F32 to I32 toward zero, saturated. -/
  | fcvtI32F32Rz (d : Code7) (x : Code7)
  /-- FCVT_BF16_F32 (R150): Narrow F32 to BF16. -/
  | fcvtBf16F32 (d : Code7) (x : Code7)
  /-- FCVT_F32_BF16 (R150): Widen BF16 to F32. -/
  | fcvtF32Bf16 (d : Code7) (x : Code7)
  /-- FCVT_F16_F32 (R150): Narrow F32 to F16. -/
  | fcvtF16F32 (d : Code7) (x : Code7)
  /-- FCVT_F32_F16 (R150): Widen F16 to F32. -/
  | fcvtF32F16 (d : Code7) (x : Code7)
  /-- FCVT_F32_I64 (R150): Convert I64 to F32. -/
  | fcvtF32I64 (d : Code7) (x : Code7)
  /-- FDIV (R150): F32 division, correctly rounded. -/
  | fdiv (d : Code7) (x : Code7) (y : Code7)
  /-- FSQRT (R150): F32 square root, correctly rounded. -/
  | fsqrt (d : Code7) (x : Code7)
  /-- SETT (R151): Writes target register tk from x[31:0]. -/
  | sett (k : BitVec 4) (x : Code7)
  /-- RDT (R151): Reads target register tk into dst. -/
  | rdt (d : Code7) (k : BitVec 4)
  /-- RDSYS (R151): Reads a system register into dst. -/
  | rdsys (d : Code7) (n : BitVec 7)
  /-- WRSYS (R151): Writes a system register, effective two cycles later; writes to unwritable registers have no effect. -/
  | wrsys (n : BitVec 7) (x : Code7)
  /-- MOV (R148): dst := x. -/
  | mov (d : Code7) (x : Code7)
  /-- LD_B (R207): Core-store byte load, sign-extended. -/
  | ldB (d : Code7) (base : Code7) (imm : BitVec 18)
  /-- LD_BU (R207): Core-store byte load, zero-extended. -/
  | ldBu (d : Code7) (base : Code7) (imm : BitVec 18)
  /-- LD_H (R207): Core-store halfword load, sign-extended. -/
  | ldH (d : Code7) (base : Code7) (imm : BitVec 18)
  /-- LD_HU (R207): Core-store halfword load, zero-extended. -/
  | ldHu (d : Code7) (base : Code7) (imm : BitVec 18)
  /-- LD_W (R207): Core-store word load, sign-extended. -/
  | ldW (d : Code7) (base : Code7) (imm : BitVec 18)
  /-- LD_WU (R207): Core-store word load, zero-extended. -/
  | ldWu (d : Code7) (base : Code7) (imm : BitVec 18)
  /-- LD_D (R207): Core-store doubleword load. -/
  | ldD (d : Code7) (base : Code7) (imm : BitVec 18)
  /-- ST_B (R207): Core-store byte store in the issue cycle. -/
  | stB (data : Code7) (base : Code7) (imm : BitVec 18)
  /-- ST_H (R207): Core-store halfword store. -/
  | stH (data : Code7) (base : Code7) (imm : BitVec 18)
  /-- ST_W (R207): Core-store word store; a flag write at a flag address. -/
  | stW (data : Code7) (base : Code7) (imm : BitVec 18)
  /-- ST_D (R207): Core-store doubleword store. -/
  | stD (data : Code7) (base : Code7) (imm : BitVec 18)
  /-- LDMR (R208): Loads 128 core-store bytes into a matrix-register slice, landing after 6 cycles. -/
  | ldmr (sl : Spec) (base : Code7) (imm : BitVec 13)
  /-- STMR (R208): Stores a matrix-register slice to 128 core-store bytes. -/
  | stmr (sl : Spec) (base : Code7) (imm : BitVec 13)
  /-- XLAT (R209): Translates a VA page into a handle written 24 cycles after issue. -/
  | xlat (h : BitVec 4) (off : Code7) (imm : BitVec 14)
  /-- HREL (R210): Invalidates a handle. -/
  | hrel (h : BitVec 4)
  /-- HINFO (R211): Returns a handle's information word. -/
  | hinfo (d : Code7) (h : BitVec 4)
  /-- LDH_W (R214): Word load through a handle, landing after a variable time with an interlock. -/
  | ldhW (d : Code7) (h : BitVec 4) (off : Code7) (imm : BitVec 14)
  /-- LDH_D (R214): Doubleword load through a handle. -/
  | ldhD (d : Code7) (h : BitVec 4) (off : Code7) (imm : BitVec 14)
  /-- STH_W (R214): Word store through a handle, sent at issue. -/
  | sthW (data : Code7) (h : BitVec 4) (off : Code7) (imm : BitVec 14)
  /-- STH_D (R214): Doubleword store through a handle. -/
  | sthD (data : Code7) (h : BitVec 4) (off : Code7) (imm : BitVec 14)
  /-- AMO_SWAP (R216): Atomic swap at a handle offset, returning the old element. -/
  | amoSwap (d : Code7) (h : BitVec 4) (off : Code7) (sz : BitVec 1) (scope : BitVec 3)
  /-- AMO_ADD (R216): Atomic wrapping add. -/
  | amoAdd (d : Code7) (h : BitVec 4) (off : Code7) (sz : BitVec 1) (scope : BitVec 3)
  /-- AMO_AND (R216): Atomic AND. -/
  | amoAnd (d : Code7) (h : BitVec 4) (off : Code7) (sz : BitVec 1) (scope : BitVec 3)
  /-- AMO_OR (R216): Atomic OR. -/
  | amoOr (d : Code7) (h : BitVec 4) (off : Code7) (sz : BitVec 1) (scope : BitVec 3)
  /-- AMO_XOR (R216): Atomic XOR. -/
  | amoXor (d : Code7) (h : BitVec 4) (off : Code7) (sz : BitVec 1) (scope : BitVec 3)
  /-- AMO_MIN (R216): Atomic signed minimum. -/
  | amoMin (d : Code7) (h : BitVec 4) (off : Code7) (sz : BitVec 1) (scope : BitVec 3)
  /-- AMO_MAX (R216): Atomic signed maximum. -/
  | amoMax (d : Code7) (h : BitVec 4) (off : Code7) (sz : BitVec 1) (scope : BitVec 3)
  /-- AMO_MINU (R216): Atomic unsigned minimum. -/
  | amoMinu (d : Code7) (h : BitVec 4) (off : Code7) (sz : BitVec 1) (scope : BitVec 3)
  /-- AMO_MAXU (R216): Atomic unsigned maximum. -/
  | amoMaxu (d : Code7) (h : BitVec 4) (off : Code7) (sz : BitVec 1) (scope : BitVec 3)
  /-- AMO_FADD (R216): Atomic F32 add, word only. -/
  | amoFadd (d : Code7) (h : BitVec 4) (off : Code7) (sz : BitVec 1) (scope : BitVec 3)
  /-- AMOC (R217): Atomic compare-and-swap returning the old element. -/
  | amoc (d : Code7) (h : BitVec 4) (off : Code7) (sz : BitVec 1) (scope : BitVec 3)
  /-- PREF (R214): Opens the DRAM row and loads the granule into the memory-side cache; never traps. -/
  | pref (h : BitVec 4) (off : Code7) (imm : BitVec 14)
  /-- VADD (R280): Element-wise add of two slices. -/
  | vadd (t : TypeCode) (d : Spec) (a : Spec) (b : Spec) (rel : BitVec 1)
  /-- VSUB (R280): Element-wise subtract. -/
  | vsub (t : TypeCode) (d : Spec) (a : Spec) (b : Spec) (rel : BitVec 1)
  /-- VMUL (R280): Element-wise multiply. -/
  | vmul (t : TypeCode) (d : Spec) (a : Spec) (b : Spec) (rel : BitVec 1)
  /-- VFMA (R280): Element-wise fused multiply-add into d. -/
  | vfma (t : TypeCode) (d : Spec) (a : Spec) (b : Spec) (rel : BitVec 1)
  /-- VFMS (R280): Element-wise fused multiply-subtract from d. -/
  | vfms (t : TypeCode) (d : Spec) (a : Spec) (b : Spec) (rel : BitVec 1)
  /-- VMIN (R280): Element-wise minimum. -/
  | vmin (t : TypeCode) (d : Spec) (a : Spec) (b : Spec) (rel : BitVec 1)
  /-- VMAX (R280): Element-wise maximum. -/
  | vmax (t : TypeCode) (d : Spec) (a : Spec) (b : Spec) (rel : BitVec 1)
  /-- VABS (R280): Element-wise absolute value. -/
  | vabs (t : TypeCode) (d : Spec) (a : Spec) (rel : BitVec 1)
  /-- VNEG (R280): Element-wise negation. -/
  | vneg (t : TypeCode) (d : Spec) (a : Spec) (rel : BitVec 1)
  /-- VADDS (R281): Adds a scalar to every element. -/
  | vadds (t : TypeCode) (d : Spec) (a : Spec) (x : Code7) (rel : BitVec 1)
  /-- VMULS (R281): Multiplies every element by a scalar. -/
  | vmuls (t : TypeCode) (d : Spec) (a : Spec) (x : Code7) (rel : BitVec 1)
  /-- VFMAS (R281): Fused multiply-add with a scalar. -/
  | vfmas (t : TypeCode) (d : Spec) (a : Spec) (x : Code7) (rel : BitVec 1)
  /-- VEXP2 (R282): Correctly rounded 2^x per F32 element. -/
  | vexp2 (d : Spec) (a : Spec) (rel : BitVec 1)
  /-- VLOG2 (R282): Correctly rounded log2 x. -/
  | vlog2 (d : Spec) (a : Spec) (rel : BitVec 1)
  /-- VRCP (R282): Correctly rounded reciprocal. -/
  | vrcp (d : Spec) (a : Spec) (rel : BitVec 1)
  /-- VRSQ (R282): Correctly rounded reciprocal square root. -/
  | vrsq (d : Spec) (a : Spec) (rel : BitVec 1)
  /-- VSQRT (R282): Correctly rounded square root. -/
  | vsqrt (d : Spec) (a : Spec) (rel : BitVec 1)
  /-- VCVT (R283): Converts elements between F32 and another type, one part at a time. -/
  | vcvt (t : TypeCode) (d : Spec) (a : Spec) (src : TypeCode) (part : BitVec 3) (rel : BitVec 1)
  /-- VQNT (R284): Quantises 32 F32 elements into one MX block under a given scale. -/
  | vqnt (t : TypeCode) (d : Spec) (a : Spec) (x : Code7) (rel : BitVec 1)
  /-- VDQNT (R285): Dequantises one MX block to F32. -/
  | vdqnt (t : TypeCode) (d : Spec) (a : Spec) (x : Code7) (rel : BitVec 1)
  /-- VAND (R286): Bitwise AND of two slices. -/
  | vand (d : Spec) (a : Spec) (b : Spec) (rel : BitVec 1)
  /-- VOR (R286): Bitwise OR of two slices. -/
  | vor (d : Spec) (a : Spec) (b : Spec) (rel : BitVec 1)
  /-- VXOR (R286): Bitwise XOR of two slices. -/
  | vxor (d : Spec) (a : Spec) (b : Spec) (rel : BitVec 1)
  /-- VSHL (R286): Element-wise shift left. -/
  | vshl (t : TypeCode) (d : Spec) (a : Spec) (b : Spec) (rel : BitVec 1)
  /-- VSHR (R286): Element-wise logical shift right. -/
  | vshr (t : TypeCode) (d : Spec) (a : Spec) (b : Spec) (rel : BitVec 1)
  /-- VSAR (R286): Element-wise arithmetic shift right. -/
  | vsar (t : TypeCode) (d : Spec) (a : Spec) (b : Spec) (rel : BitVec 1)
  /-- VCMP_EQ (R287): Writes 32 flags for element equality. -/
  | vcmpEq (t : TypeCode) (fb : BitVec 8) (x : Spec) (y : Spec) (rel : BitVec 1)
  /-- VCMP_NE (R287): Writes 32 flags for element inequality. -/
  | vcmpNe (t : TypeCode) (fb : BitVec 8) (x : Spec) (y : Spec) (rel : BitVec 1)
  /-- VCMP_LT (R287): Writes 32 flags for less-than. -/
  | vcmpLt (t : TypeCode) (fb : BitVec 8) (x : Spec) (y : Spec) (rel : BitVec 1)
  /-- VCMP_LE (R287): Writes 32 flags for less-or-equal. -/
  | vcmpLe (t : TypeCode) (fb : BitVec 8) (x : Spec) (y : Spec) (rel : BitVec 1)
  /-- VCMP_GT (R287): Writes 32 flags for greater-than. -/
  | vcmpGt (t : TypeCode) (fb : BitVec 8) (x : Spec) (y : Spec) (rel : BitVec 1)
  /-- VCMP_GE (R287): Writes 32 flags for greater-or-equal. -/
  | vcmpGe (t : TypeCode) (fb : BitVec 8) (x : Spec) (y : Spec) (rel : BitVec 1)
  /-- VCMP_UN (R287): Writes 32 flags for unordered F32 pairs. -/
  | vcmpUn (t : TypeCode) (fb : BitVec 8) (x : Spec) (y : Spec) (rel : BitVec 1)
  /-- VBLEND (R286): Selects a or b per element by the old d pattern. -/
  | vblend (t : TypeCode) (d : Spec) (a : Spec) (b : Spec) (rel : BitVec 1)
  /-- VREDSUM (R289): Reduces 32 elements to their sum, rounded once, broadcast into d. -/
  | vredsum (t : TypeCode) (d : Spec) (a : Spec) (rel : BitVec 1)
  /-- VREDMAX (R289): Reduces to the maximum. -/
  | vredmax (t : TypeCode) (d : Spec) (a : Spec) (rel : BitVec 1)
  /-- VREDMIN (R289): Reduces to the minimum. -/
  | vredmin (t : TypeCode) (d : Spec) (a : Spec) (rel : BitVec 1)
  /-- VBCAST (R290): Broadcasts element k to every element. -/
  | vbcast (t : TypeCode) (d : Spec) (a : Spec) (k : BitVec 8) (rel : BitVec 1)
  /-- VMOV (R290): Copies a slice or a whole register. -/
  | vmov (d : Spec) (a : Spec) (rel : BitVec 1)
  /-- VSLIDE (R291): Moves elements by a signed count, filling with zero. -/
  | vslide (t : TypeCode) (d : Spec) (a : Spec) (sh : BitVec 9) (rel : BitVec 1)
  /-- VSLIDE2 (R291): Moves by one element across a pair of slices. -/
  | vslide2 (t : TypeCode) (d : Spec) (a : Spec) (b : Spec) (rel : BitVec 1)
  /-- VMACW (R292): Widening multiply-accumulate into a 32-bit row pair. -/
  | vmacw (t : TypeCode) (d : Spec) (a : Spec) (b : Spec) (rel : BitVec 1)
  /-- VNAR (R293): Rounds, shifts and saturates a row pair into 16-bit elements. -/
  | vnar (t : TypeCode) (d : Spec) (a : Spec) (sh : BitVec 5) (rel : BitVec 1)
  /-- VPERM (R286): Permutes elements by an index slice. -/
  | vperm (t : TypeCode) (d : Spec) (a : Spec) (b : Spec) (rel : BitVec 1)
  /-- VZRD (R296): Reads 32 columns of the visible accumulator bank into a slice. -/
  | vzrd (d : Spec) (z : BitVec 4) (rho : BitVec 7) (g : BitVec 3) (rel : BitVec 1)
  /-- VZRD_L (R296): Legacy read of the working bank without waiting. -/
  | vzrdL (d : Spec) (z : BitVec 4) (rho : BitVec 7) (g : BitVec 3) (rel : BitVec 1)
  /-- VZWR (R297): Writes a slice into 32 columns of an accumulator row. -/
  | vzwr (d : Spec) (z : BitVec 4) (rho : BitVec 7) (g : BitVec 3) (rel : BitVec 1)
  /-- VZERO (R290): Zeroes a slice or register. -/
  | vzero (d : Spec) (rel : BitVec 1)
  /-- VIOTA (R290): Writes each element's index. -/
  | viota (t : TypeCode) (d : Spec) (rel : BitVec 1)
  /-- MMA_S (R313): Enters a matrix multiply on the score array into the dependency table. -/
  | mmaS (z : BitVec 4) (dA : BitVec 4) (dB : BitVec 4) (tA : TypeCode) (tB : TypeCode) (acc : BitVec 1) (mx : BitVec 1) (dual : BitVec 1) (bt : BitVec 1) (sclsrc : BitVec 1) (dSA : BitVec 4) (dSB : BitVec 4)
  /-- MMA_V (R313): Enters a matrix multiply on the value array. -/
  | mmaV (z : BitVec 4) (dA : BitVec 4) (dB : BitVec 4) (tA : TypeCode) (tB : TypeCode) (acc : BitVec 1) (mx : BitVec 1) (dual : BitVec 1) (bt : BitVec 1) (sclsrc : BitVec 1) (dSA : BitVec 4) (dSB : BitVec 4)
  /-- MMA_SG (R315): Enters a gathered-row matrix multiply on the score array. -/
  | mmaSg (z : BitVec 4) (dA : BitVec 4) (dB : BitVec 4) (tA : TypeCode) (tB : TypeCode) (acc : BitVec 1) (mx : BitVec 1) (dual : BitVec 1) (bt : BitVec 1) (g : BitVec 5) (r : BitVec 5)
  /-- MMA_VG (R315): Enters a gathered-row matrix multiply on the value array. -/
  | mmaVg (z : BitVec 4) (dA : BitVec 4) (dB : BitVec 4) (tA : TypeCode) (tB : TypeCode) (acc : BitVec 1) (mx : BitVec 1) (dual : BitVec 1) (bt : BitVec 1) (g : BitVec 5) (r : BitVec 5)
  /-- MMA_Q (R316): Enters one quarter of a quad-gang product. -/
  | mmaQ (z : BitVec 4) (dA : BitVec 4) (dB : BitVec 4) (tA : TypeCode) (tB : TypeCode) (acc : BitVec 1) (mx : BitVec 1) (dual : BitVec 1) (bt : BitVec 1) (x : Code7)
  /-- ZALLOC (R307): Binds an accumulator tile of zeroed banks. -/
  | zalloc (z : BitVec 4) (rows1 : BitVec 7) (cols1 : BitVec 8) (dual : BitVec 1)
  /-- ZFREE (R308): Waits for commands on the tile, then unbinds it. -/
  | zfree (z : BitVec 4)
  /-- ZSWAP (R309): Waits, then exchanges visible and working banks of a dual tile. -/
  | zswap (z : BitVec 4)
  /-- ZZERO (R310): Command that zeroes the working bank or both banks. -/
  | zzero (z : BitVec 4) (both : BitVec 1)
  /-- MWAIT (R312): Waits for earlier commands naming a binding and raises a stored error. -/
  | mwait (z : BitVec 4)
  /-- CHBEG (R320): Opens a chain slot with query, binding and mask state, and zeroes the output rows. -/
  | chbeg (sl : BitVec 2) (z : BitVec 4) (dA : BitVec 4) (tQ : TypeCode) (dual : BitVec 1) (mask : BitVec 2) (x : Code7)
  /-- CHBLK (R322): Applies one attention block through the Sleeve. -/
  | chblk (sl : BitVec 2) (dA : BitVec 4) (dB : BitVec 4) (dM : BitVec 4) (tK : TypeCode) (tV : TypeCode)
  /-- CHEND (R324): Ends an open chain slot. -/
  | chend (sl : BitVec 2)
  /-- CHFIN (R325): Writes normalised output rows and the zero-row count flag, and unbinds the slot. -/
  | chfin (sl : BitVec 2) (dA : BitVec 4) (n : BitVec 10)
  /-- CHMRG (R326): Merges two ended chain slots row by row. -/
  | chmrg (sA : BitVec 2) (sB : BitVec 2)
  /-- CHST (R327): Stores a chain slot's state image. -/
  | chst (sl : BitVec 2) (x : Code7)
  /-- CHLD (R327): Loads a chain slot's state image and binds a tile. -/
  | chld (sl : BitVec 2) (z : BitVec 4) (x : Code7)
  /-- CHSCL (R321): Sets the chain constant. -/
  | chscl (sl : BitVec 2) (x : Code7)
  /-- SCL (R317): Loads an edge's scale latch with 128 E8M0 scales. -/
  | scl (latch : BitVec 2) (row : BitVec 5) (m : BitVec 5)
  /-- SXV (R317): Sets an edge's extra value for E2M1 code 0b1000. -/
  | sxv (latch : BitVec 2) (row : BitVec 5) (m : BitVec 5)
  /-- STS (R317): Sets an edge's per-tensor scale. -/
  | sts (latch : BitVec 2) (row : BitVec 5) (m : BitVec 5)
  /-- CPY (R232): Starts a copy channel on a transfer list, optionally through the dependency table. -/
  | cpy (ch : BitVec 1) (x : Code7) (n : BitVec 12) (dw : BitVec 1) (k : BitVec 4)
  /-- CPWP (R233): Returns a channel's write pointer or raises its stored error. -/
  | cpwp (d : Code7) (ch : BitVec 1)
  /-- CPWAIT (R233): Waits until the write pointer reaches a value or raises the stored error. -/
  | cpwait (ch : BitVec 1) (x : Code7)
  /-- CPABORT (R234): Stops a channel at its first attempt, waits for rows in flight, clears any error. -/
  | cpabort (ch : BitVec 1)
  /-- BARINIT (R236): Initialises a barrier object. -/
  | barinit (x : Code7) (y : Code7)
  /-- BAREXP (R236): Adds an expected byte count to PENDING and tests for completion. -/
  | barexp (x : Code7) (y : Code7)
  /-- BARARR (R236): Adds one arrival and bytes to a barrier object and tests for completion. -/
  | bararr (x : Code7) (y : Code7)
  /-- BARWAIT (R237): Waits until the object's phase differs from the given parity. -/
  | barwait (x : Code7) (y : Code7)
  /-- BARTST (R237): Returns the object's phase word. -/
  | bartst (d : Code7) (x : Code7)
  /-- WOPEN (R241): Waits for a free window and opens it from a descriptor. -/
  | wopen (w : BitVec 3) (x : Code7)
  /-- WADV (R243): Retires or publishes window rows. -/
  | wadv (w : BitVec 3) (x : Code7)
  /-- WCLOSE (R244): Ends a window after its rows in flight complete. -/
  | wclose (w : BitVec 3)
  /-- WSTAT (R244): Returns a window's status word. -/
  | wstat (d : Code7) (w : BitVec 3)
  /-- RRES (R248): Waits for space and reserves the next ring sequence. -/
  | rres (d : Code7) (x : Code7)
  /-- RPUB (R249): Publishes a ring sequence, possibly out of turn. -/
  | rpub (x : Code7) (y : Code7)
  /-- RTAKE (R250): Waits until a ring sequence is published. -/
  | rtake (x : Code7) (y : Code7)
  /-- RREL (R250): Releases a ring sequence. -/
  | rrel (x : Code7) (y : Code7)
  /-- BGIVE (R238): Offers a core-store buffer to a quad core. -/
  | bgive (home : BitVec 2) (buf : BitVec 7) (rcv : BitVec 2)
  /-- BTAKE (R239): Waits for an offer and takes the buffer, writing a buffer handle. -/
  | btake (home : BitVec 2) (buf : BitVec 7) (n : BitVec 4)
  /-- BOPEN (R240): Admits a quad channel's multicast into a buffer. -/
  | bopen (buf : BitVec 7) (src : BitVec 2) (ch : BitVec 1)
  /-- BCLOSE (R240): Ends a multicast admission. -/
  | bclose (buf : BitVec 7) (src : BitVec 2) (ch : BitVec 1)
  /-- FSET (R223): Writes a flag word. -/
  | fset (n : BitVec 10) (x : Code7)
  /-- FADD_FLAG (R223): Adds to a flag word and returns its old value. -/
  | faddFlag (n : BitVec 10) (x : Code7) (d : Code7)
  /-- FWAIT (R223): Waits until a flag is at least a value. -/
  | fwait (n : BitVec 10) (x : Code7)
  /-- FWAITEQ (R223): Waits until a flag equals a value. -/
  | fwaiteq (n : BitVec 10) (x : Code7)
  /-- SBIND (R225): Binds a stream port to a circular core-store region. -/
  | sbind (p : BitVec 3) (dir : BitVec 1) (wd : BitVec 2) (sx : BitVec 1) (x : Code7) (y : Code7)
  /-- SBIND_WINDOW (R246): Binds a stream port to a window's rows. -/
  | sbindWindow (p : BitVec 3) (dir : BitVec 1) (wd : BitVec 2) (sx : BitVec 1) (w : BitVec 3)
  /-- SUNB (R227): Unbinds a stream port. -/
  | sunb (p : BitVec 3)
  /-- SPOS (R227): Returns a stream port's position. -/
  | spos (d : Code7) (p : BitVec 3)
  /-- TDSET (R228): Loads a tile descriptor from a core-store image. -/
  | tdset (k : BitVec 4) (x : Code7)
  /-- TDGET (R228): Returns eight bytes of a tile descriptor. -/
  | tdget (d : Code7) (k : BitVec 4) (q : BitVec 2)
  /-- LOOP (R155): Pushes a hardware loop with a count from a register. -/
  | loop (x : Code7) (n : BitVec 12)
  /-- LOOPI (R155): Pushes a hardware loop with an immediate count. -/
  | loopi (lo : BitVec 7) (hi : BitVec 7) (n : BitVec 12)
  /-- PLOOP (R158): Pushes a pipelined loop with stages and epilogue passes. -/
  | ploop (x : Code7) (n : BitVec 12) (s1 : BitVec 3) (e : BitVec 3)
  /-- LEXIT (R156): Pops loop levels. -/
  | lexit (k : BitVec 3)
  /-- SETTI (R162): Writes a target register from a code-address offset. -/
  | setti (k : BitVec 3) (imm : BitVec 18)
  /-- DRAIN (R263): Waits until earlier non-local accesses at the scope have performed. -/
  | drain (scope : BitVec 3)
  /-- FENCE_ACQ (R264): Orders later core-store reads after earlier non-local reads. -/
  | fenceAcq (scope : BitVec 3)
  /-- FENCE_REL (R264): Waits until earlier writes at the scope have performed. -/
  | fenceRel (scope : BitVec 3)
  /-- TSPAWN (R354): Creates one task record from a template. -/
  | tspawn (x : Code7) (y : Code7)
  /-- TSPAWN_G (R354): Creates a team of task records from a template. -/
  | tspawnG (x : Code7) (y : Code7) (n : BitVec 16)
  /-- TARM (R353): Arms a record for expected signals, enqueuing it if none remain. -/
  | tarm (x : Code7) (y : Code7)
  /-- TSIG (R353): Signals a record's dependence counter. -/
  | tsig (x : Code7)
  /-- TEXIT (R356): Ends the task: waits for commands, fences, closes engines, signals successors and releases the context. -/
  | texit (x : Code7)
  /-- TSETQ (R362): Sets a record's priority, requeuing it if queued. -/
  | tsetq (x : Code7) (p : BitVec 2)
  /-- TSETQ_SELF (R362): Sets the issuing task's own priority. -/
  | tsetqSelf (p : BitVec 2)
  /-- BSYNC (R366): Fences and arrives at the team barrier of a scope, waiting for release. -/
  | bsync (scope : BitVec 3)
  /-- PUT (R381): Sends local bytes to a remote location with optional flags. -/
  | put (x : Code7)
  /-- GET (R381): Fetches remote bytes into a local location. -/
  | get (x : Code7)
  /-- RAMO (R381): Performs an atomic at a remote die and returns the old value. -/
  | ramo (x : Code7)
  /-- LBOPEN (R387): Waits for a link buffer and takes it EMPTY with a counting object. -/
  | lbopen (n : BitVec 4) (x : Code7)
  /-- LBSEND (R388): Sends a link buffer's bytes as one message to a neighbour's buffer. -/
  | lbsend (n : BitVec 4) (x : Code7) (lk : BitVec 3) (m : BitVec 4)
  /-- LBFREE (R389): Waits for users and makes a link buffer EMPTY. -/
  | lbfree (n : BitVec 4)
  /-- LBFREE_CLOSE (R389): Waits for users and closes a link buffer. -/
  | lbfreeClose (n : BitVec 4)
  /-- CGRP (R397): Sets the context's collective group from an operand. -/
  | cgrp (x : Code7) (scope : BitVec 3) (op : BitVec 1) (tout : BitVec 4)
  /-- CGRP_TEAM (R397): Sets the collective group from the task's team. -/
  | cgrpTeam (scope : BitVec 3) (op : BitVec 1) (tout : BitVec 4)
  /-- CBR (R398): Contributes to a collective round and runs speculatively on a predicted leaf. -/
  | cbr (t : BitVec 10) (k : BitVec 3)
  /-- CBR_WAIT (R398): Contributes to a collective round and waits for the outcome. -/
  | cbrWait (t : BitVec 10)
  /-- RECONF (R393): Contributes a reconfiguration plan to the pod group. -/
  | reconf (x : Code7) (n : BitVec 10)
  /-- TRAP (R164): Raises a completing SOFTWARE trap. -/
  | trap (code : BitVec 18)
  /-- SVC (R419): Asks the supervisor for a service and freezes until it writes the block. -/
  | svc (x : Code7) (n : BitVec 8)
  /-- NTFY (R418): Fences and queues a NOTIFY to the tenant. -/
  | ntfy (x : Code7) (code : BitVec 16)
  /-- BUNDLE_ISSUE (R138): A context fetches and issues one bundle: loop pops, tree tests, operand reads, trap checks, slot performance and the choice of the next bundle. -/
  | bundleIssue
  /-- DICTIONARY_FILL (R98): A missed dictionary entry arrives in the bundle dictionary cache and the frozen context may fetch again. -/
  | dictionaryFill
  /-- RESULT_LANDING (R139): A fixed-latency result lands in its destination at issue plus latency, entering the Hem where its destination code says so. -/
  | resultLanding
  /-- TRAP_ENTRY (R163): After in-flight results land, the trap records are written, INH is set and control passes to the handler, or the task fails. -/
  | trapEntry
  /-- MAXRUN_EXCEEDED (R86): The count of bundles since the last iteration boundary exceeds MAXRUN and the task fails. -/
  | maxrunExceeded
  /-- NOP (R100): A/B-slot no-operation. -/
  | nop
  /-- NOP_L (R100): L-slot no-operation. -/
  | nopL
  /-- LDH_REPLY (R214): A handle load or atomic reply arrives, writes its register and ends the interlock. -/
  | ldhReply
  /-- ACCESS_PERFORM (R255): A non-local access arrives at its point of coherence and performs there. -/
  | accessPerform
  /-- REFUSAL (R202): A target refuses a request with a retry-after hint; the sixteenth refusal ends it as REFUSED. -/
  | refusal
  /-- REFUSAL_RETRY (R202): The retry-after time expires and the engine re-sends the request. -/
  | refusalRetry
  /-- FORWARDING_POINTER (R201): A stale-routed request receives a forwarding pointer and is re-sent to the current stack. -/
  | forwardingPointer
  /-- NOP_V (R100): V-slot no-operation. -/
  | nopV
  /-- NOP_M (R100): M-slot no-operation. -/
  | nopM
  /-- MWAIT_ALL (R312): Waits for every earlier M-slot command of the context. -/
  | mwaitAll
  /-- COMMAND_ISSUE (R300): A ready command issues from the dependency table to its engine, reading its operands. -/
  | commandIssue
  /-- COMMAND_COMPLETE (R303): A command's writes have performed and its entry and comparators are freed, or a malformed command stores its error. -/
  | commandComplete
  /-- NOP_S (R128): S-slot no-operation. -/
  | nopS
  /-- NOP_C (R100): C-slot no-operation. -/
  | nopC
  /-- COPY_ENTRY_START (R230): A channel reads a transfer-list entry as it starts it, stopping with RANGE if malformed. -/
  | copyEntryStart
  /-- COPY_ROW_DELIVERY (R231): A copied row is delivered at its destinations, counting into barrier objects and the write pointer. -/
  | copyRowDelivery
  /-- WINDOW_ROW_DELIVERY (R242): An inbound window's stream controllers deliver a tensor row into its ring slot. -/
  | windowRowDelivery
  /-- WINDOW_ROW_STORE (R242): An outbound window stores a published slot to its tensor row. -/
  | windowRowStore
  /-- LINK (R162): Writes the return address into t6. -/
  | link
  /-- BARRIER_RELEASE (R90): A hardware barrier network releases its members after the last arrival. -/
  | barrierRelease
  /-- REMOTE_REQUEST (R380): The target side receives a remote operation, checks it and performs it. -/
  | remoteRequest
  /-- PUT_ACK (R381): A PUT acknowledgement reaches the sender, which increments LFLAG. -/
  | putAck
  /-- GET_DATA (R381): GET data arrive and are written locally. -/
  | getData
  /-- RAMO_RESULT (R381): A RAMO's old value arrives and is written at LADDR. -/
  | ramoResult
  /-- LB_MESSAGE (R388): A link-buffer message is admitted into its destination buffer and counted into its object. -/
  | lbMessage
  /-- CBR_OUTCOME (R401): A collective outcome arrives; flags are written and the speculative path is released or discarded. -/
  | cbrOutcome
  /-- COLLECTIVE_TIMEOUT (R399): The absence timeout expires and missing members are declared absent. -/
  | collectiveTimeout
  /-- RECONF_MEET (R395): All plans meet, are checked, and affected links are drained and circuits requested. -/
  | reconfMeet
  /-- CROSSCONNECT_CONFIRM (R395): The fibre cross-connect confirms the circuits and the links retrain. -/
  | crossconnectConfirm
  /-- RECONF_TIMEOUT (R395): No confirmation after 1 s: previous circuits and routes are restored. -/
  | reconfTimeout
  /-- TGACK (R392): Adopts the die's topology generation. -/
  | tgack
  /-- TRET (R165): Returns from a trap handler to TRAPPC. -/
  | tret
  /-- TLB_WALK_COMPLETE (R332): A page-table walk finishes and fills the TLBs, or finds a missing entry. -/
  | tlbWalkComplete
  /-- FAULT_ANSWER (R334): The supervisor resolves a page fault or declares it unresolvable. -/
  | faultAnswer
  /-- DISPATCH_CHOICE (R363): A die's dispatcher chooses and places at most one queue head per cycle. -/
  | dispatchChoice
  /-- PREEMPT_WITHDRAW (R339): A victim frozen 4,096 cycles has the request withdrawn and reposted. -/
  | preemptWithdraw
  /-- SCRUB_DONE (R70): The 64-cycle context scrub ends and the context is FREE. -/
  | scrubDone
  /-- CORE_SCRUB (R67): The 1,024-cycle tenant-change scrub ends and the core passes to the new tenant. -/
  | coreScrub
  /-- GANG_START (R88): The PTB reaches a gang's start tick and its members may issue. -/
  | gangStart
  /-- PREEMPTION_SAVE (R341): The context's commands and writes complete and its state is written to the save area. -/
  | preemptionSave
  /-- RESTORE (R344): A saved task is reloaded into a context and resumes with exact intervals. -/
  | restore
  /-- TRACKING_PERIOD (R195): The hot-page tracking period expires and up to 256 pages are chosen for migration. -/
  | trackingPeriod
  /-- MIGRATION_SWITCH (R197): A migration copy finishes and the master DPIT entry switches atomically. -/
  | migrationSwitch
  /-- ROW_EXCHANGE (R199): A row passing 4,096 activations is exchanged with a random row of its bank. -/
  | rowExchange
  /-- FLIT_RECEIVE (R374): A flit arrives and is accepted in sequence or discarded with a negative acknowledgement. -/
  | flitReceive
  /-- NEGATIVE_ACKNOWLEDGEMENT (R374): A negative acknowledgement makes the sender replay from the named SEQ. -/
  | negativeAcknowledgement
  /-- ACK_TIMEOUT (R374): No acknowledgement within the timeout triggers a replay. -/
  | ackTimeout
  /-- LINK_RETRAIN (R375): A flit failing three replays makes the link substitute a lane and retrain. -/
  | linkRetrain
  /-- LINK_TRAIN_COMPLETE (R375): Link training ends and unacknowledged flits are replayed, or the link goes out of service. -/
  | linkTrainComplete
  /-- LANE_REPAIR (R376): A lane's corrected-error count passes its limit and a spare lane is substituted. -/
  | laneRepair
  /-- PTB_TIME_MESSAGE (R371): Every 10 µs a parent sends a time message on VC0. -/
  | ptbTimeMessage
  /-- PTB_MESSAGE_RECEIVE (R371): A receiver adjusts its count toward its parent's time. -/
  | ptbMessageReceive
  /-- PTB_PARENT_LOSS (R371): A die losing its parent link chooses another or free-runs and sets PTBLOST. -/
  | ptbParentLoss
  /-- LAUNCH (R406): Host frame that creates a task in place and enqueues it. -/
  | launch
  /-- GANG (R406): Host frame that creates a team and launches it at a start tick. -/
  | gang
  /-- MWRITE (R406): Host frame that writes tenant memory, acknowledged by NOTIFY once performed. -/
  | mwrite
  /-- MWRITE_ACK (R204): Host MWRITE with VA bit 63 set acknowledging a device write to the host window. -/
  | mwriteAck
  /-- MREAD (R406): Host frame that reads tenant memory and is answered with data. -/
  | mread
  /-- MREAD_REPLY (R204): Host reply to a device host-window read. -/
  | mreadReply
  /-- HOST_ACCESS_TIMEOUT (R204): A device host-window request unanswered for 1 ms is resent, ending REFUSED at the sixteenth. -/
  | hostAccessTimeout
  /-- MAP (R406): Tenant-0 frame that writes a page-table entry, scanning executable pages. -/
  | map
  /-- UNMAP (R176): Tenant-0 frame that removes a mapping, invalidating handles and TLB entries. -/
  | unmap
  /-- HEALTH (R410): Frame requesting the health word, answered sealed or unsealed. -/
  | health
  /-- ATTEST (R407): Signed attestation request answered with a key encapsulation, from which the tenant key is derived. -/
  | attest
  /-- ATTEST_CERT (R407): Empty ATTEST request answered with the device identity certificate. -/
  | attestCert
  /-- TKEY (R409): Tenant-0 frame that registers or deregisters a tenant host key and sets window size. -/
  | tkey
  /-- COLD_START (R411): Power-on or cold start runs all start steps. -/
  | coldStart
  /-- WARM_START (R412): Warm start runs the reduced steps, optionally preserving HBM. -/
  | warmStart
  /-- POWER_LIMIT (R34): The management core lowers core clocks to keep within 2,800 W. -/
  | powerLimit
  /-- DIE_THROTTLE (R35): A die reaching its throttle temperature has its core clocks lowered. -/
  | dieThrottle
  /-- HBM_REFRESH_DOUBLE (R35): An HBM stack above 85 °C doubles its refresh rate. -/
  | hbmRefreshDouble
  /-- HBM_THROTTLE (R35): An HBM stack at its throttle temperature spaces activations and lowers clocks. -/
  | hbmThrottle
  /-- THERMAL_TRIP (R35): A trip temperature stops all dies, powers HBM down and reports THERMAL-TRIP. -/
  | thermalTrip
  /-- CORE_ERROR (R416): An uncorrectable core error fails its tasks, scrubs the core and substitutes the spare. -/
  | coreError
  /-- DIE_THROTTLE_RELEASE (R35): A throttled die cools to 3 °C below its throttle temperature and its clock lowering ends. -/
  | dieThrottleRelease
  /-- HBM_THROTTLE_RELEASE (R35): A throttled HBM stack cools to 3 °C below its throttle temperature, and both the activation spacing and the clock lowering end. -/
  | hbmThrottleRelease
  /-- SVC_ANSWER (R419): The supervisor writes an SVC request block and the frozen context resumes. -/
  | svcAnswer
  /-- REHASH_WALK (R194): The supervisor starts a rehash walk into an empty domain, and when it ends the emptied old domain takes the new masks. -/
  | rehashWalk
  /-- REGION_DESCRIPTOR (R185): The supervisor writes or removes a view-region descriptor in a base die, refusing one that breaks the limits, and sets or clears FIX and REG. -/
  | regionDescriptor
  /-- ROUTER_ADVERTISEMENT (R404): A received router advertisement makes the module form or refresh a global IPv6 address by stateless autoconfiguration. -/
  | routerAdvertisement
  /-- ADDRESS_LIFETIME_EXPIRY (R404): A global IPv6 address's lifetime runs out and the module stops holding it. -/
  | addressLifetimeExpiry
  /-- ICMPV6_REQUEST (R404): An ICMPv6 neighbour-discovery, router-solicitation or echo packet arrives and is answered. -/
  | icmpv6Request
  /-- CORRECTED_ERROR (R417): A corrected error is counted, and passing the supervisor's 24 h limit sets REPLACE and notifies keyed tenants. -/
  | correctedError
  /-- REFRESH_WINDOW (R199): A 32 ms refresh window ends, the banks are refreshed, and the per-row activation counts restart. -/
  | refreshWindow
  deriving DecidableEq, Repr

end Sys2Proof
end

