-- ==== Sys2Proof/WellFormed.lean ====
section
/-! DEFINITION. The static field rules that the code scanner applies to one slot (R130, Table 07.23): operand and
destination codes, slice specs, type codes, immediates. Rules over a whole bundle (ports, masks, streams, tree) are in
Machine/Scan.lean. An event has no encoding and no field rule. -/

namespace Sys2Proof

/-- Legal operand codes (Table 07.5). -/
def opOk (c : Code7) : Bool := decide (c.toNat ≤ 0x66) || (decide (0x68 ≤ c.toNat) && decide (c.toNat ≤ 0x6F))
/-- Legal destination codes (Table 07.6). -/
def dstOk (c : Code7) : Bool := decide (c.toNat ≤ 0x47) || c == 0x7F#7
/-- An s-register code: the destinations of LDH, AMO and AMOC (R124). -/
def sReg (c : Code7) : Bool := decide (c.toNat < 0x40)
/-- Direction field of a slice spec (Table 07.10). -/
def specDir (s : Spec) : Nat := s.toNat / 32 % 4
/-- A legal slice spec: a whole-register spec has index 0 (R114). -/
def specOk (s : Spec) : Bool := specDir s != 3 || decide (s.toNat / 128 = 0)
/-- A row, column or diagonal spec (R208, R276). -/
def partSpec (s : Spec) : Bool := specDir s != 3
/-- A row spec (R292, R293). -/
def rowSpec (s : Spec) : Bool := specDir s == 0
/-- VMOV: both specs whole or neither (R276). -/
def movOk (d a : Spec) : Bool := specOk d && specOk a && ((specDir d == 3) == (specDir a == 3))
/-- Scope codes 1 to 5 (Table 13.6). -/
def scopeOk (s : BitVec 3) : Bool := decide (1 ≤ s.toNat) && decide (s.toNat ≤ 5)
/-- A type code among those listed. -/
def tyIn (t : TypeCode) (l : List Nat) : Bool := l.contains t.toNat
/-- bits(T) (Table 07.16), with MXI6 held in 8 bits. -/
def typeBits (t : TypeCode) : Nat :=
  match t.toNat with
  | 0 | 6 | 7 => 32
  | 1 | 2 | 8 | 9 => 16
  | 5 | 14 => 4
  | _ => 8
/-- Legal VCVT type pairs and parts (R283). -/
def cvtOk (d s : TypeCode) (p : BitVec 3) : Bool :=
  ((d == 0#4 && decide (s.toNat ≤ 11)) || (s == 0#4 && decide (d.toNat ≤ 11))) &&
  (if typeBits d < typeBits s then decide (p.toNat < typeBits s / typeBits d)
   else if typeBits s < typeBits d then decide (p.toNat < typeBits d / typeBits s)
   else p == 0#3)
/-- Legal array type pairs and their MX bit (Table 19.5). -/
def pairOk (a b : TypeCode) (mx : BitVec 1) : Bool :=
  (tyIn a [3, 4, 5] && tyIn b [3, 4, 5]) || (tyIn a [12, 13, 14] && tyIn b [12, 13, 14] && mx == 1#1) ||
  (a == 1#4 && b == 1#4 && mx == 0#1) || (a == 2#4 && b == 2#4 && mx == 0#1)
/-- Types of chain operands (R306). -/
def chainTy (t : TypeCode) : Bool := tyIn t [1, 2, 3, 4, 5]
/-- SCLSRC rules of R305. -/
def sclOk (mx scl : BitVec 1) (a b : BitVec 4) : Bool := if scl == 1#1 then mx == 1#1 else a == 0#4 && b == 0#4
/-- Buffer numbers of BGIVE and BTAKE (Table 13.4). -/
def bufOk (b : BitVec 7) : Bool := b != 0#7 && decide (b.toNat ≤ 95)

/-- The field rules of one slot instruction; an event has none. -/
def Instr.wf : Instr → Bool
  | .add d x y => dstOk d && opOk x && opOk y
  | .sub d x y => dstOk d && opOk x && opOk y
  | .addw d x y => dstOk d && opOk x && opOk y
  | .subw d x y => dstOk d && opOk x && opOk y
  | .mul d x y => dstOk d && opOk x && opOk y
  | .mulh d x y => dstOk d && opOk x && opOk y
  | .mulhu d x y => dstOk d && opOk x && opOk y
  | .mulw d x y => dstOk d && opOk x && opOk y
  | .div d x y => dstOk d && opOk x && opOk y
  | .divu d x y => dstOk d && opOk x && opOk y
  | .rem d x y => dstOk d && opOk x && opOk y
  | .remu d x y => dstOk d && opOk x && opOk y
  | .and d x y => dstOk d && opOk x && opOk y
  | .or d x y => dstOk d && opOk x && opOk y
  | .xor d x y => dstOk d && opOk x && opOk y
  | .andn d x y => dstOk d && opOk x && opOk y
  | .shl d x y => dstOk d && opOk x && opOk y
  | .shr d x y => dstOk d && opOk x && opOk y
  | .sar d x y => dstOk d && opOk x && opOk y
  | .rot d x y => dstOk d && opOk x && opOk y
  | .min d x y => dstOk d && opOk x && opOk y
  | .max d x y => dstOk d && opOk x && opOk y
  | .minu d x y => dstOk d && opOk x && opOk y
  | .maxu d x y => dstOk d && opOk x && opOk y
  | .cmpEq d x y => dstOk d && opOk x && opOk y
  | .cmpNe d x y => dstOk d && opOk x && opOk y
  | .cmpLt d x y => dstOk d && opOk x && opOk y
  | .cmpGe d x y => dstOk d && opOk x && opOk y
  | .cmpLtu d x y => dstOk d && opOk x && opOk y
  | .cmpGeu d x y => dstOk d && opOk x && opOk y
  | .addi d x _ => dstOk d && opOk x
  | .andi d x _ => dstOk d && opOk x
  | .shli d x imm => dstOk d && opOk x && decide (imm.toNat < 64)
  | .shri d x imm => dstOk d && opOk x && decide (imm.toNat < 64)
  | .sari d x imm => dstOk d && opOk x && decide (imm.toNat < 64)
  | .ldi d _ _ n => dstOk d && decide (n.toNat ≤ 4)
  | .lea d x y n => dstOk d && opOk x && opOk y && decide (n.toNat ≤ 6)
  | .sextB d x => dstOk d && opOk x
  | .sextH d x => dstOk d && opOk x
  | .sextW d x => dstOk d && opOk x
  | .zextB d x => dstOk d && opOk x
  | .zextH d x => dstOk d && opOk x
  | .zextW d x => dstOk d && opOk x
  | .clz d x => dstOk d && opOk x
  | .ctz d x => dstOk d && opOk x
  | .popc d x => dstOk d && opOk x
  | .fadd d x y => dstOk d && opOk x && opOk y
  | .fsub d x y => dstOk d && opOk x && opOk y
  | .fmul d x y => dstOk d && opOk x && opOk y
  | .fmin d x y => dstOk d && opOk x && opOk y
  | .fmax d x y => dstOk d && opOk x && opOk y
  | .fcmpEq d x y => dstOk d && opOk x && opOk y
  | .fcmpLt d x y => dstOk d && opOk x && opOk y
  | .fcmpLe d x y => dstOk d && opOk x && opOk y
  | .fcmpUn d x y => dstOk d && opOk x && opOk y
  | .fcvtF32I32 d x => dstOk d && opOk x
  | .fcvtI32F32 d x => dstOk d && opOk x
  | .fcvtI32F32Rz d x => dstOk d && opOk x
  | .fcvtBf16F32 d x => dstOk d && opOk x
  | .fcvtF32Bf16 d x => dstOk d && opOk x
  | .fcvtF16F32 d x => dstOk d && opOk x
  | .fcvtF32F16 d x => dstOk d && opOk x
  | .fcvtF32I64 d x => dstOk d && opOk x
  | .fdiv d x y => dstOk d && opOk x && opOk y
  | .fsqrt d x => dstOk d && opOk x
  | .sett k x => decide (k.toNat ≤ 6) && opOk x
  | .rdt d k => dstOk d && decide (k.toNat ≤ 6)
  | .rdsys d _ => dstOk d
  | .wrsys _ x => opOk x
  | .mov d x => dstOk d && opOk x
  | .ldB d base _ => dstOk d && opOk base
  | .ldBu d base _ => dstOk d && opOk base
  | .ldH d base _ => dstOk d && opOk base
  | .ldHu d base _ => dstOk d && opOk base
  | .ldW d base _ => dstOk d && opOk base
  | .ldWu d base _ => dstOk d && opOk base
  | .ldD d base _ => dstOk d && opOk base
  | .stB data base _ => opOk data && opOk base
  | .stH data base _ => opOk data && opOk base
  | .stW data base _ => opOk data && opOk base
  | .stD data base _ => opOk data && opOk base
  | .ldmr sl base _ => partSpec sl && opOk base
  | .stmr sl base _ => partSpec sl && opOk base
  | .xlat _ off _ => opOk off
  | .hrel _ => true
  | .hinfo d _ => dstOk d
  | .ldhW d _ off _ => sReg d && opOk off
  | .ldhD d _ off _ => sReg d && opOk off
  | .sthW data _ off _ => opOk data && opOk off
  | .sthD data _ off _ => opOk data && opOk off
  | .amoSwap d _ off _ scope => sReg d && opOk off && scopeOk scope
  | .amoAdd d _ off _ scope => sReg d && opOk off && scopeOk scope
  | .amoAnd d _ off _ scope => sReg d && opOk off && scopeOk scope
  | .amoOr d _ off _ scope => sReg d && opOk off && scopeOk scope
  | .amoXor d _ off _ scope => sReg d && opOk off && scopeOk scope
  | .amoMin d _ off _ scope => sReg d && opOk off && scopeOk scope
  | .amoMax d _ off _ scope => sReg d && opOk off && scopeOk scope
  | .amoMinu d _ off _ scope => sReg d && opOk off && scopeOk scope
  | .amoMaxu d _ off _ scope => sReg d && opOk off && scopeOk scope
  | .amoFadd d _ off sz scope => sReg d && opOk off && scopeOk scope && sz == 0#1
  | .amoc d _ off _ scope => decide (d.toNat ≤ 62) && opOk off && scopeOk scope
  | .pref _ off _ => opOk off
  | .vadd t d a b _ => tyIn t [0, 1, 2, 6, 7, 8, 9, 10, 11] && partSpec d && partSpec a && partSpec b
  | .vsub t d a b _ => tyIn t [0, 1, 2, 6, 7, 8, 9, 10, 11] && partSpec d && partSpec a && partSpec b
  | .vmul t d a b _ => tyIn t [0, 1, 2, 6, 7, 8, 9, 10, 11] && partSpec d && partSpec a && partSpec b
  | .vfma t d a b _ => tyIn t [0, 1, 2] && partSpec d && partSpec a && partSpec b
  | .vfms t d a b _ => tyIn t [0, 1, 2] && partSpec d && partSpec a && partSpec b
  | .vmin t d a b _ => tyIn t [0, 1, 2, 6, 7, 8, 9, 10, 11] && partSpec d && partSpec a && partSpec b
  | .vmax t d a b _ => tyIn t [0, 1, 2, 6, 7, 8, 9, 10, 11] && partSpec d && partSpec a && partSpec b
  | .vabs t d a _ => tyIn t [0, 1, 2, 6, 8, 10] && partSpec d && partSpec a
  | .vneg t d a _ => tyIn t [0, 1, 2, 6, 8, 10] && partSpec d && partSpec a
  | .vadds t d a x _ => tyIn t [0, 1, 2, 6, 7, 8, 9, 10, 11] && partSpec d && partSpec a && opOk x
  | .vmuls t d a x _ => tyIn t [0, 1, 2, 6, 7, 8, 9, 10, 11] && partSpec d && partSpec a && opOk x
  | .vfmas t d a x _ => tyIn t [0, 1, 2] && partSpec d && partSpec a && opOk x
  | .vexp2 d a _ => partSpec d && partSpec a
  | .vlog2 d a _ => partSpec d && partSpec a
  | .vrcp d a _ => partSpec d && partSpec a
  | .vrsq d a _ => partSpec d && partSpec a
  | .vsqrt d a _ => partSpec d && partSpec a
  | .vcvt t d a src part _ => cvtOk t src part && partSpec d && partSpec a
  | .vqnt t d a x _ => tyIn t [3, 4, 5, 12, 13, 14] && partSpec d && partSpec a && opOk x
  | .vdqnt t d a x _ => tyIn t [3, 4, 5, 12, 13, 14] && partSpec d && partSpec a && opOk x
  | .vand d a b _ => partSpec d && partSpec a && partSpec b
  | .vor d a b _ => partSpec d && partSpec a && partSpec b
  | .vxor d a b _ => partSpec d && partSpec a && partSpec b
  | .vshl t d a b _ => tyIn t [6, 7, 8, 9, 10, 11] && partSpec d && partSpec a && partSpec b
  | .vshr t d a b _ => tyIn t [6, 7, 8, 9, 10, 11] && partSpec d && partSpec a && partSpec b
  | .vsar t d a b _ => tyIn t [6, 7, 8, 9, 10, 11] && partSpec d && partSpec a && partSpec b
  | .vcmpEq t fb x y _ => tyIn t [0, 6, 7] && partSpec x && partSpec y && decide (fb.toNat ≤ 248)
  | .vcmpNe t fb x y _ => tyIn t [0, 6, 7] && partSpec x && partSpec y && decide (fb.toNat ≤ 248)
  | .vcmpLt t fb x y _ => tyIn t [0, 6, 7] && partSpec x && partSpec y && decide (fb.toNat ≤ 248)
  | .vcmpLe t fb x y _ => tyIn t [0, 6, 7] && partSpec x && partSpec y && decide (fb.toNat ≤ 248)
  | .vcmpGt t fb x y _ => tyIn t [0, 6, 7] && partSpec x && partSpec y && decide (fb.toNat ≤ 248)
  | .vcmpGe t fb x y _ => tyIn t [0, 6, 7] && partSpec x && partSpec y && decide (fb.toNat ≤ 248)
  | .vcmpUn t fb x y _ => tyIn t [0] && partSpec x && partSpec y && decide (fb.toNat ≤ 248)
  | .vblend t d a b _ => tyIn t [0, 1, 2, 3, 4, 5, 6, 7, 8, 9, 10, 11, 12, 13, 14] && partSpec d && partSpec a && partSpec b
  | .vredsum t d a _ => tyIn t [0, 6, 7] && partSpec d && partSpec a
  | .vredmax t d a _ => tyIn t [0, 6, 7] && partSpec d && partSpec a
  | .vredmin t d a _ => tyIn t [0, 6, 7] && partSpec d && partSpec a
  | .vbcast t d a k _ => tyIn t [0, 1, 2, 3, 4, 5, 6, 7, 8, 9, 10, 11, 12, 13, 14] && partSpec d && partSpec a && decide (k.toNat < 1024 / typeBits t)
  | .vmov d a _ => movOk d a
  | .vslide t d a sh _ => tyIn t [0, 1, 2, 3, 4, 5, 6, 7, 8, 9, 10, 11, 12, 13, 14] && partSpec d && partSpec a && sh != 0x100#9
  | .vslide2 t d a b _ => tyIn t [0, 1, 2, 3, 4, 5, 6, 7, 8, 9, 10, 11, 12, 13, 14] && partSpec d && partSpec a && partSpec b
  | .vmacw t d a b _ => tyIn t [1, 8] && partSpec d && partSpec a && partSpec b && rowSpec d
  | .vnar t d a _ _ => tyIn t [8, 9] && partSpec d && partSpec a && rowSpec a
  | .vperm t d a b _ => tyIn t [0, 1, 2, 3, 4, 6, 7, 8, 9, 10, 11, 12, 13] && partSpec d && partSpec a && partSpec b
  | .vzrd d _ _ _ _ => partSpec d
  | .vzrdL d _ _ _ _ => partSpec d
  | .vzwr d _ _ _ _ => partSpec d
  | .vzero d _ => specOk d
  | .viota t d _ => tyIn t [0, 6, 7, 8, 9, 10, 11] && partSpec d
  | .mmaS _ _ _ tA tB _ mx _ _ sclsrc dSA dSB => pairOk tA tB mx && sclOk mx sclsrc dSA dSB
  | .mmaV _ _ _ tA tB _ mx _ _ sclsrc dSA dSB => pairOk tA tB mx && sclOk mx sclsrc dSA dSB
  | .mmaSg _ _ _ tA tB _ mx _ _ _ _ => pairOk tA tB mx
  | .mmaVg _ _ _ tA tB _ mx _ _ _ _ => pairOk tA tB mx
  | .mmaQ _ _ _ tA tB _ mx _ _ x => pairOk tA tB mx && opOk x
  | .zalloc _ _ _ _ => true
  | .zfree _ => true
  | .zswap _ => true
  | .zzero _ _ => true
  | .mwait _ => true
  | .chbeg _ _ _ tQ _ _ x => chainTy tQ && opOk x
  | .chblk _ _ _ _ tK tV => chainTy tK && chainTy tV
  | .chend _ => true
  | .chfin _ _ _ => true
  | .chmrg sA sB => sA != sB
  | .chst _ x => opOk x
  | .chld _ _ x => opOk x
  | .chscl _ x => opOk x
  | .scl _ _ _ => true
  | .sxv _ _ _ => true
  | .sts _ _ _ => true
  | .cpy _ x n dw k => opOk x && n != 0#12 && (dw == 1#1 || k == 0#4)
  | .cpwp d _ => dstOk d
  | .cpwait _ x => opOk x
  | .cpabort _ => true
  | .barinit x y => opOk x && opOk y
  | .barexp x y => opOk x && opOk y
  | .bararr x y => opOk x && opOk y
  | .barwait x y => opOk x && opOk y
  | .bartst d x => dstOk d && opOk x
  | .wopen _ x => opOk x
  | .wadv _ x => opOk x
  | .wclose _ => true
  | .wstat d _ => dstOk d
  | .rres d x => dstOk d && opOk x
  | .rpub x y => opOk x && opOk y
  | .rtake x y => opOk x && opOk y
  | .rrel x y => opOk x && opOk y
  | .bgive _ buf _ => bufOk buf
  | .btake _ buf _ => bufOk buf
  | .bopen buf _ _ => decide (buf.toNat ≤ 95)
  | .bclose buf _ _ => decide (buf.toNat ≤ 95)
  | .fset _ x => opOk x
  | .faddFlag _ x d => opOk x && dstOk d
  | .fwait _ x => opOk x
  | .fwaiteq _ x => opOk x
  | .sbind _ dir _ sx x y => opOk x && opOk y && !(sx == 1#1 && dir == 1#1)
  | .sbindWindow _ dir _ sx _ => !(sx == 1#1 && dir == 1#1)
  | .sunb _ => true
  | .spos d _ => dstOk d
  | .tdset _ x => opOk x
  | .tdget d _ _ => dstOk d
  | .loop x n => opOk x && n != 0#12
  | .loopi lo hi n => !(lo == 0#7 && hi == 0#7) && n != 0#12
  | .ploop x n s1 e => opOk x && n != 0#12 && decide (e.toNat ≤ s1.toNat)
  | .lexit k => k != 0#3 && k != 7#3
  | .setti k _ => k != 7#3
  | .drain scope => scopeOk scope
  | .fenceAcq scope => scopeOk scope && scope != 1#3
  | .fenceRel scope => scopeOk scope && scope != 1#3
  | .tspawn x y => opOk x && opOk y
  | .tspawnG x y n => opOk x && opOk y && n != 0#16
  | .tarm x y => opOk x && opOk y
  | .tsig x => opOk x
  | .texit x => opOk x
  | .tsetq x _ => opOk x
  | .tsetqSelf _ => true
  | .bsync scope => scopeOk scope
  | .put x => opOk x
  | .get x => opOk x
  | .ramo x => opOk x
  | .lbopen _ x => opOk x
  | .lbsend _ x lk _ => opOk x && decide (lk.toNat ≤ 5)
  | .lbfree _ => true
  | .lbfreeClose _ => true
  | .cgrp x scope _ _ => opOk x && scopeOk scope
  | .cgrpTeam scope _ _ => scopeOk scope
  | .cbr t k => decide (t.toNat ≤ 1014) && decide (k.toNat ≤ 4)
  | .cbrWait t => decide (t.toNat ≤ 1014)
  | .reconf x n => opOk x && decide (n.toNat ≤ 1015)
  | .trap _ => true
  | .svc x _ => opOk x
  | .ntfy x _ => opOk x
  | .bundleIssue => true
  | .dictionaryFill => true
  | .resultLanding => true
  | .trapEntry => true
  | .maxrunExceeded => true
  | .nop => true
  | .nopL => true
  | .ldhReply => true
  | .accessPerform => true
  | .refusal => true
  | .refusalRetry => true
  | .forwardingPointer => true
  | .nopV => true
  | .nopM => true
  | .mwaitAll => true
  | .commandIssue => true
  | .commandComplete => true
  | .nopS => true
  | .nopC => true
  | .copyEntryStart => true
  | .copyRowDelivery => true
  | .windowRowDelivery => true
  | .windowRowStore => true
  | .link => true
  | .barrierRelease => true
  | .remoteRequest => true
  | .putAck => true
  | .getData => true
  | .ramoResult => true
  | .lbMessage => true
  | .cbrOutcome => true
  | .collectiveTimeout => true
  | .reconfMeet => true
  | .crossconnectConfirm => true
  | .reconfTimeout => true
  | .tgack => true
  | .tret => true
  | .tlbWalkComplete => true
  | .faultAnswer => true
  | .dispatchChoice => true
  | .preemptWithdraw => true
  | .scrubDone => true
  | .coreScrub => true
  | .gangStart => true
  | .preemptionSave => true
  | .restore => true
  | .trackingPeriod => true
  | .migrationSwitch => true
  | .rowExchange => true
  | .flitReceive => true
  | .negativeAcknowledgement => true
  | .ackTimeout => true
  | .linkRetrain => true
  | .linkTrainComplete => true
  | .laneRepair => true
  | .ptbTimeMessage => true
  | .ptbMessageReceive => true
  | .ptbParentLoss => true
  | .launch => true
  | .gang => true
  | .mwrite => true
  | .mwriteAck => true
  | .mread => true
  | .mreadReply => true
  | .hostAccessTimeout => true
  | .map => true
  | .unmap => true
  | .health => true
  | .attest => true
  | .attestCert => true
  | .tkey => true
  | .coldStart => true
  | .warmStart => true
  | .powerLimit => true
  | .dieThrottle => true
  | .hbmRefreshDouble => true
  | .hbmThrottle => true
  | .thermalTrip => true
  | .coreError => true
  | .dieThrottleRelease => true
  | .hbmThrottleRelease => true
  | .svcAnswer => true
  | .rehashWalk => true
  | .regionDescriptor => true
  | .routerAdvertisement => true
  | .addressLifetimeExpiry => true
  | .icmpv6Request => true
  | .correctedError => true
  | .refreshWindow => true

end Sys2Proof
end

