-- ==== Sys2Proof/Decode.lean ====
section
/-! DEFINITION. Decoding and encoding of the slots of a bundle (07 and the encoding tables of 09, 13, 17, 19, 23, 25
and 27). A slot word is first cut into its fields; then the opcode chooses the instruction; a field that the instruction
does not use must be 0 (R101) and the field rules of WellFormed must hold, else the word is refused (none). -/

namespace Sys2Proof

/-- The fields of Table 07.7. -/
structure FAB where
  var : BitVec 4
  dst : BitVec 7
  y : BitVec 7
  x : BitVec 7
  op : BitVec 7
  deriving DecidableEq, Repr

/-- The word with given fields. -/
def packAB (f : FAB) : BitVec 32 := f.var ++ f.dst ++ f.y ++ f.x ++ f.op

/-- The fields of a word. -/
def cutAB (w : BitVec 32) : FAB :=
  ⟨w.extractLsb' 28 4, w.extractLsb' 21 7, w.extractLsb' 14 7, w.extractLsb' 7 7, w.extractLsb' 0 7⟩

/-- The fields of Table 07.8, format LA. -/
structure FLA where
  imm : BitVec 18
  data : BitVec 7
  base : BitVec 7
  op : BitVec 8
  deriving DecidableEq, Repr

/-- The word with given fields. -/
def packLA (f : FLA) : BitVec 40 := f.imm ++ f.data ++ f.base ++ f.op

/-- The fields of a word. -/
def cutLA (w : BitVec 40) : FLA :=
  ⟨w.extractLsb' 22 18, w.extractLsb' 15 7, w.extractLsb' 8 7, w.extractLsb' 0 8⟩

/-- The fields of Table 07.8, format LM. -/
structure FLM where
  imm : BitVec 13
  slice : BitVec 12
  base : BitVec 7
  op : BitVec 8
  deriving DecidableEq, Repr

/-- The word with given fields. -/
def packLM (f : FLM) : BitVec 40 := f.imm ++ f.slice ++ f.base ++ f.op

/-- The fields of a word. -/
def cutLM (w : BitVec 40) : FLM :=
  ⟨w.extractLsb' 27 13, w.extractLsb' 15 12, w.extractLsb' 8 7, w.extractLsb' 0 8⟩

/-- The fields of Table 07.8, format LH. -/
structure FLH where
  imm : BitVec 14
  data : BitVec 7
  off : BitVec 7
  h : BitVec 4
  op : BitVec 8
  deriving DecidableEq, Repr

/-- The word with given fields. -/
def packLH (f : FLH) : BitVec 40 := f.imm ++ f.data ++ f.off ++ f.h ++ f.op

/-- The fields of a word. -/
def cutLH (w : BitVec 40) : FLH :=
  ⟨w.extractLsb' 26 14, w.extractLsb' 19 7, w.extractLsb' 12 7, w.extractLsb' 8 4, w.extractLsb' 0 8⟩

/-- The fields of Table 07.9. -/
structure FV where
  ty : BitVec 4
  b : BitVec 12
  a : BitVec 12
  d : BitVec 12
  rel : BitVec 1
  op : BitVec 7
  deriving DecidableEq, Repr

/-- The word with given fields. -/
def packV (f : FV) : BitVec 48 := f.ty ++ f.b ++ f.a ++ f.d ++ f.rel ++ f.op

/-- The fields of a word. -/
def cutV (w : BitVec 48) : FV :=
  ⟨w.extractLsb' 44 4, w.extractLsb' 32 12, w.extractLsb' 20 12, w.extractLsb' 8 12, w.extractLsb' 7 1, w.extractLsb' 0 7⟩

/-- The fields of Table 07.11. -/
structure FM where
  imm : BitVec 16
  dual : BitVec 1
  sclsrc : BitVec 1
  mx : BitVec 1
  acc : BitVec 1
  tB : BitVec 4
  tA : BitVec 4
  z : BitVec 4
  dB : BitVec 4
  dA : BitVec 4
  op : BitVec 8
  deriving DecidableEq, Repr

/-- The word with given fields. -/
def packM (f : FM) : BitVec 48 := f.imm ++ f.dual ++ f.sclsrc ++ f.mx ++ f.acc ++ f.tB ++ f.tA ++ f.z ++ f.dB ++ f.dA ++ f.op

/-- The fields of a word. -/
def cutM (w : BitVec 48) : FM :=
  ⟨w.extractLsb' 32 16, w.extractLsb' 31 1, w.extractLsb' 30 1, w.extractLsb' 29 1, w.extractLsb' 28 1, w.extractLsb' 24 4, w.extractLsb' 20 4, w.extractLsb' 16 4, w.extractLsb' 12 4, w.extractLsb' 8 4, w.extractLsb' 0 8⟩

/-- The fields of Table 07.12. -/
structure FC where
  imm : BitVec 18
  y : BitVec 7
  x : BitVec 7
  op : BitVec 8
  deriving DecidableEq, Repr

/-- The word with given fields. -/
def packC (f : FC) : BitVec 40 := f.imm ++ f.y ++ f.x ++ f.op

/-- The fields of a word. -/
def cutC (w : BitVec 40) : FC :=
  ⟨w.extractLsb' 22 18, w.extractLsb' 15 7, w.extractLsb' 8 7, w.extractLsb' 0 8⟩

/-- The fields of Table 07.13. -/
structure FS where
  latch : BitVec 2
  row : BitVec 5
  m : BitVec 5
  op : BitVec 4
  deriving DecidableEq, Repr

/-- The word with given fields. -/
def packS (f : FS) : BitVec 16 := f.latch ++ f.row ++ f.m ++ f.op

/-- The fields of a word. -/
def cutS (w : BitVec 16) : FS :=
  ⟨w.extractLsb' 14 2, w.extractLsb' 9 5, w.extractLsb' 4 5, w.extractLsb' 0 4⟩

/-- The instruction with given fields, by opcode; none for an opcode outside the map or a nonzero unused field. -/
def decAB (f : FAB) : Option Instr :=
  match f.op.toNat with
  | 0 => if f.var = 0#4 ∧ f.dst = 0#7 ∧ f.y = 0#7 ∧ f.x = 0#7 then some (.nop) else none
  | 1 => if f.var = 0#4 then some (.add f.dst f.x f.y) else none
  | 2 => if f.var = 0#4 then some (.sub f.dst f.x f.y) else none
  | 3 => if f.var = 0#4 then some (.addw f.dst f.x f.y) else none
  | 4 => if f.var = 0#4 then some (.subw f.dst f.x f.y) else none
  | 5 => if f.var = 0#4 then some (.mul f.dst f.x f.y) else none
  | 6 => if f.var = 0#4 then some (.mulh f.dst f.x f.y) else none
  | 7 => if f.var = 0#4 then some (.mulhu f.dst f.x f.y) else none
  | 8 => if f.var = 0#4 then some (.mulw f.dst f.x f.y) else none
  | 9 => if f.var = 0#4 then some (.div f.dst f.x f.y) else none
  | 10 => if f.var = 0#4 then some (.divu f.dst f.x f.y) else none
  | 11 => if f.var = 0#4 then some (.rem f.dst f.x f.y) else none
  | 12 => if f.var = 0#4 then some (.remu f.dst f.x f.y) else none
  | 13 => if f.var = 0#4 then some (.and f.dst f.x f.y) else none
  | 14 => if f.var = 0#4 then some (.or f.dst f.x f.y) else none
  | 15 => if f.var = 0#4 then some (.xor f.dst f.x f.y) else none
  | 16 => if f.var = 0#4 then some (.andn f.dst f.x f.y) else none
  | 17 => if f.var = 0#4 then some (.shl f.dst f.x f.y) else none
  | 18 => if f.var = 0#4 then some (.shr f.dst f.x f.y) else none
  | 19 => if f.var = 0#4 then some (.sar f.dst f.x f.y) else none
  | 20 => if f.var = 0#4 then some (.rot f.dst f.x f.y) else none
  | 21 => if f.var = 0#4 then some (.min f.dst f.x f.y) else none
  | 22 => if f.var = 0#4 then some (.max f.dst f.x f.y) else none
  | 23 => if f.var = 0#4 then some (.minu f.dst f.x f.y) else none
  | 24 => if f.var = 0#4 then some (.maxu f.dst f.x f.y) else none
  | 25 => if f.var = 0#4 then some (.cmpEq f.dst f.x f.y) else if f.var = 1#4 then some (.cmpNe f.dst f.x f.y) else if f.var = 2#4 then some (.cmpLt f.dst f.x f.y) else if f.var = 3#4 then some (.cmpGe f.dst f.x f.y) else if f.var = 4#4 then some (.cmpLtu f.dst f.x f.y) else if f.var = 5#4 then some (.cmpGeu f.dst f.x f.y) else none
  | 26 => if f.var = 0#4 then some (.addi f.dst f.x f.y) else none
  | 27 => if f.var = 0#4 then some (.andi f.dst f.x f.y) else none
  | 28 => if f.var = 0#4 then some (.shli f.dst f.x f.y) else none
  | 29 => if f.var = 0#4 then some (.shri f.dst f.x f.y) else none
  | 30 => if f.var = 0#4 then some (.sari f.dst f.x f.y) else none
  | 31 => some (.ldi f.dst f.y f.x f.var)
  | 32 => some (.lea f.dst f.x f.y f.var)
  | 33 => if f.var = 0#4 ∧ f.y = 0#7 then some (.sextB f.dst f.x) else if f.var = 1#4 ∧ f.y = 0#7 then some (.sextH f.dst f.x) else if f.var = 2#4 ∧ f.y = 0#7 then some (.sextW f.dst f.x) else none
  | 34 => if f.var = 0#4 ∧ f.y = 0#7 then some (.zextB f.dst f.x) else if f.var = 1#4 ∧ f.y = 0#7 then some (.zextH f.dst f.x) else if f.var = 2#4 ∧ f.y = 0#7 then some (.zextW f.dst f.x) else none
  | 35 => if f.var = 0#4 ∧ f.y = 0#7 then some (.clz f.dst f.x) else none
  | 36 => if f.var = 0#4 ∧ f.y = 0#7 then some (.ctz f.dst f.x) else none
  | 37 => if f.var = 0#4 ∧ f.y = 0#7 then some (.popc f.dst f.x) else none
  | 38 => if f.var = 0#4 then some (.fadd f.dst f.x f.y) else none
  | 39 => if f.var = 0#4 then some (.fsub f.dst f.x f.y) else none
  | 40 => if f.var = 0#4 then some (.fmul f.dst f.x f.y) else none
  | 41 => if f.var = 0#4 then some (.fmin f.dst f.x f.y) else none
  | 42 => if f.var = 0#4 then some (.fmax f.dst f.x f.y) else none
  | 43 => if f.var = 0#4 then some (.fcmpEq f.dst f.x f.y) else if f.var = 1#4 then some (.fcmpLt f.dst f.x f.y) else if f.var = 2#4 then some (.fcmpLe f.dst f.x f.y) else if f.var = 3#4 then some (.fcmpUn f.dst f.x f.y) else none
  | 44 => if f.var = 0#4 ∧ f.y = 0#7 then some (.fcvtF32I32 f.dst f.x) else if f.var = 1#4 ∧ f.y = 0#7 then some (.fcvtI32F32 f.dst f.x) else if f.var = 2#4 ∧ f.y = 0#7 then some (.fcvtI32F32Rz f.dst f.x) else if f.var = 3#4 ∧ f.y = 0#7 then some (.fcvtBf16F32 f.dst f.x) else if f.var = 4#4 ∧ f.y = 0#7 then some (.fcvtF32Bf16 f.dst f.x) else if f.var = 5#4 ∧ f.y = 0#7 then some (.fcvtF16F32 f.dst f.x) else if f.var = 6#4 ∧ f.y = 0#7 then some (.fcvtF32F16 f.dst f.x) else if f.var = 7#4 ∧ f.y = 0#7 then some (.fcvtF32I64 f.dst f.x) else none
  | 45 => if f.var = 0#4 then some (.fdiv f.dst f.x f.y) else none
  | 46 => if f.var = 0#4 ∧ f.y = 0#7 then some (.fsqrt f.dst f.x) else none
  | 47 => if f.dst = 0#7 ∧ f.y = 0#7 then some (.sett f.var f.x) else none
  | 48 => if f.y = 0#7 ∧ f.x = 0#7 then some (.rdt f.dst f.var) else none
  | 49 => if f.var = 0#4 ∧ f.x = 0#7 then some (.rdsys f.dst f.y) else none
  | 50 => if f.var = 0#4 ∧ f.dst = 0#7 then some (.wrsys f.y f.x) else none
  | 51 => if f.var = 0#4 ∧ f.y = 0#7 then some (.mov f.dst f.x) else none
  | _ => none

/-- The fields of an instruction of this format. -/
def encAB : Instr → Option FAB
  | .nop => some ⟨0#4, 0#7, 0#7, 0#7, 0#7⟩
  | .add d x y => some ⟨0#4, d, y, x, 1#7⟩
  | .sub d x y => some ⟨0#4, d, y, x, 2#7⟩
  | .addw d x y => some ⟨0#4, d, y, x, 3#7⟩
  | .subw d x y => some ⟨0#4, d, y, x, 4#7⟩
  | .mul d x y => some ⟨0#4, d, y, x, 5#7⟩
  | .mulh d x y => some ⟨0#4, d, y, x, 6#7⟩
  | .mulhu d x y => some ⟨0#4, d, y, x, 7#7⟩
  | .mulw d x y => some ⟨0#4, d, y, x, 8#7⟩
  | .div d x y => some ⟨0#4, d, y, x, 9#7⟩
  | .divu d x y => some ⟨0#4, d, y, x, 10#7⟩
  | .rem d x y => some ⟨0#4, d, y, x, 11#7⟩
  | .remu d x y => some ⟨0#4, d, y, x, 12#7⟩
  | .and d x y => some ⟨0#4, d, y, x, 13#7⟩
  | .or d x y => some ⟨0#4, d, y, x, 14#7⟩
  | .xor d x y => some ⟨0#4, d, y, x, 15#7⟩
  | .andn d x y => some ⟨0#4, d, y, x, 16#7⟩
  | .shl d x y => some ⟨0#4, d, y, x, 17#7⟩
  | .shr d x y => some ⟨0#4, d, y, x, 18#7⟩
  | .sar d x y => some ⟨0#4, d, y, x, 19#7⟩
  | .rot d x y => some ⟨0#4, d, y, x, 20#7⟩
  | .min d x y => some ⟨0#4, d, y, x, 21#7⟩
  | .max d x y => some ⟨0#4, d, y, x, 22#7⟩
  | .minu d x y => some ⟨0#4, d, y, x, 23#7⟩
  | .maxu d x y => some ⟨0#4, d, y, x, 24#7⟩
  | .cmpEq d x y => some ⟨0#4, d, y, x, 25#7⟩
  | .cmpNe d x y => some ⟨1#4, d, y, x, 25#7⟩
  | .cmpLt d x y => some ⟨2#4, d, y, x, 25#7⟩
  | .cmpGe d x y => some ⟨3#4, d, y, x, 25#7⟩
  | .cmpLtu d x y => some ⟨4#4, d, y, x, 25#7⟩
  | .cmpGeu d x y => some ⟨5#4, d, y, x, 25#7⟩
  | .addi d x imm => some ⟨0#4, d, imm, x, 26#7⟩
  | .andi d x imm => some ⟨0#4, d, imm, x, 27#7⟩
  | .shli d x imm => some ⟨0#4, d, imm, x, 28#7⟩
  | .shri d x imm => some ⟨0#4, d, imm, x, 29#7⟩
  | .sari d x imm => some ⟨0#4, d, imm, x, 30#7⟩
  | .ldi d hi lo n => some ⟨n, d, hi, lo, 31#7⟩
  | .lea d x y n => some ⟨n, d, y, x, 32#7⟩
  | .sextB d x => some ⟨0#4, d, 0#7, x, 33#7⟩
  | .sextH d x => some ⟨1#4, d, 0#7, x, 33#7⟩
  | .sextW d x => some ⟨2#4, d, 0#7, x, 33#7⟩
  | .zextB d x => some ⟨0#4, d, 0#7, x, 34#7⟩
  | .zextH d x => some ⟨1#4, d, 0#7, x, 34#7⟩
  | .zextW d x => some ⟨2#4, d, 0#7, x, 34#7⟩
  | .clz d x => some ⟨0#4, d, 0#7, x, 35#7⟩
  | .ctz d x => some ⟨0#4, d, 0#7, x, 36#7⟩
  | .popc d x => some ⟨0#4, d, 0#7, x, 37#7⟩
  | .fadd d x y => some ⟨0#4, d, y, x, 38#7⟩
  | .fsub d x y => some ⟨0#4, d, y, x, 39#7⟩
  | .fmul d x y => some ⟨0#4, d, y, x, 40#7⟩
  | .fmin d x y => some ⟨0#4, d, y, x, 41#7⟩
  | .fmax d x y => some ⟨0#4, d, y, x, 42#7⟩
  | .fcmpEq d x y => some ⟨0#4, d, y, x, 43#7⟩
  | .fcmpLt d x y => some ⟨1#4, d, y, x, 43#7⟩
  | .fcmpLe d x y => some ⟨2#4, d, y, x, 43#7⟩
  | .fcmpUn d x y => some ⟨3#4, d, y, x, 43#7⟩
  | .fcvtF32I32 d x => some ⟨0#4, d, 0#7, x, 44#7⟩
  | .fcvtI32F32 d x => some ⟨1#4, d, 0#7, x, 44#7⟩
  | .fcvtI32F32Rz d x => some ⟨2#4, d, 0#7, x, 44#7⟩
  | .fcvtBf16F32 d x => some ⟨3#4, d, 0#7, x, 44#7⟩
  | .fcvtF32Bf16 d x => some ⟨4#4, d, 0#7, x, 44#7⟩
  | .fcvtF16F32 d x => some ⟨5#4, d, 0#7, x, 44#7⟩
  | .fcvtF32F16 d x => some ⟨6#4, d, 0#7, x, 44#7⟩
  | .fcvtF32I64 d x => some ⟨7#4, d, 0#7, x, 44#7⟩
  | .fdiv d x y => some ⟨0#4, d, y, x, 45#7⟩
  | .fsqrt d x => some ⟨0#4, d, 0#7, x, 46#7⟩
  | .sett k x => some ⟨k, 0#7, 0#7, x, 47#7⟩
  | .rdt d k => some ⟨k, d, 0#7, 0#7, 48#7⟩
  | .rdsys d n => some ⟨0#4, d, n, 0#7, 49#7⟩
  | .wrsys n x => some ⟨0#4, 0#7, n, x, 50#7⟩
  | .mov d x => some ⟨0#4, d, 0#7, x, 51#7⟩
  | _ => none

/-- The instruction with given fields, by opcode; none for an opcode outside the map or a nonzero unused field. -/
def decLA (f : FLA) : Option Instr :=
  match f.op.toNat with
  | 0 => if f.imm = 0#18 ∧ f.data = 0#7 ∧ f.base = 0#7 then some (.nopL) else none
  | 1 => some (.ldB f.data f.base f.imm)
  | 2 => some (.ldBu f.data f.base f.imm)
  | 3 => some (.ldH f.data f.base f.imm)
  | 4 => some (.ldHu f.data f.base f.imm)
  | 5 => some (.ldW f.data f.base f.imm)
  | 6 => some (.ldWu f.data f.base f.imm)
  | 7 => some (.ldD f.data f.base f.imm)
  | 8 => some (.stB f.data f.base f.imm)
  | 9 => some (.stH f.data f.base f.imm)
  | 10 => some (.stW f.data f.base f.imm)
  | 11 => some (.stD f.data f.base f.imm)
  | _ => none

/-- The fields of an instruction of this format. -/
def encLA : Instr → Option FLA
  | .nopL => some ⟨0#18, 0#7, 0#7, 0#8⟩
  | .ldB d base imm => some ⟨imm, d, base, 1#8⟩
  | .ldBu d base imm => some ⟨imm, d, base, 2#8⟩
  | .ldH d base imm => some ⟨imm, d, base, 3#8⟩
  | .ldHu d base imm => some ⟨imm, d, base, 4#8⟩
  | .ldW d base imm => some ⟨imm, d, base, 5#8⟩
  | .ldWu d base imm => some ⟨imm, d, base, 6#8⟩
  | .ldD d base imm => some ⟨imm, d, base, 7#8⟩
  | .stB data base imm => some ⟨imm, data, base, 8#8⟩
  | .stH data base imm => some ⟨imm, data, base, 9#8⟩
  | .stW data base imm => some ⟨imm, data, base, 10#8⟩
  | .stD data base imm => some ⟨imm, data, base, 11#8⟩
  | _ => none

/-- The instruction with given fields, by opcode; none for an opcode outside the map or a nonzero unused field. -/
def decLM (f : FLM) : Option Instr :=
  match f.op.toNat with
  | 12 => some (.ldmr f.slice f.base f.imm)
  | 13 => some (.stmr f.slice f.base f.imm)
  | _ => none

/-- The fields of an instruction of this format. -/
def encLM : Instr → Option FLM
  | .ldmr sl base imm => some ⟨imm, sl, base, 12#8⟩
  | .stmr sl base imm => some ⟨imm, sl, base, 13#8⟩
  | _ => none

/-- The instruction with given fields, by opcode; none for an opcode outside the map or a nonzero unused field. -/
def decLH (f : FLH) : Option Instr :=
  match f.op.toNat with
  | 14 => if f.data = 0#7 then some (.xlat f.h f.off f.imm) else none
  | 15 => if f.imm = 0#14 ∧ f.data = 0#7 ∧ f.off = 0#7 then some (.hrel f.h) else none
  | 16 => if f.imm = 0#14 ∧ f.off = 0#7 then some (.hinfo f.data f.h) else none
  | 17 => some (.ldhW f.data f.h f.off f.imm)
  | 18 => some (.ldhD f.data f.h f.off f.imm)
  | 19 => some (.sthW f.data f.h f.off f.imm)
  | 20 => some (.sthD f.data f.h f.off f.imm)
  | 21 => if f.imm.extractLsb' 8 6 = 0#6 ∧ f.imm.extractLsb' 0 4 = 0#4 then some (.amoSwap f.data f.h f.off (f.imm.extractLsb' 7 1) (f.imm.extractLsb' 4 3)) else if f.imm.extractLsb' 8 6 = 0#6 ∧ f.imm.extractLsb' 0 4 = 1#4 then some (.amoAdd f.data f.h f.off (f.imm.extractLsb' 7 1) (f.imm.extractLsb' 4 3)) else if f.imm.extractLsb' 8 6 = 0#6 ∧ f.imm.extractLsb' 0 4 = 2#4 then some (.amoAnd f.data f.h f.off (f.imm.extractLsb' 7 1) (f.imm.extractLsb' 4 3)) else if f.imm.extractLsb' 8 6 = 0#6 ∧ f.imm.extractLsb' 0 4 = 3#4 then some (.amoOr f.data f.h f.off (f.imm.extractLsb' 7 1) (f.imm.extractLsb' 4 3)) else if f.imm.extractLsb' 8 6 = 0#6 ∧ f.imm.extractLsb' 0 4 = 4#4 then some (.amoXor f.data f.h f.off (f.imm.extractLsb' 7 1) (f.imm.extractLsb' 4 3)) else if f.imm.extractLsb' 8 6 = 0#6 ∧ f.imm.extractLsb' 0 4 = 5#4 then some (.amoMin f.data f.h f.off (f.imm.extractLsb' 7 1) (f.imm.extractLsb' 4 3)) else if f.imm.extractLsb' 8 6 = 0#6 ∧ f.imm.extractLsb' 0 4 = 6#4 then some (.amoMax f.data f.h f.off (f.imm.extractLsb' 7 1) (f.imm.extractLsb' 4 3)) else if f.imm.extractLsb' 8 6 = 0#6 ∧ f.imm.extractLsb' 0 4 = 7#4 then some (.amoMinu f.data f.h f.off (f.imm.extractLsb' 7 1) (f.imm.extractLsb' 4 3)) else if f.imm.extractLsb' 8 6 = 0#6 ∧ f.imm.extractLsb' 0 4 = 8#4 then some (.amoMaxu f.data f.h f.off (f.imm.extractLsb' 7 1) (f.imm.extractLsb' 4 3)) else if f.imm.extractLsb' 8 6 = 0#6 ∧ f.imm.extractLsb' 0 4 = 9#4 then some (.amoFadd f.data f.h f.off (f.imm.extractLsb' 7 1) (f.imm.extractLsb' 4 3)) else none
  | 22 => if f.imm.extractLsb' 8 6 = 0#6 ∧ f.imm.extractLsb' 0 4 = 0#4 then some (.amoc f.data f.h f.off (f.imm.extractLsb' 7 1) (f.imm.extractLsb' 4 3)) else none
  | 23 => if f.data = 0#7 then some (.pref f.h f.off f.imm) else none
  | _ => none

/-- The fields of an instruction of this format. -/
def encLH : Instr → Option FLH
  | .xlat h off imm => some ⟨imm, 0#7, off, h, 14#8⟩
  | .hrel h => some ⟨0#14, 0#7, 0#7, h, 15#8⟩
  | .hinfo d h => some ⟨0#14, d, 0#7, h, 16#8⟩
  | .ldhW d h off imm => some ⟨imm, d, off, h, 17#8⟩
  | .ldhD d h off imm => some ⟨imm, d, off, h, 18#8⟩
  | .sthW data h off imm => some ⟨imm, data, off, h, 19#8⟩
  | .sthD data h off imm => some ⟨imm, data, off, h, 20#8⟩
  | .amoSwap d h off sz scope => some ⟨0#6 ++ sz ++ scope ++ 0#4, d, off, h, 21#8⟩
  | .amoAdd d h off sz scope => some ⟨0#6 ++ sz ++ scope ++ 1#4, d, off, h, 21#8⟩
  | .amoAnd d h off sz scope => some ⟨0#6 ++ sz ++ scope ++ 2#4, d, off, h, 21#8⟩
  | .amoOr d h off sz scope => some ⟨0#6 ++ sz ++ scope ++ 3#4, d, off, h, 21#8⟩
  | .amoXor d h off sz scope => some ⟨0#6 ++ sz ++ scope ++ 4#4, d, off, h, 21#8⟩
  | .amoMin d h off sz scope => some ⟨0#6 ++ sz ++ scope ++ 5#4, d, off, h, 21#8⟩
  | .amoMax d h off sz scope => some ⟨0#6 ++ sz ++ scope ++ 6#4, d, off, h, 21#8⟩
  | .amoMinu d h off sz scope => some ⟨0#6 ++ sz ++ scope ++ 7#4, d, off, h, 21#8⟩
  | .amoMaxu d h off sz scope => some ⟨0#6 ++ sz ++ scope ++ 8#4, d, off, h, 21#8⟩
  | .amoFadd d h off sz scope => some ⟨0#6 ++ sz ++ scope ++ 9#4, d, off, h, 21#8⟩
  | .amoc d h off sz scope => some ⟨0#6 ++ sz ++ scope ++ 0#4, d, off, h, 22#8⟩
  | .pref h off imm => some ⟨imm, 0#7, off, h, 23#8⟩
  | _ => none

/-- The instruction with given fields, by opcode; none for an opcode outside the map or a nonzero unused field. -/
def decV (f : FV) : Option Instr :=
  match f.op.toNat with
  | 0 => if f.ty = 0#4 ∧ f.b = 0#12 ∧ f.a = 0#12 ∧ f.d = 0#12 ∧ f.rel = 0#1 then some (.nopV) else none
  | 1 => some (.vadd f.ty f.d f.a f.b f.rel)
  | 2 => some (.vsub f.ty f.d f.a f.b f.rel)
  | 3 => some (.vmul f.ty f.d f.a f.b f.rel)
  | 4 => some (.vfma f.ty f.d f.a f.b f.rel)
  | 5 => some (.vfms f.ty f.d f.a f.b f.rel)
  | 6 => some (.vmin f.ty f.d f.a f.b f.rel)
  | 7 => some (.vmax f.ty f.d f.a f.b f.rel)
  | 8 => if f.b = 0#12 then some (.vabs f.ty f.d f.a f.rel) else none
  | 9 => if f.b = 0#12 then some (.vneg f.ty f.d f.a f.rel) else none
  | 10 => if f.b.extractLsb' 7 5 = 0#5 then some (.vadds f.ty f.d f.a (f.b.extractLsb' 0 7) f.rel) else none
  | 11 => if f.b.extractLsb' 7 5 = 0#5 then some (.vmuls f.ty f.d f.a (f.b.extractLsb' 0 7) f.rel) else none
  | 12 => if f.b.extractLsb' 7 5 = 0#5 then some (.vfmas f.ty f.d f.a (f.b.extractLsb' 0 7) f.rel) else none
  | 13 => if f.ty = 0#4 ∧ f.b = 0#12 then some (.vexp2 f.d f.a f.rel) else none
  | 14 => if f.ty = 0#4 ∧ f.b = 0#12 then some (.vlog2 f.d f.a f.rel) else none
  | 15 => if f.ty = 0#4 ∧ f.b = 0#12 then some (.vrcp f.d f.a f.rel) else none
  | 16 => if f.ty = 0#4 ∧ f.b = 0#12 then some (.vrsq f.d f.a f.rel) else none
  | 17 => if f.ty = 0#4 ∧ f.b = 0#12 then some (.vsqrt f.d f.a f.rel) else none
  | 18 => if f.b.extractLsb' 7 5 = 0#5 then some (.vcvt f.ty f.d f.a (f.b.extractLsb' 0 4) (f.b.extractLsb' 4 3) f.rel) else none
  | 19 => if f.b.extractLsb' 7 5 = 0#5 then some (.vqnt f.ty f.d f.a (f.b.extractLsb' 0 7) f.rel) else none
  | 20 => if f.b.extractLsb' 7 5 = 0#5 then some (.vdqnt f.ty f.d f.a (f.b.extractLsb' 0 7) f.rel) else none
  | 21 => if f.ty = 0#4 then some (.vand f.d f.a f.b f.rel) else none
  | 22 => if f.ty = 0#4 then some (.vor f.d f.a f.b f.rel) else none
  | 23 => if f.ty = 0#4 then some (.vxor f.d f.a f.b f.rel) else none
  | 24 => some (.vshl f.ty f.d f.a f.b f.rel)
  | 25 => some (.vshr f.ty f.d f.a f.b f.rel)
  | 26 => some (.vsar f.ty f.d f.a f.b f.rel)
  | 27 => if f.b.extractLsb' 0 4 = 0#4 then some (.vcmpEq f.ty (f.b.extractLsb' 4 8) f.d f.a f.rel) else if f.b.extractLsb' 0 4 = 1#4 then some (.vcmpNe f.ty (f.b.extractLsb' 4 8) f.d f.a f.rel) else if f.b.extractLsb' 0 4 = 2#4 then some (.vcmpLt f.ty (f.b.extractLsb' 4 8) f.d f.a f.rel) else if f.b.extractLsb' 0 4 = 3#4 then some (.vcmpLe f.ty (f.b.extractLsb' 4 8) f.d f.a f.rel) else if f.b.extractLsb' 0 4 = 4#4 then some (.vcmpGt f.ty (f.b.extractLsb' 4 8) f.d f.a f.rel) else if f.b.extractLsb' 0 4 = 5#4 then some (.vcmpGe f.ty (f.b.extractLsb' 4 8) f.d f.a f.rel) else if f.b.extractLsb' 0 4 = 6#4 then some (.vcmpUn f.ty (f.b.extractLsb' 4 8) f.d f.a f.rel) else none
  | 28 => some (.vblend f.ty f.d f.a f.b f.rel)
  | 29 => if f.b = 0#12 then some (.vredsum f.ty f.d f.a f.rel) else none
  | 30 => if f.b = 0#12 then some (.vredmax f.ty f.d f.a f.rel) else none
  | 31 => if f.b = 0#12 then some (.vredmin f.ty f.d f.a f.rel) else none
  | 32 => if f.b.extractLsb' 8 4 = 0#4 then some (.vbcast f.ty f.d f.a (f.b.extractLsb' 0 8) f.rel) else none
  | 33 => if f.ty = 0#4 ∧ f.b = 0#12 then some (.vmov f.d f.a f.rel) else none
  | 34 => if f.b.extractLsb' 9 3 = 0#3 then some (.vslide f.ty f.d f.a (f.b.extractLsb' 0 9) f.rel) else none
  | 35 => some (.vslide2 f.ty f.d f.a f.b f.rel)
  | 36 => some (.vmacw f.ty f.d f.a f.b f.rel)
  | 37 => if f.b.extractLsb' 5 7 = 0#7 then some (.vnar f.ty f.d f.a (f.b.extractLsb' 0 5) f.rel) else none
  | 38 => some (.vperm f.ty f.d f.a f.b f.rel)
  | 39 => if f.ty = 0#4 ∧ f.b.extractLsb' 3 9 = 0#9 ∧ f.a.extractLsb' 11 1 = 0#1 then some (.vzrd f.d (f.a.extractLsb' 0 4) (f.a.extractLsb' 4 7) (f.b.extractLsb' 0 3) f.rel) else if f.ty = 0#4 ∧ f.b.extractLsb' 3 9 = 0#9 ∧ f.a.extractLsb' 11 1 = 1#1 then some (.vzrdL f.d (f.a.extractLsb' 0 4) (f.a.extractLsb' 4 7) (f.b.extractLsb' 0 3) f.rel) else none
  | 40 => if f.ty = 0#4 ∧ f.b.extractLsb' 3 9 = 0#9 ∧ f.a.extractLsb' 11 1 = 0#1 then some (.vzwr f.d (f.a.extractLsb' 0 4) (f.a.extractLsb' 4 7) (f.b.extractLsb' 0 3) f.rel) else none
  | 41 => if f.ty = 0#4 ∧ f.b = 0#12 ∧ f.a = 0#12 then some (.vzero f.d f.rel) else none
  | 42 => if f.b = 0#12 ∧ f.a = 0#12 then some (.viota f.ty f.d f.rel) else none
  | _ => none

/-- The fields of an instruction of this format. -/
def encV : Instr → Option FV
  | .nopV => some ⟨0#4, 0#12, 0#12, 0#12, 0#1, 0#7⟩
  | .vadd t d a b rel => some ⟨t, b, a, d, rel, 1#7⟩
  | .vsub t d a b rel => some ⟨t, b, a, d, rel, 2#7⟩
  | .vmul t d a b rel => some ⟨t, b, a, d, rel, 3#7⟩
  | .vfma t d a b rel => some ⟨t, b, a, d, rel, 4#7⟩
  | .vfms t d a b rel => some ⟨t, b, a, d, rel, 5#7⟩
  | .vmin t d a b rel => some ⟨t, b, a, d, rel, 6#7⟩
  | .vmax t d a b rel => some ⟨t, b, a, d, rel, 7#7⟩
  | .vabs t d a rel => some ⟨t, 0#12, a, d, rel, 8#7⟩
  | .vneg t d a rel => some ⟨t, 0#12, a, d, rel, 9#7⟩
  | .vadds t d a x rel => some ⟨t, 0#5 ++ x, a, d, rel, 10#7⟩
  | .vmuls t d a x rel => some ⟨t, 0#5 ++ x, a, d, rel, 11#7⟩
  | .vfmas t d a x rel => some ⟨t, 0#5 ++ x, a, d, rel, 12#7⟩
  | .vexp2 d a rel => some ⟨0#4, 0#12, a, d, rel, 13#7⟩
  | .vlog2 d a rel => some ⟨0#4, 0#12, a, d, rel, 14#7⟩
  | .vrcp d a rel => some ⟨0#4, 0#12, a, d, rel, 15#7⟩
  | .vrsq d a rel => some ⟨0#4, 0#12, a, d, rel, 16#7⟩
  | .vsqrt d a rel => some ⟨0#4, 0#12, a, d, rel, 17#7⟩
  | .vcvt t d a src part rel => some ⟨t, 0#5 ++ part ++ src, a, d, rel, 18#7⟩
  | .vqnt t d a x rel => some ⟨t, 0#5 ++ x, a, d, rel, 19#7⟩
  | .vdqnt t d a x rel => some ⟨t, 0#5 ++ x, a, d, rel, 20#7⟩
  | .vand d a b rel => some ⟨0#4, b, a, d, rel, 21#7⟩
  | .vor d a b rel => some ⟨0#4, b, a, d, rel, 22#7⟩
  | .vxor d a b rel => some ⟨0#4, b, a, d, rel, 23#7⟩
  | .vshl t d a b rel => some ⟨t, b, a, d, rel, 24#7⟩
  | .vshr t d a b rel => some ⟨t, b, a, d, rel, 25#7⟩
  | .vsar t d a b rel => some ⟨t, b, a, d, rel, 26#7⟩
  | .vcmpEq t fb x y rel => some ⟨t, fb ++ 0#4, y, x, rel, 27#7⟩
  | .vcmpNe t fb x y rel => some ⟨t, fb ++ 1#4, y, x, rel, 27#7⟩
  | .vcmpLt t fb x y rel => some ⟨t, fb ++ 2#4, y, x, rel, 27#7⟩
  | .vcmpLe t fb x y rel => some ⟨t, fb ++ 3#4, y, x, rel, 27#7⟩
  | .vcmpGt t fb x y rel => some ⟨t, fb ++ 4#4, y, x, rel, 27#7⟩
  | .vcmpGe t fb x y rel => some ⟨t, fb ++ 5#4, y, x, rel, 27#7⟩
  | .vcmpUn t fb x y rel => some ⟨t, fb ++ 6#4, y, x, rel, 27#7⟩
  | .vblend t d a b rel => some ⟨t, b, a, d, rel, 28#7⟩
  | .vredsum t d a rel => some ⟨t, 0#12, a, d, rel, 29#7⟩
  | .vredmax t d a rel => some ⟨t, 0#12, a, d, rel, 30#7⟩
  | .vredmin t d a rel => some ⟨t, 0#12, a, d, rel, 31#7⟩
  | .vbcast t d a k rel => some ⟨t, 0#4 ++ k, a, d, rel, 32#7⟩
  | .vmov d a rel => some ⟨0#4, 0#12, a, d, rel, 33#7⟩
  | .vslide t d a sh rel => some ⟨t, 0#3 ++ sh, a, d, rel, 34#7⟩
  | .vslide2 t d a b rel => some ⟨t, b, a, d, rel, 35#7⟩
  | .vmacw t d a b rel => some ⟨t, b, a, d, rel, 36#7⟩
  | .vnar t d a sh rel => some ⟨t, 0#7 ++ sh, a, d, rel, 37#7⟩
  | .vperm t d a b rel => some ⟨t, b, a, d, rel, 38#7⟩
  | .vzrd d z rho g rel => some ⟨0#4, 0#9 ++ g, 0#1 ++ rho ++ z, d, rel, 39#7⟩
  | .vzrdL d z rho g rel => some ⟨0#4, 0#9 ++ g, 1#1 ++ rho ++ z, d, rel, 39#7⟩
  | .vzwr d z rho g rel => some ⟨0#4, 0#9 ++ g, 0#1 ++ rho ++ z, d, rel, 40#7⟩
  | .vzero d rel => some ⟨0#4, 0#12, 0#12, d, rel, 41#7⟩
  | .viota t d rel => some ⟨t, 0#12, 0#12, d, rel, 42#7⟩
  | _ => none

/-- The instruction with given fields, by opcode; none for an opcode outside the map or a nonzero unused field. -/
def decM (f : FM) : Option Instr :=
  match f.op.toNat with
  | 0 => if f.imm = 0#16 ∧ f.dual = 0#1 ∧ f.sclsrc = 0#1 ∧ f.mx = 0#1 ∧ f.acc = 0#1 ∧ f.tB = 0#4 ∧ f.tA = 0#4 ∧ f.z = 0#4 ∧ f.dB = 0#4 ∧ f.dA = 0#4 then some (.nopM) else none
  | 1 => if f.imm.extractLsb' 8 7 = 0#7 then some (.mmaS f.z f.dA f.dB f.tA f.tB f.acc f.mx f.dual (f.imm.extractLsb' 15 1) f.sclsrc (f.imm.extractLsb' 0 4) (f.imm.extractLsb' 4 4)) else none
  | 2 => if f.imm.extractLsb' 8 7 = 0#7 then some (.mmaV f.z f.dA f.dB f.tA f.tB f.acc f.mx f.dual (f.imm.extractLsb' 15 1) f.sclsrc (f.imm.extractLsb' 0 4) (f.imm.extractLsb' 4 4)) else none
  | 3 => if f.imm.extractLsb' 10 5 = 0#5 ∧ f.sclsrc = 0#1 then some (.mmaSg f.z f.dA f.dB f.tA f.tB f.acc f.mx f.dual (f.imm.extractLsb' 15 1) (f.imm.extractLsb' 0 5) (f.imm.extractLsb' 5 5)) else none
  | 4 => if f.imm.extractLsb' 10 5 = 0#5 ∧ f.sclsrc = 0#1 then some (.mmaVg f.z f.dA f.dB f.tA f.tB f.acc f.mx f.dual (f.imm.extractLsb' 15 1) (f.imm.extractLsb' 0 5) (f.imm.extractLsb' 5 5)) else none
  | 5 => if f.imm.extractLsb' 7 8 = 0#8 ∧ f.sclsrc = 0#1 then some (.mmaQ f.z f.dA f.dB f.tA f.tB f.acc f.mx f.dual (f.imm.extractLsb' 15 1) (f.imm.extractLsb' 0 7)) else none
  | 6 => if f.imm.extractLsb' 15 1 = 0#1 ∧ f.sclsrc = 0#1 ∧ f.mx = 0#1 ∧ f.acc = 0#1 ∧ f.tB = 0#4 ∧ f.tA = 0#4 ∧ f.dB = 0#4 ∧ f.dA = 0#4 then some (.zalloc f.z (f.imm.extractLsb' 0 7) (f.imm.extractLsb' 7 8) f.dual) else none
  | 7 => if f.imm = 0#16 ∧ f.dual = 0#1 ∧ f.sclsrc = 0#1 ∧ f.mx = 0#1 ∧ f.acc = 0#1 ∧ f.tB = 0#4 ∧ f.tA = 0#4 ∧ f.dB = 0#4 ∧ f.dA = 0#4 then some (.zfree f.z) else none
  | 8 => if f.imm = 0#16 ∧ f.dual = 0#1 ∧ f.sclsrc = 0#1 ∧ f.mx = 0#1 ∧ f.acc = 0#1 ∧ f.tB = 0#4 ∧ f.tA = 0#4 ∧ f.dB = 0#4 ∧ f.dA = 0#4 then some (.zswap f.z) else none
  | 9 => if f.imm.extractLsb' 1 15 = 0#15 ∧ f.dual = 0#1 ∧ f.sclsrc = 0#1 ∧ f.mx = 0#1 ∧ f.acc = 0#1 ∧ f.tB = 0#4 ∧ f.tA = 0#4 ∧ f.dB = 0#4 ∧ f.dA = 0#4 then some (.zzero f.z (f.imm.extractLsb' 0 1)) else none
  | 10 => if f.imm.extractLsb' 0 16 = 0#16 ∧ f.dual = 0#1 ∧ f.sclsrc = 0#1 ∧ f.mx = 0#1 ∧ f.acc = 0#1 ∧ f.tB = 0#4 ∧ f.tA = 0#4 ∧ f.dB = 0#4 ∧ f.dA = 0#4 then some (.mwait f.z) else if f.imm.extractLsb' 0 16 = 1#16 ∧ f.dual = 0#1 ∧ f.sclsrc = 0#1 ∧ f.mx = 0#1 ∧ f.acc = 0#1 ∧ f.tB = 0#4 ∧ f.tA = 0#4 ∧ f.z = 0#4 ∧ f.dB = 0#4 ∧ f.dA = 0#4 then some (.mwaitAll) else none
  | 11 => if f.imm.extractLsb' 11 5 = 0#5 ∧ f.sclsrc = 0#1 ∧ f.mx = 0#1 ∧ f.acc = 0#1 ∧ f.tB = 0#4 ∧ f.dB = 0#4 then some (.chbeg (f.imm.extractLsb' 7 2) f.z f.dA f.tA f.dual (f.imm.extractLsb' 9 2) (f.imm.extractLsb' 0 7)) else none
  | 12 => if f.imm.extractLsb' 6 10 = 0#10 ∧ f.dual = 0#1 ∧ f.sclsrc = 0#1 ∧ f.mx = 0#1 ∧ f.acc = 0#1 ∧ f.z = 0#4 then some (.chblk (f.imm.extractLsb' 0 2) f.dA f.dB (f.imm.extractLsb' 2 4) f.tA f.tB) else none
  | 13 => if f.imm.extractLsb' 2 14 = 0#14 ∧ f.dual = 0#1 ∧ f.sclsrc = 0#1 ∧ f.mx = 0#1 ∧ f.acc = 0#1 ∧ f.tB = 0#4 ∧ f.tA = 0#4 ∧ f.z = 0#4 ∧ f.dB = 0#4 ∧ f.dA = 0#4 then some (.chend (f.imm.extractLsb' 0 2)) else none
  | 14 => if f.imm.extractLsb' 12 4 = 0#4 ∧ f.dual = 0#1 ∧ f.sclsrc = 0#1 ∧ f.mx = 0#1 ∧ f.acc = 0#1 ∧ f.tB = 0#4 ∧ f.tA = 0#4 ∧ f.z = 0#4 ∧ f.dB = 0#4 then some (.chfin (f.imm.extractLsb' 10 2) f.dA (f.imm.extractLsb' 0 10)) else none
  | 15 => if f.imm.extractLsb' 4 12 = 0#12 ∧ f.dual = 0#1 ∧ f.sclsrc = 0#1 ∧ f.mx = 0#1 ∧ f.acc = 0#1 ∧ f.tB = 0#4 ∧ f.tA = 0#4 ∧ f.z = 0#4 ∧ f.dB = 0#4 ∧ f.dA = 0#4 then some (.chmrg (f.imm.extractLsb' 0 2) (f.imm.extractLsb' 2 2)) else none
  | 16 => if f.imm.extractLsb' 9 7 = 0#7 ∧ f.dual = 0#1 ∧ f.sclsrc = 0#1 ∧ f.mx = 0#1 ∧ f.acc = 0#1 ∧ f.tB = 0#4 ∧ f.tA = 0#4 ∧ f.z = 0#4 ∧ f.dB = 0#4 ∧ f.dA = 0#4 then some (.chst (f.imm.extractLsb' 7 2) (f.imm.extractLsb' 0 7)) else none
  | 17 => if f.imm.extractLsb' 9 7 = 0#7 ∧ f.dual = 0#1 ∧ f.sclsrc = 0#1 ∧ f.mx = 0#1 ∧ f.acc = 0#1 ∧ f.tB = 0#4 ∧ f.tA = 0#4 ∧ f.dB = 0#4 ∧ f.dA = 0#4 then some (.chld (f.imm.extractLsb' 7 2) f.z (f.imm.extractLsb' 0 7)) else none
  | 18 => if f.imm.extractLsb' 9 7 = 0#7 ∧ f.dual = 0#1 ∧ f.sclsrc = 0#1 ∧ f.mx = 0#1 ∧ f.acc = 0#1 ∧ f.tB = 0#4 ∧ f.tA = 0#4 ∧ f.z = 0#4 ∧ f.dB = 0#4 ∧ f.dA = 0#4 then some (.chscl (f.imm.extractLsb' 7 2) (f.imm.extractLsb' 0 7)) else none
  | _ => none

/-- The fields of an instruction of this format. -/
def encM : Instr → Option FM
  | .nopM => some ⟨0#16, 0#1, 0#1, 0#1, 0#1, 0#4, 0#4, 0#4, 0#4, 0#4, 0#8⟩
  | .mmaS z dA dB tA tB acc mx dual bt sclsrc dSA dSB => some ⟨bt ++ 0#7 ++ dSB ++ dSA, dual, sclsrc, mx, acc, tB, tA, z, dB, dA, 1#8⟩
  | .mmaV z dA dB tA tB acc mx dual bt sclsrc dSA dSB => some ⟨bt ++ 0#7 ++ dSB ++ dSA, dual, sclsrc, mx, acc, tB, tA, z, dB, dA, 2#8⟩
  | .mmaSg z dA dB tA tB acc mx dual bt g r => some ⟨bt ++ 0#5 ++ r ++ g, dual, 0#1, mx, acc, tB, tA, z, dB, dA, 3#8⟩
  | .mmaVg z dA dB tA tB acc mx dual bt g r => some ⟨bt ++ 0#5 ++ r ++ g, dual, 0#1, mx, acc, tB, tA, z, dB, dA, 4#8⟩
  | .mmaQ z dA dB tA tB acc mx dual bt x => some ⟨bt ++ 0#8 ++ x, dual, 0#1, mx, acc, tB, tA, z, dB, dA, 5#8⟩
  | .zalloc z rows1 cols1 dual => some ⟨0#1 ++ cols1 ++ rows1, dual, 0#1, 0#1, 0#1, 0#4, 0#4, z, 0#4, 0#4, 6#8⟩
  | .zfree z => some ⟨0#16, 0#1, 0#1, 0#1, 0#1, 0#4, 0#4, z, 0#4, 0#4, 7#8⟩
  | .zswap z => some ⟨0#16, 0#1, 0#1, 0#1, 0#1, 0#4, 0#4, z, 0#4, 0#4, 8#8⟩
  | .zzero z both => some ⟨0#15 ++ both, 0#1, 0#1, 0#1, 0#1, 0#4, 0#4, z, 0#4, 0#4, 9#8⟩
  | .mwait z => some ⟨0#16, 0#1, 0#1, 0#1, 0#1, 0#4, 0#4, z, 0#4, 0#4, 10#8⟩
  | .mwaitAll => some ⟨1#16, 0#1, 0#1, 0#1, 0#1, 0#4, 0#4, 0#4, 0#4, 0#4, 10#8⟩
  | .chbeg sl z dA tQ dual mask x => some ⟨0#5 ++ mask ++ sl ++ x, dual, 0#1, 0#1, 0#1, 0#4, tQ, z, 0#4, dA, 11#8⟩
  | .chblk sl dA dB dM tK tV => some ⟨0#10 ++ dM ++ sl, 0#1, 0#1, 0#1, 0#1, tV, tK, 0#4, dB, dA, 12#8⟩
  | .chend sl => some ⟨0#14 ++ sl, 0#1, 0#1, 0#1, 0#1, 0#4, 0#4, 0#4, 0#4, 0#4, 13#8⟩
  | .chfin sl dA n => some ⟨0#4 ++ sl ++ n, 0#1, 0#1, 0#1, 0#1, 0#4, 0#4, 0#4, 0#4, dA, 14#8⟩
  | .chmrg sA sB => some ⟨0#12 ++ sB ++ sA, 0#1, 0#1, 0#1, 0#1, 0#4, 0#4, 0#4, 0#4, 0#4, 15#8⟩
  | .chst sl x => some ⟨0#7 ++ sl ++ x, 0#1, 0#1, 0#1, 0#1, 0#4, 0#4, 0#4, 0#4, 0#4, 16#8⟩
  | .chld sl z x => some ⟨0#7 ++ sl ++ x, 0#1, 0#1, 0#1, 0#1, 0#4, 0#4, z, 0#4, 0#4, 17#8⟩
  | .chscl sl x => some ⟨0#7 ++ sl ++ x, 0#1, 0#1, 0#1, 0#1, 0#4, 0#4, 0#4, 0#4, 0#4, 18#8⟩
  | _ => none

/-- The instruction with given fields, by opcode; none for an opcode outside the map or a nonzero unused field. -/
def decC (f : FC) : Option Instr :=
  match f.op.toNat with
  | 0 => if f.imm = 0#18 ∧ f.y = 0#7 ∧ f.x = 0#7 then some (.nopC) else none
  | 1 => if f.y = 0#7 then some (.cpy (f.imm.extractLsb' 0 1) f.x (f.imm.extractLsb' 1 12) (f.imm.extractLsb' 13 1) (f.imm.extractLsb' 14 4)) else none
  | 2 => if f.imm.extractLsb' 1 17 = 0#17 ∧ f.x = 0#7 then some (.cpwp f.y (f.imm.extractLsb' 0 1)) else none
  | 3 => if f.imm.extractLsb' 1 17 = 0#17 ∧ f.y = 0#7 then some (.cpwait (f.imm.extractLsb' 0 1) f.x) else none
  | 4 => if f.imm.extractLsb' 1 17 = 0#17 ∧ f.y = 0#7 ∧ f.x = 0#7 then some (.cpabort (f.imm.extractLsb' 0 1)) else none
  | 5 => if f.imm = 0#18 then some (.barinit f.x f.y) else none
  | 6 => if f.imm = 0#18 then some (.barexp f.x f.y) else none
  | 7 => if f.imm = 0#18 then some (.bararr f.x f.y) else none
  | 8 => if f.imm = 0#18 then some (.barwait f.x f.y) else none
  | 9 => if f.imm = 0#18 then some (.bartst f.y f.x) else none
  | 10 => if f.imm.extractLsb' 3 15 = 0#15 ∧ f.y = 0#7 then some (.wopen (f.imm.extractLsb' 0 3) f.x) else none
  | 11 => if f.imm.extractLsb' 3 15 = 0#15 ∧ f.y = 0#7 then some (.wadv (f.imm.extractLsb' 0 3) f.x) else none
  | 12 => if f.imm.extractLsb' 3 15 = 0#15 ∧ f.y = 0#7 ∧ f.x = 0#7 then some (.wclose (f.imm.extractLsb' 0 3)) else none
  | 13 => if f.imm.extractLsb' 3 15 = 0#15 ∧ f.x = 0#7 then some (.wstat f.y (f.imm.extractLsb' 0 3)) else none
  | 14 => if f.imm = 0#18 then some (.rres f.y f.x) else none
  | 15 => if f.imm = 0#18 then some (.rpub f.x f.y) else none
  | 16 => if f.imm = 0#18 then some (.rtake f.x f.y) else none
  | 17 => if f.imm = 0#18 then some (.rrel f.x f.y) else none
  | 18 => if f.imm.extractLsb' 11 7 = 0#7 ∧ f.y = 0#7 ∧ f.x = 0#7 then some (.bgive (f.imm.extractLsb' 7 2) (f.imm.extractLsb' 0 7) (f.imm.extractLsb' 9 2)) else none
  | 19 => if f.imm.extractLsb' 13 5 = 0#5 ∧ f.y = 0#7 ∧ f.x = 0#7 then some (.btake (f.imm.extractLsb' 7 2) (f.imm.extractLsb' 0 7) (f.imm.extractLsb' 9 4)) else none
  | 20 => if f.imm.extractLsb' 10 8 = 0#8 ∧ f.y = 0#7 ∧ f.x = 0#7 then some (.bopen (f.imm.extractLsb' 0 7) (f.imm.extractLsb' 7 2) (f.imm.extractLsb' 9 1)) else none
  | 21 => if f.imm.extractLsb' 10 8 = 0#8 ∧ f.y = 0#7 ∧ f.x = 0#7 then some (.bclose (f.imm.extractLsb' 0 7) (f.imm.extractLsb' 7 2) (f.imm.extractLsb' 9 1)) else none
  | 22 => if f.imm.extractLsb' 10 8 = 0#8 ∧ f.y = 0#7 then some (.fset (f.imm.extractLsb' 0 10) f.x) else none
  | 23 => if f.imm.extractLsb' 10 8 = 0#8 then some (.faddFlag (f.imm.extractLsb' 0 10) f.x f.y) else none
  | 24 => if f.imm.extractLsb' 10 8 = 0#8 ∧ f.y = 0#7 then some (.fwait (f.imm.extractLsb' 0 10) f.x) else none
  | 25 => if f.imm.extractLsb' 10 8 = 0#8 ∧ f.y = 0#7 then some (.fwaiteq (f.imm.extractLsb' 0 10) f.x) else none
  | 26 => if f.imm.extractLsb' 11 7 = 0#7 ∧ f.imm.extractLsb' 8 3 = 0#3 ∧ f.imm.extractLsb' 7 1 = 0#1 then some (.sbind (f.imm.extractLsb' 0 3) (f.imm.extractLsb' 3 1) (f.imm.extractLsb' 4 2) (f.imm.extractLsb' 6 1) f.x f.y) else if f.imm.extractLsb' 11 7 = 0#7 ∧ f.imm.extractLsb' 7 1 = 1#1 ∧ f.y = 0#7 ∧ f.x = 0#7 then some (.sbindWindow (f.imm.extractLsb' 0 3) (f.imm.extractLsb' 3 1) (f.imm.extractLsb' 4 2) (f.imm.extractLsb' 6 1) (f.imm.extractLsb' 8 3)) else none
  | 27 => if f.imm.extractLsb' 3 15 = 0#15 ∧ f.y = 0#7 ∧ f.x = 0#7 then some (.sunb (f.imm.extractLsb' 0 3)) else none
  | 28 => if f.imm.extractLsb' 3 15 = 0#15 ∧ f.x = 0#7 then some (.spos f.y (f.imm.extractLsb' 0 3)) else none
  | 29 => if f.imm.extractLsb' 4 14 = 0#14 ∧ f.y = 0#7 then some (.tdset (f.imm.extractLsb' 0 4) f.x) else none
  | 30 => if f.imm.extractLsb' 6 12 = 0#12 ∧ f.x = 0#7 then some (.tdget f.y (f.imm.extractLsb' 0 4) (f.imm.extractLsb' 4 2)) else none
  | 31 => if f.imm.extractLsb' 12 6 = 0#6 ∧ f.y = 0#7 then some (.loop f.x (f.imm.extractLsb' 0 12)) else none
  | 32 => if f.imm.extractLsb' 12 6 = 0#6 then some (.loopi f.x f.y (f.imm.extractLsb' 0 12)) else none
  | 33 => if f.y = 0#7 then some (.ploop f.x (f.imm.extractLsb' 0 12) (f.imm.extractLsb' 12 3) (f.imm.extractLsb' 15 3)) else none
  | 34 => if f.imm.extractLsb' 3 15 = 0#15 ∧ f.y = 0#7 ∧ f.x = 0#7 then some (.lexit (f.imm.extractLsb' 0 3)) else none
  | 35 => if f.y = 0#7 ∧ f.x.extractLsb' 3 4 = 0#4 then some (.setti (f.x.extractLsb' 0 3) f.imm) else none
  | 36 => if f.imm = 0#18 ∧ f.y = 0#7 ∧ f.x = 0#7 then some (.link) else none
  | 37 => if f.imm.extractLsb' 3 15 = 0#15 ∧ f.y = 0#7 ∧ f.x = 0#7 then some (.drain (f.imm.extractLsb' 0 3)) else none
  | 38 => if f.imm.extractLsb' 4 14 = 0#14 ∧ f.imm.extractLsb' 3 1 = 0#1 ∧ f.y = 0#7 ∧ f.x = 0#7 then some (.fenceAcq (f.imm.extractLsb' 0 3)) else if f.imm.extractLsb' 4 14 = 0#14 ∧ f.imm.extractLsb' 3 1 = 1#1 ∧ f.y = 0#7 ∧ f.x = 0#7 then some (.fenceRel (f.imm.extractLsb' 0 3)) else none
  | 39 => if f.imm.extractLsb' 17 1 = 0#1 ∧ f.imm.extractLsb' 16 1 = 0#1 ∧ f.imm.extractLsb' 0 16 = 0#16 then some (.tspawn f.x f.y) else if f.imm.extractLsb' 17 1 = 0#1 ∧ f.imm.extractLsb' 16 1 = 1#1 then some (.tspawnG f.x f.y (f.imm.extractLsb' 0 16)) else none
  | 40 => if f.imm = 0#18 then some (.tarm f.x f.y) else none
  | 41 => if f.imm = 0#18 ∧ f.y = 0#7 then some (.tsig f.x) else none
  | 42 => if f.imm = 0#18 ∧ f.y = 0#7 then some (.texit f.x) else none
  | 43 => if f.imm.extractLsb' 3 15 = 0#15 ∧ f.imm.extractLsb' 2 1 = 0#1 ∧ f.y = 0#7 then some (.tsetq f.x (f.imm.extractLsb' 0 2)) else if f.imm.extractLsb' 3 15 = 0#15 ∧ f.imm.extractLsb' 2 1 = 1#1 ∧ f.y = 0#7 ∧ f.x = 0#7 then some (.tsetqSelf (f.imm.extractLsb' 0 2)) else none
  | 44 => if f.imm.extractLsb' 3 15 = 0#15 ∧ f.y = 0#7 ∧ f.x = 0#7 then some (.bsync (f.imm.extractLsb' 0 3)) else none
  | 45 => if f.imm = 0#18 ∧ f.y = 0#7 then some (.put f.x) else none
  | 46 => if f.imm = 0#18 ∧ f.y = 0#7 then some (.get f.x) else none
  | 47 => if f.imm = 0#18 ∧ f.y = 0#7 then some (.ramo f.x) else none
  | 48 => if f.imm.extractLsb' 4 14 = 0#14 ∧ f.y = 0#7 then some (.lbopen (f.imm.extractLsb' 0 4) f.x) else none
  | 49 => if f.imm.extractLsb' 11 7 = 0#7 ∧ f.y = 0#7 then some (.lbsend (f.imm.extractLsb' 0 4) f.x (f.imm.extractLsb' 4 3) (f.imm.extractLsb' 7 4)) else none
  | 50 => if f.imm.extractLsb' 5 13 = 0#13 ∧ f.imm.extractLsb' 4 1 = 0#1 ∧ f.y = 0#7 ∧ f.x = 0#7 then some (.lbfree (f.imm.extractLsb' 0 4)) else if f.imm.extractLsb' 5 13 = 0#13 ∧ f.imm.extractLsb' 4 1 = 1#1 ∧ f.y = 0#7 ∧ f.x = 0#7 then some (.lbfreeClose (f.imm.extractLsb' 0 4)) else none
  | 51 => if f.imm.extractLsb' 9 9 = 0#9 ∧ f.imm.extractLsb' 8 1 = 0#1 ∧ f.y = 0#7 then some (.cgrp f.x (f.imm.extractLsb' 0 3) (f.imm.extractLsb' 3 1) (f.imm.extractLsb' 4 4)) else if f.imm.extractLsb' 9 9 = 0#9 ∧ f.imm.extractLsb' 8 1 = 1#1 ∧ f.y = 0#7 ∧ f.x.extractLsb' 0 7 = 96#7 then some (.cgrpTeam (f.imm.extractLsb' 0 3) (f.imm.extractLsb' 3 1) (f.imm.extractLsb' 4 4)) else none
  | 52 => if f.imm.extractLsb' 14 4 = 0#4 ∧ f.imm.extractLsb' 13 1 = 0#1 ∧ f.y = 0#7 ∧ f.x = 0#7 then some (.cbr (f.imm.extractLsb' 0 10) (f.imm.extractLsb' 10 3)) else if f.imm.extractLsb' 14 4 = 0#4 ∧ f.imm.extractLsb' 13 1 = 1#1 ∧ f.imm.extractLsb' 10 3 = 0#3 ∧ f.y = 0#7 ∧ f.x = 0#7 then some (.cbrWait (f.imm.extractLsb' 0 10)) else none
  | 53 => if f.imm.extractLsb' 10 8 = 0#8 ∧ f.y = 0#7 then some (.reconf f.x (f.imm.extractLsb' 0 10)) else none
  | 54 => if f.imm = 0#18 ∧ f.y = 0#7 ∧ f.x = 0#7 then some (.tgack) else none
  | 55 => if f.y = 0#7 ∧ f.x = 0#7 then some (.trap f.imm) else none
  | 56 => if f.imm = 0#18 ∧ f.y = 0#7 ∧ f.x = 0#7 then some (.tret) else none
  | 57 => if f.imm.extractLsb' 8 10 = 0#10 ∧ f.y = 0#7 then some (.svc f.x (f.imm.extractLsb' 0 8)) else none
  | 58 => if f.imm.extractLsb' 16 2 = 0#2 ∧ f.y = 0#7 then some (.ntfy f.x (f.imm.extractLsb' 0 16)) else none
  | _ => none

/-- The fields of an instruction of this format. -/
def encC : Instr → Option FC
  | .nopC => some ⟨0#18, 0#7, 0#7, 0#8⟩
  | .cpy ch x n dw k => some ⟨k ++ dw ++ n ++ ch, 0#7, x, 1#8⟩
  | .cpwp d ch => some ⟨0#17 ++ ch, d, 0#7, 2#8⟩
  | .cpwait ch x => some ⟨0#17 ++ ch, 0#7, x, 3#8⟩
  | .cpabort ch => some ⟨0#17 ++ ch, 0#7, 0#7, 4#8⟩
  | .barinit x y => some ⟨0#18, y, x, 5#8⟩
  | .barexp x y => some ⟨0#18, y, x, 6#8⟩
  | .bararr x y => some ⟨0#18, y, x, 7#8⟩
  | .barwait x y => some ⟨0#18, y, x, 8#8⟩
  | .bartst d x => some ⟨0#18, d, x, 9#8⟩
  | .wopen w x => some ⟨0#15 ++ w, 0#7, x, 10#8⟩
  | .wadv w x => some ⟨0#15 ++ w, 0#7, x, 11#8⟩
  | .wclose w => some ⟨0#15 ++ w, 0#7, 0#7, 12#8⟩
  | .wstat d w => some ⟨0#15 ++ w, d, 0#7, 13#8⟩
  | .rres d x => some ⟨0#18, d, x, 14#8⟩
  | .rpub x y => some ⟨0#18, y, x, 15#8⟩
  | .rtake x y => some ⟨0#18, y, x, 16#8⟩
  | .rrel x y => some ⟨0#18, y, x, 17#8⟩
  | .bgive home buf rcv => some ⟨0#7 ++ rcv ++ home ++ buf, 0#7, 0#7, 18#8⟩
  | .btake home buf n => some ⟨0#5 ++ n ++ home ++ buf, 0#7, 0#7, 19#8⟩
  | .bopen buf src ch => some ⟨0#8 ++ ch ++ src ++ buf, 0#7, 0#7, 20#8⟩
  | .bclose buf src ch => some ⟨0#8 ++ ch ++ src ++ buf, 0#7, 0#7, 21#8⟩
  | .fset n x => some ⟨0#8 ++ n, 0#7, x, 22#8⟩
  | .faddFlag n x d => some ⟨0#8 ++ n, d, x, 23#8⟩
  | .fwait n x => some ⟨0#8 ++ n, 0#7, x, 24#8⟩
  | .fwaiteq n x => some ⟨0#8 ++ n, 0#7, x, 25#8⟩
  | .sbind p dir wd sx x y => some ⟨0#7 ++ 0#3 ++ 0#1 ++ sx ++ wd ++ dir ++ p, y, x, 26#8⟩
  | .sbindWindow p dir wd sx w => some ⟨0#7 ++ w ++ 1#1 ++ sx ++ wd ++ dir ++ p, 0#7, 0#7, 26#8⟩
  | .sunb p => some ⟨0#15 ++ p, 0#7, 0#7, 27#8⟩
  | .spos d p => some ⟨0#15 ++ p, d, 0#7, 28#8⟩
  | .tdset k x => some ⟨0#14 ++ k, 0#7, x, 29#8⟩
  | .tdget d k q => some ⟨0#12 ++ q ++ k, d, 0#7, 30#8⟩
  | .loop x n => some ⟨0#6 ++ n, 0#7, x, 31#8⟩
  | .loopi lo hi n => some ⟨0#6 ++ n, hi, lo, 32#8⟩
  | .ploop x n s1 e => some ⟨e ++ s1 ++ n, 0#7, x, 33#8⟩
  | .lexit k => some ⟨0#15 ++ k, 0#7, 0#7, 34#8⟩
  | .setti k imm => some ⟨imm, 0#7, 0#4 ++ k, 35#8⟩
  | .link => some ⟨0#18, 0#7, 0#7, 36#8⟩
  | .drain scope => some ⟨0#15 ++ scope, 0#7, 0#7, 37#8⟩
  | .fenceAcq scope => some ⟨0#14 ++ 0#1 ++ scope, 0#7, 0#7, 38#8⟩
  | .fenceRel scope => some ⟨0#14 ++ 1#1 ++ scope, 0#7, 0#7, 38#8⟩
  | .tspawn x y => some ⟨0#1 ++ 0#1 ++ 0#16, y, x, 39#8⟩
  | .tspawnG x y n => some ⟨0#1 ++ 1#1 ++ n, y, x, 39#8⟩
  | .tarm x y => some ⟨0#18, y, x, 40#8⟩
  | .tsig x => some ⟨0#18, 0#7, x, 41#8⟩
  | .texit x => some ⟨0#18, 0#7, x, 42#8⟩
  | .tsetq x p => some ⟨0#15 ++ 0#1 ++ p, 0#7, x, 43#8⟩
  | .tsetqSelf p => some ⟨0#15 ++ 1#1 ++ p, 0#7, 0#7, 43#8⟩
  | .bsync scope => some ⟨0#15 ++ scope, 0#7, 0#7, 44#8⟩
  | .put x => some ⟨0#18, 0#7, x, 45#8⟩
  | .get x => some ⟨0#18, 0#7, x, 46#8⟩
  | .ramo x => some ⟨0#18, 0#7, x, 47#8⟩
  | .lbopen n x => some ⟨0#14 ++ n, 0#7, x, 48#8⟩
  | .lbsend n x lk m => some ⟨0#7 ++ m ++ lk ++ n, 0#7, x, 49#8⟩
  | .lbfree n => some ⟨0#13 ++ 0#1 ++ n, 0#7, 0#7, 50#8⟩
  | .lbfreeClose n => some ⟨0#13 ++ 1#1 ++ n, 0#7, 0#7, 50#8⟩
  | .cgrp x scope op tout => some ⟨0#9 ++ 0#1 ++ tout ++ op ++ scope, 0#7, x, 51#8⟩
  | .cgrpTeam scope op tout => some ⟨0#9 ++ 1#1 ++ tout ++ op ++ scope, 0#7, 96#7, 51#8⟩
  | .cbr t k => some ⟨0#4 ++ 0#1 ++ k ++ t, 0#7, 0#7, 52#8⟩
  | .cbrWait t => some ⟨0#4 ++ 1#1 ++ 0#3 ++ t, 0#7, 0#7, 52#8⟩
  | .reconf x n => some ⟨0#8 ++ n, 0#7, x, 53#8⟩
  | .tgack => some ⟨0#18, 0#7, 0#7, 54#8⟩
  | .trap code => some ⟨code, 0#7, 0#7, 55#8⟩
  | .tret => some ⟨0#18, 0#7, 0#7, 56#8⟩
  | .svc x n => some ⟨0#10 ++ n, 0#7, x, 57#8⟩
  | .ntfy x code => some ⟨0#2 ++ code, 0#7, x, 58#8⟩
  | _ => none

/-- The instruction with given fields, by opcode; none for an opcode outside the map or a nonzero unused field. -/
def decS (f : FS) : Option Instr :=
  match f.op.toNat with
  | 0 => if f.latch = 0#2 ∧ f.row = 0#5 ∧ f.m = 0#5 then some (.nopS) else none
  | 1 => some (.scl f.latch f.row f.m)
  | 2 => some (.sxv f.latch f.row f.m)
  | 3 => some (.sts f.latch f.row f.m)
  | _ => none

/-- The fields of an instruction of this format. -/
def encS : Instr → Option FS
  | .nopS => some ⟨0#2, 0#5, 0#5, 0#4⟩
  | .scl latch row m => some ⟨latch, row, m, 1#4⟩
  | .sxv latch row m => some ⟨latch, row, m, 2#4⟩
  | .sts latch row m => some ⟨latch, row, m, 3#4⟩
  | _ => none

/-- Keep a decoded instruction only where the field rules hold. -/
def keepWf (o : Option Instr) : Option Instr :=
  match o with
  | some i => if i.wf then some i else none
  | none => none

/-- Slot A or B. -/
def decodeAB (w : BitVec 32) : Option Instr := keepWf (decAB (cutAB w))
/-- Slot L: the opcode in [7:0] selects the format (Table 07.18). -/
def decodeL (w : BitVec 40) : Option Instr :=
  let op := w.toNat % 256
  if op = 0x0C ∨ op = 0x0D then keepWf (decLM (cutLM w))
  else if op < 0x0C then keepWf (decLA (cutLA w))
  else keepWf (decLH (cutLH w))
/-- Slot V. -/
def decodeV (w : BitVec 48) : Option Instr := keepWf (decV (cutV w))
/-- Slot M. -/
def decodeM (w : BitVec 48) : Option Instr := keepWf (decM (cutM w))
/-- Slot C. -/
def decodeC (w : BitVec 40) : Option Instr := keepWf (decC (cutC w))
/-- Slot S. -/
def decodeS (w : BitVec 16) : Option Instr := keepWf (decS (cutS w))

/-- A slot word with its width: the encoding of one instruction. -/
inductive SlotWord where
  | ab (w : BitVec 32) | l (w : BitVec 40) | v (w : BitVec 48) | m (w : BitVec 48) | c (w : BitVec 40) | s (w : BitVec 16)
  deriving DecidableEq, Repr

/-- The encoder: the slot word of an instruction; none for an event, which has no encoding. -/
def encode (i : Instr) : Option SlotWord :=
  match encAB i with
  | some f => some (.ab (packAB f))
  | none => match encLA i with
  | some f => some (.l (packLA f))
  | none => match encLM i with
  | some f => some (.l (packLM f))
  | none => match encLH i with
  | some f => some (.l (packLH f))
  | none => match encV i with
  | some f => some (.v (packV f))
  | none => match encM i with
  | some f => some (.m (packM f))
  | none => match encC i with
  | some f => some (.c (packC f))
  | none => match encS i with
  | some f => some (.s (packS f))
  | none => none

/-- The decoder on a slot word. -/
def decodeSlot : SlotWord → Option Instr
  | .ab w => decodeAB w | .l w => decodeL w | .v w => decodeV w
  | .m w => decodeM w | .c w => decodeC w | .s w => decodeS w

/-- The header of a bundle (Table 07.3). -/
structure FH where
  res1 : BitVec 4
  port5 : BitVec 4
  port4 : BitVec 4
  port3 : BitVec 4
  port2 : BitVec 4
  port1 : BitVec 4
  port0 : BitVec 4
  maskC : BitVec 5
  maskM : BitVec 5
  maskV : BitVec 5
  maskL : BitVec 5
  maskB : BitVec 5
  maskA : BitVec 5
  res0 : BitVec 1
  yld : BitVec 1
  stall : BitVec 4
  deriving DecidableEq, Repr

/-- The header word with given fields. -/
def packH (f : FH) : BitVec 64 :=
  f.res1 ++ f.port5 ++ f.port4 ++ f.port3 ++ f.port2 ++ f.port1 ++ f.port0 ++ f.maskC ++ f.maskM ++ f.maskV ++ f.maskL ++
  f.maskB ++ f.maskA ++ f.res0 ++ f.yld ++ f.stall

/-- The fields of a header word. -/
def cutH (w : BitVec 64) : FH :=
  ⟨w.extractLsb' 60 4, w.extractLsb' 56 4, w.extractLsb' 52 4, w.extractLsb' 48 4, w.extractLsb' 44 4, w.extractLsb' 40 4,
   w.extractLsb' 36 4, w.extractLsb' 31 5, w.extractLsb' 26 5, w.extractLsb' 21 5, w.extractLsb' 16 5, w.extractLsb' 11 5,
   w.extractLsb' 6 5, w.extractLsb' 5 1, w.extractLsb' 4 1, w.extractLsb' 0 4⟩

/-- The condition tree (Table 07.14). -/
structure FT where
  leaf4 : BitVec 3
  leaf3 : BitVec 3
  leaf2 : BitVec 3
  leaf1 : BitVec 3
  leaf0 : BitVec 3
  test3 : BitVec 11
  test2 : BitVec 11
  test1 : BitVec 11
  test0 : BitVec 11
  shape : BitVec 5
  deriving DecidableEq, Repr

/-- The tree word with given fields. -/
def packT (f : FT) : BitVec 64 :=
  f.leaf4 ++ f.leaf3 ++ f.leaf2 ++ f.leaf1 ++ f.leaf0 ++ f.test3 ++ f.test2 ++ f.test1 ++ f.test0 ++ f.shape

/-- The fields of a tree word. -/
def cutT (w : BitVec 64) : FT :=
  ⟨w.extractLsb' 61 3, w.extractLsb' 58 3, w.extractLsb' 55 3, w.extractLsb' 52 3, w.extractLsb' 49 3, w.extractLsb' 38 11,
   w.extractLsb' 27 11, w.extractLsb' 16 11, w.extractLsb' 5 11, w.extractLsb' 0 5⟩

/-- A decoded bundle (Table 07.2). -/
structure Bundle where
  h : FH
  a : Instr
  b : Instr
  l : Instr
  v : Instr
  m : Instr
  c : Instr
  s : Instr
  f : FT
  deriving DecidableEq, Repr

/-- Total decoder of a 384-bit bundle: none when some slot's word is refused. Ports, masks and tree are checked by
the scanner (Machine/Scan.lean). -/
def decodeBundle (w : BitVec 384) : Option Bundle :=
  match decodeAB (w.extractLsb' 64 32), decodeAB (w.extractLsb' 96 32), decodeL (w.extractLsb' 128 40),
    decodeV (w.extractLsb' 168 48), decodeM (w.extractLsb' 216 48), decodeC (w.extractLsb' 264 40),
    decodeS (w.extractLsb' 304 16) with
  | some a, some b, some l, some v, some m, some c, some s =>
    some ⟨cutH (w.extractLsb' 0 64), a, b, l, v, m, c, s, cutT (w.extractLsb' 320 64)⟩
  | _, _, _, _, _, _, _ => none

/-- The instruction this decoder reads from a row of the opcode table: 32-bit rows are slot A/B words, 16-bit rows
slot S words; any other width is no row of the table. -/
def decodeTableWord (nbits w : Nat) : Option Instr :=
  if nbits = 32 then decodeAB (BitVec.ofNat 32 w)
  else if nbits = 16 then decodeS (BitVec.ofNat 16 w)
  else none

end Sys2Proof
end

