-- ==== Sys2Proof/Machine/Bits.lean ====
section
/-! DEFINITION. Bit fields, sign extension, byte order and the small integer helpers of Table 00.3. -/

namespace Sys2Proof.Machine

/-- Bits [lo + w − 1 : lo] of a natural number (R6). -/
def bits (v lo w : Nat) : Nat := (v >>> lo) % 2 ^ w

/-- The low `n` bits of `v`, sign-extended to 64 bits (Table 00.3). -/
def sext64 (v : Nat) (n : Nat) : W64 :=
  let x := v % 2 ^ n
  if x ≥ 2 ^ (n - 1) then BitVec.ofNat 64 (2 ^ 64 - 2 ^ n + x) else BitVec.ofNat 64 x

/-- The low `n` bits of `v`, zero-extended to 64 bits (Table 00.3). -/
def zext64 (v : Nat) (n : Nat) : W64 := BitVec.ofNat 64 (v % 2 ^ n)

/-- The low `n` bits of `v` read as a two's-complement integer. -/
def sInt (v : Nat) (n : Nat) : Int :=
  let x := v % 2 ^ n
  if x ≥ 2 ^ (n - 1) then (x : Int) - 2 ^ n else x

/-- An integer wrapped to `n` bits. -/
def wrapN (i : Int) (n : Nat) : Nat := (i % (2 ^ n : Nat)).toNat

/-- An integer clamped to lo … hi. -/
def clampI (i lo hi : Int) : Int := if i < lo then lo else if i > hi then hi else i

/-- sat16 of Table 00.3. -/
def sat16 (i : Int) : Int := clampI i (-32768) 32767

/-- The number of set bits among the low `n`. -/
def popcount (v : Nat) : Nat → Nat
  | 0 => 0
  | n + 1 => popcount v n + (if v.testBit n then 1 else 0)

/-- parity(v) of Table 00.3, over the low `n` bits. -/
def parity (v n : Nat) : Nat := popcount v n % 2

/-- Leading zero bits of a 64-bit value; 64 for zero (Table 09.3). -/
def clz64 (v : Nat) : Nat := if v = 0 then 64 else 63 - v.log2

/-- Trailing zero bits, looking at bits `i`, `i+1`, … for `fuel` bits. -/
def ctzFrom (v : Nat) (i : Nat) : Nat → Nat
  | 0 => i
  | f + 1 => if v.testBit i then i else ctzFrom v (i + 1) f

/-- Trailing zero bits of a 64-bit value; 64 for zero (Table 09.3). -/
def ctz64 (v : Nat) : Nat := ctzFrom v 0 64

/-- `n` little-endian bytes of a number (R7). -/
def toBytes : Nat → Nat → List Byte
  | 0, _ => []
  | n + 1, v => BitVec.ofNat 8 v :: toBytes n (v / 256)

/-- The number held by little-endian bytes (R7). -/
def ofBytes : List Byte → Nat
  | [] => 0
  | b :: r => b.toNat + 256 * ofBytes r

/-- Round an address down to a multiple of a power of two or any positive size. -/
def alignDown (a n : Nat) : Nat := a / n * n

/-- Ceiling division. -/
def cdiv (a b : Nat) : Nat := (a + b - 1) / b

/-- The first `some` of `f` over a list. -/
def firstSome {α β : Type} (f : α → Option β) : List α → Option β
  | [] => none
  | a :: r => match f a with
    | some b => some b
    | none => firstSome f r

end Sys2Proof.Machine
end

