-- ==== Sys2Proof/Machine/Float.lean ====
section
/-! DEFINITION. Number formats and arithmetic (03): decoding of every floating-point format to an exact dyadic value,
exact products and sums, one rounding to nearest with ties to even, the narrowing outcomes of Table 03.6. -/

namespace Sys2Proof.Machine

/-- The floating-point formats of Table 03.1. -/
inductive FFmt where
  | f32 | bf16 | f16 | e4m3 | e5m2 | e2m1
  deriving DecidableEq, Repr

/-- Fraction bits. -/
def FFmt.frac : FFmt → Nat
  | .f32 => 23 | .bf16 => 7 | .f16 => 10 | .e4m3 => 3 | .e5m2 => 2 | .e2m1 => 1

/-- Exponent bits. -/
def FFmt.exp : FFmt → Nat
  | .f32 => 8 | .bf16 => 8 | .f16 => 5 | .e4m3 => 4 | .e5m2 => 5 | .e2m1 => 2

/-- Exponent bias. -/
def FFmt.bias : FFmt → Nat
  | .f32 => 127 | .bf16 => 127 | .f16 => 15 | .e4m3 => 7 | .e5m2 => 15 | .e2m1 => 1

/-- Total bits. -/
def FFmt.width (f : FFmt) : Nat := 1 + f.exp + f.frac

/-- The exponent of the least subnormal: the weight of the fraction's last bit there. -/
def FFmt.emin (f : FFmt) : Int := 1 - (f.bias : Int) - f.frac

/-- The magnitude bits of the largest finite value (Table 03.1). -/
def FFmt.maxMag : FFmt → Nat
  | .f32 => 0x7F7FFFFF | .bf16 => 0x7F7F | .f16 => 0x7BFF | .e4m3 => 0x7E | .e5m2 => 0x7B | .e2m1 => 0x7

/-- The canonical NaN (R47); E2M1 has none and Table 03.6 gives code 0. -/
def FFmt.qnan : FFmt → Nat
  | .f32 => 0x7FC00000 | .bf16 => 0x7FC0 | .f16 => 0x7E00 | .e4m3 => 0x7F | .e5m2 => 0x7E | .e2m1 => 0

/-- An exact value: NaN, an infinity, or (−1)^neg · m · 2^e with m = 0 a signed zero. -/
inductive FV where
  | nan
  | inf (neg : Bool)
  | fin (neg : Bool) (m : Nat) (e : Int)
  deriving DecidableEq, Repr

/-- The value of an encoding (R36 to R39). E2M1 code 0b1000 decodes as −0 here; the array edges treat it apart. -/
def FFmt.decode (f : FFmt) (v : Nat) : FV :=
  let sgn := v.testBit (f.exp + f.frac)
  let ex := bits v f.frac f.exp
  let fr := bits v 0 f.frac
  let top := 2 ^ f.exp - 1
  match f with
  | .e2m1 => if ex = 0 then .fin sgn fr f.emin else .fin sgn (2 ^ f.frac + fr) (f.emin + ex - 1)
  | .e4m3 =>
    if ex = top ∧ fr = 7 then .nan
    else if ex = 0 then .fin sgn fr f.emin else .fin sgn (2 ^ f.frac + fr) (f.emin + ex - 1)
  | _ =>
    if ex = top then (if fr = 0 then .inf sgn else .nan)
    else if ex = 0 then .fin sgn fr f.emin else .fin sgn (2 ^ f.frac + fr) (f.emin + ex - 1)

/-- m · 2^(−k) rounded to an integer, to nearest with ties to even. -/
def shiftRNE (m k : Nat) : Nat :=
  if k = 0 then m
  else
    let q := m >>> k
    let r := m % 2 ^ k
    let h := 2 ^ (k - 1)
    if r > h ∨ (r = h ∧ q % 2 = 1) then q + 1 else q

/-- The magnitude bits of m · 2^e rounded to the format with no upper limit on the exponent (R49): the
pair (e', q) with q · 2^e' the rounded value packs as (e' − emin) · 2^frac + q. -/
def FFmt.roundMag (f : FFmt) (m : Nat) (e : Int) : Nat :=
  if m = 0 then 0
  else
    let e' : Int := max f.emin (e + m.log2 - f.frac)
    let q := if e ≥ e' then m <<< (e - e').toNat else shiftRNE m (e' - e).toNat
    (e' - f.emin).toNat * 2 ^ f.frac + q

/-- Round an exact value to the format, with the outcomes of Table 03.6; F32, BF16 and F16 overflow to infinity. -/
def FFmt.round (f : FFmt) (v : FV) : Nat :=
  let sgn (b : Bool) : Nat := if b then 2 ^ (f.exp + f.frac) else 0
  match v with
  | .nan => f.qnan
  | .inf b =>
    match f with
    | .f32 | .bf16 | .f16 => sgn b + (2 ^ f.exp - 1) * 2 ^ f.frac
    | _ => sgn b + f.maxMag
  | .fin b m e =>
    let mag := f.roundMag m e
    if mag > f.maxMag then
      match f with
      | .f32 | .bf16 | .f16 => sgn b + (2 ^ f.exp - 1) * 2 ^ f.frac
      | _ => sgn b + f.maxMag
    else if f = .e2m1 ∧ mag = 0 then 0
    else sgn b + mag

/-- Negation of a value (NaN stays NaN). -/
def FV.neg : FV → FV
  | .nan => .nan
  | .inf b => .inf (!b)
  | .fin b m e => .fin (!b) m e

/-- Magnitude. -/
def FV.abs : FV → FV
  | .nan => .nan
  | .inf _ => .inf false
  | .fin _ m e => .fin false m e

/-- Exact product; 0 · ∞ is NaN (R47, R52). -/
def FV.mul : FV → FV → FV
  | .nan, _ => .nan
  | _, .nan => .nan
  | .inf a, .inf b => .inf (a != b)
  | .inf a, .fin b m _ => if m = 0 then .nan else .inf (a != b)
  | .fin a m _, .inf b => if m = 0 then .nan else .inf (a != b)
  | .fin a m e, .fin b n g => .fin (a != b) (m * n) (e + g)

/-- Multiply by 2^k exactly. -/
def FV.scale (v : FV) (k : Int) : FV :=
  match v with
  | .fin b m e => .fin b m (e + k)
  | v => v

/-- The least exponent among finite terms, starting from `k`. -/
def minExp (k : Int) : List FV → Int
  | [] => k
  | .fin _ m e :: r => minExp (if m = 0 then k else min k e) r
  | _ :: r => minExp k r

/-- The finite terms summed as an integer multiple of 2^k. -/
def sumAt (k : Int) : List FV → Int
  | [] => 0
  | .fin b m e :: r =>
    let t : Int := (m : Int) * 2 ^ (e - k).toNat
    (if m = 0 then 0 else if b then -t else t) + sumAt k r
  | _ :: r => sumAt k r

/-- Some finite term with a nonzero significand gives an exponent to start from. -/
def someExp : List FV → Int
  | [] => 0
  | .fin _ m e :: r => if m = 0 then someExp r else e
  | _ :: r => someExp r

/-- The exact sum of a list of terms with the special cases of R54. -/
def FV.sum (ts : List FV) : FV :=
  let isNan := ts.any (fun t => t == .nan)
  let pinf := ts.any (fun t => t == .inf false)
  let ninf := ts.any (fun t => t == .inf true)
  if isNan ∨ (pinf ∧ ninf) then .nan
  else if pinf then .inf false
  else if ninf then .inf true
  else
    let k := minExp (someExp ts) ts
    let s := sumAt k ts
    if s = 0 then
      .fin (ts.all (fun t => match t with
        | .fin b m _ => b && m == 0
        | _ => false) && !ts.isEmpty) 0 0
    else .fin (decide (s < 0)) s.natAbs k

/-- Comparison of finite magnitudes m·2^e and n·2^g. -/
def cmpMag (m : Nat) (e : Int) (n : Nat) (g : Int) : Ordering :=
  let k := min e g
  compare (m * 2 ^ (e - k).toNat) (n * 2 ^ (g - k).toNat)

/-- The order of R51: −0 below +0; none when either is NaN. -/
def FV.cmp : FV → FV → Option Ordering
  | .nan, _ => none
  | _, .nan => none
  | .inf a, .inf b => some (if a = b then .eq else if a then .lt else .gt)
  | .inf a, .fin _ _ _ => some (if a then .lt else .gt)
  | .fin _ _ _, .inf b => some (if b then .gt else .lt)
  | .fin a m e, .fin b n g =>
    if a ≠ b then some (if a then .lt else .gt)
    else if a then some (cmpMag n g m e) else some (cmpMag m e n g)

/-- Minimum under R51: the canonical NaN when either operand is NaN. -/
def FV.min2 (x y : FV) : FV :=
  match FV.cmp x y with
  | none => .nan
  | some .gt => y
  | _ => x

/-- Maximum under R51. -/
def FV.max2 (x y : FV) : FV :=
  match FV.cmp x y with
  | none => .nan
  | some .lt => y
  | _ => x

/-- Integer square root by Newton's method from above; `fuel` bounds the steps. -/
def isqrtGo (n x : Nat) : Nat → Nat
  | 0 => x
  | f + 1 =>
    let y := (x + n / x) / 2
    if y < x then isqrtGo n y f else x

/-- ⌊√n⌋. -/
def isqrt (n : Nat) : Nat := if n = 0 then 0 else isqrtGo n (2 ^ (n.log2 / 2 + 1)) 512

/-- m / n as a significand with sticky bit: (q, e) with q odd when the division is inexact, having at least `p` bits. -/
def divSticky (m n p : Nat) : Nat × Int :=
  let k := p + n.log2 + 2
  let q := (m <<< k) / n
  let r := (m <<< k) % n
  (2 * q + (if r = 0 then 0 else 1), -(k : Int) - 1)

/-- The exact quotient of two values up to a sticky bit beyond every rounding position of F32 (R46, Table 09.4). -/
def FV.div : FV → FV → FV
  | .nan, _ => .nan
  | _, .nan => .nan
  | .inf _, .inf _ => .nan
  | .inf a, .fin b _ _ => .inf (a != b)
  | .fin a _ _, .inf b => .fin (a != b) 0 0
  | .fin a m e, .fin b n g =>
    if n = 0 then (if m = 0 then .nan else .inf (a != b))
    else if m = 0 then .fin (a != b) 0 0
    else
      let d := divSticky m n 64
      .fin (a != b) d.1 (e - g + d.2)

/-- The square root up to a sticky bit (Table 09.4): √−0 = −0, negative gives NaN. -/
def FV.sqrt : FV → FV
  | .nan => .nan
  | .inf b => if b then .nan else .inf false
  | .fin b m e =>
    if m = 0 then .fin b 0 0
    else if b then .nan
    else
      let me : Nat × Int := if e % 2 = 0 then (m, e) else (2 * m, e - 1)
      let n := me.1 <<< 128
      let r := isqrt n
      .fin false (2 * r + (if r * r = n then 0 else 1)) ((me.2 - 128) / 2 - 1)

/-- 1/√x up to a sticky bit, with the special values of Table 17.2. -/
def FV.rsqrt : FV → FV
  | .nan => .nan
  | .inf b => if b then .nan else .fin false 0 0
  | .fin b m e =>
    if m = 0 then .inf b
    else if b then .nan
    else
      let me : Nat × Int := if e % 2 = 0 then (m, e) else (2 * m, e - 1)
      let r := isqrt (2 ^ 256 / me.1)
      .fin false (2 * r + (if r * r * me.1 = 2 ^ 256 then 0 else 1)) (-128 - me.2 / 2 - 1)

/-- Product over the roots 2^(2^−i), i rising: `f` holds the fraction's bits from bit `i` down, `r` is the current root. -/
def exp2Go (f : Nat) (acc r : Nat) : Nat → Nat
  | 0 => acc
  | i + 1 =>
    let r' := isqrt (r <<< 160)
    exp2Go f (if f.testBit i then (acc * r') >>> 160 else acc) r' i

/-- 2^(f/2^56) in fixed point with 160 fraction bits, 0 ≤ f < 2^56. -/
def exp2Frac (f : Nat) : Nat := exp2Go f (2 ^ 160) (2 ^ 161) 56

/-- 2^x up to a sticky bit beyond every rounding position of F32 (R12, R282): for |x| < 2^−26 the value rounds to 1;
otherwise the fraction of x has at most 50 bits (log 11). -/
def FV.exp2 : FV → FV
  | .nan => .nan
  | .inf b => if b then .fin false 0 0 else .inf false
  | .fin b m e =>
    if m = 0 ∨ (m.log2 : Int) + 1 + e ≤ -26 then .fin false 1 0
    else if (m.log2 : Int) + e ≥ 10 then (if b then .fin false 1 (-1000) else .fin false 1 1000)
    else
      let x : Int := (if b then -(m : Int) else m) * 2 ^ (e + 56).toNat
      let n := x / (2 ^ 56 : Nat)
      let f := (x % (2 ^ 56 : Nat)).toNat
      if f = 0 then .fin false 1 n
      else .fin false (2 * exp2Frac f + 1) (n - 161)

/-- Fraction bits of log2 y by repeated squaring; y has 256 fraction bits and 1 ≤ y < 2. -/
def log2Go (y acc : Nat) : Nat → Nat
  | 0 => acc
  | f + 1 =>
    let z := (y * y) >>> 256
    if z ≥ 2 ^ 257 then log2Go (z / 2) (2 * acc + 1) f else log2Go z (2 * acc) f

/-- log2 x up to a sticky bit, with the special values of Table 17.2 (log 11). -/
def FV.log2 : FV → FV
  | .nan => .nan
  | .inf b => if b then .nan else .inf false
  | .fin b m e =>
    if m = 0 then .inf true
    else if b then .nan
    else
      let k : Int := (m.log2 : Int) + e
      if m = 2 ^ m.log2 then .fin (decide (k < 0)) k.natAbs 0
      else
        let v : Int := 2 * (k * 2 ^ 130 + log2Go (m <<< (256 - m.log2)) 0 130) + 1
        .fin (decide (v < 0)) v.natAbs (-131)

/-- An integer as a value. -/
def FV.ofInt (i : Int) : FV := .fin (decide (i < 0)) i.natAbs 0

/-- A value rounded to an integer, ties to even; none for NaN, an infinity clamps outside (R50). -/
def FV.toIntRNE : FV → Option Int
  | .nan => none
  | .inf b => some (if b then -(2 ^ 200) else 2 ^ 200)
  | .fin b m e =>
    let q : Int := if e ≥ 0 then (m <<< e.toNat : Nat) else shiftRNE m (-e).toNat
    some (if b then -q else q)

/-- A value truncated toward zero. -/
def FV.toIntRZ : FV → Option Int
  | .nan => none
  | .inf b => some (if b then -(2 ^ 200) else 2 ^ 200)
  | .fin b m e =>
    let q : Int := if e ≥ 0 then (m <<< e.toNat : Nat) else (m >>> (-e).toNat : Nat)
    some (if b then -q else q)

/-- Conversion to an integer with saturation to lo … hi; NaN gives 0 (R50, R283). -/
def satInt (i : Option Int) (lo hi : Int) : Int :=
  match i with
  | none => 0
  | some v => clampI v lo hi

/-- The F32 value held in the low 32 bits. -/
def f32 (v : Nat) : FV := FFmt.f32.decode v
/-- Round to F32 bits. -/
def rF32 (v : FV) : Nat := FFmt.f32.round v

/-- CUFF(x) of R58: rounded to F32, nonzero results below 2^−126 in magnitude replaced by +0. -/
def cuff (v : FV) : Nat :=
  let r := rF32 v
  if bits r 23 8 = 0 then (if bits r 0 23 = 0 then r else 0) else r

/-- EXPC(x) of R58. -/
def expc (v : FV) : Nat := cuff (f32 (rF32 (FV.exp2 v)))

/-- The format of a floating type code (Table 07.16). -/
def fmtOf (t : Nat) : Option FFmt :=
  match t with
  | 0 => some .f32 | 1 => some .bf16 | 2 => some .f16 | 3 => some .e4m3 | 4 => some .e5m2 | 5 => some .e2m1
  | _ => none

/-- bits(T) of Table 07.16; MXI6 is held in 8. -/
def bitsOf (t : Nat) : Nat :=
  match t with
  | 0 | 6 | 7 => 32
  | 1 | 2 | 8 | 9 => 16
  | 3 | 4 | 10 | 11 | 12 | 13 => 8
  | 5 | 14 => 4
  | _ => 32

/-- The width w of an MX integer type (R44), 0 for any other type. -/
def mxWidth (t : Nat) : Nat :=
  match t with
  | 12 => 8 | 13 => 6 | 14 => 4 | _ => 0

end Sys2Proof.Machine
end

