-- ==== Sys2Proof/Config.lean ====
section
/-! DEFINITION. What an implementation fixes and the free values: constants with no body, so that no proof can see what they are. A
claim about the machine holds whatever they are. -/

namespace Sys2Proof.Config

/-- Which of the events that may happen now happens next; applied to the running draw counter (log 1). -/
opaque freeChoice : Nat → Nat
/-- A byte the spec leaves open, one for each draw: a chunk read while a row arrives (R272), save-area bytes (R342), a dispatcher-owned field that a
program stores to (R349), a record that its team's template overlaps (R354) (log 13); the type of a reply to a router solicitation (log 43). -/
opaque freeByte : Nat → Byte
/-- A 32-bit word the spec leaves open, one for each draw: elements in flight (R296) and the flags of a disagreeing group (R397) (log 13); a gang's start
tick (R88, log 24) and the row that a row swap takes (R199, log 25). -/
opaque freeWord : Nat → W32
/-- The health word's and reply's device fields fixed at manufacture or by the firmware: the MAC address (R30). -/
opaque mac : BitVec 48
/-- SERIAL of Table 27.9. -/
opaque serial : BitVec 128
/-- The digest of the firmware with which the device was made (R407). -/
opaque firmwareDigest : BitVec 512
/-- The digest of a firmware image, given as the bytes of the staging area that are not 0 (R407, R414). -/
opaque imageDigest : List (Nat × Byte) → BitVec 512
/-- The device identity public key of R407, 2,592 bytes. -/
opaque identityKey : BitVec 20736
/-- Broesk's signature over the device identity key, 4,627 bytes (R407). -/
opaque keySignature : BitVec 37016
/-- The device nonce ND of R407, one for each draw. -/
opaque nonce : Nat → BitVec 256
/-- The random message of an encapsulation of R407, one for each draw. -/
opaque kemSeed : Nat → BitVec 256
/-- The owner key of R407, 2,592 bytes, which manufacture wrote. -/
opaque ownerKey : BitVec 20736
/-- The device-identity signature over a digest, 4,627 bytes, one for each draw: the private key and the randomness of signing are the device's (R407). -/
opaque sign : BitVec 512 → Nat → BitVec 37016
/-- Contents of the read-only ranges of the diagnostic window whose layout the table does not give, by offset and by the state that they show (Table
27.11). -/
opaque diagByte : Nat → List Nat → Byte
/-- The supervisor's answers that are policy: a fresh team id (R354), by draw. -/
opaque freeTeam : Nat → W16

end Sys2Proof.Config
end

