-- ==== Sys2Proof/Machine/Digest.lean ====
section
/-! DEFINITION. SHA3-256, SHA3-512, SHAKE128 and SHAKE256, which digests, keys and the module's attestation use (27 R407, R408): FIPS 202 (PRESUMED,
log 74). -/

namespace Sys2Proof.Machine

/-- The rotations of the lanes, lane x + 5y. -/
def rhoTable : List Nat := [0, 1, 62, 28, 27, 36, 44, 6, 55, 20, 3, 10, 43, 25, 39, 41, 45, 15, 21, 8, 18, 2, 61, 56, 14]
/-- The bits of the linear feedback shift register of ι, seven for each of the 24 rounds, the first lowest. -/
def iotaBits : Nat := 0xE886C79CC5A452A7767BF4CD460EABE509FE178D01
/-- The constant of round r: bit j of its seven stands at place 2^j − 1 of the lane. -/
def iotaWord (r : Nat) : Nat := ((List.range 7).map fun j => iotaBits / 2 ^ (7 * r + j) % 2 * 2 ^ (2 ^ j - 1)).sum
/-- A lane rotated by n places. -/
def rotLane (v n : Nat) : Nat := (v * 2 ^ n) % 2 ^ 64 + v / 2 ^ (64 - n)
/-- One round of Keccak-f[1600] on 25 lanes: θ, ρ, π, χ and ι. -/
def keccakRound (a : List Nat) (rc : Nat) : List Nat :=
  let at' (l : List Nat) (i : Nat) : Nat := l.getD i 0
  let c := (List.range 5).map fun x => at' a x ^^^ at' a (x + 5) ^^^ at' a (x + 10) ^^^ at' a (x + 15) ^^^ at' a (x + 20)
  let d := (List.range 5).map fun x => at' c ((x + 4) % 5) ^^^ rotLane (at' c ((x + 1) % 5)) 1
  let t := (List.range 25).map fun i => rotLane (at' a i ^^^ at' d (i % 5)) (at' rhoTable i)
  let b := (List.range 25).map fun i => at' t ((i % 5 + 3 * (i / 5)) % 5 + 5 * (i % 5))
  let e := (List.range 25).map fun i =>
    let y := i / 5 * 5
    at' b i ^^^ ((2 ^ 64 - 1 - at' b (y + (i + 1 - y) % 5)) &&& at' b (y + (i + 2 - y) % 5))
  (e.headD 0 ^^^ rc) :: e.drop 1
/-- Keccak-f[1600]. -/
def keccakF (a : List Nat) : List Nat := (List.range 24).foldl (fun b r => keccakRound b (iotaWord r)) a
/-- The bytes of the lanes. -/
def laneBytes (a : List Nat) : List Byte := a.flatMap (toBytes 8)
/-- Add a block of bytes to the lanes. -/
def absorbBlock (a : List Nat) (b : List Byte) : List Nat := a.zipIdx.map fun p => p.1 ^^^ ofBytes ((b.drop (8 * p.2)).take 8)
/-- Absorb blocks of `r` bytes, the last with padding, for a message of fewer than `f` blocks. -/
def absorb (r : Nat) (suffix : Byte) : Nat → List Byte → List Nat → List Nat
  | 0, _, a => a
  | f + 1, m, a =>
    if r ≤ m.length then absorb r suffix f (m.drop r) (keccakF (absorbBlock a (m.take r)))
    else
      let z := r - 1 - m.length
      keccakF (absorbBlock a (if z = 0 then m ++ [suffix ^^^ 0x80] else m ++ [suffix] ++ List.replicate (z - 1) 0 ++ [0x80]))
/-- Squeeze n blocks of `r` bytes. -/
def squeeze (r : Nat) : Nat → List Nat → List Byte
  | 0, _ => []
  | n + 1, a => (laneBytes a).take r ++ squeeze r n (keccakF a)
/-- The sponge: n bytes of a message at rate r. -/
def sponge (r : Nat) (suffix : Byte) (n : Nat) (m : List Byte) : List Byte :=
  (squeeze r (cdiv n r) (absorb r suffix (m.length / r + 1) m (List.replicate 25 0))).take n
/-- SHA3-512. -/
def sha3x512 (m : List Byte) : List Byte := sponge 72 0x06 64 m
/-- SHA3-256. -/
def sha3x256 (m : List Byte) : List Byte := sponge 136 0x06 32 m
/-- SHAKE128 of n bytes. -/
def shake128 (n : Nat) (m : List Byte) : List Byte := sponge 168 0x1F n m
/-- SHAKE256 of n bytes. -/
def shake256 (n : Nat) (m : List Byte) : List Byte := sponge 136 0x1F n m

end Sys2Proof.Machine
end

