-- ==== Sys2Proof/Machine/Sealing.lean ====
section
/-! DEFINITION. AES-256-GCM, which seals the frames of the host link (27 R405): the spec names the algorithm, and FIPS 197 and NIST SP 800-38D give it
(PRESUMED, log 74). Bytes stand as in those texts, the first byte first. -/

namespace Sys2Proof.Machine

/-! ## AES-256 -/

/-- The substitution box, entry n in bits 8n + 7 to 8n. -/
def sboxTable : Nat :=
  [0x76abd7fe2b670130c56f6bf27b777c63, 0xc072a49cafa2d4adf04759fa7dc982ca, 0x1531d871f1e5a534ccf73f362693fdb7, 0x75b227ebe28012079a059618c323c704,
   0x842fe329b3d63b52a05a6e1b1a2c8309, 0xcf584c4a39becb6a5bb1fc20ed00d153, 0xa89f3c507f02f94585334d43fbaaefd0, 0xd2f3ff1021dab6bcf5389d928f40a351,
   0x73195d643d7ea7c41744975fec130ccd, 0xdb0b5ede14b8ee4688902a22dc4f8160, 0x79e4959162acd3c25c2406490a3a32e0, 0x08ae7a65eaf4566ca94ed58d6d37c8e7,
   0x8a8bbd4b1f74dde8c6b4a61c2e2578ba, 0x9e1dc186b95735610ef6034866b53e70, 0xdf2855cee9871e9b948ed9691198f8e1, 0x16bb54b00f2d99416842e6bf0d89a18c].foldr
    (fun (r : Nat) a => r + 2 ^ 128 * a) 0
/-- SubBytes of one byte. -/
def subByte (x : Nat) : Nat := bits sboxTable (8 * x) 8
/-- Multiplication by x in the field of AES. -/
def xtime (x : Nat) : Nat := if x < 128 then 2 * x else (2 * x) ^^^ 0x11B
/-- Bytes added in a field of characteristic 2. -/
def xorBytes (a b : List Nat) : List Nat := List.zipWith (· ^^^ ·) a b
/-- MixColumns of one column after another. -/
def mixColumns : List Nat → List Nat
  | a :: b :: c :: d :: r =>
    (xtime a ^^^ xtime b ^^^ b ^^^ c ^^^ d) :: (a ^^^ xtime b ^^^ xtime c ^^^ c ^^^ d) :: (a ^^^ b ^^^ xtime c ^^^ xtime d ^^^ d) ::
      (xtime a ^^^ a ^^^ b ^^^ c ^^^ xtime d) :: mixColumns r
  | _ => []
/-- SubBytes and ShiftRows. -/
def subShift (st : List Nat) : List Nat := (List.range 16).map fun i => subByte (st.getD ((i + 4 * (i % 4)) % 16) 0)
/-- The next words of the key schedule, newest first: word i from words i − 1 and i − 8, while `n` words are left. -/
def keyWords : Nat → Nat → Nat → List (List Nat) → List (List Nat)
  | 0, _, _, l => l
  | n + 1, i, rcon, l =>
    let t := l.headD []
    let u := if i % 8 = 0 then xorBytes ((t.drop 1 ++ t.take 1).map subByte) [rcon, 0, 0, 0] else if i % 8 = 4 then t.map subByte else t
    keyWords n (i + 1) (if i % 8 = 0 then xtime rcon else rcon) (xorBytes (l.getD 7 []) u :: l)
/-- Split a list into parts of n elements, as many as `f` allows. -/
def chunksOf {α : Type} (n : Nat) : Nat → List α → List (List α)
  | 0, _ => []
  | f + 1, l => if l.isEmpty then [] else l.take n :: chunksOf n f (l.drop n)
/-- The fifteen round keys of a key of 32 bytes. -/
def roundKeys (k : List Nat) : List (List Nat) := chunksOf 16 15 (keyWords 52 8 1 (chunksOf 4 8 k).reverse).reverse.flatten
/-- AES-256 of one block under its round keys. -/
def aesBlock (rk : List (List Nat)) (b : List Nat) : List Nat :=
  let mid := ((rk.drop 1).take 13).foldl (fun st k => xorBytes (mixColumns (subShift st)) k) (xorBytes b (rk.headD []))
  xorBytes (subShift mid) (rk.getD 14 [])

/-! ## GCM -/

/-- A number of bytes with the first byte highest, as GCM reads blocks. -/
def beNat (l : List Nat) : Nat := l.foldl (fun a b => a * 256 + b) 0
/-- The n bytes of a number, the first byte highest. -/
def beBytes (n v : Nat) : List Nat := (List.range n).map fun i => bits v (8 * (n - 1 - i)) 8
/-- The product of GHASH's field: bit 127 of a block is the coefficient of 1. -/
def ghashMul (x y : Nat) : Nat :=
  ((List.range 128).foldl (fun (p : Nat × Nat) i =>
    (if x.testBit (127 - i) then p.1 ^^^ p.2 else p.1, if p.2.testBit 0 then (p.2 / 2) ^^^ (0xE1 * 2 ^ 120) else p.2 / 2)) (0, y)).1
/-- Bytes padded with zeros to whole blocks. -/
def padBlocks (l : List Nat) : List (List Nat) := (chunksOf 16 (l.length + 1) l).map fun b => b ++ List.replicate (16 - b.length) 0
/-- GHASH under the key h of authenticated data and contents. -/
def ghash (h : Nat) (aad ct : List Nat) : Nat :=
  (padBlocks aad ++ padBlocks ct ++ [beBytes 8 (8 * aad.length) ++ beBytes 8 (8 * ct.length)]).foldl (fun y b => ghashMul (y ^^^ beNat b) h) 0
/-- The key stream of n bytes: blocks 2, 3, … of the counter that the nonce begins. -/
def keyStream (rk : List (List Nat)) (nonce : List Nat) (n : Nat) : List Nat :=
  ((List.range (cdiv n 16)).flatMap fun i => aesBlock rk (nonce ++ beBytes 4 (i + 2))).take n
/-- A byte as a number of FIPS 197. -/
def byteNats (l : List Byte) : List Nat := l.map BitVec.toNat
/-- Numbers as bytes. -/
def natBytes (l : List Nat) : List Byte := l.map (BitVec.ofNat 8)
/-- Encryption and decryption in counter mode. -/
def gcmCrypt (key nonce data : List Byte) : List Byte :=
  List.zipWith (· ^^^ ·) data (natBytes (keyStream (roundKeys (byteNats key)) (byteNats nonce) data.length))
/-- The tag of authenticated data and sealed contents. -/
def gcmTag (key nonce aad ct : List Byte) : List Byte :=
  let rk := roundKeys (byteNats key)
  let y := ghash (beNat (aesBlock rk (List.replicate 16 0))) (byteNats aad) (byteNats ct)
  natBytes (xorBytes (aesBlock rk (byteNats nonce ++ [0, 0, 0, 1])) (beBytes 16 y))

end Sys2Proof.Machine
end

