-- ==== Sys2Proof/Machine/Keys.lean ====
section
/-! DEFINITION. ML-KEM-1024 encapsulation and ML-DSA-87 verification, which the attestation of 27 R407 and R408 uses: the spec names FIPS 203, and FIPS
204 by its parameter set (PRESUMED, log 74). Polynomials are lists of 256 coefficients below the modulus. -/

namespace Sys2Proof.Machine

/-! ## Polynomials -/

/-- The low n bits of v in reverse. -/
def revBits (n v : Nat) : Nat := (List.range n).foldl (fun a i => 2 * a + bits v i 1) 0
/-- The coefficient-wise combination of two polynomials. -/
def polyWith (q : Nat) (f : Nat → Nat → Nat) (a b : List Nat) : List Nat := List.zipWith (fun x y => f x y % q) a b
/-- The sum of polynomials. -/
def polySum (q : Nat) (l : List (List Nat)) : List Nat := l.foldl (polyWith q (· + ·)) (List.replicate 256 0)
/-- Half of a butterfly network: `d` layers over blocks, block i of the layers numbered on from i; `z` gives the factor of a block. -/
def nttFrom (q : Nat) (z : Nat → Nat) : Nat → Nat → List Nat → List Nat
  | 0, _, f => f
  | d + 1, i, f =>
    let h := f.length / 2
    let t := (f.drop h).map fun x => z i * x % q
    nttFrom q z d (2 * i) (polyWith q (· + ·) (f.take h) t) ++ nttFrom q z d (2 * i + 1) (polyWith q (fun x y => x + (q - y)) (f.take h) t)
/-- Its inverse, but for the factor of 2 of each layer; `z` gives the inverses of the factors. -/
def inttFrom (q : Nat) (z : Nat → Nat) : Nat → Nat → List Nat → List Nat
  | 0, _, f => f
  | d + 1, i, f =>
    let h := f.length / 2
    let a := inttFrom q z d (2 * i) (f.take h)
    let b := inttFrom q z d (2 * i + 1) (f.drop h)
    polyWith q (· + ·) a b ++ (polyWith q (fun x y => x + (q - y)) a b).map fun x => z i * x % q
/-- The numbers of `w` bits that bytes hold, the low bits first. -/
def unpackBits (w n : Nat) (l : List Byte) : List Nat :=
  let v := ofBytes l
  (List.range n).map fun i => bits v (w * i) w
/-- Numbers of `w` bits as bytes. -/
def packBits (w : Nat) (l : List Nat) : List Byte := toBytes (w * l.length / 8) (l.foldr (fun x a => x + 2 ^ w * a) 0)
/-- Parts of n bytes. -/
def parts (n : Nat) (l : List Byte) : List (List Byte) := chunksOf n (l.length / n) l

/-! ## ML-KEM-1024 (FIPS 203): k = 4, η1 = η2 = 2, du = 11, dv = 5 -/

/-- The modulus. -/
def kemQ : Nat := 3329
/-- The number-theoretic transform. -/
def kemNtt (f : List Nat) : List Nat := nttFrom kemQ (fun i => 17 ^ revBits 7 i % kemQ) 7 1 f
/-- Its inverse; 3303 is 1/128. -/
def kemIntt (f : List Nat) : List Nat := (inttFrom kemQ (fun i => 17 ^ (256 - revBits 7 i) % kemQ) 7 1 f).map fun x => x * 3303 % kemQ
/-- Products of pairs of coefficients, pair i on. -/
def kemMulFrom : Nat → List Nat → List Nat → List Nat
  | i, a0 :: a1 :: a, b0 :: b1 :: b =>
    (a0 * b0 + a1 * b1 * (17 ^ (2 * revBits 7 i + 1) % kemQ)) % kemQ :: (a0 * b1 + a1 * b0) % kemQ :: kemMulFrom (i + 1) a b
  | _, _, _ => []
/-- The product of a row with a column of transformed polynomials. -/
def kemDot (a b : List (List Nat)) : List Nat := polySum kemQ (List.zipWith (kemMulFrom 0) a b)
/-- The candidates below the modulus that triples of bytes hold. -/
def kemCandidates : List Byte → List Nat
  | a :: b :: c :: r =>
    let x := a.toNat + 256 * (b.toNat % 16)
    let y := b.toNat / 16 + 16 * c.toNat
    (if x < kemQ then [x] else []) ++ (if y < kemQ then [y] else []) ++ kemCandidates r
  | _ => []
/-- A uniform polynomial from a seed; 2,016 bytes hold 256 candidates but for a chance below 2^−128. -/
def kemUniform (seed : List Byte) : List Nat := (kemCandidates (shake128 2016 seed)).take 256
/-- A polynomial of the centred binomial distribution with η = 2, from 128 bytes. -/
def kemNoise (r : List Byte) (n : Nat) : List Nat :=
  (unpackBits 4 256 (shake256 128 (r ++ [BitVec.ofNat 8 n]))).map fun v => (bits v 0 1 + bits v 1 1 + kemQ - bits v 2 1 - bits v 3 1) % kemQ
/-- A coefficient compressed to d bits. -/
def kemCompress (d x : Nat) : Nat := (2 * x * 2 ^ d + kemQ) / (2 * kemQ) % 2 ^ d
/-- K-PKE encryption of a message of 32 bytes with the randomness r. -/
def kemEncrypt (ek m r : List Byte) : List Byte :=
  let rho := ek.drop 1536
  let t := (parts 384 (ek.take 1536)).map fun b => (unpackBits 12 256 b).map (· % kemQ)
  let y := (List.range 4).map fun i => kemNtt (kemNoise r i)
  let u := (List.range 4).map fun i =>
    let col := (List.range 4).map fun j => kemUniform (rho ++ [BitVec.ofNat 8 i, BitVec.ofNat 8 j])
    polyWith kemQ (· + ·) (kemIntt (kemDot col y)) (kemNoise r (4 + i))
  let mu := (unpackBits 1 256 m).map (· * 1665)
  let v := polyWith kemQ (· + ·) (polyWith kemQ (· + ·) (kemIntt (kemDot t y)) (kemNoise r 8)) mu
  (u.flatMap fun f => packBits 11 (f.map (kemCompress 11))) ++ packBits 5 (v.map (kemCompress 5))
/-- Encapsulation to a key with a random message of 32 bytes: the shared secret and the ciphertext. -/
def kemEncaps (ek m : List Byte) : List Byte × List Byte :=
  let g := sha3x512 (m ++ sha3x256 ek)
  (g.take 32, kemEncrypt ek m (g.drop 32))

/-! ## ML-DSA-87 (FIPS 204): k = 8, l = 7, τ = 60, γ1 = 2^19, γ2 = (q − 1)/32, ω = 75, β = 120 -/

/-- The modulus. -/
def dsaQ : Nat := 8380417
/-- The number-theoretic transform. -/
def dsaNtt (f : List Nat) : List Nat := nttFrom dsaQ (fun i => 1753 ^ revBits 8 i % dsaQ) 8 1 f
/-- Its inverse; 8347681 is 1/256. -/
def dsaIntt (f : List Nat) : List Nat := (inttFrom dsaQ (fun i => 1753 ^ (512 - revBits 8 i) % dsaQ) 8 1 f).map fun x => x * 8347681 % dsaQ
/-- The candidates below the modulus that triples of bytes hold. -/
def dsaCandidates : List Byte → List Nat
  | a :: b :: c :: r =>
    let x := a.toNat + 256 * b.toNat + 65536 * (c.toNat % 128)
    (if x < dsaQ then [x] else []) ++ dsaCandidates r
  | _ => []
/-- A uniform transformed polynomial from a seed; 1,008 bytes hold 256 candidates but for a chance below 2^−128. -/
def dsaUniform (seed : List Byte) : List Nat := (dsaCandidates (shake128 1008 seed)).take 256
/-- Place the signs of a challenge: position n takes the coefficient of the next byte that is at most n, which takes the next sign. -/
def dsaPlace (h : Nat) : Nat → Nat → List Byte → List Nat → List Nat
  | _, _, [], c => c
  | f, n, b :: r, c =>
    if 256 ≤ n then c
    else if n < b.toNat then dsaPlace h f n r c
    else dsaPlace h (f + 1) (n + 1) r ((c.set n (c.getD b.toNat 0)).set b.toNat (if h.testBit f then dsaQ - 1 else 1))
/-- The challenge polynomial of a hash. -/
def dsaBall (s : List Byte) : List Nat :=
  let b := shake256 1360 s
  dsaPlace (ofBytes (b.take 8)) 0 196 (b.drop 8) (List.replicate 256 0)
/-- The hints of the polynomials, by the end of each one's positions; none where they break their form. -/
def dsaHints (y : List Nat) : Nat → List Nat → Option (List (List Nat))
  | i, [] => if (y.drop i).all (· == 0) then some [] else none
  | i, e :: r =>
    let p := (y.take e).drop i
    if e < i || decide (75 < e) || !(List.zipWith (fun (a b : Nat) => decide (a < b)) p (p.drop 1)).all id then none
    else (dsaHints y e r).map (p :: ·)
/-- The high part of a coefficient, corrected where a hint stands. -/
def dsaUseHint (hint : Bool) (r : Nat) : Nat :=
  let g := 2 * ((dsaQ - 1) / 32)
  let m := r % g
  let low : Int := if 2 * m ≤ g then m else (m : Int) - g
  let top := decide ((r : Int) - low = (dsaQ : Int) - 1)
  let r1 := if top then 0 else (((r : Int) - low) / g).toNat
  let r0 := if top then low - 1 else low
  if !hint then r1 else if 0 < r0 then (r1 + 1) % 16 else (r1 + 15) % 16
/-- Verification of a signature over a message with an empty context. -/
def dsaVerify (pk msg sig : List Byte) : Bool :=
  let rho := pk.take 32
  let c := sig.take 64
  let z := (parts 640 ((sig.drop 64).take 4480)).map (unpackBits 20 256)
  let y := (sig.drop 4544).map BitVec.toNat
  match dsaHints (y.take 75) 0 (y.drop 75) with
  | none => false
  | some h =>
    let zs := z.map fun f => dsaNtt (f.map fun v => (2 ^ 19 + dsaQ - v) % dsaQ)
    let cs := dsaNtt (dsaBall c)
    let t1 := (parts 320 (pk.drop 32)).map fun b => dsaNtt ((unpackBits 10 256 b).map (· * 2 ^ 13))
    let w1 := (t1.zip h).zipIdx.map fun p =>
      let row := (List.range 7).map fun s => dsaUniform (rho ++ [BitVec.ofNat 8 s, BitVec.ofNat 8 p.2])
      let az := polySum dsaQ (List.zipWith (polyWith dsaQ (· * ·)) row zs)
      let w := dsaIntt (polyWith dsaQ (fun a b => a + (dsaQ - b)) az (polyWith dsaQ (· * ·) cs p.1.1))
      packBits 4 (w.zipIdx.map fun x => dsaUseHint (p.1.2.contains x.2) x.1)
    let mu := shake256 64 (shake256 64 pk ++ [0, 0] ++ msg)
    pk.length == 2592 && sig.length == 4627 && z.all (fun f => f.all fun v => decide (120 < v) && decide (v < 2 ^ 20 - 120)) &&
      shake256 64 (mu ++ w1.flatten) == c

end Sys2Proof.Machine
end

