-- ==== Sys2Proof/Machine/Cells.lean ====
section
/-! DEFINITION. Sparse memory: a list of (address, value) pairs with addresses strictly rising and no entry equal
to 0, the value an unlisted address reads as (log 5). One form serves bytes (core store, HBM, vaults, link buffers) and 32-bit words
(matrix registers, accumulator banks). -/

namespace Sys2Proof.Machine

/-- Sparse memory of `w`-bit units. -/
abbrev Cells (w : Nat) := List (Nat × BitVec w)

/-- The unit at address `a`: the listed value, or 0. -/
def rdCell {w : Nat} : Cells w → Nat → BitVec w
  | [], _ => 0
  | (b, v) :: r, a => if a = b then v else rdCell r a

/-- Put an entry in its place in the order of addresses, in place of one with that address. -/
def insCell {w : Nat} : Cells w → Nat → BitVec w → Cells w
  | [], a, x => [(a, x)]
  | (b, v) :: r, a, x =>
    if a < b then (a, x) :: (b, v) :: r
    else if a = b then (a, x) :: r
    else (b, v) :: insCell r a x

/-- Write one unit, keeping the canonical form: writing 0 removes the entry. -/
def wrCell {w : Nat} (m : Cells w) (a : Nat) (x : BitVec w) : Cells w :=
  if x = 0 then m.filter (fun c => c.1 != a) else insCell m a x

/-- `n` consecutive units from `a`. -/
def rdCells {w : Nat} (m : Cells w) (a : Nat) : Nat → List (BitVec w)
  | 0 => []
  | n + 1 => rdCell m a :: rdCells m (a + 1) n

/-- Write consecutive units from `a`. -/
def wrCells {w : Nat} (m : Cells w) (a : Nat) : List (BitVec w) → Cells w
  | [] => m
  | x :: r => wrCells (wrCell m a x) (a + 1) r

/-- Remove every entry with lo ≤ address < hi (those units then read 0). -/
def clearCells {w : Nat} (m : Cells w) (lo hi : Nat) : Cells w :=
  m.filter (fun c => c.1 < lo || hi ≤ c.1)

/-- The entries with lo ≤ address < hi. -/
def sliceCells {w : Nat} (m : Cells w) (lo hi : Nat) : Cells w :=
  m.filter (fun c => lo ≤ c.1 && c.1 < hi)

/-- Every address is above `lo`, addresses rise strictly, and no value is 0. -/
def cellsFrom {w : Nat} : Option Nat → Cells w → Bool
  | _, [] => true
  | none, (a, x) :: r => x != 0 && cellsFrom (some a) r
  | some lo, (a, x) :: r => decide (lo < a) && (x != 0) && cellsFrom (some a) r

/-- The canonical form of a sparse memory. -/
def Memory.wf {w : Nat} (m : Cells w) : Bool := cellsFrom none m

/-- A little-endian number of `n` bytes at `a`. -/
def rdLE (m : Cells 8) (a n : Nat) : Nat := ofBytes (rdCells m a n)

/-- Store the low `n` bytes of `v` at `a`, little-endian. -/
def wrLE (m : Cells 8) (a n v : Nat) : Cells 8 := wrCells m a (toBytes n v)

end Sys2Proof.Machine
end

