-- ==== Sys2Proof/Machine/State.lean ====
section
/-! DEFINITION. The state of one PZ4 module as plain data: every piece of state that the spec names, in the structures the
spec describes, and State.reset. Model fields that the spec does not name: inbox, outbox, crossOut, arg, draws, focus and the
identifiers of requests (log 1, log 12), abroad (log 18), and mid, which tells that a cycle of the core in focus has begun (R258). -/

namespace Sys2Proof.Machine

/-- A level of the loop stack (R153, R158); `kept` marks a level that trap entry found on the stack (R164, log 15). -/
structure Level where
  pipelined : Bool
  cnt : Nat
  idx : Nat
  lo : W32
  hi : W32
  n : W32
  s : Nat
  e : Nat
  kept : Bool
  deriving DecidableEq, Repr

/-- A stream port (R225 to R227, R246). -/
structure Port where
  bound : Bool
  out : Bool
  wd : BitVec 2
  sx : Bool
  win : Option (Fin 8)
  base : Nat
  len : Nat
  pos : W64
  closing : Bool
  deriving DecidableEq, Repr

/-- A handle (R174, R175); `page` is the PAGE field of Table 11.4, `dpa` the device-physical base for spaces 0 to 2. -/
structure Handle where
  valid : Bool
  view : BitVec 2
  r : Bool
  w : Bool
  x : Bool
  size : BitVec 2
  space : BitVec 2
  page : W32
  dpa : Nat
  deriving DecidableEq, Repr

/-- A bound accumulator tile (R307): contents keyed row · 256 + column; `vis` tells whether bank 1 is the visible one. -/
structure Tile where
  rows : Nat
  cols : Nat
  dual : Bool
  vis : Bool
  bank0 : Cells 32
  bank1 : Cells 32
  deriving DecidableEq, Repr

/-- A chain slot (Table 19.7). -/
structure Chain where
  opn : Bool
  bound : Bool
  z : BitVec 4
  dual : Bool
  q : BitVec 256
  tq : Byte
  nq : Nat
  dv : Nat
  mode : BitVec 2
  qp : W32
  kp : W32
  c : W32
  bc : W32
  m : Vector W32 128
  l : Vector W32 128
  a : Vector W32 128
  deriving DecidableEq, Repr

/-- A cause with its TRAPADDR value (Table 09.7). -/
structure Err where
  cause : Byte
  addr : W64
  deriving DecidableEq, Repr

/-- An error that arrived after issue, with the slot it names (Table 13.14, Table 25.5); `path` tells that a result of a
speculative path met it (R402). -/
structure Late where
  err : Err
  slot : BitVec 3
  path : Bool
  deriving DecidableEq, Repr

/-- A trap that waits for landings before entry (R163). -/
structure Trap where
  err : Err
  pc : W32
  slot : BitVec 3
  leaf : BitVec 3
  deriving DecidableEq, Repr

/-- What a fixed-latency result does when it lands (R139 to R142, R208, R277, R288, R297, R318). -/
inductive Land where
  /-- an s-register, by physical number -/
  | sreg (r : Fin 64) (v : W64)
  /-- the Hem only -/
  | hem (v : W64)
  /-- an output stream port -/
  | port (p : Fin 8) (v : W64) (slot : BitVec 3)
  /-- an output binding that has been replaced, with the element's position in it (R225, R227) -/
  | drain (b : Port) (v : W64) (slot : BitVec 3)
  | target (k : Fin 7) (v : W32)
  | sys (n : Nat) (v : W64)
  | handle (n : Fin 16) (h : Handle)
  /-- matrix-register words: cell, value and the mask of bits written -/
  | words (ws : List (Nat × W32 × W32))
  /-- 32 flags from a base -/
  | flags (base : Nat) (v : W32)
  /-- accumulator elements of a binding's bank -/
  | acc (z : Fin 16) (bank1 : Bool) (ws : List (Nat × W32))
  | latch (k : Fin 4) (v : BitVec 1024)
  | exv (k : Fin 4) (v : Byte)
  | tscale (k : Fin 4) (v : BitVec 9)
  deriving DecidableEq, Repr

/-- A result in flight: unfrozen cycles left, whether it enters the Hem, the slot, and its effect. The list of a context
keeps issue order, and within one bundle slot order. On a speculative path a result that writes the core store or a tile has a place among the
held entries from its issue on, by number `ent` (R400). -/
structure Flight where
  rem : Nat
  hem : Bool
  slot : BitVec 3
  act : Land
  ent : Option Nat
  deriving DecidableEq, Repr

/-- The architectural registers that a CBR point records and a mismatch restores (R398, R401); `run` is the count of R86,
`hpc` the last bundle of a trap handler (R164). -/
structure Arch where
  pc : W32
  loops : List Level
  s : Vector W64 64
  rot : Nat
  hem : Vector W64 32
  t : Vector W32 7
  ports : Vector Port 8
  latch : Vector (BitVec 1024) 4
  tscale : Vector (BitVec 9) 4
  exv : W32
  ckmode : BitVec 1
  trapvecValid : Bool
  trapvecAddr : W32
  inh : Bool
  cause : Byte
  trappc : W32
  depth : BitVec 3
  tslot : BitVec 3
  tleaf : BitVec 3
  trapaddr : W64
  cgm : W64
  cseq : W32
  ctgen : W32
  scratch : Vector W64 7
  run : Nat
  hpc : Option W32
  deriving DecidableEq, Repr

/-- A write held on a speculative path (R400); `wait` is the place of a result that has not landed. -/
inductive Held where
  | wait (n : Nat)
  | store (addr : Nat) (bytes : List Byte)
  | fadd (n : Nat) (v : W32)
  | flags (base : Nat) (v : W32)
  | acc (z : Fin 16) (bank1 : Bool) (ws : List (Nat × W32))
  | cmd (ins : Instr) (x : W64) (idx : List W32)
  deriving DecidableEq, Repr

/-- The speculative path of a CBR (R398 to R402); `seq` numbers the places of results in flight among the held entries. -/
structure Spec0 where
  point : Arch
  mcopy : List (Nat × Cells 32)
  round : Nat
  flag : Nat
  leaf : Nat
  tests : List Bool
  usesT : List Bool
  bundle : BitVec 384
  held : List Held
  seq : Nat
  n : Nat
  trap : Option Trap
  deriving DecidableEq, Repr

/-- The kernel header's fields as read at the dispatcher's check (Table 05.4, R73). -/
structure Hdr where
  featreq : W32
  mregs : Nat
  mhigh : Nat
  maxrun : Nat
  cstore : Nat
  savesz : Nat
  code : W64
  dict : W64
  dictn : Nat
  entry : W32
  traph : W32
  deriving DecidableEq, Repr

/-- What binding gives a context (R76 to R81, R365): `aff` is the task's affinity as read at the dispatcher's check, `feat` the die's FEAT at the binding
(R31), `snap` the count of the pod time base at the last snapshot (R342). -/
structure Binding where
  uid : Nat
  tenant : BitVec 4
  hdr : Hdr
  task : W64
  prio : BitVec 2
  save : W64
  team : W16
  teamSize : Nat
  member : Nat
  firstBuf : Nat
  nBuf : Nat
  gran : Nat
  bsync : Vector Nat 6
  start : Option W64
  started : Bool
  aff : W64
  feat : BitVec 11
  snap : W64
  deriving DecidableEq, Repr

/-- Context states (Table 05.1). -/
inductive CtxState where
  | free | scrub | waiting | ready | running | landing | saving
  deriving DecidableEq, Repr

/-- First-attempt state of the bundle at the pc (R422): an action sent and not yet answered, its answer, an abort under
way, a round entered, or its outcome; `text` holds the bytes of a template or list that have been read, with whether more have been asked of the host (R203,
R354); `forced` is a CBR bundle that performs again under the actual leaf, whose next bundle issues no sooner than so many cycles later (R401). -/
inductive Attempt where
  | none
  | sent (id : Nat)
  | done (v : W64)
  | failed (e : Err)
  | aborting
  | round (id : Nat)
  | arrived (id : Nat)
  | text (got : List Byte) (out : Bool)
  | forced (leaf left : Nat)
  deriving DecidableEq, Repr

/-- A task that is ending: the result word and, for a failure, the fault word (R356, R357); `sig` is the next successor
to signal once the record has been written, `succ` the VA of the successor list and its length as they were then (R349). -/
structure Exit where
  result : W64
  fault : W64
  failed : Bool
  sig : Option Nat
  succ : Option (Nat × Nat)
  deriving DecidableEq, Repr

/-- Kinds of access of a fault report. -/
inductive FaultKind where
  | read | write | fetch
  deriving DecidableEq, Repr

/-- One hardware context (R65, R68). `skip` marks a waiting bundle that has yielded (R219), or a yielding context that keeps the slot while it lands (R82);
`held` a restored task whose intervals have not yet resumed (R345); `quiesce` a task being saved whose engines stop, its commands and writes having completed
(R341), and `admSaved` the admissions of its buffers as step 5 recorded them; `miss` is the VA whose translation a frozen bundle waits for, `unres` the pages
whose faults the supervisor has declared unresolvable. -/
structure Ctx where
  st : CtxState
  arch : Arch
  b : Binding
  h : Vector Handle 16
  d : Vector (BitVec 256) 16
  y : Vector Chain 4
  z : Vector (Option Tile) 16
  mreg : Cells 32
  flights : List Flight
  stall : Nat
  trap : Option Trap
  cmdErr : Option Err
  late : List Late
  att : Attempt
  spec : Option Spec0
  exit : Option Exit
  svc : Option (Nat × Byte)
  acq : List Nat
  skip : Bool
  held : Bool
  quiesce : Bool
  admSaved : Option (List Byte)
  frozen : Nat
  preempt : Bool
  scrubLeft : Nat
  miss : Option (W64 × FaultKind)
  unres : List W64
  deriving DecidableEq, Repr

/-- Ownership of a core-store buffer (Table 11.5); the numbers are cores within the quad, the second the giver (R181). -/
inductive Own where
  | home | offered (d giver : Fin 4) | held (d : Fin 4)
  deriving DecidableEq, Repr

/-- Where a request that crosses dies is (R373): not yet sent, on its way, at its home, its reply on the way, or answered. -/
inductive Hop where
  | start | out | home | back | done
  deriving DecidableEq, Repr

/-- A request of a row to a page as it was sent (R201, R231, R333): the bytes `off` to `off + n − 1` of the row, the locations that they reached by the
translation made then, their VA, and the entry of the page by which it was routed. -/
structure PageReq where
  off : Nat
  n : Nat
  cells : List Nat
  va : Nat
  dpa : Nat
  route : BitVec 32
  deriving DecidableEq, Repr

/-- A copied row between its start and its delivery (R231, R232, R254): `data` holds the bytes read so far, `need` the offsets not yet read, `left` the
offsets not yet delivered to each destination, `counted` the bytes that WP has counted; `hop` is where a request of it to a page is (R373), which `req` describes. -/
structure Row where
  k : Nat
  ent : Nat
  img : BitVec 256
  r : Nat
  data : List Byte
  need : List Nat
  left : List (Nat × Nat)
  counted : Nat
  done : Bool
  refusals : Nat
  hold : Bool
  hop : Hop
  req : Option PageReq
  deriving DecidableEq, Repr

/-- A copy channel (R230 to R234). `opens` counts the rows not yet delivered of each entry begun; `uid` is the task that started its list. -/
structure Chan where
  busy : Bool
  owner : CtxId
  uid : Nat
  next : Nat
  left : Nat
  cur : Option (Nat × BitVec 256 × Nat)
  rows : List Row
  nrow : Nat
  opens : List (Nat × BitVec 256 × Nat)
  wp : W64
  err : Option Err
  stop : Bool
  miss : Option W64
  deriving DecidableEq, Repr

/-- A window row between its start and its delivery or store (R242); `n` is the tensor row, `id` the number of its requests; the rest as in Row. -/
structure WRow where
  n : Nat
  id : Nat
  data : List Byte
  need : List Nat
  left : List Nat
  done : Bool
  refusals : Nat
  hold : Bool
  hop : Hop
  req : Option PageReq
  deriving DecidableEq, Repr

/-- A window (R241 to R246). -/
structure Win where
  opn : Bool
  closing : Bool
  desc : BitVec 512
  opener : CtxId
  done : Nat
  ret : Nat
  next : Nat
  rows : List WRow
  err : Option Err
  miss : Option W64
  deriving DecidableEq, Repr

/-- The writes that a command makes when it completes (R273, R303); `mem` writes name a link buffer or the core store. -/
structure CmdOut where
  acc : List (Fin 16 × Bool × List (Nat × W32))
  mem : List (Option (Fin 16) × Nat × List Byte)
  chain : List (Fin 4 × Chain)
  flag : Option (Nat × W32)
  err : Option Err
  deriving DecidableEq, Repr

/-- A command of the dependency table (R299 to R303) with what it captured at entry: the images by role, the latches, the scalar and the index rows; its
ranges; `mask` tells that its mask tile counts as named so far (R323); `gather` counts the collection of R315, which has put the rows into `tab` and read the
first `taken` of the ranges; `left` counts the cycles to completion once it has issued. -/
structure Cmd where
  id : Nat
  ctx : Fin 8
  ins : Instr
  bits : BitVec 48
  imgA : BitVec 256
  imgB : BitVec 256
  imgM : BitVec 256
  imgSA : BitVec 256
  imgSB : BitVec 256
  latch : Vector (BitVec 1024) 4
  tscale : Vector (BitVec 9) 4
  exv : W32
  x : W64
  idx : List W32
  reads : List (Nat × Nat)
  writes : List (Nat × Nat)
  epoch : Nat
  ready : Bool
  mask : Bool
  gather : Option Nat
  tab : Cells 8
  taken : Nat
  left : Option Nat
  out : CmdOut
  deriving DecidableEq, Repr

/-- A translation held by a TLB (R329). -/
structure TlbEnt where
  tenant : BitVec 4
  vpage : Nat
  pte : W64
  deriving DecidableEq, Repr

/-- An entry of the bundle dictionary cache (R98). -/
structure DictEnt where
  tenant : BitVec 4
  dict : W64
  n : Nat
  bits : BitVec 384
  deriving DecidableEq, Repr

/-- A voltage and frequency island of a core (R22, R33, R34): its number, its clock in MHz and whether it is powered. -/
structure CoreIsland where
  no : Nat
  mhz : Nat
  on : Bool
  deriving DecidableEq, Repr

/-- The kinds of the module's other islands (R33). -/
inductive IslandKind where
  | vault | fabric | phy | linkPhy | hostPort | management
  deriving DecidableEq, Repr

/-- An island outside the cores (R33): its number, what it serves and which one of its kind. -/
structure Island where
  no : Nat
  kind : IslandKind
  unit : Nat
  on : Bool
  deriving DecidableEq, Repr

/-- One core (R15, R69). `ctl` is the island of the control core and vector unit, `arr` that of the arrays and the Cuff (R22); `cap` the clock to which the
power limit has lowered the core (R34), `want` the tenant and the task for which the core is scrubbed and kept (R67, log 58), `failing` tells that an error
of the core ends its tasks, after which a spare takes its place (R416), `phase` the fraction of a cycle that has passed, in 1/1,700. -/
structure Core where
  ctxs : Vector Ctx 8
  store : Cells 8
  own : Vector Own 96
  adm : Vector Byte 96
  cmds : List Cmd
  eng : Vector Nat 5
  epoch : Nat
  chans : Vector Chan 2
  wins : Vector Win 8
  tenant : Option (BitVec 4)
  scrub : Option (BitVec 4 × Nat)
  want : Option (BitVec 4 × W64)
  cycle : W64
  dict : List DictEnt
  tlb : List TlbEnt
  site : BitVec 5
  inService : Bool
  failing : Bool
  last : Fin 8
  ctl : CoreIsland
  arr : CoreIsland
  cap : Nat
  phase : Nat
  deriving DecidableEq, Repr

/-- Link-buffer states (Table 25.6). -/
inductive LBState where
  | closed | empty | filling | full
  deriving DecidableEq, Repr

/-- A link buffer (R385 to R390). -/
structure LinkBuf where
  st : LBState
  holder : Option CtxId
  tenant : BitVec 4
  bytes : Cells 8
  obj : Option Nat
  err : Option Err
  sending : Option Nat
  closeAfter : Bool
  emptyAfter : Bool
  deriving DecidableEq, Repr

/-- What a flit carries (R372, R373): kind codes of the model, KIND being internal to the fabric. -/
inductive FlitKind where
  | putReq | putData | getReq | ramoReq | putAck | getData | ramoRes | refuse | failed | lbReq | lbData | time
  | accReq | accRes | rowReq | rowRes | arrival | outcome | planMeet | credits
  deriving DecidableEq, Repr

/-- A flit (Table 25.2) without SEQ, ACK and CRC, which the link forms; `src` and `dest` are die identifiers, `off` is the place of its bytes in
the operation, `credit` what it returned when the link first sent it; `vault` marks a vault access, which keeps to in-package links (R25). -/
structure Flit where
  kind : FlitKind
  vc : Nat
  src : BitVec 12
  dest : BitVec 12
  tag : Req
  off : Nat
  data : List Byte
  credit : Nat := 0
  vault : Bool := false
  deriving DecidableEq, Repr

/-- One direction pair of a Zholek link at one die (R372 to R377): `replay` holds the sent and unacknowledged flits with
their SEQ, `sent` how many of them have gone out since the last replay began; `credit` are the buffers of the far end that it may still fill on each
virtual channel, `owed` those of its own that it has emptied and not yet returned (Table 25.2); `laneErr` the corrected errors of each lane, and
`repairDue` the lanes whose repair waits (R376); `again` how many of its flits are being replayed and not yet acknowledged, `awaits` how many flits from the next
expected one on it has discarded, which the far end will send again; `rejects` how often in sequence a far end in another package has failed to receive the flit of
SEQ `rejSeq` (R375); `delay` the measured delay in ticks (R371). The far end is a link of a die of this package, or,
where `out` names it, of a die of another package. -/
structure Link where
  up : Bool
  training : Bool
  txq : List Flit
  replay : List (BitVec 12 × Flit)
  sent : Nat
  seq : BitVec 12
  expect : BitVec 12
  fails : Nat
  spares : Nat
  lanes8 : Bool
  draining : Bool
  nack : Bool
  slots : Nat
  farDie : Fin 4
  farLink : Fin 6
  out : Option (BitVec 12 × Fin 6)
  credit : Vector Nat 4
  owed : Vector Nat 4
  laneErr : Vector Nat 18
  repairDue : List (Fin 18)
  again : Nat
  awaits : Nat
  rejects : Nat
  rejSeq : BitVec 12
  delay : Nat
  deriving DecidableEq, Repr

/-- The agent of a fault report (R334, Table 21.2). -/
inductive Agent where
  | xlat (c : CtxId) | fetch (c : CtxId) | chan (c : CoreId) (ch : Fin 2) | win (c : CoreId) (w : Fin 8) | remote (id : Nat)
  | header (q : Fin 64) (r : W64) | save (c : CtxId)
  deriving DecidableEq, Repr

/-- A fault report (R334). -/
structure FaultRep where
  tenant : BitVec 4
  va : W64
  kind : FaultKind
  agent : Agent
  deriving DecidableEq, Repr

/-- What the dispatcher has read of a queue's head at its check (R349, R72). -/
structure Take where
  task : W64
  hdr : Hdr
  args : W64
  aff : W64
  save : W64
  prio : BitVec 2
  deriving DecidableEq, Repr

/-- A task's kernel header as it is read from a host window for the dispatcher's check (R72, R203): the bytes that have come, whether a request is
out, and whether the host has refused it for good. -/
structure HeadText where
  tenant : BitVec 4
  rec' : W64
  got : List Byte
  out : Bool
  bad : Bool
  deriving DecidableEq, Repr

/-- One die (R15). `chosen` tells that its dispatcher has placed a task in this cycle of its first core (R363). -/
structure Die where
  cores : Vector Core 16
  lbs : Vector LinkBuf 16
  queues : Vector (List W64) 64
  spill : Vector (List W64) 64
  taken : List (Nat × Take)
  heads : List HeadText
  chosen : Bool
  ptr : Vector Nat 4
  credit : Vector Nat 64
  enq : W64
  corePtr : Fin 16
  feat : BitVec 11
  tgen : W32
  routes : Option (List (Nat × Nat))
  links : Vector Link 6
  ptb : W64
  ptbAcc : Nat
  ptbMsg : Option W64
  ptbLocked : Bool
  ptbLost : Bool
  ptbParent : Option (Fin 6)
  ptbSent : Nat
  ptbSlew : Int
  ptbUs : Nat
  tlb : List TlbEnt
  faults : List FaultRep
  throttled : Bool
  cap : Nat
  hot : List (Nat × Nat)
  dcache : List (Nat × BitVec 32)
  msc : List Nat
  spare : Bool
  spareSite : BitVec 5
  featDrop : BitVec 11
  deriving DecidableEq, Repr

/-- Update of an object by a C-slot instruction (R236, R237, R248 to R250). -/
inductive ObjOp where
  | barinit (expect : W32) | barexp (n : W32) | bararr (n : W32) | barwait (p : BitVec 1) | bartst
  | rres | rpub (q : W32) | rtake (q : W32) | rrel (q : W32)
  deriving DecidableEq, Repr

/-- What a non-local access does at its location. -/
inductive AccOp where
  | load
  | store (v : W64)
  | amo (op : BitVec 4) (v : W64)
  | amoc (cmp : W64) (swp : W64)
  | pref
  | obj (o : ObjOp)
  deriving DecidableEq, Repr

/-- Where a non-local access goes: a device-physical address or a peer core's store. -/
inductive Loc where
  | dpa (a : Nat)
  | peer (core : Fin 16) (addr : Nat)
  deriving DecidableEq, Repr

/-- A non-local access in flight (R255, R260 to R262). `left` are the byte offsets of the locations that a load or store still has to perform at
(R254), `since` the PTB count at which it was presented where it performs (R415). -/
structure Access where
  id : Nat
  owner : CtxId
  uid : Nat
  op : AccOp
  loc : Loc
  view : BitVec 2
  vbase : Nat
  size : Nat
  va : W64
  scope : Nat
  dst : Option (Fin 64)
  route : BitVec 32
  left : List Nat
  performed : Bool
  val : W64
  bad : Option Err
  refusals : Nat
  hold : Bool
  host : Option W64
  hnd : Option (Fin 16)
  hop : Hop
  since : Option W64
  deriving DecidableEq, Repr

/-- Kinds of remote operation (R378, R388). -/
inductive RopKind where
  | put | get | ramo | lbsend
  deriving DecidableEq, Repr

/-- A remote operation or link-buffer message in flight (R381, R388): `need` are the offsets of source bytes not yet read and handed to the fabric, `left`
those of bytes not yet written where they go, a RAMO's the bytes of its result, `data` the bytes waiting there with their places; `away` names a target die
of another package, `origin` the die of another package, and its TAG, whose operation is served here; `cells` are the bytes of memory where a RAMO's result
goes, translated before its request is sent (R382). -/
structure Rop where
  id : Nat
  owner : CtxId
  uid : Nat
  tenant : BitVec 4
  kind : RopKind
  desc : BitVec 256
  src : Fin 4
  dest : Fin 4
  away : Option (BitVec 12)
  origin : Option (BitVec 12 × BitVec 16)
  scope : Nat
  lb : Fin 16
  lbTo : Fin 16
  len : Nat
  need : List Nat
  left : List Nat
  data : List (Nat × Byte)
  stage : Nat
  old : W64
  cells : List Nat
  err : Option Err
  refusals : Nat
  hold : Bool
  deriving DecidableEq, Repr

/-- A member of a gang that is reserved on a core that is being scrubbed for it (R67, R88): what the dispatcher has read of it, its member number, the core and the
start tick. -/
structure Reserve where
  take : Take
  num : Nat
  core : CoreId
  start : W64
  deriving DecidableEq, Repr

/-- A live team (R87, R354, R406): its size, its members of this package by their records with the dies that they are placed on and their member numbers, the
start tick of a GANG frame, whether the gang has been reserved, the members that are still to be bound, whether a member has failed, and the VA and the
length of record 0's successor list, read when its task ended (R349). -/
structure Team where
  tenant : BitVec 4
  id : W16
  size : Nat
  recs : List (Fin 4 × W64)
  nums : List Nat
  tick : Option W64
  placed : Bool
  pend : List Reserve
  failed : Bool
  succ : Option (Nat × Nat)
  deriving DecidableEq, Repr

/-- A team barrier instance (R366): once its participants have all arrived, `left` counts the cycles until its release (Table 05.8), which is `due` from the
next round of the cores on. -/
structure Barrier where
  id : Nat
  tenant : BitVec 4
  team : W16
  uid : Nat
  scope : Nat
  inst : Nat
  k : Nat
  arrived : List CtxId
  left : Option Nat
  due : Bool
  deriving DecidableEq, Repr

/-- A member that has entered a round and has not been told its outcome: `left` counts the core cycles to an outcome
or until the outcome may be seen (R399, Table 05.8), `val` is the contribution, `hop` where its arrival or its outcome is (R373). -/
structure Member where
  c : CtxId
  uid : Nat
  index : Nat
  flag : Nat
  left : Option Nat
  val : Bool
  hop : Hop
  deriving DecidableEq, Repr

/-- A collective round (R399): `seen` are the indices that have arrived, `acc` their AND or OR, `start` the PTB count of the
first arrival, `formed` the outcome with the number of members declared absent, `absent` those of them still to arrive, `afar` the members in other
packages, by their die, TAG and index, that have still to be told the outcome, `sent` tells that the round is formed in another package (R373), and `due` that the
outcome's latency has passed. -/
structure Round where
  id : Nat
  tenant : BitVec 4
  gid : W16
  scope : Nat
  inst : Nat
  seq : W32
  op : BitVec 1
  count : Nat
  tout : Nat
  die : Fin 4
  start : W64
  members : List Member
  seen : List Nat
  acc : Bool
  formed : Option (Bool × Nat)
  absent : List Nat
  odd : Bool
  afar : List (BitVec 12 × BitVec 16 × Nat)
  sent : Bool
  due : Bool
  deriving DecidableEq, Repr

/-- A member of a collective group that has left by TEXIT (R399). -/
structure Left where
  tenant : BitVec 4
  gid : W16
  scope : Nat
  inst : Nat
  index : Nat
  deriving DecidableEq, Repr

/-- A member's arrival at a reconfiguration: its context, flag and plan, and whether the arrival has met the others (R373, R393, R394). -/
structure PlanArrival where
  c : CtxId
  uid : Nat
  flag : Nat
  plan : List Byte
  met : Bool
  deriving DecidableEq, Repr

/-- Steps of a reconfiguration (R395). -/
inductive ReconfStage where
  | arriving | draining | asked | training | restoring
  deriving DecidableEq, Repr

/-- An affected link as it was before a reconfiguration: its die and number, whether it was in service, and its far end. -/
structure PrevLink where
  die : Fin 4
  link : Fin 6
  up : Bool
  far : Fin 4 × Fin 6 × Option (BitVec 12 × Fin 6)
  deriving DecidableEq, Repr

/-- A reconfiguration in progress (R395): `start` is the PTB count when the circuits were asked for, `todo` the links still
to train, `prev` the affected links as they were. -/
structure Reconf where
  tenant : BitVec 4
  gid : W16
  stage : ReconfStage
  members : List PlanArrival
  start : W64
  todo : List (Fin 4 × Fin 6)
  prev : List PrevLink
  deriving DecidableEq, Repr

/-- What goes to the fibre cross-connect over the control lane of a link: the code of the circuit that it is to have, or that its previous circuit is to be
restored (R395). -/
inductive CrossMsg where
  | circuit (d : Fin 4) (l : Fin 6) (code : W32)
  | restore (d : Fin 4) (l : Fin 6)
  deriving DecidableEq, Repr

/-- A saved task (R341 to R346): the context as snapshot, with what the save records beside the save area. -/
structure Saved where
  die : Fin 4
  core : Fin 16
  ctx : Ctx
  bufs : Cells 8
  adm : List Byte
  chans : List (Fin 2 × Chan)
  wins : List (Fin 8 × Win)
  lbs : List (Fin 16)
  replies : List (Fin 64 × W64)
  deriving DecidableEq, Repr

/-- A page that the scanner has seen for a tenant (R129 to R133, R420): `starts` is the start bitmap as a number, `from0` the word at which its walk began,
`endAt` where its last bundle ends on the next page, `feat` and `high` the two values of R132, `own` those values without a literal that goes on to the next
page, `uses` those of each dictionary entry that its words name; a refused page keeps the trap cause that its fetch raises, and the features for which it was
refused. -/
structure PageRec where
  tenant : BitVec 4
  vpage : Nat
  isDict : Bool
  code : W64
  dict : W64
  dictn : Nat
  featreq : W32
  starts : Nat
  pending : Option Nat
  from0 : Nat
  endAt : Nat
  feat : BitVec 11
  high : Nat
  own : BitVec 11 × Nat
  uses : List (Nat × BitVec 11 × Nat)
  refused : Option Byte
  deriving DecidableEq, Repr

/-- A migration copy in progress, or an old copy that is not freed yet, with its place (R196 to R198). -/
structure Mig where
  page : Nat
  stack : Nat
  lpage : Nat
  deriving DecidableEq, Repr

/-- A NOTIFY (Table 27.3). -/
structure Notify where
  source : W16
  code : W16
  value : W64
  fault : W64
  deriving DecidableEq, Repr

/-- What the supervisor holds for one tenant (R204, R354, R363, R405 to R409, R418, R419). -/
structure Tenant where
  key : Option (BitVec 256)
  hkey : Option (List Byte)
  rxMax : W64
  rxSeen : List W64
  txSeq : W64
  window : Nat
  endp : BitVec 128
  port : W16
  root : Nat
  weight : Nat
  ceiling : BitVec 2
  reconf : Bool
  cstoreLimit : W32
  saveLimit : W32
  teamLimit : W32
  notes : List Notify
  maps : List (Nat × W64)
  deriving DecidableEq, Repr

/-- A packet that the module has sent to the address `to6`: an ICMPv6 packet of the type `icmp`, or a UDP datagram from its port 47,000 with a frame
(R403, R404, Table 27.1). -/
structure OutFrame where
  icmp : Option Byte
  to6 : BitVec 128
  port : W16
  bytes : List Byte
  deriving DecidableEq, Repr

/-- A global address (R404, RFC 4862): tentative until `since`, kept until `till`, in nanoseconds of die 0's time base; none: for ever. -/
structure Addr where
  addr : BitVec 128
  since : Nat
  till : Option Nat
  deriving DecidableEq, Repr

/-- A host-window request waiting for its answer (R204); `place` is where its bytes stand in the run that they are part of. -/
structure HostReq where
  seq : W64
  tenant : BitVec 4
  req : Req
  write : Bool
  off : Nat
  data : List Byte
  len : Nat
  tries : Nat
  since : W64
  place : Nat
  deriving DecidableEq, Repr

/-- The run of bytes of an MWRITE or MREAD frame of the host that has been accepted (R254, R406): `data` are the bytes to write, or those read so far, `left` the
offsets that have still to perform; `seq` is the frame's SEQ. -/
structure HostRun where
  id : Nat
  tenant : BitVec 4
  seq : W64
  write : Bool
  va : Nat
  data : List Byte
  left : List Nat
  hop : Hop
  req : Option PageReq
  refusals : Nat
  hold : Bool
  deriving DecidableEq, Repr

/-- A record of the management log (Table 27.11). -/
structure LogRec where
  seq : W32
  step : W32
  code : W32
  value : W32
  deriving DecidableEq, Repr

/-- A stack's thermal and mapping state (R35, R185, R192, R199): `rows` is the row indirection table, `acts` counts the activations of DRAM rows,
`opened` the open row of each bank, `cap` the clock to which its throttle lowers its die's cores, `rowsOut` the banks without a spare row left (R416). -/
structure Stack where
  refresh2 : Bool
  throttled : Bool
  cap : Nat
  regions : List (BitVec 256)
  masks : List (Nat × List W32)
  rows : List (Nat × Nat)
  acts : List (Nat × Nat)
  opened : List (Nat × Nat)
  rowsOut : List Nat
  rehash : List (Nat × Nat)
  deriving DecidableEq, Repr

/-- The module. `abroad` are flits between dies of this package that have left it by an external link and come back by another (R368); `firmware` is the
image that a start has installed, if it is not the one that the device was made with (R414); `starting` tells of a start under way whether it is warm and the
last step it has reached (R411); `ptbAfar` the lowest die of another package that a time message has named as master (R371); `runs` are the host's memory
frames under way (R406), `mapHdrs` the kernel headers that the supervisor reads from host windows as it maps a page (R203), `log` the management log, oldest
first, and `logged` the number of records ever written (R414); `vaultSpare` which vaults have their spare bank (R416); `corrected` the seconds at which the
corrected errors of the last 24 h came (R417). -/
structure State where
  dies : Vector Die 4
  hbm : Cells 8
  vault : Cells 8
  hbmStacks : Vector Stack 8
  dpit : List (Nat × BitVec 32)
  migs : List Mig
  oldCopies : List Mig
  pages : List PageRec
  tenants : Vector Tenant 16
  accesses : List Access
  rops : List Rop
  barriers : List Barrier
  rounds : List Round
  left : List Left
  reconfs : List Reconf
  saved : List Saved
  teams : List Team
  records : List Nat
  hostReqs : List HostReq
  runs : List HostRun
  mapHdrs : List HeadText
  abroad : List Flit
  hstate : BitVec 4
  authfail : W16
  replace : Bool
  warmFails : Nat
  coldFails : Nat
  attempts : List (Nat × Nat)
  log : List LogRec
  logged : Nat
  staging : Cells 8
  firmware : Option (Cells 8)
  starting : Option (Bool × Nat)
  ptbAfar : Option (BitVec 12)
  vaultSpare : Vector Bool 16
  paramsValid : Bool
  addrs : List Addr
  corrected : List Nat
  unsealed : Nat × Nat
  tables : Nat
  podX : BitVec 4
  podY : BitVec 4
  podZ : BitVec 4
  blkX : BitVec 4
  blkY : BitVec 4
  blkZ : BitVec 4
  islands : List Island
  nextId : Nat
  draws : Nat
  focus : CtxId
  arg : EvArg
  inbox : List (Instr × EvArg)
  outbox : List OutFrame
  crossOut : List CrossMsg
  mid : Bool
  deriving DecidableEq, Repr

/-- Faults: the machine stops. No meaning of this model raises one; the type is closed with one name for the
host's interface. -/
inductive Fault where
  /-- Raised by no meaning: every stop the spec describes is a trap, a task failure or a waiting state, and the
  machine goes on. Safe: nothing stops on it. -/
  | halted
  deriving DecidableEq, Repr

/-- Refusals. -/
inductive Refusal where
  /-- Raised by an arm of exec for an instruction without a meaning in this model. Safe: no claim can be proved
  about such an instruction's effect. -/
  | notModelled (mnemonic : String)
  deriving DecidableEq, Repr

/-! ## Reset values -/

/-- An unbound port. -/
def Port.unbound : Port := ⟨false, false, 0, false, none, 0, 0, 0, false⟩
/-- An invalid handle. -/
def Handle.invalid : Handle := ⟨false, 0, false, false, false, 0, 0, 0, 0⟩
/-- A chain slot after scrub (Table 19.7): ENDED, unbound, M = −∞, L = +0, A = +0. -/
def Chain.scrubbed : Chain :=
  ⟨false, false, 0, false, 0, 0, 0, 0, 0, 0, 0, 0, 0, .replicate 128 0xFF800000, .replicate 128 0, .replicate 128 0⟩
/-- The registers after scrub (Table 05.2). -/
def Arch.scrubbed (tgen : W32) : Arch :=
  ⟨0, [], .replicate 64 0, 0, .replicate 32 0, .replicate 7 0, .replicate 8 .unbound, .replicate 4 0, .replicate 4 0, 0,
   0, false, 0, false, 0, 0, 0, 0, 0, 0, 0, 0, tgen, .replicate 7 0, 0, none⟩
/-- A header with nothing in it. -/
def Hdr.none : Hdr := ⟨0, 0, 0xFF, 0, 0, 0, 0, 0, 0, 0, 0xFFFFFFFF⟩
/-- No binding. -/
def Binding.none : Binding := ⟨0, 0, .none, 0, 0, 0, 0, 1, 0, 0, 0, 0, .replicate 6 0, .none, false, 0, 0, 0⟩
/-- A scrubbed context. -/
def Ctx.scrubbed (st : CtxState) (tgen : W32) : Ctx :=
  ⟨st, .scrubbed tgen, .none, .replicate 16 .invalid, .replicate 16 0, .replicate 4 .scrubbed, .replicate 16 none, [], [],
   0, none, none, [], .none, none, none, none, [], false, false, false, none, 0, false, 0, none, []⟩
/-- A context's own identifier placeholder. -/
def CtxId.zero : CtxId := ⟨0, 0, 0⟩
/-- An idle copy channel. -/
def Chan.idle : Chan := ⟨false, CtxId.zero, 0, 0, 0, none, [], 0, [], 0, none, false, none⟩
/-- A channel that has become idle keeps its write pointer and last owner, and numbers its rows on. -/
def Chan.freed (h : Chan) : Chan := { Chan.idle with wp := h.wp, owner := h.owner, uid := h.uid, nrow := h.nrow }
/-- A free window. -/
def Win.free : Win := ⟨false, false, 0, CtxId.zero, 0, 0, 0, [], none, none⟩
/-- The number of a core in the package. -/
def coreNo (d : Fin 4) (c : Fin 16) : Nat := 16 * d.val + c.val
/-- A core after a start: no tenant, store and flags zero, every buffer HOME (R67, R179); its islands have the numbers 2n and 2n + 1 for core n of
the package (log 45), the array island unpowered while no kernel uses it (R22). -/
def Core.reset (n : Nat) (site : BitVec 5) : Core :=
  { ctxs := .replicate 8 (.scrubbed .free 0), store := [], own := .replicate 96 .home, adm := .replicate 96 0, cmds := [],
    eng := .replicate 5 0, epoch := 0, chans := .replicate 2 .idle, wins := .replicate 8 .free, tenant := none,
    scrub := none, want := none, cycle := 0, dict := [], tlb := [], site := site, inService := true, failing := false, last := 7,
    ctl := ⟨2 * n, 1700, true⟩, arr := ⟨2 * n + 1, 1700, false⟩, cap := 1700, phase := 0 }
/-- A closed link buffer. -/
def LinkBuf.closed : LinkBuf := ⟨.closed, none, 0, [], none, none, none, false, false⟩
/-- The die at the far end of a link in a pod of one package (R27, R29): X± flips bit 0, Y± flips bit 1, Z is untrained. -/
def dieAcross (d : Fin 4) (l : Fin 6) : Fin 4 :=
  if l.val < 2 then (if d.val % 2 = 0 then d + 1 else d - 1)
  else if l.val < 4 then (if d.val < 2 then d + 2 else d - 2)
  else d
/-- The link code of the opposite direction (R386). -/
def linkAcross (l : Fin 6) : Fin 6 := if l.val % 2 = 0 then l + 1 else l - 1
/-- A link of a die is one of its two in-package links (Table 01.5). -/
def inPackage (d : Fin 4) (l : Fin 6) : Bool :=
  l.val == (if d.val % 2 = 0 then 1 else 0) || l.val == (if d.val / 2 = 0 then 3 else 2)
/-- Buffers of a virtual channel at a receiver, returned by CREDIT (log 18). -/
def vcBuffers : Nat := 64
/-- A link as it trains at a start: nothing outstanding, its delay the floor of Table 25.1 until training measures it (log 26). -/
def Link.fresh (d : Fin 4) (l : Fin 6) (up : Bool) (far : Fin 4 × Fin 6 × Option (BitVec 12 × Fin 6)) : Link :=
  { up := up, training := false, txq := [], replay := [], sent := 0, seq := 0, expect := 0, fails := 0, spares := 2, lanes8 := false,
    draining := false, nack := false, slots := 0, farDie := far.1, farLink := far.2.1, out := far.2.2, credit := .replicate 4 vcBuffers,
    owed := .replicate 4 0, laneErr := .replicate 18 0, repairDue := [], again := 0, awaits := 0, rejects := 0, rejSeq := 0, delay := if inPackage d l then 10 else 150 }
/-- A trained link of a pod of one package; the Z links of a pod of Z size 1 stay untrained (R29). -/
def Link.reset (d : Fin 4) (l : Fin 6) : Link := Link.fresh d l (decide (l.val < 4)) (dieAcross d l, linkAcross l, none)
/-- A die after a start. -/
def Die.reset (d : Fin 4) : Die :=
  { cores := .ofFn fun (i : Fin 16) => Core.reset (coreNo d i) (BitVec.ofNat 5 i.val)
    lbs := .replicate 16 .closed
    queues := .replicate 64 [], spill := .replicate 64 [], taken := [], heads := [], chosen := false, ptr := .replicate 4 0, credit := .replicate 64 1, enq := 0,
    corePtr := 0, feat := 0x7FF, tgen := 0, routes := none, links := .ofFn fun (l : Fin 6) => Link.reset d l, ptb := 0,
    ptbAcc := 0, ptbMsg := none, ptbLocked := true, ptbLost := false,
    ptbParent := if d.val % 2 = 1 then some 1 else if d.val / 2 = 1 then some 3 else none, ptbSent := 0, ptbSlew := 0,
    ptbUs := 0, tlb := [], faults := [], throttled := false, cap := 1700, hot := [], dcache := [], msc := [], spare := true, spareSite := 16,
    featDrop := 0 }
/-- Bytes of a root table: 4,096 entries (Table 21.1). -/
def rootBytes : Nat := 32768
/-- A tenant after a start (R204, R405, R409); the root table of tenant t is the t-th from the top of stack 7's range (log 40). -/
def Tenant.reset (t : Nat) : Tenant :=
  ⟨none, none, 0, [], 0, 0, 0, 0, 7 * 2 ^ 37 + 2 ^ 36 - (t + 1) * rootBytes, 1, 3, false, 0x005F0000, 0xFFFFFFC0, 65535, [], []⟩
/-- A stack after a start. -/
def Stack.reset : Stack := ⟨false, false, 1700, [], [], [], [], [], [], []⟩
/-- The 54 islands outside the cores (R33), numbered after the 128 core islands in the order in which R33 lists them (log 45). -/
def islandsReset : List Island :=
  (([(IslandKind.vault, 16), (.fabric, 4), (.phy, 8), (.linkPhy, 24), (.hostPort, 1), (.management, 1)].flatMap fun p =>
    (List.range p.2).map fun i => (p.1, i)).zipIdx 128).map fun p => ⟨p.2, p.1.1, p.1.2, true⟩

/-- The machine right after reset: a module that has run its start steps (R411), holding no task. -/
def State.reset : State :=
  { dies := .ofFn Die.reset
    hbm := [], vault := [], hbmStacks := .replicate 8 .reset, dpit := [], migs := [], oldCopies := [], pages := [],
    tenants := .ofFn fun (i : Fin 16) => .reset i.val, accesses := [], rops := [], barriers := [], rounds := [], left := [], reconfs := [], saved := [],
    teams := [], records := [], hostReqs := [], runs := [], mapHdrs := [], abroad := [], hstate := 1, authfail := 0, replace := false, warmFails := 0, coldFails := 0,
    attempts := [], log := [], logged := 0, staging := [], firmware := none, starting := none, ptbAfar := none, vaultSpare := .replicate 16 true, paramsValid := true, addrs := [], corrected := [], unsealed := (0, 0), tables := 16 * rootBytes, podX := 1, podY := 1, podZ := 0,
    blkX := 0, blkY := 0, blkZ := 0, islands := islandsReset,
    nextId := 1, draws := 0, focus := CtxId.zero, arg := .none, inbox := [], outbox := [], crossOut := [], mid := false }

end Sys2Proof.Machine
end

