-- ==== Sys2Proof/Machine/Ops.lean ====
section
/-! DEFINITION. The shared operations on State: access to dies, cores and contexts; core-store accesses with the overlay of
a speculative path; device-physical memory through the indirection table and the views; translation; results in
flight; taking a trap and returning from one; task failure. -/

namespace Sys2Proof.Machine

/-! ## Access to the parts -/

/-- A die. -/
def State.die (s : State) (d : Fin 4) : Die := s.dies[d.val]
/-- Replace a die. -/
def State.setDie (s : State) (d : Fin 4) (x : Die) : State := { s with dies := s.dies.set d.val x }
/-- A core. -/
def State.core (s : State) (c : CoreId) : Core := (s.die c.die).cores[c.core.val]
/-- Replace a core. -/
def State.setCore (s : State) (c : CoreId) (x : Core) : State :=
  s.setDie c.die { s.die c.die with cores := (s.die c.die).cores.set c.core.val x }
/-- A context. -/
def State.ctx (s : State) (c : CtxId) : Ctx := (s.core c.coreId).ctxs[c.ctx.val]
/-- Replace a context. -/
def State.setCtx (s : State) (c : CtxId) (x : Ctx) : State :=
  s.setCore c.coreId { s.core c.coreId with ctxs := (s.core c.coreId).ctxs.set c.ctx.val x }
/-- Change a die. -/
def State.modDie (s : State) (d : Fin 4) (f : Die → Die) : State := s.setDie d (f (s.die d))
/-- Change a core. -/
def State.modCore (s : State) (c : CoreId) (f : Core → Core) : State := s.setCore c (f (s.core c))
/-- Change a context. -/
def State.modCtx (s : State) (c : CtxId) (f : Ctx → Ctx) : State := s.setCtx c (f (s.ctx c))
/-- Change the registers of a context. -/
def State.modArch (s : State) (c : CtxId) (f : Arch → Arch) : State := s.modCtx c fun x => { x with arch := f x.arch }
/-- The registers of a context. -/
def State.arch (s : State) (c : CtxId) : Arch := (s.ctx c).arch
/-- A tenant's record. -/
def State.ten (s : State) (t : BitVec 4) : Tenant := s.tenants[t.toNat]
/-- Change a tenant's record. -/
def State.modTen (s : State) (t : BitVec 4) (f : Tenant → Tenant) : State :=
  { s with tenants := s.tenants.set t.toNat (f (s.ten t)) }
/-- Apply a change for each element of a list, in order. -/
def forEach {α : Type} (l : List α) (f : α → State → State) (s : State) : State := l.foldl (fun s a => f a s) s

/-- The quad of a core (R31). -/
def quadOf (c : Fin 16) : Nat := c.val / 4
/-- The core of the same quad with a given number within the quad. -/
def quadCore (c : Fin 16) (k : Nat) : Fin 16 := Fin.ofNat 16 (c.val / 4 * 4 + k % 4)
/-- A core's number within its quad. -/
def inQuad (c : Fin 16) : Fin 4 := Fin.ofNat 4 c.val
/-- Every context of the module. -/
def allCtx : List CtxId :=
  (List.finRange 4).flatMap fun d => (List.finRange 16).flatMap fun c => (List.finRange 8).map fun x => ⟨d, c, x⟩
/-- Every core of the module. -/
def allCores : List CoreId := (List.finRange 4).flatMap fun d => (List.finRange 16).map fun c => ⟨d, c⟩
/-- A task is bound to the context (Table 05.1). -/
def CtxState.bound : CtxState → Bool
  | .free => false
  | .scrub => false
  | _ => true
/-- A fresh identifier. -/
def State.fresh (s : State) : Nat × State := (s.nextId, { s with nextId := s.nextId + 1 })

/-! ## Die identifiers and placement -/

/-- The brick position of a die (R27). -/
def brickX (d : Fin 4) : Nat := d.val % 2
/-- Its y. -/
def brickY (d : Fin 4) : Nat := d.val / 2
/-- The coordinates of a die, from its package's block and its brick position (R29). -/
def dieX (s : State) (d : Fin 4) : Nat := 2 * s.blkX.toNat + brickX d
/-- The Y coordinate. -/
def dieY (s : State) (d : Fin 4) : Nat := 2 * s.blkY.toNat + brickY d
/-- The Z coordinate. -/
def dieZ (s : State) (_ : Fin 4) : Nat := s.blkZ.toNat
/-- The identifier of coordinates (R367). -/
def idOf (x y z : Nat) : BitVec 12 := BitVec.ofNat 12 (x % 16 + 16 * (y % 16) + 256 * (z % 16))
/-- The die identifier (R367). -/
def dieId (s : State) (d : Fin 4) : BitVec 12 := idOf (dieX s d) (dieY s d) (dieZ s d)
/-- The coordinates that an identifier holds: X, Y, Z. -/
def idX (i : BitVec 12) : Nat := bits i.toNat 0 4
/-- Y. -/
def idY (i : BitVec 12) : Nat := bits i.toNat 4 4
/-- Z. -/
def idZ (i : BitVec 12) : Nat := bits i.toNat 8 4
/-- An identifier names a die of the pod (R367). -/
def dieExists (s : State) (i : BitVec 12) : Bool :=
  decide (idX i ≤ s.podX.toNat) && decide (idY i ≤ s.podY.toNat) && decide (idZ i ≤ s.podZ.toNat)
/-- The die of this package that an identifier names (R29), none for a die of another package or none at all. -/
def dieOfId (s : State) (i : BitVec 12) : Option (Fin 4) :=
  if dieExists s i && idX i / 2 == s.blkX.toNat && idY i / 2 == s.blkY.toNat && idZ i == s.blkZ.toNat then
    some (Fin.ofNat 4 (idX i % 2 + 2 * (idY i % 2)))
  else none
/-- The identifiers of the pod's dies. -/
def podIds (s : State) : List (BitVec 12) :=
  (List.range (s.podZ.toNat + 1)).flatMap fun z => (List.range (s.podY.toNat + 1)).flatMap fun y =>
    (List.range (s.podX.toNat + 1)).map fun x => idOf x y z
/-- One step around a ring of n coordinates. -/
def ringStep (n x : Nat) (up : Bool) : Nat := if up then (x + 1) % n else (x + n - 1) % n
/-- The identifier of the die that a link of a die faces in the pod's torus (R27, R29). -/
def facingId (s : State) (d : Fin 4) (l : Fin 6) : BitVec 12 :=
  let up := l.val % 2 == 1
  let go (k n x : Nat) : Nat := if l.val / 2 = k then ringStep (n + 1) x up else x
  idOf (go 0 s.podX.toNat (dieX s d)) (go 1 s.podY.toNat (dieY s d)) (go 2 s.podZ.toNat (dieZ s d))
/-- The far end of a link at a start (R29): the link of the opposite direction of the die it faces, in this package or another. -/
def farEnd (s : State) (d : Fin 4) (l : Fin 6) : Fin 4 × Fin 6 × Option (BitVec 12 × Fin 6) :=
  match dieOfId s (facingId s d l) with
  | some e => (e, linkAcross l, none)
  | none => (d, l, some (facingId s d l, linkAcross l))

/-! ## The array island (R22) -/

/-- A kernel's feature mask uses the arrays: a bit of array operands, chains, gangs or gathers (R22, Table 01.11). -/
def Hdr.usesArrays (h : Hdr) : Bool := (h.featreq &&& 0xFE#32) != 0
/-- The array island of a core is powered while a context bound on it has a kernel that uses the arrays. -/
def powerArrays (c : CoreId) (s : State) : State :=
  s.modCore c fun k => { k with arr := { k.arr with on := k.ctxs.toList.any fun x => x.st.bound && x.b.hdr.usesArrays } }
/-- The array island is powered up before a context of a kernel is bound. -/
def powerUp (c : CoreId) (h : Hdr) (s : State) : State :=
  if h.usesArrays then s.modCore c fun k => { k with arr := { k.arr with on := true } } else s

/-! ## Registers -/

/-- The physical number of an s-register name under a rotation (R143, R159). -/
def physReg (rot : Nat) (n : Nat) : Fin 64 :=
  if n < 48 then Fin.ofNat 64 n else Fin.ofNat 64 (48 + (n - 48 + 16 - rot % 16) % 16)
/-- Read s-register n by name. -/
def Arch.rdS (a : Arch) (n : Nat) : W64 := a.s[(physReg a.rot n).val]
/-- Write an s-register by physical number. -/
def Arch.wrPhys (a : Arch) (r : Fin 64) (v : W64) : Arch := { a with s := a.s.set r.val v }
/-- Write s-register n by name. -/
def Arch.wrS (a : Arch) (n : Nat) (v : W64) : Arch := a.wrPhys (physReg a.rot n) v
/-- Push a value into the Hem as e0 (R141). -/
def Arch.pushHem (a : Arch) (v : W64) : Arch :=
  { a with hem := .ofFn fun (i : Fin 32) => if i.val = 0 then v else a.hem[i.val - 1] }
/-- The index of loop level n, 0 where the stack holds no such level (R147). -/
def Arch.loopIdx (a : Arch) (n : Nat) : W64 :=
  match a.loops[n]? with
  | some l => BitVec.ofNat 64 l.idx
  | none => 0

/-! ## The core store -/

/-- Size of a core store (R24). -/
def csSize : Nat := 0x600000
/-- Bytes that one held entry puts over the core store (R400). -/
def heldOver (m : Cells 8) : Held → Cells 8
  | .store a bs => wrCells m a bs
  | .fadd n v => wrLE m (4 * n) 4 ((rdLE m (4 * n) 4 + v.toNat) % 2 ^ 32)
  | .flags b v => (List.range 32).foldl (fun m i => wrLE m (4 * (b + i)) 4 (if v.getLsbD i then 1 else 0)) m
  | _ => m
/-- The core store as a context sees it: its own held writes over the shared bytes (R400). -/
def csView (s : State) (c : CtxId) : Cells 8 :=
  match (s.ctx c).spec with
  | none => (s.core c.coreId).store
  | some p => p.held.foldl heldOver (s.core c.coreId).store
/-- The check of a core-store address (R206). -/
def csCheck (k : Core) (ea : W64) : Option Err :=
  if ea.toNat ≥ csSize then some ⟨0x11, ea⟩
  else match k.own[ea.toNat / 0x10000]? with
    | some .home => none
    | _ => some ⟨0x05, ea⟩
/-- The check of every buffer that a run of bytes touches (R379, R393): the first failing address. -/
def csCheckRun (k : Core) (a n : Nat) : Option Err :=
  firstSome (fun i => csCheck k (BitVec.ofNat 64 (if i = 0 then a else (a / 0x10000 + i) * 0x10000)))
    (List.range ((a % 0x10000 + n - 1) / 0x10000 + 1))
/-- Some range of commands in a list overlaps bytes a to a + n − 1. -/
def overlaps (rs : List (Nat × Nat)) (a n : Nat) : Bool := rs.any fun r => decide (a < r.2) && decide (r.1 < a + n)
/-- An access by a bundle meets a range that a command writes (R302). -/
def busyWritten (k : Core) (a n : Nat) : Bool := k.cmds.any fun q => overlaps q.writes a n
/-- The ranges that a command has still to read: those of a gather's table have been read once it has collected its rows (R272, R315). -/
def Cmd.unread (q : Cmd) : List (Nat × Nat) := if q.left.isSome then [] else q.reads.drop q.taken
/-- A store by a bundle meets a range that a command still reads or writes (R272, R302). -/
def busyAny (k : Core) (a n : Nat) : Bool := k.cmds.any fun q => overlaps q.writes a n || overlaps q.unread a n
/-- Write bytes into a core's store. -/
def csWrite (c : CoreId) (a : Nat) (bs : List Byte) (s : State) : State :=
  s.modCore c fun k => { k with store := wrCells k.store a bs }
/-- Add an entry to those held on a path, or put it in the place that a result has had since its issue (R400). -/
def Spec0.hold (p : Spec0) (ent : Option Nat) (h : Held) : Spec0 :=
  match ent with
  | none => { p with held := p.held ++ [h] }
  | some n => { p with held := p.held.map fun g => if g = .wait n then h else g }
/-- A write of a context to its core's store or tiles: held on a speculative path (R400), else performed. -/
def holdWrite (c : CtxId) (ent : Option Nat) (h : Held) (perform : State → State) (s : State) : State :=
  match (s.ctx c).spec with
  | none => perform s
  | some p => s.modCtx c fun x => { x with spec := some (p.hold ent h) }
/-- A core-store write of a context. -/
def ctxWrite (c : CtxId) (ent : Option Nat) (a : Nat) (bs : List Byte) (s : State) : State :=
  holdWrite c ent (.store a bs) (csWrite c.coreId a bs) s

/-! ## Device-physical memory -/

/-- The identity DPIT entry of an HBM page (R172). -/
def dpitIdentity (page : Nat) : BitVec 32 := BitVec.ofNat 32 ((page / 2 ^ 21 % 8) * 2 ^ 20 + page % 2 ^ 20)
/-- The master DPIT entry of an HBM page number DPA / 64 KiB (Table 11.3). -/
def dpitEntry (s : State) (page : Nat) : BitVec 32 :=
  match s.dpit.find? (fun e => e.1 == page) with
  | some e => e.2
  | none => dpitIdentity page
/-- Store a DPIT entry; an entry equal to the identity is not listed. -/
def setDpit (page : Nat) (e : BitVec 32) (s : State) : State :=
  let rest := s.dpit.filter (fun x => x.1 != page)
  { s with dpit := if e = dpitIdentity page then rest else (page, e) :: rest }
/-- STACK and SLA of an entry for a DPA, as a key of the HBM contents. -/
def hbmKeyOf (e : BitVec 32) (dpa : Nat) : Nat :=
  bits e.toNat 20 3 * 2 ^ 36 + bits e.toNat 0 20 * 2 ^ 16 + dpa % 2 ^ 16
/-- The DPA's space (Table 11.1). -/
def dpaSpace (dpa : Nat) : Nat := dpa / 2 ^ 40 % 16
/-- One byte of device-physical memory: HBM through the DPIT, or a vault. -/
def dpaRead (s : State) (dpa : Nat) : Byte :=
  if dpaSpace dpa = 0 then rdCell s.hbm (hbmKeyOf (dpitEntry s (dpa / 2 ^ 16)) dpa)
  else rdCell s.vault (dpa % 2 ^ 30)
/-- Write one byte; while MIG = 1 the copy's place is written too (R196). -/
def dpaWrite (dpa : Nat) (b : Byte) (s : State) : State :=
  if dpaSpace dpa = 0 then
    let h := wrCell s.hbm (hbmKeyOf (dpitEntry s (dpa / 2 ^ 16)) dpa) b
    match s.migs.find? (fun m => m.page == dpa / 2 ^ 16) with
    | some m => { s with hbm := wrCell h (m.stack * 2 ^ 36 + m.lpage * 2 ^ 16 + dpa % 2 ^ 16) b }
    | none => { s with hbm := h }
  else { s with vault := wrCell s.vault (dpa % 2 ^ 30) b }
/-- Fields of a region descriptor (Table 11.6): DBASE, ROWS, COLS, E, ARR. -/
def regBase (d : BitVec 256) : Nat := bits d.toNat 0 64
/-- ROWS. -/
def regRows (d : BitVec 256) : Nat := bits d.toNat 64 32
/-- COLS. -/
def regCols (d : BitVec 256) : Nat := bits d.toNat 96 32
/-- Element bytes. -/
def regE (d : BitVec 256) : Nat := 2 ^ bits d.toNat 128 8
/-- ARR. -/
def regArr (d : BitVec 256) : Nat := bits d.toNat 136 8
/-- The region that holds a DPA, if any: the first in the stacks' order where the ranges of two descriptors overlap, which the spec neither refuses nor decides
(DESIGN CHOICE, log 73; R185). -/
def regionOf (s : State) (dpa : Nat) : Option (BitVec 256) :=
  if dpaSpace dpa ≠ 0 then none
  else firstSome (fun (k : Stack) => k.regions.find? fun d =>
    decide (regBase d ≤ dpa) && decide (dpa < regBase d + regRows d * regCols d * regE d)) s.hbmStacks.toList
/-- The DPA of the byte that view v reaches at a DPA of the range (R186, R187). -/
def viewDpa (d : BitVec 256) (v : Nat) (dpa : Nat) : Nat :=
  let o := dpa - regBase d
  let el := regE d
  let e := o / el
  let rows := regRows d
  let cols := regCols d
  let ij : Nat × Nat :=
    if v = 0 then (e / cols, e % cols)
    else if v = 1 then (e % rows, e / rows)
    else
      let t := e / 16384
      let w := e % 16384
      (128 * (t / (cols / 128)) + w / 128, 128 * (t % (cols / 128)) + w % 128)
  let b := ij.2 * el
  let blk := if regArr d = 0 then ij.1 / 64 * (cols * el / 64) + b / 64 else b / 64 * (rows / 64) + ij.1 / 64
  regBase d + blk * 4096 + ij.1 % 64 * 64 + b % 64 + o % el
/-- The DPA reached at a DPA of a page with a view. -/
def reach (s : State) (view : BitVec 2) (dpa : Nat) : Nat :=
  match regionOf s dpa with
  | some d => viewDpa d view.toNat dpa
  | none => dpa
/-- The element rule of R188: an access in a region starts at an element and covers whole elements. -/
def viewOk (s : State) (dpa n : Nat) : Bool :=
  match regionOf s dpa with
  | some d => (dpa - regBase d) % regE d == 0 && n % regE d == 0
  | none => true
/-- `n` bytes from a DPA through a view. -/
def dpaBytes (s : State) (view : BitVec 2) (dpa n : Nat) : List Byte :=
  (List.range n).map fun i => dpaRead s (reach s view (dpa + i))
/-- Write bytes from a DPA through a view. -/
def dpaStore (view : BitVec 2) : Nat → List Byte → State → State
  | _, [], s => s
  | a, b :: r, s => dpaStore view (a + 1) r (dpaWrite (reach s view a) b s)
/-- The home scope of a device-physical location for a context (Table 15.1). -/
def dpaScope (c : CtxId) (dpa : Nat) : Nat :=
  if dpaSpace dpa = 1 then
    let v := dpa / 2 ^ 26 % 16
    if v = 4 * c.die.val + quadOf c.core then 2 else if v / 4 = c.die.val then 3 else 4
  else 4
/-- The die whose near stack holds the page now (R26). -/
def stackDie (stack : Nat) : Fin 4 := Fin.ofNat 4 (stack / 2)

/-! ## HBM placement and counts (R191 to R195, R199) -/

/-- The default hash masks (R192). -/
def defaultMasks : List W32 :=
  ((List.range 5).map fun k => BitVec.ofNat 32 (2 ^ (8 + k) + 2 ^ (14 + k))) ++ [BitVec.ofNat 32 (2 ^ 13 + 2 ^ 19)]
/-- The masks of a domain of a stack. -/
def Stack.maskOf (k : Stack) (dom : Nat) : List W32 := ((k.masks.find? fun m => m.1 == dom).map Prod.snd).getD defaultMasks
/-- The pseudo-channel of a stack-local address (R191). -/
def pseudoChan (k : Stack) (sla : Nat) : Nat :=
  (((k.maskOf (bits sla 30 6)).zipIdx).map fun m => parity (sla &&& m.1.toNat) 36 * 2 ^ m.2).sum
/-- Pseudo-channel, bank and row of a stack-local address as one key: pseudo-channel · 2^20 + bank · 2^16 + row (Table 11.7). -/
def rowKey (k : Stack) (sla : Nat) : Nat := pseudoChan k sla * 2 ^ 20 + (bits sla 16 4 ^^^ bits sla 20 4) * 2 ^ 16 + bits sla 20 16
/-- The physical row behind a row key, through the row indirection table (R199). -/
def rowOf (k : Stack) (key : Nat) : Nat := ((k.rows.find? fun r => r.1 == key).map Prod.snd).getD key
/-- Add one to a key's count. -/
def bump (l : List (Nat × Nat)) (k : Nat) : List (Nat × Nat) :=
  if l.any (fun e => e.1 == k) then l.map fun e => if e.1 = k then (k, e.2 + 1) else e else (k, 1) :: l
/-- A bank opens a DRAM row unless it is open, and counts the activation (R199). -/
def Stack.activate (k : Stack) (row : Nat) : Stack :=
  if k.opened.contains (row / 2 ^ 16, row) then k
  else { k with acts := bump k.acts row, opened := (row / 2 ^ 16, row) :: k.opened.filter fun e => e.1 != row / 2 ^ 16 }
/-- DRAM rows of 256-byte granules are opened, a granule given as the key of its first byte in the HBM contents divided by 256 (R199). -/
def openRows (granules : List Nat) (s : State) : State :=
  forEach granules.eraseDups (fun g s =>
    let n : Fin 8 := Fin.ofNat 8 (g / 2 ^ 28)
    let k := s.hbmStacks[n.val]
    { s with hbmStacks := s.hbmStacks.set n.val (k.activate (rowOf k (rowKey k (g % 2 ^ 28 * 256)))) }) s
/-- A die's access to bytes of HBM, given as the device-physical addresses that it reaches, counts once for each of their pages in the tracker, and activates
the DRAM row of each 256-byte granule where the row is not open (R195, R199). -/
def noteHbm (d : Fin 4) (cells : List Nat) (s : State) : State :=
  let cells := cells.filter fun a => dpaSpace a == 0
  let s := s.modDie d fun x => { x with hot := (cells.map (· / 2 ^ 16)).eraseDups.foldl bump x.hot }
  openRows (cells.map fun a => hbmKeyOf (dpitEntry s (a / 2 ^ 16)) a / 256) s
/-- A die's writes to bytes of HBM: while MIG = 1 they open rows at the copy's place as well (R196, R199). -/
def noteWrite (d : Fin 4) (cells : List Nat) (s : State) : State :=
  openRows ((cells.filter fun a => dpaSpace a == 0).filterMap fun a =>
    (s.migs.find? fun m => m.page == a / 2 ^ 16).map fun m => m.stack * 2 ^ 28 + m.lpage * 2 ^ 8 + a % 2 ^ 16 / 256) (noteHbm d cells s)
/-- A die's accesses of one kind. -/
def noteUse (d : Fin 4) (write : Bool) (cells : List Nat) (s : State) : State := if write then noteWrite d cells s else noteHbm d cells s

/-! ## Page tables and TLBs -/

/-- SIZE of a page-table entry in bytes (Table 11.2). -/
def pteSize (e : W64) : Nat :=
  match bits e.toNat 55 2 with
  | 0 => 2 ^ 16
  | 1 => 2 ^ 21
  | _ => 2 ^ 27
/-- V. -/
def pteV (e : W64) : Bool := e.getLsbD 63
/-- VIEW. -/
def pteView (e : W64) : BitVec 2 := e.extractLsb' 61 2
/-- R. -/
def pteR (e : W64) : Bool := e.getLsbD 60
/-- W. -/
def pteW (e : W64) : Bool := e.getLsbD 59
/-- X. -/
def pteX (e : W64) : Bool := e.getLsbD 58
/-- PIN. -/
def ptePin (e : W64) : Bool := e.getLsbD 57
/-- DPA of the page base. -/
def pteDpa (e : W64) : Nat := bits e.toNat 16 28 * 2 ^ 16
/-- An 8-byte table entry in HBM. -/
def rdTable (s : State) (a : Nat) : W64 := BitVec.ofNat 64 (ofBytes (dpaBytes s 0 a 8))
/-- The bits of a VA that a walk level indexes: first bit and width (Table 21.1). -/
def walkField (l : Nat) : Nat × Nat :=
  match l with
  | 0 => (36, 12) | 1 => (27, 9) | 2 => (21, 6) | _ => (16, 5)
/-- The SIZE code allowed at a level; none at level 0. -/
def walkSize (l : Nat) : Option Nat :=
  match l with
  | 0 => none | 1 => some 2 | 2 => some 1 | _ => some 0
/-- The page walk of R330 and R331 from a table at a level: the leaf entry, none where an entry is missing. -/
def walkFrom (s : State) (va : Nat) (table l : Nat) : Nat → Option W64
  | 0 => none
  | f + 1 =>
    let fld := walkField l
    let e := rdTable s (table + 8 * bits va fld.1 fld.2)
    if !pteV e then none
    else if e.getLsbD 54 then (if l = 3 then none else walkFrom s va (bits e.toNat 8 36 * 2 ^ 8) (l + 1) f)
    else if walkSize l = some (bits e.toNat 55 2) then some e else none
/-- The bytes of table entries that a walk reads (R330). -/
def walkCells (s : State) (va : Nat) (table l : Nat) : Nat → List Nat
  | 0 => []
  | f + 1 =>
    let fld := walkField l
    let a := table + 8 * bits va fld.1 fld.2
    let e := rdTable s a
    List.range' a 8 ++ (if pteV e && e.getLsbD 54 && l != 3 then walkCells s va (bits e.toNat 8 36 * 2 ^ 8) (l + 1) f else [])
/-- A whole walk for a tenant. -/
def walk (s : State) (t : BitVec 4) (va : W64) : Option W64 :=
  walkFrom s va.toNat (s.ten t).root 0 4
/-- A TLB's entry for a VA. -/
def tlbFind (l : List TlbEnt) (t : BitVec 4) (va : W64) : Option W64 :=
  match l.find? (fun e => e.tenant == t && va.toNat / pteSize e.pte * pteSize e.pte == e.vpage) with
  | some e => some e.pte
  | none => none
/-- Insert a translation, keeping at most `cap` entries, the newest first. -/
def tlbAdd (l : List TlbEnt) (cap : Nat) (t : BitVec 4) (va pte : W64) : List TlbEnt :=
  (⟨t, va.toNat / pteSize pte * pteSize pte, pte⟩ :: l).take cap
/-- First-level, then last-level lookup (R329). -/
def tlbLook (s : State) (c : CoreId) (t : BitVec 4) (va : W64) : Option W64 :=
  match tlbFind (s.core c).tlb t va with
  | some e => some e
  | none => tlbFind (s.die c.die).tlb t va
/-- A die's walk has read the tables: its accesses to HBM count (R195, R199). -/
def noteWalk (d : Fin 4) (t : BitVec 4) (va : W64) (s : State) : State := noteHbm d (walkCells s va.toNat (s.ten t).root 0 4) s
/-- A walk has ended with an entry: it fills both TLBs, and its accesses count (R331). -/
def tlbFill (c : CoreId) (t : BitVec 4) (va pte : W64) (s : State) : State :=
  ((noteWalk c.die t va s).modCore c fun k => { k with tlb := tlbAdd k.tlb 64 t va pte }).modDie c.die fun d => { d with tlb := tlbAdd d.tlb 4096 t va pte }
/-- A walk that has ended with a leaf fills both TLBs; a translation that a TLB already holds changes nothing (R331). -/
def fillWalk (c : CoreId) (t : BitVec 4) (va : W64) (s : State) : State :=
  match tlbLook s c t va with
  | some _ => s
  | none => match walk s t va with
    | some e => tlbFill c t va e s
    | none => s
/-- The translation an engine, dispatcher or supervisor uses: TLBs, then a walk. -/
def translate (s : State) (c : CoreId) (t : BitVec 4) (va : W64) : Option W64 :=
  match tlbLook s c t va with
  | some e => some e
  | none => walk s t va
/-- The DPA of a VA under an entry. -/
def vaDpa (e va : W64) : Nat := pteDpa e / pteSize e * pteSize e + va.toNat % pteSize e
/-- Report a missing translation to the die's fault queue, once (R334). -/
def reportFault (d : Fin 4) (r : FaultRep) (s : State) : State :=
  s.modDie d fun x => if x.faults.contains r then x else { x with faults := x.faults ++ [r] }
/-- The page base of an address. -/
def pageVa (va : Nat) : W64 := BitVec.ofNat 64 (va / 2 ^ 16 * 2 ^ 16)
/-- A context waits for a page of code: the fault is reported and the awaited page noted (R171, R334). -/
def awaitPage (c : CtxId) (va : W64) (s : State) : State :=
  reportFault c.die ⟨(s.ctx c).b.tenant, va, .fetch, .fetch c⟩ (s.modCtx c fun x => { x with miss := some (va, .fetch) })
/-- Read bytes at a tenant's VA, page by page; none where some page is missing or unreadable. -/
def vaRead (s : State) (c : CoreId) (t : BitVec 4) (va n : Nat) : Option (List Byte) :=
  (List.range n).foldr (fun i acc =>
    match acc, translate s c t (BitVec.ofNat 64 (va + i)) with
    | some l, some e =>
      if pteR e ∧ va + i < 2 ^ 48 then some (dpaRead s (reach s (pteView e) (vaDpa e (BitVec.ofNat 64 (va + i)))) :: l) else none
    | _, _ => none) (some [])
/-- The device-physical addresses that a run of bytes at a tenant's VA reaches, of those that translate. -/
def vaRun (s : State) (c : CoreId) (t : BitVec 4) (va n : Nat) : List Nat :=
  (List.range n).filterMap fun i => (translate s c t (BitVec.ofNat 64 (va + i))).map fun e => reach s (pteView e) (vaDpa e (BitVec.ofNat 64 (va + i)))
/-- Write bytes at a tenant's VA, assuming that every page translates; bytes of missing pages are dropped. -/
def vaWrite (c : CoreId) (t : BitVec 4) : Nat → List Byte → State → State
  | _, [], s => s
  | a, b :: r, s =>
    match translate s c t (BitVec.ofNat 64 a) with
    | some e => vaWrite c t (a + 1) r (dpaWrite (reach s (pteView e) (vaDpa e (BitVec.ofNat 64 a))) b s)
    | none => vaWrite c t (a + 1) r s

/-! ## Live task records (R349) -/

/-- The fields of a live record that the dispatcher owns: the offset of each, and the bits that it owns of every byte. STATE keeps bits 10 and
15 to 12 for the program. -/
def ownedFields : List (Nat × List Byte) :=
  [(0, [0xFF, 0x0B, 0xFF, 0xFF]), (4, .replicate 4 0xFF), (0x24, .replicate 4 0xFF), (0x30, .replicate 8 0xFF), (0x38, .replicate 8 0xFF),
   (0x48, .replicate 8 0xFF), (0x50, .replicate 8 0xFF), (0x58, .replicate 8 0xFF)]
/-- The owned bits of a field become free values; the others stay (log 13). -/
def tearField (a : Nat) (ms : List Byte) (s : State) : State :=
  let u := forEach ms.zipIdx (fun p u =>
    dpaWrite (a + p.2) ((dpaRead u (a + p.2) &&& ~~~p.1) ||| (Config.freeByte (s.draws + p.2) &&& p.1)) u) s
  { u with draws := s.draws + ms.length }
/-- A program has stored to device-physical addresses: every field of a live record that the dispatcher owns and that the store touches has a value
that is unpredictable (R349). -/
def tearRecords (as : List Nat) (s : State) : State :=
  forEach (s.records.flatMap fun r => ownedFields.map fun f => (r + f.1, f.2)) (fun f u =>
    if as.any fun a => decide (f.1 ≤ a) && decide (a < f.1 + f.2.length) then tearField f.1 f.2 u else u) s
/-- A program's store of bytes from a DPA through a view (R349). -/
def progStore (view : BitVec 2) (a : Nat) (bs : List Byte) (s : State) : State :=
  tearRecords ((List.range bs.length).map fun i => reach s view (a + i)) (dpaStore view a bs s)
/-- The device-physical address of a record. -/
def recDpa (s : State) (c : CoreId) (t : BitVec 4) (r : W64) : Option Nat := (translate s c t r).map fun e => vaDpa e r
/-- A record is live from its creation on. -/
def recBorn (c : CoreId) (t : BitVec 4) (r : W64) (s : State) : State :=
  match recDpa s c t r with
  | some d => { s with records := d :: s.records.filter (· != d) }
  | none => s
/-- A record has become DONE or FAILED. -/
def recGone (c : CoreId) (t : BitVec 4) (r : W64) (s : State) : State :=
  match recDpa s c t r with
  | some d => { s with records := s.records.filter (· != d) }
  | none => s

/-! ## Frames out -/

/-- "BHP1". -/
def frameMagic : W32 := 0x31504842
/-- The first 16 bytes of a frame (Table 27.1). -/
def frameHead (kind : Byte) (t : BitVec 4) (len : Nat) (q : W64) : List Byte :=
  toBytes 4 frameMagic.toNat ++ [kind, t.setWidth 8] ++ toBytes 2 len ++ toBytes 8 q.toNat
/-- The nonce of a frame: the direction, then SEQ, low bytes first (R405; DEDUCED from R7, log 42). -/
def frameNonce (dir : Nat) (q : W64) : List Byte := toBytes 4 dir ++ toBytes 8 q.toNat
/-- A sealed frame (R405). -/
def sealFrame (key : BitVec 256) (dir : Nat) (kind : Byte) (t : BitVec 4) (q : W64) (payload : List Byte) : List Byte :=
  let head := frameHead kind t payload.length q
  let k := toBytes 32 key.toNat
  let ct := gcmCrypt k (frameNonce dir q) payload
  head ++ ct ++ gcmTag k (frameNonce dir q) head ct
/-- Send a frame of a tenant to its host endpoint, sealed under its key; without a key nothing is sent (R405, R417). -/
def sendFrame (kind : Byte) (t : BitVec 4) (payload : List Byte) (s : State) : State :=
  match (s.ten t).key with
  | none => s
  | some k =>
    let q := (s.ten t).txSeq + 1
    let s := s.modTen t fun x => { x with txSeq := q }
    { s with outbox := s.outbox ++ [⟨none, (s.ten t).endp, (s.ten t).port, sealFrame k 1 kind t q payload⟩] }
/-- The bytes of a NOTIFY (Table 27.3). -/
def Notify.bytes (n : Notify) : List Byte :=
  toBytes 2 n.source.toNat ++ toBytes 2 n.code.toNat ++ toBytes 4 0 ++ toBytes 8 n.value.toNat ++ toBytes 8 n.fault.toNat
/-- Queue a NOTIFY for a tenant. -/
def notify (t : BitVec 4) (source code : W16) (value fault : W64) (s : State) : State :=
  s.modTen t fun x => { x with notes := x.notes ++ [⟨source, code, value, fault⟩] }
/-- The class of a NOTIFY in the queue (Table 27.6): device-source entries, then task ends and answers to frames, then NTFY. -/
def Notify.rank (n : Notify) : Nat := if n.source = 0 then 0 else if n.source = 1 then 2 else 1
/-- Take the entry that leaves a notification queue next: the oldest of the highest class. -/
def nextNote (l : List Notify) : Option (Notify × List Notify) :=
  match firstSome (fun r => l.findIdx? fun n => n.rank == r) [0, 1, 2] with
  | none => none
  | some i => l[i]?.map fun n => (n, l.eraseIdx i)
/-- Send one queued NOTIFY of every tenant (R418). -/
def drainNotes (s : State) : State :=
  forEach (List.range 16) (fun i s =>
    let t := BitVec.ofNat 4 i
    match nextNote (s.ten t).notes with
    | none => s
    | some (n, r) => sendFrame 7 t n.bytes (s.modTen t fun x => { x with notes := r })) s

/-! ## Results in flight and landing -/

/-- The act of a result with a destination code (Table 07.6). -/
def dstAct (a : Arch) (dst : Code7) (slot : BitVec 3) (v : W64) : Land :=
  if dst.toNat < 0x40 then .sreg (physReg a.rot dst.toNat) v
  else if dst.toNat < 0x48 then .port (Fin.ofNat 8 dst.toNat) v slot
  else .hem v
/-- The result will write the core store or a tile, so that a speculative path holds it (Table 25.11). -/
def Land.holds : Land → Bool
  | .port _ _ _ | .drain _ _ _ | .flags _ _ | .acc _ _ _ => true
  | .sreg _ _ | .hem _ | .target _ _ | .sys _ _ | .handle _ _ | .words _ | .latch _ _ | .exv _ _ | .tscale _ _ => false
/-- Put a result in flight; on a speculative path a result to be held takes its place among the held entries now (R400). -/
def addFlight (c : CtxId) (f : Flight) (s : State) : State :=
  s.modCtx c fun x => match (if f.act.holds then x.spec else none) with
    | none => { x with flights := x.flights ++ [f] }
    | some p => { x with flights := x.flights ++ [{ f with ent := some p.seq }]
                         spec := some { p with seq := p.seq + 1, held := p.held ++ [.wait p.seq] } }
/-- Send a fixed-latency result to a destination code (R139, R140). -/
def sendRes (c : CtxId) (slot : BitVec 3) (lat : Nat) (dst : Code7) (v : W64) (s : State) : State :=
  addFlight c ⟨lat, true, slot, dstAct (s.arch c) dst slot v, none⟩ s
/-- Send a result that enters no Hem. -/
def sendQuiet (c : CtxId) (slot : BitVec 3) (lat : Nat) (act : Land) (s : State) : State :=
  addFlight c ⟨lat, false, slot, act, none⟩ s
/-- The low `wd` bytes of a port element. -/
def Port.bytes (p : Port) : Nat := 2 ^ p.wd.toNat
/-- The swizzle of R229. -/
def swz (lay r b : Nat) : Nat :=
  match lay with
  | 1 => b ^^^ ((r % 8) * 16)
  | 2 => b ^^^ ((r % 4) * 16)
  | _ => b
/-- Window descriptor fields (Table 11.11 of 13): TBASE. -/
def wTBase (d : BitVec 512) : Nat := bits d.toNat 0 64
/-- TPITCH, signed. -/
def wTPitch (d : BitVec 512) : Int := sInt (bits d.toNat 64 64) 64
/-- TROWS. -/
def wTRows (d : BitVec 512) : Nat := bits d.toNat 128 32
/-- RBYTES. -/
def wRBytes (d : BitVec 512) : Nat := bits d.toNat 160 32
/-- RING. -/
def wRing (d : BitVec 512) : Nat := bits d.toNat 192 32
/-- SLOT. -/
def wSlot (d : BitVec 512) : Nat := bits d.toNat 224 32
/-- NSLOT. -/
def wNSlot (d : BitVec 512) : Nat := bits d.toNat 256 16
/-- DIR. -/
def wDir (d : BitVec 512) : Nat := bits d.toNat 272 8
/-- LAY. -/
def wLay (d : BitVec 512) : Nat := bits d.toNat 280 8
/-- BAR. -/
def wBar (d : BitVec 512) : Nat := bits d.toNat 288 32
/-- BARV. -/
def wBarV (d : BitVec 512) : Nat := bits d.toNat 320 8
/-- The core-store address of a stream byte of a window (R246). -/
def winByte (d : BitVec 512) (pos : Nat) : Nat :=
  let row := pos / wRBytes d
  let k := row % wNSlot d
  wRing d + k * wSlot d + swz (wLay d) k (pos % wRBytes d)
/-- The core-store addresses of the element of a port at a position. -/
def portAddrs (k : Core) (p : Port) (pos : Nat) : List Nat :=
  match p.win with
  | none => (List.range p.bytes).map fun i => (p.base + pos % p.len + i) % 2 ^ 64
  | some w => (List.range p.bytes).map fun i => winByte (k.wins[w.val]).desc (pos + i)
/-- Write one element of an output binding at its position; a failing access of a region is a late error (R226, R142). -/
def portPut (c : CtxId) (ent : Option Nat) (p : Port) (v : W64) (slot : BitVec 3) (s : State) : State :=
  if !p.bound || !p.out then s
  else
    let k := s.core c.coreId
    let as := portAddrs k p p.pos.toNat
    let bs := toBytes p.bytes v.toNat
    match p.win, firstSome (fun a => csCheck k (BitVec.ofNat 64 a)) as with
    | none, some e => s.modCtx c fun x => { x with late := x.late ++ [⟨⟨e.cause, BitVec.ofNat 64 (as.headD 0)⟩, slot, x.spec.isSome⟩] }
    | _, _ =>
      if p.win.isNone then ctxWrite c ent (as.headD 0) bs s
      else forEach (as.zip bs) (fun ab s => ctxWrite c none ab.1 [ab.2] s) s
/-- Write one result element to an output port, which advances. -/
def portWrite (c : CtxId) (ent : Option Nat) (n : Fin 8) (v : W64) (slot : BitVec 3) (s : State) : State :=
  let p := (s.arch c).ports[n.val]
  if !p.bound || !p.out then s
  else portPut c ent p v slot (s.modArch c fun a =>
    { a with ports := a.ports.set n.val { p with pos := p.pos + BitVec.ofNat 64 p.bytes } })
/-- Bits of a matrix-register word written under a mask. -/
def mergeWord (old v mask : W32) : W32 := (old &&& ~~~mask) ||| (v &&& mask)
/-- Save a matrix register's contents at the first write of a speculative path (R400). -/
def saveReg (reg : Nat) (x : Ctx) : Ctx :=
  match x.spec with
  | none => x
  | some p =>
    if p.mcopy.any (fun e => e.1 == reg) then x
    else { x with spec := some { p with mcopy := p.mcopy ++ [(reg, sliceCells x.mreg (reg * 1024) (reg * 1024 + 1024))] } }
/-- Write words of matrix registers: cell, value, mask. -/
def putWords (ws : List (Nat × W32 × W32)) (x : Ctx) : Ctx :=
  ws.foldl (fun x w =>
    let x := saveReg (w.1 / 1024) x
    { x with mreg := wrCell x.mreg w.1 (mergeWord (rdCell x.mreg w.1) w.2.1 w.2.2) }) x
/-- Write elements of a bank of a binding's tile; an unbound binding discards them (R295). -/
def putAcc (z : Fin 16) (bank1 : Bool) (ws : List (Nat × W32)) (x : Ctx) : Ctx :=
  match x.z[z.val] with
  | none => x
  | some t =>
    let t' := if bank1 then { t with bank1 := ws.foldl (fun m w => wrCell m w.1 w.2) t.bank1 }
      else { t with bank0 := ws.foldl (fun m w => wrCell m w.1 w.2) t.bank0 }
    { x with z := x.z.set z.val (some t') }
/-- EXV as a system register: byte k is edge k's extra value in the format of Table 03.4 (R317). -/
def setExvByte (v : W32) (k : Fin 4) (b : Byte) : W32 :=
  let sh := 8 * k.val
  (v &&& ~~~(0xFF#32 <<< sh)) ||| ((b.setWidth 32) <<< sh)
/-- Write a writable system register (Table 09.9). -/
def wrSysReg (n : Nat) (v : W64) (a : Arch) : Arch :=
  if n = 14 then { a with ckmode := v.extractLsb' 0 1 }
  else if n = 15 then { a with trapvecValid := v.getLsbD 32, trapvecAddr := v.extractLsb' 0 32 }
  else if h : 25 ≤ n ∧ n ≤ 31 then { a with scratch := a.scratch.set (n - 25) v (by omega) }
  else a
/-- The Hem value of a landing result. -/
def Land.value : Land → W64
  | .sreg _ v => v
  | .hem v => v
  | .port _ v _ => v
  | .drain _ v _ => v
  | _ => 0
/-- The 32 flags that a VCMP writes (R288). -/
def flagsWrite (c : CoreId) (base : Nat) (v : W32) (s : State) : State :=
  forEach (List.range 32) (fun i => csWrite c (4 * (base + i)) (toBytes 4 (if v.getLsbD i then 1 else 0))) s
/-- Perform what a result does at its landing, apart from the Hem; on a speculative path a write fills its place among the held entries. -/
def landAct (c : CtxId) (ent : Option Nat) (act : Land) (s : State) : State :=
  match act with
  | .sreg r v => s.modArch c fun a => a.wrPhys r v
  | .hem _ => s
  | .port p v slot => portWrite c ent p v slot s
  | .drain b v slot => portPut c ent b v slot s
  | .target k v => s.modArch c fun a => { a with t := a.t.set k.val v }
  | .sys n v => s.modArch c (wrSysReg n v)
  | .handle n h => s.modCtx c fun x => { x with h := x.h.set n.val h }
  | .words ws => s.modCtx c (putWords ws)
  | .flags b v => holdWrite c ent (.flags b v) (flagsWrite c.coreId b v) s
  | .acc z b ws => holdWrite c ent (.acc z b ws) (fun s => s.modCtx c (putAcc z b ws)) s
  | .latch k v => s.modArch c fun a => { a with latch := a.latch.set k.val v }
  | .exv k v => s.modArch c fun a => { a with exv := setExvByte a.exv k v }
  | .tscale k v => s.modArch c fun a => { a with tscale := a.tscale.set k.val v }
/-- A result that has landed without a write leaves its place among the held entries. -/
def dropPlace (c : CtxId) (ent : Option Nat) (s : State) : State :=
  match ent with
  | none => s
  | some n => s.modCtx c fun x => { x with spec := x.spec.map fun p => { p with held := p.held.filter (· != .wait n) } }
/-- Land one result: its destination, then the Hem (R141). -/
def landOne (c : CtxId) (f : Flight) (s : State) : State :=
  let s := dropPlace c f.ent (landAct c f.ent f.act s)
  if f.hem then s.modArch c fun a => a.pushHem f.act.value else s
/-- An output port whose unbinding waits is unbound once no result to it is in flight (R227). -/
def closePorts (c : CtxId) (s : State) : State :=
  s.modCtx c fun x =>
    { x with arch := { x.arch with ports := .ofFn fun (i : Fin 8) =>
        let p := x.arch.ports[i.val]
        if p.closing && !x.flights.any (fun f => match f.act with
          | .port q _ _ => q == i
          | _ => false) then .unbound else p } }
/-- Land every result whose time has come, in issue order, slot order within a bundle (R141, R142). -/
def landDue (c : CtxId) (s : State) : State :=
  let due := (s.ctx c).flights.filter fun f => f.rem == 0
  let s := s.modCtx c fun x => { x with flights := x.flights.filter fun f => f.rem != 0 }
  closePorts c (forEach due (landOne c) s)
/-- Some result is due to land. -/
def hasDue (x : Ctx) : Bool := x.flights.any fun f => f.rem == 0
/-- One unfrozen cycle passes for the results in flight. -/
def tickFlights (x : Ctx) : Ctx := { x with flights := x.flights.map fun f => { f with rem := f.rem - 1 } }

/-! ## Task records and failure -/

/-- Read a little-endian field of a task record or other structure at a tenant's VA; 0 where it cannot be read. -/
def vaNat (s : State) (c : CoreId) (t : BitVec 4) (va n : Nat) : Nat :=
  match vaRead s c t va n with
  | some l => ofBytes l
  | none => 0
/-- Write a little-endian field at a tenant's VA. -/
def vaPut (c : CoreId) (t : BitVec 4) (va n v : Nat) (s : State) : State := vaWrite c t va (toBytes n v) s
/-- The fault word (Table 23.3). -/
def faultWord (kind : Nat) (cause cause2 : Byte) (reason : Nat) (pc : W32) : W64 :=
  BitVec.ofNat 64 (kind * 2 ^ 56 + cause.toNat * 2 ^ 48 + cause2.toNat * 2 ^ 40 + reason * 2 ^ 36 + pc.toNat)
/-- A task of a context fails: the context issues no further bundle and its end begins (R357). -/
def failTask (c : CtxId) (fault result : W64) (s : State) : State :=
  s.modCtx c fun x =>
    { x with exit := some ⟨result, fault, true, none, none⟩, trap := none, spec := none, svc := none, att := .none, miss := none }

/-! ## Taking a trap and returning from one -/

/-- The page record of a code address (R131): page VA, record. -/
def pageOf (s : State) (t : BitVec 4) (va : Nat) : Option PageRec :=
  s.pages.find? fun p => p.tenant == t && p.vpage == va / 2 ^ 16 * 2 ^ 16
/-- What a code address is to the start bitmap (R131, R134, R421). -/
inductive Place where
  | start | pending | inside | unmapped
  deriving DecidableEq, Repr
/-- Byte address of a code address of a kernel (R97). -/
def codeVa (h : Hdr) (pc : W32) : Nat := h.code.toNat + 2 * pc.toNat
/-- The state of a code address. -/
def placeOf (s : State) (b : Binding) (pc : W32) : Place :=
  let va := codeVa b.hdr pc
  match pageOf s b.tenant va with
  | none => .unmapped
  | some p =>
    if p.refused.isSome then .unmapped
    else if p.isDict then .inside
    else if p.pending = some (va % 2 ^ 16 / 2) then .pending
    else if p.starts.testBit (va % 2 ^ 16 / 2) then .start else .inside
/-- Post a trap: it is taken once the results in flight have landed (R163). -/
def postTrap (c : CtxId) (e : Err) (pc : W32) (slot leaf : BitVec 3) (s : State) : State :=
  s.modCtx c fun x => { x with trap := some ⟨e, pc, slot, leaf⟩, att := .none, unres := [] }
/-- The handler address: TRAPVEC.ADDR if VALID, else the header's TRAPH (R163). -/
def handlerOf (x : Ctx) : W32 := if x.arch.trapvecValid then x.arch.trapvecAddr else x.b.hdr.traph
/-- Taking a trap (R163): with INH set the task fails with both causes; otherwise the trap records are written, INH is
set, and control passes to the handler, or the task fails where there is none. A handler on a page not mapped
executable waits for the page (R421). -/
def takeTrap (c : CtxId) (t : Trap) (s : State) : State :=
  let x := s.ctx c
  if x.arch.inh then
    failTask c (faultWord 2 x.arch.cause t.err.cause 0 x.arch.trappc) x.arch.trapaddr s
  else
    let h := handlerOf x
    let rec' (a : Arch) : Arch :=
      { a with cause := t.err.cause, inh := true, trappc := t.pc, depth := BitVec.ofNat 3 a.loops.length, loops := a.loops.map (fun l => { l with kept := true }), tslot := t.slot,
               tleaf := t.leaf, trapaddr := t.err.addr, hpc := none }
    let fail (s : State) : State := failTask c (faultWord 1 t.err.cause 0 0 t.pc) t.err.addr (s.modArch c rec')
    if h = 0xFFFFFFFF then fail s
    else match placeOf s x.b h with
      | .start => (s.modArch c fun a => { rec' a with pc := h }).modCtx c fun x => { x with trap := none }
      | .pending => (s.modArch c fun a => { rec' a with pc := h }).modCtx c fun x => { x with trap := none }
      | .inside => fail s
      | .unmapped =>
        let va := codeVa x.b.hdr h
        if x.unres.contains (pageVa va) then fail s
        else awaitPage c (BitVec.ofNat 64 va) s
/-- Return from a trap (R164, R165): INH is cleared and levels above TRAPLEAF.DEPTH are popped; the next bundle is TRAPPC. -/
def leaveTrap (a : Arch) : Arch :=
  { a with inh := false, loops := (a.loops.drop (a.loops.length - a.depth.toNat)).map (fun l => { l with kept := false }), pc := a.trappc }

end Sys2Proof.Machine
end

