-- ==== Sys2Proof/Machine/Operands.lean ====
section
/-! DEFINITION. Operand forms: the 7-bit operand codes (Table 07.5), stream reads (R226, R246), matrix-register slices and their
elements (R275), tile descriptors and tile layout (R228, R229), object references (R221). -/

namespace Sys2Proof.Machine

/-! ## Operand codes -/

/-- The bytes of the next element of an input port, as a number. -/
def portElem (s : State) (c : CtxId) (p : Port) : Nat :=
  let m := csView s c
  ofBytes ((portAddrs (s.core c.coreId) p p.pos.toNat).map (rdCell m))
/-- Read an input port: the next element extended to 64 bits; 0 from an unbound or output port (R225, R226). -/
def portRead (s : State) (c : CtxId) (n : Nat) : W64 :=
  let p := (s.arch c).ports[(Fin.ofNat 8 n).val]
  if !p.bound || p.out then 0
  else
    let v := portElem s c p
    if p.sx then sext64 v (8 * p.bytes) else zext64 v (8 * p.bytes)
/-- A port's element is taken: the position advances (R226). -/
def portTake (c : CtxId) (n : Nat) (s : State) : State :=
  s.modArch c fun a =>
    let i := Fin.ofNat 8 n
    let p := a.ports[i.val]
    if !p.bound || p.out then a else { a with ports := a.ports.set i.val { p with pos := p.pos + BitVec.ofNat 64 p.bytes } }
/-- The value of an operand code (Table 07.5). -/
def readOp (s : State) (c : CtxId) (code : Code7) : W64 :=
  let n := code.toNat
  if n < 0x40 then (s.arch c).rdS n
  else if n < 0x60 then (s.arch c).hem[(Fin.ofNat 32 (n - 0x40)).val]
  else if n = 0x60 then 0
  else if n ≤ 0x66 then (s.arch c).loopIdx (n - 0x61)
  else if 0x68 ≤ n ∧ n ≤ 0x6F then portRead s c (n - 0x68)
  else 0
/-- The port number of a stream operand code. -/
def portOf (code : Code7) : Option Nat := if 0x68 ≤ code.toNat ∧ code.toNat ≤ 0x6F then some (code.toNat - 0x68) else none
/-- A read of this port would find it empty (R246). A port of a window that has been closed or opened again follows what the window then is (DESIGN
CHOICE, log 73: the spec does not say what becomes of the port). -/
def portEmpty (s : State) (c : CtxId) (n : Nat) : Bool :=
  let p := (s.arch c).ports[(Fin.ofNat 8 n).val]
  if !p.bound || p.out then false
  else match p.win with
    | none => false
    | some w =>
      let k := (s.core c.coreId).wins[w.val]
      decide (k.done ≤ (p.pos.toNat + p.bytes - 1) / wRBytes k.desc)
/-- Results in flight to an output port. -/
def inFlightTo (x : Ctx) (n : Fin 8) : Nat :=
  (x.flights.filter fun f => match f.act with
    | .port q _ _ => q == n
    | _ => false).length
/-- The last of `m` results that a bundle sends to this port would find it full, elements in flight counted (R226, R246). -/
def portFull (s : State) (c : CtxId) (m n : Nat) : Bool :=
  let i := Fin.ofNat 8 n
  let p := (s.arch c).ports[i.val]
  if !p.bound || !p.out then false
  else match p.win with
    | none => false
    | some w =>
      let k := (s.core c.coreId).wins[w.val]
      let pos := p.pos.toNat + (inFlightTo (s.ctx c) i + (m - 1)) * p.bytes
      decide (k.done + wNSlot k.desc ≤ (pos + p.bytes - 1) / wRBytes k.desc)
/-- The check of a region port's element at a read (R226). -/
def portCheck (s : State) (c : CtxId) (n : Nat) : Option Err :=
  let p := (s.arch c).ports[(Fin.ofNat 8 n).val]
  if !p.bound || p.out || p.win.isSome then none
  else
    let as := portAddrs (s.core c.coreId) p p.pos.toNat
    match firstSome (fun a => csCheck (s.core c.coreId) (BitVec.ofNat 64 a)) as with
    | some e => some ⟨e.cause, BitVec.ofNat 64 (as.headD 0)⟩
    | none => none
/-- A port read meets a range that a command writes (R302). -/
def portBusy (s : State) (c : CtxId) (n : Nat) : Bool :=
  let p := (s.arch c).ports[(Fin.ofNat 8 n).val]
  if !p.bound || p.out then false
  else (portAddrs (s.core c.coreId) p p.pos.toNat).any fun a => busyWritten (s.core c.coreId) a 1
/-- Some of `m` elements that a bundle sends to this port may be written into a range that a command reads or writes: elements take their positions in landing
order, so that one may land at any position up to the last behind those in flight (R142, R272, R302). -/
def portOutBusy (s : State) (c : CtxId) (m n : Nat) : Bool :=
  let i := Fin.ofNat 8 n
  let p := (s.arch c).ports[i.val]
  if !p.bound || !p.out then false
  else (List.range (inFlightTo (s.ctx c) i + m)).any fun j =>
    (portAddrs (s.core c.coreId) p (p.pos.toNat + j * p.bytes)).any fun a => busyAny (s.core c.coreId) a 1

/-! ## Slices -/

/-- Register of a spec (Table 07.10). -/
def specReg (sp : Spec) : Nat := sp.toNat % 32
/-- Index of a spec. -/
def specIdx (sp : Spec) : Nat := sp.toNat / 128
/-- The word of a slice with first coordinate k, as a cell of the register file (R275); `off` is i0 under rel. -/
def sliceCell (sp : Spec) (off k : Nat) : Nat :=
  let i := (specIdx sp + off) % 32
  let rc : Nat × Nat := match specDir sp with
    | 0 => (i, k)
    | 1 => (k, i)
    | 2 => (k, (k + i) % 32)
    | _ => (k / 32, k % 32)
  specReg sp * 1024 + rc.1 * 32 + rc.2
/-- The cells of a slice: 32 words, or 1,024 for a whole register. -/
def sliceCellsOf (sp : Spec) (off : Nat) : List Nat :=
  (List.range (if specDir sp = 3 then 1024 else 32)).map (sliceCell sp off)
/-- The words of a slice. -/
def rdSlice (x : Ctx) (sp : Spec) (off : Nat) : List W32 := (sliceCellsOf sp off).map (rdCell x.mreg)
/-- The index offset of a rel bit: i0 mod 32 (R114). -/
def relOff (x : Ctx) (rel : BitVec 1) : Nat := if rel = 1#1 then (x.arch.loopIdx 0).toNat else 0
/-- Element e of a list of words read as elements of `w` bits (R275). -/
def elem (w : Nat) (ws : List W32) (e : Nat) : Nat := bits ((ws.getD (e / (32 / w)) 0).toNat) (w * (e % (32 / w))) w
/-- The elements of a slice. -/
def elems (w : Nat) (ws : List W32) : List Nat := (List.range (ws.length * (32 / w))).map (elem w ws)
/-- The words that hold a list of `w`-bit elements, `n` words. -/
def packElems (w n : Nat) (es : List Nat) : List W32 :=
  (List.range n).map fun k =>
    BitVec.ofNat 32 ((List.range (32 / w)).foldl (fun acc j => acc + (es.getD (k * (32 / w) + j) 0 % 2 ^ w) * 2 ^ (w * j)) 0)
/-- Whole words written to cells. -/
def fullWords (cells : List Nat) (ws : List W32) : List (Nat × W32 × W32) := (cells.zip ws).map fun p => (p.1, p.2, 0xFFFFFFFF#32)
/-- Some elements written: each element with its value, the other bits masked out (R277). -/
def partWords (cells : List Nat) (w : Nat) (es : List (Nat × Nat)) : List (Nat × W32 × W32) :=
  es.map fun p =>
    let sh := w * (p.1 % (32 / w))
    (cells.getD (p.1 / (32 / w)) 0, BitVec.ofNat 32 (p.2 % 2 ^ w * 2 ^ sh), BitVec.ofNat 32 ((2 ^ w - 1) * 2 ^ sh))
/-- The float value of an element code; none for an integer type. -/
def fvOf (t : Nat) (v : Nat) : Option FV := (fmtOf t).map fun f => f.decode v
/-- A signed integer type (Table 07.16). -/
def signedTy (t : Nat) : Bool := t == 6 || t == 8 || t == 10

/-! ## Tile descriptors (Table 13.7) and layout (R229) -/

/-- BASE. -/
def tdBase (d : BitVec 256) : Nat := bits d.toNat 0 32
/-- ROWS. -/
def tdRows (d : BitVec 256) : Nat := bits d.toNat 32 16
/-- COLS. -/
def tdCols (d : BitVec 256) : Nat := bits d.toNat 48 16
/-- PITCH. -/
def tdPitch (d : BitVec 256) : Nat := bits d.toNat 64 32
/-- TYPE. -/
def tdType (d : BitVec 256) : Nat := bits d.toNat 96 8
/-- LAYOUT. -/
def tdLay (d : BitVec 256) : Nat := bits d.toNat 104 2
/-- SRC.LB. -/
def tdLB (d : BitVec 256) : Bool := d.getLsbD 106
/-- The link buffer's number. -/
def tdLBN (d : BitVec 256) : Nat := bits d.toNat 107 4
/-- BAR. -/
def tdBar (d : BitVec 256) : Nat := bits d.toNat 128 32
/-- BARV. -/
def tdBarV (d : BitVec 256) : Bool := d.getLsbD 160
/-- WPH. -/
def tdWph (d : BitVec 256) : Bool := d.getLsbD 161
/-- AUTO. -/
def tdAuto (d : BitVec 256) : Bool := d.getLsbD 162
/-- The image with WPH inverted (R299). -/
def tdFlip (d : BitVec 256) : BitVec 256 := d ^^^ BitVec.ofNat 256 (2 ^ 161)
/-- Bytes of a row. -/
def tdRowBytes (d : BitVec 256) : Nat := cdiv (tdCols d * bitsOf (tdType d)) 8
/-- One past the last byte of the last row. -/
def tdEnd (d : BitVec 256) : Nat := tdBase d + (tdRows d - 1) * tdPitch d + tdRowBytes d
/-- The limits of Table 13.7. -/
def tdOk (d : BitVec 256) : Bool :=
  tdBase d % 16 == 0 && decide (1 ≤ tdRows d) && decide (tdRows d ≤ 128) && decide (1 ≤ tdCols d) &&
  tdPitch d % 16 == 0 && decide (cdiv (tdRowBytes d) 16 * 16 ≤ tdPitch d) && decide (tdType d ≤ 14) &&
  tdLay d != 3 && !d.getLsbD 111 && bits d.toNat 112 16 == 0 && bits d.toNat 163 5 == 0 && bits d.toNat 168 88 == 0 &&
  tdBar d % 16 == 0 && (!tdBarV d || decide (tdBar d < csSize)) &&
  decide (tdEnd d ≤ (if tdLB d then 0x10000 else csSize))
/-- The store that a tile lies in: the core store, or the die's link buffer. -/
def tileMem (s : State) (k : CoreId) (d : BitVec 256) : Cells 8 :=
  if tdLB d then ((s.die k.die).lbs[(Fin.ofNat 16 (tdLBN d)).val]).bytes else (s.core k).store
/-- The byte of a tile at row r, offset b. -/
def tileByte (m : Cells 8) (d : BitVec 256) (r b : Nat) : Nat :=
  (rdCell m (tdBase d + r * tdPitch d + swz (tdLay d) r b)).toNat
/-- Element (r, c) of a tile. -/
def tileElem (m : Cells 8) (d : BitVec 256) (r c : Nat) : Nat :=
  let w := bitsOf (tdType d)
  if w = 4 then bits (tileByte m d r (c / 2)) (4 * (c % 2)) 4
  else (List.range (w / 8)).foldl (fun acc i => acc + tileByte m d r (c * (w / 8) + i) * 2 ^ (8 * i)) 0

/-! ## Remote-operation descriptors (Table 25.4) -/

/-- LADDR, RADDR and OPND of a descriptor (Table 25.4). -/
def ropL (d : BitVec 256) : Nat := bits d.toNat 0 64
/-- RADDR. -/
def ropR (d : BitVec 256) : Nat := bits d.toNat 64 64
/-- LKIND. -/
def ropLK (d : BitVec 256) : Bool := d.getLsbD 185
/-- RKIND. -/
def ropRK (d : BitVec 256) : Nat := bits d.toNat 186 2
/-- LFV. -/
def ropLfv (d : BitVec 256) : Bool := d.getLsbD 184
/-- LFLAG. -/
def ropLflag (d : BitVec 256) : Nat := bits d.toNat 174 10
/-- RFLAG. -/
def ropRflag (d : BitVec 256) : Nat := bits d.toNat 164 10
/-- RDIE. -/
def ropDie (d : BitVec 256) : BitVec 12 := d.extractLsb' 152 12
/-- RCORE. -/
def ropCore (d : BitVec 256) : Fin 16 := Fin.ofNat 16 (bits d.toNat 148 4)
/-- LEN. -/
def ropLen (d : BitVec 256) : Nat := bits d.toNat 128 20
/-- OPND. -/
def ropOpnd (d : BitVec 256) : Nat := bits d.toNat 192 64
/-- The element bytes of RAMO. -/
def ropSize (d : BitVec 256) : Nat := if (ropLen d).testBit 7 then 8 else 4
/-- Bytes that an operation moves at its remote side. -/
def ropBytes (k : RopKind) (d : BitVec 256) : Nat := if k = .ramo then ropSize d else ropLen d
/-- The remote address as the operation uses it: the element of a RAMO is aligned (R205, R213). -/
def ropAddr (k : RopKind) (d : BitVec 256) : Nat := if k = .ramo then alignDown (ropR d) (ropSize d) else ropR d

/-! ## Locations (R254, R260) -/

/-- Locations of core-store bytes as keys beside the device-physical addresses. -/
def coreCells (k : CoreId) (a n : Nat) : List Nat := (List.range n).map fun i => 2 ^ 50 + coreNo k.die k.core * 2 ^ 24 + a + i
/-- The location that a byte at a tenant's VA reaches, whatever page or view it goes through; a byte of a missing page is the location of its VA, which may
turn out to be any (R260). -/
def vaCell (s : State) (k : CoreId) (t : BitVec 4) (va : Nat) : Nat :=
  match translate s k t (BitVec.ofNat 64 va) with
  | some e => reach s (pteView e) (vaDpa e (BitVec.ofNat 64 va))
  | none => 2 ^ 58 + va
/-- A location is that of a missing page. -/
def cellUnknown (a : Nat) : Bool := decide (2 ^ 58 ≤ a) && decide (a < 2 ^ 59)
/-- The home scope of a location for a context (Table 15.1): of a byte of the quad's stores, of device-physical memory, of a missing page, which may lie in
the quad, and of another package. -/
def cellScope (c : CtxId) (a : Nat) : Nat := if a < 2 ^ 50 then dpaScope c a else if a < 2 ^ 59 then 2 else 5
/-- The locations of bytes at offsets of a tenant's VA. -/
def vaCells (s : State) (k : CoreId) (t : BitVec 4) (va : Nat) (l : List Nat) : List Nat := l.map fun i => vaCell s k t (va + i)
/-- The offsets of the bytes that an operation writes in the end: those of a RAMO's result are 8 (R381). -/
def sinkOffs (k : RopKind) (len : Nat) : List Nat := List.range (if k = .ramo then 8 else len)
/-- How many source bytes an operation has handed to the fabric. -/
def Rop.moved (r : Rop) : Nat := r.len - r.need.length
/-- How many bytes it has written. -/
def Rop.arrived (r : Rop) : Nat := (sinkOffs r.kind r.len).length - r.left.length
/-- A byte waits where it goes. -/
def Rop.waits (r : Rop) (i : Nat) : Bool := r.data.any fun b => b.1 == i
/-- The offsets of an operation's target bytes that have not performed; of another package's those that a GET has not got. -/
def Rop.remoteLeft (r : Rop) : List Nat :=
  if r.stage = 4 then []
  else match r.kind with
    | .put => r.left
    | .get => if r.away.isSome then r.left.filter fun i => !r.waits i else r.need
    | .ramo => if 3 ≤ r.stage then [] else List.range r.len
    | .lbsend => []
/-- The location of a target byte: of another package a core's store by its die, other memory by the package (R169). -/
def Rop.targetCell (s : State) (r : Rop) (j : Nat) : Nat :=
  let a := ropAddr r.kind r.desc + j
  match r.away, ropRK r.desc with
  | some i, 0 => 2 ^ 60 * (1 + i.toNat) + 2 ^ 56 + (ropCore r.desc).val * 2 ^ 24 + a
  | some i, _ => 2 ^ 60 * (1 + (idOf (idX i / 2) (idY i / 2) (idZ i)).toNat) + a
  | none, 0 => 2 ^ 50 + coreNo r.dest (ropCore r.desc) * 2 ^ 24 + a
  | none, _ => vaCell s ⟨r.dest, 0⟩ r.tenant a
/-- The locations of an operation's target bytes that have not performed. -/
def Rop.remoteCells (s : State) (r : Rop) : List Nat := r.remoteLeft.map (r.targetCell s)
/-- The offsets of the local bytes that an operation has still to read or write. -/
def Rop.localLeft (r : Rop) : List Nat := if r.kind = .put then r.need else r.left
/-- The non-local ones among their locations. -/
def Rop.localCells (s : State) (r : Rop) : List Nat :=
  if ropLK r.desc then vaCells s r.owner.coreId r.tenant (ropL r.desc) r.localLeft else []
/-- The bytes of its own core's store among them. -/
def Rop.storeCells (r : Rop) : List Nat := if ropLK r.desc then [] else r.localLeft.flatMap fun i => coreCells r.owner.coreId (ropL r.desc + i) 1
/-- The locations that an operation has still to write: the target of a PUT or RAMO, the local side of a GET or RAMO. -/
def Rop.toWrite (s : State) (r : Rop) : List Nat :=
  (if r.kind = .get then [] else r.remoteCells s) ++ (if r.kind = .put then [] else r.localCells s ++ r.storeCells)
/-- The locations whose bytes have still to return to the context: the local side of a PUT that is not read, and the target of a GET or RAMO until its
value has been written locally (R255, R381). -/
def Rop.toReturn (s : State) (r : Rop) : List Nat :=
  match r.kind with
  | .put => r.localCells s ++ r.storeCells
  | .get => r.left.map (r.targetCell s)
  | .ramo => (List.range r.len).map (r.targetCell s)
  | .lbsend => []
/-- The byte range of the slot of sequence q from a ring's base (R247). -/
def slotOfSeq (base slotb nslot : Nat) (q : W32) : Nat × Nat := (base + (if nslot = 0 then 0 else q.toNat % nslot * slotb), slotb)

/-! ## Object references (Table 13.5) -/

/-- The home of an object: the issuing core's store, or a location behind a handle. -/
inductive ObjHome where
  | store (a : Nat)
  | far (loc : Loc) (va : W64) (scope : Nat) (h : Fin 16)
  deriving DecidableEq, Repr
/-- Page VA of a handle: the VA of the page base, or the peer buffer's base address (R212). -/
def Handle.base (h : Handle) : Nat := if h.space = 3#2 then bits h.page.toNat 0 7 * 0x10000 else h.page.toNat * 2 ^ 16
/-- Page size of a handle. -/
def Handle.bytes (h : Handle) : Nat :=
  match h.size.toNat with
  | 0 => 2 ^ 16
  | 1 => 2 ^ 21
  | _ => 2 ^ 27
/-- Where an offset of a handle's page leads. -/
def Handle.loc (c : CtxId) (h : Handle) (off : Nat) : Loc :=
  if h.space = 3#2 then .peer (quadCore c.core (bits h.page.toNat 7 2)) (h.base + off) else .dpa (h.dpa + off)
/-- The home scope of a location (Table 15.1). -/
def locScope (c : CtxId) : Loc → Nat
  | .peer _ _ => 2
  | .dpa a => dpaScope c a
/-- Resolve an object reference (R221). A reference that fails R206 or R212 is named in TRAPADDR by the address or the page VA and offset aligned down to 16,
and only the object's own address is checked, not the second 16 bytes of a ring that lie in another buffer or past its page (DESIGN CHOICE, log 73: Table 13.5
says only that bits [3:0] are ignored). -/
def objResolve (s : State) (c : CtxId) (ref : W64) : Except Err ObjHome :=
  let n := ref.toNat
  if bits n 60 3 ≠ 0 ∨ bits n 32 24 ≠ 0 ∨ (¬ ref.getLsbD 63 ∧ bits n 56 4 ≠ 0) then .error ⟨0x11, ref⟩
  else if !ref.getLsbD 63 then
    let a := alignDown (bits n 0 32) 16
    match csCheck (s.core c.coreId) (BitVec.ofNat 64 a) with
    | some e => .error e
    | none => .ok (.store a)
  else
    let i : Fin 16 := Fin.ofNat 16 (bits n 56 4)
    let h := (s.ctx c).h[i.val]
    let off := alignDown (bits n 0 32) 16
    let va := BitVec.ofNat 64 (h.base + off)
    if !h.valid then .error ⟨0x03, BitVec.ofNat 64 i.val⟩
    else if h.space = 0#2 ∨ h.space = 2#2 then .error ⟨0x11, va⟩
    else if off ≥ h.bytes then .error ⟨0x11, va⟩
    else if !h.r ∨ !h.w ∨ h.x then .error ⟨0x11, va⟩
    else .ok (.far (h.loc c off) va (locScope c (h.loc c off)) i)

end Sys2Proof.Machine
end

