-- ==== Sys2Proof/Machine/Flags.lean ====
section
/-! DEFINITION. Flags and conditions: the flag array (R24, R223), the condition tree (R118 to R121), stage predicates (R105, R158),
and the objects that count completions: barrier objects (R235, R236) and rings (R247 to R250), as functions on their bytes. -/

namespace Sys2Proof.Machine

/-! ## The flag array -/

/-- The flag word fN of a store (R24). -/
def rdFlag (m : Cells 8) (n : Nat) : W32 := BitVec.ofNat 32 (rdLE m (4 * n) 4)
/-- Write a flag of a core (R223, R224). -/
def setFlag (c : CoreId) (n : Nat) (v : W32) (s : State) : State := csWrite c (4 * n) (toBytes 4 v.toNat) s
/-- Increment a flag of a core (R231, R381). -/
def incFlag (c : CoreId) (n : Nat) (s : State) : State := setFlag c n (rdFlag (s.core c).store n + 1) s

/-! ## Loops, stage predicates and the tree -/

/-- A code address lies in a level's body. -/
def Level.has (l : Level) (pc : W32) : Bool := decide (l.lo.toNat ≤ pc.toNat) && decide (pc.toNat ≤ l.hi.toNat)
/-- Step 2 of an issue: pop the levels whose body does not hold the bundle (R157). A trap handler outside the interrupted
bodies keeps the levels that trap entry recorded; it pops one of them only by leaving its body (R164; log 15). -/
def popOutside (a : Arch) : List Level → List Level
  | [] => []
  | l :: r =>
    if l.has a.pc then l :: r
    else if a.inh && l.kept && !(match a.hpc with
      | some p => l.has p
      | none => false) then l :: r
    else popOutside a r
/-- The active pipelined loop of a bundle (R105). -/
def activePipe (a : Arch) : Option Level :=
  match a.loops with
  | l :: _ => if l.pipelined && l.has a.pc then some l else none
  | [] => none
/-- Stage predicate spk (R158). -/
def stagePred (a : Arch) (k : Nat) : Bool :=
  match activePipe a with
  | some l => decide (k < l.s) && decide (k ≤ l.idx) && decide (l.idx - k < l.n.toNat)
  | none => false
/-- The 23 tree shapes as preorder lists, true for a test T and false for a leaf L (Table 07.15). -/
def treeShape (n : Nat) : List Bool :=
  let T := true
  let L := false
  match n with
  | 0 => [L]
  | 1 => [T, L, L]
  | 2 => [T, T, L, L, L]
  | 3 => [T, L, T, L, L]
  | 4 => [T, T, T, L, L, L, L]
  | 5 => [T, T, L, T, L, L, L]
  | 6 => [T, T, L, L, T, L, L]
  | 7 => [T, L, T, T, L, L, L]
  | 8 => [T, L, T, L, T, L, L]
  | 9 => [T, T, T, T, L, L, L, L, L]
  | 10 => [T, T, T, L, T, L, L, L, L]
  | 11 => [T, T, T, L, L, T, L, L, L]
  | 12 => [T, T, T, L, L, L, T, L, L]
  | 13 => [T, T, L, T, T, L, L, L, L]
  | 14 => [T, T, L, T, L, T, L, L, L]
  | 15 => [T, T, L, T, L, L, T, L, L]
  | 16 => [T, T, L, L, T, T, L, L, L]
  | 17 => [T, T, L, L, T, L, T, L, L]
  | 18 => [T, L, T, T, T, L, L, L, L]
  | 19 => [T, L, T, T, L, T, L, L, L]
  | 20 => [T, L, T, T, L, L, T, L, L]
  | 21 => [T, L, T, L, T, T, L, L, L]
  | 22 => [T, L, T, L, T, L, T, L, L]
  | _ => [L]
/-- skip of R120: the rest after one complete subtree, with the tests and leaves passed; `need` subtrees are left. -/
def treeSkip : List Bool → Nat → Nat → Nat → List Bool × Nat × Nat
  | [], _, nt, nl => ([], nt, nl)
  | x :: r, need, nt, nl =>
    if need = 0 then (x :: r, nt, nl)
    else if x then treeSkip r (need + 1) (nt + 1) nl
    else treeSkip r (need - 1) nt (nl + 1)
/-- The walk of R120 from a position with `tn` tests and `ln` leaves before it. -/
def treeWalk (test : Nat → Bool) : Nat → List Bool → Nat → Nat → Nat
  | 0, _, _, ln => ln
  | _ + 1, [], _, ln => ln
  | f + 1, x :: r, tn, ln =>
    if !x then ln
    else if test tn then treeWalk test f r (tn + 1) ln
    else
      let k := treeSkip r 1 0 0
      treeWalk test f k.1 (tn + 1 + k.2.1) (ln + k.2.2)
/-- The leaf taken under a truth assignment of the tests. -/
def treeLeaf (shape : Nat) (test : Nat → Bool) : Nat := treeWalk test 10 (treeShape shape) 0 0
/-- Number of tests of a shape. -/
def treeTests (shape : Nat) : Nat := ((treeShape shape).filter id).length
/-- Number of leaves of a shape. -/
def treeLeaves (shape : Nat) : Nat := ((treeShape shape).filter (!·)).length
/-- Test field n of a tree. -/
def FT.test (f : FT) (n : Nat) : BitVec 11 :=
  match n with
  | 0 => f.test0 | 1 => f.test1 | 2 => f.test2 | _ => f.test3
/-- Leaf field n of a tree. -/
def FT.leaf (f : FT) (n : Nat) : BitVec 3 :=
  match n with
  | 0 => f.leaf0 | 1 => f.leaf1 | 2 => f.leaf2 | 3 => f.leaf3 | _ => f.leaf4
/-- The flag index of a test. -/
def testIdx (t : BitVec 11) : Nat := t.toNat % 1024
/-- The truth of a test (R118): sense 0 is true on a nonzero flag word; indices from 1016 read stage predicates. -/
def testTruth (s : State) (c : CtxId) (t : BitVec 11) : Bool :=
  let i := testIdx t
  let v := if i ≥ 1016 then stagePred (s.arch c) (i - 1016) else rdFlag (csView s c) i != 0
  v != t.getLsbD 10

/-! ## Barrier objects (Table 13.10) -/

/-- The four words of a barrier object. -/
structure Bar where
  phase : W32
  expect : W32
  arrived : W32
  pending : W32
  deriving DecidableEq, Repr
/-- Read a barrier object from its 16 bytes. -/
def Bar.ofBytes (l : List Byte) : Bar :=
  let w (k : Nat) : W32 := BitVec.ofNat 32 (Machine.ofBytes ((l.drop (4 * k)).take 4))
  ⟨w 0, w 1, w 2, w 3⟩
/-- Its bytes. -/
def Bar.toBytes (b : Bar) : List Byte :=
  Machine.toBytes 4 b.phase.toNat ++ Machine.toBytes 4 b.expect.toNat ++ Machine.toBytes 4 b.arrived.toNat ++
  Machine.toBytes 4 b.pending.toNat
/-- The completion test of R236. -/
def Bar.test (b : Bar) : Bar :=
  if b.expect.toNat ≤ b.arrived.toNat ∧ b.pending = 0 then { b with phase := b.phase ^^^ 1, arrived := 0 } else b
/-- A delivery subtracts its bytes and tests (R231, R236). -/
def Bar.deliver (b : Bar) (n : Nat) : Bar := Bar.test { b with pending := b.pending - BitVec.ofNat 32 n }
/-- Deliver bytes into the object at an address of a core's store. -/
def barDeliver (c : CoreId) (a n : Nat) (s : State) : State :=
  let a := alignDown a 16
  csWrite c a ((Bar.ofBytes (rdCells (s.core c).store a 16)).deliver n).toBytes s

/-! ## Rings (Table 13.13) -/

/-- The fields of a ring descriptor that instructions use. -/
structure Ring where
  base : Nat
  slotb : Nat
  nslot : Nat
  resv : W32
  pub : W32
  rel : W32
  pmask : W32
  rmask : W32
  deriving DecidableEq, Repr
/-- Read a ring descriptor from its 32 bytes. -/
def Ring.ofBytes (l : List Byte) : Ring :=
  let w (k n : Nat) : Nat := Machine.ofBytes ((l.drop k).take n)
  ⟨w 0 4, w 4 4, w 8 2, BitVec.ofNat 32 (w 12 4), BitVec.ofNat 32 (w 16 4), BitVec.ofNat 32 (w 20 4),
   BitVec.ofNat 32 (w 24 4), BitVec.ofNat 32 (w 28 4)⟩
/-- The bytes of the counters, from offset 0x0C. -/
def Ring.counters (r : Ring) : List Byte :=
  Machine.toBytes 4 r.resv.toNat ++ Machine.toBytes 4 r.pub.toNat ++ Machine.toBytes 4 r.rel.toNat ++
  Machine.toBytes 4 r.pmask.toNat ++ Machine.toBytes 4 r.rmask.toNat
/-- "a < b" between sequence numbers (R247). -/
def seqLt (a b : W32) : Bool := decide (1 ≤ (b - a).toNat) && decide ((b - a).toNat ≤ 2 ^ 31)
/-- Shift out the leading set bits of a mask, advancing a counter (R249). -/
def advMask : Nat → W32 → W32 → W32 × W32
  | 0, m, q => (m, q)
  | f + 1, m, q => if m.getLsbD 0 then advMask f (m >>> 1) (q + 1) else (m, q)

/-! ## Updates of objects -/

/-- What an object update comes to at the object's home: it must wait, it breaks the ring protocol, or it performs with
new bytes at an offset and a result. -/
inductive ObjRes where
  | wait
  | proto
  | done (off : Nat) (bytes : List Byte) (v : W64)
  deriving DecidableEq, Repr
/-- Bytes of the object that an update needs. -/
def objBytes : ObjOp → Nat
  | .rres | .rpub _ | .rtake _ | .rrel _ => 32
  | _ => 16
/-- The update of an object given its bytes (R236, R237, R248 to R250). -/
def objStep (l : List Byte) (o : ObjOp) : ObjRes :=
  let b := Bar.ofBytes l
  let r := Ring.ofBytes l
  match o with
  | .barinit e => .done 0 (Bar.toBytes ⟨0, e, 0, 0⟩) 0
  | .barexp n => .done 0 (Bar.toBytes (Bar.test { b with pending := b.pending + n })) 0
  | .bararr n => .done 0 (Bar.toBytes (Bar.test { b with arrived := b.arrived + 1, pending := b.pending + n })) 0
  | .barwait p => if b.phase.extractLsb' 0 1 = p then .wait else .done 0 [] 0
  | .bartst => .done 0 [] (b.phase.setWidth 64)
  | .rres =>
    if r.nslot = 0 then .proto
    else if (r.resv - r.rel).toNat ≥ r.nslot ∨ (r.resv - r.pub).toNat ≥ 32 then .wait
    else .done 12 (Ring.counters { r with resv := r.resv + 1 }) (r.resv.setWidth 64)
  | .rpub q =>
    let k := (q - r.pub).toNat
    if r.nslot = 0 ∨ !((q == r.pub || seqLt r.pub q) && seqLt q r.resv) ∨ k ≥ 32 ∨ r.pmask.getLsbD k then .proto
    else
      let m := advMask 32 (r.pmask ||| (1#32 <<< k)) r.pub
      .done 12 (Ring.counters { r with pmask := m.1, pub := m.2 }) 0
  | .rtake q => if r.nslot = 0 then .proto else if seqLt q r.pub then .done 0 [] 0 else .wait
  | .rrel q =>
    let k := (q - r.rel).toNat
    if r.nslot = 0 ∨ !((q == r.rel || seqLt r.rel q) && seqLt q r.pub) ∨ k ≥ 32 ∨ r.rmask.getLsbD k then .proto
    else
      let m := advMask 32 (r.rmask ||| (1#32 <<< k)) r.rel
      .done 12 (Ring.counters { r with rmask := m.1, rel := m.2 }) 0

end Sys2Proof.Machine
end

