-- ==== Sys2Proof/Machine/Fetch.lean ====
section
/-! DEFINITION. Fetching a bundle (07 R94 to R98, R134, R421; 05 R75, R98): code words, literals, dictionary entries and the
dictionary cache, the fates of a fetch, the length and the successors of a bundle. -/

namespace Sys2Proof.Machine

/-- The code word at a byte address of a tenant, through the TLBs (R94, R332). -/
def codeWord (s : State) (c : CoreId) (t : BitVec 4) (va : Nat) : Option W16 :=
  match tlbLook s c t (BitVec.ofNat 64 va) with
  | none => none
  | some e =>
    let a := vaDpa e (BitVec.ofNat 64 va)
    some (dpaRead s (reach s (pteView e) (a + 1)) ++ dpaRead s (reach s (pteView e) a))
/-- Whether a page record serves a kernel: code pages are shared only by kernels with equal CODE, DICT and DICTN (R129). -/
def PageRec.serves (p : PageRec) (h : Hdr) : Bool := p.code == h.code && p.dict == h.dict && p.dictn == h.dictn
/-- The cause that a fetch from a page raises when its fault is not resolvable: FEATURE where a feature of the die is missing, else FETCH (R133). A page
that was scanned for a kernel with another CODE, DICT or DICTN, or that needs a feature beyond the kernel's FEATREQ, raises FETCH too (DESIGN CHOICE,
log 48: R129 only says that such pages may not be shared). -/
def pageCause (s : State) (d : Fin 4) (b : Binding) (va : Nat) : Option Byte :=
  match pageOf s b.tenant va with
  | none => none
  | some p =>
    if (p.feat &&& ~~~(s.die d).feat) != 0 then some 0x12
    else match p.refused with
      | some e => some e
      | none => if !p.serves b.hdr || (p.feat.setWidth 32 &&& ~~~b.hdr.featreq) != 0 then some 0x10 else none
/-- A cause with its TRAPADDR: the page for FEATURE, the code word's byte address for FETCH (Table 09.7). Of a literal whose continuation page was refused
both name the escape, where R134 has the fault: FEATURE the escape's page (DESIGN CHOICE, log 73: Table 09.7 says only 'byte address of the page'). -/
def fetchErr (cause : Byte) (va : Nat) : Err :=
  ⟨cause, BitVec.ofNat 64 (if cause = 0x12 then va / 2 ^ 16 * 2 ^ 16 else va)⟩
/-- What a fetch comes to. -/
inductive Fetched where
  | bundle (w : BitVec 384) (len : Nat)
  | await (va : W64)
  | miss (va : W64)
  | dict (n : Nat)
  | trap (e : Err)
  deriving DecidableEq, Repr
/-- The bits of a literal whose first word after the escape lies at a byte address (R96). -/
def literalBits (s : State) (c : CoreId) (t : BitVec 4) (va : Nat) : Option (BitVec 384) :=
  ((List.range 24).foldr (fun n acc => match acc, codeWord s c t (va + 2 * n) with
    | some v, some w => some (v * 2 ^ 16 + w.toNat)
    | _, _ => none) (some 0)).map (BitVec.ofNat 384)
/-- A page names a matrix register above the kernel's MHIGH: RANGE with the recorded index (R75). -/
def tooHigh (h : Hdr) (p : PageRec) : Option Err :=
  if p.high ≠ 0xFF ∧ (h.mhigh = 0xFF ∨ h.mhigh < p.high) then some ⟨0x06, BitVec.ofNat 64 p.high⟩ else none
/-- What stops the fetch of a dictionary entry at its pages: a page that is not mapped executable, or not for this kernel or die (R95, R133), or one
that names too high a register (R75); `at'` is the byte address of the index word, which a FETCH trap names (DESIGN CHOICE, log 73: Table 09.7 says only
'byte address of the fault'). -/
def entryStop (s : State) (c : CtxId) (at' n : Nat) : Option Fetched :=
  let x := s.ctx c
  let a := x.b.hdr.dict.toNat + 48 * n
  firstSome (fun v => match pageCause s c.die x.b v with
    | some e => some (.trap (fetchErr e (if e = 0x12 then v else at')))
    | none => match pageOf s x.b.tenant v with
      | none => some (if x.unres.contains (pageVa v) then .trap (fetchErr 0x10 at') else .await (BitVec.ofNat 64 v))
      | some p => if !p.isDict then some (.trap (fetchErr 0x10 at')) else (tooHigh x.b.hdr p).map .trap) [a, a + 47]
/-- The fetch of the bundle at a code address of a context's kernel (R75, R97, R134): on a page that is mapped, but not executable, it traps (R171), and
a task's first fetch waits for the page (R421). -/
def fetchAt (s : State) (c : CtxId) (pc : W32) : Fetched :=
  let x := s.ctx c
  let va := codeVa x.b.hdr pc
  let t := x.b.tenant
  let stop (v : Nat) : Fetched := if x.unres.contains (pageVa v) then .trap (fetchErr 0x10 va) else .await (BitVec.ofNat 64 v)
  match pageCause s c.die x.b va with
  | some e => .trap (fetchErr e va)
  | none => match pageOf s t va, placeOf s x.b pc with
    | none, _ => if (walk s t (BitVec.ofNat 64 va)).isSome && x.b.started then .trap (fetchErr 0x10 va) else stop va
    | some _, .unmapped => stop va
    | some _, .pending => (match pageCause s c.die x.b (va + 48) with
      | some e => .trap (fetchErr e va)
      | none => stop (va + 48))
    | some _, .inside => .trap ⟨0x01, pc.setWidth 64⟩
    | some p, .start => match tooHigh x.b.hdr p with
      | some e => .trap e
      | none => match codeWord s c.coreId t va with
        | none => .miss (BitVec.ofNat 64 va)
        | some w =>
          if w = 0xFFFF then (match literalBits s c.coreId t (va + 2) with
            | some b => .bundle b 25
            | none => .miss (BitVec.ofNat 64 (va + 48)))
          else match entryStop s c va w.toNat with
            | some f => f
            | none => match (s.core c.coreId).dict.find? (fun e => e.tenant == t && e.dict == x.b.hdr.dict && e.n == w.toNat) with
              | some e => .bundle e.bits 1
              | none => .dict w.toNat
/-- The length in code words of the bundle at a code address: 25 for a literal, 1 for an index (R97). The start bitmap tells which (R131, R155): the
word after an index begins a bundle; a page's last bundle is a literal where it ends on the next page. -/
def lenAt (s : State) (c : CtxId) (pc : W32) : Nat :=
  let va := codeVa (s.ctx c).b.hdr pc
  let w := va % 2 ^ 16 / 2 + 1
  match pageOf s (s.ctx c).b.tenant va with
  | some p => if (if w < 2 ^ 15 then p.starts.testBit w || p.pending == some w else p.endAt == 0) then 1 else 25
  | none => 1
/-- The sequential successor (R97). -/
def succAt (s : State) (c : CtxId) (pc : W32) : W32 := pc + BitVec.ofNat 32 (lenAt s c pc)
/-- What the walk of a loop body comes to: its last bundle, or the page and the code word that it waits for (R155). -/
inductive BodyRes where
  | last (pc : W32)
  | await (page : W64) (at' : Nat)
  deriving DecidableEq, Repr
/-- Walk the bundles of a loop body from a start address, `n` of them (R155). -/
def walkBody (s : State) (c : CtxId) (pc : W32) : Nat → BodyRes
  | 0 => .last pc
  | n + 1 =>
    let b := (s.ctx c).b
    let va := codeVa b.hdr pc
    match placeOf s b pc with
    | .start => if n = 0 then .last pc else walkBody s c (succAt s c pc) n
    | .pending => .await (BitVec.ofNat 64 (va + 48)) va
    | .inside => .await (BitVec.ofNat 64 va) va
    | .unmapped => .await (BitVec.ofNat 64 va) va
/-- The fetch of the bundle at a code address: its code words' accesses to HBM count (R195, R199). -/
def noteFetch (s : State) (c : CtxId) (u : State) : State :=
  let x := s.ctx c
  let va := codeVa x.b.hdr x.arch.pc
  noteHbm c.die ((List.range (2 * lenAt s c x.arch.pc)).filterMap fun i =>
    (tlbLook s c.coreId x.b.tenant (BitVec.ofNat 64 (va + i))).map fun e => reach s (pteView e) (vaDpa e (BitVec.ofNat 64 (va + i)))) u
/-- Fill the dictionary cache with an entry (R95, R98): 2,048 entries, the newest first. -/
def fillDict (c : CtxId) (n : Nat) (bits : BitVec 384) (s : State) : State :=
  let b := (s.ctx c).b
  s.modCore c.coreId fun k => { k with dict := (⟨b.tenant, b.hdr.dict, n, bits⟩ :: k.dict).take 2048 }
/-- The 48 bytes of dictionary entry n, none where a page is missing (R95). -/
def dictBytes (s : State) (c : CtxId) (n : Nat) : Option (BitVec 384) :=
  let b := (s.ctx c).b
  (vaRead s c.coreId b.tenant (b.hdr.dict.toNat + 48 * n) 48).map fun l => BitVec.ofNat 384 (ofBytes l)
/-- The device-physical bytes of dictionary entry n. -/
def dictCells (s : State) (c : CtxId) (n : Nat) : List Nat :=
  let b := (s.ctx c).b
  (List.range' (b.hdr.dict.toNat + 48 * n) 48).filterMap fun a =>
    (translate s c.coreId b.tenant (BitVec.ofNat 64 a)).map fun e => reach s (pteView e) (vaDpa e (BitVec.ofNat 64 a))
/-- The check of a next-bundle target (R134, R421). -/
inductive Target where
  | ok
  | bad
  | await (page : W64)
  | trap (e : Err)
  deriving DecidableEq, Repr
/-- What a branch target comes to. -/
def targetAt (s : State) (c : CtxId) (pc : W32) : Target :=
  let x := s.ctx c
  let va := codeVa x.b.hdr pc
  match pageCause s c.die x.b va with
  | some e => .trap (fetchErr e va)
  | none => match placeOf s x.b pc with
    | .start => .ok
    | .pending => .ok
    | .inside => .bad
    | .unmapped => if x.unres.contains (pageVa va) then .trap (fetchErr 0x10 va) else .await (BitVec.ofNat 64 va)

end Sys2Proof.Machine
end

