-- ==== Sys2Proof/Machine/Plan.lean ====
section
/-! DEFINITION. The plan of a slot: what one slot of a bundle reads, which destination it names, and what it comes to when its bundle tries
to issue. A meaning of a slot instruction is its plan run alone for the context in focus; a bundle runs the plans of
its executing slots together (Machine/Issue.lean). -/

namespace Sys2Proof.Machine

/-- What a slot comes to at an attempt (Table 09.1, R219, R422): it can perform, its effect before or after its stream elements are taken; it freezes the
bundle; it waits, perhaps with a first-attempt action; it waits with the results of the context landing in real time; or it finds a trap, perhaps clearing
the stored error that it raises. The functions act on the state once every slot of the bundle has been looked at. -/
inductive SlotOut where
  | go (f : State → State)
  | after (f : State → State)
  | freeze (f : State → State)
  | wait (first : Option (State → State))
  | land
  | trap (e : Err) (clear : State → State := id)

/-- A slot's plan. `srcs` pairs each operand field with its read-port consumer code (slot A's codes for slot A or B),
`mrds` are the matrix registers read, `dst` the destination code, `stalls` whether the operation stalls on a
speculative path (Table 25.11). -/
structure Plan where
  slot : Slot
  srcs : List (Nat × Code7)
  mrds : List Nat
  dst : Option Code7
  stalls : Bool
  run : Slot → CtxId → State → SlotOut

/-- TRAPLEAF.SLOT (Table 09.10). -/
def slotCode : Slot → BitVec 3
  | .a => 0 | .b => 1 | .l => 2 | .v => 3 | .m => 4 | .c => 5 | .s => 6 | .tree => 7

/-- A plan that reads and does nothing. -/
def Plan.nop (sl : Slot) : Plan := ⟨sl, [], [], none, false, fun _ _ _ => .go id⟩

/-- Physical registers that handle loads and atomics of the context will still write (R214). -/
def interlocked (s : State) (c : CtxId) : List (Fin 64) :=
  s.accesses.filterMap fun a => if a.uid = (s.ctx c).b.uid ∧ a.owner = c then a.dst else none
/-- The operand or destination code names an interlocked register. -/
def locked (s : State) (c : CtxId) (code : Code7) : Bool :=
  decide (code.toNat < 0x40) && (interlocked s c).contains (physReg (s.arch c).rot code.toNat)
/-- Physical s-registers with a fixed-latency result in flight. -/
def pendingS (x : Ctx) (r : Fin 64) : Bool :=
  x.flights.any fun f => match f.act with
    | .sreg q _ => q == r
    | _ => false
/-- A matrix register has a result in flight. -/
def pendingM (x : Ctx) (reg : Nat) : Bool :=
  x.flights.any fun f => match f.act with
    | .words ws => ws.any fun w => w.1 / 1024 == reg
    | _ => false
/-- The first operand that reads a result not yet landed, as TRAPADDR (R146): within a slot the operand fields in their order, s-registers and Hem entries
before matrix registers (DESIGN CHOICE, log 73: the rule orders only the slots). -/
def stallShort (x : Ctx) (p : Plan) : Option Err :=
  if x.arch.ckmode = 0#1 then none
  else
    let op (q : Nat × Code7) : Option Err :=
      let n := q.2.toNat
      if n < 0x40 then (if pendingS x (physReg x.arch.rot n) then some ⟨0x02, BitVec.ofNat 64 n⟩ else none)
      else if n < 0x60 then (if x.flights.any (·.hem) then some ⟨0x02, BitVec.ofNat 64 n⟩ else none)
      else none
    match firstSome op p.srcs with
    | some e => some e
    | none => firstSome (fun m => if pendingM x m then some ⟨0x02, BitVec.ofNat 64 (0x100 + m)⟩ else none) p.mrds
/-- The ports that a plan reads. -/
def Plan.ports (p : Plan) : List Nat := p.srcs.filterMap fun q => portOf q.2
/-- fence.acq holds later core-store reads until the earlier non-local reads that it names have returned, those of a PUT when its bytes have been read (R252,
R264). -/
def acqPending (s : State) (c : CtxId) : Bool :=
  (s.ctx c).acq.any fun i => s.accesses.any (fun a => a.id == i) || s.rops.any fun r => r.id == i && (r.kind != .put || !r.need.isEmpty)
/-- The bundle has been committed by a first attempt, so its checks are not made again (R422). -/
def committed (s : State) (c : CtxId) : Bool :=
  match (s.ctx c).att with
  | .none => false
  | .forced _ _ => false
  | _ => true
/-- A read of this port reads the core store. -/
def portReads (s : State) (c : CtxId) (n : Nat) : Bool :=
  let p := (s.arch c).ports[(Fin.ofNat 8 n).val]
  p.bound && !p.out
/-- The freezes of step 4 that follow from operands and destination alone: an interlocked register, an empty input stream, a stream read that
waits for a fence.acq or meets a range that a command writes, an output stream that is full or meets a range that a command uses. -/
def operandFreeze (s : State) (c : CtxId) (p : Plan) : Bool :=
  p.srcs.any (fun q => locked s c q.2) || (match p.dst with
    | some d => locked s c d || (decide (0x40 ≤ d.toNat) && decide (d.toNat < 0x48) && (portFull s c 1 (d.toNat - 0x40) || portOutBusy s c 1 (d.toNat - 0x40)))
    | none => false) ||
  p.ports.any (fun n => portEmpty s c n || portBusy s c n || portReads s c n && acqPending s c)
/-- The operation falls in the stall row of Table 25.11, by its instruction or by a window stream port. -/
def stallRow (s : State) (c : CtxId) (p : Plan) : Bool :=
  p.stalls || p.ports.any (fun n => ((s.arch c).ports[(Fin.ofNat 8 n).val]).win.isSome) ||
    (match p.dst with
     | some d => decide (0x40 ≤ d.toNat) && decide (d.toNat < 0x48) && ((s.arch c).ports[(Fin.ofNat 8 d.toNat).val]).win.isSome
     | none => false)
/-- The operation stalls on the context's speculative path. -/
def specStall (s : State) (c : CtxId) (p : Plan) : Bool := (s.ctx c).spec.isSome && stallRow s c p
/-- Take the stream elements that a plan has read. -/
def takePorts (c : CtxId) (p : Plan) (s : State) : State := forEach p.ports (portTake c) s
/-- What one slot comes to, without the scoreboard: the operand freezes, the errors of region streams, then the instruction's own
conditions. Stream elements are taken when the slot performs. In a bundle that a first attempt has committed no slot but the waiting one traps: the
checks that were made stand (R422). -/
def slotOut (p : Plan) (sl : Slot) (c : CtxId) (s : State) : SlotOut :=
  if operandFreeze s c p || specStall s c p then .freeze id
  else match (if committed s c then none else firstSome (portCheck s c) p.ports) with
    | some e => .trap e
    | none => match p.run sl c s with
      | .go f => .go fun t => takePorts c p (f t)
      | .after f => .go fun t => f (takePorts c p t)
      | .trap e f => if committed s c && sl != .c then .go (takePorts c p) else .trap e f
      | r => r
/-- One slot's plan run alone for the context in focus (steps 4 to 7 of Table 09.1 for that slot): a freeze or a
wait leaves the state as it is but for what the attempt itself does; a trap is posted at the context's pc. -/
def runAlone (p : Plan) (s : State) : State :=
  let c := s.focus
  match slotOut p p.slot c s with
  | .freeze f => f s
  | .wait none => s
  | .land => s
  | r =>
    match (if committed s c then none else stallShort (s.ctx c) p) with
    | some e => postTrap c e (s.arch c).pc (slotCode p.slot) 0 s
    | none => match r with
      | .go f => f s
      | .wait (some f) => f s
      | .trap e f => postTrap c e (s.arch c).pc (slotCode p.slot) 0 (f s)
      | _ => s

/-- The meaning of a slot instruction on its own: it always goes on. -/
def runPlan (p : Plan) (s : State) : Host.Outcome State Fault Refusal := .next (runAlone p s)

/-- A plan of slots A and B with two operands. -/
def plan2 (lat : Nat) (d x y : Code7) (f : W64 → W64 → W64) : Plan :=
  ⟨.a, [(1, x), (2, y)], [], some d, false, fun sl c s => .go (sendRes c (slotCode sl) lat d (f (readOp s c x) (readOp s c y)))⟩
/-- A plan of slots A and B with one operand. -/
def plan1 (lat : Nat) (d x : Code7) (f : W64 → W64) : Plan :=
  ⟨.a, [(1, x)], [], some d, false, fun sl c s => .go (sendRes c (slotCode sl) lat d (f (readOp s c x)))⟩

end Sys2Proof.Machine
end

