-- ==== Sys2Proof/Machine/Commands.lean ====
section
/-! DEFINITION. What the commands of the dependency table name (19 R298 to R303, R311): the chain slot, the binding and bank written, the bytes
written chunk by chunk. The meanings of the commands are in Machine/Matrix.lean. -/

namespace Sys2Proof.Machine

/-- The chain slots that a command names. -/
def cmdSlots : Instr → List (Fin 4)
  | .chbeg s _ _ _ _ _ _ => [Fin.ofNat 4 s.toNat]
  | .chblk s _ _ _ _ _ => [Fin.ofNat 4 s.toNat]
  | .chend s => [Fin.ofNat 4 s.toNat]
  | .chfin s _ _ => [Fin.ofNat 4 s.toNat]
  | .chmrg a b => [Fin.ofNat 4 a.toNat, Fin.ofNat 4 b.toNat]
  | .chst s _ => [Fin.ofNat 4 s.toNat]
  | .chld s _ _ => [Fin.ofNat 4 s.toNat]
  | .chscl s _ => [Fin.ofNat 4 s.toNat]
  | _ => []
/-- The state of a chain slot from its 1,600-byte image, with the binding that CHLD gives it (Table 19.8). -/
def chainOf (m : Cells 8) (a : Nat) (z : BitVec 4) : Chain :=
  let w (o n : Nat) : Nat := rdLE m (a + o) n
  let rows (o : Nat) : Vector W32 128 := .ofFn fun (i : Fin 128) => BitVec.ofNat 32 (w (o + 4 * i.val) 4)
  let fl := w 0 4
  { opn := fl.testBit 0 && fl.testBit 1, bound := fl.testBit 1, z := z, dual := fl.testBit 4, q := BitVec.ofNat 256 (w 0x20 32),
    tq := BitVec.ofNat 8 (w 0x18 1), nq := w 4 2, dv := w 6 2, mode := BitVec.ofNat 2 (bits fl 2 2), qp := BitVec.ofNat 32 (w 0x10 4),
    kp := BitVec.ofNat 32 (w 0x14 4), c := BitVec.ofNat 32 (w 0xC 4), bc := BitVec.ofNat 32 (w 8 4), m := rows 0x40,
    l := rows 0x240, a := rows 0x440 }
/-- The slot that a CHBEG leaves: query, binding and mask state, nothing accumulated; C is kept (R320). -/
def begun (y : Chain) (z : BitVec 4) (dual : Bool) (q : BitVec 256) (tQ mask : Nat) (x : W64) : Chain :=
  { opn := true, bound := true, z := z, dual := dual, q := q, tq := BitVec.ofNat 8 tQ, nq := tdRows q, dv := 0,
    mode := BitVec.ofNat 2 mask, qp := x.extractLsb' 0 32, kp := x.extractLsb' 32 32, c := y.c, bc := 0,
    m := .replicate 128 0xFF800000, l := .replicate 128 0, a := .replicate 128 0x3F800000 }
/-- A chain slot as a command with a given identifier will find it, as far as that is settled while older commands wait: what the last older
CHBEG leaves, what the image of the last older CHLD holds now, else the slot's state (R300, log 50). -/
def slotAhead (k : Core) (x : Ctx) (ctx : Fin 8) (before : Nat) (sl : Fin 4) : Chain :=
  let older := (k.cmds.filter fun q => q.ctx == ctx && decide (q.id < before)).reverse
  let gives (q : Cmd) : Option Chain := match q.ins with
    | .chbeg s z _ tQ dual mask _ =>
      if Fin.ofNat 4 s.toNat = sl then some (begun x.y[sl.val] z (dual == 1#1) q.imgA tQ.toNat mask.toNat q.x) else none
    | .chld s z _ => if Fin.ofNat 4 s.toNat = sl then some (chainOf k.store (alignDown q.x.toNat 64) z) else none
    | _ => none
  (firstSome gives older).getD x.y[sl.val]
/-- The binding of a chain slot as a command will find it, with its DUAL bit. -/
def slotTile (k : Core) (x : Ctx) (ctx : Fin 8) (before : Nat) (sl : Fin 4) : Option (Fin 16 × Bool) :=
  let y := slotAhead k x ctx before sl
  if y.bound then some (Fin.ofNat 16 y.z.toNat, y.dual) else none
/-- The bindings that a command names, with the DUAL bit under which it writes (R300, R311). -/
def cmdTiles (k : Core) (x : Ctx) (ctx : Fin 8) (id : Nat) (i : Instr) : List (Fin 16 × Bool) :=
  match i with
  | .mmaS z _ _ _ _ _ _ dual _ _ _ _ => [(Fin.ofNat 16 z.toNat, dual == 1#1)]
  | .mmaV z _ _ _ _ _ _ dual _ _ _ _ => [(Fin.ofNat 16 z.toNat, dual == 1#1)]
  | .mmaSg z _ _ _ _ _ _ dual _ _ _ => [(Fin.ofNat 16 z.toNat, dual == 1#1)]
  | .mmaVg z _ _ _ _ _ _ dual _ _ _ => [(Fin.ofNat 16 z.toNat, dual == 1#1)]
  | .mmaQ z _ _ _ _ _ _ dual _ _ => [(Fin.ofNat 16 z.toNat, dual == 1#1)]
  | .zzero z _ => [(Fin.ofNat 16 z.toNat, true)]
  | .chbeg _ z _ _ dual _ _ => [(Fin.ofNat 16 z.toNat, dual == 1#1)]
  | .chld _ z _ => [(Fin.ofNat 16 z.toNat, false)]
  | i => (cmdSlots i).filterMap (slotTile k x ctx id)
/-- The bindings whose tiles a command writes; CHMRG leaves its second slot's tile unchanged (R326). -/
def cmdWritesTiles (k : Core) (x : Ctx) (ctx : Fin 8) (id : Nat) (i : Instr) : List (Fin 16 × Bool) :=
  match i with
  | .chfin _ _ _ => []
  | .chend _ => []
  | .chst _ _ => []
  | .chld _ _ _ => []
  | .chscl _ _ => []
  | .chmrg a _ => (slotTile k x ctx id (Fin.ofNat 4 a.toNat)).toList
  | i => cmdTiles k x ctx id i
/-- BOTH of ZZERO. -/
def zzeroBoth : Instr → Bool
  | .zzero _ b => b == 1#1
  | _ => false
/-- The bank a DUAL bit chooses in a tile: the working bank, the visible bank, or the single bank; none for DUAL on a
single-bank tile (Table 19.6). -/
def bankOf (t : Tile) (dual : Bool) : Option Bool :=
  if t.dual then some (if dual then !t.vis else t.vis) else if dual then none else some false
/-- The bank of a tile. -/
def Tile.bank (t : Tile) (b : Bool) : Cells 32 := if b then t.bank1 else t.bank0
/-- An element of a bank; +0 outside the tile (R295). -/
def Tile.at (t : Tile) (b : Bool) (i j : Nat) : W32 := if i < t.rows ∧ j < t.cols then rdCell (t.bank b) (i * 256 + j) else 0
/-- A command of the context in the table names a binding (R308, R312). -/
def namesZ (s : State) (c : CtxId) (z : Fin 16) : Bool :=
  let k := s.core c.coreId
  k.cmds.any fun q => q.ctx == c.ctx && (cmdTiles k (s.ctx c) c.ctx q.id q.ins).any fun t => t.1 == z
/-- A VZWR to the binding is in flight (R297, R308). -/
def zwrInFlight (x : Ctx) (z : Fin 16) : Bool :=
  x.flights.any fun f => match f.act with
    | .acc y _ _ => y == z
    | _ => false
/-- A command writes a bank of a tile that a binding names (R296, Table 19.6). -/
def writesBank (k : Core) (x : Ctx) (q : Cmd) (z : Fin 16) (t : Tile) (b : Bool) : Bool :=
  (cmdWritesTiles k x q.ctx q.id q.ins).any fun w => w.1 == z && (zzeroBoth q.ins || !t.dual || bankOf t w.2 == some b)
/-- A command in the table or in flight writes the given bank of a binding (R296). -/
def bankBusy (s : State) (c : CtxId) (z : Fin 16) (b : Bool) : Bool :=
  match (s.ctx c).z[z.val] with
  | none => false
  | some t => (s.core c.coreId).cmds.any fun q => q.ctx == c.ctx && writesBank (s.core c.coreId) (s.ctx c) q z t b
/-- A command in the table or in flight writes some bank of a binding (R297). -/
def tileBusy (s : State) (c : CtxId) (z : Fin 16) : Bool := bankBusy s c z false || bankBusy s c z true
/-- The part of a run of bytes, given by its address and its bytes, that lies in a range, and what is left of it. -/
def cutRun (lo hi a : Nat) (bs : List Byte) : (Nat × List Byte) × List (Nat × List Byte) :=
  let n := lo - a
  let m := min hi (a + bs.length) - (a + n)
  ((a + n, (bs.drop n).take m), ([(a, bs.take n), (a + n + m, bs.drop (n + m))]).filter fun r => !r.2.isEmpty)
/-- A command at its engine performs the writes to a 16-byte chunk of its core's store; the rest it performs as it completes (R258, R302). -/
def Cmd.writeChunk (ch : Nat) (q : Cmd) (k : Core) : Core :=
  let mine (w : Option (Fin 16) × Nat × List Byte) : Bool := w.1.isNone && overlaps [(16 * ch, 16 * ch + 16)] w.2.1 w.2.2.length
  let cut (w : Option (Fin 16) × Nat × List Byte) := cutRun (16 * ch) (16 * ch + 16) w.2.1 w.2.2
  if q.left.isNone || !q.out.mem.any mine then k
  else
    { k with
      store := (q.out.mem.filter mine).foldl (fun m w => wrCells m (cut w).1.1 (cut w).1.2) k.store
      cmds := k.cmds.map fun p => if p.id = q.id then
          { p with out := { p.out with mem := p.out.mem.flatMap fun w => if mine w then (cut w).2.map fun r => (none, r) else [w] } } else p }
/-- An access of another core reads bytes in a range that issued commands write: of each 16-byte chunk the old bytes or the new ones, as the bit of `sel` for
the chunk says (R302). Bytes that have been read as new are so from then on (R256): the command writes them now. -/
def showChunks (sel a n : Nat) (k : Core) : Core :=
  (List.range ((a + n - 1) / 16 + 1 - a / 16)).foldl (fun k i =>
    if sel.testBit i then k.cmds.foldl (fun k q => q.writeChunk (a / 16 + i) k) k else k) k
/-- The tile of a binding as the context sees it: its held accumulator writes over the banks (R400, log 14). -/
def tileView (x : Ctx) (z : Fin 16) : Option Tile :=
  match x.z[z.val], x.spec with
  | some t, some p => some (p.held.foldl (fun t h => match h with
      | .acc y b ws => if y = z then (if b then { t with bank1 := ws.foldl (fun m w => wrCell m w.1 w.2) t.bank1 }
          else { t with bank0 := ws.foldl (fun m w => wrCell m w.1 w.2) t.bank0 }) else t
      | _ => t) t)
  | t, _ => t

end Sys2Proof.Machine
end

