-- ==== Sys2Proof/Machine/Vector.lean ====
section
/-! DEFINITION. Slot V (17): element-wise arithmetic, conversions, logic, compares to flags, reductions, moves, slides,
widening accumulate, accumulator rows. -/

namespace Sys2Proof.Machine

/-- Bits of an element of a type code. -/
def vBits (t : TypeCode) : Nat := bitsOf t.toNat
/-- The words of a slice operand under rel. -/
def vWords (s : State) (c : CtxId) (sp : Spec) (rel : BitVec 1) : List W32 := rdSlice (s.ctx c) sp (relOff (s.ctx c) rel)
/-- The elements of a slice operand under rel (R275). -/
def vElems (s : State) (c : CtxId) (w : Nat) (sp : Spec) (rel : BitVec 1) : List Nat := elems w (vWords s c sp rel)
/-- The cells of a slice operand under rel. -/
def vCells (s : State) (c : CtxId) (sp : Spec) (rel : BitVec 1) : List Nat := sliceCellsOf sp (relOff (s.ctx c) rel)
/-- Send whole words to a slice (R277). -/
def vSend (s : State) (c : CtxId) (sl : Slot) (lat : Nat) (d : Spec) (rel : BitVec 1) (ws : List W32) : SlotOut :=
  .go (sendQuiet c (slotCode sl) lat (.words (fullWords (vCells s c d rel) ws)))
/-- Send a whole slice of elements. -/
def vSendEl (s : State) (c : CtxId) (sl : Slot) (lat : Nat) (d : Spec) (rel : BitVec 1) (w : Nat) (es : List Nat) : SlotOut :=
  vSend s c sl lat d rel (packElems w 32 es)
/-- An integer element's value by the sign of its type. -/
def vInt (t : TypeCode) (x : Nat) : Int := if signedTy t.toNat then sInt x (vBits t) else x
/-- An operation on elements of type t: the float function rounded once (R46), or the integer function wrapped (R45). -/
def vArith (t : TypeCode) (ff : FV → FV → FV) (fi : Int → Int → Int) (x y : Nat) : Nat :=
  match fmtOf t.toNat with
  | some f => f.round (ff (f.decode x) (f.decode y))
  | none => wrapN (fi (vInt t x) (vInt t y)) (vBits t)
/-- x + y (R280). -/
def vAddE (t : TypeCode) : Nat → Nat → Nat := vArith t (fun x y => FV.sum [x, y]) (· + ·)
/-- x − y (R280). -/
def vSubE (t : TypeCode) : Nat → Nat → Nat := vArith t (fun x y => FV.sum [x, y.neg]) (· - ·)
/-- x · y (R280). -/
def vMulE (t : TypeCode) : Nat → Nat → Nat := vArith t FV.mul (· * ·)
/-- Minimum (R280, R51). -/
def vMinE (t : TypeCode) : Nat → Nat → Nat := vArith t FV.min2 min
/-- Maximum (R280, R51). -/
def vMaxE (t : TypeCode) : Nat → Nat → Nat := vArith t FV.max2 max
/-- old + x · y or old − x · y with one rounding (R280). -/
def vFmaE (t : TypeCode) (neg : Bool) (x y old : Nat) : Nat :=
  match fmtOf t.toNat with
  | some f =>
    let p := (f.decode x).mul (f.decode y)
    f.round (FV.sum [if neg then p.neg else p, f.decode old])
  | none => 0
/-- The latency of VADD and VSUB: float 4, integer 2 (Table 17.1). -/
def vLat (t : TypeCode) : Nat := if (fmtOf t.toNat).isSome then 4 else 2

/-- Class 3s: two slices to one, element by element. -/
def planV3 (lat : Nat) (w : Nat) (f : Nat → Nat → Nat) (d a b : Spec) (rel : BitVec 1) : Plan :=
  ⟨.v, [], [specReg a, specReg b], none, false, fun sl c s =>
    vSendEl s c sl lat d rel w (List.zipWith f (vElems s c w a rel) (vElems s c w b rel))⟩
/-- Class 3s with the old destination read. -/
def planV3d (lat : Nat) (w : Nat) (f : Nat → Nat → Nat → Nat) (d a b : Spec) (rel : BitVec 1) : Plan :=
  ⟨.v, [], [specReg d, specReg a, specReg b], none, false, fun sl c s =>
    vSendEl s c sl lat d rel w
      (List.zipWith (fun g o => g o) (List.zipWith f (vElems s c w a rel) (vElems s c w b rel)) (vElems s c w d rel))⟩
/-- Class 2s: one slice to one, as a function on the list of elements. -/
def planV2 (lat : Nat) (w : Nat) (f : List Nat → List Nat) (d a : Spec) (rel : BitVec 1) : Plan :=
  ⟨.v, [], [specReg a], none, false, fun sl c s => vSendEl s c sl lat d rel w (f (vElems s c w a rel))⟩
/-- Class .s: a slice and a scalar (R281). -/
def planVs (lat : Nat) (w : Nat) (f : Nat → Nat → Nat) (d a : Spec) (x : Code7) (rel : BitVec 1) : Plan :=
  ⟨.v, [(7, x)], [specReg a], none, false, fun sl c s =>
    vSendEl s c sl lat d rel w ((vElems s c w a rel).map fun e => f e ((readOp s c x).toNat % 2 ^ w))⟩
/-- An F32 function on each element (R282). -/
def planVf (f : FV → FV) (d a : Spec) (rel : BitVec 1) : Plan := planV2 8 32 (fun l => l.map fun e => rF32 (f (f32 e))) d a rel

/-! ## Conversions and MX blocks -/

/-- The least value of an integer type. -/
def intLo (t : Nat) : Int := if signedTy t then -(2 ^ (bitsOf t - 1) : Nat) else 0
/-- The greatest value of an integer type. -/
def intHi (t : Nat) : Int := if signedTy t then (2 ^ (bitsOf t - 1) : Nat) - 1 else (2 ^ bitsOf t : Nat) - 1
/-- CVT of R283 from source type to destination type. -/
def cvtE (src dst : Nat) (v : Nat) : Nat :=
  match fmtOf src, fmtOf dst with
  | some f, some g => g.round (f.decode v)
  | some f, none => wrapN (satInt (f.decode v).toIntRNE (intLo dst) (intHi dst)) (bitsOf dst)
  | none, some g => g.round (FV.ofInt (if signedTy src then sInt v (bitsOf src) else v))
  | none, none => v
/-- Quantise one element under scale X (R284). -/
def qntE (t : Nat) (xs : Nat) (v : Nat) : Nat :=
  if xs = 0xFF then 0
  else
    let y := (f32 v).scale (127 - (xs : Int))
    match fmtOf t with
    | some f => f.round y
    | none =>
      let w := mxWidth t
      wrapN (satInt (y.scale ((w : Int) - 2)).toIntRNE (-(2 ^ (w - 1) : Nat)) ((2 ^ (w - 1) : Nat) - 1)) (bitsOf t)
/-- The exact value of an MX element under scale X (R43, R44). -/
def mxVal (t : Nat) (xs : Nat) (v : Nat) : FV :=
  if xs = 0xFF then .nan
  else
    (match fmtOf t with
     | some f => f.decode v
     | none => (FV.ofInt (sInt v (mxWidth t))).scale (2 - (mxWidth t : Int))).scale ((xs : Int) - 127)

/-! ## Compares and reductions -/

/-- The condition cc of Table 17.3 on two 32-bit elements. -/
def vCond (t : TypeCode) (cc : Nat) (x y : Nat) : Bool :=
  let o : Option Ordering :=
    if t = 0 then FV.cmp (f32 x) (f32 y) else some (compare (vInt t x) (vInt t y))
  match cc with
  | 0 => o == some .eq
  | 1 => o != some .eq
  | 2 => o == some .lt
  | 3 => o == some .lt || o == some .eq
  | 4 => o == some .gt
  | 5 => o == some .gt || o == some .eq
  | _ => o == none
/-- Plan of a VCMP: 32 flags from 4 · fb, 2 cycles after issue (R287, R288). Flags that lie in a busy range of a command freeze it at issue, as they do any
store of a bundle (R272, R302; DESIGN CHOICE, log 73: R278 names only VZRD and VZWR as freezing on their own account). -/
def planVcmp (cc : Nat) (t : TypeCode) (fb : BitVec 8) (x y : Spec) (rel : BitVec 1) : Plan :=
  ⟨.v, [], [specReg x, specReg y], none, false, fun sl c s =>
    let bs := List.zipWith (vCond t cc) (vElems s c 32 x rel) (vElems s c 32 y rel)
    let v := (List.range 32).foldl (fun acc j => acc + (if bs.getD j false then 2 ^ j else 0)) 0
    if busyAny (s.core c.coreId) (16 * fb.toNat) 128 then .freeze id
    else .go (sendQuiet c (slotCode sl) 2 (.flags (4 * fb.toNat) (BitVec.ofNat 32 v)))⟩
/-- The sum of 32 elements (R289, R54). -/
def redSum (t : TypeCode) (l : List Nat) : Nat :=
  if t = 0 then rF32 (FV.sum (l.map f32)) else l.foldl (· + ·) 0 % 2 ^ 32
/-- A reduction by an operation on two elements. -/
def redBy (f : Nat → Nat → Nat) : List Nat → Nat
  | [] => 0
  | a :: r => r.foldl f a
/-- Plan of a reduction: the value in every element of the destination (R289). -/
def planVred (f : List Nat → Nat) (d a : Spec) (rel : BitVec 1) : Plan := planV2 6 32 (fun l => List.replicate 32 (f l)) d a rel

/-! ## Row pairs and accumulator rows -/

/-- The 64 cells of the row pair r and (r + 1) mod 32 of a register (R292). -/
def pairCells (sp : Spec) (off : Nat) : List Nat :=
  let r := (specIdx sp + off) % 32
  (List.range 64).map fun e => specReg sp * 1024 + (r + e / 32) % 32 * 32 + e % 32
/-- One VMACW element (R292). -/
def macwE (t : TypeCode) (a b acc : Nat) : Nat :=
  if t = 8 then wrapN (sInt acc 32 + sInt a 16 * sInt b 16) 32
  else rF32 (FV.sum [(FFmt.decode .bf16 a).mul (FFmt.decode .bf16 b), f32 acc])
/-- One VNAR element (R293). -/
def narE (t : TypeCode) (s : Nat) (x : Nat) : Nat :=
  let i := sInt x 32
  let v : Int := if s > 0 then (i + (2 ^ (s - 1) : Nat)) / (2 ^ s : Nat) else i
  wrapN (if t = 8 then sat16 v else clampI v 0 65535) 16
/-- The tile row of an accumulator reference (R294). -/
def tileRow (s : State) (c : CtxId) (rho : BitVec 7) (rel : BitVec 1) : Nat :=
  (rho.toNat + (if rel = 1#1 then ((s.arch c).loopIdx 0).toNat else 0)) % 128
/-- The 32 words of a row group of a bank, +0 outside the tile or from an unbound binding (R295). -/
def zRow (s : State) (c : CtxId) (z : Fin 16) (bank : Tile → Bool) (r g : Nat) : List W32 :=
  match tileView (s.ctx c) z with
  | none => List.replicate 32 0
  | some t => (List.range 32).map fun j => t.at (bank t) r (32 * g + j)

/-- Plan of NOP_V: V-slot no-operation. (R100) -/
def planNopV : Plan := Plan.nop .v
/-- NOP_V (R100). -/
def execNopV (s : State) : Host.Outcome State Fault Refusal := runPlan (planNopV) s

/-- Plan of VADD: Element-wise add of two slices. (R280) -/
def planVadd (t : BitVec 4) (d : Spec) (a : Spec) (b : Spec) (rel : BitVec 1) : Plan := planV3 (vLat t) (vBits t) (vAddE t) d a b rel
/-- VADD (R280). -/
def execVadd (t : BitVec 4) (d : Spec) (a : Spec) (b : Spec) (rel : BitVec 1) (s : State) : Host.Outcome State Fault Refusal := runPlan (planVadd t d a b rel) s

/-- Plan of VSUB: Element-wise subtract. (R280) -/
def planVsub (t : BitVec 4) (d : Spec) (a : Spec) (b : Spec) (rel : BitVec 1) : Plan := planV3 (vLat t) (vBits t) (vSubE t) d a b rel
/-- VSUB (R280). -/
def execVsub (t : BitVec 4) (d : Spec) (a : Spec) (b : Spec) (rel : BitVec 1) (s : State) : Host.Outcome State Fault Refusal := runPlan (planVsub t d a b rel) s

/-- Plan of VMUL: Element-wise multiply. (R280) -/
def planVmul (t : BitVec 4) (d : Spec) (a : Spec) (b : Spec) (rel : BitVec 1) : Plan := planV3 4 (vBits t) (vMulE t) d a b rel
/-- VMUL (R280). -/
def execVmul (t : BitVec 4) (d : Spec) (a : Spec) (b : Spec) (rel : BitVec 1) (s : State) : Host.Outcome State Fault Refusal := runPlan (planVmul t d a b rel) s

/-- Plan of VFMA: Element-wise fused multiply-add into d. (R280) -/
def planVfma (t : BitVec 4) (d : Spec) (a : Spec) (b : Spec) (rel : BitVec 1) : Plan := planV3d 4 (vBits t) (vFmaE t false) d a b rel
/-- VFMA (R280). -/
def execVfma (t : BitVec 4) (d : Spec) (a : Spec) (b : Spec) (rel : BitVec 1) (s : State) : Host.Outcome State Fault Refusal := runPlan (planVfma t d a b rel) s

/-- Plan of VFMS: Element-wise fused multiply-subtract from d. (R280) -/
def planVfms (t : BitVec 4) (d : Spec) (a : Spec) (b : Spec) (rel : BitVec 1) : Plan := planV3d 4 (vBits t) (vFmaE t true) d a b rel
/-- VFMS (R280). -/
def execVfms (t : BitVec 4) (d : Spec) (a : Spec) (b : Spec) (rel : BitVec 1) (s : State) : Host.Outcome State Fault Refusal := runPlan (planVfms t d a b rel) s

/-- Plan of VMIN: Element-wise minimum. (R280) -/
def planVmin (t : BitVec 4) (d : Spec) (a : Spec) (b : Spec) (rel : BitVec 1) : Plan := planV3 2 (vBits t) (vMinE t) d a b rel
/-- VMIN (R280). -/
def execVmin (t : BitVec 4) (d : Spec) (a : Spec) (b : Spec) (rel : BitVec 1) (s : State) : Host.Outcome State Fault Refusal := runPlan (planVmin t d a b rel) s

/-- Plan of VMAX: Element-wise maximum. (R280) -/
def planVmax (t : BitVec 4) (d : Spec) (a : Spec) (b : Spec) (rel : BitVec 1) : Plan := planV3 2 (vBits t) (vMaxE t) d a b rel
/-- VMAX (R280). -/
def execVmax (t : BitVec 4) (d : Spec) (a : Spec) (b : Spec) (rel : BitVec 1) (s : State) : Host.Outcome State Fault Refusal := runPlan (planVmax t d a b rel) s

/-- Plan of VABS: Element-wise absolute value. (R280) -/
def planVabs (t : BitVec 4) (d : Spec) (a : Spec) (rel : BitVec 1) : Plan := planV2 2 (vBits t) (fun l => l.map fun x => vArith t (fun v _ => v.abs) (fun i _ => i.natAbs) x 0) d a rel
/-- VABS (R280). -/
def execVabs (t : BitVec 4) (d : Spec) (a : Spec) (rel : BitVec 1) (s : State) : Host.Outcome State Fault Refusal := runPlan (planVabs t d a rel) s

/-- Plan of VNEG: Element-wise negation. (R280) -/
def planVneg (t : BitVec 4) (d : Spec) (a : Spec) (rel : BitVec 1) : Plan := planV2 2 (vBits t) (fun l => l.map fun x => vArith t (fun v _ => v.neg) (fun i _ => -i) x 0) d a rel
/-- VNEG (R280). -/
def execVneg (t : BitVec 4) (d : Spec) (a : Spec) (rel : BitVec 1) (s : State) : Host.Outcome State Fault Refusal := runPlan (planVneg t d a rel) s

/-- Plan of VADDS: Adds a scalar to every element. (R281) -/
def planVadds (t : BitVec 4) (d : Spec) (a : Spec) (x : Code7) (rel : BitVec 1) : Plan := planVs (vLat t) (vBits t) (vAddE t) d a x rel
/-- VADDS (R281). -/
def execVadds (t : BitVec 4) (d : Spec) (a : Spec) (x : Code7) (rel : BitVec 1) (s : State) : Host.Outcome State Fault Refusal := runPlan (planVadds t d a x rel) s

/-- Plan of VMULS: Multiplies every element by a scalar. (R281) -/
def planVmuls (t : BitVec 4) (d : Spec) (a : Spec) (x : Code7) (rel : BitVec 1) : Plan := planVs 4 (vBits t) (vMulE t) d a x rel
/-- VMULS (R281). -/
def execVmuls (t : BitVec 4) (d : Spec) (a : Spec) (x : Code7) (rel : BitVec 1) (s : State) : Host.Outcome State Fault Refusal := runPlan (planVmuls t d a x rel) s

/-- Plan of VFMAS: Fused multiply-add with a scalar. (R281) -/
def planVfmas (t : BitVec 4) (d : Spec) (a : Spec) (x : Code7) (rel : BitVec 1) : Plan := 
  ⟨.v, [(7, x)], [specReg d, specReg a], none, false, fun sl c s =>
    let w := vBits t
    let y := (readOp s c x).toNat % 2 ^ w
    vSendEl s c sl 4 d rel w (List.zipWith (fun e o => vFmaE t false e y o) (vElems s c w a rel) (vElems s c w d rel))⟩
/-- VFMAS (R281). -/
def execVfmas (t : BitVec 4) (d : Spec) (a : Spec) (x : Code7) (rel : BitVec 1) (s : State) : Host.Outcome State Fault Refusal := runPlan (planVfmas t d a x rel) s

/-- Plan of VEXP2: Correctly rounded 2^x per F32 element. (R282) -/
def planVexp2 (d : Spec) (a : Spec) (rel : BitVec 1) : Plan := planVf FV.exp2 d a rel
/-- VEXP2 (R282). -/
def execVexp2 (d : Spec) (a : Spec) (rel : BitVec 1) (s : State) : Host.Outcome State Fault Refusal := runPlan (planVexp2 d a rel) s

/-- Plan of VLOG2: Correctly rounded log2 x. (R282) -/
def planVlog2 (d : Spec) (a : Spec) (rel : BitVec 1) : Plan := planVf FV.log2 d a rel
/-- VLOG2 (R282). -/
def execVlog2 (d : Spec) (a : Spec) (rel : BitVec 1) (s : State) : Host.Outcome State Fault Refusal := runPlan (planVlog2 d a rel) s

/-- Plan of VRCP: Correctly rounded reciprocal. (R282) -/
def planVrcp (d : Spec) (a : Spec) (rel : BitVec 1) : Plan := planVf (fun v => FV.div (.fin false 1 0) v) d a rel
/-- VRCP (R282). -/
def execVrcp (d : Spec) (a : Spec) (rel : BitVec 1) (s : State) : Host.Outcome State Fault Refusal := runPlan (planVrcp d a rel) s

/-- Plan of VRSQ: Correctly rounded reciprocal square root. (R282) -/
def planVrsq (d : Spec) (a : Spec) (rel : BitVec 1) : Plan := planVf FV.rsqrt d a rel
/-- VRSQ (R282). -/
def execVrsq (d : Spec) (a : Spec) (rel : BitVec 1) (s : State) : Host.Outcome State Fault Refusal := runPlan (planVrsq d a rel) s

/-- Plan of VSQRT: Correctly rounded square root. (R282) -/
def planVsqrt (d : Spec) (a : Spec) (rel : BitVec 1) : Plan := planVf FV.sqrt d a rel
/-- VSQRT (R282). -/
def execVsqrt (d : Spec) (a : Spec) (rel : BitVec 1) (s : State) : Host.Outcome State Fault Refusal := runPlan (planVsqrt d a rel) s

/-- Plan of VCVT: Converts elements between F32 and another type, one part at a time. (R283) -/
def planVcvt (t : BitVec 4) (d : Spec) (a : Spec) (src : BitVec 4) (part : BitVec 3) (rel : BitVec 1) : Plan := 
  ⟨.v, [], [specReg a], none, false, fun sl c s =>
    let ws := bitsOf src.toNat
    let wd := vBits t
    let n := 1024 / max ws wd
    let p := part.toNat * n
    let es := vElems s c ws a rel
    let rd := fun e => cvtE src.toNat t.toNat (es.getD (if ws < wd then p + e else e) 0)
    .go (sendQuiet c (slotCode sl) 4 (.words
      (partWords (vCells s c d rel) wd ((List.range n).map fun e => (if wd < ws then p + e else e, rd e)))))⟩
/-- VCVT (R283). -/
def execVcvt (t : BitVec 4) (d : Spec) (a : Spec) (src : BitVec 4) (part : BitVec 3) (rel : BitVec 1) (s : State) : Host.Outcome State Fault Refusal := runPlan (planVcvt t d a src part rel) s

/-- Plan of VQNT: Quantises 32 F32 elements into one MX block under a given scale. (R284) -/
def planVqnt (t : BitVec 4) (d : Spec) (a : Spec) (x : Code7) (rel : BitVec 1) : Plan := 
  ⟨.v, [(7, x)], [specReg a], none, false, fun sl c s =>
    let v := (readOp s c x).toNat
    let w := vBits t
    let p := bits v 8 3
    let es := vElems s c 32 a rel
    .go (sendQuiet c (slotCode sl) 4 (.words (if p < 32 / w then
      partWords (vCells s c d rel) w ((List.range 32).map fun e => (32 * p + e, qntE t.toNat (bits v 0 8) (es.getD e 0)))
      else [])))⟩
/-- VQNT (R284). -/
def execVqnt (t : BitVec 4) (d : Spec) (a : Spec) (x : Code7) (rel : BitVec 1) (s : State) : Host.Outcome State Fault Refusal := runPlan (planVqnt t d a x rel) s

/-- Plan of VDQNT: Dequantises one MX block to F32. (R285) -/
def planVdqnt (t : BitVec 4) (d : Spec) (a : Spec) (x : Code7) (rel : BitVec 1) : Plan := 
  ⟨.v, [(7, x)], [specReg a], none, false, fun sl c s =>
    let v := (readOp s c x).toNat
    let w := vBits t
    let p := bits v 8 3
    let es := vElems s c w a rel
    .go (sendQuiet c (slotCode sl) 4 (.words (if p < 32 / w then
      partWords (vCells s c d rel) 32 ((List.range 32).map fun e => (e, rF32 (mxVal t.toNat (bits v 0 8) (es.getD (32 * p + e) 0))))
      else [])))⟩
/-- VDQNT (R285). -/
def execVdqnt (t : BitVec 4) (d : Spec) (a : Spec) (x : Code7) (rel : BitVec 1) (s : State) : Host.Outcome State Fault Refusal := runPlan (planVdqnt t d a x rel) s

/-- Plan of VAND: Bitwise AND of two slices. (R286) -/
def planVand (d : Spec) (a : Spec) (b : Spec) (rel : BitVec 1) : Plan := planV3 2 32 (· &&& ·) d a b rel
/-- VAND (R286). -/
def execVand (d : Spec) (a : Spec) (b : Spec) (rel : BitVec 1) (s : State) : Host.Outcome State Fault Refusal := runPlan (planVand d a b rel) s

/-- Plan of VOR: Bitwise OR of two slices. (R286) -/
def planVor (d : Spec) (a : Spec) (b : Spec) (rel : BitVec 1) : Plan := planV3 2 32 (· ||| ·) d a b rel
/-- VOR (R286). -/
def execVor (d : Spec) (a : Spec) (b : Spec) (rel : BitVec 1) (s : State) : Host.Outcome State Fault Refusal := runPlan (planVor d a b rel) s

/-- Plan of VXOR: Bitwise XOR of two slices. (R286) -/
def planVxor (d : Spec) (a : Spec) (b : Spec) (rel : BitVec 1) : Plan := planV3 2 32 (· ^^^ ·) d a b rel
/-- VXOR (R286). -/
def execVxor (d : Spec) (a : Spec) (b : Spec) (rel : BitVec 1) (s : State) : Host.Outcome State Fault Refusal := runPlan (planVxor d a b rel) s

/-- Plan of VSHL: Element-wise shift left. (R286) -/
def planVshl (t : BitVec 4) (d : Spec) (a : Spec) (b : Spec) (rel : BitVec 1) : Plan := planV3 2 (vBits t) (fun x y => x * 2 ^ (y % vBits t) % 2 ^ vBits t) d a b rel
/-- VSHL (R286). -/
def execVshl (t : BitVec 4) (d : Spec) (a : Spec) (b : Spec) (rel : BitVec 1) (s : State) : Host.Outcome State Fault Refusal := runPlan (planVshl t d a b rel) s

/-- Plan of VSHR: Element-wise logical shift right. (R286) -/
def planVshr (t : BitVec 4) (d : Spec) (a : Spec) (b : Spec) (rel : BitVec 1) : Plan := planV3 2 (vBits t) (fun x y => x / 2 ^ (y % vBits t)) d a b rel
/-- VSHR (R286). -/
def execVshr (t : BitVec 4) (d : Spec) (a : Spec) (b : Spec) (rel : BitVec 1) (s : State) : Host.Outcome State Fault Refusal := runPlan (planVshr t d a b rel) s

/-- Plan of VSAR: Element-wise arithmetic shift right. (R286) -/
def planVsar (t : BitVec 4) (d : Spec) (a : Spec) (b : Spec) (rel : BitVec 1) : Plan := planV3 2 (vBits t) (fun x y => wrapN (sInt x (vBits t) / (2 ^ (y % vBits t) : Nat)) (vBits t)) d a b rel
/-- VSAR (R286). -/
def execVsar (t : BitVec 4) (d : Spec) (a : Spec) (b : Spec) (rel : BitVec 1) (s : State) : Host.Outcome State Fault Refusal := runPlan (planVsar t d a b rel) s

/-- Plan of VCMP_EQ: Writes 32 flags for element equality. (R287) -/
def planVcmpEq (t : BitVec 4) (fb : BitVec 8) (x : Spec) (y : Spec) (rel : BitVec 1) : Plan := planVcmp 0 t fb x y rel
/-- VCMP_EQ (R287). -/
def execVcmpEq (t : BitVec 4) (fb : BitVec 8) (x : Spec) (y : Spec) (rel : BitVec 1) (s : State) : Host.Outcome State Fault Refusal := runPlan (planVcmpEq t fb x y rel) s

/-- Plan of VCMP_NE: Writes 32 flags for element inequality. (R287) -/
def planVcmpNe (t : BitVec 4) (fb : BitVec 8) (x : Spec) (y : Spec) (rel : BitVec 1) : Plan := planVcmp 1 t fb x y rel
/-- VCMP_NE (R287). -/
def execVcmpNe (t : BitVec 4) (fb : BitVec 8) (x : Spec) (y : Spec) (rel : BitVec 1) (s : State) : Host.Outcome State Fault Refusal := runPlan (planVcmpNe t fb x y rel) s

/-- Plan of VCMP_LT: Writes 32 flags for less-than. (R287) -/
def planVcmpLt (t : BitVec 4) (fb : BitVec 8) (x : Spec) (y : Spec) (rel : BitVec 1) : Plan := planVcmp 2 t fb x y rel
/-- VCMP_LT (R287). -/
def execVcmpLt (t : BitVec 4) (fb : BitVec 8) (x : Spec) (y : Spec) (rel : BitVec 1) (s : State) : Host.Outcome State Fault Refusal := runPlan (planVcmpLt t fb x y rel) s

/-- Plan of VCMP_LE: Writes 32 flags for less-or-equal. (R287) -/
def planVcmpLe (t : BitVec 4) (fb : BitVec 8) (x : Spec) (y : Spec) (rel : BitVec 1) : Plan := planVcmp 3 t fb x y rel
/-- VCMP_LE (R287). -/
def execVcmpLe (t : BitVec 4) (fb : BitVec 8) (x : Spec) (y : Spec) (rel : BitVec 1) (s : State) : Host.Outcome State Fault Refusal := runPlan (planVcmpLe t fb x y rel) s

/-- Plan of VCMP_GT: Writes 32 flags for greater-than. (R287) -/
def planVcmpGt (t : BitVec 4) (fb : BitVec 8) (x : Spec) (y : Spec) (rel : BitVec 1) : Plan := planVcmp 4 t fb x y rel
/-- VCMP_GT (R287). -/
def execVcmpGt (t : BitVec 4) (fb : BitVec 8) (x : Spec) (y : Spec) (rel : BitVec 1) (s : State) : Host.Outcome State Fault Refusal := runPlan (planVcmpGt t fb x y rel) s

/-- Plan of VCMP_GE: Writes 32 flags for greater-or-equal. (R287) -/
def planVcmpGe (t : BitVec 4) (fb : BitVec 8) (x : Spec) (y : Spec) (rel : BitVec 1) : Plan := planVcmp 5 t fb x y rel
/-- VCMP_GE (R287). -/
def execVcmpGe (t : BitVec 4) (fb : BitVec 8) (x : Spec) (y : Spec) (rel : BitVec 1) (s : State) : Host.Outcome State Fault Refusal := runPlan (planVcmpGe t fb x y rel) s

/-- Plan of VCMP_UN: Writes 32 flags for unordered F32 pairs. (R287) -/
def planVcmpUn (t : BitVec 4) (fb : BitVec 8) (x : Spec) (y : Spec) (rel : BitVec 1) : Plan := planVcmp 6 t fb x y rel
/-- VCMP_UN (R287). -/
def execVcmpUn (t : BitVec 4) (fb : BitVec 8) (x : Spec) (y : Spec) (rel : BitVec 1) (s : State) : Host.Outcome State Fault Refusal := runPlan (planVcmpUn t fb x y rel) s

/-- Plan of VBLEND: Selects a or b per element by the old d pattern. (R286) -/
def planVblend (t : BitVec 4) (d : Spec) (a : Spec) (b : Spec) (rel : BitVec 1) : Plan := planV3d 2 (vBits t) (fun x y o => if o = 0 then y else x) d a b rel
/-- VBLEND (R286). -/
def execVblend (t : BitVec 4) (d : Spec) (a : Spec) (b : Spec) (rel : BitVec 1) (s : State) : Host.Outcome State Fault Refusal := runPlan (planVblend t d a b rel) s

/-- Plan of VREDSUM: Reduces 32 elements to their sum, rounded once, broadcast into d. (R289) -/
def planVredsum (t : BitVec 4) (d : Spec) (a : Spec) (rel : BitVec 1) : Plan := planVred (redSum t) d a rel
/-- VREDSUM (R289). -/
def execVredsum (t : BitVec 4) (d : Spec) (a : Spec) (rel : BitVec 1) (s : State) : Host.Outcome State Fault Refusal := runPlan (planVredsum t d a rel) s

/-- Plan of VREDMAX: Reduces to the maximum. (R289) -/
def planVredmax (t : BitVec 4) (d : Spec) (a : Spec) (rel : BitVec 1) : Plan := planVred (redBy (vMaxE t)) d a rel
/-- VREDMAX (R289). -/
def execVredmax (t : BitVec 4) (d : Spec) (a : Spec) (rel : BitVec 1) (s : State) : Host.Outcome State Fault Refusal := runPlan (planVredmax t d a rel) s

/-- Plan of VREDMIN: Reduces to the minimum. (R289) -/
def planVredmin (t : BitVec 4) (d : Spec) (a : Spec) (rel : BitVec 1) : Plan := planVred (redBy (vMinE t)) d a rel
/-- VREDMIN (R289). -/
def execVredmin (t : BitVec 4) (d : Spec) (a : Spec) (rel : BitVec 1) (s : State) : Host.Outcome State Fault Refusal := runPlan (planVredmin t d a rel) s

/-- Plan of VBCAST: Broadcasts element k to every element. (R290) -/
def planVbcast (t : BitVec 4) (d : Spec) (a : Spec) (k : BitVec 8) (rel : BitVec 1) : Plan := planV2 2 (vBits t) (fun l => List.replicate (1024 / vBits t) (l.getD k.toNat 0)) d a rel
/-- VBCAST (R290). -/
def execVbcast (t : BitVec 4) (d : Spec) (a : Spec) (k : BitVec 8) (rel : BitVec 1) (s : State) : Host.Outcome State Fault Refusal := runPlan (planVbcast t d a k rel) s

/-- Plan of VMOV: Copies a slice or a whole register. (R290) -/
def planVmov (d : Spec) (a : Spec) (rel : BitVec 1) : Plan := ⟨.v, [], [specReg a], none, false, fun sl c s => vSend s c sl 2 d rel (vWords s c a rel)⟩
/-- VMOV (R290). -/
def execVmov (d : Spec) (a : Spec) (rel : BitVec 1) (s : State) : Host.Outcome State Fault Refusal := runPlan (planVmov d a rel) s

/-- Plan of VSLIDE: Moves elements by a signed count, filling with zero. (R291) -/
def planVslide (t : BitVec 4) (d : Spec) (a : Spec) (sh : BitVec 9) (rel : BitVec 1) : Plan := 
  planV2 2 (vBits t) (fun l => (List.range (1024 / vBits t)).map fun (e : Nat) =>
    let i : Int := (e : Int) - sInt sh.toNat 9
    if i < 0 then 0 else l.getD i.toNat 0) d a rel
/-- VSLIDE (R291). -/
def execVslide (t : BitVec 4) (d : Spec) (a : Spec) (sh : BitVec 9) (rel : BitVec 1) (s : State) : Host.Outcome State Fault Refusal := runPlan (planVslide t d a sh rel) s

/-- Plan of VSLIDE2: Moves by one element across a pair of slices. (R291) -/
def planVslide2 (t : BitVec 4) (d : Spec) (a : Spec) (b : Spec) (rel : BitVec 1) : Plan := 
  ⟨.v, [], [specReg a, specReg b], none, false, fun sl c s =>
    let w := vBits t
    let n := 1024 / w
    vSendEl s c sl 2 d rel w ((vElems s c w b rel).getD (n - 1) 0 :: (vElems s c w a rel).take (n - 1))⟩
/-- VSLIDE2 (R291). -/
def execVslide2 (t : BitVec 4) (d : Spec) (a : Spec) (b : Spec) (rel : BitVec 1) (s : State) : Host.Outcome State Fault Refusal := runPlan (planVslide2 t d a b rel) s

/-- Plan of VMACW: Widening multiply-accumulate into a 32-bit row pair. (R292) -/
def planVmacw (t : BitVec 4) (d : Spec) (a : Spec) (b : Spec) (rel : BitVec 1) : Plan := 
  ⟨.v, [], [specReg d, specReg a, specReg b], none, false, fun sl c s =>
    let cells := pairCells d (relOff (s.ctx c) rel)
    let acc := cells.map fun k => (rdCell (s.ctx c).mreg k).toNat
    let ab := List.zipWith (macwE t) (vElems s c 16 a rel) (vElems s c 16 b rel)
    .go (sendQuiet c (slotCode sl) 4 (.words (fullWords cells (List.zipWith (fun f o => BitVec.ofNat 32 (f o)) ab acc))))⟩
/-- VMACW (R292). -/
def execVmacw (t : BitVec 4) (d : Spec) (a : Spec) (b : Spec) (rel : BitVec 1) (s : State) : Host.Outcome State Fault Refusal := runPlan (planVmacw t d a b rel) s

/-- Plan of VNAR: Rounds, shifts and saturates a row pair into 16-bit elements. (R293) -/
def planVnar (t : BitVec 4) (d : Spec) (a : Spec) (sh : BitVec 5) (rel : BitVec 1) : Plan := 
  ⟨.v, [], [specReg a], none, false, fun sl c s =>
    let xs := (pairCells a (relOff (s.ctx c) rel)).map fun k => (rdCell (s.ctx c).mreg k).toNat
    vSendEl s c sl 3 d rel 16 (xs.map (narE t sh.toNat))⟩
/-- VNAR (R293). -/
def execVnar (t : BitVec 4) (d : Spec) (a : Spec) (sh : BitVec 5) (rel : BitVec 1) (s : State) : Host.Outcome State Fault Refusal := runPlan (planVnar t d a sh rel) s

/-- Plan of VPERM: Permutes elements by an index slice. (R286) -/
def planVperm (t : BitVec 4) (d : Spec) (a : Spec) (b : Spec) (rel : BitVec 1) : Plan := 
  ⟨.v, [], [specReg a, specReg b], none, false, fun sl c s =>
    let w := vBits t
    let x := vElems s c w a rel
    vSendEl s c sl 2 d rel w ((vElems s c w b rel).map fun i => x.getD (i % (1024 / w)) 0)⟩
/-- VPERM (R286). -/
def execVperm (t : BitVec 4) (d : Spec) (a : Spec) (b : Spec) (rel : BitVec 1) (s : State) : Host.Outcome State Fault Refusal := runPlan (planVperm t d a b rel) s

/-- Plan of VZRD: Reads 32 columns of the visible accumulator bank into a slice. (R296) -/
def planVzrd (d : Spec) (z : BitVec 4) (rho : Code7) (g : BitVec 3) (rel : BitVec 1) : Plan := 
  ⟨.v, [], [], none, false, fun sl c s =>
    let zz : Fin 16 := Fin.ofNat 16 z.toNat
    let vis := match (s.ctx c).z[zz.val] with
      | some t => t.dual && t.vis
      | none => false
    if bankBusy s c zz vis then .freeze id
    else vSend s c sl 6 d rel (zRow s c zz (fun t => t.dual && t.vis) (tileRow s c rho rel) g.toNat)⟩
/-- VZRD (R296). -/
def execVzrd (d : Spec) (z : BitVec 4) (rho : Code7) (g : BitVec 3) (rel : BitVec 1) (s : State) : Host.Outcome State Fault Refusal := runPlan (planVzrd d z rho g rel) s

/-- Plan of VZWR: Writes a slice into 32 columns of an accumulator row. (R297) -/
def planVzwr (d : Spec) (z : BitVec 4) (rho : Code7) (g : BitVec 3) (rel : BitVec 1) : Plan := 
  ⟨.v, [], [specReg d], none, false, fun sl c s =>
    let zz : Fin 16 := Fin.ofNat 16 z.toNat
    if tileBusy s c zz then .freeze id
    else
      let r := tileRow s c rho rel
      match (s.ctx c).z[zz.val] with
      | none => .go (sendQuiet c (slotCode sl) 6 (.acc zz false []))
      | some t =>
        let ws := (List.range 32).zip (vWords s c d rel)
        let es := ws.filterMap fun p =>
          if r < t.rows ∧ 32 * g.toNat + p.1 < t.cols then some (r * 256 + 32 * g.toNat + p.1, p.2) else none
        .go (sendQuiet c (slotCode sl) 6 (.acc zz (t.dual && !t.vis) es))⟩
/-- VZWR (R297). -/
def execVzwr (d : Spec) (z : BitVec 4) (rho : Code7) (g : BitVec 3) (rel : BitVec 1) (s : State) : Host.Outcome State Fault Refusal := runPlan (planVzwr d z rho g rel) s

/-- Plan of VZERO: Zeroes a slice or register. (R290) -/
def planVzero (d : Spec) (rel : BitVec 1) : Plan := 
  ⟨.v, [], [], none, false, fun sl c s =>
    let cells := vCells s c d rel
    .go (sendQuiet c (slotCode sl) 1 (.words (fullWords cells (cells.map fun _ => 0))))⟩
/-- VZERO (R290). -/
def execVzero (d : Spec) (rel : BitVec 1) (s : State) : Host.Outcome State Fault Refusal := runPlan (planVzero d rel) s

/-- Plan of VIOTA: Writes each element's index. (R290) -/
def planViota (t : BitVec 4) (d : Spec) (rel : BitVec 1) : Plan := 
  ⟨.v, [], [], none, false, fun sl c s =>
    vSendEl s c sl 1 d rel (vBits t) ((List.range (1024 / vBits t)).map fun (e : Nat) =>
      if t = 0 then rF32 (FV.ofInt (e : Int)) else e % 2 ^ vBits t)⟩
/-- VIOTA (R290). -/
def execViota (t : BitVec 4) (d : Spec) (rel : BitVec 1) (s : State) : Host.Outcome State Fault Refusal := runPlan (planViota t d rel) s

end Sys2Proof.Machine
end

