-- ==== Sys2Proof/Machine/Arrays.lean ====
section
/-! DEFINITION. The arithmetic of the arrays and of the Cuff (03 R52 to R63), the values that cross the array edges (R39, R40, R313,
R314), and what each matrix or chain command computes from its captured operands (19 R313 to R327). -/

namespace Sys2Proof.Machine

/-! ## Rounding points of the arrays -/

/-- The rate g of a type pair, as products summed with one rounding (R306, R55). -/
def pairRate (a b : Nat) : Nat :=
  if a = 5 ∨ b = 5 then 8
  else if (a = 3 ∨ a = 4) then 4
  else if mxWidth a = 0 then 1
  else
    let w := mxWidth a + mxWidth b
    if w = 8 then 4 else if w = 10 then 3 else if w = 12 then 2 else 1
/-- T(K): cycles that K products take (R328). -/
def pairCycles (a b k : Nat) : Nat := if a = 2 then 2 * k else cdiv k (pairRate a b)
/-- Cut a list into pieces of `g`; `fuel` bounds their number. -/
def pieces {α : Type} (g : Nat) : Nat → List α → List (List α)
  | 0, _ => []
  | _ + 1, [] => []
  | f + 1, a :: r => (a :: r).take g :: pieces g f ((a :: r).drop g)
/-- One group added to the partial with one rounding (R53, R54). -/
def groupSum (p : Nat) (ts : List FV) : Nat := rF32 (FV.sum (f32 p :: ts))
/-- A zero of either sign as +0: the integer sum of R56 has one zero. -/
def plusZero : FV → FV
  | .fin _ 0 _ => .fin false 0 0
  | v => v
/-- One MX integer block added to the partial with one rounding (R56). -/
def blockSum (p : Nat) (ts : List FV) : Nat := rF32 (FV.sum [f32 p, plusZero (FV.sum ts)])
/-- The products of one output element added to the partial p (R53, R55, R56). -/
def accSum (a b : Nat) (p : Nat) (ts : List FV) : Nat :=
  if mxWidth a ≠ 0 then (pieces 32 ts.length ts).foldl blockSum p
  else (pieces (pairRate a b) ts.length ts).foldl groupSum p

/-! ## Edges -/

/-- An edge's extra value (Table 03.4). -/
def exvVal (b : Nat) : FV :=
  if b.testBit 7 then .fin (b.testBit 6) (if b.testBit 5 then 3 else 2) (sInt b 5 - 1) else .fin true 0 0
/-- The value of an element at an array edge with extra value byte `x` (R39, R44). -/
def edgeVal (t x v : Nat) : FV :=
  if t = 5 ∧ v = 8 then exvVal x
  else match fmtOf t with
    | some f => f.decode v
    | none => (FV.ofInt (sInt v (mxWidth t))).scale (2 - (mxWidth t : Int))
/-- Multiply by an edge's per-tensor factor (R317). -/
def tFactor (b : BitVec 9) (v : FV) : FV := if b.getLsbD 8 then .nan else v.scale (sInt b.toNat 8)
/-- Multiply by an E8M0 scale (R42). -/
def e8m0 (x : Nat) (v : FV) : FV := if x = 255 then .nan else v.scale ((x : Int) - 127)
/-- Byte k of a captured EXV. -/
def exvOf (q : Cmd) (k : Nat) : Nat := bits q.exv.toNat (8 * k) 8
/-- Byte i of a captured scale latch. -/
def latchByte (q : Cmd) (k i : Nat) : Nat := bits (q.latch[(Fin.ofNat 4 k).val]).toNat (8 * i) 8
/-- An operand element as it enters edge k: decoded, block-scaled under MX, times the per-tensor factor (R52). -/
def edgeOp (q : Cmd) (k t : Nat) (scale : Option Nat) (v : Nat) : FV :=
  let x := edgeVal t (exvOf q k) v
  tFactor q.tscale[(Fin.ofNat 4 k).val] (match scale with
    | some b => e8m0 b x
    | none => x)
/-- The elements written by a matrix multiply: M × N sums of K products onto the bank or +0 (R313). -/
def mmaWords (tA tB m n k : Nat) (acc : Bool) (cur : Nat → Nat → W32) (va vb : Nat → Nat → FV) : List (Nat × W32) :=
  (List.range m).flatMap fun i => (List.range n).map fun j =>
    (i * 256 + j, BitVec.ofNat 32 (accSum tA tB (if acc then (cur i j).toNat else 0)
      ((List.range k).map fun l => (va i l).mul (vb l j))))

/-! ## The Cuff -/

/-- The max of the Cuff (R58). -/
def cMax (x y : Nat) : Nat := rF32 (FV.max2 (f32 x) (f32 y))
/-- CUFF(x + y). -/
def cAdd (x y : Nat) : Nat := cuff (FV.sum [f32 x, f32 y])
/-- CUFF(x − y). -/
def cSub (x y : Nat) : Nat := cuff (FV.sum [f32 x, (f32 y).neg])
/-- CUFF(x × y). -/
def cMul (x y : Nat) : Nat := cuff ((f32 x).mul (f32 y))
/-- −∞ in F32. -/
def negInf : Nat := 0xFF800000
/-- 1.0 in F32. -/
def oneF : Nat := 0x3F800000
/-- A maximum of +∞ becomes the canonical NaN (R61). -/
def noInf (x : Nat) : Nat := if x = 0x7F800000 then 0x7FC00000 else x
/-- The row step of R59 from M and L and the scores T: new M, A, new L and the probabilities. -/
def rowStep (m l : Nat) (ts : List Nat) : Nat × Nat × Nat × List Nat :=
  let mn := noInf (cMax m (ts.foldl cMax negInf))
  let a := if mn = negInf then oneF else expc (f32 (cSub m mn))
  let ps := ts.map fun t => if mn = negInf then 0 else expc (f32 (cSub t mn))
  (mn, a, ps.foldl cAdd (cMul l a), ps)
/-- One row of CHMRG: new M, L and the factors of the two outputs (R62). -/
def rowMerge (m1 l1 m2 l2 : Nat) : Nat × Nat × Nat × Nat :=
  let mn := noInf (cMax m1 m2)
  let a1 := if mn = negInf then oneF else expc (f32 (cSub m1 mn))
  let a2 := if mn = negInf then oneF else expc (f32 (cSub m2 mn))
  (mn, cAdd (cMul l1 a1) (cMul l2 a2), a1, a2)
/-- RNE(x × y) to F32, subnormals kept. -/
def rMul (x y : Nat) : Nat := rF32 ((f32 x).mul (f32 y))
/-- An output element of CHFIN (R63). -/
def finElem (t l o : Nat) : Nat :=
  if l = 0 then 0 else match fmtOf t with
    | some f => f.round (f32 (rF32 (FV.div (f32 o) (f32 l))))
    | none => 0

end Sys2Proof.Machine
end

