-- ==== Sys2Proof/Machine/Local.lean ====
section
/-! DEFINITION. Slot L (13 R205 to R218): core-store loads and stores, slices, handles, accesses through handles, atomics. -/

namespace Sys2Proof.Machine

/-- A core-store read of `n` bytes at an address: what stops it, or go on with the function. The check names the effective address as it was
formed, the access the bytes at the address aligned down (R205, R206). -/
def csLoadAt (s : State) (c : CtxId) (ea : W64) (a n : Nat) (k : SlotOut) : SlotOut :=
  if acqPending s c || busyWritten (s.core c.coreId) a n then .freeze id
  else if committed s c then k
  else match csCheck (s.core c.coreId) ea with
    | some e => .trap e
    | none => k
/-- A core-store read at an address that is not aligned any further. -/
def csLoad (s : State) (c : CtxId) (ea : W64) (n : Nat) (k : SlotOut) : SlotOut := csLoadAt s c ea ea.toNat n k
/-- A core-store write of a list of bytes at an effective address aligned down to a size (R205 to R207, R272). -/
def csStore (s : State) (c : CtxId) (ea : W64) (size : Nat) (bs : List Byte) : SlotOut :=
  let a := alignDown ea.toNat size
  if busyAny (s.core c.coreId) a bs.length then .freeze id
  else match (if committed s c then none else csCheck (s.core c.coreId) ea) with
    | some e => .trap e
    | none => .go (ctxWrite c none a bs)
/-- A load of `n` bytes, sign- or zero-extended, landing after 4 cycles (R207). -/
def planLd (n : Nat) (sx : Bool) (d base : Code7) (imm : BitVec 18) : Plan :=
  ⟨.l, [(5, base)], [], some d, false, fun sl c s =>
    let ea := readOp s c base + sext64 imm.toNat 18
    let a := alignDown ea.toNat n
    let v := rdLE (csView s c) a n
    csLoadAt s c ea a n (.go (sendRes c (slotCode sl) 4 d (if sx then sext64 v (8 * n) else zext64 v (8 * n))))⟩
/-- A store of the low `n` bytes in the issue cycle (R207). -/
def planSt (n : Nat) (data base : Code7) (imm : BitVec 18) : Plan :=
  ⟨.l, [(5, base), (6, data)], [], none, false, fun _ c s =>
    csStore s c (readOp s c base + sext64 imm.toNat 18) n (toBytes n (readOp s c data).toNat)⟩
/-- The handle of a page-table entry for a VA (R174, R209). -/
def handleOf (e va : W64) : Handle :=
  { valid := true, view := pteView e, r := pteR e, w := pteW e, x := pteX e, size := e.extractLsb' 55 2,
    space := BitVec.ofNat 2 (dpaSpace (pteDpa e)), page := BitVec.ofNat 32 (va.toNat / pteSize e * pteSize e / 2 ^ 16),
    dpa := pteDpa e / pteSize e * pteSize e }
/-- The handle information word (Table 11.4). -/
def handleInfo (h : Handle) : W64 :=
  BitVec.ofNat 64 ((if h.valid then 2 ^ 63 else 0) + h.view.toNat * 2 ^ 61 + (if h.r then 2 ^ 60 else 0) +
    (if h.w then 2 ^ 59 else 0) + (if h.x then 2 ^ 58 else 0) + h.size.toNat * 2 ^ 56 + h.space.toNat * 2 ^ 54 +
    h.page.toNat * 2 ^ 16)
/-- Kinds of handle access, for the permission check. -/
inductive HKind where
  | load | store | atomic
  deriving DecidableEq, Repr
/-- An atomic acts on one element of a view region (R188). -/
def oneElement (s : State) (dpa n : Nat) : Bool :=
  match regionOf s dpa with
  | some d => n == regE d
  | none => true
/-- The checks of an LH access in their order (R212): `off` is the sum of R213 as a signed number, `n` the access size. -/
def handleCheck (s : State) (c : CtxId) (n : BitVec 4) (off : W64) (size : Nat) (k : HKind) : Option Err :=
  let h := (s.ctx c).h[n.toNat]
  let va := BitVec.ofNat 64 h.base + off
  if committed s c then none
  else if !h.valid then some ⟨0x03, n.setWidth 64⟩
  else if off.toNat ≥ h.bytes then some ⟨0x11, va⟩
  else if (k != .store && !h.r) || (k != .load && (!h.w || h.x)) then some ⟨0x11, va⟩
  else if k == .atomic && h.space == 2#2 then some ⟨0x07, va⟩
  else if h.space == 0#2 && !(viewOk s (h.dpa + alignDown off.toNat size) size && (k != .atomic || oneElement s (h.dpa + alignDown off.toNat size) size)) then some ⟨0x11, va⟩
  else none
/-- The DPIT entry by which a die routes a request: its cached entry, else the master's (R173). -/
def routeOf (s : State) (d : Fin 4) (loc : Loc) : BitVec 32 :=
  match loc with
  | .dpa a =>
    if dpaSpace a ≠ 0 then 0
    else match (s.die d).dcache.find? (fun e => e.1 == a / 2 ^ 16) with
      | some e => e.2
      | none => dpitEntry s (a / 2 ^ 16)
  | .peer _ _ => 0
/-- The die's fabric caches the entry it used (R173). -/
def cacheRoute (d : Fin 4) (loc : Loc) (s : State) : State :=
  match loc with
  | .dpa a =>
    if dpaSpace a ≠ 0 then s
    else s.modDie d fun x => if x.dcache.any (fun e => e.1 == a / 2 ^ 16) then x
      else { x with dcache := (a / 2 ^ 16, dpitEntry s (a / 2 ^ 16)) :: x.dcache }
  | .peer _ _ => s
/-- The byte offsets of the locations that a load or store performs at, each on its own: elements in a view region, bytes elsewhere. Atomics and object
updates perform in one piece (R254). -/
def accessParts (s : State) (op : AccOp) (loc : Loc) (size : Nat) : List Nat :=
  let unit := match loc with
    | .dpa a => ((regionOf s a).map regE).getD 1
    | .peer _ _ => 1
  match op with
  | .load => (List.range (size / unit)).map (· * unit)
  | .store _ => (List.range (size / unit)).map (· * unit)
  | .amo _ _ | .amoc _ _ | .pref | .obj _ => []
/-- Send a non-local access of a context (R214, R255). -/
def sendAccess (c : CtxId) (op : AccOp) (loc : Loc) (view : BitVec 2) (size : Nat) (va : W64) (dst : Option (Fin 64))
    (hnd : Option (Fin 16)) (s : State) : State :=
  let f := s.fresh
  let a : Access :=
    { id := f.1, owner := c, uid := (s.ctx c).b.uid, op := op, loc := loc, view := view,
      vbase := (hnd.map fun h => ((s.ctx c).h[h.val]).base).getD 0, size := size, va := va,
      scope := locScope c loc, dst := dst, route := routeOf s c.die loc,
      left := accessParts s op loc size, performed := false, val := 0, bad := none,
      refusals := 0, hold := false, host := none, hnd := hnd, hop := .start, since := none }
  cacheRoute c.die loc { f.2 with accesses := f.2.accesses ++ [a] }
/-- Outstanding LDH, AMO and AMOC accesses of a context (R336). -/
def loadsOut (s : State) (c : CtxId) : Nat :=
  (s.accesses.filter fun a => a.owner == c && a.uid == (s.ctx c).b.uid && a.dst.isSome).length
/-- An access through a handle, by its checks (R212, R213): a load or atomic names a destination register. -/
def viaHandle (s : State) (c : CtxId) (h : BitVec 4) (off : W64) (size : Nat) (k : HKind) (op : AccOp) (d : Option Code7) : SlotOut :=
  if d.isSome && decide (loadsOut s c ≥ 16) then .freeze id
  else match handleCheck s c h off size k with
    | some e => .trap e
    | none =>
      let hd := (s.ctx c).h[h.toNat]
      let o := alignDown off.toNat size
      .go (sendAccess c op (hd.loc c o) hd.view size (BitVec.ofNat 64 hd.base + off)
        (d.map fun q => physReg (s.arch c).rot q.toNat) (some (Fin.ofNat 16 h.toNat)))
/-- The offset of LDH, STH and PREF (R213). -/
def lhOff (x : W64) (imm : BitVec 14) : W64 := x + sext64 imm.toNat 14 * 8
/-- A handle load (R214). -/
def planLdh (n : Nat) (d : Code7) (h : BitVec 4) (off : Code7) (imm : BitVec 14) : Plan :=
  ⟨.l, [(5, off)], [], some d, true, fun _ c s => viaHandle s c h (lhOff (readOp s c off) imm) n .load .load (some d)⟩
/-- A handle store (R214). -/
def planSth (n : Nat) (data : Code7) (h : BitVec 4) (off : Code7) (imm : BitVec 14) : Plan :=
  ⟨.l, [(5, off), (6, data)], [], none, true, fun _ c s =>
    viaHandle s c h (lhOff (readOp s c off) imm) n .store (.store (readOp s c data)) none⟩
/-- Element bytes of an atomic. -/
def szBytes (sz : BitVec 1) : Nat := if sz = 1#1 then 8 else 4
/-- An atomic (R216). The scope decides nothing further: an atomic performs in one step at its point of coherence (R218). -/
def planAmo (op : BitVec 4) (d : Code7) (h : BitVec 4) (off : Code7) (sz : BitVec 1) : Plan :=
  ⟨.l, [(5, off), (6, d)], [], some d, true, fun _ c s =>
    viaHandle s c h (readOp s c off) (szBytes sz) .atomic (.amo op (readOp s c d)) (some d)⟩
/-- The new element of an atomic (Table 13.3), in an element of `n` bytes. -/
def amoOp (op : Nat) (n : Nat) (old v : Nat) : Nat :=
  let w := 8 * n
  let o := old % 2 ^ w
  let d := v % 2 ^ w
  match op with
  | 0 => d
  | 1 => (o + d) % 2 ^ w
  | 2 => o &&& d
  | 3 => o ||| d
  | 4 => o ^^^ d
  | 5 => if sInt o w < sInt d w then o else d
  | 6 => if sInt o w < sInt d w then d else o
  | 7 => if o < d then o else d
  | 8 => if o < d then d else o
  | _ => rF32 (FV.sum [f32 (o % 2 ^ 32), f32 (d % 2 ^ 32)])

/-- Plan of NOP_L: L-slot no-operation. (R100) -/
def planNopL : Plan := Plan.nop .l
/-- NOP_L (R100). -/
def execNopL (s : State) : Host.Outcome State Fault Refusal := runPlan (planNopL) s

/-- Plan of LD_B: Core-store byte load, sign-extended. (R207) -/
def planLdB (d : Code7) (base : Code7) (imm : BitVec 18) : Plan := planLd 1 true d base imm
/-- LD_B (R207). -/
def execLdB (d : Code7) (base : Code7) (imm : BitVec 18) (s : State) : Host.Outcome State Fault Refusal := runPlan (planLdB d base imm) s

/-- Plan of LD_BU: Core-store byte load, zero-extended. (R207) -/
def planLdBu (d : Code7) (base : Code7) (imm : BitVec 18) : Plan := planLd 1 false d base imm
/-- LD_BU (R207). -/
def execLdBu (d : Code7) (base : Code7) (imm : BitVec 18) (s : State) : Host.Outcome State Fault Refusal := runPlan (planLdBu d base imm) s

/-- Plan of LD_H: Core-store halfword load, sign-extended. (R207) -/
def planLdH (d : Code7) (base : Code7) (imm : BitVec 18) : Plan := planLd 2 true d base imm
/-- LD_H (R207). -/
def execLdH (d : Code7) (base : Code7) (imm : BitVec 18) (s : State) : Host.Outcome State Fault Refusal := runPlan (planLdH d base imm) s

/-- Plan of LD_HU: Core-store halfword load, zero-extended. (R207) -/
def planLdHu (d : Code7) (base : Code7) (imm : BitVec 18) : Plan := planLd 2 false d base imm
/-- LD_HU (R207). -/
def execLdHu (d : Code7) (base : Code7) (imm : BitVec 18) (s : State) : Host.Outcome State Fault Refusal := runPlan (planLdHu d base imm) s

/-- Plan of LD_W: Core-store word load, sign-extended. (R207) -/
def planLdW (d : Code7) (base : Code7) (imm : BitVec 18) : Plan := planLd 4 true d base imm
/-- LD_W (R207). -/
def execLdW (d : Code7) (base : Code7) (imm : BitVec 18) (s : State) : Host.Outcome State Fault Refusal := runPlan (planLdW d base imm) s

/-- Plan of LD_WU: Core-store word load, zero-extended. (R207) -/
def planLdWu (d : Code7) (base : Code7) (imm : BitVec 18) : Plan := planLd 4 false d base imm
/-- LD_WU (R207). -/
def execLdWu (d : Code7) (base : Code7) (imm : BitVec 18) (s : State) : Host.Outcome State Fault Refusal := runPlan (planLdWu d base imm) s

/-- Plan of LD_D: Core-store doubleword load. (R207) -/
def planLdD (d : Code7) (base : Code7) (imm : BitVec 18) : Plan := planLd 8 false d base imm
/-- LD_D (R207). -/
def execLdD (d : Code7) (base : Code7) (imm : BitVec 18) (s : State) : Host.Outcome State Fault Refusal := runPlan (planLdD d base imm) s

/-- Plan of ST_B: Core-store byte store in the issue cycle. (R207) -/
def planStB (data : Code7) (base : Code7) (imm : BitVec 18) : Plan := planSt 1 data base imm
/-- ST_B (R207). -/
def execStB (data : Code7) (base : Code7) (imm : BitVec 18) (s : State) : Host.Outcome State Fault Refusal := runPlan (planStB data base imm) s

/-- Plan of ST_H: Core-store halfword store. (R207) -/
def planStH (data : Code7) (base : Code7) (imm : BitVec 18) : Plan := planSt 2 data base imm
/-- ST_H (R207). -/
def execStH (data : Code7) (base : Code7) (imm : BitVec 18) (s : State) : Host.Outcome State Fault Refusal := runPlan (planStH data base imm) s

/-- Plan of ST_W: Core-store word store; a flag write at a flag address. (R207) -/
def planStW (data : Code7) (base : Code7) (imm : BitVec 18) : Plan := planSt 4 data base imm
/-- ST_W (R207). -/
def execStW (data : Code7) (base : Code7) (imm : BitVec 18) (s : State) : Host.Outcome State Fault Refusal := runPlan (planStW data base imm) s

/-- Plan of ST_D: Core-store doubleword store. (R207) -/
def planStD (data : Code7) (base : Code7) (imm : BitVec 18) : Plan := planSt 8 data base imm
/-- ST_D (R207). -/
def execStD (data : Code7) (base : Code7) (imm : BitVec 18) (s : State) : Host.Outcome State Fault Refusal := runPlan (planStD data base imm) s

/-- Plan of LDMR: Loads 128 core-store bytes into a matrix-register slice, landing after 6 cycles. (R208) -/
def planLdmr (slc : Spec) (base : Code7) (imm : BitVec 13) : Plan := 
  ⟨.l, [(5, base)], [], none, false, fun sl c s =>
    let ea := readOp s c base + BitVec.ofNat 64 (imm.toNat * 128)
    let a := alignDown ea.toNat 128
    let ws := (List.range 32).map fun k => BitVec.ofNat 32 (rdLE (csView s c) (a + 4 * k) 4)
    csLoadAt s c ea a 128 (.go (sendQuiet c (slotCode sl) 6 (.words (fullWords (sliceCellsOf slc 0) ws))))⟩
/-- LDMR (R208). -/
def execLdmr (slc : Spec) (base : Code7) (imm : BitVec 13) (s : State) : Host.Outcome State Fault Refusal := runPlan (planLdmr slc base imm) s

/-- Plan of STMR: Stores a matrix-register slice to 128 core-store bytes. (R208) -/
def planStmr (slc : Spec) (base : Code7) (imm : BitVec 13) : Plan := 
  ⟨.l, [(5, base)], [specReg slc], none, false, fun _ c s =>
    csStore s c (readOp s c base + BitVec.ofNat 64 (imm.toNat * 128)) 128
      ((rdSlice (s.ctx c) slc 0).flatMap fun w => toBytes 4 w.toNat)⟩
/-- STMR (R208). -/
def execStmr (slc : Spec) (base : Code7) (imm : BitVec 13) (s : State) : Host.Outcome State Fault Refusal := runPlan (planStmr slc base imm) s

/-- Plan of XLAT: Translates a VA page into a handle written 24 cycles after issue. (R209) -/
def planXlat (h : BitVec 4) (off : Code7) (imm : BitVec 14) : Plan := 
  ⟨.l, [(5, off)], [], none, true, fun sl c s =>
    let va := lhOff (readOp s c off) imm
    let x := s.ctx c
    if va.toNat ≥ 2 ^ 48 then .trap ⟨0x11, va⟩
    else match tlbLook s c.coreId x.b.tenant va with
      | some e => .go (sendQuiet c (slotCode sl) 24 (.handle (Fin.ofNat 16 h.toNat) (handleOf e va)))
      | none =>
        let page := BitVec.ofNat 64 (alignDown va.toNat 0x10000)
        if x.unres.contains page then .trap ⟨0x11, va⟩
        else .freeze fun t => t.modCtx c fun x => { x with miss := some (va, .read) }⟩
/-- XLAT (R209). -/
def execXlat (h : BitVec 4) (off : Code7) (imm : BitVec 14) (s : State) : Host.Outcome State Fault Refusal := runPlan (planXlat h off imm) s

/-- Plan of HREL: Invalidates a handle. (R210) -/
def planHrel (h : BitVec 4) : Plan := 
  ⟨.l, [], [], none, true, fun _ c _ =>
    .go fun t => t.modCtx c fun x => { x with h := x.h.set h.toNat { x.h[h.toNat] with valid := false } }⟩
/-- HREL (R210). -/
def execHrel (h : BitVec 4) (s : State) : Host.Outcome State Fault Refusal := runPlan (planHrel h) s

/-- Plan of HINFO: Returns a handle's information word. (R211) -/
def planHinfo (d : Code7) (h : BitVec 4) : Plan := 
  ⟨.l, [], [], some d, true, fun sl c s => .go (sendRes c (slotCode sl) 4 d (handleInfo (s.ctx c).h[h.toNat]))⟩
/-- HINFO (R211). -/
def execHinfo (d : Code7) (h : BitVec 4) (s : State) : Host.Outcome State Fault Refusal := runPlan (planHinfo d h) s

/-- Plan of LDH_W: Word load through a handle, landing after a variable time with an interlock. (R214) -/
def planLdhW (d : Code7) (h : BitVec 4) (off : Code7) (imm : BitVec 14) : Plan := planLdh 4 d h off imm
/-- LDH_W (R214). -/
def execLdhW (d : Code7) (h : BitVec 4) (off : Code7) (imm : BitVec 14) (s : State) : Host.Outcome State Fault Refusal := runPlan (planLdhW d h off imm) s

/-- Plan of LDH_D: Doubleword load through a handle. (R214) -/
def planLdhD (d : Code7) (h : BitVec 4) (off : Code7) (imm : BitVec 14) : Plan := planLdh 8 d h off imm
/-- LDH_D (R214). -/
def execLdhD (d : Code7) (h : BitVec 4) (off : Code7) (imm : BitVec 14) (s : State) : Host.Outcome State Fault Refusal := runPlan (planLdhD d h off imm) s

/-- Plan of STH_W: Word store through a handle, sent at issue. (R214) -/
def planSthW (data : Code7) (h : BitVec 4) (off : Code7) (imm : BitVec 14) : Plan := planSth 4 data h off imm
/-- STH_W (R214). -/
def execSthW (data : Code7) (h : BitVec 4) (off : Code7) (imm : BitVec 14) (s : State) : Host.Outcome State Fault Refusal := runPlan (planSthW data h off imm) s

/-- Plan of STH_D: Doubleword store through a handle. (R214) -/
def planSthD (data : Code7) (h : BitVec 4) (off : Code7) (imm : BitVec 14) : Plan := planSth 8 data h off imm
/-- STH_D (R214). -/
def execSthD (data : Code7) (h : BitVec 4) (off : Code7) (imm : BitVec 14) (s : State) : Host.Outcome State Fault Refusal := runPlan (planSthD data h off imm) s

/-- Plan of AMO_SWAP: Atomic swap at a handle offset, returning the old element. (R216) -/
def planAmoSwap (d : Code7) (h : BitVec 4) (off : Code7) (sz : BitVec 1) (_scope : BitVec 3) : Plan := planAmo 0#4 d h off sz
/-- AMO_SWAP (R216). -/
def execAmoSwap (d : Code7) (h : BitVec 4) (off : Code7) (sz : BitVec 1) (scope : BitVec 3) (s : State) : Host.Outcome State Fault Refusal := runPlan (planAmoSwap d h off sz scope) s

/-- Plan of AMO_ADD: Atomic wrapping add. (R216) -/
def planAmoAdd (d : Code7) (h : BitVec 4) (off : Code7) (sz : BitVec 1) (_scope : BitVec 3) : Plan := planAmo 1#4 d h off sz
/-- AMO_ADD (R216). -/
def execAmoAdd (d : Code7) (h : BitVec 4) (off : Code7) (sz : BitVec 1) (scope : BitVec 3) (s : State) : Host.Outcome State Fault Refusal := runPlan (planAmoAdd d h off sz scope) s

/-- Plan of AMO_AND: Atomic AND. (R216) -/
def planAmoAnd (d : Code7) (h : BitVec 4) (off : Code7) (sz : BitVec 1) (_scope : BitVec 3) : Plan := planAmo 2#4 d h off sz
/-- AMO_AND (R216). -/
def execAmoAnd (d : Code7) (h : BitVec 4) (off : Code7) (sz : BitVec 1) (scope : BitVec 3) (s : State) : Host.Outcome State Fault Refusal := runPlan (planAmoAnd d h off sz scope) s

/-- Plan of AMO_OR: Atomic OR. (R216) -/
def planAmoOr (d : Code7) (h : BitVec 4) (off : Code7) (sz : BitVec 1) (_scope : BitVec 3) : Plan := planAmo 3#4 d h off sz
/-- AMO_OR (R216). -/
def execAmoOr (d : Code7) (h : BitVec 4) (off : Code7) (sz : BitVec 1) (scope : BitVec 3) (s : State) : Host.Outcome State Fault Refusal := runPlan (planAmoOr d h off sz scope) s

/-- Plan of AMO_XOR: Atomic XOR. (R216) -/
def planAmoXor (d : Code7) (h : BitVec 4) (off : Code7) (sz : BitVec 1) (_scope : BitVec 3) : Plan := planAmo 4#4 d h off sz
/-- AMO_XOR (R216). -/
def execAmoXor (d : Code7) (h : BitVec 4) (off : Code7) (sz : BitVec 1) (scope : BitVec 3) (s : State) : Host.Outcome State Fault Refusal := runPlan (planAmoXor d h off sz scope) s

/-- Plan of AMO_MIN: Atomic signed minimum. (R216) -/
def planAmoMin (d : Code7) (h : BitVec 4) (off : Code7) (sz : BitVec 1) (_scope : BitVec 3) : Plan := planAmo 5#4 d h off sz
/-- AMO_MIN (R216). -/
def execAmoMin (d : Code7) (h : BitVec 4) (off : Code7) (sz : BitVec 1) (scope : BitVec 3) (s : State) : Host.Outcome State Fault Refusal := runPlan (planAmoMin d h off sz scope) s

/-- Plan of AMO_MAX: Atomic signed maximum. (R216) -/
def planAmoMax (d : Code7) (h : BitVec 4) (off : Code7) (sz : BitVec 1) (_scope : BitVec 3) : Plan := planAmo 6#4 d h off sz
/-- AMO_MAX (R216). -/
def execAmoMax (d : Code7) (h : BitVec 4) (off : Code7) (sz : BitVec 1) (scope : BitVec 3) (s : State) : Host.Outcome State Fault Refusal := runPlan (planAmoMax d h off sz scope) s

/-- Plan of AMO_MINU: Atomic unsigned minimum. (R216) -/
def planAmoMinu (d : Code7) (h : BitVec 4) (off : Code7) (sz : BitVec 1) (_scope : BitVec 3) : Plan := planAmo 7#4 d h off sz
/-- AMO_MINU (R216). -/
def execAmoMinu (d : Code7) (h : BitVec 4) (off : Code7) (sz : BitVec 1) (scope : BitVec 3) (s : State) : Host.Outcome State Fault Refusal := runPlan (planAmoMinu d h off sz scope) s

/-- Plan of AMO_MAXU: Atomic unsigned maximum. (R216) -/
def planAmoMaxu (d : Code7) (h : BitVec 4) (off : Code7) (sz : BitVec 1) (_scope : BitVec 3) : Plan := planAmo 8#4 d h off sz
/-- AMO_MAXU (R216). -/
def execAmoMaxu (d : Code7) (h : BitVec 4) (off : Code7) (sz : BitVec 1) (scope : BitVec 3) (s : State) : Host.Outcome State Fault Refusal := runPlan (planAmoMaxu d h off sz scope) s

/-- Plan of AMO_FADD: Atomic F32 add, word only. (R216) -/
def planAmoFadd (d : Code7) (h : BitVec 4) (off : Code7) (sz : BitVec 1) (_scope : BitVec 3) : Plan := planAmo 9#4 d h off sz
/-- AMO_FADD (R216). -/
def execAmoFadd (d : Code7) (h : BitVec 4) (off : Code7) (sz : BitVec 1) (scope : BitVec 3) (s : State) : Host.Outcome State Fault Refusal := runPlan (planAmoFadd d h off sz scope) s

/-- Plan of AMOC: Atomic compare-and-swap returning the old element. (R217) -/
def planAmoc (d : Code7) (h : BitVec 4) (off : Code7) (sz : BitVec 1) (_scope : BitVec 3) : Plan := 
  ⟨.l, [(5, off), (6, d), (6, d + 1)], [], some d, true, fun _ c s =>
    viaHandle s c h (readOp s c off) (szBytes sz) .atomic (.amoc (readOp s c d) (readOp s c (d + 1))) (some d)⟩
/-- AMOC (R217). -/
def execAmoc (d : Code7) (h : BitVec 4) (off : Code7) (sz : BitVec 1) (scope : BitVec 3) (s : State) : Host.Outcome State Fault Refusal := runPlan (planAmoc d h off sz scope) s

/-- Plan of PREF: Opens the DRAM row and loads the granule into the memory-side cache; never traps. (R214) -/
def planPref (h : BitVec 4) (off : Code7) (imm : BitVec 14) : Plan := 
  ⟨.l, [(5, off)], [], none, false, fun _ c s =>
    let o := lhOff (readOp s c off) imm
    let hd := (s.ctx c).h[h.toNat]
    .go (if hd.valid && hd.r && hd.space == 0#2 && decide (o.toNat < hd.bytes) then
      sendAccess c .pref (hd.loc c (alignDown o.toNat 256)) hd.view 256 (BitVec.ofNat 64 hd.base + o) none (some (Fin.ofNat 16 h.toNat))
      else id)⟩
/-- PREF (R214). -/
def execPref (h : BitVec 4) (off : Code7) (imm : BitVec 14) (s : State) : Host.Outcome State Fault Refusal := runPlan (planPref h off imm) s

end Sys2Proof.Machine
end

