-- ==== Sys2Proof/Machine/Matrix.lean ====
section
/-! DEFINITION. Slots M and S and the dependency table (19): what a command captures at entry, its ranges, its readiness, the checks of
Table 19.3, what it computes, its issue and its completion; the immediate and waiting M-slot instructions; the scale slot. -/

namespace Sys2Proof.Machine

/-! ## What a command names -/

/-- The descriptor registers that a command names, each with its role: 0 A, 1 B, 2 the mask tile where it takes part (R323), 3 and 4 the scale
tiles (Table 19.4). -/
def cmdDescs (mask : Bool) : Instr → List (Nat × BitVec 4)
  | .mmaS _ dA dB _ _ _ _ _ _ src dSA dSB => [(0, dA), (1, dB)] ++ (if src = 1#1 then [(3, dSA), (4, dSB)] else [])
  | .mmaV _ dA dB _ _ _ _ _ _ src dSA dSB => [(0, dA), (1, dB)] ++ (if src = 1#1 then [(3, dSA), (4, dSB)] else [])
  | .mmaSg _ dA dB _ _ _ _ _ _ _ _ => [(0, dA), (1, dB)]
  | .mmaVg _ dA dB _ _ _ _ _ _ _ _ => [(0, dA), (1, dB)]
  | .mmaQ _ dA dB _ _ _ _ _ _ _ => [(0, dA), (1, dB)]
  | .chbeg _ _ dA _ _ _ _ => [(0, dA)]
  | .chblk _ dA dB dM _ _ => [(0, dA), (1, dB)] ++ (if mask then [(2, dM)] else [])
  | .chfin _ dA _ => [(0, dA)]
  | .cpy _ _ _ dw k => if dw = 1#1 then [(0, k)] else []
  | _ => []
/-- The captured images of the roles that a command uses. -/
def cmdImages (mask : Bool) (q : Cmd) : List (BitVec 256) :=
  (cmdDescs mask q.ins).map fun p => match p.1 with
    | 0 => q.imgA | 1 => q.imgB | 2 => q.imgM | 3 => q.imgSA | _ => q.imgSB
/-- The chain slot whose mask mode and query a command uses. -/
def blkSlot : Instr → Option (Fin 4)
  | .chblk s _ _ _ _ _ => some (Fin.ofNat 4 s.toNat)
  | _ => none
/-- The mask tile takes part for a command with a given identifier: its slot's mask mode is 2 or 3 (R323). -/
def maskUsed (k : Core) (x : Ctx) (ctx : Fin 8) (id : Nat) (i : Instr) : Bool :=
  match blkSlot i with
  | some sl => decide (2 ≤ (slotAhead k x ctx id sl).mode.toNat)
  | none => false
/-- The gather forms. -/
def isGather : Instr → Bool
  | .mmaSg _ _ _ _ _ _ _ _ _ _ _ => true
  | .mmaVg _ _ _ _ _ _ _ _ _ _ _ => true
  | _ => false
/-- Index G[e] of a gather (R315). -/
def gIdx (q : Cmd) (e : Nat) : Nat := elem 16 q.idx e
/-- The indices of the rows gathered. -/
def gRows (q : Cmd) : List Nat := (List.range (tdRows q.imgA)).map (gIdx q)
/-- The core-store range of a tile; a tile in a link buffer has none (R302). -/
def tdRange (d : BitVec 256) : List (Nat × Nat) := if tdLB d then [] else [(tdBase d, tdEnd d)]
/-- The range from the lowest gathered row to the highest (R315). -/
def gatherRange (q : Cmd) : List (Nat × Nat) :=
  let g := gRows q
  if tdLB q.imgA then []
  else [(tdBase q.imgA + g.foldl min 65535 * tdPitch q.imgA, tdBase q.imgA + g.foldl max 0 * tdPitch q.imgA + tdRowBytes q.imgA)]
/-- The bytes of the rows that a gather collects from a store (R315), at their addresses there. -/
def gatherTab (m : Cells 8) (q : Cmd) : Cells 8 :=
  (gRows q).foldl (fun t g => (List.range (tdRowBytes q.imgA)).foldl (fun t b =>
    let a := tdBase q.imgA + g * tdPitch q.imgA + swz (tdLay q.imgA) g b
    wrCell t a (rdCell m a)) t) []
/-- The range of a chain image (R327). -/
def imageRange (x : W64) : List (Nat × Nat) := [(alignDown x.toNat 64, alignDown x.toNat 64 + 1600)]
/-- The core-store ranges that a command reads (R302); a core reads only the half of a gang operand that it supplies (R316). -/
def cmdReads (core : Fin 16) (k : Core) (x : Ctx) (q : Cmd) : List (Nat × Nat) :=
  match q.ins with
  | .chfin _ _ _ => []
  | .cpy _ _ _ _ _ => []
  | .chbeg _ _ _ _ _ _ _ => []
  | .chld _ _ _ => imageRange q.x
  | .mmaQ _ _ _ _ _ _ _ _ _ _ =>
    (if core.val % 2 = 0 then tdRange q.imgA else []) ++ (if core.val % 4 < 2 then tdRange q.imgB else [])
  | .chblk s _ _ _ _ _ =>
    (cmdImages (maskUsed k x q.ctx q.id q.ins) q).flatMap tdRange ++ tdRange (slotAhead k x q.ctx q.id (Fin.ofNat 4 s.toNat)).q
  | i => if isGather i then gatherRange q ++ tdRange q.imgB else (cmdImages false q).flatMap tdRange
/-- The core-store ranges that a command writes (R302). -/
def cmdWrites (q : Cmd) : List (Nat × Nat) :=
  match q.ins with
  | .chfin _ _ _ => tdRange q.imgA
  | .chst _ _ => imageRange q.x
  | _ => []
/-- The engines of Table 19.2 that a command needs: 0 score array, 1 value array, 2 the Cuff, 3 accumulator control. -/
def cmdEngines : Instr → List (Fin 5)
  | .mmaS _ _ _ _ _ _ _ _ _ _ _ _ => [0]
  | .mmaV _ _ _ _ _ _ _ _ _ _ _ _ => [1]
  | .mmaSg _ _ _ _ _ _ _ _ _ _ _ => [0]
  | .mmaVg _ _ _ _ _ _ _ _ _ _ _ => [1]
  | .mmaQ _ _ _ _ _ _ _ _ _ _ => [0]
  | .zzero _ _ => [3]
  | .chblk _ _ _ _ _ _ => [0, 1, 2]
  | .cpy _ _ _ _ _ => []
  | _ => [2]

/-! ## Entry (R299) -/

/-- The slot word of a command as a number. -/
def slotBits (i : Instr) : BitVec 48 :=
  match encode i with
  | some (.m w) => w
  | _ => 0
/-- No writes. -/
def CmdOut.none : CmdOut := ⟨[], [], [], Option.none, Option.none⟩
/-- The command that an instruction enters, as captured from a context's state: the images of all its descriptor fields, that of dM whatever the slot's mode
will be (R299). `epoch` is the core's count before the command, so that a core's first MMA.Q is of epoch 0 (R316 says only that the count starts at 0: DESIGN
CHOICE, log 73). -/
def captureCmd (c : CtxId) (ins : Instr) (v : W64) (idx : List W32) (id : Nat) (s : State) : Cmd :=
  let k := s.core c.coreId
  let x := s.ctx c
  let ds := cmdDescs true ins
  let img (role : Nat) : BitVec 256 := match ds.find? (fun p => p.1 == role) with
    | some p => x.d[p.2.toNat]
    | none => 0
  let q : Cmd :=
    { id := id, ctx := c.ctx, ins := ins, bits := slotBits ins, imgA := img 0, imgB := img 1, imgM := img 2, imgSA := img 3,
      imgSB := img 4, latch := x.arch.latch, tscale := x.arch.tscale, exv := x.arch.exv, x := v, idx := idx, reads := [],
      writes := [], epoch := k.epoch, ready := false, mask := maskUsed k x c.ctx id ins, gather := none, tab := [], taken := 0, left := none, out := .none }
  { q with reads := cmdReads c.core k x q, writes := cmdWrites q }
/-- WPH inverts once in every descriptor register named whose image has BARV and AUTO (R299). -/
def flipAuto (ds : List (Nat × BitVec 4)) (x : Ctx) : Ctx :=
  { x with d := .ofFn fun (i : Fin 16) =>
      let d := x.d[i.val]
      if ds.any (fun p => p.2.toNat == i.val) && tdBarV d && tdAuto d then tdFlip d else d }
/-- Range comparators in use (R302). -/
def comparators (k : Core) : Nat := (k.cmds.map fun q => q.reads.length + q.writes.length).sum
/-- The table has an entry and comparators for a command (R299). -/
def tableRoom (c : CtxId) (ins : Instr) (v : W64) (idx : List W32) (s : State) : Bool :=
  let k := s.core c.coreId
  let q := captureCmd c ins v idx s.nextId s
  decide (k.cmds.length < 16) && decide (comparators k + q.reads.length + q.writes.length ≤ 48)
/-- Enter a command into the table; MMA.Q advances the core's quad epoch (R316). -/
def enterCmd (c : CtxId) (ins : Instr) (v : W64) (idx : List W32) (s : State) : State :=
  let f := s.fresh
  let q := captureCmd c ins v idx f.1 s
  let ds := cmdDescs (maskUsed (s.core c.coreId) (s.ctx c) c.ctx f.1 ins) ins
  let isQ := match ins with
    | .mmaQ _ _ _ _ _ _ _ _ _ _ => true
    | _ => false
  (f.2.modCore c.coreId fun k => { k with cmds := k.cmds ++ [q], epoch := if isQ then k.epoch + 1 else k.epoch }).modCtx c (flipAuto ds)
/-- A command held on a speculative path, or entered; a full table freezes (R144, R400). -/
def issueCmd (c : CtxId) (ins : Instr) (v : W64) (idx : List W32) (s : State) : SlotOut :=
  match (s.ctx c).spec with
  | some p => .go fun t => t.modCtx c fun x => { x with spec := some ((x.spec.getD p).hold none (.cmd ins v idx)) }
  | none => if tableRoom c ins v idx s then .go (enterCmd c ins v idx) else .freeze id
/-- Plan of a command without operands. -/
def planCmd (ins : Instr) : Plan := ⟨.m, [], [], none, false, fun _ c s => issueCmd c ins 0 [] s⟩
/-- Plan of a command with a scalar operand (consumer M.op). -/
def planCmdX (ins : Instr) (x : Code7) : Plan := ⟨.m, [(8, x)], [], none, false, fun _ c s => issueCmd c ins (readOp s c x) [] s⟩
/-- Plan of a gather form: its index rows r and (r + 1) mod 32 of register G are read at issue (R315). -/
def planGather (ins : Instr) (g r : BitVec 5) : Plan :=
  ⟨.m, [], [g.toNat], none, false, fun _ c s =>
    issueCmd c ins 0 ((List.range 64).map fun j =>
      rdCell (s.ctx c).mreg (g.toNat * 1024 + (r.toNat + j / 32) % 32 * 32 + j % 32)) s⟩

/-! ## Readiness (R300, R301) -/

/-- The awaited phase of a descriptor's linked barrier has completed: PHASE = WPH. -/
def barReady (k : Core) (d : BitVec 256) : Bool :=
  !tdBarV d || decide (csSize ≤ tdBar d) || (rdLE k.store (tdBar d) 4 % 2 == 1) == tdWph d
/-- Two lists of ranges overlap. -/
def rangesMeet (a b : List (Nat × Nat)) : Bool := a.any fun r => b.any fun t => decide (r.1 < t.2) && decide (t.1 < r.2)
/-- The conditions of R300 on barriers, older commands and accumulator writes in flight (R297). -/
def cmdReady (s : State) (c : CoreId) (q : Cmd) : Bool :=
  let k := s.core c
  let x := k.ctxs[q.ctx.val]
  let m := maskUsed k x q.ctx q.id q.ins
  let tiles (o : Cmd) := (cmdTiles k x q.ctx o.id o.ins).map Prod.fst
  let older := k.cmds.filter fun o => o.ctx == q.ctx && decide (o.id < q.id)
  let rd := cmdReads c.core k x q
  (cmdImages m q).all (barReady k) &&
  older.all (fun o => (tiles o).all (fun z => !(tiles q).contains z) && (cmdSlots o.ins).all (fun y => !(cmdSlots q.ins).contains y) &&
    !rangesMeet o.writes (rd ++ q.writes) && !rangesMeet o.reads q.writes) &&
  (tiles q).all fun z => !zwrInFlight x z
/-- The engines that a command needs can accept it; a copy command needs its channel idle, a gather its collection. -/
def enginesFree (k : Core) (q : Cmd) : Bool :=
  (match q.ins with
   | .cpy ch _ _ _ _ => !(k.chans[(Fin.ofNat 2 ch.toNat).val]).busy
   | i => !isGather i || q.gather == some 0) &&
  (cmdEngines q.ins).all fun e => k.eng[e.val] == 0
/-- A command meets every condition of R300 in this cycle: its own, and those of the engines that it needs, the gather unit for a gather that has not
collected its rows (R315). -/
def readyNow (s : State) (c : CoreId) (q : Cmd) : Bool :=
  cmdReady s c q && (if isGather q.ins && q.gather.isNone then (s.core c).eng[4] == 0 else enginesFree (s.core c) q)
/-- The register of a command's mask tile, if no other field of the command names it. -/
def maskReg (i : Instr) : Option (BitVec 4) :=
  match (cmdDescs true i).find? fun p => p.1 == 2 with
  | some p => if (cmdDescs false i).any fun o => o.2 == p.2 then none else some p.2
  | none => none
/-- Two images of a register are the same but for WPH. -/
def sameTile (a b : BitVec 256) : Bool := a == b || tdFlip a == b
/-- The WPH of the images that a command took of a register inverts, where they are those of a tile. -/
def rephase (r : BitVec 4) (d : BitVec 256) (q : Cmd) : Cmd :=
  let f (role : Nat) (i : BitVec 256) : BitVec 256 := if (cmdDescs true q.ins).contains (role, r) && sameTile i d then tdFlip i else i
  { q with imgA := f 0 q.imgA, imgB := f 1 q.imgB, imgM := f 2 q.imgM, imgSA := f 3 q.imgSA, imgSB := f 4 q.imgSB }
/-- The mode of a waiting command's slot has turned out to be another than at its entry, so that its mask tile is ignored after all, or takes part: WPH of
its register inverts, if the register still holds the tile, and with it that of the images that younger commands have taken since (R299, R323; log 50). -/
def settleMask (k : CoreId) (q : Cmd) (s : State) : State :=
  let m := maskUsed (s.core k) ((s.core k).ctxs[q.ctx.val]) q.ctx q.id q.ins
  if q.left.isSome || m == q.mask then s
  else
    let s := s.modCore k fun x => { x with cmds := x.cmds.map fun o => if o.id = q.id then { o with mask := m } else o }
    match maskReg q.ins with
    | none => s
    | some r =>
      if !(tdBarV q.imgM && tdAuto q.imgM) then s
      else
        (s.modCtx ⟨k.die, k.core, q.ctx⟩ fun x => { x with d := x.d.set r.toNat (if sameTile x.d[r.toNat] q.imgM then tdFlip x.d[r.toNat] else x.d[r.toNat]) }).modCore k
          fun x => { x with cmds := x.cmds.map fun o =>
            if o.ctx = q.ctx ∧ q.id < o.id ∧ o.left = none then rephase r q.imgM o else o }
/-- Note which of a core's waiting commands are ready in this cycle: a command issues no earlier than the cycle after it is first ready (R300). -/
def markReady (c : CoreId) (s : State) : State :=
  let s := forEach (s.core c).cmds (settleMask c) s
  s.modCore c fun k => { k with cmds := k.cmds.map fun q =>
    if q.left.isSome then q else { q with ready := readyNow s c q, reads := cmdReads c.core k k.ctxs[q.ctx.val] q } }
/-- One cycle passes for the engines and the commands of a core. -/
def tickCmds (k : Core) : Core :=
  { k with
    eng := k.eng.map (· - 1)
    cmds := k.cmds.map fun q => { q with left := q.left.map (· - 1), gather := q.gather.map (· - 1) } }

/-! ## Checks of Table 19.3 -/

/-- RANGE with the command's M-slot bits. -/
def badCmd (q : Cmd) : Err := ⟨0x06, q.bits.setWidth 64⟩
/-- RANGE unless a condition holds. -/
def need (q : Cmd) (b : Bool) : Option Err := if b then none else some (badCmd q)
/-- A named descriptor keeps Table 13.7, has one of the types, and its link buffer is open to the context. -/
def descGood (s : State) (c : CtxId) (d : BitVec 256) (ty : Nat → Bool) : Bool :=
  tdOk d && ty (tdType d) && (!tdLB d ||
    (let b := (s.die c.die).lbs[(Fin.ofNat 16 (tdLBN d)).val]
     b.st != .closed && b.holder == some c))
/-- OWNERSHIP: a range lies in a buffer that is not HOME and has admitted no channel of the issuing core; the first
such address. -/
def rangeOwned (k : Core) (core : Fin 16) (r : Nat × Nat) : Option Err :=
  firstSome (fun i =>
    let b := r.1 / 0x10000 + i
    if r.2 ≤ b * 0x10000 then none
    else match k.own[b]?, k.adm[b]? with
      | some .home, _ => none
      | some _, some m => if bits m.toNat (2 * (core.val % 4)) 2 ≠ 0 then none else some ⟨0x05, BitVec.ofNat 64 (max r.1 (b * 0x10000))⟩
      | _, _ => none) (List.range ((r.2 - r.1) / 0x10000 + 2))
/-- The binding that a command writes holds rows × cols elements and has the bank that its DUAL bit chooses. -/
def tileGood (x : Ctx) (z : Fin 16) (dual : Bool) (rows cols : Nat) : Bool :=
  match x.z[z.val] with
  | none => false
  | some t => (bankOf t dual).isSome && decide (rows ≤ t.rows) && decide (cols ≤ t.cols)
/-- The fields that the MMA forms share. -/
structure MmaF where
  z : Fin 16
  tA : Nat
  tB : Nat
  acc : Bool
  mx : Bool
  dual : Bool
  bt : Bool
  scl : Bool
  value : Bool
/-- The fields of an MMA form. -/
def mmaF : Instr → Option MmaF
  | .mmaS z _ _ tA tB acc mx dual bt src _ _ =>
    some ⟨Fin.ofNat 16 z.toNat, tA.toNat, tB.toNat, acc == 1#1, mx == 1#1, dual == 1#1, bt == 1#1, src == 1#1, false⟩
  | .mmaV z _ _ tA tB acc mx dual bt src _ _ =>
    some ⟨Fin.ofNat 16 z.toNat, tA.toNat, tB.toNat, acc == 1#1, mx == 1#1, dual == 1#1, bt == 1#1, src == 1#1, true⟩
  | .mmaSg z _ _ tA tB acc mx dual bt _ _ =>
    some ⟨Fin.ofNat 16 z.toNat, tA.toNat, tB.toNat, acc == 1#1, mx == 1#1, dual == 1#1, bt == 1#1, false, false⟩
  | .mmaVg z _ _ tA tB acc mx dual bt _ _ =>
    some ⟨Fin.ofNat 16 z.toNat, tA.toNat, tB.toNat, acc == 1#1, mx == 1#1, dual == 1#1, bt == 1#1, false, true⟩
  | .mmaQ z _ _ tA tB acc mx dual bt _ =>
    some ⟨Fin.ofNat 16 z.toNat, tA.toNat, tB.toNat, acc == 1#1, mx == 1#1, dual == 1#1, bt == 1#1, false, false⟩
  | _ => none
/-- K and N of the B operand (R313). -/
def mmaKN (f : MmaF) (d : BitVec 256) : Nat × Nat := if f.bt then (tdCols d, tdRows d) else (tdRows d, tdCols d)
/-- The scale sources keep the limits of R314. -/
def scalesGood (f : MmaF) (q : Cmd) (m n k : Nat) : Bool :=
  !f.mx || (if f.scl then
      tdRows q.imgSA == m && tdRows q.imgSB == n && decide (cdiv k 32 ≤ tdCols q.imgSA) && decide (cdiv k 32 ≤ tdCols q.imgSB)
    else decide (k ≤ 32) && decide (n ≤ 128))
/-- A gathered row lies wholly inside its store (R315). -/
def gatherGood (x : Ctx) (q : Cmd) : Bool :=
  let top := if tdLB q.imgA then 0x10000 else csSize
  (match q.ins with
   | .mmaSg _ _ _ _ _ _ _ _ _ g _ => decide (g.toNat < 4 * x.b.gran)
   | .mmaVg _ _ _ _ _ _ _ _ _ g _ => decide (g.toNat < 4 * x.b.gran)
   | _ => true) &&
  (gRows q).all fun i => decide (tdBase q.imgA + i * tdPitch q.imgA + tdRowBytes q.imgA ≤ top)
/-- The types that a command's tiles must have, by role; the output tile of CHFIN takes types 0 to 5. -/
def cmdType (i : Instr) (role : Nat) : Nat → Bool :=
  match mmaF i with
  | some f => fun t => if role = 0 then t == f.tA else if role = 1 then t == f.tB else t == 11
  | none => match i with
    | .chbeg _ _ _ tQ _ _ _ => fun t => t == tQ.toNat
    | .chblk _ _ _ _ tK tV => fun t => if role = 0 then t == tK.toNat else if role = 1 then t == tV.toNat else t == 11
    | .chfin _ _ _ => fun t => decide (t ≤ 5)
    | _ => fun _ => true
/-- Descriptors and ranges (the first two rows of Table 19.3). The output descriptor of a CHFIN without value columns is not checked (R325). Of several
conditions that a command meets the first in the order of the table's rows is stored, a gang's disagreement before any other (DESIGN CHOICE, log 73: the spec
gives no order). -/
def commonErr (s : State) (c : CtxId) (q : Cmd) : Option Err :=
  let k := s.core c.coreId
  let x := s.ctx c
  let skip := match q.ins with
    | .chfin sl _ _ => (x.y[sl.toNat]).dv == 0
    | .cpy _ _ _ _ _ => true
    | _ => false
  let ds := (cmdDescs (maskUsed k x q.ctx q.id q.ins) q.ins).map Prod.fst
  let imgs := cmdImages (maskUsed k x q.ctx q.id q.ins) q
  if skip then none
  else match firstSome (fun p => need q (descGood s c p.2 (cmdType q.ins p.1))) (ds.zip imgs) with
    | some e => some e
    | none => firstSome (rangeOwned k c.core) (cmdReads c.core k x q ++ q.writes)

/-! ## What the commands compute -/

/-- The scale of row or column `i` at K-block `b`: a latch byte, a byte of a scale tile, or none without MX (R314). -/
def scaleOf (s : State) (c : CtxId) (q : Cmd) (f : MmaF) (edge : Nat) (img : BitVec 256) (i b : Nat) : Option Nat :=
  if !f.mx then none
  else if f.scl then some (tileElem (tileMem s c.coreId img) img i b) else some (latchByte q edge i)
/-- The output of an MMA form whose operands come from tiles held by given cores, the A rows of a gather from those that it has collected (R313, R315, R316). -/
def mmaOut (s : State) (c : CtxId) (q : Cmd) (f : MmaF) (cA cB : CoreId) (imgA imgB : BitVec 256) : CmdOut :=
  let x := s.ctx c
  let k := tdCols imgA
  let n := (mmaKN f imgB).2
  let e := if f.value then 2 else 0
  let mA := if isGather q.ins then q.tab else tileMem s cA imgA
  let mB := tileMem s cB imgB
  let row (i : Nat) : Nat := if isGather q.ins then gIdx q i else i
  let va (i l : Nat) : FV := edgeOp q e f.tA (scaleOf s c q f e q.imgSA i (l / 32)) (tileElem mA imgA (row i) l)
  let vb (l j : Nat) : FV := edgeOp q (e + 1) f.tB (scaleOf s c q f (e + 1) q.imgSB j (l / 32))
    (if f.bt then tileElem mB imgB j l else tileElem mB imgB l j)
  match x.z[f.z.val] with
  | none => .none
  | some t => match bankOf t f.dual with
    | none => .none
    | some b => { CmdOut.none with acc := [(f.z, b, mmaWords f.tA f.tB (tdRows imgA) n k f.acc (t.at b) va vb)] }
/-- The checks and the result of an MMA form that is not a gang member. -/
def mmaResult (s : State) (c : CtxId) (q : Cmd) (f : MmaF) : CmdOut :=
  let x := s.ctx c
  let kn := mmaKN f q.imgB
  let m := tdRows q.imgA
  match firstSome id [need q (tileGood x f.z f.dual m kn.2), need q (tdCols q.imgA == kn.1 && decide (kn.2 ≤ 256)),
      need q (scalesGood f q m kn.2 kn.1), need q (!isGather q.ins || gatherGood x q)] with
  | some e => { CmdOut.none with err := some e }
  | none => mmaOut s c q f c.coreId c.coreId q.imgA q.imgB
/-- Zero words for every element of a bank. -/
def zeroWords (t : Tile) : List (Nat × W32) :=
  (List.range t.rows).flatMap fun i => (List.range t.cols).map fun j => (i * 256 + j, 0)
/-- A chain slot's tile, bank and read access. -/
def chainTile (x : Ctx) (y : Chain) : Option (Fin 16 × Tile × Bool) :=
  let z : Fin 16 := Fin.ofNat 16 y.z.toNat
  match x.z[z.val] with
  | none => none
  | some t => (bankOf t y.dual).map fun b => (z, t, b)
/-- A vector of 128 row values from a list. -/
def rowVec (l : List Nat) : Vector W32 128 := .ofFn fun (i : Fin 128) => BitVec.ofNat 32 (l.getD i.val 0)
/-- CHBEG (R320). -/
def chbegOut (x : Ctx) (q : Cmd) (sl : Fin 4) (z : Fin 16) (tQ dual mask : Nat) : CmdOut :=
  let nq := tdRows q.imgA
  if !tileGood x z (dual == 1) nq 0 then { CmdOut.none with err := some (badCmd q) }
  else match x.z[z.val] with
    | none => .none
    | some t =>
      { CmdOut.none with
        acc := [(z, (bankOf t (dual == 1)).getD false,
          (List.range nq).flatMap fun i => (List.range t.cols).map fun j => (i * 256 + j, 0))]
        chain := [(sl, begun x.y[sl.val] (BitVec.ofNat 4 z.val) (dual == 1) q.imgA tQ mask q.x)] }
/-- A masked position (R323). -/
def masked (mode : Nat) (mk : Cells 8) (dM : BitVec 256) (qp kp : W32) (r j : Nat) : Bool :=
  (mode % 2 == 1 && decide (qp.toNat + r < kp.toNat + j)) || (decide (2 ≤ mode) && (tileByte mk dM r (j / 8)).testBit (j % 8))
/-- CHBLK (R322, R59). -/
def chblkOut (s : State) (c : CtxId) (q : Cmd) (sl : Fin 4) (tK tV : Nat) : CmdOut :=
  let x := s.ctx c
  let k := c.coreId
  let y := x.y[sl.val]
  let tQ := y.tq.toNat
  let nk := tdRows q.imgA
  let d := tdCols y.q
  let dv := if y.dv = 0 then tdCols q.imgB else y.dv
  let mode := y.mode.toNat
  let okM := decide (mode < 2) || (decide (y.nq ≤ tdRows q.imgM) && decide (cdiv nk 8 ≤ tdCols q.imgM))
  let z : Fin 16 := Fin.ofNat 16 y.z.toNat
  if !(y.opn && y.bound && tdCols q.imgA == d && tdRows q.imgB == nk && tdCols q.imgB == dv && decide (dv ≤ 256) && okM &&
      decide (tQ < 16) && pairOk (BitVec.ofNat 4 tQ) (BitVec.ofNat 4 tK) 0 && descGood s c y.q (fun t => t == tQ) && tileGood x z y.dual y.nq dv) then
    { CmdOut.none with err := some (badCmd q) }
  else match chainTile x y with
    | none => { CmdOut.none with err := some (badCmd q) }
    | some (z, t, b) =>
      let mQ := tileMem s k y.q
      let mK := tileMem s k q.imgA
      let mV := tileMem s k q.imgB
      let mM := tileMem s k q.imgM
      let score (r j : Nat) : Nat := accSum tQ tK 0 ((List.range d).map fun l =>
        (edgeOp q 0 tQ none (tileElem mQ y.q r l)).mul (edgeOp q 1 tK none (tileElem mK q.imgA j l)))
      let tOf (r j : Nat) : Nat := if masked mode mM q.imgM y.qp y.kp r j then negInf else cMul (score r j) y.c.toNat
      let rows := (List.range y.nq).map fun r =>
        rowStep (y.m.toList.getD r 0).toNat (y.l.toList.getD r 0).toNat ((List.range nk).map (tOf r))
      let vVal (j l : Nat) : FV := edgeOp q 3 tV none (tileElem mV q.imgB j l)
      let quant (p : Nat) : FV := match fmtOf tV with
        | some f => f.decode (f.round (f32 p))
        | none => .nan
      let words := (List.range y.nq).flatMap fun r =>
        let st := rows.getD r (0, 0, 0, [])
        let ps := st.2.2.2.map quant
        (List.range dv).map fun l =>
          (r * 256 + l, BitVec.ofNat 32 (accSum tV tV (rMul (t.at b r l).toNat st.2.1)
            ((List.range nk).map fun j => (ps.getD j .nan).mul (vVal j l))))
      let keep (f : Nat × Nat × Nat × List Nat → Nat) (old : Vector W32 128) : Vector W32 128 :=
        .ofFn fun (i : Fin 128) => if h : i.val < rows.length then BitVec.ofNat 32 (f rows[i.val]) else old[i.val]
      { CmdOut.none with
        acc := [(z, b, words)]
        chain := [(sl, { y with
          dv := dv, kp := y.kp + BitVec.ofNat 32 nk, bc := y.bc + 1, m := keep (·.1) y.m, l := keep (·.2.2.1) y.l,
          a := keep (·.2.1) y.a })] }
/-- The bytes of one output row: elements packed over the row's old bytes. -/
def rowBytesOut (w : Nat) (old : Nat → Nat) (es : List Nat) : List Byte :=
  (List.range (cdiv (es.length * w) 8)).map fun b =>
    if w = 4 then
      let lo := es.getD (2 * b) 0
      BitVec.ofNat 8 (if 2 * b + 1 < es.length then lo + 16 * es.getD (2 * b + 1) 0 else lo + old b / 16 * 16)
    else BitVec.ofNat 8 (es.getD (b / (w / 8)) 0 / 2 ^ (8 * (b % (w / 8))))
/-- CHFIN (R325, R63). -/
def chfinOut (s : State) (c : CtxId) (q : Cmd) (sl : Fin 4) (n : Nat) : CmdOut :=
  let x := s.ctx c
  let y := x.y[sl.val]
  let zeros := (y.l.toList.take y.nq).countP fun l => l == 0
  let done (mem : List (Option (Fin 16) × Nat × List Byte)) (cnt : Nat) : CmdOut :=
    { CmdOut.none with mem := mem, flag := some (n, BitVec.ofNat 32 cnt), chain := [(sl, { y with bound := false })] }
  if !(!y.opn && y.bound) then { CmdOut.none with err := some (badCmd q) }
  else if y.dv = 0 then done [] y.nq
  else if tdRows q.imgA ≠ y.nq ∨ tdCols q.imgA ≠ y.dv then { CmdOut.none with err := some (badCmd q) }
  else match chainTile x y with
    | none => { CmdOut.none with err := some (badCmd q) }
    | some (_, t, b) =>
      let ty := tdType q.imgA
      let mem := tileMem s c.coreId q.imgA
      let lb := if tdLB q.imgA then some (Fin.ofNat 16 (tdLBN q.imgA)) else none
      done ((List.range y.nq).flatMap fun r =>
        let es := (List.range y.dv).map fun l => finElem ty (y.l.toList.getD r 0).toNat (t.at b r l).toNat
        let bs := rowBytesOut (bitsOf ty) (tileByte mem q.imgA r) es
        bs.zipIdx.map fun p => (lb, tdBase q.imgA + r * tdPitch q.imgA + swz (tdLay q.imgA) r p.2, [p.1])) zeros
/-- CHMRG (R326, R62). -/
def chmrgOut (x : Ctx) (q : Cmd) (sa sb : Fin 4) : CmdOut :=
  let y1 := x.y[sa.val]
  let y2 := x.y[sb.val]
  let bad : CmdOut := { CmdOut.none with err := some (badCmd q) }
  if !(!y1.opn && y1.bound && !y2.opn && y2.bound && y1.nq == y2.nq && (y1.dv == y2.dv || y1.dv == 0 || y2.dv == 0)) then bad
  else
    let dv := max y1.dv y2.dv
    if !tileGood x (Fin.ofNat 16 y1.z.toNat) y1.dual y1.nq dv then bad
    else match chainTile x y1, (if y2.dv = 0 then some none else (chainTile x y2).map some) with
      | some (z, t, b), some o2 =>
        let rows := (List.range y1.nq).map fun r =>
          let g (v : Vector W32 128) : Nat := (v.toList.getD r 0).toNat
          rowMerge (g y1.m) (g y1.l) (g y2.m) (g y2.l)
        let v1 (r l : Nat) : Nat := if y1.dv = 0 then 0 else (t.at b r l).toNat
        let v2 (r l : Nat) : Nat := match o2 with
          | none => 0
          | some (_, t2, b2) => (t2.at b2 r l).toNat
        let words := (List.range y1.nq).flatMap fun r =>
          let st := rows.getD r (0, 0, 0, 0)
          (List.range dv).map fun l =>
            (r * 256 + l, BitVec.ofNat 32 (rF32 (FV.sum [f32 (rMul (v1 r l) st.2.2.1), f32 (rMul (v2 r l) st.2.2.2)])))
        let keep (f : Nat × Nat × Nat × Nat → Nat) (old : Vector W32 128) : Vector W32 128 :=
          .ofFn fun (i : Fin 128) => if h : i.val < rows.length then BitVec.ofNat 32 (f rows[i.val]) else old[i.val]
        { CmdOut.none with
          acc := [(z, b, words)]
          chain := [(sa, { y1 with dv := dv, bc := y1.bc + y2.bc, m := keep (·.1) y1.m, l := keep (·.2.1) y1.l }),
                    (sb, { y2 with bound := false })] }
      | _, _ => bad
/-- The 1,600-byte image of a chain slot (Table 19.8). -/
def chainBytes (y : Chain) : List Byte :=
  let rows (v : Vector W32 128) := v.toList.flatMap fun w => toBytes 4 w.toNat
  toBytes 4 ((if y.opn then 1 else 0) + (if y.bound then 2 else 0) + 4 * y.mode.toNat + (if y.dual then 16 else 0)) ++
  toBytes 2 y.nq ++ toBytes 2 y.dv ++ toBytes 4 y.bc.toNat ++ toBytes 4 y.c.toNat ++ toBytes 4 y.qp.toNat ++
  toBytes 4 y.kp.toNat ++ toBytes 1 y.tq.toNat ++ toBytes 7 0 ++ toBytes 32 y.q.toNat ++ rows y.m ++ rows y.l ++ rows y.a
/-- CHST: the image at x aligned down to 64 (R327). -/
def chstOut (x : Ctx) (q : Cmd) (sl : Fin 4) : CmdOut :=
  let a := alignDown q.x.toNat 64
  if csSize < a + 1600 then { CmdOut.none with err := some (badCmd q) }
  else { CmdOut.none with mem := [(none, a, chainBytes x.y[sl.val])] }
/-- CHLD (R327). -/
def chldOut (k : Core) (x : Ctx) (q : Cmd) (sl : Fin 4) (z : BitVec 4) : CmdOut :=
  let a := alignDown q.x.toNat 64
  let y := chainOf k.store a z
  let fl := rdLE k.store a 4
  let good := decide (a + 1600 ≤ csSize) && decide (fl < 32) && rdLE k.store (a + 0x19) 7 == 0 &&
    (!y.bound || (decide (1 ≤ y.nq) && decide (y.nq ≤ 128) && (match x.z[z.toNat] with
      | some t => decide (y.nq ≤ t.rows) && decide (y.dv ≤ t.cols)
      | none => false)))
  if good then { CmdOut.none with chain := [(sl, y)] } else { CmdOut.none with err := some (badCmd q) }
/-- What a command comes to when it issues to its engine: its writes, or the error of Table 19.3. -/
def cmdResult (s : State) (c : CtxId) (q : Cmd) : CmdOut :=
  let x := s.ctx c
  match commonErr s c q with
  | some e => { CmdOut.none with err := some e }
  | none => match mmaF q.ins with
    | some f => mmaResult s c q f
    | none => match q.ins with
      | .zzero z both =>
        let zz : Fin 16 := Fin.ofNat 16 z.toNat
        (match x.z[zz.val] with
         | none => { CmdOut.none with err := some (badCmd q) }
         | some t =>
           let w := zeroWords t
           { CmdOut.none with acc := if t.dual then (if both = 1#1 then [(zz, false, w), (zz, true, w)] else [(zz, !t.vis, w)])
               else [(zz, false, w)] })
      | .chbeg sl z _ tQ dual mask _ => chbegOut x q (Fin.ofNat 4 sl.toNat) (Fin.ofNat 16 z.toNat) tQ.toNat dual.toNat mask.toNat
      | .chblk sl _ _ _ tK tV => chblkOut s c q (Fin.ofNat 4 sl.toNat) tK.toNat tV.toNat
      | .chend sl => { CmdOut.none with chain := [(Fin.ofNat 4 sl.toNat, { x.y[sl.toNat] with opn := false })] }
      | .chfin sl _ n => chfinOut s c q (Fin.ofNat 4 sl.toNat) n.toNat
      | .chmrg a b => chmrgOut x q (Fin.ofNat 4 a.toNat) (Fin.ofNat 4 b.toNat)
      | .chst sl _ => chstOut x q (Fin.ofNat 4 sl.toNat)
      | .chld sl z _ => chldOut (s.core c.coreId) x q (Fin.ofNat 4 sl.toNat) z
      | .chscl sl _ => { CmdOut.none with chain := [(Fin.ofNat 4 sl.toNat, { x.y[sl.toNat] with c := q.x.extractLsb' 0 32 })] }
      | _ => .none
/-- Banks of one bank set of a tile (R307). -/
def tileBanks (rows cols : Nat) (dual : Bool) : Nat := cdiv (rows * cols * 4) 2048 * (if dual then 2 else 1)
/-- Occupancy and drain of a command (Table 19.9). -/
def cmdTime (x : Ctx) (q : Cmd) : Nat × Nat :=
  match mmaF q.ins with
  | some f => (cdiv (mmaKN f q.imgB).2 128 * pairCycles f.tA f.tB (tdCols q.imgA), 24)
  | none => match q.ins with
    | .chblk s _ _ _ tK tV =>
      let y := x.y[s.toNat]
      let nk := tdRows q.imgA
      (max (max (pairCycles y.tq.toNat tK.toNat (tdCols q.imgA)) (cdiv nk 4)) (pairCycles tV.toNat tV.toNat nk * cdiv (tdCols q.imgB) 128), 40)
    | .chfin s _ _ => (cdiv ((x.y[s.toNat]).nq * (x.y[s.toNat]).dv) 512, 16)
    | .chmrg a b => (cdiv ((x.y[a.toNat]).nq * max (x.y[a.toNat]).dv (x.y[b.toNat]).dv) 512, 16)
    | .chbeg _ z _ _ _ _ _ => (cdiv (tdRows q.imgA * ((x.z[z.toNat]).map Tile.cols).getD 0) 512, 2)
    | .chst _ _ => (16, 8)
    | .chld _ _ _ => (16, 8)
    | .zzero z _ => (match x.z[z.toNat] with
      | some t => cdiv (tileBanks t.rows t.cols t.dual) 8
      | none => 0, 2)
    | _ => (1, 1)

/-! ## Issue and completion of commands -/

/-- Start a channel on a list (R232). -/
def startChan (k : CoreId) (ch : Fin 2) (owner : CtxId) (a : W64) (n : Nat) (s : State) : State :=
  let u := (s.ctx owner).b.uid
  s.modCore k fun x =>
    { x with chans := x.chans.set ch.val { Chan.idle with busy := true, owner := owner, uid := u, nrow := (x.chans[ch.val]).nrow, next := alignDown a.toNat 32, left := n } }
/-- Change a command of a core. -/
def modCmd (k : CoreId) (id : Nat) (f : Cmd → Cmd) (s : State) : State :=
  s.modCore k fun x => { x with cmds := x.cmds.map fun q => if q.id = id then f q else q }
/-- Hold the engines of an issued command for its occupancy, and start its time to completion. -/
def occupy (k : CoreId) (q : Cmd) (x : Ctx) (out : CmdOut) (s : State) : State :=
  let t := cmdTime x q
  (s.modCore k fun y => { y with eng := (cmdEngines q.ins).foldl (fun e i => e.set i.val t.1) y.eng }).modCore k fun y =>
    { y with cmds := y.cmds.map fun p => if p.id = q.id then { p with left := some (t.1 + t.2), out := out } else p }
/-- Two commands need one engine of Table 19.2; the copy channels are two of its engines. -/
def sameEngine (a b : Instr) : Bool :=
  match a, b with
  | .cpy c _ _ _ _, .cpy d _ _ _ _ => c == d
  | a, b => (cmdEngines a).any (cmdEngines b).contains
/-- A command holds back another at an engine: it is older and ready, and both need the engine, or both the gather unit (R300). -/
def precedes (s : State) (k : CoreId) (q o : Cmd) : Bool :=
  let collects (p : Cmd) : Bool := isGather p.ins && p.gather.isNone
  decide (o.id < q.id) && o.left.isNone && o.ready && readyNow s k o && collects o == collects q && (collects q || sameEngine o.ins q.ins)
/-- A command is ready in this cycle, was so in an earlier one, and is the oldest such command for each engine that it needs (R300). -/
def atHead (s : State) (k : CoreId) (q : Cmd) : Bool :=
  q.left.isNone && q.ready && readyNow s k q && !(s.core k).cmds.any (precedes s k q)
/-- The four members of a command's gang, once each has entered (R316). -/
def gangMembers (s : State) (k : CoreId) (q : Cmd) : Option (List (CoreId × Cmd)) :=
  (List.range 4).foldr (fun i acc =>
    let c : CoreId := ⟨k.die, quadCore k.core i⟩
    match acc, (s.core c).cmds.find? (fun p => p.epoch == q.epoch && p.left.isNone && (match p.ins with
        | .mmaQ _ _ _ _ _ _ _ _ _ _ => true
        | _ => false)) with
    | some l, some p => some ((c, p) :: l)
    | _, _ => none) (some [])
/-- The four members of a command's gang, once each may issue on its core (R316). -/
def gangOf (s : State) (k : CoreId) (q : Cmd) : Option (List (CoreId × Cmd)) := (gangMembers s k q).filter fun g => g.all fun m => atHead s m.1 m.2
/-- The gang agrees: tags, types, the mode bits of Table 19.4 (BT is none of them), K, and the shapes of the halves that each core names (R316). -/
def gangAgrees (g : List (CoreId × Cmd)) : Bool :=
  let key (p : Cmd) : Option (W32 × Nat × Nat × Bool × Bool × Bool × Nat) := (mmaF p.ins).map fun f =>
    (p.x.extractLsb' 0 32, f.tA, f.tB, f.acc, f.mx, f.dual, tdCols p.imgA)
  let shape (d : BitVec 256) : Nat × Nat × Nat := (tdRows d, tdCols d, tdType d)
  match g with
  | (_, p0) :: _ => g.zipIdx.all fun r =>
    let p := r.1.2
    key p == key p0 &&
    some (shape p.imgA) == (g[2 * (r.2 / 2)]?).map (fun o => shape o.2.imgA) &&
    some (shape p.imgB) == (g[r.2 % 2]?).map (fun o => shape o.2.imgB)
  | [] => true
/-- The result of a gang member: its own checks, then its quarter from the halves that cores 2h and v supply (R316). A member that its own checks stop
supplies its half to the others all the same (DESIGN CHOICE, log 73: the spec does not say). -/
def gangResult (s : State) (g : List (CoreId × Cmd)) (k : CoreId) (q : Cmd) : CmdOut :=
  let c : CtxId := ⟨k.die, k.core, q.ctx⟩
  let i := k.core.val % 4
  match mmaF q.ins, g[2 * (i / 2)]?, g[i % 2]? with
  | some f, some (cA, pA), some (cB, pB) =>
    let kn := mmaKN f q.imgB
    (match firstSome id [commonErr s c q, need q (tileGood (s.ctx c) f.z f.dual (tdRows q.imgA) kn.2),
        need q (tdCols q.imgA == kn.1 && decide (kn.2 ≤ 256)), need q (scalesGood f q (tdRows q.imgA) kn.2 kn.1)] with
     | some e => { CmdOut.none with err := some e }
     | none => mmaOut s c q f cA cB pA.imgA pB.imgB)
  | _, _, _ => .none
/-- A waiting command of a core may go to its engine now, a gather that has not collected its rows to the gather unit; a gang member goes with
the three others. -/
def canIssue (s : State) (k : CoreId) (q : Cmd) : Bool :=
  atHead s k q && (match q.ins with
   | .mmaQ _ _ _ _ _ _ _ _ _ _ => (gangOf s k q).isSome
   | _ => true)
/-- Perform a completed command's writes: tiles, bytes, then the flag (R325), the chain slots and the error kept if it is the first
(R303). -/
def applyOut (c : CtxId) (o : CmdOut) (s : State) : State :=
  let s := s.modCtx c fun x => o.acc.foldl (fun x w => putAcc w.1 w.2.1 w.2.2 x) x
  let s := forEach o.mem (fun w s => match w.1 with
    | none => csWrite c.coreId w.2.1 w.2.2 s
    | some l => s.modDie c.die fun d => { d with lbs := d.lbs.set l.val { d.lbs[l.val] with bytes := wrCells (d.lbs[l.val]).bytes w.2.1 w.2.2 } }) s
  let s := match o.flag with
    | some f => setFlag c.coreId f.1 f.2 s
    | none => s
  s.modCtx c fun x =>
    { x with
      y := o.chain.foldl (fun y w => y.set w.1.val w.2) x.y
      cmdErr := x.cmdErr <|> o.err }
/-- COMMAND_COMPLETE: a command whose time has run out performs its writes and leaves the table (R302, R303). -/
def commandComplete (s : State) : State :=
  let k : CoreId := ⟨s.arg.die, s.arg.core⟩
  match (s.core k).cmds.find? (fun q => q.id == s.arg.id) with
  | none => s
  | some q =>
    if q.left = some 0 then
      applyOut ⟨k.die, k.core, q.ctx⟩ q.out (s.modCore k fun x => { x with cmds := x.cmds.filter fun p => p.id != q.id })
    else s
/-- COMMAND_COMPLETE (R303). -/
def execCommandComplete (s : State) : Host.Outcome State Fault Refusal := .next (commandComplete s)

/-! ## Elements in flight (R296) -/

/-- A command's result writes an element of a binding's bank. -/
def CmdOut.hits (o : CmdOut) (z : Fin 16) (b : Bool) (a : Nat) : Bool := o.acc.any fun w => w.1 == z && w.2.1 == b && w.2.2.any fun e => e.1 == a
/-- What a command comes to, or would come to if it issued now: the members of a gang that disagrees write nothing (R316). -/
def cmdOutNow (s : State) (k : CoreId) (q : Cmd) : CmdOut :=
  if q.left.isSome then q.out
  else match q.ins, gangMembers s k q with
    | .mmaQ _ _ _ _ _ _ _ _ _ _, some g => if gangAgrees g then cmdResult s ⟨k.die, k.core, q.ctx⟩ q else .none
    | _, _ => cmdResult s ⟨k.die, k.core, q.ctx⟩ q
/-- The state that the older commands of a context leave to a command, if each of them comes now to what it can: they complete in order. -/
def olderDone (s : State) (c : CtxId) (id : Nat) : State :=
  forEach ((s.core c.coreId).cmds.filter fun q => q.ctx == c.ctx && decide (q.id < id)) (fun q u =>
    applyOut c (cmdOutNow u c.coreId q) (u.modCore c.coreId fun x => { x with cmds := x.cmds.filter fun p => p.id != q.id })) s
/-- An element that some command in flight writes: of a command at its engine what it computes, of a waiting one what it would write after the older commands of its
context (R296; log 50). A malformed command writes nothing. -/
def elemInFlight (s : State) (c : CtxId) (z : Fin 16) (b : Bool) (i j : Nat) : Bool :=
  (s.core c.coreId).cmds.any fun q => q.ctx == c.ctx && (cmdOutNow (olderDone s c q.id) c.coreId q).hits z b (i * 256 + j)
/-- Plan of VZRD_L: Legacy read of the working bank without waiting. (R296) -/
def planVzrdL (d : Spec) (z : BitVec 4) (rho : Code7) (g : BitVec 3) (rel : BitVec 1) : Plan := 
  ⟨.v, [], [], none, false, fun sl c s =>
    let zz : Fin 16 := Fin.ofNat 16 z.toNat
    let r := tileRow s c rho rel
    let wk := fun (t : Tile) => t.dual && !t.vis
    let b := match (s.ctx c).z[zz.val] with
      | some t => wk t
      | none => false
    let row := zRow s c zz wk r g.toNat
    .go fun t =>
      let ws := (List.range 32).map fun j =>
        if elemInFlight s c zz b r (32 * g.toNat + j) then Config.freeWord (t.draws + j) else row.getD j 0
      sendQuiet c (slotCode sl) 6 (.words (fullWords (vCells s c d rel) ws)) { t with draws := t.draws + 32 }⟩
/-- VZRD_L (R296). -/
def execVzrdL (d : Spec) (z : BitVec 4) (rho : Code7) (g : BitVec 3) (rel : BitVec 1) (s : State) : Host.Outcome State Fault Refusal := runPlan (planVzrdL d z rho g rel) s

/-! ## Immediate and waiting instructions -/

/-- Banks that a context's bound tiles take. -/
def banksHeld (x : Ctx) : Nat := (x.z.toList.map fun t => match t with
  | some t => tileBanks t.rows t.cols t.dual
  | none => 0).sum
/-- Accumulator banks of a core (R23). -/
def coreBanks : Nat := 512
/-- Banks in use in a core. -/
def banksUsed (k : Core) : Nat := (k.ctxs.toList.map banksHeld).sum
/-- The banks that a task's save area can hold (R81). -/
def saveBanks (x : Ctx) : Nat := (x.b.hdr.savesz - (16384 + 4096 * (4 * x.b.gran))) / 2048
/-- ZALLOC (R307). -/
def zalloc (c : CtxId) (z : Fin 16) (rows cols : Nat) (dual : Bool) (s : State) : SlotOut :=
  let x := s.ctx c
  let n := tileBanks rows cols dual
  if !committed s c && ((x.z[z.val]).isSome || decide (coreBanks - banksUsed (s.core c.coreId) < n) ||
      decide (saveBanks x < banksHeld x + n)) then .trap ⟨0x09, BitVec.ofNat 64 n⟩
  else .go fun t => t.modCtx c fun x => { x with z := x.z.set z.val (some ⟨rows, cols, dual, false, [], []⟩) }
/-- A command names a binding, or a VZWR to it is in flight (R308). -/
def zWaits (s : State) (c : CtxId) (z : Fin 16) : Bool := namesZ s c z || zwrInFlight (s.ctx c) z
/-- MWAIT: wait, then raise a stored error or go on (R312). -/
def mwait (c : CtxId) (busy : Bool) (s : State) : SlotOut :=
  if busy then .wait none
  else match (s.ctx c).cmdErr with
    | some e => .trap e fun t => t.modCtx c fun x => { x with cmdErr := none }
    | none => .go id
/-- A scale row is read at issue and takes effect 6 cycles later (R317, R318). -/
def planScale (row m : BitVec 5) (f : List W32 → Land) : Plan :=
  ⟨.s, [], [m.toNat], none, false, fun sl c s =>
    let ws := (List.range 32).map fun j => rdCell (s.ctx c).mreg (m.toNat * 1024 + row.toNat * 32 + j)
    .go (sendQuiet c (slotCode sl) 6 (f ws))⟩

/-- Plan of NOP_M: M-slot no-operation. (R100) -/
def planNopM : Plan := Plan.nop .m
/-- NOP_M (R100). -/
def execNopM (s : State) : Host.Outcome State Fault Refusal := runPlan (planNopM) s

/-- Plan of MMA_S: Enters a matrix multiply on the score array into the dependency table. (R313) -/
def planMmaS (z : BitVec 4) (dA : BitVec 4) (dB : BitVec 4) (tA : BitVec 4) (tB : BitVec 4) (acc : BitVec 1) (mx : BitVec 1) (dual : BitVec 1) (bt : BitVec 1) (sclsrc : BitVec 1) (dSA : BitVec 4) (dSB : BitVec 4) : Plan := planCmd (.mmaS z dA dB tA tB acc mx dual bt sclsrc dSA dSB)
/-- MMA_S (R313). -/
def execMmaS (z : BitVec 4) (dA : BitVec 4) (dB : BitVec 4) (tA : BitVec 4) (tB : BitVec 4) (acc : BitVec 1) (mx : BitVec 1) (dual : BitVec 1) (bt : BitVec 1) (sclsrc : BitVec 1) (dSA : BitVec 4) (dSB : BitVec 4) (s : State) : Host.Outcome State Fault Refusal := runPlan (planMmaS z dA dB tA tB acc mx dual bt sclsrc dSA dSB) s

/-- Plan of MMA_V: Enters a matrix multiply on the value array. (R313) -/
def planMmaV (z : BitVec 4) (dA : BitVec 4) (dB : BitVec 4) (tA : BitVec 4) (tB : BitVec 4) (acc : BitVec 1) (mx : BitVec 1) (dual : BitVec 1) (bt : BitVec 1) (sclsrc : BitVec 1) (dSA : BitVec 4) (dSB : BitVec 4) : Plan := planCmd (.mmaV z dA dB tA tB acc mx dual bt sclsrc dSA dSB)
/-- MMA_V (R313). -/
def execMmaV (z : BitVec 4) (dA : BitVec 4) (dB : BitVec 4) (tA : BitVec 4) (tB : BitVec 4) (acc : BitVec 1) (mx : BitVec 1) (dual : BitVec 1) (bt : BitVec 1) (sclsrc : BitVec 1) (dSA : BitVec 4) (dSB : BitVec 4) (s : State) : Host.Outcome State Fault Refusal := runPlan (planMmaV z dA dB tA tB acc mx dual bt sclsrc dSA dSB) s

/-- Plan of MMA_SG: Enters a gathered-row matrix multiply on the score array. (R315) -/
def planMmaSg (z : BitVec 4) (dA : BitVec 4) (dB : BitVec 4) (tA : BitVec 4) (tB : BitVec 4) (acc : BitVec 1) (mx : BitVec 1) (dual : BitVec 1) (bt : BitVec 1) (g : BitVec 5) (r : BitVec 5) : Plan := planGather (.mmaSg z dA dB tA tB acc mx dual bt g r) g r
/-- MMA_SG (R315). -/
def execMmaSg (z : BitVec 4) (dA : BitVec 4) (dB : BitVec 4) (tA : BitVec 4) (tB : BitVec 4) (acc : BitVec 1) (mx : BitVec 1) (dual : BitVec 1) (bt : BitVec 1) (g : BitVec 5) (r : BitVec 5) (s : State) : Host.Outcome State Fault Refusal := runPlan (planMmaSg z dA dB tA tB acc mx dual bt g r) s

/-- Plan of MMA_VG: Enters a gathered-row matrix multiply on the value array. (R315) -/
def planMmaVg (z : BitVec 4) (dA : BitVec 4) (dB : BitVec 4) (tA : BitVec 4) (tB : BitVec 4) (acc : BitVec 1) (mx : BitVec 1) (dual : BitVec 1) (bt : BitVec 1) (g : BitVec 5) (r : BitVec 5) : Plan := planGather (.mmaVg z dA dB tA tB acc mx dual bt g r) g r
/-- MMA_VG (R315). -/
def execMmaVg (z : BitVec 4) (dA : BitVec 4) (dB : BitVec 4) (tA : BitVec 4) (tB : BitVec 4) (acc : BitVec 1) (mx : BitVec 1) (dual : BitVec 1) (bt : BitVec 1) (g : BitVec 5) (r : BitVec 5) (s : State) : Host.Outcome State Fault Refusal := runPlan (planMmaVg z dA dB tA tB acc mx dual bt g r) s

/-- Plan of MMA_Q: Enters one quarter of a quad-gang product. (R316) -/
def planMmaQ (z : BitVec 4) (dA : BitVec 4) (dB : BitVec 4) (tA : BitVec 4) (tB : BitVec 4) (acc : BitVec 1) (mx : BitVec 1) (dual : BitVec 1) (bt : BitVec 1) (x : Code7) : Plan := planCmdX (.mmaQ z dA dB tA tB acc mx dual bt x) x
/-- MMA_Q (R316). -/
def execMmaQ (z : BitVec 4) (dA : BitVec 4) (dB : BitVec 4) (tA : BitVec 4) (tB : BitVec 4) (acc : BitVec 1) (mx : BitVec 1) (dual : BitVec 1) (bt : BitVec 1) (x : Code7) (s : State) : Host.Outcome State Fault Refusal := runPlan (planMmaQ z dA dB tA tB acc mx dual bt x) s

/-- Plan of ZALLOC: Binds an accumulator tile of zeroed banks. (R307) -/
def planZalloc (z : BitVec 4) (rows1 : Code7) (cols1 : BitVec 8) (dual : BitVec 1) : Plan := ⟨.m, [], [], none, true, fun _ c s => zalloc c (Fin.ofNat 16 z.toNat) (rows1.toNat + 1) (cols1.toNat + 1) (dual == 1#1) s⟩
/-- ZALLOC (R307). -/
def execZalloc (z : BitVec 4) (rows1 : Code7) (cols1 : BitVec 8) (dual : BitVec 1) (s : State) : Host.Outcome State Fault Refusal := runPlan (planZalloc z rows1 cols1 dual) s

/-- Plan of ZFREE: Waits for commands on the tile, then unbinds it. (R308) -/
def planZfree (z : BitVec 4) : Plan := 
  ⟨.m, [], [], none, true, fun _ c s =>
    let i : Fin 16 := Fin.ofNat 16 z.toNat
    if ((s.ctx c).z[i.val]).isNone then .go id
    else if zWaits s c i then .wait none
    else .go fun t => t.modCtx c fun x => { x with z := x.z.set i.val none }⟩
/-- ZFREE (R308). -/
def execZfree (z : BitVec 4) (s : State) : Host.Outcome State Fault Refusal := runPlan (planZfree z) s

/-- Plan of ZSWAP: Waits, then exchanges visible and working banks of a dual tile. (R309) -/
def planZswap (z : BitVec 4) : Plan := 
  ⟨.m, [], [], none, true, fun _ c s =>
    let i : Fin 16 := Fin.ofNat 16 z.toNat
    if zWaits s c i then .wait none
    else .go fun t => t.modCtx c fun x => match x.z[i.val] with
      | some u => if u.dual then { x with z := x.z.set i.val (some { u with vis := !u.vis }) } else x
      | none => x⟩
/-- ZSWAP (R309). -/
def execZswap (z : BitVec 4) (s : State) : Host.Outcome State Fault Refusal := runPlan (planZswap z) s

/-- Plan of ZZERO: Command that zeroes the working bank or both banks. (R310) -/
def planZzero (z : BitVec 4) (both : BitVec 1) : Plan := planCmd (.zzero z both)
/-- ZZERO (R310). -/
def execZzero (z : BitVec 4) (both : BitVec 1) (s : State) : Host.Outcome State Fault Refusal := runPlan (planZzero z both) s

/-- Plan of MWAIT: Waits for earlier commands naming a binding and raises a stored error. (R312) -/
def planMwait (z : BitVec 4) : Plan := ⟨.m, [], [], none, true, fun _ c s => mwait c (((s.ctx c).z[(Fin.ofNat 16 z.toNat).val]).isSome && namesZ s c (Fin.ofNat 16 z.toNat)) s⟩
/-- MWAIT (R312). -/
def execMwait (z : BitVec 4) (s : State) : Host.Outcome State Fault Refusal := runPlan (planMwait z) s

/-- Plan of MWAIT_ALL: Waits for every earlier M-slot command of the context. (R312) -/
def planMwaitAll : Plan := 
  ⟨.m, [], [], none, true, fun _ c s =>
    mwait c ((s.core c.coreId).cmds.any fun q => q.ctx == c.ctx && (match q.ins with
      | .cpy _ _ _ _ _ => false
      | _ => true)) s⟩
/-- MWAIT_ALL (R312). -/
def execMwaitAll (s : State) : Host.Outcome State Fault Refusal := runPlan (planMwaitAll) s

/-- Plan of CHBEG: Opens a chain slot with query, binding and mask state, and zeroes the output rows. (R320) -/
def planChbeg (sl : BitVec 2) (z : BitVec 4) (dA : BitVec 4) (tQ : BitVec 4) (dual : BitVec 1) (mask : BitVec 2) (x : Code7) : Plan := planCmdX (.chbeg sl z dA tQ dual mask x) x
/-- CHBEG (R320). -/
def execChbeg (sl : BitVec 2) (z : BitVec 4) (dA : BitVec 4) (tQ : BitVec 4) (dual : BitVec 1) (mask : BitVec 2) (x : Code7) (s : State) : Host.Outcome State Fault Refusal := runPlan (planChbeg sl z dA tQ dual mask x) s

/-- Plan of CHBLK: Applies one attention block through the Sleeve. (R322) -/
def planChblk (sl : BitVec 2) (dA : BitVec 4) (dB : BitVec 4) (dM : BitVec 4) (tK : BitVec 4) (tV : BitVec 4) : Plan := planCmd (.chblk sl dA dB dM tK tV)
/-- CHBLK (R322). -/
def execChblk (sl : BitVec 2) (dA : BitVec 4) (dB : BitVec 4) (dM : BitVec 4) (tK : BitVec 4) (tV : BitVec 4) (s : State) : Host.Outcome State Fault Refusal := runPlan (planChblk sl dA dB dM tK tV) s

/-- Plan of CHEND: Ends an open chain slot. (R324) -/
def planChend (sl : BitVec 2) : Plan := planCmd (.chend sl)
/-- CHEND (R324). -/
def execChend (sl : BitVec 2) (s : State) : Host.Outcome State Fault Refusal := runPlan (planChend sl) s

/-- Plan of CHFIN: Writes normalised output rows and the zero-row count flag, and unbinds the slot. (R325) -/
def planChfin (sl : BitVec 2) (dA : BitVec 4) (n : BitVec 10) : Plan := planCmd (.chfin sl dA n)
/-- CHFIN (R325). -/
def execChfin (sl : BitVec 2) (dA : BitVec 4) (n : BitVec 10) (s : State) : Host.Outcome State Fault Refusal := runPlan (planChfin sl dA n) s

/-- Plan of CHMRG: Merges two ended chain slots row by row. (R326) -/
def planChmrg (sA : BitVec 2) (sB : BitVec 2) : Plan := planCmd (.chmrg sA sB)
/-- CHMRG (R326). -/
def execChmrg (sA : BitVec 2) (sB : BitVec 2) (s : State) : Host.Outcome State Fault Refusal := runPlan (planChmrg sA sB) s

/-- Plan of CHST: Stores a chain slot's state image. (R327) -/
def planChst (sl : BitVec 2) (x : Code7) : Plan := planCmdX (.chst sl x) x
/-- CHST (R327). -/
def execChst (sl : BitVec 2) (x : Code7) (s : State) : Host.Outcome State Fault Refusal := runPlan (planChst sl x) s

/-- Plan of CHLD: Loads a chain slot's state image and binds a tile. (R327) -/
def planChld (sl : BitVec 2) (z : BitVec 4) (x : Code7) : Plan := planCmdX (.chld sl z x) x
/-- CHLD (R327). -/
def execChld (sl : BitVec 2) (z : BitVec 4) (x : Code7) (s : State) : Host.Outcome State Fault Refusal := runPlan (planChld sl z x) s

/-- Plan of CHSCL: Sets the chain constant. (R321) -/
def planChscl (sl : BitVec 2) (x : Code7) : Plan := planCmdX (.chscl sl x) x
/-- CHSCL (R321). -/
def execChscl (sl : BitVec 2) (x : Code7) (s : State) : Host.Outcome State Fault Refusal := runPlan (planChscl sl x) s

/-- Plan of NOP_S: S-slot no-operation. (R128) -/
def planNopS : Plan := Plan.nop .s
/-- NOP_S (R128). -/
def execNopS (s : State) : Host.Outcome State Fault Refusal := runPlan (planNopS) s

/-- Plan of SCL: Loads an edge's scale latch with 128 E8M0 scales. (R317) -/
def planScl (latch : BitVec 2) (row : BitVec 5) (m : BitVec 5) : Plan := planScale row m fun ws => .latch (Fin.ofNat 4 latch.toNat) (BitVec.ofNat 1024 (ws.foldr (fun w a => w.toNat + 2 ^ 32 * a) 0))
/-- SCL (R317). -/
def execScl (latch : BitVec 2) (row : BitVec 5) (m : BitVec 5) (s : State) : Host.Outcome State Fault Refusal := runPlan (planScl latch row m) s

/-- Plan of SXV: Sets an edge's extra value for E2M1 code 0b1000. (R317) -/
def planSxv (latch : BitVec 2) (row : BitVec 5) (m : BitVec 5) : Plan := planScale row m fun ws => .exv (Fin.ofNat 4 latch.toNat) (BitVec.ofNat 8 (ws.headD 0).toNat)
/-- SXV (R317). -/
def execSxv (latch : BitVec 2) (row : BitVec 5) (m : BitVec 5) (s : State) : Host.Outcome State Fault Refusal := runPlan (planSxv latch row m) s

/-- Plan of STS: Sets an edge's per-tensor scale. (R317) -/
def planSts (latch : BitVec 2) (row : BitVec 5) (m : BitVec 5) : Plan := planScale row m fun ws =>
    let x := (ws.headD 0).toNat % 256
    .tscale (Fin.ofNat 4 latch.toNat) (if x = 255 then 0x180#9 else BitVec.ofNat 9 ((x + 129) % 256))
/-- STS (R317). -/
def execSts (latch : BitVec 2) (row : BitVec 5) (m : BitVec 5) (s : State) : Host.Outcome State Fault Refusal := runPlan (planSts latch row m) s

end Sys2Proof.Machine
end

