-- ==== Sys2Proof/Machine/Control.lean ====
section
/-! DEFINITION. Slot C, first part (09 R153 to R165; 13 R223 to R252): loops, targets and traps; copies, barrier objects, windows, rings, buffer
ownership, flags, stream ports, tile descriptors, ordering. -/

namespace Sys2Proof.Machine

/-! ## Plans -/

/-- A C-slot plan with no operand. -/
def planC (stalls : Bool) (f : CtxId → State → SlotOut) : Plan := ⟨.c, [], [], none, stalls, fun _ c s => f c s⟩
/-- A C-slot plan with operand x (consumer C.x). -/
def planCx (stalls : Bool) (x : Code7) (f : W64 → CtxId → State → SlotOut) : Plan :=
  ⟨.c, [(9, x)], [], none, stalls, fun _ c s => f (readOp s c x) c s⟩
/-- A C-slot plan with operands x and y. -/
def planCxy (stalls : Bool) (x y : Code7) (f : W64 → W64 → CtxId → State → SlotOut) : Plan :=
  ⟨.c, [(9, x), (10, y)], [], none, stalls, fun _ c s => f (readOp s c x) (readOp s c y) c s⟩
/-- Send a C-slot result, 2 cycles after issue (R139). -/
def cRes (c : CtxId) (d : Code7) (v : W64) (s : State) : State := sendRes c 5 2 d v s

/-! ## Loops (R153 to R160) -/

/-- Push a level. -/
def pushLevel (c : CtxId) (l : Level) (s : State) : State := s.modArch c fun a => { a with loops := l :: a.loops }
/-- LOOP, LOOPI and PLOOP with a count, a body length, stages and epilogue passes (R155, R158). The FETCH trap of a body end that cannot be found has
slot C and the taken leaf in TRAPLEAF (DESIGN CHOICE, log 49: Table 09.10 also has code 7 for fetch and tree). -/
def loopOut (pipe : Bool) (cnt n st ep : Nat) (c : CtxId) (s : State) : SlotOut :=
  let a := s.arch c
  let start := succAt s c a.pc
  match walkBody s c start n with
  | .await page va =>
    if (s.ctx c).unres.contains (pageVa page.toNat) then .trap ⟨0x10, BitVec.ofNat 64 va⟩ else .freeze (awaitPage c page)
  | .last e =>
    if cnt = 0 then .go id
    else if 6 ≤ a.loops.length then .trap ⟨0x06, 6⟩
    else .go (pushLevel c ⟨pipe, if pipe then cnt + ep else cnt, 0, start, e, if pipe then BitVec.ofNat 32 cnt else 0,
      if pipe then st else 0, if pipe then ep else 0, false⟩)
/-- A target-register write, 1 cycle (R162). -/
def setTarget (c : CtxId) (k : Nat) (v : W32) (s : State) : State := sendQuiet c 5 1 (.target (Fin.ofNat 7 k) v) s

/-! ## Objects (R221, R235 to R237, R247 to R250, R422) -/

/-- The operation stores into its object: BARWAIT, BARTST and RTAKE only read it. -/
def ObjOp.stores : ObjOp → Bool
  | .barinit _ | .barexp _ | .bararr _ | .rres | .rpub _ | .rrel _ => true
  | .barwait _ | .bartst | .rtake _ => false
/-- An update or read of an object by reference, with the result that it returns. -/
def objectOut (op : ObjOp) (res : W64 → CtxId → State → State) (ref : W64) (c : CtxId) (s : State) : SlotOut :=
  match (s.ctx c).att with
  | .done v => .go fun t => (res v c t).modCtx c fun x => { x with att := .none }
  | .failed e => .trap (if e.cause = 0x0A then ⟨0x0A, ref⟩ else e)
  | .sent _ => .wait none
  | _ => match objResolve s c ref with
    | .error e => .trap e
    | .ok (.store a) =>
      let k := s.core c.coreId
      let n := objBytes op
      if acqPending s c || (if op.stores then busyAny k a n else busyWritten k a n) then .freeze id
      else if (match op with
        | .rpub q => slotLanding s c (ringSlot s c a q)
        | _ => false) then .land
      else if slotUsed s c op (fun q => ringSlot s c a q) then .freeze id
      else match objStep (rdCells k.store a n) op with
        | .wait => .wait none
        | .proto => .trap ⟨0x0A, ref⟩
        | .done off bs v => .go fun t => res v c (csWrite c.coreId (a + off) bs t)
    | .ok (.far loc va _ h) =>
      .wait (some fun t =>
        (sendAccess c (.obj op) loc (s.ctx c).h[h.val].view (objBytes op) va none (some h) t).modCtx c fun x =>
          { x with att := .sent t.nextId })
where
  /-- The bytes of the slot of sequence q of a ring in the core store. -/
  ringSlot (s : State) (c : CtxId) (a : Nat) (q : W32) : Nat × Nat :=
    let r := Ring.ofBytes (rdCells (s.core c.coreId).store a 32)
    slotOfSeq r.base r.slotb r.nslot q
  /-- An output-stream element or a flag in flight will be written into a slot (R249). -/
  slotLanding (s : State) (c : CtxId) (w : Nat × Nat) : Bool :=
    let k := s.core c.coreId
    let x := s.ctx c
    let inSlot (b : Nat) : Bool := decide (w.1 ≤ b) && decide (b < w.1 + w.2)
    x.flights.any fun f => match f.act with
      | .port p _ _ =>
        let q := x.arch.ports[p.val]
        (List.range (inFlightTo x p)).any fun i => (portAddrs k q (q.pos.toNat + i * q.bytes)).any inSlot
      | .drain p _ _ => (portAddrs k p p.pos.toNat).any inSlot
      | .flags b _ => decide (4 * b < w.1 + w.2) && decide (w.1 < 4 * b + 128)
      | _ => false
  /-- An earlier remote operation has still to write into the slot that an RPUB publishes, or a read of the slot that an RREL releases has still to return, by its
  local side or by a remote side of kind 0 on this core: the bundle freezes until it has (R249, R269; DESIGN CHOICE, log 51: the spec does not say how the
  step waits). -/
  slotUsed (s : State) (c : CtxId) (op : ObjOp) (slot : W32 → Nat × Nat) : Bool :=
    let mine (r : Rop) : Bool := r.owner == c && r.uid == (s.ctx c).b.uid && r.kind != .lbsend
    let meets (l : List Nat) (w : Nat × Nat) : Bool := let q := coreCells c.coreId w.1 w.2; l.any q.contains
    match op with
    | .rpub q => s.rops.any fun r => mine r && meets (r.toWrite s) (slot q)
    | .rrel q => s.rops.any fun r => mine r && meets (r.toReturn s) (slot q)
    | _ => false
/-- No result. -/
def noRes (_ : W64) (_ : CtxId) (s : State) : State := s
/-- A result to a destination. -/
def toDst (d : Code7) (v : W64) (c : CtxId) (s : State) : State := cRes c d v s
/-- Bits 31 to 0 of an operand. -/
def lo32 (v : W64) : W32 := v.extractLsb' 0 32

/-! ## Copy channels (R232 to R234) -/

/-- The channel numbered by an instruction. -/
def chanOf (s : State) (c : CtxId) (ch : BitVec 1) : Chan := ((s.core c.coreId).chans)[(Fin.ofNat 2 ch.toNat).val]
/-- Change a channel. -/
def modChan (k : CoreId) (ch : Fin 2) (f : Chan → Chan) (s : State) : State :=
  s.modCore k fun x => { x with chans := x.chans.set ch.val (f x.chans[ch.val]) }
/-- A list is under way on the channel, from its start until its last row is delivered or its error raised (R232). -/
def chanBusy (s : State) (c : CtxId) (ch : BitVec 1) : Bool := (chanOf s c ch).busy
/-- The channel returns to idle, its write pointer unchanged (R233, R234). -/
def chanIdle (k : CoreId) (ch : BitVec 1) (s : State) : State :=
  modChan k (Fin.ofNat 2 ch.toNat) Chan.freed s
/-- CPY (R232, R298). -/
def cpyOut (ch : BitVec 1) (n : BitVec 12) (dw : BitVec 1) (ins : Instr) (v : W64) (c : CtxId) (s : State) : SlotOut :=
  if chanBusy s c ch then .wait none
  else if dw = 1#1 then (if tableRoom c ins v [] s then .go (enterCmd c ins v []) else .freeze id)
  else .go (startChan c.coreId (Fin.ofNat 2 ch.toNat) c v n.toNat)
/-- A stored error of a channel, raised once; the channel is then idle. -/
def chanRaise (c : CtxId) (ch : BitVec 1) (s : State) (go : SlotOut) : SlotOut :=
  match (chanOf s c ch).err with
  | some e => .trap e (chanIdle c.coreId ch)
  | none => go
/-- CPABORT (R234, R422). Copy commands that wait in the dependency table are no list of the channel yet, and stay there (DEDUCED, log 64). -/
def cpabortOut (ch : BitVec 1) (c : CtxId) (s : State) : SlotOut :=
  let h := chanOf s c ch
  if h.rows.isEmpty then .go fun t => (chanIdle c.coreId ch t).modCtx c fun x => { x with att := .none }
  else match (s.ctx c).att with
    | .aborting => .wait none
    | _ => .wait (some fun t => (modChan c.coreId (Fin.ofNat 2 ch.toNat) (fun x => { x with stop := true }) t).modCtx c
        fun x => { x with att := .aborting })

/-! ## Windows (R241 to R245) -/

/-- The limits of Table 13.11; a BARV byte above 1 breaks them (DESIGN CHOICE, log 73: the table says only what 1 means). -/
def winOk (d : BitVec 512) : Bool :=
  decide (1 ≤ wTRows d) && decide (1 ≤ wRBytes d) && decide (wRBytes d ≤ 65536) && wRing d % 16 == 0 && wSlot d % 16 == 0 &&
  decide (wRBytes d ≤ wSlot d) && decide (1 ≤ wNSlot d) && decide (wNSlot d ≤ 4096) &&
  decide (wRing d + wNSlot d * wSlot d ≤ csSize) && decide (wDir d ≤ 1) && decide (wLay d ≤ 2) && decide (wBarV d ≤ 1) &&
  (wBarV d == 0 || decide (alignDown (wBar d) 16 + 16 ≤ csSize)) && bits d.toNat 328 184 == 0
/-- Change a window. -/
def modWin (k : CoreId) (w : Fin 8) (f : Win → Win) (s : State) : State :=
  s.modCore k fun x => { x with wins := x.wins.set w.val (f x.wins[w.val]) }
/-- A closing window is free once its rows in flight are done and, outbound, its published rows are stored (R244). -/
def Win.settle (w : Win) : Win :=
  if w.closing && w.err.isNone && w.rows.isEmpty && (wDir w.desc == 0 || decide (w.ret ≤ w.done)) then { w with opn := false, closing := false } else w
/-- A stored error of a window, raised once; the window is then free (R245). -/
def winRaise (c : CtxId) (w : Fin 8) (s : State) (go : SlotOut) : SlotOut :=
  match ((s.core c.coreId).wins[w.val]).err with
  | some e => .trap e (modWin c.coreId w fun x => { x with opn := false, closing := false, err := none, rows := [], miss := none })
  | none => go
/-- WADV's clamp (R243). -/
def Win.advance (w : Win) (k : Nat) : Win :=
  if !w.opn || w.closing then w
  else if wDir w.desc = 0 then { w with ret := min (w.ret + k) w.done }
  else { w with ret := min (min (w.ret + k) (wTRows w.desc)) (w.done + wNSlot w.desc) }
/-- The status word (Table 13.12). -/
def Win.status (w : Win) : W64 :=
  BitVec.ofNat 64 ((if w.opn then 2 ^ 63 else 0) + wDir w.desc % 2 * 2 ^ 62 + w.done % 2 ^ 32)
/-- WOPEN (R241). -/
def wopenOut (w : Fin 8) (v : W64) (c : CtxId) (s : State) : SlotOut :=
  let k := s.core c.coreId
  if (k.wins[w.val]).opn then .wait none
  else
    let a : W64 := BitVec.ofNat 64 (alignDown v.toNat 64)
    let d : BitVec 512 := BitVec.ofNat 512 (rdLE k.store a.toNat 64)
    csLoad s c a 64 (.go (modWin c.coreId w fun _ =>
      ⟨true, false, d, c, 0, 0, 0, [], if winOk d then none else some ⟨0x06, a⟩, none⟩))

/-! ## Buffers (R238 to R240) -/

/-- A core of the issuing core's quad. -/
def peerCore (c : CtxId) (k : Nat) : CoreId := ⟨c.die, quadCore c.core k⟩
/-- A handle names buffer b of quad core h (Table 11.4). -/
def Handle.namesBuf (x : Handle) (h b : Nat) : Bool := x.space == 3#2 && x.page.toNat == h * 128 + b
/-- The buffer handle that BTAKE writes (R239). -/
def bufHandle (h b : Nat) : Handle := ⟨true, 0, true, true, false, 0, 3, BitVec.ofNat 32 (h * 128 + b), 0⟩
/-- Change a buffer's ownership. -/
def setOwn (k : CoreId) (b : Nat) (o : Own) (s : State) : State :=
  s.modCore k fun x => { x with own := if h : b < 96 then x.own.set b o else x.own }
/-- A handle of a buffer loses its valid bit. -/
def Handle.dropBuf (h b : Nat) (g : Handle) : Handle := if g.namesBuf h b then { g with valid := false } else g
/-- The handles of a context lose a buffer, those still in flight as well. -/
def Ctx.dropBuf (h b : Nat) (y : Ctx) : Ctx :=
  { y with
    h := y.h.map (Handle.dropBuf h b)
    flights := y.flights.map fun f => match f.act with
      | .handle i g => { f with act := .handle i (g.dropBuf h b) }
      | _ => f }
/-- Invalidate a core's handles of a buffer, those of its saved tasks too (R180). -/
def dropBufHandles (k : CoreId) (h b : Nat) (s : State) : State :=
  let s := s.modCore k fun x => { x with ctxs := x.ctxs.map (Ctx.dropBuf h b) }
  { s with saved := s.saved.map fun v => if v.die = k.die ∧ v.core = k.core then { v with ctx := v.ctx.dropBuf h b } else v }
/-- BGIVE (R238). -/
def bgiveOut (home : BitVec 2) (buf : BitVec 7) (rcv : BitVec 2) (c : CtxId) (s : State) : SlotOut :=
  let me := inQuad c.core
  let k := peerCore c home.toNat
  let o := (s.core k).own[buf.toNat]?
  if committed s c || (o == some .home && home.toNat == me.val) || o == some (.held me) then
    .go fun t => dropBufHandles c.coreId home.toNat buf.toNat (setOwn k buf.toNat (.offered (Fin.ofNat 4 rcv.toNat) me) t)
  else .trap ⟨0x05, BitVec.ofNat 64 (0x10000 * buf.toNat)⟩
/-- A range of bytes touches a buffer. -/
def touches (lo n b : Nat) : Bool := decide (lo < (b + 1) * 0x10000) && decide (b * 0x10000 < lo + n)
/-- Destination cores of a copy entry: MCAST, or the issuing core (Table 13.8). -/
def entryCores (k : CoreId) (e : BitVec 256) : List CoreId :=
  let m := bits e.toNat 116 4
  if m = 0 then [k] else (List.range 4).filterMap fun i => if m.testBit i then some ⟨k.die, quadCore k.core i⟩ else none
/-- DADDR + r · DSTRIDE, or SADDR + r · SSTRIDE, as 64-bit addresses. -/
def entryDst (e : BitVec 256) (r : Nat) : Nat := wrapN ((bits e.toNat 64 48 : Nat) + r * sInt (bits e.toNat 160 32) 32) 64
/-- The source address of a row. -/
def entrySrc (e : BitVec 256) (r : Nat) : Nat := wrapN ((bits e.toNat 0 48 : Nat) + r * sInt (bits e.toNat 128 32) 32) 64
/-- RBYTES of an entry. -/
def entryLen (e : BitVec 256) : Nat := bits e.toNat 208 16
/-- A store that a speculative path of a context holds lies in a buffer. -/
def heldIn (x : Ctx) (b : Nat) : Bool :=
  match x.spec with
  | none => false
  | some p => p.held.any fun h => match h with
    | .store a bs => touches a bs.length b
    | _ => false
/-- The giver still has accesses to the buffer in flight: stores held on a path, peer accesses, remote operations, rows of its channels and windows,
commands (R181, R265). -/
def giverBusy (s : State) (g h : CoreId) (b : Nat) : Bool :=
  let k := s.core g
  s.accesses.any (fun a => a.owner.die == g.die && a.owner.core == g.core && (match a.loc with
    | .peer p addr => p == h.core && decide (addr / 0x10000 = b)
    | .dpa _ => false)) ||
  s.rops.any (fun r => r.owner.coreId == g && r.origin.isNone && (r.remoteCells s ++ r.localCells s ++ r.storeCells).any fun x =>
    decide (x / 2 ^ 16 = (2 ^ 50 + coreNo h.die h.core * 2 ^ 24) / 2 ^ 16 + b)) ||
  k.chans.toList.any (fun ch => ch.rows.any fun r => bits r.img.toNat 112 2 == 0 && (entryCores g r.img).contains h &&
    touches (entryDst r.img r.r) (entryLen r.img + 128) b) ||
  (g == h && k.ctxs.toList.any fun x => heldIn x b) ||
  (g == h && k.wins.toList.any fun w => w.opn && w.rows.any fun r =>
    touches (wRing w.desc + r.n % wNSlot w.desc * wSlot w.desc) (wSlot w.desc) b) ||
  (g == h && k.cmds.any fun q => overlaps q.reads (b * 0x10000) 0x10000 || overlaps q.writes (b * 0x10000) 0x10000)
/-- BTAKE (R239). -/
def btakeOut (home : BitVec 2) (buf : BitVec 7) (n : BitVec 4) (c : CtxId) (s : State) : SlotOut :=
  let me := inQuad c.core
  let k := peerCore c home.toNat
  match (s.core k).own[buf.toNat]? with
  | some (.offered d g) =>
    if d ≠ me ∨ giverBusy s (peerCore c g.val) k buf.toNat then .wait none
    else if home.toNat = me.val then .go (setOwn k buf.toNat .home)
    else .go fun t => sendQuiet c 5 2 (.handle (Fin.ofNat 16 n.toNat) (bufHandle home.toNat buf.toNat))
      (setOwn k buf.toNat (.held me) t)
  | _ => .wait none
/-- Set or clear an admission bit of a buffer (R240). -/
def admitSrc (k : CoreId) (buf src ch : Nat) (on : Bool) (s : State) : State :=
  let m : Byte := 1#8 <<< (2 * src + ch)
  s.modCore k fun x =>
    { x with adm := if h : buf < 96 then x.adm.set buf (if on then x.adm[buf] ||| m else x.adm[buf] &&& ~~~m) else x.adm }

/-! ## Flags (R223) -/

/-- FSET, held on a speculative path (Table 25.11). -/
def fsetOut (n : Nat) (v : W64) (c : CtxId) (s : State) : SlotOut :=
  if busyAny (s.core c.coreId) (4 * n) 4 then .freeze id else .go (ctxWrite c none (4 * n) (toBytes 4 (lo32 v).toNat))
/-- FADD: one update of the flag, on the value that the bundle's own store has left (R224); the old value lands 4 cycles after issue. -/
def faddOut (n : Nat) (d : Code7) (v : W64) (c : CtxId) (s : State) : SlotOut :=
  if acqPending s c || busyAny (s.core c.coreId) (4 * n) 4 then .freeze id
  else .go fun t =>
    let old := rdFlag (csView t c) n
    sendRes c 5 4 d (old.setWidth 64) (holdWrite c none (.fadd n (lo32 v)) (setFlag c.coreId n (old + lo32 v)) t)
/-- FWAIT and FWAITEQ. -/
def fwaitOut (n : Nat) (test : W32 → Bool) (c : CtxId) (s : State) : SlotOut :=
  if acqPending s c || busyWritten (s.core c.coreId) (4 * n) 4 then .freeze id
  else if test (rdFlag (csView s c) n) then .go id else .wait none

/-! ## Stream ports (R225 to R227) -/

/-- Results in flight to a port keep the binding that it had: each takes its element's position in landing order (R227). -/
def detachPort (c : CtxId) (p : Fin 8) (s : State) : State :=
  s.modCtx c fun x =>
    let b := x.arch.ports[p.val]
    let mine (f : Flight) : Bool := match f.act with
      | .port q _ _ => q == p
      | _ => false
    let before (i : Nat) (f : Flight) : Nat :=
      (x.flights.zipIdx.filter fun g => mine g.1 && (decide (g.1.rem < f.rem) || (g.1.rem == f.rem && decide (g.2 < i)))).length
    { x with flights := x.flights.zipIdx.map fun fi =>
        let f := fi.1
        match f.act with
        | .port q v sl => if q = p then { f with act := .drain { b with pos := b.pos + BitVec.ofNat 64 (before fi.2 f * b.bytes) } v sl } else f
        | _ => f }
/-- Bind a port (R225, Table 13.9). -/
def bindPort (c : CtxId) (p : Fin 8) (b : Port) (s : State) : State :=
  (detachPort c p s).modArch c fun a => { a with ports := a.ports.set p.val b }
/-- A region binding; a length that is 0 or no multiple of the width binds the port unbound. -/
def regionPort (dir : BitVec 1) (wd : BitVec 2) (sx : BitVec 1) (x y : W64) : Port :=
  let n := (lo32 y).toNat
  if n = 0 ∨ n % 2 ^ wd.toNat ≠ 0 then .unbound else ⟨true, dir == 1#1, wd, sx == 1#1, none, x.toNat, n, 0, false⟩
/-- A window binding; a window that is not open, or of the other direction, binds the port unbound. -/
def windowPort (s : State) (c : CtxId) (dir : BitVec 1) (wd : BitVec 2) (sx : BitVec 1) (w : Fin 8) : Port :=
  let k := (s.core c.coreId).wins[w.val]
  if !k.opn || wDir k.desc != dir.toNat then .unbound else ⟨true, dir == 1#1, wd, sx == 1#1, some w, 0, 0, 0, false⟩
/-- SUNB (R227): an output port unbinds once no result to it is in flight. -/
def unbindPort (c : CtxId) (p : Fin 8) (s : State) : State :=
  s.modCtx c fun x =>
    let b := x.arch.ports[p.val]
    let b' : Port := if b.bound && b.out && decide (0 < inFlightTo x p) then { b with closing := true } else .unbound
    { x with arch := { x.arch with ports := x.arch.ports.set p.val b' } }

/-! ## Ordering (R251, R252, R263, R264) -/

/-- An access of the context whose home scope lies within X, or a remote operation of it. -/
def within (s : State) (c : CtxId) (x : Nat) (acc : Access → Bool) (rop : Rop → Bool) : Bool :=
  let u := (s.ctx c).b.uid
  s.accesses.any (fun a => a.owner == c && a.uid == u && decide (a.scope ≤ x) && acc a) ||
  s.rops.any fun r => r.owner == c && r.uid == u && r.kind != .lbsend && rop r
/-- The target of a remote operation lies within X. -/
def Rop.targetIn (r : Rop) (x : Nat) : Bool := decide (r.scope ≤ x)
/-- A byte of memory that its local side has still to read or write lies within X (R261). -/
def Rop.localIn (s : State) (r : Rop) (x : Nat) : Bool := (r.localCells s).any fun a => decide (cellScope r.owner a ≤ x)
/-- DRAIN still waits (R263): PREF is not among the accesses of R251. -/
def drainBusy (s : State) (c : CtxId) (x : Nat) : Bool := within s c x (fun a => a.op != .pref) (fun r => r.targetIn x || r.localIn s x)
/-- Accesses that read: loads, atomics and object updates. -/
def AccOp.reads : AccOp → Bool
  | .load => true
  | .amo _ _ => true
  | .amoc _ _ => true
  | .obj _ => true
  | _ => false
/-- Accesses that write: stores, atomics and object updates. -/
def AccOp.writes : AccOp → Bool
  | .store _ => true
  | .amo _ _ => true
  | .amoc _ _ => true
  | .obj _ => true
  | _ => false
/-- fence.rel still waits for non-local writes, those of a GET or RAMO to a VA among them (R264, R381). -/
def relBusy (s : State) (c : CtxId) (x : Nat) : Bool :=
  within s c x (fun a => a.op.writes && !a.performed) (fun r => (r.kind != .get && r.targetIn x) || (r.kind != .put && r.localIn s x))
/-- fence.rel (R264): first the context's own output-stream elements and VCMP flags land, in real time, so that every earlier core-store write has
performed. -/
def relOut (x : Nat) (c : CtxId) (s : State) : SlotOut :=
  if (s.ctx c).flights.any (fun f => match f.act with
    | .port _ _ _ => true
    | .drain _ _ _ => true
    | .flags _ _ => true
    | _ => false) then .land
  else if relBusy s c x then .wait none
  else .go id
/-- fence.acq: the earlier non-local reads that later core-store reads wait for (R252, R264). -/
def acqIds (s : State) (c : CtxId) (x : Nat) : List Nat :=
  let u := (s.ctx c).b.uid
  (s.accesses.filter fun a => a.owner == c && a.uid == u && decide (a.scope ≤ x) && a.op.reads).map Access.id ++
  (s.rops.filter fun r => r.owner == c && r.uid == u && r.kind != .lbsend && (if r.kind = .put then r.localIn s x else r.targetIn x)).map Rop.id

/-! ## Traps (R163 to R165) -/

/-- TRET (R165): a TRAPPC that is no bundle start is BADTARGET. -/
def tretOut (c : CtxId) (s : State) : SlotOut :=
  let a := s.arch c
  if !a.inh then .go id
  else match targetAt s c a.trappc with
    | .bad => .trap ⟨0x01, a.trappc.setWidth 64⟩
    | .trap e => .trap e
    | .await p => .freeze (awaitPage c p)
    | .ok => .go fun t => t.modArch c leaveTrap

/-- Plan of NOP_C: C-slot no-operation. (R100) -/
def planNopC : Plan := Plan.nop .c
/-- NOP_C (R100). -/
def execNopC (s : State) : Host.Outcome State Fault Refusal := runPlan (planNopC) s

/-- Plan of CPY: Starts a copy channel on a transfer list, optionally through the dependency table. (R232) -/
def planCpy (ch : BitVec 1) (x : Code7) (n : Spec) (dw : BitVec 1) (k : BitVec 4) : Plan := planCx true x (cpyOut ch n dw (.cpy ch x n dw k))
/-- CPY (R232). -/
def execCpy (ch : BitVec 1) (x : Code7) (n : Spec) (dw : BitVec 1) (k : BitVec 4) (s : State) : Host.Outcome State Fault Refusal := runPlan (planCpy ch x n dw k) s

/-- Plan of CPWP: Returns a channel's write pointer or raises its stored error. (R233) -/
def planCpwp (d : Code7) (ch : BitVec 1) : Plan := ⟨.c, [], [], some d, true, fun _ c s => chanRaise c ch s (.go (cRes c d (chanOf s c ch).wp))⟩
/-- CPWP (R233). -/
def execCpwp (d : Code7) (ch : BitVec 1) (s : State) : Host.Outcome State Fault Refusal := runPlan (planCpwp d ch) s

/-- Plan of CPWAIT: Waits until the write pointer reaches a value or raises the stored error. (R233) -/
def planCpwait (ch : BitVec 1) (x : Code7) : Plan := planCx true x fun v c s => chanRaise c ch s (if v.toNat ≤ (chanOf s c ch).wp.toNat then .go id else .wait none)
/-- CPWAIT (R233). -/
def execCpwait (ch : BitVec 1) (x : Code7) (s : State) : Host.Outcome State Fault Refusal := runPlan (planCpwait ch x) s

/-- Plan of CPABORT: Stops a channel at its first attempt, waits for rows in flight, clears any error. (R234) -/
def planCpabort (ch : BitVec 1) : Plan := planC true (cpabortOut ch)
/-- CPABORT (R234). -/
def execCpabort (ch : BitVec 1) (s : State) : Host.Outcome State Fault Refusal := runPlan (planCpabort ch) s

/-- Plan of BARINIT: Initialises a barrier object. (R236) -/
def planBarinit (x : Code7) (y : Code7) : Plan := planCxy true x y fun r v c s => objectOut (.barinit (lo32 v)) noRes r c s
/-- BARINIT (R236). -/
def execBarinit (x : Code7) (y : Code7) (s : State) : Host.Outcome State Fault Refusal := runPlan (planBarinit x y) s

/-- Plan of BAREXP: Adds an expected byte count to PENDING and tests for completion. (R236) -/
def planBarexp (x : Code7) (y : Code7) : Plan := planCxy true x y fun r v c s => objectOut (.barexp (lo32 v)) noRes r c s
/-- BAREXP (R236). -/
def execBarexp (x : Code7) (y : Code7) (s : State) : Host.Outcome State Fault Refusal := runPlan (planBarexp x y) s

/-- Plan of BARARR: Adds one arrival and bytes to a barrier object and tests for completion. (R236) -/
def planBararr (x : Code7) (y : Code7) : Plan := planCxy true x y fun r v c s => objectOut (.bararr (lo32 v)) noRes r c s
/-- BARARR (R236). -/
def execBararr (x : Code7) (y : Code7) (s : State) : Host.Outcome State Fault Refusal := runPlan (planBararr x y) s

/-- Plan of BARWAIT: Waits until the object's phase differs from the given parity. (R237) -/
def planBarwait (x : Code7) (y : Code7) : Plan := planCxy true x y fun r v c s => objectOut (.barwait (v.extractLsb' 0 1)) noRes r c s
/-- BARWAIT (R237). -/
def execBarwait (x : Code7) (y : Code7) (s : State) : Host.Outcome State Fault Refusal := runPlan (planBarwait x y) s

/-- Plan of BARTST: Returns the object's phase word. (R237) -/
def planBartst (d : Code7) (x : Code7) : Plan := ⟨.c, [(9, x)], [], some d, true, fun _ c s => objectOut .bartst (toDst d) (readOp s c x) c s⟩
/-- BARTST (R237). -/
def execBartst (d : Code7) (x : Code7) (s : State) : Host.Outcome State Fault Refusal := runPlan (planBartst d x) s

/-- Plan of WOPEN: Waits for a free window and opens it from a descriptor. (R241) -/
def planWopen (w : BitVec 3) (x : Code7) : Plan := planCx true x (wopenOut (Fin.ofNat 8 w.toNat))
/-- WOPEN (R241). -/
def execWopen (w : BitVec 3) (x : Code7) (s : State) : Host.Outcome State Fault Refusal := runPlan (planWopen w x) s

/-- Plan of WADV: Retires or publishes window rows. (R243) Earlier stores to a slot have performed when they issued; elements of an output port that are
still in flight land later, as after any bundle (DESIGN CHOICE, log 73: the rule does not say whether its order covers them). -/
def planWadv (w : BitVec 3) (x : Code7) : Plan := planCx true x fun v c s => winRaise c (Fin.ofNat 8 w.toNat) s (.go (modWin c.coreId (Fin.ofNat 8 w.toNat) fun k => k.advance (lo32 v).toNat))
/-- WADV (R243). -/
def execWadv (w : BitVec 3) (x : Code7) (s : State) : Host.Outcome State Fault Refusal := runPlan (planWadv w x) s

/-- Plan of WCLOSE: Ends a window after its rows in flight complete. (R244) -/
def planWclose (w : BitVec 3) : Plan := planC true fun c s => winRaise c (Fin.ofNat 8 w.toNat) s (.go (modWin c.coreId (Fin.ofNat 8 w.toNat) fun k => if k.opn then Win.settle { k with closing := true } else k))
/-- WCLOSE (R244). -/
def execWclose (w : BitVec 3) (s : State) : Host.Outcome State Fault Refusal := runPlan (planWclose w) s

/-- Plan of WSTAT: Returns a window's status word. (R244) -/
def planWstat (d : Code7) (w : BitVec 3) : Plan := ⟨.c, [], [], some d, true, fun _ c s => winRaise c (Fin.ofNat 8 w.toNat) s (.go (cRes c d (((s.core c.coreId).wins[w.toNat]).status)))⟩
/-- WSTAT (R244). -/
def execWstat (d : Code7) (w : BitVec 3) (s : State) : Host.Outcome State Fault Refusal := runPlan (planWstat d w) s

/-- Plan of RRES: Waits for space and reserves the next ring sequence. (R248) -/
def planRres (d : Code7) (x : Code7) : Plan := ⟨.c, [(9, x)], [], some d, true, fun _ c s => objectOut .rres (toDst d) (readOp s c x) c s⟩
/-- RRES (R248). -/
def execRres (d : Code7) (x : Code7) (s : State) : Host.Outcome State Fault Refusal := runPlan (planRres d x) s

/-- Plan of RPUB: Publishes a ring sequence, possibly out of turn. (R249) -/
def planRpub (x : Code7) (y : Code7) : Plan := planCxy true x y fun r v c s => objectOut (.rpub (lo32 v)) noRes r c s
/-- RPUB (R249). -/
def execRpub (x : Code7) (y : Code7) (s : State) : Host.Outcome State Fault Refusal := runPlan (planRpub x y) s

/-- Plan of RTAKE: Waits until a ring sequence is published. (R250) -/
def planRtake (x : Code7) (y : Code7) : Plan := planCxy true x y fun r v c s => objectOut (.rtake (lo32 v)) noRes r c s
/-- RTAKE (R250). -/
def execRtake (x : Code7) (y : Code7) (s : State) : Host.Outcome State Fault Refusal := runPlan (planRtake x y) s

/-- Plan of RREL: Releases a ring sequence. (R250) -/
def planRrel (x : Code7) (y : Code7) : Plan := planCxy true x y fun r v c s => objectOut (.rrel (lo32 v)) noRes r c s
/-- RREL (R250). -/
def execRrel (x : Code7) (y : Code7) (s : State) : Host.Outcome State Fault Refusal := runPlan (planRrel x y) s

/-- Plan of BGIVE: Offers a core-store buffer to a quad core. (R238) -/
def planBgive (home : BitVec 2) (buf : Code7) (rcv : BitVec 2) : Plan := planC true (bgiveOut home buf rcv)
/-- BGIVE (R238). -/
def execBgive (home : BitVec 2) (buf : Code7) (rcv : BitVec 2) (s : State) : Host.Outcome State Fault Refusal := runPlan (planBgive home buf rcv) s

/-- Plan of BTAKE: Waits for an offer and takes the buffer, writing a buffer handle. (R239) -/
def planBtake (home : BitVec 2) (buf : Code7) (n : BitVec 4) : Plan := planC true (btakeOut home buf n)
/-- BTAKE (R239). -/
def execBtake (home : BitVec 2) (buf : Code7) (n : BitVec 4) (s : State) : Host.Outcome State Fault Refusal := runPlan (planBtake home buf n) s

/-- Plan of BOPEN: Admits a quad channel's multicast into a buffer. (R240) -/
def planBopen (buf : Code7) (src : BitVec 2) (ch : BitVec 1) : Plan := planC true fun c _ => .go (admitSrc c.coreId buf.toNat src.toNat ch.toNat true)
/-- BOPEN (R240). -/
def execBopen (buf : Code7) (src : BitVec 2) (ch : BitVec 1) (s : State) : Host.Outcome State Fault Refusal := runPlan (planBopen buf src ch) s

/-- Plan of BCLOSE: Ends a multicast admission. (R240) -/
def planBclose (buf : Code7) (src : BitVec 2) (ch : BitVec 1) : Plan := planC true fun c _ => .go (admitSrc c.coreId buf.toNat src.toNat ch.toNat false)
/-- BCLOSE (R240). -/
def execBclose (buf : Code7) (src : BitVec 2) (ch : BitVec 1) (s : State) : Host.Outcome State Fault Refusal := runPlan (planBclose buf src ch) s

/-- Plan of FSET: Writes a flag word. (R223) -/
def planFset (n : BitVec 10) (x : Code7) : Plan := planCx false x (fsetOut n.toNat)
/-- FSET (R223). -/
def execFset (n : BitVec 10) (x : Code7) (s : State) : Host.Outcome State Fault Refusal := runPlan (planFset n x) s

/-- Plan of FADD_FLAG: Adds to a flag word and returns its old value. (R223) -/
def planFaddFlag (n : BitVec 10) (x : Code7) (d : Code7) : Plan := ⟨.c, [(9, x)], [], some d, false, fun _ c s => faddOut n.toNat d (readOp s c x) c s⟩
/-- FADD_FLAG (R223). -/
def execFaddFlag (n : BitVec 10) (x : Code7) (d : Code7) (s : State) : Host.Outcome State Fault Refusal := runPlan (planFaddFlag n x d) s

/-- Plan of FWAIT: Waits until a flag is at least a value. (R223) -/
def planFwait (n : BitVec 10) (x : Code7) : Plan := planCx true x fun v c s => fwaitOut n.toNat (fun f => decide ((lo32 v).toNat ≤ f.toNat)) c s
/-- FWAIT (R223). -/
def execFwait (n : BitVec 10) (x : Code7) (s : State) : Host.Outcome State Fault Refusal := runPlan (planFwait n x) s

/-- Plan of FWAITEQ: Waits until a flag equals a value. (R223) -/
def planFwaiteq (n : BitVec 10) (x : Code7) : Plan := planCx true x fun v c s => fwaitOut n.toNat (fun f => f == lo32 v) c s
/-- FWAITEQ (R223). -/
def execFwaiteq (n : BitVec 10) (x : Code7) (s : State) : Host.Outcome State Fault Refusal := runPlan (planFwaiteq n x) s

/-- Plan of SBIND: Binds a stream port to a circular core-store region. (R225) An element that it reads from the port itself is taken from the old binding. -/
def planSbind (p : BitVec 3) (dir : BitVec 1) (wd : BitVec 2) (sx : BitVec 1) (x : Code7) (y : Code7) : Plan :=
  planCxy true x y fun u v c _ => .after (bindPort c (Fin.ofNat 8 p.toNat) (regionPort dir wd sx u v))
/-- SBIND (R225). -/
def execSbind (p : BitVec 3) (dir : BitVec 1) (wd : BitVec 2) (sx : BitVec 1) (x : Code7) (y : Code7) (s : State) : Host.Outcome State Fault Refusal := runPlan (planSbind p dir wd sx x y) s

/-- Plan of SBIND_WINDOW: Binds a stream port to a window's rows. (R246) -/
def planSbindWindow (p : BitVec 3) (dir : BitVec 1) (wd : BitVec 2) (sx : BitVec 1) (w : BitVec 3) : Plan := planC true fun c s => .go (bindPort c (Fin.ofNat 8 p.toNat) (windowPort s c dir wd sx (Fin.ofNat 8 w.toNat)))
/-- SBIND_WINDOW (R246). -/
def execSbindWindow (p : BitVec 3) (dir : BitVec 1) (wd : BitVec 2) (sx : BitVec 1) (w : BitVec 3) (s : State) : Host.Outcome State Fault Refusal := runPlan (planSbindWindow p dir wd sx w) s

/-- Plan of SUNB: Unbinds a stream port. (R227) -/
def planSunb (p : BitVec 3) : Plan := planC true fun c _ => .go (unbindPort c (Fin.ofNat 8 p.toNat))
/-- SUNB (R227). -/
def execSunb (p : BitVec 3) (s : State) : Host.Outcome State Fault Refusal := runPlan (planSunb p) s

/-- Plan of SPOS: Returns a stream port's position. (R227) -/
def planSpos (d : Code7) (p : BitVec 3) : Plan := 
  ⟨.c, [], [], some d, true, fun _ c s =>
    let b := ((s.arch c).ports)[p.toNat]
    .go (cRes c d (if b.bound then b.pos else 0))⟩
/-- SPOS (R227). -/
def execSpos (d : Code7) (p : BitVec 3) (s : State) : Host.Outcome State Fault Refusal := runPlan (planSpos d p) s

/-- Plan of TDSET: Loads a tile descriptor from a core-store image; a failing one is named in TRAPADDR by the address aligned down to 32 (R228; DESIGN CHOICE,
log 73: the rule says only that bits [4:0] are ignored). -/
def planTdset (k : BitVec 4) (x : Code7) : Plan := 
  planCx true x fun v c s =>
    let a : W64 := BitVec.ofNat 64 (alignDown v.toNat 32)
    let img : BitVec 256 := BitVec.ofNat 256 (rdLE (csView s c) a.toNat 32)
    csLoad s c a 32 (.go fun t => t.modCtx c fun z => { z with d := z.d.set k.toNat img })
/-- TDSET (R228). -/
def execTdset (k : BitVec 4) (x : Code7) (s : State) : Host.Outcome State Fault Refusal := runPlan (planTdset k x) s

/-- Plan of TDGET: Returns eight bytes of a tile descriptor. (R228) -/
def planTdget (d : Code7) (k : BitVec 4) (q : BitVec 2) : Plan := 
  ⟨.c, [], [], some d, true, fun _ c s => .go (cRes c d (((s.ctx c).d[k.toNat]).extractLsb' (64 * q.toNat) 64))⟩
/-- TDGET (R228). -/
def execTdget (d : Code7) (k : BitVec 4) (q : BitVec 2) (s : State) : Host.Outcome State Fault Refusal := runPlan (planTdget d k q) s

/-- Plan of LOOP: Pushes a hardware loop with a count from a register. (R155) -/
def planLoop (x : Code7) (n : Spec) : Plan := planCx false x fun v c s => loopOut false (lo32 v).toNat n.toNat 0 0 c s
/-- LOOP (R155). -/
def execLoop (x : Code7) (n : Spec) (s : State) : Host.Outcome State Fault Refusal := runPlan (planLoop x n) s

/-- Plan of LOOPI: Pushes a hardware loop with an immediate count. (R155) -/
def planLoopi (lo : Code7) (hi : Code7) (n : Spec) : Plan := planC false (loopOut false (hi.toNat * 128 + lo.toNat) n.toNat 0 0)
/-- LOOPI (R155). -/
def execLoopi (lo : Code7) (hi : Code7) (n : Spec) (s : State) : Host.Outcome State Fault Refusal := runPlan (planLoopi lo hi n) s

/-- Plan of PLOOP: Pushes a pipelined loop with stages and epilogue passes. (R158) -/
def planPloop (x : Code7) (n : Spec) (s1 : BitVec 3) (e : BitVec 3) : Plan := planCx false x fun v c s => loopOut true (lo32 v).toNat n.toNat (s1.toNat + 1) e.toNat c s
/-- PLOOP (R158). -/
def execPloop (x : Code7) (n : Spec) (s1 : BitVec 3) (e : BitVec 3) (s : State) : Host.Outcome State Fault Refusal := runPlan (planPloop x n s1 e) s

/-- Plan of LEXIT: Pops loop levels. (R156) -/
def planLexit (k : BitVec 3) : Plan := planC false fun c _ => .go fun t => t.modArch c fun a => { a with loops := a.loops.drop k.toNat }
/-- LEXIT (R156). -/
def execLexit (k : BitVec 3) (s : State) : Host.Outcome State Fault Refusal := runPlan (planLexit k) s

/-- Plan of SETTI: Writes a target register from a code-address offset. (R162) -/
def planSetti (k : BitVec 3) (imm : BitVec 18) : Plan := planC false fun c s => .go (setTarget c k.toNat ((s.arch c).pc + (sext64 imm.toNat 18).extractLsb' 0 32))
/-- SETTI (R162). -/
def execSetti (k : BitVec 3) (imm : BitVec 18) (s : State) : Host.Outcome State Fault Refusal := runPlan (planSetti k imm) s

/-- Plan of LINK: Writes the return address into t6. (R162) -/
def planLink : Plan := planC false fun c s => .go (setTarget c 6 (succAt s c (s.arch c).pc))
/-- LINK (R162). -/
def execLink (s : State) : Host.Outcome State Fault Refusal := runPlan (planLink) s

/-- Plan of DRAIN: Waits until earlier non-local accesses at the scope have performed. (R263) -/
def planDrain (scope : BitVec 3) : Plan := planC true fun c s => if drainBusy s c scope.toNat then .wait none else .go id
/-- DRAIN (R263). -/
def execDrain (scope : BitVec 3) (s : State) : Host.Outcome State Fault Refusal := runPlan (planDrain scope) s

/-- Plan of FENCE_ACQ: Orders later core-store reads after earlier non-local reads. (R264) -/
def planFenceAcq (scope : BitVec 3) : Plan := planC true fun c s => .go fun t => t.modCtx c fun z => { z with acq := z.acq ++ acqIds s c scope.toNat }
/-- FENCE_ACQ (R264). -/
def execFenceAcq (scope : BitVec 3) (s : State) : Host.Outcome State Fault Refusal := runPlan (planFenceAcq scope) s

/-- Plan of FENCE_REL: Waits until earlier writes at the scope have performed. (R264) -/
def planFenceRel (scope : BitVec 3) : Plan := planC true (relOut scope.toNat)
/-- FENCE_REL (R264). -/
def execFenceRel (scope : BitVec 3) (s : State) : Host.Outcome State Fault Refusal := runPlan (planFenceRel scope) s

/-- Plan of TRAP: Raises a completing SOFTWARE trap. (R164) -/
def planTrap (code : BitVec 18) : Plan := 
  planC true fun c s => .go fun t => postTrap c ⟨0x0D, code.setWidth 64⟩ (succAt s c (s.arch c).pc) 5 0 t
/-- TRAP (R164). -/
def execTrap (code : BitVec 18) (s : State) : Host.Outcome State Fault Refusal := runPlan (planTrap code) s

/-- Plan of TRET: Returns from a trap handler to TRAPPC. (R165) -/
def planTret : Plan := planC true tretOut
/-- TRET (R165). -/
def execTret (s : State) : Host.Outcome State Fault Refusal := runPlan (planTret) s

/-- Close a link buffer as LBFREE.CLOSE does: at once, or after the last byte of an arriving message (R389). -/
def LinkBuf.close (l : LinkBuf) : LinkBuf :=
  if l.st = .filling then { l with closeAfter := true, emptyAfter := false }
  else { l with st := .closed, holder := none, obj := none, err := none, closeAfter := false, emptyAfter := false }

end Sys2Proof.Machine
end

