-- ==== Sys2Proof/Machine/Requests.lean ====
section
/-! DEFINITION. What the engines share (13 R231, R253; 11 R171, R201 to R204; 21 R331, R334): late errors, host-window requests,
the pieces of a run of bytes, what stops a channel, a window or a remote operation, and refusals. -/

namespace Sys2Proof.Machine

/-! ## Late errors and identities -/

/-- Give a late error to the task with an identity, bound or saved (R253, R346). -/
def lateTo (c : CtxId) (uid : Nat) (e : Err) (slot : BitVec 3) (s : State) : State :=
  if (s.ctx c).b.uid = uid ∧ (s.ctx c).st.bound then s.modCtx c fun x => { x with late := x.late ++ [⟨e, slot, false⟩] }
  else { s with saved := s.saved.map fun v =>
    if v.ctx.b.uid = uid then { v with ctx := { v.ctx with late := v.ctx.late ++ [⟨e, slot, false⟩] } } else v }
/-- Answer a first-attempt action of the context's bundle (R422). -/
def answerAtt (c : CtxId) (id : Nat) (a : Attempt) (s : State) : State :=
  s.modCtx c fun x => if x.att = .sent id then { x with att := a } else x
/-- Remove an access. -/
def dropAccess (id : Nat) (s : State) : State := { s with accesses := s.accesses.filter fun a => a.id != id }
/-- Change an access. -/
def modAccess (id : Nat) (f : Access → Access) (s : State) : State :=
  { s with accesses := s.accesses.map fun a => if a.id = id then f a else a }
/-- An access ends with an error (R202, R253): an object instruction raises it at its own bundle, a load, store or atomic at the next bundle. -/
def failAccess (a : Access) (e : Err) (s : State) : State :=
  let s := dropAccess a.id s
  match a.op with
  | .obj _ => answerAtt a.owner a.id (.failed e) s
  | .pref => s
  | _ => lateTo a.owner a.uid e 2 s
/-- Change a remote operation. -/
def modRop (id : Nat) (f : Rop → Rop) (s : State) : State := { s with rops := s.rops.map fun r => if r.id = id then f r else r }
/-- Remove a remote operation. -/
def dropRop (id : Nat) (s : State) : State := { s with rops := s.rops.filter fun r => r.id != id }

/-! ## Host-window requests (R203, R204) -/

/-- Send a host-window request and remember it: one frame, MWRITE or MREAD of the tenant with the window offset. -/
def hostSend (t : BitVec 4) (req : Req) (write : Bool) (off : Nat) (data : List Byte) (len tries : Nat) (s : State) (place : Nat := 0) : State :=
  let payload := if write then toBytes 8 off ++ data else toBytes 8 off ++ toBytes 8 len
  let s := sendFrame (if write then 3 else 4) t payload s
  { s with hostReqs := s.hostReqs ++ [⟨(s.ten t).txSeq, t, req, write, off, data, len, tries, (s.die 0).ptb, place⟩] }
/-- A host-window request of this origin is out. -/
def hostOut (s : State) (r : Req) : Bool := s.hostReqs.any fun q => q.req == r

/-! ## Runs of bytes through page tables -/

/-- The die at which a device-physical address is served: that of its page's stack, of its vault, or die 0 for a host window (R25, R26, R30). -/
def dpaHome (s : State) (dpa : Nat) : Fin 4 :=
  if dpaSpace dpa = 0 then stackDie (bits (dpitEntry s (dpa / 2 ^ 16)).toNat 20 3)
  else if dpaSpace dpa = 1 then Fin.ofNat 4 (dpa / 2 ^ 28)
  else 0
/-- A device-physical address is a vault's: what goes there keeps to the in-package links (R25). -/
def dpaVault (dpa : Nat) : Bool := dpaSpace dpa == 1
/-- The place that an entry names: STACK and LPAGE. -/
def placeBits (e : BitVec 32) : Nat := bits e.toNat 0 23
/-- The entry that a die has cached for a page names a place that the page has left (R201). -/
def staleRoute (s : State) (d : Fin 4) (dpa : Nat) : Bool :=
  dpaSpace dpa == 0 && placeBits (routeOf s d (.dpa dpa)) != placeBits (dpitEntry s (dpa / 2 ^ 16))
/-- A forwarding pointer brings a die's cached entry up to date (R201). -/
def refreshRoute (d : Fin 4) (dpa : Nat) (s : State) : State :=
  s.modDie d fun x => { x with dcache := (dpa / 2 ^ 16, dpitEntry s (dpa / 2 ^ 16)) :: x.dcache.filter fun q => q.1 != dpa / 2 ^ 16 }
/-- Where the next bytes of a run lie. -/
inductive Piece where
  | mem (dpa : Nat) (view : BitVec 2) (len : Nat)
  | host (off len : Nat)
  | miss (va : W64)
  | err (e : Err)
  deriving DecidableEq, Repr
/-- The next piece of a run of n bytes at a VA: within one page, checked for the kind of access (R171, R188, R203, R231). A row over two pages is
checked against the element grid page by page, and TRAPADDR is the VA of the piece that fails (DESIGN CHOICE, log 46: R188 says 'as they stand'). -/
def pieceAt (s : State) (k : CoreId) (t : BitVec 4) (va n : Nat) (write atomic : Bool) : Piece :=
  if va ≥ 2 ^ 48 then .err ⟨0x11, BitVec.ofNat 64 va⟩
  else match translate s k t (BitVec.ofNat 64 va) with
    | none => .miss (BitVec.ofNat 64 va)
    | some e =>
      let len := min n (pteSize e - va % pteSize e)
      let d := vaDpa e (BitVec.ofNat 64 va)
      if (write && (!pteW e || pteX e)) || ((!write || atomic) && !pteR e) then .err ⟨0x11, BitVec.ofNat 64 va⟩
      else if dpaSpace d = 2 then
        (if atomic then .err ⟨0x07, BitVec.ofNat 64 va⟩ else .host (d % 2 ^ 40) (min len 8176))
      else if !viewOk s d len then .err ⟨0x11, BitVec.ofNat 64 va⟩
      else .mem d (pteView e) len
/-- An engine of a core translates the addresses of a run of bytes: each walk that ends with an entry fills the TLBs, whatever the entry allows (R331). -/
def walkPages (k : CoreId) (t : BitVec 4) (va n : Nat) (s : State) : State :=
  forEach (va :: ((List.range ((va % 2 ^ 16 + n - 1) / 2 ^ 16)).map fun i => (va / 2 ^ 16 + i + 1) * 2 ^ 16)) (fun a => fillWalk k t (BitVec.ofNat 64 a)) s
/-- An engine of a core has translated an address: a walk fills the TLBs (R331), and the die's fabric caches the entry it routes by (R173). -/
def usePage (k : CoreId) (t : BitVec 4) (va dpa : Nat) (s : State) : State :=
  cacheRoute k.die (.dpa dpa) (fillWalk k t (BitVec.ofNat 64 va) s)
/-- An engine of a core has used a page at once: its access to HBM counts too (R195). -/
def touchPage (k : CoreId) (t : BitVec 4) (va dpa : Nat) (write : Bool) (cells : List Nat) (s : State) : State :=
  noteUse k.die write cells (usePage k t va dpa s)
/-- The reached device-physical addresses of a run of written bytes, or why they cannot all be written now; `atomic` ones are read too. -/
def runCells (s : State) (k : CoreId) (t : BitVec 4) (atomic : Bool) : Nat → Nat → Nat → Except Piece (List Nat)
  | 0, _, _ => .ok []
  | f + 1, va, n =>
    if n = 0 then .ok []
    else match pieceAt s k t va n true atomic with
      | .mem d v len => (match runCells s k t atomic f (va + len) (n - len) with
          | .ok l => .ok (((List.range len).map fun i => reach s v (d + i)) ++ l)
          | .error p => .error p)
      | p => .error p
/-- A program's bytes are stored at reached device-physical addresses (R349). -/
def storeCells (cells : List Nat) (bs : List Byte) (s : State) : State :=
  tearRecords cells (forEach (cells.zip bs) (fun p s => dpaWrite p.1 p.2 s) s)

/-! ## Copy channels, windows and what stops them (R233, R245) -/

/-- SKIND of an entry (Table 13.8). -/
def entSKind (e : BitVec 256) : Nat := bits e.toNat 48 2
/-- DKIND. -/
def entDKind (e : BitVec 256) : Nat := bits e.toNat 112 2
/-- Fault reports of a channel or a window that has stopped are open no longer: it waits for no page. -/
def dropFaults (d : Fin 4) (a : Agent) (s : State) : State := s.modDie d fun x => { x with faults := x.faults.filter fun f => f.agent != a }
/-- A channel stops with an error (R233). -/
def chanStop (k : CoreId) (ch : Fin 2) (e : Err) (s : State) : State :=
  dropFaults k.die (.chan k ch) (modChan k ch (fun x => { x with err := some e, left := 0, cur := none, rows := [], opens := [], miss := none }) s)
/-- A channel waits for the page of a VA (R231, R334). -/
def chanMiss (k : CoreId) (ch : Fin 2) (t : BitVec 4) (va : W64) (kind : FaultKind) (s : State) : State :=
  modChan k ch (fun x => { x with miss := some va }) (reportFault k.die ⟨t, va, kind, .chan k ch⟩ s)
/-- Change a row of a channel. -/
def modRow (k : CoreId) (ch : Fin 2) (n : Nat) (f : Row → Row) (s : State) : State :=
  modChan k ch (fun h => { h with rows := h.rows.map fun r => if r.k = n then f r else r }) s
/-- A window stops with an error (R245). -/
def winStop (k : CoreId) (w : Fin 8) (e : Err) (s : State) : State :=
  dropFaults k.die (.win k w) (modWin k w (fun x => { x with err := some e, rows := [], miss := none }) s)
/-- A window waits for the page of a VA. -/
def winMiss (k : CoreId) (w : Fin 8) (t : BitVec 4) (va : W64) (kind : FaultKind) (s : State) : State :=
  modWin k w (fun x => { x with miss := some va }) (reportFault k.die ⟨t, va, kind, .win k w⟩ s)
/-- Change a window row, by the number of its requests. -/
def modWRow (k : CoreId) (w : Fin 8) (n : Nat) (f : WRow → WRow) (s : State) : State :=
  modWin k w (fun x => { x with rows := x.rows.map fun r => if r.id = n then f r else r }) s
/-- The VA of tensor row n. -/
def winRowVa (d : BitVec 512) (n : Nat) : Nat := wrapN ((wTBase d : Int) + n * wTPitch d) 64
/-- The tenant of a window's opener, which is its core's. -/
def winTenant (s : State) (k : CoreId) (w : Fin 8) : BitVec 4 := (s.ctx ((s.core k).wins[w.val]).opener).b.tenant
/-- The offset in a row at which its next bytes are read or delivered. -/
def rowNext (need : List Nat) (left : List Nat) : Nat := (need.head?.orElse fun _ => left.head?).getD 0
/-- A row of a copy entry has a request to a page: it reads a VA source, or, its bytes read, writes a VA destination (R231). -/
def rowAtPage (r : Row) : Bool := if r.need.isEmpty then entDKind r.img == 1 && !r.left.isEmpty else entSKind r.img == 1
/-- The VA of that request. -/
def rowVa (r : Row) : W64 :=
  let o := match r.req with
    | some q => q.off
    | none => rowNext r.need (r.left.map Prod.snd)
  BitVec.ofNat 64 ((if r.need.isEmpty then entryDst r.img r.r else entrySrc r.img r.r) + o)
/-- A window row has a request to a page: an inbound row that is not read whole, an outbound one that is not stored whole (R242). -/
def winRowAtPage (d : BitVec 512) (r : WRow) : Bool := if wDir d = 0 then !r.need.isEmpty else !r.left.isEmpty
/-- The VA of that request. -/
def winRowReqVa (d : BitVec 512) (r : WRow) : W64 :=
  let o := match r.req with
    | some q => q.off
    | none => rowNext r.need r.left
  BitVec.ofNat 64 (winRowVa d r.n + o)

/-! ## Requests of rows to pages (R201, R231, R242, R373) -/

/-- Change the run of a host frame. -/
def modRun (i : Nat) (f : HostRun → HostRun) (s : State) : State := { s with runs := s.runs.map fun r => if r.id = i then f r else r }
/-- A host frame whose run cannot go on, its page gone or refused, is refused as one whose page is absent; what has performed stands (R406; DESIGN CHOICE, log
71). -/
def refuseRun (i : Nat) (s : State) : State :=
  match s.runs.find? fun r => r.id == i with
  | none => s
  | some r => notify r.tenant 3 3 r.seq 0 { s with runs := s.runs.filter fun q => q.id != i }

/-- Bytes of a list replaced from a place on. -/
def setSlice (l : List Byte) (o : Nat) (bs : List Byte) : List Byte := l.take o ++ bs ++ l.drop (o + bs.length)
/-- Offsets outside a run. -/
def outside (o n : Nat) (l : List Nat) : List Nat := l.filter fun i => decide (i < o) || decide (o + n ≤ i)
/-- The run of bytes that an event picks among offsets still to do: from the one at place `sel` on, at most `len` in sequence, all of the sequence for
`len` 0; with `words` whole words. Bytes of a row move in any order (R231, R254). -/
def pickRun (l : List Nat) (sel len : Nat) (words : Bool) : Nat × Nat :=
  let a := l.getD (sel % l.length) 0
  let a := if words then a / 4 * 4 else a
  let n := conseq a (l.dropWhile (· != a))
  let m := if len = 0 then n else min len n
  (a, if words then max 4 (m / 4 * 4) else m)
where
  /-- How many numbers follow one another from `a` on. -/
  conseq : Nat → List Nat → Nat
    | _, [] => 0
    | a, b :: l => if a = b then 1 + conseq (a + 1) l else 0
/-- The bytes of WP that a channel's rows have not counted: those of its leading rows that have been delivered to every destination without a gap (R232). -/
def Chan.count (h : Chan) : Chan :=
  let whole (r : Row) : Nat := (r.left.map Prod.snd).foldl min (entryLen r.img)
  let lead := h.rows.takeWhile fun r => whole r == entryLen r.img
  let front := h.rows.take (lead.length + 1)
  { h with
    wp := h.wp + BitVec.ofNat 64 ((front.map fun r => whole r - r.counted).sum)
    rows := (front.map fun r => { r with counted := whole r }) ++ h.rows.drop front.length }
/-- The bytes of a row's request to a page have been read, or have been written: the row goes on. -/
def rowMoved (q : Req) (bs : List Byte) (s : State) : State :=
  match q with
  | .row k ch i => modChan k ch Chan.count (modRow k ch i (fun r => match r.req with
      | none => r
      | some p =>
        let r := { r with hop := .start, refusals := 0, req := none }
        if r.need.isEmpty then { r with left := r.left.filter fun l => decide (l.2 < p.off) || decide (p.off + p.n ≤ l.2) }
        else { r with data := setSlice r.data p.off bs, need := outside p.off p.n r.need }) s)
  | .winRow k w i => modWRow k w i (fun r => match r.req with
      | none => r
      | some p =>
        let r := { r with hop := .start, refusals := 0, req := none }
        if r.need.isEmpty then { r with left := outside p.off p.n r.left }
        else { r with data := setSlice r.data p.off bs, need := outside p.off p.n r.need }) s
  | .frame i => modRun i (fun r => match r.req with
      | none => r
      | some p =>
        let r := { r with hop := .start, refusals := 0, req := none, left := outside p.off p.n r.left }
        if r.write then r else { r with data := setSlice r.data p.off bs }) s
  | .access _ | .remote _ | .lbSend _ | .coll _ _ | .plan _ | .text _ | .header _ _ _ | .away _ _ | .mapHdr _ _ => s
/-- Where a row's request is, and what it is. -/
def rowHop (q : Req) (h : Hop) (p : Option PageReq) (s : State) : State :=
  match q with
  | .row k ch i => modRow k ch i (fun r => { r with hop := h, req := p }) s
  | .winRow k w i => modWRow k w i (fun r => { r with hop := h, req := p }) s
  | .frame i => modRun i (fun r => { r with hop := h, req := p }) s
  | .access _ | .remote _ | .lbSend _ | .coll _ _ | .plan _ | .text _ | .header _ _ _ | .away _ _ | .mapHdr _ _ => s
/-- A row waits for the page of a VA (R231, R245). -/
def rowMiss (q : Req) (t : BitVec 4) (va : W64) (kind : FaultKind) (s : State) : State :=
  match q with
  | .row k ch _ => chanMiss k ch t va kind s
  | .winRow k w _ => winMiss k w t va kind s
  | .frame i => refuseRun i s
  | .access _ | .remote _ | .lbSend _ | .coll _ _ | .plan _ | .text _ | .header _ _ _ | .away _ _ | .mapHdr _ _ => s
/-- A row stops its channel or window with an error (R233, R245). -/
def rowStop (q : Req) (e : Err) (s : State) : State :=
  match q with
  | .row k ch _ => chanStop k ch e s
  | .winRow k w _ => winStop k w e s
  | .frame i => refuseRun i s
  | .access _ | .remote _ | .lbSend _ | .coll _ _ | .plan _ | .text _ | .header _ _ _ | .away _ _ | .mapHdr _ _ => s

/-! ## Refusals (R202) -/

/-- A refused operation is sent again later, without the bytes that its target has taken, to another package whole; flits of one attempt are refused once,
an operation that has performed is not sent again (R382), and the sixteenth refusal ends it as REFUSED (R202, R380, R388). -/
def ropRefused (id : Nat) (s : State) : State :=
  match s.rops.find? (fun r => r.id == id) with
  | none => s
  | some r =>
    if r.hold ∨ r.stage = 3 ∨ r.stage = 4 then s
    else if r.refusals + 1 < 16 then
      modRop id (fun r =>
        let r := { r with refusals := r.refusals + 1, hold := true, stage := 0 }
        if r.kind = .get ∨ r.kind = .ramo then r
        else if r.away.isSome then { r with need := List.range r.len }
        else
          let r := if r.kind = .lbsend ∧ r.arrived = 0 then { r with data := [] } else r
          let n := r.left.filter fun i => !r.waits i
          { r with need := n, stage := if n = [] then 1 else 0 }) s
    else if r.kind = .lbsend then
      dropRop id (s.modDie r.src fun d =>
        let l := d.lbs[r.lb.val]
        { d with lbs := d.lbs.set r.lb.val { l with sending := none, err := some ⟨0x0E, BitVec.ofNat 64 r.lb.val⟩ } })
    else modRop id (fun r => { r with refusals := 16, err := some ⟨0x0E, r.desc.extractLsb' 64 64⟩, stage := 4, data := [] }) s
/-- A refusal of a request is counted: the request is held for the hint's time, and its sixteenth refusal ends it as REFUSED. Each piece of a row is
a request of its own. -/
def refuseReq (q : Req) (s : State) : State :=
  match q with
  | .access id => (match s.accesses.find? (fun a => a.id == id) with
    | none => s
    | some a => if 16 ≤ a.refusals + 1 then failAccess a ⟨0x0E, a.va⟩ s
      else modAccess id (fun a => { a with refusals := a.refusals + 1, hold := true, hop := .start, since := none }) s)
  | .remote id => ropRefused id s
  | .lbSend id => ropRefused id s
  | .row k ch n => (match ((s.core k).chans[ch.val]).rows.find? (fun r => r.k == n) with
    | none => s
    | some r => if 16 ≤ r.refusals + 1 then chanStop k ch ⟨0x0E, rowVa r⟩ s
      else modRow k ch n (fun r => { r with refusals := r.refusals + 1, hold := true, hop := .start }) s)
  | .winRow k w n => (match ((s.core k).wins[w.val]).rows.find? (fun r => r.id == n) with
    | none => s
    | some r => if 16 ≤ r.refusals + 1 then winStop k w ⟨0x0E, winRowReqVa ((s.core k).wins[w.val]).desc r⟩ s
      else modWRow k w n (fun r => { r with refusals := r.refusals + 1, hold := true, hop := .start }) s)
  | .frame i => (match s.runs.find? (fun r => r.id == i) with
    | none => s
    | some r => if 16 ≤ r.refusals + 1 then refuseRun i s
      else modRun i (fun r => { r with refusals := r.refusals + 1, hold := true, hop := .start }) s)
  | .coll _ _ | .plan _ | .text _ | .header _ _ _ | .mapHdr _ _ => s
  | .away a t => { s with rops := s.rops.map fun r => if r.origin = some (a, t) then { r with stage := 5 } else r }

end Sys2Proof.Machine
end

