-- ==== Sys2Proof/Machine/Links.lean ====
section
/-! DEFINITION. The fabric's links, flits and routes (25 R368 to R377; 01 R25, R28, R29): routing, the wire format, credits, replay, retraining, lane
repair, and links out of service. -/

namespace Sys2Proof.Machine

/-! ## Links and routes (R368, R369) -/

/-- A link of a die. -/
def linkOf (s : State) (d : Fin 4) (l : Fin 6) : Link := (s.die d).links[l.val]
/-- Change a link. -/
def modLink (d : Fin 4) (l : Fin 6) (f : Link → Link) (s : State) : State :=
  s.modDie d fun x => { x with links := x.links.set l.val (f x.links[l.val]) }
/-- The link of dimension k by which a ring of n coordinates is travelled from a to b: the shorter way, + where both are equally long (R368). -/
def ringLink (k n a b : Nat) : Option (Fin 6) :=
  if a = b then none else some (Fin.ofNat 6 (2 * k + (if 2 * ((b + n - a) % n) ≤ n then 1 else 0)))
/-- The link by which one identifier's die routes to another's up to the first RECONF: X first, then Y, then Z (R368). -/
def idHop (s : State) (i dest : BitVec 12) : Fin 6 :=
  ((ringLink 0 (s.podX.toNat + 1) (idX i) (idX dest)).orElse fun _ =>
    (ringLink 1 (s.podY.toNat + 1) (idY i) (idY dest)).orElse fun _ => ringLink 2 (s.podZ.toNat + 1) (idZ i) (idZ dest)).getD 0
/-- The same from a die of this package. -/
def torusHop (s : State) (d : Fin 4) (dest : BitVec 12) : Fin 6 := idHop s (dieId s d) dest
/-- The in-package link toward another die of the package (R25, Table 01.5). -/
def packageHop (d : Fin 4) (dest : BitVec 12) : Fin 6 :=
  if idX dest % 2 ≠ brickX d then (if brickX d = 0 then 1 else 0) else if brickY d = 0 then 3 else 2
/-- The link by which a die sends a flit on: a vault access keeps to the in-package links (R25); else the installed route table or, before the first
RECONF, the torus (R368). -/
def nextHop (s : State) (d : Fin 4) (f : Flit) : Fin 6 :=
  if f.vault then packageHop d f.dest
  else match (s.die d).routes with
    | some t => Fin.ofNat 6 (((t.find? fun e => e.1 == f.dest.toNat).map Prod.snd).getD 0)
    | none => torusHop s d f.dest
/-- What the links on a die's way to another die of the package do with a new request: carry it, make it wait while one of them trains or drains, or refuse
it where one is out of service (R375, R377, R395). A way that an installed route takes out of the package is known as far as its first external link. -/
inductive WayState where
  | carries | waits | refuses
  deriving DecidableEq, Repr
/-- The state of the way from one die to another, looking at so many links; vault traffic keeps to the in-package links (R25). -/
def reaches (s : State) (vault : Bool) (h : Fin 4) : Nat → Fin 4 → WayState
  | 0, d => if d = h then .carries else .refuses
  | n + 1, d =>
    let x := linkOf s d (nextHop s d ⟨.accReq, 2, dieId s d, dieId s h, .access 0, 0, [], 0, vault⟩)
    if d = h then .carries
    else if !x.up then .refuses
    else if x.out.isSome then (if x.training || x.draining then .waits else .carries)
    else match reaches s vault h n x.farDie with
      | .refuses => .refuses
      | .waits => .waits
      | .carries => if x.training || x.draining then .waits else .carries
/-- Tenants that hold a key are told of an event of the device (R417). -/
def notifyKeyed (code : W16) (s : State) : State :=
  forEach (List.range 16) (fun i s =>
    let t := BitVec.ofNat 4 i
    if (s.ten t).key.isSome then notify t 0 code 0 0 s else s) s
/-- REPLACE is set, with its NOTIFY on the change (R417). -/
def setReplace (s : State) : State := if s.replace then s else notifyKeyed 1 { s with replace := true }
/-- A flit that carries a request, which the router in front of a dead link refuses (R377). -/
def FlitKind.isRequest : FlitKind → Bool
  | .putReq | .putData | .getReq | .ramoReq | .lbReq | .lbData | .accReq | .rowReq => true
  | .putAck | .getData | .ramoRes | .refuse | .failed | .time | .accRes | .rowRes | .arrival | .outcome | .planMeet | .credits => false
/-- The refusal that answers a request of a die of another package. -/
def refusalOf (f : Flit) : Flit := ⟨.refuse, 1, f.dest, f.src, f.tag, 0, [], 0, false⟩
/-- A request is refused by the router of a die in front of a dead link: one of this package is refused at once, one of another package by a reply (R377). -/
def refuseFlit (d : Fin 4) (f : Flit) (s : State) : State :=
  match f.tag with
  | .away _ _ => modLink d (nextHop s d (refusalOf f)) (fun x => { x with txq := x.txq ++ [refusalOf f] }) s
  | q => refuseReq q s
/-- Queue a flit at a link; a link out of service refuses requests, and replies wait (R377). -/
def pushFlit (d : Fin 4) (l : Fin 6) (f : Flit) (s : State) : State :=
  if (linkOf s d l).up || !f.kind.isRequest then modLink d l (fun x => { x with txq := x.txq ++ [f] }) s
  else refuseFlit d f s

/-! ## Flits at their die (R373) -/

/-- An access whose answer has reached its die ends; a load or atomic then waits for LDH_REPLY to write its register (R214). -/
def finishAccess (a : Access) (s : State) : State :=
  match a.bad with
  | some e => failAccess a e s
  | none => match a.op with
    | .store _ => dropAccess a.id s
    | .pref => dropAccess a.id s
    | .obj _ => answerAtt a.owner a.id (.done a.val) (dropAccess a.id s)
    | .load => modAccess a.id (fun b => { b with hop := .done }) s
    | .amo _ _ => modAccess a.id (fun b => { b with hop := .done }) s
    | .amoc _ _ => modAccess a.id (fun b => { b with hop := .done }) s
/-- A request has reached the die of its target. -/
def Hop.arrive (h : Hop) : Hop := if h = .out then .home else h
/-- A request of an access or of a row has reached its die. -/
def requestHome (q : Req) (s : State) : State :=
  match q with
  | .access id => modAccess id (fun a => { a with hop := a.hop.arrive }) s
  | .row k ch n => modRow k ch n (fun r => { r with hop := r.hop.arrive }) s
  | .winRow k w n => modWRow k w n (fun r => { r with hop := r.hop.arrive }) s
  | .frame i => modRun i (fun r => { r with hop := r.hop.arrive }) s
  | .remote _ | .lbSend _ | .coll _ _ | .plan _ | .text _ | .header _ _ _ | .away _ _ | .mapHdr _ _ => s
/-- The answer to a request of a row comes back: the bytes read, or none for bytes that have been written. -/
def rowReply (q : Req) (bs : List Byte) (s : State) : State :=
  let back : Bool := match q with
    | .row k ch i => ((s.core k).chans[ch.val]).rows.any fun r => r.k == i && r.hop == .back
    | .winRow k w i => ((s.core k).wins[w.val]).rows.any fun r => r.id == i && r.hop == .back
    | .frame i => s.runs.any fun r => r.id == i && r.hop == .back
    | .access _ | .remote _ | .lbSend _ | .coll _ _ | .plan _ | .text _ | .header _ _ _ | .away _ _ | .mapHdr _ _ => false
  if back then rowMoved q bs s else s
/-- The remote operation or message that a tag names. -/
def Rop.has (r : Rop) : Req → Bool
  | .remote id | .lbSend id => r.id == id
  | .away a t => r.origin == some (a, t)
  | .access _ | .row _ _ _ | .winRow _ _ _ | .coll _ _ | .plan _ | .text _ | .header _ _ _ | .frame _ | .mapHdr _ _ => false
/-- Change the operation that a tag names. -/
def modReq (q : Req) (f : Rop → Rop) (s : State) : State := { s with rops := s.rops.map fun r => if r.has q then f r else r }
/-- Change where the arrival or the outcome of a member of a round is. -/
def memberHop (q : Req) (f : Hop → Hop) (s : State) : State :=
  match q with
  | .coll id c => { s with rounds := s.rounds.map fun (r : Round) =>
      if r.id = id then { r with members := r.members.map fun m => if m.c = c then { m with hop := f m.hop } else m } else r }
  | .access _ | .remote _ | .row _ _ _ | .winRow _ _ _ | .lbSend _ | .plan _ | .text _ | .header _ _ _ | .away _ _ | .frame _ | .mapHdr _ _ => s
/-- An operation takes the bytes of a flit; bytes sent again are taken once. -/
def Rop.takes (r : Rop) (f : Flit) : Rop :=
  if r.err.isSome then r
  else { r with data := r.data ++ ((f.data.zipIdx f.off).filter fun p => r.left.contains p.2 && !r.waits p.2).map fun p => (p.2, p.1) }
/-- An answer ends an operation's travel; it carries the cause of an error or the old value of a RAMO. -/
def Rop.answered (r : Rop) (f : Flit) : Rop :=
  match f.kind, f.data with
  | .failed, b :: _ => { r with stage := 4, err := some ⟨b, r.desc.extractLsb' 64 64⟩, data := [] }
  | .ramoRes, b :: bs => { r with stage := 4, old := BitVec.ofNat 64 (ofBytes (b :: bs)) }
  | _, _ => { r with stage := 4 }
/-- A message of a link buffer that is complete at its far end in another package (R388). -/
def lbAnswered (f : Flit) (s : State) : State :=
  match s.rops.find? (fun r => r.has f.tag && r.kind == .lbsend) with
  | none => modReq f.tag (fun r => r.answered f) s
  | some r => dropRop r.id (s.modDie r.src fun d => { d with lbs := d.lbs.set r.lb.val { d.lbs[r.lb.val] with sending := none } })
/-- An operation or message of a die of another package has come to a die of this one, which serves it: `data` holds its tenant, then the descriptor, or the
buffer and the length of a message (log 18). Its `uid` is that of no task, but one for each die that sends, so that what a die sends keeps its order (R260). -/
def foreignRop (k : RopKind) (f : Flit) (s : State) : State :=
  match f.tag, dieOfId s f.dest with
  | .away a t, some d =>
    if s.rops.any (fun r => r.has f.tag) then s
    else
      let b (i n : Nat) : Nat := ofBytes ((f.data.drop i).take n)
      let desc : BitVec 256 := if k = .lbsend then 0 else BitVec.ofNat 256 (b 1 32)
      let len := if k = .lbsend then b 2 4 else ropBytes k desc
      let n := s.fresh
      { n.2 with rops := n.2.rops ++ [
        { id := n.1, owner := CtxId.zero, uid := 2 ^ 80 + a.toNat, tenant := BitVec.ofNat 4 (b 0 1), kind := k, desc := desc, src := d, dest := d, away := none,
          origin := some (a, t), scope := 5, lb := 0, lbTo := if k = .lbsend then Fin.ofNat 16 (b 1 1) else 0,
          len := len, need := List.range len, left := sinkOffs k len, data := [], stage := if k = .put ∨ k = .lbsend then 1 else 2,
          old := 0, cells := [], err := none, refusals := 0, hold := false }] }
  | _, _ => s
/-- The dies of the pod. -/
def podDies (s : State) : Nat := (s.podX.toNat + 1) * (s.podY.toNat + 1) * (s.podZ.toNat + 1)
/-- The rounds of a scope meet in another package: those of a pod of several packages, and those of teams that span packages, meet at the pod's die 0
(R366, R373, R399; DESIGN CHOICE, log 18: the spec does not say where). -/
def meetsAfar (s : State) (scope : Nat) : Bool := decide (5 ≤ scope) && podDies s != 4 && (dieOfId s 0).isNone
/-- The die of this package at which rounds of a scope entered at a die meet. -/
def roundDie (s : State) (scope : Nat) (d : Fin 4) : Fin 4 := if 5 ≤ scope ∧ podDies s ≠ 4 then (dieOfId s 0).getD d else d
/-- Change a round. -/
def modRound (id : Nat) (f : Round → Round) (s : State) : State :=
  { s with rounds := s.rounds.map fun (q : Round) => if q.id = id then f q else q }
/-- AND or OR of contributions. -/
def joinVals (op : BitVec 1) (a b : Bool) : Bool := if op = 0#1 then a && b else a || b
/-- What an arrival at a round of another package carries (log 18): the tenant, its CGM value, the round, its contribution, and whether the member leaves
the group. -/
def arrivalBytes (t : BitVec 4) (g : W64) (seq : W32) (v gone : Bool) : List Byte :=
  [t.setWidth 8] ++ toBytes 8 g.toNat ++ toBytes 4 seq.toNat ++ [if v then 1 else 0, if gone then 1 else 0]
/-- What an outcome carries to another package (log 18): the member's index, the outcome, the number declared absent, and whether the group disagreed. -/
def outcomeBytes (index : Nat) (o : Bool) (n : Nat) (odd : Bool) : List Byte :=
  toBytes 2 index ++ [if o then 1 else 0, if odd then 1 else 0] ++ toBytes 2 (min n 65535)
/-- An arrival from another package has come to the die where its round meets: it joins, it is late and will be told, or its member has left the group
(R399). -/
def farArrival (d : Fin 4) (a : BitVec 12) (t : BitVec 16) (l : List Byte) (s : State) : State :=
  let b (i n : Nat) : Nat := ofBytes ((l.drop i).take n)
  let ten : BitVec 4 := BitVec.ofNat 4 (b 0 1)
  let g := b 1 8
  let idx := bits g 0 16
  let cnt := bits g 16 16
  let gid : W16 := BitVec.ofNat 16 (bits g 32 16)
  let op : BitVec 1 := BitVec.ofNat 1 (bits g 60 1)
  let seq : W32 := BitVec.ofNat 32 (b 9 4)
  let v := b 13 1 != 0
  let sc := bits g 61 3
  let mine (x : Left) : Bool := x.tenant == ten && x.gid == gid && x.scope == sc && x.index == idx
  let s := { s with left := s.left.filter fun x => !mine x }
  if b 14 1 ≠ 0 then { s with left := s.left ++ [⟨ten, gid, sc, 0, idx⟩] }
  else match s.rounds.find? (fun (r : Round) => r.count != 0 && r.tenant == ten && r.gid == gid && r.scope == sc && r.seq == seq && !r.sent &&
      (r.formed.isNone || r.absent.contains idx)) with
  | some r => modRound r.id (fun q =>
      let q := { q with afar := q.afar ++ [(a, t, idx)], odd := q.odd || !(cnt == q.count && op == q.op && bits g 56 4 == q.tout) }
      if q.formed.isSome then { q with absent := q.absent.filter (· != idx) }
      else if q.seen.contains idx then q
      else { q with seen := q.seen ++ [idx], acc := joinVals q.op q.acc v }) s
  | none =>
    let f := s.fresh
    { f.2 with rounds := f.2.rounds ++ [
      { id := f.1, tenant := ten, gid := gid, scope := sc, inst := 0, seq := seq, op := op, count := cnt, tout := bits g 56 4, die := d,
        start := (s.die d).ptb, members := [], seen := [idx], acc := v, formed := none, absent := [], odd := false, afar := [(a, t, idx)],
        sent := false, due := false }] }
/-- The outcome of a round that meets in another package has come for one of its members here (R399). -/
def farOutcome (t : BitVec 16) (l : List Byte) (s : State) : State :=
  let b (i n : Nat) : Nat := ofBytes ((l.drop i).take n)
  { s with rounds := s.rounds.map fun (r : Round) =>
    if r.sent ∧ r.id % 2 ^ 16 = t.toNat then
      { r with formed := some (b 2 1 != 0, b 4 2), odd := r.odd || b 3 1 != 0
               members := r.members.map fun m => if m.index = b 0 2 then { m with hop := .done } else m }
    else r }
/-- A flit has reached its die. -/
def deliverFlit (f : Flit) (s : State) : State :=
  match f.kind with
  | .putReq => foreignRop .put f s
  | .lbReq => foreignRop .lbsend f s
  | .putData => modReq f.tag (fun r => r.takes f) s
  | .getData => modReq f.tag (fun r => r.takes f) s
  | .lbData =>
    (match s.rops.find? (fun r => r.has f.tag) with
     | none => s
     | some r =>
       if r.arrived = 0 ∧ r.data = [] then { s with rops := s.rops.filter (fun q => q.id != r.id) ++ [r.takes f] }
       else modRop r.id (fun r => r.takes f) s)
  | .getReq => if s.rops.any (fun r => r.has f.tag) then modReq f.tag (fun r => if r.stage = 1 then { r with stage := 2 } else r) s else foreignRop .get f s
  | .ramoReq => if s.rops.any (fun r => r.has f.tag) then modReq f.tag (fun r => if r.stage = 1 then { r with stage := 2 } else r) s else foreignRop .ramo f s
  | .putAck => lbAnswered f s
  | .ramoRes => modReq f.tag (fun r => r.answered f) s
  | .failed => modReq f.tag (fun r => r.answered f) s
  | .refuse => refuseReq f.tag s
  | .accReq => requestHome f.tag s
  | .rowReq => requestHome f.tag s
  | .accRes =>
    (match s.accesses.find? (fun a => Req.access a.id == f.tag) with
     | none => s
     | some a => finishAccess a s)
  | .rowRes => rowReply f.tag f.data s
  | .arrival => (match f.tag, dieOfId s f.dest with
    | .away a t, some d => farArrival d a t f.data s
    | q, _ => memberHop q Hop.arrive s)
  | .outcome => (match f.tag with
    | .away _ t => farOutcome t f.data s
    | q => memberHop q (fun h => if h = .back then .done else h) s)
  | .planMeet => { s with reconfs := s.reconfs.map fun r =>
      { r with members := r.members.map fun m => if f.tag = .plan m.c then { m with met := true } else m } }
  | .time => s
  | .credits => s
/-- Send a flit from a die toward its destination (R368, R369). -/
def routeFlit (d : Fin 4) (f : Flit) (s : State) : State :=
  if dieOfId s f.dest = some d then deliverFlit f s else pushFlit d (nextHop s d f) f s

/-! ## The wire (R372 to R374) -/

/-- The kinds in the order of their codes in KIND, which are internal to the fabric (log 18). -/
def flitKinds : List FlitKind :=
  [.putData, .getReq, .ramoReq, .putAck, .getData, .ramoRes, .refuse, .failed, .lbData, .time, .accReq, .accRes, .rowReq, .rowRes, .arrival, .outcome,
   .planMeet, .credits, .putReq, .lbReq]
/-- The tag of a request as 16 bits (Table 25.2). -/
def reqTag : Req → Nat
  | .access id => id % 2 ^ 16
  | .remote id => id % 2 ^ 16
  | .row _ _ k => k % 2 ^ 16
  | .winRow _ _ n => n % 2 ^ 16
  | .lbSend id => id % 2 ^ 16
  | .coll id _ => id % 2 ^ 16
  | .plan c | .text c => coreNo c.die c.core * 8 + c.ctx.val
  | .frame id => id % 2 ^ 16
  | .header _ _ _ | .mapHdr _ _ => 0
  | .away _ t => t.toNat
/-- One byte through CRC-32C, least significant bit first. -/
def crcByte (c : W32) (b : Byte) : W32 :=
  (List.range 8).foldl (fun c _ => if c.getLsbD 0 then (c >>> 1) ^^^ 0x82F63B78#32 else c >>> 1) (c ^^^ b.setWidth 32)
/-- CRC-32C of bytes (R372). -/
def crc32c (bs : List Byte) : W32 := ~~~(bs.foldl crcByte 0xFFFFFFFF#32)
/-- Most bytes of an operation or a message in one flit: the place of its bytes in the operation stands before them in the payload (log 18). -/
def chunkMax : Nat := 236
/-- A flit that carries bytes of an operation or a message. -/
def FlitKind.hasPlace : FlitKind → Bool
  | .putData | .getData | .lbData => true
  | .putReq | .getReq | .ramoReq | .putAck | .ramoRes | .refuse | .failed | .lbReq | .time | .accReq | .accRes | .rowReq | .rowRes | .arrival | .outcome
  | .planMeet | .credits => false
/-- An answer to a remote operation or message. -/
def FlitKind.isAnswer : FlitKind → Bool
  | .putAck | .getData | .ramoRes | .refuse | .failed => true
  | .putData | .putReq | .getReq | .ramoReq | .lbReq | .lbData | .time | .accReq | .accRes | .rowReq | .rowRes | .arrival | .outcome | .planMeet
  | .credits => false
/-- The payload of a flit. -/
def Flit.payload (f : Flit) : List Byte := if f.kind.hasPlace then toBytes 4 f.off ++ f.data else f.data
/-- Bytes 0x00 to 0xFB of a flit with its SEQ and ACK (Table 25.2). -/
def Flit.body (f : Flit) (seq ack : BitVec 12) : List Byte :=
  toBytes 4 (flitKinds.idxOf f.kind * 2 ^ 26 + f.vc % 4 * 2 ^ 24 + ack.toNat * 2 ^ 12 + seq.toNat) ++
  toBytes 4 (f.credit % 2 ^ 8 * 2 ^ 24 + f.src.toNat * 2 ^ 12 + f.dest.toNat) ++
  toBytes 4 (f.payload.length * 2 ^ 16 + reqTag f.tag) ++ (f.payload ++ List.replicate (240 - f.payload.length) 0)
/-- The 256 bytes of a flit (Table 25.2). -/
def Flit.wire (f : Flit) (seq ack : BitVec 12) : List Byte := f.body seq ack ++ toBytes 4 (crc32c (f.body seq ack)).toNat
/-- 256 bytes whose CRC is correct, LEN legal and reserved byte 0. -/
def wireOk (bs : List Byte) : Bool :=
  bs.length == 256 && ofBytes (bs.drop 252) == (crc32c (bs.take 252)).toNat && decide (ofBytes ((bs.drop 10).take 1) ≤ 240) && bs[11]? == some 0
/-- Two flits are one on the wire, apart from SEQ, ACK and CREDIT. -/
def Flit.same (f g : Flit) : Bool :=
  f.kind == g.kind && f.vc == g.vc && f.src == g.src && f.dest == g.dest && reqTag f.tag == reqTag g.tag && f.payload == g.payload
/-- A flit as it comes from a die of another package: its SEQ, its ACK and what it carries. A flit that has left this package comes back as it was; an answer
names an operation of this package; a request names the operation of the die that sent it (R368, R373). -/
def wireFlit (s : State) (bs : List Byte) : Option (BitVec 12 × BitVec 12 × Flit) :=
  let w (i : Nat) : Nat := ofBytes ((bs.drop (4 * i)).take 4)
  match (if wireOk bs then flitKinds[bits (w 0) 26 6]? else none) with
  | none => none
  | some k =>
    let src : BitVec 12 := BitVec.ofNat 12 (bits (w 1) 12 12)
    let dest : BitVec 12 := BitVec.ofNat 12 (w 1)
    let t : BitVec 16 := BitVec.ofNat 16 (w 2)
    let l := (bs.drop 12).take (bits (w 2) 16 8)
    let f : Flit :=
      { kind := k, vc := bits (w 0) 24 2, src := src, dest := dest, tag := .away src t, off := if k.hasPlace then ofBytes (l.take 4) else 0
        data := if k.hasPlace then l.drop 4 else l, credit := bits (w 1) 24 8 }
    let f := match s.abroad.find? f.same, (if k.isAnswer then s.rops.find? fun r => r.away == some src && r.id % 2 ^ 16 == t.toNat else none) with
      | some g, _ => { g with credit := f.credit }
      | none, some r => { f with tag := if r.kind = .lbsend then .lbSend r.id else .remote r.id }
      | none, none => f
    some (BitVec.ofNat 12 (w 0), BitVec.ofNat 12 (bits (w 0) 12 12), f)
/-- A virtual channel's number. -/
def Flit.chan (f : Flit) : Fin 4 := Fin.ofNat 4 f.vc
/-- A flit that the sender may send: the far end has a buffer of its channel free; a flit that only returns credits takes none (Table 25.2). -/
def Link.mayFill (l : Link) (f : Flit) : Bool := f.kind == .credits || decide (0 < l.credit[f.chan.val])
/-- Index of the waiting flit that an output sends next: VC0 first; VC3 at least once in 16 (R373). -/
def pickFlit (l : Link) : Option Nat :=
  let first (p : Flit → Bool) : Option Nat := l.txq.findIdx? fun f => p f && l.mayFill f
  match (if 15 ≤ l.slots then first fun f => f.vc == 3 else none) with
  | some i => some i
  | none => firstSome (fun v => first fun f => f.vc == v) [0, 1, 2, 3]
/-- A new flit takes a buffer of the far end and carries the credits owed on its channel. -/
def Link.charge (l : Link) (f : Flit) : Flit × Link :=
  let c := f.chan.val
  let n := min l.owed[c] 255
  ({ f with credit := n }, { l with
    owed := l.owed.set c (l.owed[c] - n), credit := if f.kind = .credits then l.credit else l.credit.set c (l.credit[c] - 1) })
/-- The next flit on the wire from a sending link: a replayed one, or a new one entered into the replay buffer (R374). -/
def wireNext (l : Link) : Option ((BitVec 12 × Flit) × Link) :=
  match l.replay[l.sent]? with
  | some f => some (f, { l with sent := l.sent + 1 })
  | none =>
    if l.draining || decide (256 ≤ l.replay.length) then none
    else match pickFlit l with
      | none => none
      | some i => match l.txq[i]? with
        | none => none
        | some f =>
          let g := l.charge f
          some ((l.seq, g.1), { g.2 with
            txq := l.txq.eraseIdx i, replay := l.replay ++ [(l.seq, g.1)], sent := l.sent + 1, seq := l.seq + 1,
            slots := if f.vc = 3 then 0 else if l.txq.any (fun g => g.vc == 3) then l.slots + 1 else 0 })
/-- Acknowledge every flit before a SEQ. -/
def Link.ack (l : Link) (e : BitVec 12) : Link :=
  let n := (l.replay.takeWhile fun f => decide (1 ≤ (e - f.1).toNat) && decide ((e - f.1).toNat ≤ 2048)).length
  { l with replay := l.replay.drop n, sent := l.sent - n, again := l.again - n, rejects := if l.rejSeq = e then l.rejects else 0 }
/-- Every unacknowledged flit goes out again, in order (R374). -/
def Link.replayAll (l : Link) : Link := { l with sent := 0, again := l.replay.length }
/-- A flit that was sent with a SEQ is discarded, and a negative acknowledgement is due; where it is the one expected, it has failed once more. -/
def Link.discard (q : BitVec 12) (l : Link) : Link :=
  let n := (q - l.expect).toNat
  { l with nack := true, fails := if q = l.expect then l.fails + 1 else l.fails, awaits := if n < 2048 then max l.awaits (n + 1) else l.awaits }
/-- A far end in another package has rejected the flit of a SEQ, which it had failed to receive so many times before: each replay counts once. -/
def Link.rejected (e : BitVec 12) (n : Nat) (l : Link) : Link :=
  if l.rejSeq = e ∧ l.rejects ≠ 0 then (if n = l.rejects ∧ 0 < l.sent then { l with rejects := l.rejects + 1 } else l) else { l with rejSeq := e, rejects := 1 }
/-- A flit of this link has failed as it was first sent and in three replays (R375). -/
def Link.failed (l : Link) : Bool := decide (4 ≤ l.fails) || decide (4 ≤ l.rejects)
/-- A flit is accepted in sequence: its credits count, and the buffer that it leaves is owed to the sender. -/
def Link.accept (l : Link) (f : Flit) : Link :=
  let c := f.chan.val
  { l with expect := l.expect + 1, fails := 0, awaits := l.awaits - 1, nack := false, credit := l.credit.set c (l.credit[c] + f.credit),
           owed := if f.kind = .credits then l.owed else l.owed.set c (l.owed[c] + 1) }
/-- Credits that no flit of the reverse direction has carried for 16 buffers go back on a flit of their own (log 18). -/
def returnCredits (d : Fin 4) (l : Fin 6) (s : State) : State :=
  forEach (List.finRange 4) (fun v s =>
    let x := linkOf s d l
    if 16 ≤ x.owed[v.val] ∧ ¬ x.txq.any (fun f => f.vc == v.val) then
      modLink d l (fun x => { x with txq := x.txq ++ [⟨.credits, v.val, dieId s d, dieId s d, .access 0, 0, [], 0, false⟩] }) s
    else s) s
/-- Both ends of a link are in service and trained; of a link to another package, the end of this one. In THERMAL-TRIP every die has stopped (R35). -/
def linkUp (s : State) (d : Fin 4) (l : Fin 6) : Bool :=
  let x := linkOf s d l
  let y := linkOf s x.farDie x.farLink
  s.hstate != 3 && x.up && !x.training && (x.out.isSome || (y.up && !y.training))
/-- A flit has failed in three replays in a row at an end of a link, so that it has to retrain (R375). -/
def linkFailed (s : State) (d : Fin 4) (l : Fin 6) : Bool :=
  let x := linkOf s d l
  x.failed || (x.out.isNone && (linkOf s x.farDie x.farLink).failed)
/-- Both ends of a link carry flits. -/
def linkRuns (s : State) (d : Fin 4) (l : Fin 6) : Bool := linkUp s d l && !linkFailed s d l
/-- A time message from another package names the master that its die follows: the lowest of those named counts (R371). -/
def hearMaster (d : Fin 4) (l : Fin 6) (f : Flit) (s : State) : State :=
  let m : BitVec 12 := BitVec.ofNat 12 (ofBytes (f.data.drop 8))
  if (linkOf s d l).out.isNone ∨ f.data.length < 10 ∨ (dieOfId s m).isSome ∨ s.ptbAfar.any (fun a => decide (a.toNat ≤ m.toNat)) then s
  else { s with ptbAfar := some m }
/-- An accepted flit goes to its die, or stays with its link: a time message reaches the receiver with the link's delay added,
and what has passed since it was due (`off`, the receiver's count then); a receiver that is not locked yet takes that of any neighbour (R371, log 17). -/
def acceptFlit (d : Fin 4) (l : Fin 6) (f : Flit) (s : State) : State :=
  match f.kind with
  | .time => (hearMaster d l f s).modDie d fun x =>
    let k := x.links[l.val]
    if x.ptbParent = some l ∨ x.ptbLocked = false then
      { x with ptbMsg := some (BitVec.ofNat 64 (ofBytes (f.data.take 8) + k.delay + (if k.out.isSome then 0 else x.ptb.toNat - f.off))) } else x
  | .credits => s
  | _ => routeFlit d f s
/-- A flit arrives at a link with its SEQ and the far end's next expected SEQ: accepted only in sequence and with its CRC correct, else discarded, and a
negative acknowledgement is due (R374). -/
def linkTakes (d : Fin 4) (l : Fin 6) (ok : Bool) (seq e : BitVec 12) (f : Flit) (s : State) : State :=
  if ok && seq == (linkOf s d l).expect then
    acceptFlit d l f (returnCredits d l (modLink d l (fun z => (z.accept f).ack e) s))
  else modLink d l (Link.discard seq) s
/-- A flit between dies of this package that leaves it for the first time is remembered as it was (R368). -/
def goesAbroad (x : Link) (f : Flit) (s : State) : State :=
  if x.sent = x.replay.length ∧ (dieOfId s f.src).isSome ∧ (dieOfId s f.dest).isSome ∧ f.kind ≠ .time ∧ f.kind ≠ .credits then
    { s with abroad := s.abroad ++ [f] }
  else s
/-- A flit that has come back is no longer abroad. -/
def comesHome (f : Flit) (s : State) : State :=
  { s with abroad := match s.abroad.findIdx? f.same with
      | some i => s.abroad.eraseIdx i
      | none => s.abroad }
/-- FLIT_RECEIVE: the next flit on a link's wire reaches the die that the event names; with `ok` its CRC is correct. On a link to another package,
`data` are the 256 bytes that arrive, `num` the SEQ with which they were sent where their CRC is wrong, or with none the far end takes the next flit of this one
(R372, R374). -/
def flitReceive (s : State) : State :=
  let d := s.arg.die
  let l : Fin 6 := Fin.ofNat 6 s.arg.unit
  let x := linkOf s d l
  if !linkRuns s d l then s
  else if x.out.isSome then
    (match s.arg.data, wireFlit s s.arg.data with
     | [], _ => (match wireNext x with
       | none => s
       | some (f, y) => goesAbroad x f.2 (modLink d l (fun _ => y) s))
     | _, none => modLink d l (Link.discard (BitVec.ofNat 12 s.arg.num)) s
     | _, some (seq, a, f) => linkTakes d l s.arg.ok seq (a + 1) f (if s.arg.ok && seq == x.expect then comesHome f s else s))
  else match wireNext (linkOf s x.farDie x.farLink) with
    | none => s
    | some (f, y) => linkTakes d l s.arg.ok f.1 y.expect f.2 (modLink x.farDie x.farLink (fun _ => y) s)
/-- FLIT_RECEIVE (R374). -/
def execFlitReceive (s : State) : Host.Outcome State Fault Refusal := .next (flitReceive s)
/-- NEGATIVE_ACKNOWLEDGEMENT: the sender replays every unacknowledged flit from the SEQ that the receiver expects (R374). On a link to another package
`ok` tells that this end's goes out; else `num` is the SEQ that the far end expects, and `id` how often it had failed to receive that flit before. -/
def negativeAcknowledgement (s : State) : State :=
  let d := s.arg.die
  let l : Fin 6 := Fin.ofNat 6 s.arg.unit
  let x := linkOf s d l
  let e : BitVec 12 := BitVec.ofNat 12 s.arg.num
  if !linkRuns s d l then s
  else if x.out.isSome && !s.arg.ok then
    modLink d l (fun y => ((y.ack e).rejected e s.arg.id).replayAll) s
  else if !x.nack then s
  else
    let u := modLink d l (fun z => { z with nack := false }) s
    if x.out.isSome then u else modLink x.farDie x.farLink (fun y => (y.ack x.expect).replayAll) u
/-- NEGATIVE_ACKNOWLEDGEMENT (R374). -/
def execNegativeAcknowledgement (s : State) : Host.Outcome State Fault Refusal := .next (negativeAcknowledgement s)
/-- ACK_TIMEOUT: a sender whose flits stay unacknowledged replays them (R374). -/
def ackTimeout (s : State) : State :=
  modLink s.arg.die (Fin.ofNat 6 s.arg.unit) (fun y => if y.sent = y.replay.length then y.replayAll else y) s
/-- ACK_TIMEOUT (R374). -/
def execAckTimeout (s : State) : Host.Outcome State Fault Refusal := .next (ackTimeout s)

/-! ## Retraining, lane repair, links out of service (R375 to R377) -/

/-- Both ends of a link change alike; of a link to another package, the end of this one. -/
def bothEnds (d : Fin 4) (l : Fin 6) (f : Link → Link) (s : State) : State :=
  let x := linkOf s d l
  let s := modLink d l f s
  if x.out.isSome ∨ (x.farDie = d ∧ x.farLink = l) then s else modLink x.farDie x.farLink f s
/-- The lane with the most corrected errors. -/
def Link.worst (l : Link) : Fin 18 :=
  (List.finRange 18).foldl (fun b i => if l.laneErr[b.val] < l.laneErr[i.val] then i else b) 0
/-- A link uses a spare lane; without one it retrains on 8 lanes (R375 to R377). -/
def Link.takeSpare (l : Link) : Link :=
  if 0 < l.spares then { l with spares := l.spares - 1 } else { l with lanes8 := true, training := true }
/-- A spare lane takes the place of a lane at one end of a link: the lane starts without errors, and its repair is done (R376). -/
def Link.mended (n : Fin 18) (l : Link) : Link := { l with laneErr := l.laneErr.set n.val 0, repairDue := l.repairDue.filter (· != n) }
/-- A link substitutes a spare lane for a lane at an end. -/
def substitute (d : Fin 4) (l : Fin 6) (n : Fin 18) (s : State) : State := bothEnds d l Link.takeSpare (modLink d l (Link.mended n) s)
/-- A spare pool is empty or a link runs on 8 lanes: REPLACE (R417). -/
def checkLink (d : Fin 4) (l : Fin 6) (s : State) : State :=
  let x := linkOf s d l
  if x.spares = 0 ∨ x.lanes8 then setReplace s else s
/-- LINK_RETRAIN: a flit has failed and failed again in three replays, so the link substitutes a spare lane for the worst lane of the end where it failed, and
trains (R375). -/
def linkRetrain (s : State) : State :=
  let d := s.arg.die
  let l : Fin 6 := Fin.ofNat 6 s.arg.unit
  let x := linkOf s d l
  if linkUp s d l && linkFailed s d l then
    let e := if x.failed then (d, l) else (x.farDie, x.farLink)
    checkLink d l (bothEnds d l (fun y => { y with training := true, fails := 0, rejects := 0 }) (substitute e.1 e.2 (linkOf s e.1 e.2).worst s))
  else s
/-- LINK_RETRAIN (R375). -/
def execLinkRetrain (s : State) : Host.Outcome State Fault Refusal := .next (linkRetrain s)
/-- No replay is outstanding on a link, in either direction: what an end sends again has been acknowledged, it has no negative acknowledgement to answer, and what
it discarded has come again. -/
def linkQuiet (s : State) (d : Fin 4) (l : Fin 6) : Bool :=
  let x := linkOf s d l
  let quiet (y : Link) : Bool := y.sent == y.replay.length && y.again == 0 && !y.nack && y.awaits == 0
  quiet x && (x.out.isSome || quiet (linkOf s x.farDie x.farLink))
/-- A repair that is due takes place once no replay is outstanding (R376). -/
def repairLane (d : Fin 4) (l : Fin 6) (s : State) : State :=
  match (linkOf s d l).repairDue with
  | [] => s
  | n :: _ => if linkRuns s d l && linkQuiet s d l then checkLink d l (substitute d l n s) else s
/-- LANE_REPAIR: with `ok` an error of lane `num` has been corrected, and past the supervisor's limit `id` a repair falls due; a repair that is due
replaces the lane, or waits for the end of a replay (R376). -/
def laneRepair (s : State) : State :=
  let d := s.arg.die
  let l : Fin 6 := Fin.ofNat 6 s.arg.unit
  let n : Fin 18 := Fin.ofNat 18 s.arg.num
  let s := if s.arg.ok then modLink d l (fun x =>
      { x with laneErr := x.laneErr.set n.val (x.laneErr[n.val] + 1), repairDue := if s.arg.id < x.laneErr[n.val] + 1 ∧ n ∉ x.repairDue then x.repairDue ++ [n] else x.repairDue }) s
    else s
  repairLane d l s
/-- LANE_REPAIR (R376). -/
def execLaneRepair (s : State) : Host.Outcome State Fault Refusal := .next (laneRepair s)
/-- Some external link of a die is in service: FEAT bit XLINK (Table 01.11; log 47: the spec does not say whether one link is enough, DESIGN
CHOICE). -/
def hasExternal (d : Fin 4) (ls : Vector Link 6) : Bool := (List.finRange 6).any fun l => !inPackage d l && (ls[l.val]).up
/-- A die without an external link in service loses XLINK, under R338 (R31, log 47). -/
def dropXlink (d : Fin 4) (s : State) : State :=
  s.modDie d fun x => if hasExternal d x.links then x else { x with featDrop := x.featDrop ||| (x.feat &&& 0x200) }
/-- One end of a link goes out of service: what the far end, which expects a SEQ next, has not taken is refused where it is a request, and waits where it is a
reply. -/
def endOut (d : Fin 4) (l : Fin 6) (e : BitVec 12) (s : State) : State :=
  let all := ((linkOf s d l).ack e).replay.map Prod.snd ++ (linkOf s d l).txq
  dropXlink d (forEach (all.filter fun f => f.kind.isRequest) (refuseFlit d)
    (modLink d l (fun x => { x with up := false, training := false, sent := 0, again := 0, replay := [], txq := all.filter fun f => !f.kind.isRequest }) s))
/-- A link that cannot train is out of service: its waiting requests are refused, and keyed tenants are told (R377, R417). A far end in another package expects
the SEQ `id` of the event next. -/
def linkOut (d : Fin 4) (l : Fin 6) (s : State) : State :=
  let x := linkOf s d l
  notifyKeyed 3 (if x.out.isSome then endOut d l (BitVec.ofNat 12 s.arg.id) s
    else endOut x.farDie x.farLink x.expect (endOut d l (linkOf s x.farDie x.farLink).expect s))

end Sys2Proof.Machine
end

