-- ==== Sys2Proof/Machine/Engines.lean ====
section
/-! DEFINITION. The engines that act on their own (13 R214 to R218, R230 to R246, R253; 15 R254 to R262; 11 R173, R194 to R204): non-local
accesses and their replies, refusals, forwarding, copy channels, windows, host-window requests. -/

namespace Sys2Proof.Machine

/-! ## Non-local accesses (R214 to R218, R255, R260, R269) -/

/-- The bytes of an access: its locations, peer locations as keys beside device-physical addresses (R254). -/
def accessCells (s : State) (a : Access) (off n : Nat) : List Nat :=
  match a.loc with
  | .dpa d => (List.range n).map fun i => reach s a.view (d + off + i)
  | .peer k d => coreCells ⟨a.owner.die, k⟩ (d + off) n
/-- Bytes of one location of an access: its whole size for one that performs in one piece (R254). -/
def Access.unit (a : Access) (s : State) : Nat :=
  match a.op, a.loc with
  | .load, .dpa d => ((regionOf s d).map regE).getD 1
  | .store _, .dpa d => ((regionOf s d).map regE).getD 1
  | .load, .peer _ _ => 1
  | .store _, .peer _ _ => 1
  | _, _ => a.size
/-- The locations at which an access has not performed. -/
def Access.waiting (a : Access) (s : State) : List Nat :=
  if a.performed then []
  else match a.op with
    | .load => a.left.flatMap fun o => accessCells s a o (a.unit s)
    | .store _ => a.left.flatMap fun o => accessCells s a o (a.unit s)
    | _ => accessCells s a 0 a.size
/-- A location not performed at meets one of a later access: it is the same, or its page is missing and may turn out to be the same (R260; DEDUCED, log 76). -/
def clashes (a b : Nat) : Bool := a == b || (cellUnknown a && decide (b < 2 ^ 50))
/-- A list of locations meets a later one. -/
def meets (l m : List Nat) : Bool := l.any fun a => m.any (clashes a)
/-- An access or remote operation of the same task, issued before number i, has not performed at one of these locations (R260, R383). -/
def earlierAt (s : State) (c : CtxId) (uid i : Nat) (cells : List Nat) : Bool :=
  s.accesses.any (fun b => b.owner == c && b.uid == uid && decide (b.id < i) && meets (b.waiting s) cells) ||
  s.rops.any fun r => r.owner == c && r.uid == uid && decide (r.id < i) && r.kind != .lbsend &&
    (meets (r.remoteCells s) cells || meets (r.localCells s) cells)
/-- The locations of the slot of a ring behind a handle (R247): `l` are the ring's bytes. -/
def farSlot (s : State) (a : Access) (l : List Byte) (q : W32) : List Nat :=
  let r := Ring.ofBytes l
  let w := slotOfSeq r.base r.slotb r.nslot q
  let o := a.va.toNat - a.vbase
  match a.loc with
  | .dpa d => (List.range w.2).map fun i => reach s a.view (d - o + w.1 + i)
  | .peer k d => coreCells ⟨a.owner.die, k⟩ (d - o + w.1) w.2
/-- The bytes that an access's size covers, as it reads them at its location. -/
def accessBytes (s : State) (a : Access) : List Byte :=
  match a.loc with
  | .dpa d => dpaBytes s a.view d a.size
  | .peer k d => rdCells (s.core ⟨a.owner.die, k⟩).store d a.size
/-- Write bytes at an access's location. -/
def accessStore (a : Access) (off : Nat) (bs : List Byte) (s : State) : State :=
  match a.loc with
  | .dpa d => progStore a.view (d + off) bs s
  | .peer k d => csWrite ⟨a.owner.die, k⟩ (d + off) bs s
/-- The update of a ring must wait for earlier accesses of its task to the slot: RPUB for writes that have not performed, RREL for reads that have not
returned (R249, R269). -/
def ringWaits (s : State) (a : Access) : Bool :=
  let mine (c : CtxId) (u i : Nat) : Bool := c == a.owner && u == a.uid && decide (i < a.id)
  let ops (p : Rop → List Nat) (w : List Nat) : Bool := s.rops.any fun r => mine r.owner r.uid r.id && r.kind != .lbsend && meets (p r) w
  match a.op with
  | .obj (.rpub q) =>
    let w := farSlot s a (accessBytes s a) q
    s.accesses.any (fun b => mine b.owner b.uid b.id && b.op.writes && meets (b.waiting s) w) || ops (Rop.toWrite s) w
  | .obj (.rrel q) =>
    let w := farSlot s a (accessBytes s a) q
    s.accesses.any (fun b => mine b.owner b.uid b.id && b.op.reads && meets (accessCells s b 0 b.size) w) || ops (Rop.toReturn s) w
  | _ => false
/-- The entry by which an access was routed names the place where the master puts its page (R173, R201). -/
def routeFresh (s : State) (a : Access) : Bool :=
  match a.loc with
  | .dpa d => dpaSpace d != 0 || placeBits a.route == placeBits (dpitEntry s (d / 2 ^ 16))
  | .peer _ _ => true
/-- The die to which an access is sent: for an HBM page that of the stack that the entry it was routed by names (R26, R173). -/
def accessHome (s : State) (a : Access) : Fin 4 :=
  match a.loc with
  | .dpa d => if dpaSpace d = 0 then stackDie (bits a.route.toNat 20 3) else dpaHome s d
  | .peer _ _ => a.owner.die
/-- The access goes to a host window. -/
def toHost (a : Access) : Bool :=
  match a.loc with
  | .dpa d => dpaSpace d == 2
  | .peer _ _ => false
/-- The access has to travel to another die before it performs. -/
def mustTravel (s : State) (a : Access) : Bool := a.hop == .start && accessHome s a != a.owner.die
/-- An access may be sent on or perform: it is not held, not answered, not at the host. -/
def accessGoes (a : Access) : Bool := !a.performed && !a.hold && a.host.isNone && (a.hop == .start || a.hop == .home)
/-- The bytes of its size at which an access performs next, as offset and number: the location that the event chooses, or all of it. -/
def accessPiece (s : State) (a : Access) (n : Nat) : Option (Nat × Nat) :=
  match a.op with
  | .load => if toHost a then some (0, a.size) else if a.left.contains n then some (n, a.unit s) else none
  | .store _ => if toHost a then some (0, a.size) else if a.left.contains n then some (n, a.unit s) else none
  | _ => some (0, a.size)
/-- An access may perform at a piece now. -/
def canPerform (s : State) (a : Access) (p : Nat × Nat) : Bool :=
  accessGoes a && !mustTravel s a && routeFresh s a && !earlierAt s a.owner a.uid a.id (accessCells s a p.1 p.2) && !ringWaits s a &&
  (match a.op with
   | .obj o => objStep (accessBytes s a) o != .wait
   | _ => true)
/-! ## Order of service (R415) -/

/-- The HBM bank of a byte: its stack, pseudo-channel and bank (Table 11.7). -/
def hbmBank (s : State) (a : Nat) : Option Nat :=
  if 2 ^ 50 ≤ a ∨ dpaSpace a ≠ 0 then none
  else
    let key := hbmKeyOf (dpitEntry s (a / 2 ^ 16)) a
    let n : Fin 8 := Fin.ofNat 8 (key / 2 ^ 36)
    some (n.val * 2 ^ 16 + rowKey s.hbmStacks[n.val] (key % 2 ^ 36) / 2 ^ 16)
/-- Requests for these bytes compete for an HBM bank, or for a byte of a core store (DESIGN CHOICE, log 77: the spec does not say which bytes share a bank of a core
store). -/
def compete (s : State) (l m : List Nat) : Bool :=
  l.any fun a => m.any fun b => (a == b && decide (2 ^ 50 ≤ a)) || ((hbmBank s a).isSome && hbmBank s a == hbmBank s b)
/-- The class of an access among those of its resource: at an HBM bank reads come before writes; an atomic counts as a read (Table 27.6; log 77). -/
def Access.rank (a : Access) : Nat :=
  match a.loc, a.op with
  | .dpa _, .store _ => 1
  | _, _ => 0
/-- An access has been presented and comes before a request of a class, with the count at which that was presented and its number (R415). -/
def Access.before (b : Access) (rank : Nat) (t : W64) (id : Nat) : Bool :=
  b.since.any fun u => decide (b.rank < rank) || (b.rank == rank && (decide (u.toNat < t.toNat) || (u == t && decide (b.id < id))))
/-- An access that has been presented and can perform comes before a request for some bytes (R193, R415). -/
def mustQueue (s : State) (rank : Nat) (t : W64) (id : Nat) (cells : List Nat) : Bool :=
  s.accesses.any fun b => b.id != id && b.before rank t id &&
    ((if b.left = [] then [0] else b.left).filterMap (accessPiece s b)).any fun p => canPerform s b p && compete s (accessCells s b p.1 p.2) cells
/-- An access has to wait for one that comes before it. -/
def accessQueues (s : State) (a : Access) (p : Nat × Nat) : Bool :=
  mustQueue s a.rank (a.since.getD (s.die (accessHome s a)).ptb) a.id (accessCells s a p.1 p.2)
/-- An access is presented where it performs. -/
def presentAccess (a : Access) (s : State) : State :=
  if accessGoes a && !mustTravel s a && routeFresh s a && !toHost a && a.since.isNone then
    modAccess a.id (fun b => { b with since := some (s.die (accessHome s a)).ptb }) s
  else s
/-- A request of an engine to bytes of memory has to wait for accesses that have been presented before it. -/
def engineQueues (s : State) (d : Fin 4) (write : Bool) (cells : List Nat) : Bool := mustQueue s (if write then 1 else 0) (s.die d).ptb s.nextId cells

/-! ## Performing -/

/-- The access is to a vault. -/
def Access.toVault (a : Access) : Bool :=
  match a.loc with
  | .dpa d => dpaVault d
  | .peer _ _ => false
/-- An access has performed wholly: it ends at its own die, or its answer goes there on VC1 (R373). -/
def answerAccess (a : Access) (s : State) : State :=
  let home := accessHome s a
  if home = a.owner.die then finishAccess a s
  else routeFlit home ⟨.accRes, 1, dieId s home, dieId s a.owner.die, .access a.id, 0, toBytes 8 a.val.toNat, 0, a.toVault⟩
    (modAccess a.id (fun b => { b with hop := .back }) s)
/-- Count an access to HBM. -/
def noteAccess (a : Access) (s : State) : State :=
  match a.loc with
  | .dpa _ => noteUse a.owner.die a.op.writes (accessCells s a 0 a.size) s
  | .peer _ _ => s
/-- An access to be noted as performed with a value. -/
def performed (a : Access) (v : W64) (s : State) : State :=
  let b := { a with performed := true, left := [], val := v }
  answerAccess b (modAccess a.id (fun _ => b) (noteAccess a s))
/-- A piece of a load has a value: the last one completes the load. -/
def loadPiece (a : Access) (p : Nat × Nat) (bs : List Byte) (s : State) : State :=
  let v := a.val ||| BitVec.ofNat 64 (ofBytes bs * 2 ^ (8 * p.1))
  let l := a.left.filter (· != p.1)
  if l = [] then performed a v s else modAccess a.id (fun b => { b with left := l, val := v }) s
/-- Before an access reads a store of the quad, commands write the chunks there that it is to read as new, as the event picks them (R302). -/
def peerShow (a : Access) (p : Nat × Nat) (s : State) : State :=
  match a.loc with
  | .peer k d => if a.op.reads then s.modCore ⟨a.owner.die, k⟩ (showChunks s.arg.val.toNat (d + p.1) p.2) else s
  | .dpa _ => s
/-- Perform an access at its point of coherence, a load or store at one piece (R214, R216 to R218, R236 to R250, R254, R255). -/
def performAccess (a : Access) (p : Nat × Nat) (s : State) : State :=
  let s := peerShow a p s
  let old := ofBytes (accessBytes s a)
  match a.op with
  | .load => (match a.loc with
    | .dpa d => loadPiece a p (dpaBytes s a.view (d + p.1) p.2) s
    | .peer k d => loadPiece a p (rdCells (s.core ⟨a.owner.die, k⟩).store (d + p.1) p.2) s)
  | .store v =>
    let l := a.left.filter (· != p.1)
    let s := accessStore a p.1 (toBytes p.2 (v.toNat / 2 ^ (8 * p.1))) s
    if l = [] then performed a 0 s else modAccess a.id (fun b => { b with left := l }) s
  | .amo op v => performed a (BitVec.ofNat 64 old) (accessStore a 0 (toBytes a.size (amoOp op.toNat a.size old v.toNat)) s)
  | .amoc cmp swp => performed a (BitVec.ofNat 64 old)
      (if old = cmp.toNat % 2 ^ (8 * a.size) then accessStore a 0 (toBytes a.size swp.toNat) s else s)
  | .pref => performed a 0 (match a.loc with
    | .dpa d => if dpaSpace d = 0 ∧ ¬ (dpitEntry s (d / 2 ^ 16)).getLsbD 29 then
        s.modDie (accessHome s a) fun x => if x.msc.contains (d / 256) then x else { x with msc := (d / 256) :: x.msc } else s
    | .peer _ _ => s)
  | .obj o => match objStep (accessBytes s a) o with
    | .wait => s
    | .proto => performed { a with bad := some ⟨0x0A, a.va⟩ } 0 s
    | .done off bs v => performed a v (accessStore a off bs s)
/-- The tenant of an access: its task's, bound or saved. -/
def ownerTenant (s : State) (a : Access) : BitVec 4 :=
  if (s.ctx a.owner).b.uid = a.uid then (s.ctx a.owner).b.tenant
  else match s.saved.find? (fun v => v.ctx.b.uid == a.uid) with
    | some v => v.ctx.b.tenant
    | none => ((s.core a.owner.coreId).tenant).getD 0
/-- A host-window access travels as a frame and performs when its answer arrives (R203, R204). -/
def hostAccess (a : Access) (write : Bool) (d : Nat) (bs : List Byte) (s : State) : State :=
  modAccess a.id (fun b => { b with host := some (BitVec.ofNat 64 d) })
    (hostSend (ownerTenant s a) (.access a.id) write (d % 2 ^ 40) bs a.size 1 s)
/-- Send an access to the die of its target, on VC2; a vault access keeps to the in-package links (R25, R373). -/
def sendAway (a : Access) (s : State) : State :=
  routeFlit a.owner.die ⟨.accReq, 2, dieId s a.owner.die, dieId s (accessHome s a), .access a.id, 0, [], 0, a.toVault⟩
    (modAccess a.id (fun b => { b with hop := .out }) s)
/-- ACCESS_PERFORM: the access that the event names goes to the die of its target, or with `ok` is presented there, or performs, a load or store at the location
`num`, in the order of R415, or its host-window request is sent (R193, R203, R254, R255). -/
def accessPerform (s : State) : State :=
  match s.accesses.find? (fun a => a.id == s.arg.id) with
  | none => s
  | some a =>
    if accessGoes a && mustTravel s a then sendAway a s
    else if s.arg.ok then presentAccess a s
    else match accessPiece s a s.arg.num with
      | none => s
      | some p =>
        if !canPerform s a p || accessQueues s a p then s
        else match a.loc, a.op with
          | .dpa d, .load => if dpaSpace d = 2 then hostAccess a false d [] s else performAccess a p s
          | .dpa d, .store v => if dpaSpace d = 2 then hostAccess a true d (toBytes a.size v.toNat) s else performAccess a p s
          | _, _ => performAccess a p s
/-- ACCESS_PERFORM (R255). -/
def execAccessPerform (s : State) : Host.Outcome State Fault Refusal := .next (accessPerform s)
/-- LDH_REPLY: a performed load or atomic returns (R214, R346): it writes its register and ends the interlock, with no Hem entry; the
reply of a saved task goes to its pending-reply slot, that of an ended task nowhere. -/
def ldhReply (s : State) : State :=
  match s.accesses.find? (fun a => a.id == s.arg.id && a.performed && a.hop == .done) with
  | none => s
  | some a =>
    let u := dropAccess a.id s
    match a.dst with
    | none => u
    | some r =>
      if u.saved.any (fun v => v.ctx.b.uid == a.uid) then
        { u with saved := u.saved.map fun v => if v.ctx.b.uid = a.uid then { v with replies := v.replies ++ [(r, a.val)] } else v }
      else if (u.ctx a.owner).b.uid = a.uid then
        u.modCtx a.owner fun x =>
          { x with arch := x.arch.wrPhys r a.val
                   spec := x.spec.map fun p => { p with point := p.point.wrPhys r a.val } }
      else u
/-- LDH_REPLY (R214). -/
def execLdhReply (s : State) : Host.Outcome State Fault Refusal := .next (ldhReply s)
/-- FORWARDING_POINTER: the stack that a stale entry named answers with the current one; the die's cached entry is updated and the
request sent again (R201). -/
def forwardingPointer (s : State) : State :=
  match s.accesses.find? (fun a => a.id == s.arg.id) with
  | none => s
  | some a => match a.loc with
    | .peer _ _ => s
    | .dpa d =>
      if !accessGoes a || mustTravel s a || routeFresh s a then s
      else refreshRoute a.owner.die d (modAccess a.id (fun b => { b with route := dpitEntry s (d / 2 ^ 16), hop := .start, since := none }) s)
/-- FORWARDING_POINTER (R201). -/
def execForwardingPointer (s : State) : Host.Outcome State Fault Refusal := .next (forwardingPointer s)

/-! ## Copy channels (R230 to R234, R182) -/

/-- New bytes of a copy's operation: the source, or the 32-bit sums of old and source words (R231). -/
def combine (op : Nat) (old new : List Byte) : List Byte :=
  if op = 0 then new
  else (List.range (new.length / 4)).flatMap fun i =>
    let o := ofBytes ((old.drop (4 * i)).take 4)
    let n := ofBytes ((new.drop (4 * i)).take 4)
    toBytes 4 (if op = 1 then (o + n) % 2 ^ 32 else rF32 (FV.sum [f32 o, f32 n]))

/-- SLAY. -/
def entSLay (e : BitVec 256) : Nat := bits e.toNat 50 2
/-- DLAY. -/
def entDLay (e : BitVec 256) : Nat := bits e.toNat 114 2
/-- MCAST. -/
def entMcast (e : BitVec 256) : Nat := bits e.toNat 116 4
/-- ROWS. -/
def entRows (e : BitVec 256) : Nat := bits e.toNat 192 16
/-- OP. -/
def entOp (e : BitVec 256) : Nat := bits e.toNat 252 2
/-- BV. -/
def entBV (e : BitVec 256) : Bool := e.getLsbD 255
/-- FV. -/
def entFV (e : BitVec 256) : Bool := e.getLsbD 254
/-- BADDR, aligned. -/
def entBar (e : BitVec 256) : Nat := alignDown (bits e.toNat 224 23) 16
/-- FLAG. -/
def entFlag (e : BitVec 256) : Nat := bits e.toNat 52 10
/-- The buffer that a side of kind 2 names. -/
def entLb (a : Nat) : Fin 16 := Fin.ofNat 16 (bits a 16 4)
/-- Every row of a side of kind 2 lies inside the 64 KiB buffer that row 0 names; an address with a bit above [19:16] breaks the table (DESIGN CHOICE,
log 73: Table 13.8 gives such an address only the bits of the buffer and the offset). -/
def lbRowsOk (e : BitVec 256) (addr : Nat → Nat) : Bool :=
  decide (addr 0 < 2 ^ 20) && (List.range (entRows e)).all fun r =>
    decide (addr r / 2 ^ 16 = addr 0 / 2 ^ 16) && decide (addr r % 2 ^ 16 + entryLen e ≤ 2 ^ 16)
/-- The limits of Table 13.8. -/
def entryOk (e : BitVec 256) : Bool :=
  bits e.toNat 62 2 == 0 && entSLay e != 3 && entSKind e != 3 && bits e.toNat 120 8 == 0 && entDLay e != 3 && entDKind e != 3 &&
  (entMcast e == 0 || entDKind e == 0) && decide (1 ≤ entRows e) && decide (1 ≤ entryLen e) && entOp e != 3 &&
  bits e.toNat 247 5 == 0 && (!entBV e || decide (entBar e + 16 ≤ csSize)) && (entOp e == 0 || entryLen e % 4 == 0) &&
  (entSKind e != 2 || lbRowsOk e (entrySrc e)) && (entDKind e != 2 || lbRowsOk e (entryDst e))
/-- An entry names a link buffer. -/
def entryNamesLb (e : BitVec 256) (n : Fin 16) : Bool :=
  (entSKind e == 2 && entLb (entrySrc e 0) == n) || (entDKind e == 2 && entLb (entryDst e 0) == n)
/-- The link buffers of an entry that its context does not hold (R385). -/
def lbNotHeld (s : State) (c : CtxId) (e : BitVec 256) : Option Err :=
  let bad (n : Fin 16) : Option Err :=
    if ((s.die c.die).lbs[n.val]).holder = some c then none else some ⟨0x05, BitVec.ofNat 64 n.val⟩
  match (if entSKind e = 2 then bad (entLb (entrySrc e 0)) else none) with
  | some x => some x
  | none => if entDKind e = 2 then bad (entLb (entryDst e 0)) else none
/-- A delivery at addresses of a destination core is refused: outside the store, or a buffer neither in HOME for
the issuing core nor admitted for the channel (R182, R231). A delivery to another core is accepted as its entry starts, one to the issuing core as its
row starts; what has been accepted completes (R181, R182, R240). -/
def deliveryErr (s : State) (k d : CoreId) (ch : Fin 2) (as : List Nat) : Option Err :=
  let x := s.core d
  firstSome (fun a =>
    if a ≥ csSize then some ⟨0x11, BitVec.ofNat 64 a⟩
    else
      let b := a / 0x10000
      let open' := ((x.adm[b]?).getD 0).getLsbD (2 * (k.core.val % 4) + ch.val)
      if open' || (d == k && x.own[b]? == some .home) then none else some ⟨0x05, BitVec.ofNat 64 a⟩) as
/-- Core-store addresses of a row's bytes at a destination, and of its source. -/
def rowAddrs (lay base r n : Nat) : List Nat := (List.range n).map fun b => (base + swz lay r b) % 2 ^ 64
/-- The channel may start a row or an entry. -/
def chanGoes (h : Chan) : Bool := h.busy && !h.stop && h.err.isNone && h.miss.isNone
/-- A channel that has delivered its whole list, or has stopped at CPABORT with no row in flight, is idle. -/
def chanSettle (k : CoreId) (ch : Fin 2) (s : State) : State :=
  modChan k ch (fun h => if h.busy && h.err.isNone && h.left == 0 && h.cur.isNone && h.rows.isEmpty then
    h.freed else h) s
/-- COPY_ENTRY_START: a channel reads its next entry (R230); a multicast to a core that has not admitted it stops before the
entry (R182). Entries are read from the core store alone (DESIGN CHOICE, log 52: R184 lets transfer lists live in a vault, but R230 and R232 give CPY
no address there). -/
def copyEntryStart (s : State) : State :=
  let k : CoreId := ⟨s.arg.die, s.arg.core⟩
  let ch : Fin 2 := Fin.ofNat 2 s.arg.unit
  let h := (s.core k).chans[ch.val]
  if !chanGoes h || h.cur.isSome || h.left == 0 then s
  else
    let a := h.next
    match csCheck (s.core k) (BitVec.ofNat 64 a) with
    | some e => chanStop k ch e s
    | none =>
      let e : BitVec 256 := BitVec.ofNat 256 (rdLE (s.core k).store a 32)
      if !entryOk e then chanStop k ch ⟨0x06, BitVec.ofNat 64 a⟩ s
      else match lbNotHeld s h.owner e with
        | some x => chanStop k ch x s
        | none =>
          let refused := if entMcast e = 0 then none else firstSome (fun d =>
            if d = k then none
            else firstSome (fun r => deliveryErr s k d ch (rowAddrs (entDLay e) (entryDst e r) r (entryLen e))) (List.range (entRows e))) (entryCores k e)
          match refused with
          | some x => chanStop k ch x s
          | none => modChan k ch (fun h =>
              { h with next := a + 32, left := h.left - 1, cur := some (a, e, 0), opens := h.opens ++ [(a, e, entRows e)] }) s
/-- COPY_ENTRY_START (R230). -/
def execCopyEntryStart (s : State) : Host.Outcome State Fault Refusal := .next (copyEntryStart s)
/-- What bytes of a run at a VA come to: a request to the page, a host-window request of so many bytes at an offset, a wait for the page, or an error. -/
inductive PageStep where
  | req (p : PageReq)
  | host (off n : Nat)
  | miss (va : W64)
  | err (e : Err)
/-- A request for the bytes `o` to `o + n − 1` of a run of `len` bytes at a VA of a tenant, by an engine of a core: those of one page, in whole locations,
at most 240 of them from another die; an operation on words takes whole words, over two pages where a word lies so. Each page's part of the run is checked as a
whole (R171, R188, R231, R254, R373). -/
def pageReq (s : State) (k : CoreId) (t : BitVec 4) (va len o n : Nat) (write words : Bool) : PageStep :=
  match translate s k t (BitVec.ofNat 64 (va + o)) with
  | none => if va + o ≥ 2 ^ 48 then .err ⟨0x11, BitVec.ofNat 64 (va + o)⟩ else .miss (BitVec.ofNat 64 (va + o))
  | some e =>
    let p0 := max va ((va + o) / pteSize e * pteSize e)
    match pieceAt s k t p0 (va + len - p0) write words with
    | .miss v => .miss v
    | .err e => .err e
    | .host f _ => .host (f + (va + o - p0)) (min n (min 8176 (pteSize e - (va + o) % pteSize e)))
    | .mem d v m =>
      let u := ((regionOf s d).map regE).getD 1
      let a := (va + o - p0) / u * u
      let cap := if dpaHome s d = k.die then m else max u (240 / u * u)
      let c := min (min (cdiv (va + o - p0 + n - a) u * u) (m - a)) cap
      let done (at' : Nat) (cells : List Nat) : PageStep :=
        .req ⟨p0 + at' - va, cells.length, cells, p0 + at', d + at', routeOf s k.die (.dpa d)⟩
      if words then (match runCells s k t true 2 (va + o) (if 4 ≤ c then c / 4 * 4 else 4) with
        | .ok l => done (va + o - p0) l
        | .error (.miss v) => .miss v
        | .error (.err e) => .err e
        | .error _ => .err ⟨0x07, BitVec.ofNat 64 (va + o)⟩)
      else done a ((List.range c).map fun i => reach s v (d + a + i))
/-- The entry by which a request was routed no longer names its page's place (R201). -/
def PageReq.stale (s : State) (p : PageReq) : Bool := dpaSpace p.dpa == 0 && placeBits p.route != placeBits (dpitEntry s (p.dpa / 2 ^ 16))
/-- The die to which a request is sent: for an HBM page that of the stack that its entry names (R25, R26). -/
def PageReq.home (s : State) (p : PageReq) : Fin 4 := if dpaSpace p.dpa = 0 then stackDie (bits p.route.toNat 20 3) else dpaHome s p.dpa
/-- A request of a row goes on, by the translation that was made for it: it is sent to the die of its page, performs there, or is answered by a forwarding
pointer and sent again (R201, R333, R373). `act` is what it does there, with the bytes that it answers. -/
def pageServe (q : Req) (k : CoreId) (hop : Hop) (write : Bool) (bs : List Byte) (act : PageReq → State → List Byte × State) (p : PageReq) (s : State) : State :=
  let h := p.home s
  let v := dpaVault p.dpa
  if hop = .start ∧ h ≠ k.die then routeFlit k.die ⟨.rowReq, 3, dieId s k.die, dieId s h, q, 0, bs, 0, v⟩ (rowHop q .out (some p) s)
  else if p.stale s then
    let f := refreshRoute k.die p.dpa s
    rowHop q .start (some { p with route := dpitEntry f (p.dpa / 2 ^ 16) }) f
  else if engineQueues s h write p.cells then s
  else
    let r := act p (noteUse k.die write p.cells s)
    if h = k.die then rowMoved q r.1 (rowHop q .start (some p) r.2)
    else routeFlit h ⟨.rowRes, 3, dieId s h, dieId s k.die, q, 0, r.1, 0, v⟩ (rowHop q .back (some p) r.2)
/-- A row's engine uses bytes of a run at a VA: it goes on with the request that is under way, or begins one for the run that the event picks among the
offsets still to do (R201, R203, R231, R242). -/
def pageUse (q : Req) (k : CoreId) (t : BitVec 4) (hop : Hop) (req : Option PageReq) (va len : Nat) (todo : List Nat) (write words : Bool)
    (bytes : Nat → Nat → List Byte) (act : PageReq → State → List Byte × State) (s : State) : State :=
  match hop, req with
  | .out, _ | .back, _ | .done, _ => s
  | _, some p => pageServe q k hop write (bytes p.off p.n) act p s
  | _, none =>
    let r := pickRun todo s.arg.va.toNat s.arg.val.toNat words
    let step := pageReq s k t va len r.1 r.2 write words
    let s := walkPages k t (va + r.1) (if words then 4 else 1) s
    match step with
    | .req p => pageServe q k .start write (bytes p.off p.n) act p (cacheRoute k.die (.dpa p.dpa) s)
    | .host f n => hostSend t q write f (bytes r.1 n) n 1 (rowHop q .start (some ⟨r.1, n, [], va + r.1, 0, 0⟩) s)
    | .miss v => rowMiss q t v (if write then .write else .read) s
    | .err e => rowStop q e s
/-- A row's engine reads bytes of a page (R231, R242). -/
def pageRead (q : Req) (k : CoreId) (t : BitVec 4) (hop : Hop) (req : Option PageReq) (va len : Nat) (todo : List Nat) (s : State) : State :=
  pageUse q k t hop req va len todo false false (fun _ _ => []) (fun p s => (p.cells.map (dpaRead s), s)) s
/-- A row's engine writes bytes of its data to a page, or with `op` 1 or 2 the sums of R231. -/
def pageWrite (q : Req) (k : CoreId) (t : BitVec 4) (hop : Hop) (req : Option PageReq) (va : Nat) (data : List Byte) (todo : List Nat) (op : Nat)
    (s : State) : State :=
  let bytes (o n : Nat) : List Byte := (data.drop o).take n
  pageUse q k t hop req va data.length todo true (op != 0) bytes
    (fun p s => ([], storeCells p.cells (combine op (p.cells.map (dpaRead s)) (bytes p.off p.n)) s)) s
/-- Read on a row's source (R231). -/
def rowRead (k : CoreId) (ch : Fin 2) (r : Row) (s : State) : State :=
  let h := (s.core k).chans[ch.val]
  let e := r.img
  let n := entryLen e
  let p := pickRun r.need s.arg.va.toNat s.arg.val.toNat false
  let got (bs : List Byte) (s : State) : State :=
    modRow k ch r.k (fun q => { q with data := setSlice q.data p.1 bs, need := outside p.1 p.2 q.need }) s
  match entSKind e with
  | 0 =>
    let as := rowAddrs (entSLay e) (entrySrc e r.r) r.r n
    got (((as.drop p.1).take p.2).map (rdCell (s.core k).store)) s
  | 2 => got (rdCells ((s.die k.die).lbs[(entLb (entrySrc e 0)).val]).bytes (entrySrc e r.r % 2 ^ 16 + p.1) p.2) s
  | _ => pageRead (.row k ch r.k) k (s.ctx h.owner).b.tenant r.hop r.req (entrySrc e r.r) n r.need s
/-- Mark a row delivered everywhere: the barrier objects and, after its entry's last row, the flags (R231). -/
def rowDone (k : CoreId) (ch : Fin 2) (r : Row) (s : State) : State :=
  let e := r.img
  let cs := entryCores k e
  let s := if entBV e then forEach cs (fun c => barDeliver c (entBar e) (entryLen e)) s else s
  let h := (s.core k).chans[ch.val]
  let last := h.opens.any fun o => o.1 == r.ent && o.2.2 == 1
  let s := if last && entFV e then forEach cs (fun c => incFlag c (entFlag e)) s else s
  chanSettle k ch <| modChan k ch (fun h =>
    { h with
      rows := ((h.rows.map fun q => if q.k = r.k then { q with done := true } else q).dropWhile Row.done)
      opens := (h.opens.map fun o => if o.1 = r.ent then (o.1, o.2.1, o.2.2 - 1) else o).filter fun o => o.2.2 != 0 }) s
/-- The destinations of a row, by number: the cores of its entry, or its one link buffer or page. -/
def rowDests (k : CoreId) (e : BitVec 256) : List Nat := if entDKind e = 0 then List.range (entryCores k e).length else [0]
/-- A row as its channel starts it. -/
def Row.start (k : CoreId) (n ent : Nat) (e : BitVec 256) (r : Nat) : Row :=
  { k := n, ent := ent, img := e, r := r, data := List.replicate (entryLen e) 0, need := List.range (entryLen e)
    left := (rowDests k e).flatMap fun d => (List.range (entryLen e)).map fun o => (d, o)
    counted := 0, done := false, refusals := 0, hold := false, hop := .start, req := none }
/-- Bytes of a row have been delivered to a destination: WP counts them (R232). -/
def rowLess (k : CoreId) (ch : Fin 2) (n d o m : Nat) (s : State) : State :=
  modChan k ch Chan.count (modRow k ch n (fun r =>
    { r with left := r.left.filter (fun l => l.1 != d || decide (l.2 < o) || decide (o + m ≤ l.2)) }) s)
/-- A row that has been delivered to every destination is complete. -/
def rowEnds (k : CoreId) (ch : Fin 2) (n : Nat) (s : State) : State :=
  match ((s.core k).chans[ch.val]).rows.find? fun r => r.k == n && r.left.isEmpty && !r.done with
  | some r => rowDone k ch r s
  | none => s
/-- Deliver bytes of a row that has been read: those that the event picks, at the destination that it picks (R231, R254). -/
def rowDeliver (k : CoreId) (ch : Fin 2) (r : Row) (s : State) : State :=
  let h := (s.core k).chans[ch.val]
  let e := r.img
  let op := entOp e
  let d := (r.left.getD (s.arg.va.toNat % r.left.length) (0, 0)).1
  let todo := (r.left.filter fun l => l.1 == d).map Prod.snd
  let p := pickRun todo s.arg.va.toNat s.arg.val.toNat (op != 0)
  let bs := (r.data.drop p.1).take p.2
  match entDKind e with
  | 0 =>
    let as := rowAddrs (entDLay e) (entryDst e r.r) r.r (entryLen e)
    (match (entryCores k e)[d]? with
     | none => s
     | some c =>
       let cs := (as.drop p.1).take p.2
       let old := cs.map (rdCell (s.core c).store)
       rowEnds k ch r.k (rowLess k ch r.k d p.1 p.2 (forEach (cs.zip (combine op old bs)) (fun q s => csWrite c q.1 [q.2] s) s)))
  | 2 =>
    let n := entLb (entryDst e 0)
    let a := entryDst e r.r % 2 ^ 16 + p.1
    let old := rdCells ((s.die k.die).lbs[n.val]).bytes a p.2
    rowEnds k ch r.k (rowLess k ch r.k d p.1 p.2 (s.modDie k.die fun x =>
      let l := x.lbs[n.val]
      { x with lbs := x.lbs.set n.val { l with bytes := wrCells l.bytes a (combine op old bs) } }))
  | _ =>
    if r.left.isEmpty then rowDone k ch r s
    else rowEnds k ch r.k (pageWrite (.row k ch r.k) k (s.ctx h.owner).b.tenant r.hop r.req (entryDst e r.r) r.data todo op s)
/-- What stops a channel as it starts a row: a source byte of its core's store that it may not read, or a delivery to its own core that is refused
(R206, R231). -/
def rowStartErr (s : State) (k : CoreId) (ch : Fin 2) (e : BitVec 256) (r : Nat) : Option Err :=
  (if entSKind e = 0 then firstSome (fun a => csCheck (s.core k) (BitVec.ofNat 64 a)) (rowAddrs (entSLay e) (entrySrc e r) r (entryLen e)) else none).orElse fun _ =>
    if entDKind e = 0 ∧ k ∈ entryCores k e then deliveryErr s k k ch (rowAddrs (entDLay e) (entryDst e r) r (entryLen e)) else none
/-- COPY_ROW_DELIVERY: with `ok` the channel starts its next row and reads its source; else the row `num` reads on or is delivered. `va` and `val` pick the
bytes: which, and how many at most (R231, R232). -/
def copyRowDelivery (s : State) : State :=
  let k : CoreId := ⟨s.arg.die, s.arg.core⟩
  let ch : Fin 2 := Fin.ofNat 2 s.arg.unit
  let h := (s.core k).chans[ch.val]
  if s.arg.ok then
    match h.cur with
    | none => s
    | some (ent, e, r) =>
      if !chanGoes h then s
      else match rowStartErr s k ch e r with
      | some x => chanStop k ch x s
      | none =>
        let row := Row.start k h.nrow ent e r
        rowRead k ch row (modChan k ch (fun h =>
          { h with nrow := h.nrow + 1, rows := h.rows ++ [row], cur := if r + 1 < entRows e then some (ent, e, r + 1) else none }) s)
  else match h.rows.find? (fun r => r.k == s.arg.num && !r.done && !r.hold) with
    | none => s
    | some r =>
      if h.err.isSome || h.miss.isSome || hostOut s (.row k ch r.k) then s
      else if r.need.isEmpty then rowDeliver k ch r s else rowRead k ch r s
/-- COPY_ROW_DELIVERY (R231). -/
def execCopyRowDelivery (s : State) : Host.Outcome State Fault Refusal := .next (copyRowDelivery s)

/-! ## Windows (R242, R245) -/

/-- The core-store addresses of the slot of row n. -/
def winRowAddrs (d : BitVec 512) (n : Nat) : List Nat :=
  rowAddrs (wLay d) (wRing d + n % wNSlot d * wSlot d) (n % wNSlot d) (wRBytes d)
/-- A row is complete: the barrier object, DONE over the rows complete in order, and a closing window that has finished. -/
def winRowDone (k : CoreId) (w : Fin 8) (id : Nat) (s : State) : State :=
  let d := ((s.core k).wins[w.val]).desc
  let s := if wBarV d = 1 then barDeliver k (wBar d) (wRBytes d) s else s
  modWin k w (fun x =>
    let rows := x.rows.map fun r => if r.id = id then { r with done := true } else r
    let lead := rows.takeWhile WRow.done
    Win.settle { x with rows := rows.drop lead.length, done := x.done + lead.length }) s
/-- A window may start or finish rows. -/
def winGoes (w : Win) : Bool := w.opn && w.err.isNone && w.miss.isNone
/-- Read on an inbound row's tensor bytes. -/
def winRead (k : CoreId) (w : Fin 8) (r : WRow) (s : State) : State :=
  let d := ((s.core k).wins[w.val]).desc
  pageRead (.winRow k w r.id) k (winTenant s k w) r.hop r.req (winRowVa d r.n) (wRBytes d) r.need s
/-- The row, by the number of its requests, that an event names may go on. -/
def winRowNow (s : State) (k : CoreId) (w : Fin 8) (id : Nat) : Option WRow :=
  let x := (s.core k).wins[w.val]
  if winGoes x && !hostOut s (.winRow k w id) then x.rows.find? fun r => r.id == id && !r.done && !r.hold else none
/-- A row as its window starts it, with a fresh number: of an inbound window nothing read, of an outbound one nothing read from its slot yet. -/
def WRow.start (d : BitVec 512) (n id : Nat) : WRow :=
  { n := n, id := id, data := List.replicate (wRBytes d) 0, need := List.range (wRBytes d), left := List.range (wRBytes d), done := false
    refusals := 0, hold := false, hop := .start, req := none }
/-- The opener's engines run: it has not come to step 4 of a save, and does not wait for its restore (R341, R344). -/
def openerRuns (s : State) (x : Win) : Bool := !(s.ctx x.opener).quiesce && (s.ctx x.opener).st != .waiting
/-- What stops a window as it starts a row: a ring slot in a buffer not in HOME (R245). A row that has started completes, whoever its buffer is given to
meanwhile (R181). -/
def slotErr (s : State) (k : CoreId) (d : BitVec 512) (n : Nat) : Option Err :=
  firstSome (fun a => csCheck (s.core k) (BitVec.ofNat 64 a)) (winRowAddrs d n)
/-- WINDOW_ROW_DELIVERY: with `ok` an inbound window fetches its next row; else row `num` is read on or delivered into its slot. `va` and `val` pick the
bytes (R242, R254). -/
def windowRowDelivery (s : State) : State :=
  let k : CoreId := ⟨s.arg.die, s.arg.core⟩
  let w : Fin 8 := Fin.ofNat 8 s.arg.unit
  let x := (s.core k).wins[w.val]
  let d := x.desc
  if wDir d ≠ 0 then s
  else if s.arg.ok then
    (if winGoes x && !x.closing && openerRuns s x && decide (x.next < min (wTRows d) (x.ret + wNSlot d)) then
      match slotErr s k d x.next with
      | some e => winStop k w e s
      | none =>
        let f := s.fresh
        let r := WRow.start d x.next f.1
        winRead k w r (modWin k w (fun x => { x with next := x.next + 1, rows := x.rows ++ [r] }) f.2)
    else s)
  else match winRowNow s k w s.arg.num with
    | none => s
    | some r =>
      if !r.need.isEmpty then winRead k w r s
      else
        let p := pickRun r.left s.arg.va.toNat s.arg.val.toNat false
        let cs := ((winRowAddrs d r.n).drop p.1).take p.2
        let u := modWRow k w r.id (fun r => { r with left := outside p.1 p.2 r.left })
          (forEach (cs.zip ((r.data.drop p.1).take p.2)) (fun q s => csWrite k q.1 [q.2] s) s)
        if (outside p.1 p.2 r.left).isEmpty then winRowDone k w r.id u else u
/-- WINDOW_ROW_DELIVERY (R242). -/
def execWindowRowDelivery (s : State) : Host.Outcome State Fault Refusal := .next (windowRowDelivery s)
/-- WINDOW_ROW_STORE: with `ok` an outbound window begins its next published row; else row `num` is read on from its slot or stored to the tensor. `va` and
`val` pick the bytes (R242, R254). -/
def windowRowStore (s : State) : State :=
  let k : CoreId := ⟨s.arg.die, s.arg.core⟩
  let w : Fin 8 := Fin.ofNat 8 s.arg.unit
  let x := (s.core k).wins[w.val]
  let d := x.desc
  let slot (r : WRow) (s : State) : State :=
    let p := pickRun r.need s.arg.va.toNat s.arg.val.toNat false
    modWRow k w r.id (fun r =>
      { r with data := setSlice r.data p.1 ((((winRowAddrs d r.n).drop p.1).take p.2).map (rdCell (s.core k).store)), need := outside p.1 p.2 r.need }) s
  if wDir d ≠ 1 then s
  else if s.arg.ok then
    (if winGoes x && openerRuns s x && decide (x.next < x.ret) then
      match slotErr s k d x.next with
      | some e => winStop k w e s
      | none =>
      let f := s.fresh
      let r := WRow.start d x.next f.1
      slot r (modWin k w (fun y => { y with next := y.next + 1, rows := y.rows ++ [r] }) f.2)
    else s)
  else match winRowNow s k w s.arg.num with
    | none => s
    | some r =>
      if !r.need.isEmpty then slot r s
      else if r.left.isEmpty then winRowDone k w r.id s
      else
        let u := pageWrite (.winRow k w r.id) k (winTenant s k w) r.hop r.req (winRowVa d r.n) r.data r.left 0 s
        match winRowNow u k w r.id with
        | some q => if q.left.isEmpty then winRowDone k w r.id u else u
        | none => u
/-- WINDOW_ROW_STORE (R242). -/
def execWindowRowStore (s : State) : Host.Outcome State Fault Refusal := .next (windowRowStore s)

/-! ## Commands go to their engines (R271, R272, R299 to R303, R315, R316) -/

/-- Bytes that something is writing into a memory, with their places: those still to come, of each 16-byte chunk of which some bytes have come. -/
abbrev Arrival := List (Nat × Byte)
/-- What is still to come of a run of bytes, by place and byte, of which the bytes at some indices are still to come: where their chunk has begun. -/
def begunChunks (as : List (Nat × Byte)) (left : Nat → Bool) : Arrival :=
  let begun := (as.zipIdx.filter fun p => !left p.2).map fun p => p.1.1 / 16
  (as.zipIdx.filter fun p => left p.2 && begun.contains (p.1.1 / 16)).map Prod.fst
/-- A copied row that is being delivered into a memory, given as the places of its bytes there and the memory now, at its destination d. -/
def rowArrives (r : Row) (d : Nat) (as : List Nat) (m : Cells 8) : Arrival :=
  begunChunks (as.zip (combine (entOp r.img) (as.map (rdCell m)) r.data)) fun i => r.left.contains (d, i)
/-- A copied row goes into a core's store: at which destination of its entry and at which places. -/
def rowInto (k d : CoreId) (r : Row) : Option (Nat × List Nat) :=
  let e := r.img
  if r.done || !r.need.isEmpty || entDKind e != 0 then none
  else ((entryCores k e).findIdx? (· == d)).map fun i => (i, rowAddrs (entDLay e) (entryDst e r.r) r.r (entryLen e))
/-- What a row of an inbound window delivers into its core's store. -/
def winRowArrives (w : Win) (r : WRow) : Arrival :=
  if !w.opn || wDir w.desc != 0 || r.done || !r.need.isEmpty then [] else begunChunks ((winRowAddrs w.desc r.n).zip r.data) r.left.contains
/-- What a store of another core of the quad writes. -/
def peerArrives (d : CoreId) (a : Access) : Arrival :=
  match a.op, a.loc with
  | .store v, .peer k x => if a.owner.die = d.die ∧ k = d.core ∧ !a.performed then
      begunChunks ((List.range' x a.size).zip (toBytes a.size v.toNat)) a.left.contains else []
  | _, _ => []
/-- Every row that copy channels of the quad and windows deliver into a core's store, and every peer store. -/
def arriving (s : State) (d : CoreId) : List Arrival :=
  (((List.range 4).flatMap fun i =>
      let k : CoreId := ⟨d.die, quadCore d.core i⟩
      (List.finRange 2).flatMap fun ch => ((s.core k).chans[ch.val]).rows.filterMap fun r =>
        (rowInto k d r).map fun p => rowArrives r p.1 p.2 (s.core d).store) ++
    ((s.core d).wins.toList.flatMap fun w => w.rows.map (winRowArrives w)) ++ s.accesses.map (peerArrives d)).filter fun a => !a.isEmpty
/-- Every row that copy channels of the die deliver into a link buffer. -/
def arrivingLb (s : State) (d : Fin 4) (n : Fin 16) : List Arrival :=
  ((List.finRange 16).flatMap fun c => (List.finRange 2).flatMap fun ch => ((s.core ⟨d, c⟩).chans[ch.val]).rows.filterMap fun r =>
    if r.done || !r.need.isEmpty || entDKind r.img != 2 || entLb (entryDst r.img 0) != n then none
    else some (rowArrives r 0 (List.range' (entryDst r.img r.r % 2 ^ 16) (entryLen r.img)) ((s.die d).lbs[n.val]).bytes)).filter fun a => !a.isEmpty
/-- A memory as a command or a send reads it while bytes arrive: each 16-byte chunk of an arrival is whole old or whole new. It is new once a byte of it has
performed, since no later read returns what that byte replaced (R255, R256); which chunks have begun is free, as bytes arrive in any order (R272, R302, R388). -/
def wholeChunks (ls : List Arrival) (m : Cells 8) : Cells 8 := ls.foldl (fun m l => l.foldl (fun m p => wrCell m p.1 p.2) m) m
/-- The module as commands that issue now read the stores of cores and the link buffers of their die (R271, R272). -/
def readView (ks : List CoreId) (s : State) : State :=
  let u := forEach ks (fun d u => u.modCore d fun x => { x with store := wholeChunks (arriving s d) x.store }) s
  forEach (ks.take 1) (fun k u => forEach (List.finRange 16) (fun n u =>
    let ls := arrivingLb s k.die n
    if ls.isEmpty then u
    else u.modDie k.die fun x => { x with lbs := x.lbs.set n.val { x.lbs[n.val] with bytes := wholeChunks ls x.lbs[n.val].bytes } }) u) u
/-- The cores whose stores a command reads: its own, for a gang all four of the quad (R316). -/
def readCores (k : CoreId) : Instr → List CoreId
  | .mmaQ _ _ _ _ _ _ _ _ _ _ => (List.range 4).map fun i => ⟨k.die, quadCore k.core i⟩
  | _ => [k]
/-- COMMAND_ISSUE: a ready command goes to its engine and reads its operands; the parameters of the event are the core
and the command (R271, R272, R299 to R301, R303, R315, R316). -/
def commandIssue (s : State) : State :=
  let k : CoreId := ⟨s.arg.die, s.arg.core⟩
  match (s.core k).cmds.find? (fun q => q.id == s.arg.id) with
  | none => s
  | some q =>
    let c : CtxId := ⟨k.die, k.core, q.ctx⟩
    let v := readView (readCores k q.ins) s
    if !canIssue s k q then s
    else if isGather q.ins && q.gather.isNone then
      let n := cdiv (tdRows q.imgA) 4
      (modCmd k q.id (fun p => { p with gather := some n, ready := false, tab := gatherTab (tileMem v k q.imgA) q, taken := (gatherRange q).length }) s).modCore k fun x => { x with eng := x.eng.set 4 n }
    else match q.ins with
      | .cpy ch _ n _ _ =>
        startChan k (Fin.ofNat 2 ch.toNat) c q.x n.toNat
          (s.modCore k fun x => { x with cmds := x.cmds.filter fun p => p.id != q.id })
      | .mmaQ _ _ _ _ _ _ _ _ _ _ =>
        (match gangOf s k q with
         | none => s
         | some g => forEach g (fun p t =>
             let o := gangResult v g p.1 p.2
             let out := if gangAgrees g then o
               else { CmdOut.none with err := some ⟨0x0B, BitVec.ofNat 64 p.2.epoch⟩ }
             occupy p.1 p.2 (s.ctx ⟨p.1.die, p.1.core, p.2.ctx⟩) out t) s)
      | _ => occupy k q (s.ctx c) (cmdResult v c q) s
/-- COMMAND_ISSUE (R299). -/
def execCommandIssue (s : State) : Host.Outcome State Fault Refusal := .next (commandIssue s)

end Sys2Proof.Machine
end

