-- ==== Sys2Proof/Machine/Rounds.lean ====
section
/-! DEFINITION. Rounds (25 R399; 05 R90; 23 R366): groups, where a round meets, and how a member enters one. A collective branch, a pod barrier of a team
that spans packages, and the ends of its members are rounds. -/

namespace Sys2Proof.Machine

/-! ## Groups and scopes -/

/-- SCOPE of a CGM value (Table 25.10). -/
def cgScope (g : W64) : Nat := bits g.toNat 61 3
/-- GID. -/
def cgGid (g : W64) : W16 := g.extractLsb' 32 16
/-- COUNT. -/
def cgCount (g : W64) : Nat := bits g.toNat 16 16
/-- INDEX. -/
def cgIndex (g : W64) : Nat := bits g.toNat 0 16
/-- CGM from its fields. -/
def cgm (scope : BitVec 3) (op : BitVec 1) (tout : BitVec 4) (gid count index : W16) : W64 :=
  scope ++ op ++ tout ++ 0#8 ++ gid ++ count ++ index
/-- The instance of a scope that holds a context (R4). -/
def instOf (x : Nat) (c : CtxId) : Nat :=
  match x with
  | 1 => c.die.val * 16 + c.core.val
  | 2 => c.die.val * 4 + quadOf c.core
  | 3 => c.die.val
  | _ => 0
/-- The rounds of the pod barrier of a team that spans packages, and the round of its members' ends, have a CGM value with a scope of its own, so that they meet as
those of pod scope do (log 18). -/
def barrierScope : BitVec 3 := 6
/-- The scope of the ends of a team's members. -/
def endScope : BitVec 3 := 7
/-- Cycles of a core from the last arrival to the release at a scope below the pod (Table 05.8). -/
def scopeLatency (x : Nat) : Nat :=
  match x with
  | 1 => 8
  | 2 => 24
  | 3 => 60
  | _ => 200
/-- Rounds of 1.7 GHz in the bound of a pod release, 2 µs, less one cycle of a core at the lowest clock, 850 MHz, so that every member has it within
the bound whatever its clock (Table 05.8, R34). -/
def podBound : Nat := 3398

/-! ## Rounds -/

/-- The latency of a round is only a bound: at pod scope and between the members of a team of several packages, but where COUNT = 0, when the outcome comes 2
cycles after issue (R90, R399). -/
def Round.bounded (r : Round) : Bool := decide (5 ≤ r.scope) && r.count != 0
/-- Change a member of a round. -/
def modMember (id : Nat) (c : CtxId) (f : Member → Member) (s : State) : State :=
  modRound id (fun r => { r with members := r.members.map fun m => if m.c = c then f m else m }) s
/-- A flit of a round between the die where it is joined and a member's, on VC0 (R373). -/
def collFlit (s : State) (k : FlitKind) (a b : Fin 4) (id : Nat) (c : CtxId) : Flit :=
  ⟨k, 0, dieId s a, dieId s b, .coll id c, 0, [], 0, false⟩
/-- Cycles in which the outcome of a scope reaches the members after the last arrival (Table 05.8). -/
def roundLatency (x : Nat) : Nat := if 5 ≤ x then podBound else scopeLatency x
/-- What a member brings to a round: its context and task, its group, the round's number, its contribution and where its outcome goes. -/
structure Entrant where
  c : CtxId
  uid : Nat
  tenant : BitVec 4
  g : W64
  seq : W32
  flag : Nat
  val : Bool
/-- A member's arrival goes to the die where its round meets: nothing has to go where it meets at the member's die (R373). -/
def sendArrival (e : Entrant) (id : Nat) (s : State) : State :=
  let c := e.c
  match s.rounds.find? (fun (r : Round) => r.id == id) with
  | none => s
  | some r =>
    if r.sent then routeFlit c.die ⟨.arrival, 0, dieId s c.die, 0, .coll id c, 0, arrivalBytes e.tenant e.g e.seq e.val false, 0, false⟩ s
    else if r.formed.isSome || c.die == r.die then s
    else routeFlit c.die (collFlit s .arrival c.die r.die id c) s
/-- A member of a round that has just entered. -/
def Entrant.member (e : Entrant) (left : Nat) (h : Hop) : Member := ⟨e.c, e.uid, cgIndex e.g, e.flag, some left, e.val, h⟩
/-- The round is one that the entrant may join: its own, and not yet formed without it. -/
def Entrant.joins (e : Entrant) (r : Round) : Bool :=
  r.count != 0 && r.tenant == e.tenant && r.gid == cgGid e.g && r.scope == cgScope e.g && r.inst == instOf (cgScope e.g) e.c && r.seq == e.seq &&
  (r.sent || r.formed.isNone || r.absent.contains (cgIndex e.g))
/-- A member's CGM agrees with a round in COUNT, OP and TOUT (R397). -/
def agrees (r : Round) (g : W64) : Bool := cgCount g == r.count && g.extractLsb' 60 1 == r.op && bits g.toNat 56 4 == r.tout
/-- A member enters a round: it contributes, its arrival going to the die where the round meets, or it arrives after the outcome has formed. A group without a
count is the context alone (R399). The round's identifier comes first. -/
def enterAs (e : Entrant) (s : State) : Nat × State :=
  let g := e.g
  let c := e.c
  let sc := cgScope g
  let away := meetsAfar s sc
  let home := roundDie s sc c.die
  let fresh (m : Member) (formed : Option (Bool × Nat)) : Nat × State :=
    let f := s.fresh
    (f.1, { f.2 with rounds := f.2.rounds ++ [
      { id := f.1, tenant := e.tenant, gid := cgGid g, scope := sc, inst := instOf sc c, seq := e.seq, op := g.extractLsb' 60 1,
        count := cgCount g, tout := bits g.toNat 56 4, die := home, start := (s.die c.die).ptb, members := [m],
        seen := if m.hop = .home then [cgIndex g] else [], acc := if m.hop = .home then e.val else (g.extractLsb' 60 1 == 0), formed := formed,
        absent := [], odd := false, afar := [], sent := away && cgCount g != 0, due := false }] })
  if cgCount g = 0 then fresh (e.member 2 .done) (some (e.val, 0))
  else
    match s.rounds.find? e.joins with
    | none =>
      let r := fresh (e.member (roundLatency sc) (if away ∨ c.die ≠ home then .out else .home)) none
      (r.1, sendArrival e r.1 r.2)
    | some r =>
      let upd (q : Round) : Round :=
        let q := { q with odd := q.odd || !agrees q g }
        if q.formed.isSome ∧ ¬ q.sent then { q with members := q.members ++ [e.member 0 .done], absent := q.absent.filter (· != cgIndex g) }
        else { q with members := q.members ++ [e.member (roundLatency sc) (if q.sent ∨ c.die ≠ q.die then .out else .home)] }
      (r.id, sendArrival e r.id (modRound r.id upd s))

end Sys2Proof.Machine
end

