-- ==== Sys2Proof/Machine/Tasks.lean ====
section
/-! DEFINITION. Tasks (23 R348 to R362, R366; 05 R64 to R70, R87): task records, queues, the task instructions of slot C, the end of a task,
team barriers. -/

namespace Sys2Proof.Machine

/-! ## Records (Tables 23.1 and 23.2) -/

/-- A little-endian field of a record. -/
def rdRec (s : State) (k : CoreId) (t : BitVec 4) (r : W64) (off n : Nat) : Nat := vaNat s k t (r.toNat + off) n
/-- Write bytes of a record: its page's accesses count (R195). -/
def putRecBytes (k : CoreId) (t : BitVec 4) (r : W64) (off : Nat) (bs : List Byte) (s : State) : State :=
  noteWrite k.die (vaRun s k t (r.toNat + off) bs.length) (vaWrite k t (r.toNat + off) bs s)
/-- Write a field of a record. -/
def wrRec (k : CoreId) (t : BitVec 4) (r : W64) (off n v : Nat) (s : State) : State := putRecBytes k t r off (toBytes n v) s
/-- Bytes at a VA have been read for a task (R195, R199). -/
def noteText (k : CoreId) (t : BitVec 4) (va n : Nat) (s : State) : State := noteHbm k.die (vaRun s k t va n) s
/-- ST: 0 NONE, 1 CREATED, 2 ARMED, 3 QUEUED, 4 RUNNING, 5 SAVED, 6 DONE, 7 FAILED. -/
def recSt (s : State) (k : CoreId) (t : BitVec 4) (r : W64) : Nat := rdRec s k t r 0 4 % 16
/-- Write ST, the rest of the STATE word kept; with DONE or FAILED the record stops being live (R349). -/
def setSt (k : CoreId) (t : BitVec 4) (r : W64) (st : Nat) (s : State) : State :=
  let u := wrRec k t r 0 4 (rdRec s k t r 0 4 / 16 * 16 + st) s
  if 6 ≤ st then recGone k t r u else u
/-- COUNTER as an integer. -/
def recCount (s : State) (k : CoreId) (t : BitVec 4) (r : W64) : Int := sInt (rdRec s k t r 4 4) 32
/-- Write COUNTER. -/
def setCount (k : CoreId) (t : BitVec 4) (r : W64) (n : Int) (s : State) : State := wrRec k t r 4 4 (wrapN n 32) s
/-- A record is live (R349). -/
def recLive (st : Nat) : Bool := decide (1 ≤ st) && decide (st ≤ 5)
/-- A page that can hold records (R348): HBM or vault, R and W set, X clear, no view and no view region. -/
def recPageOk (s : State) (e va : W64) : Bool :=
  pteR e && pteW e && !pteX e && pteView e == 0#2 && decide (dpaSpace (pteDpa e) ≤ 1) && (regionOf s (vaDpa e va)).isNone
/-- A VA as an agent of a tenant finds it: usable as a record. -/
def recUsable (s : State) (k : CoreId) (t : BitVec 4) (r : W64) : Bool :=
  decide (r.toNat < 2 ^ 48) && r.toNat % 128 == 0 && (match translate s k t r with
    | some e => recPageOk s e r
    | none => false)
/-- What the translation of an instruction's VA comes to (R352). -/
inductive RecAt where
  | ok
  | bad
  | miss (va : W64)
  deriving DecidableEq, Repr
/-- Translate a VA of a task instruction as XLAT does, with a test of its page (R352). -/
def vaAt (s : State) (c : CtxId) (va : W64) (page : W64 → Bool) : RecAt :=
  let x := s.ctx c
  if va.toNat ≥ 2 ^ 48 then .bad
  else match tlbLook s c.coreId x.b.tenant va with
    | none => if x.unres.contains (pageVa va.toNat) then .bad else .miss va
    | some e => if page e then .ok else .bad
/-- A record VA (R348, R352). -/
def recAt (s : State) (c : CtxId) (r : W64) : RecAt :=
  match vaAt s c r (fun e => recPageOk s e r) with
  | .ok => if r.toNat % 128 = 0 then .ok else .bad
  | o => o
/-- Go on once every VA of a list translates and is allowed; the first that is missing freezes, the first that is bad traps. -/
def withVas (l : List (W64 × RecAt)) (c : CtxId) (k : SlotOut) : SlotOut :=
  match firstSome (fun p => match p.2 with
    | .miss g => some g
    | _ => none) l with
  | some g => .freeze fun t => t.modCtx c fun x => { x with miss := some (g, .read) }
  | none => match l.find? (fun p => p.2 == .bad) with
    | some p => .trap ⟨0x11, p.1⟩
    | none => k
/-- Go on once fence.rel.pod is complete (R358). -/
def afterFence (c : CtxId) (s : State) (k : SlotOut) : SlotOut :=
  match relOut 5 c s with
  | .go _ => k
  | r => r

/-! ## Queues (R359 to R361) -/

/-- The queue of a tenant and a priority. -/
def qIdx (t : BitVec 4) (p : Nat) : Fin 64 := Fin.ofNat 64 (t.toNat * 4 + p % 4)
/-- All entries of a queue, the on-die part and then the spill ring. -/
def qAll (d : Die) (q : Fin 64) : List W64 := d.queues[q.val] ++ d.spill[q.val]
/-- A queue with given entries: 32 on die, the others in the spill ring, which refills at once. -/
def Die.setQueue (d : Die) (q : Fin 64) (l : List W64) : Die :=
  { d with queues := d.queues.set q.val (l.take 32), spill := d.spill.set q.val (l.drop 32) }
/-- An enqueue finds room: the spill ring holds 2^16 entries. -/
def qRoom (d : Die) (q : Fin 64) : Bool := decide ((qAll d q).length < 32 + 2 ^ 16)
/-- A saved task waits under this record. -/
def isSaved (s : State) (t : BitVec 4) (r : W64) : Bool := s.saved.any fun v => v.ctx.b.tenant == t && v.ctx.b.task == r
/-- Append a never-run entry, or put a saved one ahead of every entry that has never run (R361). -/
def qInsert (s : State) (t : BitVec 4) (saved : Bool) (l : List W64) (r : W64) : List W64 :=
  if saved then
    let n := (l.takeWhile (isSaved s t)).length
    l.take n ++ r :: l.drop n
  else l ++ [r]
/-- Put a record into a queue of a die. -/
def qPut (d : Fin 4) (t : BitVec 4) (p : Nat) (saved : Bool) (r : W64) (s : State) : State :=
  s.modDie d fun x => x.setQueue (qIdx t p) (qInsert s t saved (qAll x (qIdx t p)) r)
/-- Take a record out of a queue of a die, with what the dispatcher has read of it. -/
def qTake (d : Fin 4) (q : Fin 64) (r : W64) (s : State) : State :=
  s.modDie d fun x =>
    { x.setQueue q ((qAll x q).filter (· != r)) with taken := x.taken.filter fun e => !(e.1 == q.val && e.2.task == r) }
/-- The next enqueue stamp of a die. -/
def stampRec (k : CoreId) (d : Fin 4) (t : BitVec 4) (r : W64) (s : State) : State :=
  (wrRec k t r 0x30 8 (s.die d).enq.toNat s).modDie d fun x => { x with enq := x.enq + 1 }
/-- The die on which an enqueue of a record happens (R360). -/
def enqDie (here : Fin 4) (aff : Nat) : Fin 4 :=
  let m := bits aff 16 4
  if m = 0 ∨ m.testBit here.val then here else Fin.ofNat 4 (ctzFrom m 0 4)
/-- The queue of a record's QUEUE field (R360). -/
def queueOf (s : State) (k : CoreId) (t : BitVec 4) (r : W64) : Fin 64 :=
  qIdx (BitVec.ofNat 4 (bits (rdRec s k t r 0x22 2) 2 4)) (rdRec s k t r 0x22 2 % 4)
/-- The entry of a record of a tenant in a queue: its VA, with the owner's number above it where the queue is another tenant's. -/
def qEntry (q : Fin 64) (t : BitVec 4) (r : W64) : W64 :=
  if q.val / 4 = t.toNat then r else r ||| (BitVec.ofNat 64 (t.toNat + 1) <<< 48)
/-- The owner and the VA of a queue's entry. -/
def qOwner (q : Fin 64) (e : W64) : BitVec 4 × W64 :=
  if e.toNat < 2 ^ 48 then (BitVec.ofNat 4 (q.val / 4), e) else (BitVec.ofNat 4 (e.toNat / 2 ^ 48 - 1), BitVec.ofNat 64 (e.toNat % 2 ^ 48))
/-- The die that a record's enqueue by an agent would use. -/
def enqWhere (s : State) (k : CoreId) (t : BitVec 4) (r : W64) : Fin 4 := enqDie k.die (rdRec s k t r 0x28 8)
/-- The enqueue would find room. -/
def enqRoom (s : State) (k : CoreId) (t : BitVec 4) (r : W64) : Bool := qRoom (s.die (enqWhere s k t r)) (queueOf s k t r)
/-- Enqueue a record (R360). -/
def enqueue (k : CoreId) (t : BitVec 4) (r : W64) (s : State) : State :=
  let d := enqWhere s k t r
  let q := queueOf s k t r
  qPut d (BitVec.ofNat 4 (q.val / 4)) (q.val % 4) false (qEntry q t r) (stampRec k d t r (setSt k t r 3 s))
/-- A team of a tenant. -/
def teamOf (s : State) (t : BitVec 4) (id : W16) : Option Team := s.teams.find? fun m => m.tenant == t && m.id == id
/-- Members of the team run in other packages. -/
def Team.spans (m : Team) : Bool := decide (m.recs.length < m.size)
/-- A member of a team has failed, so the team's successors are never signalled (R357). -/
def failTeam (t : BitVec 4) (id : W16) (s : State) : State :=
  if id = 0 then s else { s with teams := s.teams.map fun m => if m.tenant == t && m.id == id then { m with failed := true } else m }
/-- What a member of a team that spans packages brings to one of the team's rounds: its context and task, its member number, the round's scope and number, and
its contribution. -/
def teamEntrant (m : Team) (c : CtxId) (uid index : Nat) (sc : BitVec 3) (k : Nat) (v : Bool) : Entrant :=
  ⟨c, uid, m.tenant, cgm sc 0 0 m.id (BitVec.ofNat 16 m.size) (BitVec.ofNat 16 index), BitVec.ofNat 32 k, 0, v⟩
/-- A member of a team has ended: where the team spans packages its end, with whether it is DONE, enters the round of the members' ends, whose identifier
comes first (R356, R366). -/
def enterEnd (t : BitVec 4) (id : W16) (c : CtxId) (uid index : Nat) (ok : Bool) (s : State) : Option Nat × State :=
  match teamOf s t id with
  | none => (none, s)
  | some m =>
    if m.spans then
      let r := enterAs (teamEntrant m c uid index endScope 0 ok) s
      (some r.1, r.2)
    else (none, s)
/-- The member number of a record in its team. -/
def memberOf (s : State) (t : BitVec 4) (id : W16) (r : W64) : Nat :=
  ((teamOf s t id).bind fun m => ((m.recs.zip m.nums).find? fun p => p.1.2 == r).map Prod.snd).getD 0
/-- A record with no context becomes FAILED, and the tenant is notified (R357). -/
def killRec (k : CoreId) (t : BitVec 4) (r : W64) (fault : W64) (s : State) : State :=
  let id : W16 := BitVec.ofNat 16 (rdRec s k t r 0x24 2)
  notify t 2 0 r fault <| (fun u => (enterEnd t id ⟨k.die, k.core, 0⟩ 0 (memberOf u t id r) false u).2) <| failTeam t id <|
    setSt k t r 7 (wrRec k t r 0x58 8 0 (wrRec k t r 0x50 8 (s.die k.die).ptb.toNat (wrRec k t r 0x38 8 fault.toNat s)))
/-- A signal to a CREATED or ARMED record (R353). -/
def signalRec (k : CoreId) (t : BitVec 4) (r : W64) (s : State) : State :=
  let n := recCount s k t r - 1
  let u := setCount k t r n s
  if recSt s k t r = 2 ∧ n = 0 then enqueue k t r u else u
/-- A signal would enqueue the record into a full queue. -/
def signalBlocked (s : State) (k : CoreId) (t : BitVec 4) (r : W64) : Bool :=
  recSt s k t r == 2 && recCount s k t r == 1 && !enqRoom s k t r

/-! ## Creation (R354, R406) -/

/-- Put bytes into a list of bytes at an offset. -/
def patch (l : List Byte) (off : Nat) (bs : List Byte) : List Byte := l.take off ++ bs ++ l.drop (off + bs.length)
/-- A field of a list of bytes. -/
def fieldOf (l : List Byte) (off n : Nat) : Nat := ofBytes ((l.drop off).take n)
/-- Member m of n, created from the template bytes for a tenant with a priority ceiling; `die` is the mask that fills an
AFFINITY die field of 0 (or replaces it for a GANG frame). -/
def newRec (tpl : List Byte) (t : BitVec 4) (ceiling : BitVec 2) (dev : Bool) (team : Bool) (id n m : Nat) (die : Nat) (force : Bool) : List Byte :=
  let st := (if (fieldOf tpl 0 4).testBit 10 then 2 ^ 10 else 0) + 1 + (if dev then 2 ^ 9 else 0) +
    (if team && decide (2 ≤ n) then 2 ^ 8 else 0) + m * 2 ^ 16
  let q := fieldOf tpl 0x22 2
  let aff := fieldOf tpl 0x28 8
  let aff := if force then aff - bits aff 16 4 * 2 ^ 16 + die * 2 ^ 16 else if bits aff 16 4 = 0 then aff + die * 2 ^ 16 else aff
  let l := patch (patch tpl 0 (toBytes 4 st)) 4 (toBytes 4 0)
  let l := patch l 0x22 (toBytes 2 (q / 64 * 64 + t.toNat * 4 + min (q % 4) ceiling.toNat))
  let l := patch (patch l 0x24 (toBytes 4 (n * 2 ^ 16 + id))) 0x28 (toBytes 8 aff)
  let l := patch (patch l 0x30 (toBytes 8 0)) 0x38 (toBytes 8 0)
  let l := patch l 0x40 (toBytes 8 (fieldOf tpl 0x40 8 + m * fieldOf tpl 0x60 8))
  let l := patch (patch (patch l 0x48 (toBytes 8 0)) 0x50 (toBytes 8 0)) 0x58 (toBytes 8 0)
  if m = 0 then l else patch l 0x20 (toBytes 2 0)
/-- Write a new record, which is live from now on. -/
def putRec (k : CoreId) (t : BitVec 4) (r : W64) (bs : List Byte) (s : State) : State := recBorn k t r (putRecBytes k t r 0 bs s)
/-- The template overlaps one of the records beside the first (R354). -/
def tplMeets (x : W64) (recs : List W64) : Bool :=
  (recs.drop 1).any fun r => decide (x.toNat < r.toNat + 128) && decide (r.toNat < x.toNat + 128)
/-- The contents of a record are unpredictable (R354, log 13). -/
def freeRec (k : CoreId) (t : BitVec 4) (r : W64) (s : State) : State :=
  putRecBytes k t r 0 ((List.range 128).map fun i => Config.freeByte (s.draws + i)) { s with draws := s.draws + 128 }
/-- Live team identifiers of a tenant. -/
def liveTeams (s : State) (t : BitVec 4) : List W16 := (s.teams.filter fun m => m.tenant == t).map Team.id
/-- The first identifier from a start that is not live and not 0. -/
def pickTeam (live : List W16) (i : W16) : Nat → W16
  | 0 => i
  | n + 1 => if i = 0 ∨ live.contains i then pickTeam live (i + 1) n else i
/-- A fresh team identifier of a tenant: which one is free (R354). -/
def freshTeam (s : State) (t : BitVec 4) : W16 × State :=
  (pickTeam (liveTeams s t) (Config.freeTeam s.draws) 65536, { s with draws := s.draws + 1 })
/-- What reading a run of bytes for a task comes to: the bytes, a host-window request for the next ones (R203), a missing page, or a failing check. -/
inductive Text where
  | done (l : List Byte)
  | ask (got : List Byte) (off n : Nat)
  | miss (va : W64)
  | bad (e : Err)
/-- Read on n bytes at a VA, piece by piece, from those already read. -/
def textFrom (s : State) (k : CoreId) (t : BitVec 4) (va n : Nat) : Nat → List Byte → Text
  | 0, got => .done got
  | f + 1, got =>
    if n ≤ got.length then .done got
    else match pieceAt s k t (va + got.length) (n - got.length) false false with
      | .mem d v m => textFrom s k t va n f (got ++ dpaBytes s v d m)
      | .host o m => .ask got o m
      | .miss a => .miss a
      | .err e => .bad e
/-- Ask the host for the next bytes of a text. -/
def askText (c : CtxId) (t : BitVec 4) (got : List Byte) (off n : Nat) (s : State) : State :=
  (hostSend t (.text c) false off [] n 1 s).modCtx c fun x => { x with att := .text got true }
/-- The bytes of a text that a context has read. -/
def Attempt.got : Attempt → List Byte
  | .text l _ => l
  | .none | .sent _ | .done _ | .failed _ | .aborting | .round _ | .arrived _ | .forced _ _ => []
/-- Go on with the 128 bytes of a template, which is read once; its bytes in a host window come as MREAD replies (R203, R354). -/
def withTemplate (x : W64) (c : CtxId) (s : State) (k : List Byte → SlotOut) : SlotOut :=
  let t := (s.ctx c).b.tenant
  match (s.ctx c).att with
  | .text _ true => .wait none
  | .failed e => .trap ⟨e.cause, x⟩
  | a => match textFrom s c.coreId t x.toNat 128 3 a.got with
    | .done l => k l
    | .ask got o n => .wait (some (askText c t got o n))
    | .miss v => .freeze fun u => u.modCtx c fun y => { y with miss := some (v, .read) }
    | .bad e => .trap e
/-- TSPAWN and TSPAWN_G (R352, R354, R358). -/
def spawnOut (g : Bool) (n : Nat) (x y : W64) (c : CtxId) (s : State) : SlotOut :=
  let k := c.coreId
  let t := (s.ctx c).b.tenant
  let recs := (List.range n).map fun m => y + BitVec.ofNat 64 (128 * m)
  let tplPages := [(x, vaAt s c x pteR), (x, vaAt s c (x + 127) pteR)]
  withVas (tplPages ++ recs.map fun r => (r, recAt s c r)) c <| afterFence c s <|
    match recs.find? (fun r => recLive (recSt s k t r)) with
    | some r => .trap ⟨0x06, r⟩
    | none =>
      if g && decide (65535 ≤ (liveTeams s t).length) then .wait none
      else withTemplate x c s fun tpl => .go fun u =>
          let f := if g then freshTeam u t else (0, u)
          let v := forEach recs.zipIdx (fun r w => putRec k t r.1
            (newRec tpl t (w.ten t).ceiling true g f.1.toNat n r.2 (2 ^ c.die.val) false) w) (noteText k t x.toNat 128 f.2)
          let v := if tplMeets x recs then forEach (recs.drop 1) (freeRec k t) v else v
          if g then { v with teams := ⟨t, f.1, n, recs.map fun r => (c.die, r), List.range n, none, false, [], false, none⟩ :: v.teams } else v

/-! ## Arming, signals, priorities -/

/-- The record at a VA is a team's member other than record 0 (R355). -/
def isMember (s : State) (k : CoreId) (t : BitVec 4) (r : W64) : Bool :=
  let w := rdRec s k t r 0 4
  w.testBit 8 && bits w 16 16 != 0
/-- TARM (R353). -/
def tarmOut (r y : W64) (c : CtxId) (s : State) : SlotOut :=
  let k := c.coreId
  let t := (s.ctx c).b.tenant
  withVas [(r, recAt s c r)] c <| afterFence c s <|
    let n : Int := recCount s k t r + ((lo32 y).toNat : Int)
    if recSt s k t r ≠ 1 ∨ isMember s k t r ∨ n > 2 ^ 31 - 1 then .trap ⟨0x06, r⟩
    else if n = 0 ∧ !enqRoom s k t r then .wait none
    else .go fun u =>
      let v := setCount k t r n u
      if n > 0 then setSt k t r 2 v
      else if n = 0 then enqueue k t r v
      else killRec k t r (faultWord 8 0 0 0 0) v
/-- TSIG (R353). -/
def tsigOut (r : W64) (c : CtxId) (s : State) : SlotOut :=
  let k := c.coreId
  let t := (s.ctx c).b.tenant
  withVas [(r, recAt s c r)] c <| afterFence c s <|
    let st := recSt s k t r
    if (st ≠ 1 ∧ st ≠ 2) ∨ isMember s k t r ∨ recCount s k t r = -(2 ^ 31) then .trap ⟨0x06, r⟩
    else if signalBlocked s k t r then .wait none
    else .go (signalRec k t r)
/-- Change the priority held with a bound or saved task of a record (R362). -/
def setPrio (t : BitVec 4) (r : W64) (p : Nat) (s : State) : State :=
  let mine (b : Binding) : Bool := b.tenant == t && b.task == r
  let s := forEach allCtx (fun c s => if (s.ctx c).st.bound && mine (s.ctx c).b then
    s.modCtx c fun x => { x with b := { x.b with prio := BitVec.ofNat 2 p } } else s) s
  { s with saved := s.saved.map fun v =>
      if mine v.ctx.b then { v with ctx := { v.ctx with b := { v.ctx.b with prio := BitVec.ofNat 2 p } } } else v }
/-- The entry of a record in the queues, whatever its QUEUE field has become since its enqueue: die, queue and entry (R349, R362). -/
def queueEntry (s : State) (t : BitVec 4) (r : W64) : Option (Fin 4 × Fin 64 × W64) :=
  firstSome (fun d => firstSome (fun q => ((qAll (s.die d) q).find? fun e => qOwner q e == (t, r)).map fun e => (d, q, e)) (List.finRange 64))
    (List.finRange 4)
/-- The queue of a tenant's queue at another priority. -/
def atPrio (q : Fin 64) (p : Nat) : Fin 64 := qIdx (BitVec.ofNat 4 (q.val / 4)) p
/-- The records that stand in the queues under a record: its own, and with a gang's record 0 those of all members (R355). -/
def gangRecs (s : State) (k : CoreId) (t : BitVec 4) (r : W64) : List W64 :=
  match teamOf s t (BitVec.ofNat 16 (rdRec s k t r 0x24 2)) with
  | some g => if rdRec s k t r 0x24 2 ≠ 0 ∧ (g.recs.any fun m => m.2 == r) then g.recs.map Prod.snd else [r]
  | none => [r]
/-- What the dispatcher of a die has read of the tasks of an entry goes with it to another queue, and stays read; the record named takes the new
priority (R73, R362). -/
def moveTakes (d : Fin 4) (q q' : Fin 64) (rs : List W64) (r : W64) (p : Nat) (s : State) : State :=
  s.modDie d fun x => { x with taken := x.taken.map fun e =>
    if e.1 = q.val ∧ rs.contains e.2.task then (q'.val, if e.2.task = r then { e.2 with prio := BitVec.ofNat 2 p } else e.2) else e }
/-- The change of a record's priority to one that differs (R362): a queued entry goes to the tail of the queue of that priority. -/
def requeue (k : CoreId) (t : BitVec 4) (r : W64) (p : Nat) (s : State) : State :=
  let w := rdRec s k t r 0x22 2
  let u := setPrio t r p (wrRec k t r 0x22 2 (w / 4 * 4 + p) s)
  match queueEntry s t r with
  | some (d, q, e) =>
    let v := moveTakes d q (atPrio q p) (gangRecs s k t r) r p (u.modDie d fun x => x.setQueue q ((qAll x q).filter (· != e)))
    qPut d (BitVec.ofNat 4 (q.val / 4)) p (isSaved s t r) e (stampRec k d t r v)
  | none => u
/-- TSETQ and TSETQ_SELF (R362). -/
def tsetqOut (self : Bool) (r : W64) (p : Nat) (c : CtxId) (s : State) : SlotOut :=
  let k := c.coreId
  let t := (s.ctx c).b.tenant
  let p := min p (s.ten t).ceiling.toNat
  withVas [(r, recAt s c r)] c <|
    if !self ∧ (!recLive (recSt s k t r) ∨ isMember s k t r) then .trap ⟨0x06, r⟩
    else if (queueOf s k t r).val % 4 = p then .go (noteText k t r.toNat 128)
    else match queueEntry s t r with
      | some (d, q, _) => if qRoom (s.die d) (atPrio q p) then .go (requeue k t r p) else .wait none
      | none => .go (requeue k t r p)

/-! ## Team barriers (R366) -/

/-- The k of a context at a scope. -/
def Binding.count (b : Binding) (x : Nat) : Nat := (b.bsync[x]?).getD 0
/-- Arrive at the team barrier of a scope. -/
def arriveBarrier (x : Nat) (c : CtxId) (s : State) : State :=
  let b := (s.ctx c).b
  let same (r : Barrier) : Bool :=
    r.tenant == b.tenant && r.team == b.team && r.scope == x && r.inst == instOf x c && r.k == b.count x && r.left.isNone
  match s.barriers.find? same with
  | some r =>
    ({ s with barriers := s.barriers.map fun (q : Barrier) => if q.id = r.id then { q with arrived := q.arrived ++ [c] } else q } : State).modCtx c
      fun y => { y with att := .round r.id }
  | none =>
    let f := s.fresh
    ({ f.2 with barriers := f.2.barriers ++ [⟨f.1, b.tenant, b.team, b.uid, x, instOf x c, b.count x, [c], none, false⟩] } : State).modCtx c
      fun y => { y with att := .round f.1 }
/-- The team of a context, where it spans packages. -/
def spanningTeam (s : State) (c : CtxId) : Option Team := (teamOf s (s.ctx c).b.tenant (s.ctx c).b.team).filter Team.spans
/-- Arrive at the team barrier of a scope; the pod barrier of a team that spans packages is a round of its members in all of them (R4, R366). -/
def arriveTeam (x : Nat) (c : CtxId) (s : State) : State :=
  let b := (s.ctx c).b
  match (if x = 5 then spanningTeam s c else none) with
  | none => arriveBarrier x c s
  | some m =>
    let r := enterAs (teamEntrant m c b.uid b.member barrierScope (b.count 5) true) s
    r.2.modCtx c fun y => { y with att := .round r.1 }
/-- A context runs a member of the team and still takes part. -/
def takesPart (x : Ctx) (t : BitVec 4) (team : W16) : Bool :=
  x.st.bound && x.b.tenant == t && x.b.team == team && x.exit.isNone
/-- Every participant of a barrier has arrived; a saved member still takes part, and so does one that is still to be bound (R88, R366). -/
def barrierMet (s : State) (r : Barrier) : Bool :=
  allCtx.all (fun c => !(takesPart (s.ctx c) r.tenant r.team && instOf r.scope c == r.inst) || r.arrived.contains c) &&
  s.saved.all (fun v => !(v.ctx.b.tenant == r.tenant && v.ctx.b.team == r.team && instOf r.scope ⟨v.die, v.core, 0⟩ == r.inst)) &&
  (teamOf s r.tenant r.team).all fun m => m.pend.all fun p => instOf r.scope ⟨p.core.die, p.core.core, 0⟩ != r.inst
/-- The barrier instance of a context has been passed. -/
def passBarrier (x : Nat) (c : CtxId) (s : State) : State :=
  s.modCtx c fun y =>
    { y with att := .none
             b := { y.b with bsync := if h : x < 6 then y.b.bsync.set x (y.b.count x + 1) else y.b.bsync } }
/-- BSYNC (R366): a task outside a team is its only participant. -/
def bsyncOut (x : Nat) (c : CtxId) (s : State) : SlotOut :=
  match (s.ctx c).att with
  | .arrived _ => .go (passBarrier x c)
  | .round _ => .wait none
  | _ => match relOut x c s with
    | .go _ => if (s.ctx c).b.team = 0 then .go (passBarrier x c) else .wait (some (arriveTeam x c))
    | r => r
/-- The links between the dies of a barrier's participants carry its traffic (R377, R395). -/
def barrierPaths (s : State) (r : Barrier) : Bool :=
  r.arrived.all fun a => r.arrived.all fun b => reaches s false b.die 4 a.die == .carries
/-- A barrier's last participant has arrived: the cycles to its release begin (R90). -/
def meetBarriers (s : State) : State :=
  { s with barriers := s.barriers.map fun (r : Barrier) => if r.left.isNone && barrierMet s r && barrierPaths s r then
      { r with left := some (if r.scope = 5 then podBound else scopeLatency r.scope) } else r }
/-- One cycle of a core passes for the releases of the barriers that its contexts arrived at last; at pod scope, whose bound is a time, one round
does (R34, R90). -/
def tickBarriers (pod : Bool) (k : CoreId) (s : State) : State :=
  { s with barriers := s.barriers.map fun (r : Barrier) =>
    if (r.arrived.getLast?.map CtxId.coreId) = some k ∧ pod = (r.scope == 5) then { r with left := r.left.map (· - 1) } else r }
/-- A barrier's release may reach its members: it is due, or at pod scope the bound has not run out (R90). -/
def barrierReady (r : Barrier) : Bool := r.due || (r.scope == 5 && r.left.isSome)
/-- BARRIER_RELEASE: every participant of the barrier has arrived and the latency has passed: the members' bundles may issue. At pod scope, within the
bound, with `ok` the release reaches the one member that the event names (R90, R366). -/
def barrierRelease (s : State) : State :=
  match s.barriers.find? (fun r => r.id == s.arg.id) with
  | none => s
  | some r =>
    if !barrierReady r then s
    else
      let one : CtxId := ⟨s.arg.die, s.arg.core, s.arg.ctx⟩
      let now := if r.due then r.arrived else if s.arg.ok && r.arrived.contains one then [one] else []
      let rest := r.arrived.filter fun c => !now.contains c
      forEach now (fun c s => s.modCtx c fun x => if x.att = .round r.id then { x with att := .arrived r.id } else x)
        { s with barriers := if rest = [] then s.barriers.filter fun q => q.id != r.id
            else s.barriers.map fun (q : Barrier) => if q.id = r.id then { q with arrived := rest } else q }
/-- BARRIER_RELEASE (R90). -/
def execBarrierRelease (s : State) : Host.Outcome State Fault Refusal := .next (barrierRelease s)

/-! ## Ending a task (R356, R357, R390, R70) -/

/-- The cause of a stored command error or of held banks makes an exit a failure (R356 steps 1 and 2). -/
def exitVerdict (x : Ctx) (e : Exit) : Exit :=
  if e.failed then e
  else match x.cmdErr with
    | some r => { e with fault := faultWord 5 r.cause 0 0 0, result := r.addr, failed := true }
    | none =>
      if x.z.toList.any Option.isSome then { e with fault := faultWord 6 0x08 0 0 0, result := 0, failed := true } else e
/-- Results that other agents can see are still in flight. -/
def outputsInFlight (x : Ctx) : Bool :=
  x.flights.any fun f => match f.act with
    | .port _ _ _ => true
    | .drain _ _ _ => true
    | .flags _ _ => true
    | _ => false
/-- Close the windows and stop the channels of a context (R356 step 4). -/
def closeEngines (c : CtxId) (s : State) : State :=
  s.modCore c.coreId fun k =>
    { k with
      wins := k.wins.map fun w =>
        if w.opn && w.opener == c then
          (if w.err.isSome then { w with opn := false, closing := false, err := none, rows := [], miss := none }
           else Win.settle { w with closing := true })
        else w
      chans := k.chans.map fun h =>
        if h.busy && h.owner == c then (if h.rows.isEmpty then h.freed else { h with stop := true })
        else h }
/-- A context's windows and channels are closed and its link-buffer sends complete. -/
def enginesQuiet (s : State) (c : CtxId) : Bool :=
  let k := s.core c.coreId
  k.wins.toList.all (fun w => !(w.opn && w.opener == c)) && k.chans.toList.all (fun h => !(h.busy && h.owner == c)) &&
  (s.die c.die).lbs.toList.all (fun l => l.holder != some c || l.sending.isNone)
/-- Close every link buffer that a context holds (R390). -/
def closeLbs (c : CtxId) (s : State) : State :=
  s.modDie c.die fun d => { d with lbs := d.lbs.map fun l => if l.holder = some c then l.close else l }
/-- Another member of the team has not ended. -/
def othersRun (s : State) (c : CtxId) : Bool :=
  let b := (s.ctx c).b
  allCtx.any (fun o => o != c && (s.ctx o).st.bound && (s.ctx o).b.tenant == b.tenant && (s.ctx o).b.team == b.team &&
    (match (s.ctx o).exit with
     | some e => e.sig.isNone
     | none => true)) ||
  s.saved.any (fun v => v.ctx.b.tenant == b.tenant && v.ctx.b.team == b.team) || (teamOf s b.tenant b.team).any fun m => !m.pend.isEmpty
/-- The VA and the length of a record's successor list. -/
def succFields (s : State) (k : CoreId) (t : BitVec 4) (r : W64) : Nat × Nat := (rdRec s k t r 0x18 8, rdRec s k t r 0x20 2)
/-- The successor list whose entries the end of this task signals: that of its own record, or, where it is the last member of its team to end, that of record 0 as
it was when that task ended (R349, R356). -/
def succList (s : State) (c : CtxId) (e : Exit) : Option (Nat × Nat) :=
  let b := (s.ctx c).b
  let own := succFields s c.coreId b.tenant b.task
  if e.failed then none
  else if b.team = 0 then some own
  else match teamOf s b.tenant b.team with
    | none => none
    | some m => if m.failed || othersRun s c then none else if b.member = 0 then some own else m.succ
/-- The record of a dropped signal keeps STATE.DROP where it translates to a page that can be written (R356). -/
def markDrop (k : CoreId) (t : BitVec 4) (r : W64) (s : State) : State :=
  let w := rdRec s k t r 0 4
  match translate s k t r with
  | some e => if r.toNat < 2 ^ 48 ∧ pteW e ∧ ¬ pteX e ∧ dpaSpace (pteDpa e) ≤ 1 then wrRec k t r 0 4 (if w.testBit 11 then w else w + 2 ^ 11) s else s
  | none => s
/-- A successor can be signalled: CREATED or ARMED, not another member of a team than its record 0, and with a counter that can still fall (R353, R355;
log 54). -/
def canSignal (s : State) (k : CoreId) (t : BitVec 4) (r : W64) : Bool :=
  recUsable s k t r && (recSt s k t r == 1 || recSt s k t r == 2) && !isMember s k t r && recCount s k t r != -(2 ^ 31)
/-- Signal one entry of a successor list, or drop the signal (R356 step 6). -/
def signalSucc (k : CoreId) (t : BitVec 4) (r : W64) (s : State) : State :=
  if canSignal s k t r then signalRec k t r s else notify t 2 1 r 0 (markDrop k t r s)
/-- Release a context (R70): its link buffers close and the scrubber clears it for 64 cycles, with its granules. -/
def releaseCtx (c : CtxId) (s : State) : State :=
  let x := s.ctx c
  let s := closeLbs c s
  let s := if x.b.team != 0 && !othersRun s c then
    { s with teams := s.teams.filter fun m => !(m.tenant == x.b.tenant && m.id == x.b.team) } else s
  let s := { s with hostReqs := s.hostReqs.filter fun q => q.req != Req.text c }
  powerArrays c.coreId (s.setCtx c { Ctx.scrubbed .scrub (s.die c.die).tgen with b := { Binding.none with gran := x.b.gran }, scrubLeft := 64 })
/-- Signal the successors of a list of `cnt` entries at `a` from the n-th on, in list order. A full queue, a missing page of the list and a list in a host
window hold the rest back; entries whose page cannot be had are passed over (R334, R356, R359). -/
def signalFrom (c : CtxId) (t : BitVec 4) (a cnt : Nat) : Nat → Nat → State → State
  | 0, _, s => releaseCtx c s
  | f + 1, n, s =>
    let k := c.coreId
    let pause (s : State) : State := s.modCtx c fun x => { x with exit := x.exit.map fun e => { e with sig := some n } }
    let next (s : State) : State := signalFrom c t a cnt f (n + 1) (s.modCtx c fun x => { x with att := .none })
    if n ≥ cnt then releaseCtx c s
    else match (s.ctx c).att with
      | .text _ true => pause s
      | .failed _ => next s
      | att => match textFrom s k t (a + 8 * n) 8 3 att.got with
        | .ask got o m => pause (askText c t got o m s)
        | .miss v =>
          if (s.ctx c).unres.contains (pageVa v.toNat) then next s else pause (s.modCtx c fun x => { x with miss := some (v, .read) })
        | .bad _ => next s
        | .done l =>
          let q := BitVec.ofNat 64 (ofBytes l)
          if canSignal s k t q && signalBlocked s k t q then pause (s.modCtx c fun x => { x with att := .text l false })
          else next (signalSucc k t q (noteText k t (a + 8 * n) 8 s))
/-- A member of a collective group leaves it by TEXIT (R399). -/
def leaveGroup (c : CtxId) (s : State) : State :=
  let g := (s.arch c).cgm.toNat
  if bits g 16 16 = 0 then s
  else if meetsAfar s (bits g 61 3) then
    routeFlit c.die ⟨.arrival, 0, dieId s c.die, 0, .coll 0 c, 0, arrivalBytes (s.ctx c).b.tenant (s.arch c).cgm 0 false true, 0, false⟩ s
  else { s with left := s.left ++ [⟨(s.ctx c).b.tenant, BitVec.ofNat 16 (bits g 32 16), bits g 61 3, instOf (bits g 61 3) c, bits g 0 16⟩] }
/-- Record 0 of a team has ended: its successor list, read now, is the team's (R349). -/
def noteSucc (c : CtxId) (s : State) : State :=
  let b := (s.ctx c).b
  let l := succFields s c.coreId b.tenant b.task
  if b.team = 0 ∨ b.member ≠ 0 then s
  else { s with teams := s.teams.map fun m => if m.tenant = b.tenant ∧ m.id = b.team then { m with succ := some l } else m }
/-- Write the end of a task into its record (R356 step 5, R357), and notify. -/
def writeEnd (c : CtxId) (e : Exit) (s : State) : State :=
  let k := c.coreId
  let b := (s.ctx c).b
  let t := b.tenant
  let r := b.task
  let ntfyx := (rdRec s k t r 0 4).testBit 10
  let s := if e.failed then s else noteSucc c (leaveGroup c s)
  let s := setSt k t r (if e.failed then 7 else 6) (wrRec k t r 0x58 8 e.result.toNat (wrRec k t r 0x50 8 (s.die c.die).ptb.toNat
    (wrRec k t r 0x38 8 e.fault.toNat s)))
  let s := if e.failed || ntfyx then notify t 2 0 r e.fault s else s
  if e.failed then failTeam t b.team s else s
/-- The task's record is written and its successors are to be signalled: of a team that spans packages, once the members of all of them have ended, and only
if all are DONE, by the last member to end in the package of record 0 (R356; DESIGN CHOICE, log 18). -/
def endTask (c : CtxId) (e : Exit) (s : State) : State :=
  let b := (s.ctx c).b
  let l := succList s c e
  let r := enterEnd b.tenant b.team c b.uid b.member (!e.failed) (writeEnd c e s)
  let awaits : Attempt := match r.1, l with
    | some id, some _ => .round id
    | _, _ => .none
  r.2.modCtx c fun y => { y with exit := some { e with sig := some 0, succ := l }, att := awaits }
/-- Signal the successors of a task that has ended from the n-th on, and release its context (R356 steps 6 and 7). -/
def signalStep (c : CtxId) (e : Exit) (n : Nat) (s : State) : State :=
  match e.succ, (s.ctx c).att with
  | none, _ => releaseCtx c s
  | _, .round _ => s
  | _, .done 0 => releaseCtx c s
  | some l, _ => signalFrom c (s.ctx c).b.tenant l.1 l.2 65536 n s
/-- The commands, the fence and the engines of a task that ends are not all complete (R356 items 1, 3 and 4). -/
def endWaits (c : CtxId) (s : State) : Bool :=
  (s.core c.coreId).cmds.any (fun q => q.ctx == c.ctx) || outputsInFlight (s.ctx c) || relBusy s c 5
/-- One cycle of the end of a task: wait for the commands, fence, close the engines, write the record, signal, release (R356, R357). -/
def finishStep (c : CtxId) (s : State) : State :=
  let x := s.ctx c
  match x.exit with
  | none => s
  | some e =>
    if x.miss.isSome then s
    else match e.sig with
    | some n => signalStep c e n s
    | none =>
      if endWaits c s then s
      else
        let s := closeEngines c s
        if !enginesQuiet s c then s
        else if (translate s c.coreId x.b.tenant x.b.task).isNone && !x.unres.contains (pageVa x.b.task.toNat) then
          s.modCtx c fun y => { y with miss := some (x.b.task, .write) }
        else
          let u := endTask c (exitVerdict x e) s
          signalStep c ((u.ctx c).exit.getD e) 0 u
/-- Read on n bytes of a successor list at a VA from those already read: bytes that cannot be had, whose signals are dropped, read as 0xFF, which names
no record (R334, R356). -/
def listFrom (s : State) (c : CtxId) (va n : Nat) : Nat → List Byte → Text
  | 0, got => .done got
  | f + 1, got =>
    let a := va + got.length
    let skip : Text := listFrom s c va n f (got ++ List.replicate (min (n - got.length) (0x10000 - a % 0x10000)) 0xFF)
    if n ≤ got.length then .done got
    else match pieceAt s c.coreId (s.ctx c).b.tenant a (n - got.length) false false with
      | .mem d v m => listFrom s c va n f (got ++ dpaBytes s v d m)
      | .host o m => .ask got o m
      | .miss w => if (s.ctx c).unres.contains (pageVa w.toNat) then skip else .miss w
      | .err _ => skip
/-- The successor list that this task's exit would signal, as far as it has been read. -/
def succText (c : CtxId) (s : State) : Text :=
  match succList s c ⟨0, 0, false, none, none⟩ with
  | none => .done []
  | some l => listFrom s c l.1 (8 * l.2) (8 * l.2 + 1) (s.ctx c).att.got
/-- The successor whose counter the signals of an exit with this list would take below −2^31 (R353): TEXIT would cause it, so TEXIT traps (log 54). -/
def texitErr (c : CtxId) (l : List Byte) (s : State) : Option Err :=
  let k := c.coreId
  let t := (s.ctx c).b.tenant
  let es := (List.range (l.length / 8)).map fun i => BitVec.ofNat 64 (ofBytes ((l.drop (8 * i)).take 8))
  (es.find? fun q => recUsable s k t q && recSt s k t q == 1 && !isMember s k t q && decide (recCount s k t q - es.count q < -(2 ^ 31))).map
    fun q => ⟨0x06, q⟩
/-- The task begins to end with its bundle (R356). -/
def beginExit (v : W64) (c : CtxId) (s : State) : State := s.modCtx c fun x => { x with exit := some ⟨v, 0, false, none, none⟩ }
/-- TEXIT (R353, R356): its successor list is read for the trap of R353 first, from a host window by MREAD (R203; log 54). -/
def texitOut (v : W64) (c : CtxId) (s : State) : SlotOut :=
  match (s.ctx c).att, succText c s with
  | .text _ true, _ => .wait none
  | .failed _, _ => .go (beginExit v c)
  | _, .ask got o n => .wait (some (askText c (s.ctx c).b.tenant got o n))
  | _, .miss w => .freeze fun u => u.modCtx c fun y => { y with miss := some (w, .read) }
  | _, .bad e => .trap e
  | _, .done l => match texitErr c l s with
    | some e => .trap e
    | none => .go fun u => beginExit v c (match succList u c ⟨0, 0, false, none, none⟩ with
        | some a => noteText c.coreId (u.ctx c).b.tenant a.1 l.length u
        | none => u)
/-- SCRUB_DONE: the scrubber's 64 cycles have passed, and the context is FREE (R70). -/
def scrubDone (s : State) : State :=
  let c : CtxId := ⟨s.arg.die, s.arg.core, s.arg.ctx⟩
  let x := s.ctx c
  if x.st = .scrub ∧ x.scrubLeft = 0 then s.setCtx c (Ctx.scrubbed .free (s.die c.die).tgen) else s
/-- SCRUB_DONE (R70). -/
def execScrubDone (s : State) : Host.Outcome State Fault Refusal := .next (scrubDone s)

/-- Plan of TSPAWN: Creates one task record from a template. (R354) -/
def planTspawn (x y : Code7) : Plan := planCxy true x y (spawnOut false 1)
/-- TSPAWN (R354). -/
def execTspawn (x y : Code7) (s : State) : Host.Outcome State Fault Refusal := runPlan (planTspawn x y) s

/-- Plan of TSPAWN_G: Creates a team of task records from a template. (R354) -/
def planTspawnG (x y : Code7) (n : BitVec 16) : Plan := planCxy true x y (spawnOut true n.toNat)
/-- TSPAWN_G (R354). -/
def execTspawnG (x y : Code7) (n : BitVec 16) (s : State) : Host.Outcome State Fault Refusal := runPlan (planTspawnG x y n) s

/-- Plan of TARM: Arms a record for expected signals, enqueuing it if none remain. (R353) -/
def planTarm (x y : Code7) : Plan := planCxy true x y tarmOut
/-- TARM (R353). -/
def execTarm (x y : Code7) (s : State) : Host.Outcome State Fault Refusal := runPlan (planTarm x y) s

/-- Plan of TSIG: Signals a record's dependence counter. (R353) -/
def planTsig (x : Code7) : Plan := planCx true x tsigOut
/-- TSIG (R353). -/
def execTsig (x : Code7) (s : State) : Host.Outcome State Fault Refusal := runPlan (planTsig x) s

/-- Plan of TEXIT: Ends the task. (R356) -/
def planTexit (x : Code7) : Plan := planCx true x texitOut
/-- TEXIT (R356). -/
def execTexit (x : Code7) (s : State) : Host.Outcome State Fault Refusal := runPlan (planTexit x) s

/-- Plan of TSETQ: Sets a record's priority, requeuing it if queued. (R362) -/
def planTsetq (x : Code7) (p : BitVec 2) : Plan := planCx true x fun r => tsetqOut false r p.toNat
/-- TSETQ (R362). -/
def execTsetq (x : Code7) (p : BitVec 2) (s : State) : Host.Outcome State Fault Refusal := runPlan (planTsetq x p) s

/-- Plan of TSETQ_SELF: Sets the issuing task's own priority. (R362) -/
def planTsetqSelf (p : BitVec 2) : Plan := planC true fun c s => tsetqOut true (s.ctx c).b.task p.toNat c s
/-- TSETQ_SELF (R362). -/
def execTsetqSelf (p : BitVec 2) (s : State) : Host.Outcome State Fault Refusal := runPlan (planTsetqSelf p) s

/-- Plan of BSYNC: Fences and arrives at the team barrier of a scope, waiting for release. (R366) -/
def planBsync (scope : BitVec 3) : Plan := planC true (bsyncOut scope.toNat)
/-- BSYNC (R366). -/
def execBsync (scope : BitVec 3) (s : State) : Host.Outcome State Fault Refusal := runPlan (planBsync scope) s

end Sys2Proof.Machine
end

