-- ==== Sys2Proof/Machine/Dispatcher.lean ====
section
/-! DEFINITION. The dispatcher (23 R363 to R365; 05 R67, R71 to R81, R88; 21 R337, R339): the check of a queue's head, placement,
binding, gangs, pre-emption requests, the scrub of a core. -/

namespace Sys2Proof.Machine

/-! ## The kernel header (Tables 05.4 and 05.5) -/

/-- The header's fields from its 64 bytes. -/
def hdrOf (l : List Byte) : Hdr :=
  { featreq := BitVec.ofNat 32 (fieldOf l 8 4), mregs := fieldOf l 0xC 1, mhigh := fieldOf l 0xD 1, maxrun := fieldOf l 0xE 2,
    cstore := fieldOf l 0x10 4, savesz := fieldOf l 0x14 4, code := BitVec.ofNat 64 (fieldOf l 0x18 8),
    dict := BitVec.ofNat 64 (fieldOf l 0x20 8), dictn := fieldOf l 0x28 2, entry := BitVec.ofNat 32 (fieldOf l 0x2C 4),
    traph := BitVec.ofNat 32 (fieldOf l 0x30 4) }
/-- Granules of a kernel (R76). -/
def Hdr.gran (h : Hdr) : Nat := cdiv h.mregs 4
/-- Core-store buffers of a kernel (R79). -/
def Hdr.bufs (h : Hdr) : Nat := cdiv h.cstore 0x10000
/-- The minimum of SAVESZ (R81). -/
def Hdr.saveMin (h : Hdr) : Nat := 16384 + 4096 * (4 * h.gran)
/-- The refusal reason that the header's own bytes give, none if it passes (Tables 05.5 and 23.4). -/
def hdrReason (l : List Byte) : Option Nat :=
  let h := hdrOf l
  if fieldOf l 0 4 ≠ 0x31584645 ∨ fieldOf l 4 2 ≠ 1 ∨ fieldOf l 6 2 ≠ 0 ∨ fieldOf l 0x2A 2 ≠ 0 ∨ fieldOf l 0x34 12 ≠ 0 ∨
      ¬ h.featreq.getLsbD 0 ∨ bits h.featreq.toNat 11 21 ≠ 0 then some 1
  else if h.mregs > 32 then some 2
  else if h.mhigh ≠ 0xFF ∧ (h.mhigh ≥ 4 * h.gran ∨ h.mhigh ≥ 32) then some 3
  else if h.maxrun = 0 then some 4
  else if h.cstore > 0x5F0000 then some 5
  else if h.savesz < h.saveMin then some 6
  else none
/-- A core serves tasks and is in an affinity mask, 0 naming every core. -/
def coreNamed (s : State) (c : CoreId) (aff : Nat) : Bool :=
  (s.core c).inService && (bits aff 0 16 == 0 || aff.testBit c.core.val)
/-- The dies of an affinity mask. -/
def affDies (aff : Nat) : List (Fin 4) := (List.finRange 4).filter fun d => aff.testBit (16 + d.val)
/-- An affinity mask names only absent cores (R72, R416). -/
def noCore (s : State) (aff : Nat) : Bool := !(affDies aff).any fun d => (List.finRange 16).any fun c => coreNamed s ⟨d, c⟩ aff
/-- The die provides a kernel's features, and is not about to lose one of them (R337, R338). -/
def hasFeat (s : State) (d : Fin 4) (h : Hdr) : Bool := (h.featreq &&& ~~~(((s.die d).feat &&& ~~~(s.die d).featDrop).setWidth 32)) == 0
/-- What the check of a head comes to (R72, R349): a header in a host window is asked for piece by piece (R203). -/
inductive HeadCheck where
  | take (k : Take)
  | refuse (reason : Nat)
  | await (va : W64)
  | ask (got : List Byte) (off n : Nat)
  | reading
  deriving DecidableEq, Repr
/-- What a die's dispatcher has read of the header of a record from a host window. -/
def headText (s : State) (d : Fin 4) (t : BitVec 4) (r : W64) : HeadText :=
  ((s.die d).heads.find? fun h => h.tenant == t && h.rec' == r).getD ⟨t, r, [], false, false⟩
/-- Note what a die's dispatcher has read of a header. -/
def noteHead (d : Fin 4) (h : HeadText) (s : State) : State :=
  s.modDie d fun x => { x with heads := h :: x.heads.filter fun g => !(g.tenant == h.tenant && g.rec' == h.rec') }
/-- Ask the host for the next bytes of a header. -/
def askHead (d : Fin 4) (t : BitVec 4) (r : W64) (got : List Byte) (off n : Nat) (s : State) : State :=
  hostSend t (.header d t r) false off [] n 1 (noteHead d ⟨t, r, got, true, false⟩ s)
/-- A head's check is over: what was read of its header is kept no longer. -/
def dropHead (d : Fin 4) (t : BitVec 4) (r : W64) (s : State) : State :=
  s.modDie d fun x => { x with heads := x.heads.filter fun g => !(g.tenant == t && g.rec' == r) }
/-- The checks of R72 on a header's 64 bytes and the fields of its record, at a die. -/
def headVerdict (s : State) (d : Fin 4) (t : BitVec 4) (r : W64) (l : List Byte) : HeadCheck :=
  let k : CoreId := ⟨d, 0⟩
  let aff := rdRec s k t r 0x28 8
  let que := rdRec s k t r 0x22 2
  let h := hdrOf l
  match hdrReason l with
  | some n => .refuse n
  | none =>
    if (h.featreq &&& ~~~((affDies aff).foldl (fun m d => m ||| ((s.die d).feat.setWidth 32)) (0 : W32))) != 0 then .refuse 7
    else if h.dictn > 65534 ∨ h.code.toNat % 0x10000 ≠ 0 ∨ (h.dictn ≠ 0 ∧ h.dict.toNat % 64 ≠ 0) then .refuse 8
    else if noCore s aff then .refuse 9
    else if que / 64 ≠ 0 ∨ bits que 2 4 ≠ t.toNat then .refuse 10
    else .take ⟨r, h, BitVec.ofNat 64 (rdRec s k t r 0x10 8), BitVec.ofNat 64 aff, BitVec.ofNat 64 (rdRec s k t r 0x40 8), BitVec.ofNat 2 que⟩
/-- HEADER of a record. -/
def headerVa (s : State) (d : Fin 4) (t : BitVec 4) (r : W64) : W64 := BitVec.ofNat 64 (rdRec s ⟨d, 0⟩ t r 8 8)
/-- The check of R72 on the record of a head, at a queue of a die. -/
def checkHead (s : State) (d : Fin 4) (t : BitVec 4) (q : Fin 64) (r : W64) : HeadCheck :=
  let hva := headerVa s d t r
  let x := headText s d t r
  if hva.toNat % 64 ≠ 0 ∨ hva.toNat ≥ 2 ^ 48 ∨ x.bad then .refuse 1
  else if (s.die d).faults.any (fun f => f.agent == .header q (qEntry q t r)) then .await hva
  else if x.out then .reading
  else match textFrom s ⟨d, 0⟩ t hva.toNat 64 3 x.got with
    | .done l => headVerdict s d t r l
    | .ask got o n => .ask got o n
    | .miss v => .await v
    | .bad _ => .refuse 1

/-! ## Placement (R364, R76, R79) -/

/-- The lowest-numbered FREE context. -/
def freeCtx (k : Core) : Option (Fin 8) := (List.finRange 8).find? fun i => (k.ctxs[i.val]).st == .free
/-- Granules that are not free, those under a context scrub among them (R70). -/
def granUsed (k : Core) : Nat := (k.ctxs.toList.map fun x => x.b.gran).sum
/-- A buffer is reserved by no bound task. -/
def bufFree (k : Core) (b : Nat) : Bool :=
  k.ctxs.toList.all fun x => !(x.st.bound && decide (x.b.firstBuf ≤ b) && decide (b < x.b.firstBuf + x.b.nBuf))
/-- The lowest run of n free buffers from buffer 1 (R79). -/
def bufRun (k : Core) (n : Nat) : Option Nat :=
  if n = 0 then some 0
  else (List.range 96).find? fun b => decide (1 ≤ b) && decide (b + n ≤ 96) && (List.range n).all fun i => bufFree k (b + i)
/-- The task for which a core is kept still waits in a queue of a priority not below p (log 58). -/
def wantLives (s : State) (p : Nat) (w : BitVec 4 × W64) : Bool :=
  s.dies.toList.any fun d => (List.finRange 4).any fun q => decide (p ≤ q.val) && (qAll d (qIdx w.1 q.val)).contains w.2
/-- A core may take a task of a tenant at a priority: it is not failing, it is kept for no other task, and it belongs to the tenant, or all of its contexts are FREE;
while it is scrubbed it may take the task for which it is (R67, R416). -/
def coreOpen (s : State) (k : Core) (t : BitVec 4) (r : W64) (p : Nat) : Bool :=
  !k.failing && !k.want.any (fun w => w != (t, r) && wantLives s p w) &&
  (if k.scrub.isSome then k.want == some (t, r) else k.tenant == some t || k.ctxs.toList.all fun x => x.st == .free)
/-- The core still has to be scrubbed for the tenant. -/
def needsScrub (k : Core) (t : BitVec 4) : Bool := k.scrub.isSome || k.tenant != some t
/-- The cores of a die from its rotating pointer. -/
def coreOrder (s : State) (d : Fin 4) : List (Fin 16) := (List.range 16).map fun i => Fin.ofNat 16 ((s.die d).corePtr.val + i)
/-- A never-run task fits a core. -/
def fits (s : State) (c : CoreId) (t : BitVec 4) (r : W64) (p : Nat) (h : Hdr) (aff : Nat) : Bool :=
  let k := s.core c
  coreNamed s c aff && hasFeat s c.die h && coreOpen s k t r p && (freeCtx k).isSome && decide (granUsed k + h.gran ≤ 8) &&
  (bufRun k h.bufs).isSome
/-- A saved task fits a core (R344, R364, R390). -/
def fitsSaved (s : State) (c : CoreId) (v : Saved) : Bool :=
  let k := s.core c
  let b := v.ctx.b
  coreNamed s c b.aff.toNat && hasFeat s c.die b.hdr && coreOpen s k b.tenant b.task b.prio.toNat && (freeCtx k).isSome && decide (granUsed k + b.gran ≤ 8) &&
  (List.range b.nBuf).all (fun i => bufFree k (b.firstBuf + i)) && decide (banksUsed k + banksHeld v.ctx ≤ coreBanks) &&
  v.chans.all (fun h => let q := k.chans[h.1.val]; !q.busy && !k.ctxs.toList.any fun x => x.st.bound && x.b.uid == q.uid) && v.wins.all (fun w => !(k.wins[w.1.val]).opn) &&
  s.accesses.all (fun a => !(a.uid == b.uid && a.dst.isSome)) && (v.lbs.isEmpty || v.die == c.die)
/-- Start the scrub of a core for a task of a new tenant (R67): 1,024 cycles, in which the task stays in its queue. -/
def startScrub (c : CoreId) (t : BitVec 4) (r : W64) (s : State) : State :=
  s.modCore c fun k => if k.scrub.isSome then k else { k with scrub := some (t, 1024), tenant := none, want := some (t, r) }
/-- The scrub of a core has ended: its store, flags and accumulator memory are zero, its quad epoch starts again (R316), and it passes to the
tenant (R67). -/
def scrubbedCore (k : Core) (t : BitVec 4) : Core :=
  { k with scrub := none, tenant := some t, store := [], own := .replicate 96 .home, adm := .replicate 96 0, epoch := 0 }
/-- The state of a newly bound context on a die (R31, R80, R365, Table 25.8). -/
def bindCtx (d : Die) (x : Ctx) (uid : Nat) (t : BitVec 4) (k : Take) (prio : Nat) (buf team size m : Nat) (start : Option W64) : Ctx :=
  let h := k.hdr
  let r (n : Nat) (v : W64) (a : Arch) : Arch := a.wrS n v
  let s1 : Nat := if h.cstore = 0 then 0 else 0x10000 * buf
  { x with
    st := if start.isSome then .waiting else .ready
    arch := { (r 3 (BitVec.ofNat 64 size) (r 2 (BitVec.ofNat 64 m) (r 1 (BitVec.ofNat 64 s1) (r 0 k.args x.arch)))) with
      pc := h.entry, ctgen := d.tgen }
    b := { uid := uid, tenant := t, hdr := h, task := k.task, prio := BitVec.ofNat 2 prio, save := k.save,
           team := BitVec.ofNat 16 team, teamSize := size, member := m, firstBuf := if h.cstore = 0 then 0 else buf,
           nBuf := h.bufs, gran := h.gran, bsync := .replicate 6 0, start := start, started := false, aff := k.aff, feat := d.feat, snap := 0 } }
/-- Place a task in the lowest FREE context of a core that belongs to its tenant, and move the core pointer past it (R364, R365). -/
def bindTask (c : CoreId) (t : BitVec 4) (k : Take) (prio team size m : Nat) (start : Option W64) (s : State) : State :=
  match freeCtx (s.core c), bufRun (s.core c) k.hdr.bufs with
  | some i, some b =>
    let f := (powerUp c k.hdr s).fresh
    let s := f.2.modCtx ⟨c.die, c.core, i⟩ fun x => bindCtx (s.die c.die) x f.1 t k prio b team size m start
    let s := s.modCore c fun q => if q.want = some (t, k.task) then { q with want := none } else q
    (setSt c t k.task 4 s).modDie c.die fun d => { d with corePtr := c.core + 1 }
  | _, _ => s
/-- Bind the members of gangs that are reserved on a core, which has been scrubbed for them; the die's core pointer passed it when they were reserved (R67, R88). -/
def bindReserved (c : CoreId) (s : State) : State :=
  let u := forEach s.teams (fun g s => forEach (g.pend.filter fun p => p.core == c) (fun p s =>
    (bindTask c g.tenant p.take p.take.prio.toNat g.id.toNat g.size p.num (some p.start) s).modDie c.die fun d => { d with corePtr := (s.die c.die).corePtr }) s) s
  { u with teams := u.teams.map fun g => { g with pend := g.pend.filter fun p => p.core != c } }
/-- CORE_SCRUB: the scrub of a core has ended, and the members of a gang that are reserved on it are bound (R67, R88). -/
def coreScrub (s : State) : State :=
  let k : CoreId := ⟨s.arg.die, s.arg.core⟩
  match (s.core k).scrub with
  | some (t, 0) => bindReserved k (s.modCore k fun q => scrubbedCore q t)
  | _ => s
/-- CORE_SCRUB (R67). -/
def execCoreScrub (s : State) : Host.Outcome State Fault Refusal := .next (coreScrub s)
/-- Put a saved task's binding into the lowest FREE context of a core: it waits there for its restore, its banks, channels and windows kept for it (R344,
R365). -/
def bindSaved (c : CoreId) (v : Saved) (s : State) : State :=
  match freeCtx (s.core c) with
  | some i =>
    let o : CtxId := ⟨c.die, c.core, i⟩
    let s := (powerUp c v.ctx.b.hdr s).modCtx o fun x => { x with st := .waiting, b := { v.ctx.b with feat := (s.die c.die).feat }, z := v.ctx.z }
    let s := s.modCore c fun q => { q with
      want := if q.want = some (v.ctx.b.tenant, v.ctx.b.task) then none else q.want
      chans := .ofFn fun (j : Fin 2) => match v.chans.find? (·.1 == j) with
        | some h => { h.2 with owner := o, stop := true }
        | none => q.chans[j.val]
      wins := .ofFn fun (j : Fin 8) => match v.wins.find? (·.1 == j) with
        | some w => { w.2 with opener := o }
        | none => q.wins[j.val] }
    (setSt c v.ctx.b.tenant v.ctx.b.task 4 s).modDie c.die fun d => { d with corePtr := c.core + 1 }
  | none => s

/-! ## Gangs (R88, R355, R406) -/

/-- A member of a gang as the dispatcher reserves it: what has been read of it, the dies for it, and its place among the members of this package. -/
abbrev Candidate := (Take × List (Fin 4)) × Nat
/-- Reserve one member on the first core that fits, of the dies given in order: the core joins those of the members before it. The core counts as scrubbed for the
gang. -/
def placeMember (g : Team) (lead : W64) (start : W64) (p : Candidate) (st : Option (List CoreId × State)) : Option (List CoreId × State) :=
  match st with
  | none => none
  | some (cs, s) =>
    let k := p.1.1
    let on (d : Fin 4) : Option CoreId := ((coreOrder s d).find? fun i => fits s ⟨d, i⟩ g.tenant lead k.prio.toNat k.hdr k.aff.toNat).map fun i => ⟨d, i⟩
    (firstSome on p.1.2).map fun c =>
      (cs ++ [c], bindTask c g.tenant k k.prio.toNat g.id.toNat g.size (g.nums.getD p.2 p.2) (some start)
        (s.modCore c fun q => { q with tenant := some g.tenant, scrub := none }))
/-- The cores on which the members of a gang can be reserved together (R88), with the take and the dies of each member; none where some member cannot be. -/
def tryGang (g : Team) (lead : W64) (takes : List (Take × List (Fin 4))) (start : W64) (s : State) : Option (List CoreId) :=
  (takes.zipIdx.foldl (fun st p => placeMember g lead start p st) (some ([], s))).map Prod.fst
/-- Records leave every queue and the dispatchers' notes. -/
def purgeQueues (t : BitVec 4) (recs : List W64) (s : State) : State :=
  let mine (q : Fin 64) (e : W64) : Bool := (qOwner q e).1 == t && recs.contains (qOwner q e).2
  forEach (List.finRange 4) (fun d s => s.modDie d fun x =>
    let y := (List.finRange 64).foldl (fun (x : Die) q => x.setQueue q ((qAll x q).filter fun e => !mine q e)) x
    { y with taken := y.taken.filter fun e => !((if e.1 < 64 then e.1 / 4 else e.1 - 64) == t.toNat && recs.contains e.2.task) }) s
/-- Fail every record of a gang, each with its reason (R88, R371, R406). -/
def failGang (g : Team) (d : Fin 4) (reason : W64 → Nat) (s : State) : State :=
  let s := forEach g.recs (fun r s =>
    if recLive (recSt s ⟨d, 0⟩ g.tenant r.2) then killRec ⟨d, 0⟩ g.tenant r.2 (faultWord 3 0 0 (reason r.2) 0) s else s) s
  purgeQueues g.tenant (g.recs.map Prod.snd) { s with teams := s.teams.filter fun m => !(m.tenant == g.tenant && m.id == g.id) }
/-- The record at fault has its own reason, the others have reason 9 (R406). -/
def badRec (bad : W64) (n : Nat) (r : W64) : Nat := if r = bad then n else 9
/-- The latest PTB count of the dies. -/
def latestPtb (s : State) : W64 := s.dies.toList.foldl (fun m d => if m.toNat < d.ptb.toNat then d.ptb else m) 0
/-- The start tick that the dispatcher chooses for a gang of TSPAWN_G: at or after now, otherwise open (R88). -/
def chooseTick (s : State) : W64 × State :=
  (latestPtb s + (Config.freeWord s.draws).setWidth 64, { s with draws := s.draws + 1 })
/-- The gang would span a die with PTBLOST and a die without it (R371). -/
def spansLost (s : State) (ds : List (Fin 4)) : Bool := ds.any (fun d => (s.die d).ptbLost) && ds.any fun d => !(s.die d).ptbLost
/-- Reserve a gang on cores that have been found for its members (R88): a member is bound, or, where its core has first to be scrubbed for the gang, once
that is done (R67). -/
def reserveGang (g : Team) (lead : W64) (takes : List (Take × List (Fin 4))) (cs : List CoreId) (start : W64) (s : State) : State :=
  let l := (takes.zipIdx.zip cs).map fun p => (Reserve.mk p.1.1.1 (g.nums.getD p.1.2 p.1.2) p.2 start, needsScrub (s.core p.2) g.tenant)
  let u := forEach l (fun p s =>
    let c := p.1.core
    if p.2 then (startScrub c g.tenant lead s).modDie c.die fun d => { d with corePtr := c.core + 1 }
    else bindTask c g.tenant p.1.take p.1.take.prio.toNat g.id.toNat g.size p.1.num (some start) s) s
  { u with teams := u.teams.map fun m => if m.tenant = g.tenant ∧ m.id = g.id then { m with placed := true, pend := (l.filter Prod.snd).map Prod.fst } else m }
/-- Place a gang whose members can all be reserved; none where one cannot be (R88). -/
def placeGang (g : Team) (lead : W64) (takes : List (Take × List (Fin 4))) (start : W64) (s : State) : Option State :=
  (tryGang g lead takes start s).map fun cs => reserveGang g lead takes cs start s
/-- The take of a checked task under a mark: a queue's number, or 64 for the gang of a GANG frame. -/
def takeAt (s : State) (d : Fin 4) (i : Nat) (r : W64) : Option Take := ((s.die d).taken.find? fun e => e.1 == i && e.2.task == r).map Prod.snd
/-- The takes of all members of a gang that has passed its check, each with the dies for it: its pair's die in a GANG frame, else those of record 0's
affinity (R355, R406). -/
def gangTakes (s : State) (d : Fin 4) (i : Nat) (g : Team) : Option (List (Take × List (Fin 4))) :=
  let aff := ((g.recs.head?.bind fun r => takeAt s d i r.2).map Take.aff).getD 0
  g.recs.foldr (fun r acc => match takeAt s d i r.2, acc with
    | some k, some l => some ((k, if g.tick.isSome then [r.1] else affDies aff.toNat) :: l)
    | _, _ => none) (some [])
/-- What the check of all members of a gang comes to: the takes, a record refused with its reason, or header pages awaited and bytes of headers to be
asked for. -/
inductive GangCheck where
  | takes (l : List Take)
  | refuse (r : W64) (reason : Nat)
  | await (l : List (Fin 64 × W64 × W64)) (asks : List (W64 × List Byte × Nat × Nat))
/-- Check every member of a gang at a die (R72, R73). -/
def checkGang (s : State) (d : Fin 4) (g : Team) : GangCheck :=
  g.recs.foldr (fun r acc =>
    let q := queueOf s ⟨d, 0⟩ g.tenant r.2
    let held : List (Fin 64 × W64 × W64) × List (W64 × List Byte × Nat × Nat) := match acc with
      | .await l a => (l, a)
      | _ => ([], [])
    match acc, checkHead s d g.tenant q r.2 with
    | .takes l, .take k => .takes (k :: l)
    | e, .take _ => e
    | _, .refuse n => .refuse r.2 n
    | .refuse a b, _ => .refuse a b
    | _, .await v => .await ((q, r.2, v) :: held.1) held.2
    | _, .ask got o n => .await held.1 ((r.2, got, o, n) :: held.2)
    | _, .reading => .await held.1 held.2) (.takes [])
/-- A gang whose members' headers have been read is refused with REASON 9 where one of them cannot be reserved, and with reason 2 where it would span dies with and
without PTBLOST (R88, R371). -/
def gangVerdict (d : Fin 4) (g : Team) (lead : W64) (l : List (Take × List (Fin 4))) (s : State) : State :=
  match tryGang g lead l 0 s with
  | none => failGang g d (fun _ => 9) s
  | some cs => if spansLost s (cs.map CoreId.die) then failGang g d (fun _ => 2) s else s
/-- The dispatcher's walk to the header of a record fills the die's TLB (R331). -/
def fillHead (d : Fin 4) (t : BitVec 4) (r : W64) (s : State) : State :=
  let va := headerVa s d t r
  match tlbFind (s.die d).tlb t va, walk s t va with
  | none, some e => (noteWalk d t va s).modDie d fun x => { x with tlb := tlbAdd x.tlb 4096 t va e }
  | _, _ => s
/-- The dispatcher has read the header and the record of a head: its walk fills the die's TLB, and its accesses count (R195, R199, R331). -/
def readHead (d : Fin 4) (t : BitVec 4) (r : W64) (s : State) : State :=
  noteText ⟨d, 0⟩ t r.toNat 128 (noteText ⟨d, 0⟩ t (headerVa s d t r).toNat 64 (fillHead d t r s))
/-- A gang is checked under a mark: its takes are noted once, its missing header pages are reported and headers in a host window asked for, or its records
fail (R72, R73, R88). -/
def checkTeam (d : Fin 4) (i : Nat) (g : Team) (lead : W64) (s : State) : State :=
  match gangTakes s d i g with
  | some l => gangVerdict d g lead l s
  | none =>
    let w := forEach g.recs (fun r s => fillHead d g.tenant r.2 s) s
    let read (s : State) : State := forEach g.recs (fun r s => readHead d g.tenant r.2 s) s
    let gone (s : State) : State := forEach g.recs (fun r s => dropHead d g.tenant r.2 s) s
    match checkGang s d g with
    | .await l a =>
      forEach a (fun p => askHead d g.tenant p.1 p.2.1 p.2.2.1 p.2.2.2)
        (forEach l (fun p => reportFault d ⟨g.tenant, p.2.2, .read, .header p.1 (qEntry p.1 g.tenant p.2.1)⟩) w)
    | .refuse r n => failGang g d (badRec r n) (gone (read s))
    | .takes ks =>
      let u := (gone (read s)).modDie d fun x => { x with taken := ks.map (fun k => (i, k)) ++ x.taken }
      gangVerdict d g lead ((gangTakes u d i g).getD []) u
/-- A gang leaves the dispatcher with what was read of its members. -/
def dropTakes (d : Fin 4) (i : Nat) (g : Team) (s : State) : State :=
  s.modDie d fun x => { x with taken := x.taken.filter fun e => !(e.1 == i && g.recs.any fun r => r.2 == e.2.task) }
/-- The mark of the takes of a GANG frame's gang. -/
def frameMark (g : Team) : Nat := 64 + g.tenant.toNat
/-- A gang has been placed. -/
def isPlaced (s : State) (g : Team) : Bool := s.teams.any fun m => m.tenant == g.tenant && m.id == g.id && m.placed
/-- Place the gang of a GANG frame, or fail its records (R88, R406). -/
def placeFrameGang (g : Team) (s : State) : State :=
  match g.tick, g.recs with
  | some t, r :: _ =>
    let m := frameMark g
    let u := checkTeam r.1 m g r.2 s
    (match gangTakes s r.1 m g with
     | none => u
     | some l =>
       if u.teams.any fun q => q.tenant == g.tenant && q.id == g.id then
         (match placeGang g r.2 l t u with
          | some v => dropTakes r.1 m g v
          | none => u)
       else u)
  | _, _ => s

/-! ## The choice (R363) -/

/-- The take of a checked head. -/
def takeOf (s : State) (d : Fin 4) (q : Fin 64) (r : W64) : Option Take := takeAt s d q.val r
/-- The saved task under a record. -/
def savedOf (s : State) (t : BitVec 4) (r : W64) : Option Saved := s.saved.find? fun v => v.ctx.b.tenant == t && v.ctx.b.task == r
/-- The gang of a record. -/
def gangOfRec (s : State) (d : Fin 4) (t : BitVec 4) (r : W64) : Option Team :=
  let w := rdRec s ⟨d, 0⟩ t r 0x24 4
  if w % 2 ^ 16 = 0 then none else teamOf s t (BitVec.ofNat 16 (w % 2 ^ 16))
/-- The first core of a die's order that fits is used, or first scrubbed for the task (R67, R364); none where none fits or its scrub is under way. -/
def onCore (d : Fin 4) (t : BitVec 4) (r : W64) (fit : CoreId → Bool) (bind : CoreId → State → State) (s : State) : Option State :=
  let mine := (List.finRange 16).find? fun i => (s.core ⟨d, i⟩).want == some (t, r) && fit ⟨d, i⟩
  match mine.orElse fun _ => (coreOrder s d).find? fun i => fit ⟨d, i⟩ with
  | none => none
  | some i =>
    if (s.core ⟨d, i⟩).scrub.isSome then none
    else if needsScrub (s.core ⟨d, i⟩) t then some (startScrub ⟨d, i⟩ t r s)
    else some (bind ⟨d, i⟩ s)
/-- The state after the head of the queue of a tenant at a priority is placed, or the scrub for it has begun; none where it cannot be placed now
(R364). -/
def headPlan (s : State) (d : Fin 4) (p : Nat) (t : BitVec 4) : Option State :=
  let q := qIdx t p
  match qAll (s.die d) q with
  | [] => none
  | r :: _ => match savedOf s t r with
    | some v => onCore d t r (fun c => fitsSaved s c v) (fun c s => bindSaved c v (qTake d q r s)) s
    | none => match takeOf s d q r with
      | none => none
      | some k => match gangOfRec s d t r with
        | none => onCore d t r (fun c => fits s c t r k.prio.toNat k.hdr k.aff.toNat) (fun c s => bindTask c t k k.prio.toNat 0 1 0 none (qTake d q r s)) s
        | some g => match gangTakes s d q.val g with
          | none => none
          | some l =>
            let f := chooseTick s
            (placeGang g r l f.1 f.2).map fun u => qTake d q r (dropTakes d q.val g u)
/-- A head fails its check: it leaves the queue, and its record or its gang fails (R72, R88). -/
def refuseHead (d : Fin 4) (q : Fin 64) (e : W64) (n : Nat) (s : State) : State :=
  let o := qOwner q e
  match gangOfRec s d o.1 o.2 with
  | some g => failGang g d (badRec o.2 n) s
  | none => killRec ⟨d, 0⟩ o.1 o.2 (faultWord 3 0 0 n 0) (qTake d q e s)
/-- Check the head of a queue (R72): its fields are read once; a head that fails is removed and its record fails, and so does one whose cores have all
gone out of service since (R416). -/
def checkQueue (d : Fin 4) (q : Fin 64) (s : State) : State :=
  match qAll (s.die d) q with
  | [] => s
  | e :: _ =>
    let t := (qOwner q e).1
    let r := (qOwner q e).2
    match savedOf s t r, gangOfRec s d t r, takeOf s d q r with
    | some v, _, _ =>
      if noCore s v.ctx.b.aff.toNat then
        killRec ⟨d, 0⟩ t r (faultWord 3 0 0 9 0) (qTake d q e { s with saved := s.saved.filter fun w => w.ctx.b.uid != v.ctx.b.uid })
      else s
    | none, some g, _ => checkTeam d q.val g r s
    | none, none, some k => if noCore s k.aff.toNat then refuseHead d q e 9 s else s
    | none, none, none => match checkHead s d t q r with
        | .take k => (dropHead d t r (readHead d t r s)).modDie d fun x => { x with taken := (q.val, k) :: x.taken }
        | .await v => reportFault d ⟨t, v, .read, .header q e⟩ s
        | .ask got o n => askHead d t r got o n (fillHead d t r s)
        | .reading => s
        | .refuse n => dropHead d t r (refuseHead d q e n (readHead d t r s))
/-- Check the heads of a die's queues. -/
def checkHeads (d : Fin 4) (s : State) : State := forEach (List.finRange 64) (checkQueue d) s
/-- Tenants in the round order of a priority. -/
def tenantOrder (s : State) (d : Fin 4) (p : Nat) : List (BitVec 4) :=
  (List.range 16).map fun i => BitVec.ofNat 4 (((s.die d).ptr[p]?).getD 0 + i)
/-- The bookkeeping of a choice (R363). -/
def useCredit (d : Fin 4) (p : Nat) (t : BitVec 4) (s : State) : State :=
  let w := (s.ten t).weight
  s.modDie d fun x =>
    let i := (qIdx t p).val
    let cr := ((x.credit[i]?).getD 1) - 1
    { x with
      credit := if h : i < 64 then x.credit.set i (if cr = 0 then w else cr) else x.credit
      ptr := if h : p < 4 then x.ptr.set p (if cr = 0 then (t.toNat + 1) % 16 else t.toNat) else x.ptr }
/-- One priority of the choice: the first placeable head in the tenants' order is placed, or its core's scrub begins, which uses no credit. -/
def chooseAt (d : Fin 4) (p : Nat) (s : State) : Option State :=
  firstSome (fun t => (headPlan s d p t).map fun u =>
    if (qAll (u.die d) (qIdx t p)).length = (qAll (s.die d) (qIdx t p)).length then u else useCredit d p t u) (tenantOrder s d p)
/-- An MMA.Q command of the context waits for its gang (R339). -/
def waitsGang (k : Core) (i : Fin 8) : Bool :=
  k.cmds.any fun q => q.ctx == i && q.left.isNone && (match q.ins with
    | .mmaQ _ _ _ _ _ _ _ _ _ _ => true
    | _ => false)
/-- A head that waits: its priority, its tenant, its record, its kernel header and affinity. -/
structure Waiter where
  prio : Nat
  tenant : BitVec 4
  task : W64
  hdr : Hdr
  aff : Nat
  deriving DecidableEq, Repr
/-- A queue's head, once it is checked or saved; a gang never waits (R88). -/
def headNeeds (s : State) (d : Fin 4) (p : Nat) (t : BitVec 4) : Option Waiter :=
  match qAll (s.die d) (qIdx t p) with
  | [] => none
  | r :: _ => match savedOf s t r, gangOfRec s d t r with
    | some v, _ => some ⟨p, t, r, v.ctx.b.hdr, v.ctx.b.aff.toNat⟩
    | none, some _ => none
    | none, none => (takeOf s d (qIdx t p) r).map fun k => ⟨p, t, r, k.hdr, k.aff.toNat⟩
/-- A core is being scrubbed for a task, which is to be placed there (R67, log 58). -/
def scrubbedFor (s : State) (w : Waiter) : Bool := allCores.any fun c => (s.core c).scrub.isSome && (s.core c).want == some (w.tenant, w.task)
/-- The heads of a die's queues that are placeable on no core, from the highest priority, in the tenants' order. -/
def headsWaiting (s : State) (d : Fin 4) : List Waiter :=
  [3, 2, 1].flatMap fun p => (tenantOrder s d p).filterMap fun t => match headNeeds s d p t with
    | some w => if (headPlan s d p t).isNone && !scrubbedFor s w then some w else none
    | none => none
/-- A core without the contexts listed, which are free. -/
def Core.without (k : Core) (l : List (Fin 8)) : Core :=
  { k with ctxs := .ofFn fun (i : Fin 8) => if l.contains i then .scrubbed .free 0 else k.ctxs[i.val] }
/-- A core could take a head that waits if the contexts listed were free (R344, R364, R390). -/
def couldTake (s : State) (w : Waiter) (c : CoreId) (l : List (Fin 8)) : Bool :=
  let u := s.setCore c ((s.core c).without l)
  match savedOf s w.tenant w.task with
  | some v => fitsSaved u c v
  | none => fits u c w.tenant w.task w.prio w.hdr w.aff
/-- The contexts of a core that will be free: under a request, saved or scrubbed. -/
def leaving (s : State) (c : CoreId) : List (Fin 8) :=
  (List.finRange 8).filter fun i => let x := (s.core c).ctxs[i.val]; x.preempt || x.st == .saving || x.st == .scrub
/-- The contexts of a core that a head that waits could pre-empt: of lower priority, and without an MMA.Q that waits for its gang (R339). -/
def preemptible (s : State) (w : Waiter) (but : Option CtxId) (c : CoreId) : List (Fin 8) :=
  (List.finRange 8).filter fun i =>
    let x := (s.core c).ctxs[i.val]
    x.st.bound && x.st != .saving && !x.preempt && x.exit.isNone && decide (x.b.prio.toNat < w.prio) && !waitsGang (s.core c) i && but != some ⟨c.die, c.core, i⟩
/-- The fewest first contexts of a list with which a core could take a head: one of them, or so many from its start. -/
def enough (s : State) (w : Waiter) (c : CoreId) (l : List (Fin 8)) : Option (List (Fin 8)) :=
  ((l.map fun i => [i]) ++ (List.range (l.length + 1)).map l.take).find? (couldTake s w c)
/-- The cores that come into question for a head that waits: the one that is kept for it, if it is eligible, else all (R339). -/
def coresFor (s : State) (d : Fin 4) (w : Waiter) (ok : CoreId → Bool) : List CoreId :=
  let l := ((List.finRange 16).map fun i => CoreId.mk d i).filter ok
  let mine := l.filter fun c => (s.core c).want == some (w.tenant, w.task)
  if mine = [] then l else mine
/-- The victim of a head that waits, with the contexts already on their way to be free, of which `used` are kept for other heads: on an eligible core, one
that could take the head without its contexts of lower priority, the context of the lowest priority, core and number (R339). -/
def victimFor (s : State) (d : Fin 4) (but : Option CtxId) (w : Waiter) (used : List CtxId) : Option CtxId :=
  let free (c : CoreId) : List (Fin 8) := (leaving s c).filter fun i => !used.contains ⟨c.die, c.core, i⟩
  let ok (c : CoreId) : Bool := (s.core c).scrub.isNone && couldTake s w c (free c ++ preemptible s w but c)
  let all := (coresFor s d w ok).flatMap fun c => (preemptible s w but c).map fun i => CtxId.mk c.die c.core i
  firstSome (fun n => all.find? fun v => (s.ctx v).b.prio.toNat == n) (List.range 4)
/-- The first head, of those that wait, which the contexts on their way to be free do not serve, and which has a victim; contexts that serve a head are kept for
it, the highest first (R92, R339). -/
def unserved (s : State) (d : Fin 4) (but : Option CtxId) : List Waiter → List CtxId → Option (Waiter × CtxId)
  | [], _ => none
  | w :: ws, used =>
    let served := firstSome (fun c =>
      (enough s w c ((leaving s c).filter fun i => !used.contains ⟨c.die, c.core, i⟩)).map fun l => l.map fun i => CtxId.mk c.die c.core i) (coresFor s d w fun _ => true)
    match served with
    | some l => unserved s d but ws (used ++ l)
    | none => match victimFor s d but w used with
      | some v => some (w, v)
      | none => unserved s d but ws used
/-- Post a pre-emption request for a head that waits and has a victim (R339, R364, log 21), whose core is kept for it (R92, log 58); the victim's frozen cycles count
from now on. -/
def postRequest (d : Fin 4) (but : Option CtxId) (s : State) : State :=
  match unserved s d but (headsWaiting s d) [] with
  | some (w, v) => (s.modCtx v fun x => { x with preempt := true, frozen := 0 }).modCore v.coreId fun k => { k with want := some (w.tenant, w.task) }
  | none => s
/-- The gangs of GANG frames that a die's dispatcher has still to reserve. -/
def frameGangs (s : State) (d : Fin 4) : List Team := s.teams.filter fun g => g.tick.isSome && !g.placed && g.recs.head?.any fun r => r.1 == d
/-- Try the gangs of GANG frames in order until one is placed: whether one has been, and the state. -/
def tryFrameGangs (l : List Team) (s : State) : Bool × State :=
  l.foldl (fun p g => if p.1 then p else
    let u := placeFrameGang g p.2
    (isPlaced u g, u)) (false, s)
/-- DISPATCH_CHOICE: once in a cycle, a die's dispatcher places a gang of a GANG frame that is still to be reserved, or else checks its heads, chooses and
places at most one task; it posts a pre-emption request for a head that waits (R363, R364, R339). -/
def dispatchChoice (s : State) : State :=
  let d := s.arg.die
  if (s.die d).chosen then s
  else
    let r := tryFrameGangs (frameGangs s d) (s.modDie d fun x => { x with chosen := true })
    if r.1 then r.2
    else
      let s := checkHeads d r.2
      postRequest d none ((firstSome (fun p => chooseAt d p s) [3, 2, 1, 0]).getD s)
/-- DISPATCH_CHOICE (R363). -/
def execDispatchChoice (s : State) : Host.Outcome State Fault Refusal := .next (dispatchChoice s)
/-- The dispatcher of a die has something to choose; a die whose receiver is not locked yet is given no task (R371). -/
def dispatcherBusy (s : State) (d : Fin 4) : Bool :=
  !(s.die d).chosen && (s.die d).ptbLocked && ((s.die d).queues.toList.any (fun q => !q.isEmpty) || !(frameGangs s d).isEmpty)
/-- PREEMPT_WITHDRAW: a victim frozen for 4,096 cycles has its request withdrawn, and another is chosen (R339). -/
def preemptWithdraw (s : State) : State :=
  let c : CtxId := ⟨s.arg.die, s.arg.core, s.arg.ctx⟩
  if (s.ctx c).preempt ∧ 4096 ≤ (s.ctx c).frozen then
    postRequest c.die (some c) ((s.modCtx c fun x => { x with preempt := false }).modCore c.coreId fun k => { k with want := if k.scrub.isSome then k.want else none })
  else s
/-- PREEMPT_WITHDRAW (R339). -/
def execPreemptWithdraw (s : State) : Host.Outcome State Fault Refusal := .next (preemptWithdraw s)
/-- A waiting member's start tick has come: its first bundle issues in this cycle of its core (R88). -/
def startDue (s : State) (c : CtxId) : Bool :=
  (s.ctx c).st == .waiting && (s.ctx c).b.start.any fun t => decide (t.toNat ≤ (s.die c.die).ptb.toNat)
/-- GANG_START: the PTB has reached the start tick of a waiting member (R88). -/
def gangStart (s : State) : State :=
  let c : CtxId := ⟨s.arg.die, s.arg.core, s.arg.ctx⟩
  if startDue s c then s.modCtx c fun x => { x with st := .ready, b := { x.b with start := none } } else s
/-- GANG_START (R88). -/
def execGangStart (s : State) : Host.Outcome State Fault Refusal := .next (gangStart s)

end Sys2Proof.Machine
end

