-- ==== Sys2Proof/Machine/Scalar.lean ====
section
/-! DEFINITION. Slots A and B (09 R147 to R151): integer, division, floating point, conversions, target and system registers. Each
instruction has its plan (what the slot reads and what it comes to) and its meaning, the plan run alone. -/

namespace Sys2Proof.Machine

/-- A truth value as 0 or 1. -/
def ofBool64 (b : Bool) : W64 := if b then 1 else 0
/-- High half of the signed product (Table 09.3). -/
def mulHighS (x y : W64) : W64 := BitVec.ofInt 64 (x.toInt * y.toInt / 2 ^ 64)
/-- Unsigned quotient; all ones for a zero divisor (R149). -/
def divU (x y : W64) : W64 := if y = 0 then BitVec.allOnes 64 else BitVec.ofNat 64 (x.toNat / y.toNat)
/-- Unsigned remainder; x for a zero divisor (R149). -/
def remU (x y : W64) : W64 := if y = 0 then x else BitVec.ofNat 64 (x.toNat % y.toNat)
/-- Signed quotient toward zero; −2^63 / −1 gives −2^63, a zero divisor gives all ones (R149). -/
def divS (x y : W64) : W64 := if y = 0 then BitVec.allOnes 64 else BitVec.ofInt 64 (x.toInt.tdiv y.toInt)
/-- Signed remainder with the sign of x; x for a zero divisor (R149). -/
def remS (x y : W64) : W64 := if y = 0 then x else BitVec.ofInt 64 (x.toInt.tmod y.toInt)
/-- The F32 operand in bits [31:0] (R150). -/
def f32In (x : W64) : FV := f32 (x.toNat % 2 ^ 32)
/-- An F32 result, zero-extended (R150). -/
def f32Out (v : FV) : W64 := BitVec.ofNat 64 (rF32 v)
/-- The value of a system register at the issue cycle (R151, R167); numbers 32 to 127 read 0 (R123). -/
def rdSysReg (s : State) (c : CtxId) (n : Nat) : W64 :=
  let x := s.ctx c
  let a := x.arch
  let d := s.die c.die
  match n with
  | 0 => BitVec.ofNat 64 c.ctx.val
  | 1 => BitVec.ofNat 64 ((s.core c.coreId).site.toNat * 256 + c.core.val)
  | 2 => BitVec.ofNat 64 (quadOf c.core)
  | 3 => BitVec.ofNat 64 c.die.val
  | 4 => BitVec.ofNat 64 (s.podX.toNat * 256 + dieX s c.die)
  | 5 => BitVec.ofNat 64 (s.podY.toNat * 256 + dieY s c.die)
  | 6 => BitVec.ofNat 64 (s.podZ.toNat * 256 + dieZ s c.die)
  | 7 => x.b.tenant.setWidth 64
  | 8 => (s.core c.coreId).cycle
  | 9 => d.ptb
  | 10 => d.tgen.setWidth 64
  | 11 => a.ctgen.setWidth 64
  | 12 => x.b.feat.setWidth 64
  | 13 => BitVec.ofNat 64 (4 * x.b.gran)
  | 14 => a.ckmode.setWidth 64
  | 15 => BitVec.ofNat 64 ((if a.trapvecValid then 2 ^ 32 else 0) + a.trapvecAddr.toNat)
  | 16 => BitVec.ofNat 64 ((if a.inh then 256 else 0) + a.cause.toNat)
  | 17 => a.trappc.setWidth 64
  | 18 => BitVec.ofNat 64 (a.depth.toNat * 256 + a.tslot.toNat * 32 + a.tleaf.toNat)
  | 19 => a.trapaddr
  | 20 => a.cgm
  | 21 => a.cseq.setWidth 64
  | 22 => x.b.task
  | 23 => x.b.save
  | 24 => a.exv.setWidth 64
  | 25 => a.scratch[0]
  | 26 => a.scratch[1]
  | 27 => a.scratch[2]
  | 28 => a.scratch[3]
  | 29 => a.scratch[4]
  | 30 => a.scratch[5]
  | 31 => a.scratch[6]
  | _ => 0
/-- Target registers t0 to t6; there is no seventh. -/
def Arch.rdT (a : Arch) (k : Nat) : W32 := a.t[(Fin.ofNat 7 k).val]

/-- Plan of NOP: A/B-slot no-operation. (R100) -/
def planNop : Plan := Plan.nop .a
/-- NOP (R100). -/
def execNop (s : State) : Host.Outcome State Fault Refusal := runPlan (planNop) s

/-- Plan of ADD: dst := x + y, wrapping modulo 2^64. (R148) -/
def planAdd (d : Code7) (x : Code7) (y : Code7) : Plan := plan2 1 d x y fun x y => x + y
/-- ADD (R148). -/
def execAdd (d : Code7) (x : Code7) (y : Code7) (s : State) : Host.Outcome State Fault Refusal := runPlan (planAdd d x y) s

/-- Plan of SUB: dst := x − y, wrapping. (R148) -/
def planSub (d : Code7) (x : Code7) (y : Code7) : Plan := plan2 1 d x y fun x y => x - y
/-- SUB (R148). -/
def execSub (d : Code7) (x : Code7) (y : Code7) (s : State) : Host.Outcome State Fault Refusal := runPlan (planSub d x y) s

/-- Plan of ADDW: dst := 32-bit sum sign-extended. (R148) -/
def planAddw (d : Code7) (x : Code7) (y : Code7) : Plan := plan2 1 d x y fun x y => sext64 (x + y).toNat 32
/-- ADDW (R148). -/
def execAddw (d : Code7) (x : Code7) (y : Code7) (s : State) : Host.Outcome State Fault Refusal := runPlan (planAddw d x y) s

/-- Plan of SUBW: dst := 32-bit difference sign-extended. (R148) -/
def planSubw (d : Code7) (x : Code7) (y : Code7) : Plan := plan2 1 d x y fun x y => sext64 (x - y).toNat 32
/-- SUBW (R148). -/
def execSubw (d : Code7) (x : Code7) (y : Code7) (s : State) : Host.Outcome State Fault Refusal := runPlan (planSubw d x y) s

/-- Plan of MUL: dst := low 64 bits of x·y. (R148) -/
def planMul (d : Code7) (x : Code7) (y : Code7) : Plan := plan2 3 d x y fun x y => x * y
/-- MUL (R148). -/
def execMul (d : Code7) (x : Code7) (y : Code7) (s : State) : Host.Outcome State Fault Refusal := runPlan (planMul d x y) s

/-- Plan of MULH: dst := high 64 bits of the signed 128-bit product. (R148) -/
def planMulh (d : Code7) (x : Code7) (y : Code7) : Plan := plan2 3 d x y fun x y => mulHighS x y
/-- MULH (R148). -/
def execMulh (d : Code7) (x : Code7) (y : Code7) (s : State) : Host.Outcome State Fault Refusal := runPlan (planMulh d x y) s

/-- Plan of MULHU: dst := high 64 bits of the unsigned 128-bit product. (R148) -/
def planMulhu (d : Code7) (x : Code7) (y : Code7) : Plan := plan2 3 d x y fun x y => BitVec.ofNat 64 (x.toNat * y.toNat / 2 ^ 64)
/-- MULHU (R148). -/
def execMulhu (d : Code7) (x : Code7) (y : Code7) (s : State) : Host.Outcome State Fault Refusal := runPlan (planMulhu d x y) s

/-- Plan of MULW: dst := 32-bit product sign-extended. (R148) -/
def planMulw (d : Code7) (x : Code7) (y : Code7) : Plan := plan2 3 d x y fun x y => sext64 (x * y).toNat 32
/-- MULW (R148). -/
def execMulw (d : Code7) (x : Code7) (y : Code7) (s : State) : Host.Outcome State Fault Refusal := runPlan (planMulw d x y) s

/-- Plan of DIV: Signed division toward zero, with defined results for zero and overflow. (R149) -/
def planDiv (d : Code7) (x : Code7) (y : Code7) : Plan := plan2 12 d x y fun x y => divS x y
/-- DIV (R149). -/
def execDiv (d : Code7) (x : Code7) (y : Code7) (s : State) : Host.Outcome State Fault Refusal := runPlan (planDiv d x y) s

/-- Plan of DIVU: Unsigned division. (R149) -/
def planDivu (d : Code7) (x : Code7) (y : Code7) : Plan := plan2 12 d x y fun x y => divU x y
/-- DIVU (R149). -/
def execDivu (d : Code7) (x : Code7) (y : Code7) (s : State) : Host.Outcome State Fault Refusal := runPlan (planDivu d x y) s

/-- Plan of REM: Signed remainder. (R149) -/
def planRem (d : Code7) (x : Code7) (y : Code7) : Plan := plan2 12 d x y fun x y => remS x y
/-- REM (R149). -/
def execRem (d : Code7) (x : Code7) (y : Code7) (s : State) : Host.Outcome State Fault Refusal := runPlan (planRem d x y) s

/-- Plan of REMU: Unsigned remainder. (R149) -/
def planRemu (d : Code7) (x : Code7) (y : Code7) : Plan := plan2 12 d x y fun x y => remU x y
/-- REMU (R149). -/
def execRemu (d : Code7) (x : Code7) (y : Code7) (s : State) : Host.Outcome State Fault Refusal := runPlan (planRemu d x y) s

/-- Plan of AND: Bitwise AND. (R148) -/
def planAnd (d : Code7) (x : Code7) (y : Code7) : Plan := plan2 1 d x y fun x y => x &&& y
/-- AND (R148). -/
def execAnd (d : Code7) (x : Code7) (y : Code7) (s : State) : Host.Outcome State Fault Refusal := runPlan (planAnd d x y) s

/-- Plan of OR: Bitwise OR. (R148) -/
def planOr (d : Code7) (x : Code7) (y : Code7) : Plan := plan2 1 d x y fun x y => x ||| y
/-- OR (R148). -/
def execOr (d : Code7) (x : Code7) (y : Code7) (s : State) : Host.Outcome State Fault Refusal := runPlan (planOr d x y) s

/-- Plan of XOR: Bitwise XOR. (R148) -/
def planXor (d : Code7) (x : Code7) (y : Code7) : Plan := plan2 1 d x y fun x y => x ^^^ y
/-- XOR (R148). -/
def execXor (d : Code7) (x : Code7) (y : Code7) (s : State) : Host.Outcome State Fault Refusal := runPlan (planXor d x y) s

/-- Plan of ANDN: dst := x AND NOT y. (R148) -/
def planAndn (d : Code7) (x : Code7) (y : Code7) : Plan := plan2 1 d x y fun x y => x &&& ~~~y
/-- ANDN (R148). -/
def execAndn (d : Code7) (x : Code7) (y : Code7) (s : State) : Host.Outcome State Fault Refusal := runPlan (planAndn d x y) s

/-- Plan of SHL: Shift left by y[5:0]. (R148) -/
def planShl (d : Code7) (x : Code7) (y : Code7) : Plan := plan2 1 d x y fun x y => x <<< (y.toNat % 64)
/-- SHL (R148). -/
def execShl (d : Code7) (x : Code7) (y : Code7) (s : State) : Host.Outcome State Fault Refusal := runPlan (planShl d x y) s

/-- Plan of SHR: Logical shift right by y[5:0]. (R148) -/
def planShr (d : Code7) (x : Code7) (y : Code7) : Plan := plan2 1 d x y fun x y => x >>> (y.toNat % 64)
/-- SHR (R148). -/
def execShr (d : Code7) (x : Code7) (y : Code7) (s : State) : Host.Outcome State Fault Refusal := runPlan (planShr d x y) s

/-- Plan of SAR: Arithmetic shift right by y[5:0]. (R148) -/
def planSar (d : Code7) (x : Code7) (y : Code7) : Plan := plan2 1 d x y fun x y => x.sshiftRight (y.toNat % 64)
/-- SAR (R148). -/
def execSar (d : Code7) (x : Code7) (y : Code7) (s : State) : Host.Outcome State Fault Refusal := runPlan (planSar d x y) s

/-- Plan of ROT: Rotate left by y[5:0]. (R148) -/
def planRot (d : Code7) (x : Code7) (y : Code7) : Plan := plan2 1 d x y fun x y => x.rotateLeft (y.toNat % 64)
/-- ROT (R148). -/
def execRot (d : Code7) (x : Code7) (y : Code7) (s : State) : Host.Outcome State Fault Refusal := runPlan (planRot d x y) s

/-- Plan of MIN: Signed minimum. (R148) -/
def planMin (d : Code7) (x : Code7) (y : Code7) : Plan := plan2 1 d x y fun x y => if x.slt y then x else y
/-- MIN (R148). -/
def execMin (d : Code7) (x : Code7) (y : Code7) (s : State) : Host.Outcome State Fault Refusal := runPlan (planMin d x y) s

/-- Plan of MAX: Signed maximum. (R148) -/
def planMax (d : Code7) (x : Code7) (y : Code7) : Plan := plan2 1 d x y fun x y => if x.slt y then y else x
/-- MAX (R148). -/
def execMax (d : Code7) (x : Code7) (y : Code7) (s : State) : Host.Outcome State Fault Refusal := runPlan (planMax d x y) s

/-- Plan of MINU: Unsigned minimum. (R148) -/
def planMinu (d : Code7) (x : Code7) (y : Code7) : Plan := plan2 1 d x y fun x y => if x.ult y then x else y
/-- MINU (R148). -/
def execMinu (d : Code7) (x : Code7) (y : Code7) (s : State) : Host.Outcome State Fault Refusal := runPlan (planMinu d x y) s

/-- Plan of MAXU: Unsigned maximum. (R148) -/
def planMaxu (d : Code7) (x : Code7) (y : Code7) : Plan := plan2 1 d x y fun x y => if x.ult y then y else x
/-- MAXU (R148). -/
def execMaxu (d : Code7) (x : Code7) (y : Code7) (s : State) : Host.Outcome State Fault Refusal := runPlan (planMaxu d x y) s

/-- Plan of CMP_EQ: dst := 1 if x equals y, else 0. (R148) -/
def planCmpEq (d : Code7) (x : Code7) (y : Code7) : Plan := plan2 1 d x y fun x y => ofBool64 (x == y)
/-- CMP_EQ (R148). -/
def execCmpEq (d : Code7) (x : Code7) (y : Code7) (s : State) : Host.Outcome State Fault Refusal := runPlan (planCmpEq d x y) s

/-- Plan of CMP_NE: dst := 1 if x differs from y. (R148) -/
def planCmpNe (d : Code7) (x : Code7) (y : Code7) : Plan := plan2 1 d x y fun x y => ofBool64 (x != y)
/-- CMP_NE (R148). -/
def execCmpNe (d : Code7) (x : Code7) (y : Code7) (s : State) : Host.Outcome State Fault Refusal := runPlan (planCmpNe d x y) s

/-- Plan of CMP_LT: dst := 1 if x < y signed. (R148) -/
def planCmpLt (d : Code7) (x : Code7) (y : Code7) : Plan := plan2 1 d x y fun x y => ofBool64 (x.slt y)
/-- CMP_LT (R148). -/
def execCmpLt (d : Code7) (x : Code7) (y : Code7) (s : State) : Host.Outcome State Fault Refusal := runPlan (planCmpLt d x y) s

/-- Plan of CMP_GE: dst := 1 if x ≥ y signed. (R148) -/
def planCmpGe (d : Code7) (x : Code7) (y : Code7) : Plan := plan2 1 d x y fun x y => ofBool64 (!x.slt y)
/-- CMP_GE (R148). -/
def execCmpGe (d : Code7) (x : Code7) (y : Code7) (s : State) : Host.Outcome State Fault Refusal := runPlan (planCmpGe d x y) s

/-- Plan of CMP_LTU: dst := 1 if x < y unsigned. (R148) -/
def planCmpLtu (d : Code7) (x : Code7) (y : Code7) : Plan := plan2 1 d x y fun x y => ofBool64 (x.ult y)
/-- CMP_LTU (R148). -/
def execCmpLtu (d : Code7) (x : Code7) (y : Code7) (s : State) : Host.Outcome State Fault Refusal := runPlan (planCmpLtu d x y) s

/-- Plan of CMP_GEU: dst := 1 if x ≥ y unsigned. (R148) -/
def planCmpGeu (d : Code7) (x : Code7) (y : Code7) : Plan := plan2 1 d x y fun x y => ofBool64 (!x.ult y)
/-- CMP_GEU (R148). -/
def execCmpGeu (d : Code7) (x : Code7) (y : Code7) (s : State) : Host.Outcome State Fault Refusal := runPlan (planCmpGeu d x y) s

/-- Plan of ADDI: dst := x + sign-extended imm7. (R148) -/
def planAddi (d : Code7) (x : Code7) (imm : BitVec 7) : Plan := plan1 1 d x fun x => x + sext64 imm.toNat 7
/-- ADDI (R148). -/
def execAddi (d : Code7) (x : Code7) (imm : BitVec 7) (s : State) : Host.Outcome State Fault Refusal := runPlan (planAddi d x imm) s

/-- Plan of ANDI: dst := x AND sign-extended imm7. (R148) -/
def planAndi (d : Code7) (x : Code7) (imm : BitVec 7) : Plan := plan1 1 d x fun x => x &&& sext64 imm.toNat 7
/-- ANDI (R148). -/
def execAndi (d : Code7) (x : Code7) (imm : BitVec 7) (s : State) : Host.Outcome State Fault Refusal := runPlan (planAndi d x imm) s

/-- Plan of SHLI: Shift left by an immediate 0–63. (R148) -/
def planShli (d : Code7) (x : Code7) (imm : BitVec 7) : Plan := plan1 1 d x fun x => x <<< (imm.toNat % 64)
/-- SHLI (R148). -/
def execShli (d : Code7) (x : Code7) (imm : BitVec 7) (s : State) : Host.Outcome State Fault Refusal := runPlan (planShli d x imm) s

/-- Plan of SHRI: Logical shift right by an immediate. (R148) -/
def planShri (d : Code7) (x : Code7) (imm : BitVec 7) : Plan := plan1 1 d x fun x => x >>> (imm.toNat % 64)
/-- SHRI (R148). -/
def execShri (d : Code7) (x : Code7) (imm : BitVec 7) (s : State) : Host.Outcome State Fault Refusal := runPlan (planShri d x imm) s

/-- Plan of SARI: Arithmetic shift right by an immediate. (R148) -/
def planSari (d : Code7) (x : Code7) (imm : BitVec 7) : Plan := plan1 1 d x fun x => x.sshiftRight (imm.toNat % 64)
/-- SARI (R148). -/
def execSari (d : Code7) (x : Code7) (imm : BitVec 7) (s : State) : Host.Outcome State Fault Refusal := runPlan (planSari d x imm) s

/-- Plan of LDI: dst := sign-extended imm14 shifted left by 14·n. (R148) -/
def planLdi (d : Code7) (hi : BitVec 7) (lo : BitVec 7) (n : BitVec 4) : Plan := ⟨.a, [], [], some d, false, fun sl c _ => .go (sendRes c (slotCode sl) 1 d (sext64 (hi ++ lo).toNat 14 <<< (14 * n.toNat)))⟩
/-- LDI (R148). -/
def execLdi (d : Code7) (hi : BitVec 7) (lo : BitVec 7) (n : BitVec 4) (s : State) : Host.Outcome State Fault Refusal := runPlan (planLdi d hi lo n) s

/-- Plan of LEA: dst := x + (y << n). (R148) -/
def planLea (d : Code7) (x : Code7) (y : Code7) (n : BitVec 4) : Plan := plan2 1 d x y fun x y => x + (y <<< n.toNat)
/-- LEA (R148). -/
def execLea (d : Code7) (x : Code7) (y : Code7) (n : BitVec 4) (s : State) : Host.Outcome State Fault Refusal := runPlan (planLea d x y n) s

/-- Plan of SEXT_B: Sign-extend the low 8 bits. (R148) -/
def planSextB (d : Code7) (x : Code7) : Plan := plan1 1 d x fun x => sext64 x.toNat 8
/-- SEXT_B (R148). -/
def execSextB (d : Code7) (x : Code7) (s : State) : Host.Outcome State Fault Refusal := runPlan (planSextB d x) s

/-- Plan of SEXT_H: Sign-extend the low 16 bits. (R148) -/
def planSextH (d : Code7) (x : Code7) : Plan := plan1 1 d x fun x => sext64 x.toNat 16
/-- SEXT_H (R148). -/
def execSextH (d : Code7) (x : Code7) (s : State) : Host.Outcome State Fault Refusal := runPlan (planSextH d x) s

/-- Plan of SEXT_W: Sign-extend the low 32 bits. (R148) -/
def planSextW (d : Code7) (x : Code7) : Plan := plan1 1 d x fun x => sext64 x.toNat 32
/-- SEXT_W (R148). -/
def execSextW (d : Code7) (x : Code7) (s : State) : Host.Outcome State Fault Refusal := runPlan (planSextW d x) s

/-- Plan of ZEXT_B: Zero-extend the low 8 bits. (R148) -/
def planZextB (d : Code7) (x : Code7) : Plan := plan1 1 d x fun x => zext64 x.toNat 8
/-- ZEXT_B (R148). -/
def execZextB (d : Code7) (x : Code7) (s : State) : Host.Outcome State Fault Refusal := runPlan (planZextB d x) s

/-- Plan of ZEXT_H: Zero-extend the low 16 bits. (R148) -/
def planZextH (d : Code7) (x : Code7) : Plan := plan1 1 d x fun x => zext64 x.toNat 16
/-- ZEXT_H (R148). -/
def execZextH (d : Code7) (x : Code7) (s : State) : Host.Outcome State Fault Refusal := runPlan (planZextH d x) s

/-- Plan of ZEXT_W: Zero-extend the low 32 bits. (R148) -/
def planZextW (d : Code7) (x : Code7) : Plan := plan1 1 d x fun x => zext64 x.toNat 32
/-- ZEXT_W (R148). -/
def execZextW (d : Code7) (x : Code7) (s : State) : Host.Outcome State Fault Refusal := runPlan (planZextW d x) s

/-- Plan of CLZ: Count leading zero bits. (R148) -/
def planClz (d : Code7) (x : Code7) : Plan := plan1 1 d x fun x => BitVec.ofNat 64 (clz64 x.toNat)
/-- CLZ (R148). -/
def execClz (d : Code7) (x : Code7) (s : State) : Host.Outcome State Fault Refusal := runPlan (planClz d x) s

/-- Plan of CTZ: Count trailing zero bits. (R148) -/
def planCtz (d : Code7) (x : Code7) : Plan := plan1 1 d x fun x => BitVec.ofNat 64 (ctz64 x.toNat)
/-- CTZ (R148). -/
def execCtz (d : Code7) (x : Code7) (s : State) : Host.Outcome State Fault Refusal := runPlan (planCtz d x) s

/-- Plan of POPC: Count set bits. (R148) -/
def planPopc (d : Code7) (x : Code7) : Plan := plan1 1 d x fun x => BitVec.ofNat 64 (popcount x.toNat 64)
/-- POPC (R148). -/
def execPopc (d : Code7) (x : Code7) (s : State) : Host.Outcome State Fault Refusal := runPlan (planPopc d x) s

/-- Plan of FADD: F32 addition rounded to nearest even. (R150) -/
def planFadd (d : Code7) (x : Code7) (y : Code7) : Plan := plan2 3 d x y fun x y => f32Out (FV.sum [f32In x, f32In y])
/-- FADD (R150). -/
def execFadd (d : Code7) (x : Code7) (y : Code7) (s : State) : Host.Outcome State Fault Refusal := runPlan (planFadd d x y) s

/-- Plan of FSUB: F32 subtraction. (R150) -/
def planFsub (d : Code7) (x : Code7) (y : Code7) : Plan := plan2 3 d x y fun x y => f32Out (FV.sum [f32In x, (f32In y).neg])
/-- FSUB (R150). -/
def execFsub (d : Code7) (x : Code7) (y : Code7) (s : State) : Host.Outcome State Fault Refusal := runPlan (planFsub d x y) s

/-- Plan of FMUL: F32 multiplication. (R150) -/
def planFmul (d : Code7) (x : Code7) (y : Code7) : Plan := plan2 3 d x y fun x y => f32Out ((f32In x).mul (f32In y))
/-- FMUL (R150). -/
def execFmul (d : Code7) (x : Code7) (y : Code7) (s : State) : Host.Outcome State Fault Refusal := runPlan (planFmul d x y) s

/-- Plan of FMIN: F32 minimum under R51. (R150) -/
def planFmin (d : Code7) (x : Code7) (y : Code7) : Plan := plan2 1 d x y fun x y => f32Out ((f32In x).min2 (f32In y))
/-- FMIN (R150). -/
def execFmin (d : Code7) (x : Code7) (y : Code7) (s : State) : Host.Outcome State Fault Refusal := runPlan (planFmin d x y) s

/-- Plan of FMAX: F32 maximum under R51. (R150) -/
def planFmax (d : Code7) (x : Code7) (y : Code7) : Plan := plan2 1 d x y fun x y => f32Out ((f32In x).max2 (f32In y))
/-- FMAX (R150). -/
def execFmax (d : Code7) (x : Code7) (y : Code7) (s : State) : Host.Outcome State Fault Refusal := runPlan (planFmax d x y) s

/-- Plan of FCMP_EQ: dst := 1 if the F32 operands are equal. (R150) -/
def planFcmpEq (d : Code7) (x : Code7) (y : Code7) : Plan := plan2 1 d x y fun x y => ofBool64 (FV.cmp (f32In x) (f32In y) == some .eq)
/-- FCMP_EQ (R150). -/
def execFcmpEq (d : Code7) (x : Code7) (y : Code7) (s : State) : Host.Outcome State Fault Refusal := runPlan (planFcmpEq d x y) s

/-- Plan of FCMP_LT: dst := 1 if x < y in F32. (R150) -/
def planFcmpLt (d : Code7) (x : Code7) (y : Code7) : Plan := plan2 1 d x y fun x y => ofBool64 (FV.cmp (f32In x) (f32In y) == some .lt)
/-- FCMP_LT (R150). -/
def execFcmpLt (d : Code7) (x : Code7) (y : Code7) (s : State) : Host.Outcome State Fault Refusal := runPlan (planFcmpLt d x y) s

/-- Plan of FCMP_LE: dst := 1 if x ≤ y in F32. (R150) -/
def planFcmpLe (d : Code7) (x : Code7) (y : Code7) : Plan := plan2 1 d x y fun x y => ofBool64 (FV.cmp (f32In x) (f32In y) == some .lt || FV.cmp (f32In x) (f32In y) == some .eq)
/-- FCMP_LE (R150). -/
def execFcmpLe (d : Code7) (x : Code7) (y : Code7) (s : State) : Host.Outcome State Fault Refusal := runPlan (planFcmpLe d x y) s

/-- Plan of FCMP_UN: dst := 1 if either F32 operand is NaN. (R150) -/
def planFcmpUn (d : Code7) (x : Code7) (y : Code7) : Plan := plan2 1 d x y fun x y => ofBool64 (FV.cmp (f32In x) (f32In y) == none)
/-- FCMP_UN (R150). -/
def execFcmpUn (d : Code7) (x : Code7) (y : Code7) (s : State) : Host.Outcome State Fault Refusal := runPlan (planFcmpUn d x y) s

/-- Plan of FCVT_F32_I32: Convert I32 to F32. (R150) -/
def planFcvtF32I32 (d : Code7) (x : Code7) : Plan := plan1 2 d x fun x => f32Out (FV.ofInt (sInt x.toNat 32))
/-- FCVT_F32_I32 (R150). -/
def execFcvtF32I32 (d : Code7) (x : Code7) (s : State) : Host.Outcome State Fault Refusal := runPlan (planFcvtF32I32 d x) s

/-- Plan of FCVT_I32_F32: Convert F32 to I32, nearest-even, saturated. (R150) -/
def planFcvtI32F32 (d : Code7) (x : Code7) : Plan := plan1 2 d x fun x => BitVec.ofInt 64 (satInt (f32In x).toIntRNE (-2147483648) 2147483647)
/-- FCVT_I32_F32 (R150). -/
def execFcvtI32F32 (d : Code7) (x : Code7) (s : State) : Host.Outcome State Fault Refusal := runPlan (planFcvtI32F32 d x) s

/-- Plan of FCVT_I32_F32_RZ: Convert F32 to I32 toward zero, saturated. (R150) -/
def planFcvtI32F32Rz (d : Code7) (x : Code7) : Plan := plan1 2 d x fun x => BitVec.ofInt 64 (satInt (f32In x).toIntRZ (-2147483648) 2147483647)
/-- FCVT_I32_F32_RZ (R150). -/
def execFcvtI32F32Rz (d : Code7) (x : Code7) (s : State) : Host.Outcome State Fault Refusal := runPlan (planFcvtI32F32Rz d x) s

/-- Plan of FCVT_BF16_F32: Narrow F32 to BF16. (R150) -/
def planFcvtBf16F32 (d : Code7) (x : Code7) : Plan := plan1 2 d x fun x => BitVec.ofNat 64 (FFmt.bf16.round (f32In x))
/-- FCVT_BF16_F32 (R150). -/
def execFcvtBf16F32 (d : Code7) (x : Code7) (s : State) : Host.Outcome State Fault Refusal := runPlan (planFcvtBf16F32 d x) s

/-- Plan of FCVT_F32_BF16: Widen BF16 to F32. (R150) -/
def planFcvtF32Bf16 (d : Code7) (x : Code7) : Plan := plan1 2 d x fun x => f32Out (FFmt.bf16.decode (x.toNat % 65536))
/-- FCVT_F32_BF16 (R150). -/
def execFcvtF32Bf16 (d : Code7) (x : Code7) (s : State) : Host.Outcome State Fault Refusal := runPlan (planFcvtF32Bf16 d x) s

/-- Plan of FCVT_F16_F32: Narrow F32 to F16. (R150) -/
def planFcvtF16F32 (d : Code7) (x : Code7) : Plan := plan1 2 d x fun x => BitVec.ofNat 64 (FFmt.f16.round (f32In x))
/-- FCVT_F16_F32 (R150). -/
def execFcvtF16F32 (d : Code7) (x : Code7) (s : State) : Host.Outcome State Fault Refusal := runPlan (planFcvtF16F32 d x) s

/-- Plan of FCVT_F32_F16: Widen F16 to F32. (R150) -/
def planFcvtF32F16 (d : Code7) (x : Code7) : Plan := plan1 2 d x fun x => f32Out (FFmt.f16.decode (x.toNat % 65536))
/-- FCVT_F32_F16 (R150). -/
def execFcvtF32F16 (d : Code7) (x : Code7) (s : State) : Host.Outcome State Fault Refusal := runPlan (planFcvtF32F16 d x) s

/-- Plan of FCVT_F32_I64: Convert I64 to F32. (R150) -/
def planFcvtF32I64 (d : Code7) (x : Code7) : Plan := plan1 2 d x fun x => f32Out (FV.ofInt (sInt x.toNat 64))
/-- FCVT_F32_I64 (R150). -/
def execFcvtF32I64 (d : Code7) (x : Code7) (s : State) : Host.Outcome State Fault Refusal := runPlan (planFcvtF32I64 d x) s

/-- Plan of FDIV: F32 division, correctly rounded. (R150) -/
def planFdiv (d : Code7) (x : Code7) (y : Code7) : Plan := plan2 14 d x y fun x y => f32Out ((f32In x).div (f32In y))
/-- FDIV (R150). -/
def execFdiv (d : Code7) (x : Code7) (y : Code7) (s : State) : Host.Outcome State Fault Refusal := runPlan (planFdiv d x y) s

/-- Plan of FSQRT: F32 square root, correctly rounded. (R150) -/
def planFsqrt (d : Code7) (x : Code7) : Plan := plan1 14 d x fun x => f32Out (f32In x).sqrt
/-- FSQRT (R150). -/
def execFsqrt (d : Code7) (x : Code7) (s : State) : Host.Outcome State Fault Refusal := runPlan (planFsqrt d x) s

/-- Plan of SETT: Writes target register tk from x[31:0]. (R151) -/
def planSett (k : BitVec 4) (x : Code7) : Plan := ⟨.a, [(1, x)], [], none, false, fun sl c s => .go (sendQuiet c (slotCode sl) 1 (.target (Fin.ofNat 7 k.toNat) ((readOp s c x).setWidth 32)))⟩
/-- SETT (R151). -/
def execSett (k : BitVec 4) (x : Code7) (s : State) : Host.Outcome State Fault Refusal := runPlan (planSett k x) s

/-- Plan of RDT: Reads target register tk into dst. (R151) -/
def planRdt (d : Code7) (k : BitVec 4) : Plan := ⟨.a, [], [], some d, false, fun sl c s => .go (sendRes c (slotCode sl) 1 d (((s.arch c).rdT k.toNat).setWidth 64))⟩
/-- RDT (R151). -/
def execRdt (d : Code7) (k : BitVec 4) (s : State) : Host.Outcome State Fault Refusal := runPlan (planRdt d k) s

/-- Plan of RDSYS: Reads a system register into dst. (R151) -/
def planRdsys (d : Code7) (n : BitVec 7) : Plan := ⟨.a, [], [], some d, false, fun sl c s => .go (sendRes c (slotCode sl) 2 d (rdSysReg s c n.toNat))⟩
/-- RDSYS (R151). -/
def execRdsys (d : Code7) (n : BitVec 7) (s : State) : Host.Outcome State Fault Refusal := runPlan (planRdsys d n) s

/-- Plan of WRSYS: Writes a system register, effective two cycles later; writes to unwritable registers have no effect. (R151) -/
def planWrsys (n : BitVec 7) (x : Code7) : Plan := ⟨.a, [(1, x)], [], none, false, fun sl c s => .go (sendQuiet c (slotCode sl) 2 (.sys n.toNat (readOp s c x)))⟩
/-- WRSYS (R151). -/
def execWrsys (n : BitVec 7) (x : Code7) (s : State) : Host.Outcome State Fault Refusal := runPlan (planWrsys n x) s

/-- Plan of MOV: dst := x. (R148) -/
def planMov (d : Code7) (x : Code7) : Plan := plan1 1 d x fun x => x
/-- MOV (R148). -/
def execMov (d : Code7) (x : Code7) (s : State) : Host.Outcome State Fault Refusal := runPlan (planMov d x) s

end Sys2Proof.Machine
end

