-- ==== Sys2Proof/Machine/Preempt.lean ====
section
/-! DEFINITION. The pre-emption save and the restore (21 R340 to R347; 23 R361; 25 R384, R390; 15 R274). The saved task is held whole in State;
its save area in memory is written by Table 21.4, with free bytes where the table gives no bit layout (log 16). -/

namespace Sys2Proof.Machine

/-! ## The save area (Table 21.4) -/

/-- A run of bytes of the save area: given bytes, or bytes whose layout the spec leaves open. -/
inductive Area where
  | bytes (l : List Byte)
  | free (n : Nat)
/-- The little-endian bytes of words of a matrix register or bank. -/
def wordBytes (m : Cells 32) (lo n : Nat) : List Byte := (rdCells m lo n).flatMap fun w => toBytes 4 w.toNat
/-- The banks of a bound tile, visible bank first. -/
def tileArea (t : Tile) : List Byte :=
  let n := tileBanks t.rows t.cols false * 512
  let bank (m : Cells 32) : List Byte :=
    let l := ((List.range t.rows).flatMap fun r => rdCells m (r * 256) t.cols).flatMap fun w => toBytes 4 w.toNat
    l ++ List.replicate (4 * n - l.length) 0
  if t.dual then (if t.vis then bank t.bank1 ++ bank t.bank0 else bank t.bank0 ++ bank t.bank1) else bank t.bank0
/-- The areas of Table 21.4 in order, from offset 0. -/
def saveAreas (s : State) (c : CtxId) : List Area :=
  let x := s.ctx c
  let a := x.arch
  let z (n : Nat) : Area := .bytes (List.replicate n 0)
  let n4 (v : Nat) : List Byte := toBytes 4 v
  let pend := (s.accesses.filter fun q => q.uid == x.b.uid && q.dst.isSome).length
  let bound := (x.z.toList.filter Option.isSome).length
  let sys (n : Nat) : List Byte := toBytes 8 (rdSysReg s c n).toNat
  [.bytes (n4 0x56535845 ++ n4 (1 + x.flights.length % 256 * 2 ^ 8 + pend * 2 ^ 16 + bound * 2 ^ 24) ++
      toBytes 8 x.b.snap.toNat ++ n4 (c.die.val * 256 + c.core.val * 16 + c.ctx.val) ++
      n4 (x.b.firstBuf + x.b.nBuf * 256)), z 40,
   .bytes (n4 a.pc.toNat ++ n4 x.stall ++ n4 a.loops.length), z 20, .free 192, z 32,
   .bytes (a.t.toList.flatMap fun t => n4 t.toNat), z 4,
   .bytes ([14, 15, 16, 17, 18, 19, 20, 21, 11, 25, 26, 27, 28, 29, 30, 31, 24].flatMap sys), .free 8, z 16,
   .bytes ((List.range 64).flatMap fun i => toBytes 8 (a.rdS i).toNat),
   .bytes (a.hem.toList.flatMap fun v => toBytes 8 v.toNat), .free 512,
   .bytes (x.d.toList.flatMap fun v => toBytes 32 v.toNat), .free 256, .free 256,
   .bytes (a.latch.toList.flatMap fun v => toBytes 128 v.toNat), .bytes (a.tscale.toList.flatMap fun v => n4 v.toNat)
  ] ++ x.y.toList.flatMap (fun y => [.bytes ((chainBytes y).take 25), .free 7, .bytes ((chainBytes y).drop 32)]) ++ [
   .free 128, .free 1024,
   .bytes ((List.range 96).map fun i => if x.b.firstBuf ≤ i then (x.admSaved.getD []).getD (i - x.b.firstBuf) 0 else 0), .free 5136, .free 256,
   .bytes (wordBytes x.mreg 0 (1024 * (4 * x.b.gran))),
   .bytes (x.z.toList.flatMap fun t => match t with
     | some t => tileArea t
     | none => [])]
/-- Bytes of an area, free ones drawn from a counter. -/
def areaBytes (n : Nat) : Area → List Byte
  | .bytes l => l
  | .free k => (List.range k).map fun i => Config.freeByte (n + i)
/-- The bytes of the save area. -/
def saveBytes (s : State) (c : CtxId) : List Byte :=
  ((saveAreas s c).foldl (fun p a => (p.1 ++ areaBytes p.2 a, p.2 + 8192)) (([] : List Byte), s.draws)).1

/-! ## The save (R340 to R343) -/

/-- A save begins: the context is SAVING, and the pod time base is noted (R340, R342). -/
def beginSave (c : CtxId) (s : State) : State :=
  s.modCtx c fun x => { x with st := .saving, preempt := false, b := { x.b with snap := (s.die c.die).ptb } }
/-- Results that land on the saving core in real time: VCMP flags and VZWR rows (R278). -/
def landsWhileSaving (f : Flight) : Bool :=
  match f.act with
  | .flags _ _ => true
  | .acc _ _ _ => true
  | _ => false
/-- Steps 1 and 2 of R341 are complete: the context's commands, and its earlier writes, atomics, object updates and remote operations (R384). -/
def saveSettled (s : State) (c : CtxId) : Bool :=
  let x := s.ctx c
  !(s.core c.coreId).cmds.any (fun q => q.ctx == c.ctx) && !relBusy s c 5 &&
  !s.rops.any (fun r => r.owner == c && r.uid == x.b.uid && r.kind != .lbsend) && !x.flights.any landsWhileSaving
/-- Steps 3 and 4 of R341 begin: the task's channels stop at a row boundary, and its windows start no new row. -/
def quiesceEngines (c : CtxId) (s : State) : State :=
  (s.modCtx c fun x => { x with quiesce := true }).modCore c.coreId fun k =>
    { k with chans := k.chans.map fun h => if h.busy && h.owner == c then { h with stop := true } else h }
/-- Steps 1 to 4 of R341 are complete. -/
def saveReady (s : State) (c : CtxId) : Bool :=
  let k := s.core c.coreId
  (s.ctx c).quiesce && saveSettled s c &&
  k.chans.toList.all (fun h => !(h.busy && h.owner == c) || h.rows.isEmpty) &&
  k.wins.toList.all fun w => !(w.opn && w.opener == c) || w.rows.isEmpty
/-- Step 5 of R341: the admissions of the task's buffers are recorded, then closed. -/
def closeAdmissions (c : CtxId) (s : State) : State :=
  let b := (s.ctx c).b
  let k := s.core c.coreId
  (s.modCtx c fun x => { x with admSaved := some ((List.range b.nBuf).map fun i => (k.adm[b.firstBuf + i]?).getD 0) }).modCore c.coreId fun k =>
    { k with adm := .ofFn fun (i : Fin 96) => if b.firstBuf ≤ i.val ∧ i.val < b.firstBuf + b.nBuf then 0 else k.adm[i.val] }
/-- Deliveries of another core into a task's buffers that were accepted before step 5 have still to complete (R240); those of a channel that has stopped at a row
boundary are not waited for. -/
def acceptedTo (s : State) (k : CoreId) (b : Binding) : Bool :=
  let meets (g : CoreId) (e : BitVec 256) (r : Nat) : Bool := bits e.toNat 112 2 == 0 && (entryCores g e).contains k &&
    (List.range b.nBuf).any fun i => touches (entryDst e r) (entryLen e + 128) (b.firstBuf + i)
  allCores.any fun g => g != k && (s.core g).chans.toList.any fun h => h.rows.any (fun r => !r.done && meets g r.img r.r) ||
    (!h.stop && h.cur.any fun x => (List.range (bits x.2.1.toNat 192 16)).any fun i => decide (x.2.2 ≤ i) && meets g x.2.1 i)
/-- What the pages of the save area come to (R342): all writable, one missing, or one that cannot be written. -/
inductive SavePages where
  | ok
  | missing (va : W64)
  | bad
  deriving DecidableEq, Repr
/-- Look up every page of n bytes from a VA. -/
def savePages (s : State) (c : CtxId) (va n : Nat) : SavePages :=
  let t := (s.ctx c).b.tenant
  (List.range (n / 2 ^ 16 + 2)).foldr (fun i acc =>
    let a := if i = 0 then va else va / 2 ^ 16 * 2 ^ 16 + i * 2 ^ 16
    if a ≥ va + n then acc
    else if a ≥ 2 ^ 48 then .bad
    else match translate s c.coreId t (BitVec.ofNat 64 a) with
      | none => if acc = .bad then .bad else .missing (BitVec.ofNat 64 a)
      | some e => if pteW e then acc else .bad) .ok
/-- The saved task (R341 steps 3 to 7). -/
def savedTask (s : State) (c : CtxId) : Saved :=
  let x := s.ctx c
  let k := s.core c.coreId
  let b := x.b
  { die := c.die, core := c.core
    ctx := { x with att := .none, frozen := 0, skip := false, miss := none, unres := [], preempt := false, quiesce := false, admSaved := none }
    bufs := sliceCells k.store (b.firstBuf * 0x10000) ((b.firstBuf + b.nBuf) * 0x10000)
    adm := x.admSaved.getD []
    chans := (List.finRange 2).filterMap fun i =>
      let h := k.chans[i.val]
      if h.uid == b.uid then some (i, { h with stop := false }) else none
    wins := (List.finRange 8).filterMap fun i =>
      let w := k.wins[i.val]
      if w.opn && w.opener == c then some (i, w) else none
    lbs := (List.finRange 16).filter fun i => ((s.die c.die).lbs[i.val]).holder == some c
    replies := [] }
/-- The core and die give up what the saved task held: channels and windows are free; its link buffers
are held by the saved task (R341, R390). -/
def freeSaved (c : CtxId) (v : Saved) (s : State) : State :=
  (s.modCore c.coreId fun k =>
    { k with
      chans := .ofFn fun (i : Fin 2) => if v.chans.any (·.1 == i) then { (k.chans[i.val]).freed with owner := CtxId.zero, uid := 0 } else k.chans[i.val]
      wins := .ofFn fun (i : Fin 8) => if v.wins.any (·.1 == i) then .free else k.wins[i.val] }).modDie c.die fun d =>
    { d with lbs := d.lbs.map fun l => if l.holder = some c then { l with holder := none } else l }
/-- The save fails: the task ends with KIND 10 (R342). -/
def failSave (c : CtxId) (s : State) : State :=
  (failTask c (faultWord 10 0x11 0 0 0) 0 s).modCtx c fun x => { x with st := .ready, quiesce := false, admSaved := none }
/-- The die in whose queue a saved task waits: its own, or, where that die is about to lose a feature that the task needs, the lowest-numbered of its
affinity that provides FEATREQ; none where no die does (R338, R361). -/
def savedDie (s : State) (d : Fin 4) (b : Binding) : Option (Fin 4) :=
  if hasFeat s d b.hdr then some d else (affDies b.aff.toNat).find? fun e => hasFeat s e b.hdr
/-- Write the bytes of a save area from the n-th on through the tenant's page tables, piece by piece, as a save does (R342, R331): whether all are written,
and the state; none where a piece cannot be written. A piece in a host window is an MWRITE, whose answer comes first (R203, R204). -/
def writeFrom (c : CtxId) (t : BitVec 4) (va : Nat) (l : List Byte) : Nat → Nat → State → Option (Bool × State)
  | 0, _, s => some (true, s)
  | f + 1, n, s =>
    if l.length ≤ n then some (true, s)
    else match pieceAt s c.coreId t (va + n) (l.length - n) true false with
      | .mem d v m =>
        writeFrom c t va l f (n + m) (touchPage c.coreId t (va + n) d true ((List.range m).map fun i => reach s v (d + i)) (dpaStore v d ((l.drop n).take m) s))
      | .host o m =>
        some (false, (hostSend t (.text c) true o ((l.drop n).take m) m 1 (usePage c.coreId t (va + n) (2 * 2 ^ 40 + o) s)).modCtx c fun x =>
          { x with att := .text (l.take n) true })
      | .miss _ => none
      | .err _ => none
/-- The save area is written: the task waits in its queue as SAVED, and its context is scrubbed (R341, R361). -/
def saveDone (c : CtxId) (d : Fin 4) (s : State) : State :=
  let b := (s.ctx c).b
  let v := savedTask s c
  let s := freeSaved c v s
  let s := setSt c.coreId b.tenant b.task 5 { s with saved := s.saved ++ [v] }
  let s := qPut d b.tenant b.prio.toNat true b.task s
  powerArrays c.coreId (s.setCtx c { Ctx.scrubbed .scrub (s.die c.die).tgen with b := { Binding.none with gran := b.gran }, scrubLeft := 64 })
/-- PREEMPTION_SAVE: the save of a SAVING context completes (R341, R342, R361): the save area is written, the task waits in its queue as
SAVED, and the context is scrubbed. First, steps 1 and 2 being complete, its engines stop; then, steps 3 and 4 being complete, its admissions close. -/
def preemptionSave (s : State) : State :=
  let c : CtxId := ⟨s.arg.die, s.arg.core, s.arg.ctx⟩
  let x := s.ctx c
  let b := x.b
  if x.st ≠ .saving then s
  else if !x.quiesce then (if saveSettled s c then quiesceEngines c s else s)
  else if x.admSaved.isNone then (if saveReady s c then closeAdmissions c s else s)
  else if !saveReady s c || acceptedTo s c.coreId b then s
  else match savedDie s c.die b with
  | none => (failTask c (faultWord 7 0x12 0 0 0) 0 s).modCtx c fun x => { x with st := .ready, quiesce := false, admSaved := none }
  | some d =>
    let l := saveBytes s c
    match x.att, savePages s c b.save.toNat l.length with
    | .text _ true, _ => s
    | .failed _, _ => failSave c s
    | _, .bad => failSave c (walkPages c.coreId b.tenant b.save.toNat l.length s)
    | _, .missing va => reportFault c.die ⟨b.tenant, va, .write, .save c⟩ s
    | a, .ok =>
      if !qRoom (s.die d) (qIdx b.tenant b.prio.toNat) then s
      else match writeFrom c b.tenant b.save.toNat l l.length a.got.length { s with draws := s.draws + 8192 * 32 } with
        | none => failSave c s
        | some (false, u) => u
        | some (true, u) => saveDone c d u
/-- PREEMPTION_SAVE (R341). -/
def execPreemptionSave (s : State) : Host.Outcome State Fault Refusal := .next (preemptionSave s)

/-! ## The restore (R344 to R347) -/

/-- The saved task that a WAITING context stands for. -/
def restoring (s : State) (c : CtxId) : Option Saved :=
  let x := s.ctx c
  if x.st = .waiting then s.saved.find? fun v => v.ctx.b.uid == x.b.uid else none
/-- The link buffers that a saved task holds become the buffers of its context (R390). -/
def heldBy (c : CtxId) (v : Saved) (s : State) : State :=
  s.modDie c.die fun d =>
    { d with lbs := .ofFn fun (i : Fin 16) =>
        if v.lbs.contains i then { d.lbs[i.val] with holder := some c } else d.lbs[i.val] }
/-- RESTORE: the saved task is loaded into its context and may issue (R344 to R346): buffers, admissions, channels, windows and link
buffers return, and the replies that came meanwhile write their registers. -/
def restore (s : State) : State :=
  let c : CtxId := ⟨s.arg.die, s.arg.core, s.arg.ctx⟩
  match restoring s c with
  | none => s
  | some v =>
    let b := v.ctx.b
    let lo := b.firstBuf * 0x10000
    let x := { v.ctx with
      st := if b.start.isSome then .waiting else .ready
      held := true
      arch := v.replies.foldl (fun a r => a.wrPhys r.1 r.2) v.ctx.arch
      b := { b with prio := (s.ctx c).b.prio, feat := (s.ctx c).b.feat } }
    let s := { s with saved := s.saved.filter fun w => w.ctx.b.uid != b.uid }
    let s := s.setCtx c x
    let s := s.modCore c.coreId fun k =>
      { k with
        store := v.bufs.foldl (fun m p => wrCell m p.1 p.2) (clearCells k.store lo (lo + b.nBuf * 0x10000))
        adm := .ofFn fun (i : Fin 96) =>
          if b.firstBuf ≤ i.val ∧ i.val < b.firstBuf + b.nBuf then (v.adm[i.val - b.firstBuf]?).getD 0 else k.adm[i.val]
        chans := .ofFn fun (i : Fin 2) => match v.chans.find? (·.1 == i) with
          | some h => { h.2 with owner := c }
          | none => k.chans[i.val]
        wins := .ofFn fun (i : Fin 8) => match v.wins.find? (·.1 == i) with
          | some w => { w.2 with opener := c }
          | none => k.wins[i.val] }
    heldBy c v s
/-- RESTORE (R344). -/
def execRestore (s : State) : Host.Outcome State Fault Refusal := .next (restore s)

end Sys2Proof.Machine
end

