-- ==== Sys2Proof/Machine/Remote.lean ====
section
/-! DEFINITION. The fabric (25 R371, R378 to R392; 11 R202): the pod time base, remote operations, link buffers, refusals and
retries. -/

namespace Sys2Proof.Machine

/-! ## The pod time base (R371) -/

/-- The time master: the die with the lowest identifier among the locked dies of this package and those of others that time messages have named as master; with none
locked the lowest-numbered die here. -/
def ptbMaster (s : State) : BitVec 12 :=
  let l := ((List.finRange 4).filter fun d => (s.die d).ptbLocked).map (dieId s) ++ s.ptbAfar.toList
  l.foldl (fun b i => if i.toNat < b.toNat then i else b) (l.headD (dieId s 0))
/-- Steps between coordinates of a ring. -/
def ringDist (n a b : Nat) : Nat := min ((b + n - a) % n) ((a + n - b) % n)
/-- Steps from an identifier's die to the master in the pod's torus. -/
def ptbSteps (s : State) (i : BitVec 12) : Nat :=
  let m := ptbMaster s
  ringDist (s.podX.toNat + 1) (idX i) (idX m) + ringDist (s.podY.toNat + 1) (idY i) (idY m) + ringDist (s.podZ.toNat + 1) (idZ i) (idZ m)
/-- The lesser of two distances, if any. -/
def least (a b : Option Nat) : Option Nat :=
  match a, b with
  | some x, some y => some (min x y)
  | some x, none => some x
  | none, y => y
/-- Steps from a die to the master over links in service, looking at so many links; none where no path is left. A path that leaves the package goes to a
die nearer the master. -/
def ptbDist (s : State) : Nat → Fin 4 → Option Nat
  | n, d =>
    if dieId s d = ptbMaster s then some 0
    else match n with
      | 0 => none
      | n + 1 => (List.finRange 6).foldl (fun b l =>
          let x := linkOf s d l
          if !x.up then b
          else match x.out with
            | some o => if ptbSteps s o.1 < ptbSteps s (dieId s d) then least b (some (ptbSteps s o.1 + 1)) else b
            | none => if x.farDie = d then b else least b ((ptbDist s n x.farDie).map (· + 1))) none
/-- A link of a die that is in service and leads nearer to the master. -/
def ptbNearer (s : State) (d : Fin 4) (l : Fin 6) : Bool :=
  let x := linkOf s d l
  x.up && (match x.out with
    | some o => decide (ptbSteps s o.1 < ptbSteps s (dieId s d))
    | none => match ptbDist s 4 x.farDie, ptbDist s 4 d with
      | some a, some b => decide (a < b)
      | _, _ => false)
/-- The parent that a die locks to: its neighbour one step nearer the master as R368 routes, else another neighbour in service nearer the master. -/
def ptbChoice (s : State) (d : Fin 4) : Option (Fin 6) :=
  (torusHop s d (ptbMaster s) :: List.finRange 6).find? (ptbNearer s d)
/-- The 10 µs period of a die's count. -/
def ptbPeriod (x : Die) : Nat := x.ptb.toNat / 10000
/-- The time message of a die for the far end of a link: its count and its master, and for a die of this package the receiver's count when the message is due. -/
def timeFlit (s : State) (d : Fin 4) (l : Fin 6) : Flit :=
  let x := linkOf s d l
  let dest := match x.out with
    | some o => o.1
    | none => dieId s x.farDie
  ⟨.time, 0, dieId s d, dest, .access 0, if x.out.isSome then 0 else (s.die x.farDie).ptb.toNat + x.delay, toBytes 8 (s.die d).ptb.toNat ++ toBytes 2 (ptbMaster s).toNat, 0, false⟩
/-- The far end of a link of a die follows that die's time. -/
def ptbFollows (s : State) (d : Fin 4) (l : Fin 6) : Bool :=
  let x := linkOf s d l
  match x.out with
  | some o => x.up && idHop s o.1 (ptbMaster s) == o.2 && decide (o.1 ≠ ptbMaster s)
  | none => x.farDie != d && (s.die x.farDie).ptbParent == some x.farLink
/-- PTB_TIME_MESSAGE: once in every 10 µs a die sends its count to every neighbour that follows it, on VC0. -/
def ptbTimeMessage (s : State) : State :=
  let d := s.arg.die
  let x := s.die d
  if x.ptbSent = ptbPeriod x then s
  else forEach (List.finRange 6) (fun l s =>
    if x.ptbLocked && !x.ptbLost && ptbFollows s d l then pushFlit d l (timeFlit s d l) s else s)
    (s.modDie d fun x => { x with ptbSent := ptbPeriod x })
/-- PTB_TIME_MESSAGE (R371). -/
def execPtbTimeMessage (s : State) : Host.Outcome State Fault Refusal := .next (ptbTimeMessage s)
/-- PTB_MESSAGE_RECEIVE: a die that was not locked takes its parent's count; one that had lost its path steps forward, or slows down until it is
within 2 ticks, and then clears PTBLOST; a locked one follows by changing its rate. The count never decreases. -/
def ptbMessageReceive (s : State) : State :=
  s.modDie s.arg.die fun x => match x.ptbMsg with
    | none => x
    | some t =>
      let x := { x with ptbMsg := none }
      let late : Int := (t.toNat : Int) - x.ptb.toNat
      if !x.ptbLocked then { x with ptb := if 0 ≤ late then t else x.ptb, ptbSlew := min late 0, ptbLocked := true, ptbLost := false }
      else if x.ptbLost then
        (if 0 ≤ late then { x with ptb := t, ptbSlew := 0, ptbLost := false } else { x with ptbSlew := late, ptbLost := decide (late < -2) })
      else { x with ptbSlew := late }
/-- PTB_MESSAGE_RECEIVE (R371). -/
def execPtbMessageReceive (s : State) : Host.Outcome State Fault Refusal := .next (ptbMessageReceive s)
/-- PTB_PARENT_LOSS: a die whose parent no longer leads to the master takes another neighbour nearer the master; a die with no path to the master
free-runs with PTBLOST. -/
def ptbParentLoss (s : State) : State :=
  let d := s.arg.die
  let x := s.die d
  if dieId s d = ptbMaster s ∨ x.ptbParent.any (ptbNearer s d) then s
  else s.setDie d { x with ptbParent := (ptbChoice s d).orElse fun _ => x.ptbParent
                           ptbLost := x.ptbLost || (ptbDist s 4 d).isNone
                           ptbSlew := 0 }
/-- PTB_PARENT_LOSS (R371). -/
def execPtbParentLoss (s : State) : Host.Outcome State Fault Refusal := .next (ptbParentLoss s)

/-! ## Remote operations (R378 to R383) -/

/-- A malformed descriptor (R379 step 3). -/
def ropBad (s : State) (k : RopKind) (d : BitVec 256) : Bool :=
  bits d.toNat 188 4 != 0 || decide (1 < ropRK d) || (ropLK d && decide (2 ^ 48 ≤ ropL d)) ||
  (ropRK d == 1 && decide (2 ^ 48 ≤ ropR d)) || (k != .put && ropRflag d != 0) || !dieExists s (ropDie d) ||
  (if k = .ramo then
    bits (ropLen d) 4 3 != 0 || bits (ropLen d) 8 12 != 0 || decide (9 < ropLen d % 16) || (ropLen d % 16 == 9 && ropSize d == 8)
   else ropLen d == 0 || ropOpnd d != 0)
/-- The sends compare CTGEN with the die's TGEN (R379 step 1, R392). -/
def staleTopo (s : State) (c : CtxId) : Option Err :=
  if (s.arch c).ctgen = (s.die c.die).tgen then none else some ⟨0x04, (s.die c.die).tgen.setWidth 64⟩
/-- The scope of a remote target: the same die, the package, or the pod (Table 15.1). -/
def ropScope (c : CtxId) : Option (Fin 4) → Nat
  | some d => if d = c.die then 3 else 4
  | none => 5
/-- PUT, GET and RAMO (R378, R379). -/
def ropOut (k : RopKind) (x : W64) (c : CtxId) (s : State) : SlotOut :=
  match staleTopo s c with
  | some e => .trap e
  | none =>
    let a : W64 := BitVec.ofNat 64 (alignDown x.toNat 32)
    let d : BitVec 256 := BitVec.ofNat 256 (rdLE (s.core c.coreId).store a.toNat 32)
    let dest := dieOfId s (ropDie d)
    csLoad s c a 32 <|
      if ropBad s k d then .trap ⟨0x06, x⟩
      else match (if ropLK d then none else csCheckRun (s.core c.coreId) (ropL d) (ropBytes k d)) with
        | some e => .trap e
        | none =>
          if 32 ≤ (s.rops.filter fun r => r.owner == c && r.uid == (s.ctx c).b.uid && r.kind != .lbsend).length then .freeze id
          else .go fun t =>
            let f := t.fresh
            { f.2 with rops := f.2.rops ++ [
              { id := f.1, owner := c, uid := (s.ctx c).b.uid, tenant := (s.ctx c).b.tenant, kind := k, desc := d, src := c.die,
                dest := dest.getD c.die, away := if dest.isSome then none else some (ropDie d), origin := none, scope := ropScope c dest, lb := 0, lbTo := 0,
                len := ropBytes k d, need := List.range (ropBytes k d), left := sinkOffs k (ropBytes k d), data := [], stage := 0, old := 0, cells := [], err := none, refusals := 0,
                hold := false }] }
/-- An operation is ordered after earlier accesses of its task to the same locations: it begins behind those of both its sides, and reads and writes on its
local side behind those there (R260, R383). -/
def ropBlocked (s : State) (r : Rop) : Bool := earlierAt s r.owner r.uid r.id ((if r.moved = 0 then r.remoteCells s else []) ++ r.localCells s)
/-- A fault report of the operation is open. -/
def ropFaulted (s : State) (id : Nat) : Bool := s.dies.toList.any fun d => d.faults.any fun f => f.agent == .remote id
/-- The tag of an operation's flits: that of the die of another package, for an operation of it (Table 25.2). -/
def Rop.tag (r : Rop) : Req :=
  match r.origin with
  | some o => .away o.1 o.2
  | none => if r.kind = .lbsend then .lbSend r.id else .remote r.id
/-- The die that sent an operation. -/
def Rop.sender (r : Rop) (s : State) : BitVec 12 :=
  match r.origin with
  | some o => o.1
  | none => dieId s r.src
/-- A flit of an operation, toward its target or back (Table 25.2). -/
def ropFlit (s : State) (r : Rop) (k : FlitKind) (vc : Nat) (off : Nat) (bs : List Byte) : Flit :=
  let a := r.sender s
  let b := r.away.getD (dieId s r.dest)
  ⟨k, vc, if k.isRequest then a else b, if k.isRequest then b else a, r.tag, off, bs, 0, false⟩
/-- The target has answered: an operation of another package is served, one of this package waits for its answer. -/
def ropServed (r : Rop) (f : Rop → Rop) (s : State) : State := if r.origin.isSome then dropRop r.id s else modRop r.id f s
/-- The target answers an operation with an error (R380). -/
def ropFail (r : Rop) (cause : Byte) (s : State) : State :=
  routeFlit r.dest (ropFlit s r .failed 1 0 [cause])
    (ropServed r (fun q => { q with err := some ⟨cause, r.desc.extractLsb' 64 64⟩, stage := 3, data := [] }) s)
/-- The target refuses an operation: one of another package by a reply (R202, R377). -/
def ropRefuse (r : Rop) (s : State) : State :=
  if r.origin.isSome then routeFlit r.dest (ropFlit s r .refuse 1 0 []) (dropRop r.id s) else ropRefused r.id s
/-- An operation ends with an error at its own side. -/
def ropLocalErr (r : Rop) (e : Err) (s : State) : State := modRop r.id (fun q => { q with err := some e, stage := 4, data := [] }) s
/-- What a request to another package says first: the tenant, then the descriptor (log 18). -/
def ropHead (r : Rop) : List Byte := toBytes 1 r.tenant.toNat ++ toBytes 32 r.desc.toNat
/-- An operation has been refused, or has ended so. -/
def ropHeld (s : State) (r : Rop) : Bool := !s.rops.any fun q => q.id == r.id && !q.hold && q.err.isNone
/-- Hand bytes of a PUT to the fabric (R381); to another package its descriptor goes first. -/
def putChunk (r : Rop) (o : Nat) (bs : List Byte) (s : State) : State :=
  let s := if r.away.isSome ∧ r.moved = 0 then routeFlit r.src (ropFlit s r .putReq 3 0 (ropHead r)) s else s
  if ropHeld s r then s
  else
    let n := outside o bs.length r.need
    routeFlit r.src (ropFlit s r .putData 3 o bs) (modRop r.id (fun q => { q with need := n, stage := if n = [] then 1 else 0 }) s)
/-- Hand bytes that a GET has read to the fabric. -/
def getChunk (r : Rop) (o : Nat) (bs : List Byte) (s : State) : State :=
  let n := outside o bs.length r.need
  routeFlit r.dest (ropFlit s r .getData 1 o bs) (if n = [] then ropServed r (fun q => { q with need := n, stage := 3 }) s
    else modRop r.id (fun q => { q with need := n }) s)
/-- The bytes of a run that the event picks among offsets still to do, at most as many as a flit carries. -/
def pickChunk (s : State) (l : List Nat) : Nat × Nat :=
  let p := pickRun l s.arg.va.toNat s.arg.val.toNat false
  (p.1, min p.2 chunkMax)
/-- An operation uses bytes of its run at a VA, by an engine of a core: it performs there, waits for a page or for a link that trains, follows its page,
fails, is refused where the way to the page's die is out of service, or asks the host (R201, R203, R334, R375, R377). -/
def ropAt (r : Rop) (k : CoreId) (va o n : Nat) (kind : FaultKind) (words : Bool) (bs : Nat → Nat → List Byte) (fail : Err → State → State)
    (go : PageReq → State → State) (s : State) : State :=
  let step := pageReq s k r.tenant va r.len o n (kind == .write) words
  let s := walkPages k r.tenant (va + o) (if words then n else 1) s
  match step with
  | .req p =>
    if p.stale s then refreshRoute k.die p.dpa s
    else (match (if p.home s = k.die then WayState.carries else reaches s (dpaVault p.dpa) (p.home s) 4 k.die) with
      | .carries => if engineQueues s (p.home s) (kind == .write) p.cells then s else go p (noteUse k.die (kind == .write) p.cells (cacheRoute k.die (.dpa p.dpa) s))
      | .waits => s
      | .refuses => ropRefuse r s)
  | .miss v => reportFault k.die ⟨r.tenant, v, kind, .remote r.id⟩ s
  | .err e => fail e s
  | .host f m => hostSend r.tenant (.remote r.id) (kind == .write) f (bs o m) m 1 s o
/-- A local error names LADDR (Table 25.5). -/
def ropLocalFail (r : Rop) (e : Err) (s : State) : State := ropLocalErr r ⟨e.cause, BitVec.ofNat 64 (ropL r.desc)⟩ s
/-- Send a GET's or RAMO's request; it waits at its target. -/
def ropRequest (r : Rop) (k : FlitKind) (cells : List Nat) (s : State) : State :=
  routeFlit r.src (ropFlit s r k 2 0 (ropHead r)) (modRop r.id (fun q => { q with stage := 1, cells := cells }) s)
/-- How many bytes at most an event moves, of those that may move. -/
def upTo (s : State) (n : Nat) : Nat := if s.arg.val = 0 then n else min n s.arg.val.toNat
/-- The sending side goes on: the next bytes of a PUT, or the request of a GET or RAMO. The place of a RAMO's result is checked and translated before its
request is sent, so that an error leaves the target unchanged (R382); a result in a host window is ATOMICPATH, and nothing is sent (R203; DEDUCED, log 53). -/
def ropSend (r : Rop) (s : State) : State :=
  if r.stage ≠ 0 ∨ r.origin.isSome ∨ r.hold ∨ r.err.isSome ∨ ropFaulted s r.id ∨ hostOut s (.remote r.id) ∨ ropBlocked s r then s
  else match r.kind with
    | .put =>
      let p := pickChunk s r.need
      if !ropLK r.desc then putChunk r p.1 (rdCells (s.core r.owner.coreId).store (ropL r.desc + p.1) p.2) s
      else ropAt r r.owner.coreId (ropL r.desc) p.1 p.2 .read false (fun _ _ => []) (ropLocalFail r)
        (fun p s => putChunk r p.off (p.cells.map (dpaRead s)) s) s
    | .get => ropRequest r .getReq [] s
    | .ramo =>
      let k := r.owner.coreId
      if !ropLK r.desc then ropRequest r .ramoReq [] s
      else
        let run := runCells s k r.tenant false 8 (ropL r.desc) 8
        let s := walkPages k r.tenant (ropL r.desc) 8 s
        match run with
        | .ok cells => ropRequest r .ramoReq cells s
        | .error (.miss v) => reportFault r.src ⟨r.tenant, v, .write, .remote r.id⟩ s
        | .error (.err e) => ropLocalFail r e s
        | .error _ => ropLocalFail r ⟨0x07, 0⟩ s
    | .lbsend => s
/-- The target core of kind 0 belongs to the tenant and every byte lies in a buffer in HOME (R380). -/
def ropCoreOk (s : State) (r : Rop) : Bool :=
  let k := s.core ⟨r.dest, ropCore r.desc⟩
  k.tenant == some r.tenant && (csCheckRun k (ropAddr r.kind r.desc) r.len).isNone
/-- Bytes of a PUT have performed at the target; after the last one the flag and the acknowledgement follow (R381). -/
def putDone (id o n : Nat) (s : State) : State :=
  let s := modRop id (fun q => { q with left := outside o n q.left, data := q.data.filter fun p => decide (p.1 < o) || decide (o + n ≤ p.1) }) s
  match s.rops.find? (fun r => r.id == id) with
  | some r =>
    if r.left = [] then
      routeFlit r.dest (ropFlit s r .putAck 1 0 [])
        (ropServed r (fun q => { q with stage := 3 }) (incFlag ⟨r.dest, ropCore r.desc⟩ (ropRflag r.desc) s))
    else s
  | none => s
/-- The bytes of an operation that wait, in a run of them. -/
def Rop.bytes (r : Rop) (o n : Nat) : List Byte := (r.data.filter fun p => decide (o ≤ p.1) && decide (p.1 < o + n)).map Prod.snd
/-- All the bytes of a request wait: an element of a view region is written whole (R254). -/
def Rop.hasBytes (r : Rop) (q : PageReq) : Bool := (r.bytes q.off q.n).length == q.n
/-- The target side of an operation goes on; the event picks the bytes (R254, R380, R381). -/
def ropTarget (r : Rop) (s : State) : State :=
  let k : CoreId := ⟨r.dest, ropCore r.desc⟩
  let w : CoreId := ⟨r.dest, 0⟩
  let a := ropAddr r.kind r.desc
  if r.away.isSome ∨ r.hold ∨ r.err.isSome ∨ ropFaulted s r.id ∨ hostOut s (.remote r.id) ∨ earlierAt s r.owner r.uid r.id (r.remoteCells s) then s
  else if r.stage = 5 then ropRefuse r s
  else match r.kind with
    | .put =>
      let p := pickRun (r.data.map Prod.fst) s.arg.va.toNat s.arg.val.toNat false
      let bs := r.bytes p.1 p.2
      if r.data = [] ∨ r.stage = 3 then s
      else if (s.core k).tenant ≠ some r.tenant then ropFail r 0x11 s
      else if ropRK r.desc = 0 then
        (if ropCoreOk s r then putDone r.id p.1 bs.length (csWrite k (a + p.1) bs s) else ropFail r 0x11 s)
      else ropAt r w a p.1 p.2 .write false r.bytes (fun _ => ropFail r 0x11)
        (fun q s => if r.hasBytes q then putDone r.id q.off q.n (storeCells q.cells (r.bytes q.off q.n) s) else s) s
    | .get =>
      if r.stage ≠ 2 then s
      else
        let p := pickChunk s r.need
        if ropRK r.desc = 0 then (if ropCoreOk s r then getChunk r p.1 (rdCells (s.core k).store (a + p.1) p.2) s else ropFail r 0x11 s)
        else ropAt r w a p.1 p.2 .read false (fun _ _ => []) (fun _ => ropFail r 0x11) (fun q s => getChunk r q.off (q.cells.map (dpaRead s)) s) s
    | .ramo =>
      if r.stage ≠ 2 then s
      else
        let n := ropSize r.desc
        let fin (old : Nat) (s : State) : State :=
          routeFlit r.dest (ropFlit s r .ramoRes 1 0 (toBytes 8 old)) (ropServed r (fun q => { q with stage := 3, old := BitVec.ofNat 64 old }) s)
        let upd (old : Nat) : List Byte := toBytes n (amoOp (ropLen r.desc % 16) n old (ropOpnd r.desc))
        if ropRK r.desc = 0 then
          (if ropCoreOk s r then
            let old := rdLE (s.core k).store a n
            fin old (csWrite k a (upd old) s)
          else ropFail r 0x11 s)
        else ropAt r w a 0 n .write true r.bytes (fun e => ropFail r e.cause) (fun q s =>
          let old := ofBytes (q.cells.map (dpaRead s))
          if oneElement s q.dpa n then fin old (storeCells q.cells (upd old) s) else ropFail r 0x11 s) s
    | .lbsend => s
/-- REMOTE_REQUEST: the operation that the event names goes on: with `ok` at its target, else at its sending engine; `va` and `val` pick the bytes (R380,
R381). -/
def remoteRequest (s : State) : State :=
  match s.rops.find? (fun r => r.id == s.arg.id) with
  | none => s
  | some r => if s.arg.ok then ropTarget r s else ropSend r s
/-- REMOTE_REQUEST (R380). -/
def execRemoteRequest (s : State) : Host.Outcome State Fault Refusal := .next (remoteRequest s)
/-- The task that issued an operation is still bound to its context. -/
def ropOwned (s : State) (r : Rop) : Bool := (s.ctx r.owner).b.uid == r.uid && (s.ctx r.owner).st.bound
/-- An operation is complete: the local flag, if named (R381). -/
def ropEnd (r : Rop) (s : State) : State :=
  let s := dropRop r.id s
  if ropOwned s r && ropLfv r.desc then incFlag r.owner.coreId (ropLflag r.desc) s else s
/-- An operation's error reaches its task: raised at the next bundle (Table 25.5). -/
def ropRaise (r : Rop) (e : Err) (s : State) : State := lateTo r.owner r.uid e 5 (dropRop r.id s)
/-- PUT_ACK: the acknowledgement or the error of a PUT reaches the sender (R381, R382). -/
def putAck (s : State) : State :=
  match s.rops.find? (fun r => r.id == s.arg.id && r.kind == .put && r.stage == 4) with
  | none => s
  | some r => match r.err with
    | some e => ropRaise r e s
    | none => ropEnd r s
/-- PUT_ACK (R381). -/
def execPutAck (s : State) : Host.Outcome State Fault Refusal := .next (putAck s)
/-- Bytes `o` to `o + n − 1` of an operation's local side are written: as `fin` says of the bytes written, unless they wait or fail. -/
def localWrite (r : Rop) (o n : Nat) (bs : Nat → Nat → List Byte) (fin : Nat → Nat → State → State) (s : State) : State :=
  let a := ropL r.desc
  if !ropOwned s r then fin o n s
  else if !ropLK r.desc then fin o n (csWrite r.owner.coreId (a + o) ((bs o n).take (csSize - (a + o))) s)
  else ropAt r r.owner.coreId a o n .write false bs (ropLocalFail r)
    (fun p s => if (bs p.off p.n).length = p.n then fin p.off p.n (storeCells p.cells (bs p.off p.n) s) else s) s
/-- Bytes of a GET have been written locally; the last ones end it. -/
def getDone (id o n : Nat) (s : State) : State :=
  match s.rops.find? (fun r => r.id == id) with
  | none => s
  | some r =>
    let r' := { r with left := outside o n r.left, data := r.data.filter fun p => decide (p.1 < o) || decide (o + n ≤ p.1) }
    if r'.left = [] then ropEnd r' s else modRop r.id (fun _ => r') s
/-- GET_DATA: bytes that have arrived are written locally; the event picks them (R254, R381). -/
def getData (s : State) : State :=
  match s.rops.find? (fun r => r.id == s.arg.id && r.kind == .get) with
  | none => s
  | some r =>
    match r.err with
    | some e => if r.stage = 4 then ropRaise r e s else s
    | none =>
      if r.data = [] ∨ r.origin.isSome ∨ ropFaulted s r.id ∨ hostOut s (.remote r.id) ∨ earlierAt s r.owner r.uid r.id (r.localCells s) then s
      else
        let p := pickRun (r.data.map Prod.fst) s.arg.va.toNat s.arg.val.toNat false
        localWrite r p.1 p.2 r.bytes (getDone r.id) s
/-- GET_DATA (R381). -/
def execGetData (s : State) : Host.Outcome State Fault Refusal := .next (getData s)
/-- RAMO_RESULT: the old value of a RAMO is written at LADDR, as 8 bytes; the event picks which of them, in a view region by words (R254, R381). -/
def ramoResult (s : State) : State :=
  match s.rops.find? (fun r => r.id == s.arg.id && r.kind == .ramo && r.stage == 4) with
  | none => s
  | some r =>
    match r.err with
    | some e => ropRaise r e s
    | none =>
      if !ropOwned s r then ropEnd r s
      else if earlierAt s r.owner r.uid r.id (r.localCells s) then s
      else
        let p := pickRun r.left s.arg.va.toNat s.arg.val.toNat (r.cells.any fun a => (regionOf s a).isSome)
        let bs := ((toBytes 8 r.old.toNat).drop p.1).take p.2
        let cells := (r.cells.drop p.1).take p.2
        getDone r.id p.1 p.2 (if ropLK r.desc then storeCells cells bs (noteWrite r.owner.die cells s)
          else csWrite r.owner.coreId (ropL r.desc + p.1) (bs.take (csSize - (ropL r.desc + p.1))) s)
/-- RAMO_RESULT (R381). -/
def execRamoResult (s : State) : Host.Outcome State Fault Refusal := .next (ramoResult s)

/-! ## Link buffers (R385 to R390) -/

/-- Change a link buffer. -/
def modLb (d : Fin 4) (n : Fin 16) (f : LinkBuf → LinkBuf) (s : State) : State :=
  s.modDie d fun x => { x with lbs := x.lbs.set n.val (f x.lbs[n.val]) }
/-- A link buffer of the context's die. -/
def lbOf (s : State) (c : CtxId) (n : Fin 16) : LinkBuf := (s.die c.die).lbs[n.val]
/-- LBOPEN (R387): the object is named in core-store form; the buffer is scrubbed when its holder changes tenant. -/
def lbopenOut (n : Fin 16) (x : W64) (c : CtxId) (s : State) : SlotOut :=
  let t := (s.ctx c).b.tenant
  if (lbOf s c n).st ≠ .closed then .wait none
  else match (if x = 0 then Except.ok (none : Option Nat) else if x.getLsbD 63 then .error ⟨0x11, x⟩ else
      match objResolve s c x with
      | .ok (.store a) => .ok (some a)
      | .ok (.far _ _ _ _) => .error ⟨0x11, x⟩
      | .error e => .error e) with
    | .error e => .trap e
    | .ok o => .go (modLb c.die n fun l =>
        { l with st := .empty, holder := some c, tenant := t, bytes := if l.tenant = t then l.bytes else [], obj := o, err := none,
                 sending := none, closeAfter := false, emptyAfter := false })
/-- LBSEND (R388). -/
def lbsendOut (n : Fin 16) (lk : Fin 6) (m : Fin 16) (x : W64) (c : CtxId) (s : State) : SlotOut :=
  let len := (lo32 x).toNat
  let l := lbOf s c n
  match staleTopo s c with
  | some e => .trap e
  | none =>
    if l.holder ≠ some c then .trap ⟨0x05, BitVec.ofNat 64 n.val⟩
    else if len = 0 ∨ len > 65536 then .trap ⟨0x06, BitVec.ofNat 64 len⟩
    else if l.sending.isSome then .wait none
    else match l.err with
      | some e => .trap e (modLb c.die n fun l => { l with err := none })
      | none => .go fun t =>
        let f := t.fresh
        modLb c.die n (fun l => { l with sending := some f.1 })
          { f.2 with rops := f.2.rops ++ [
            { id := f.1, owner := c, uid := (s.ctx c).b.uid, tenant := (s.ctx c).b.tenant, kind := .lbsend,
              desc := BitVec.ofNat 256 lk.val, src := c.die, dest := (linkOf s c.die lk).farDie, away := (linkOf s c.die lk).out.map Prod.fst, origin := none,
              scope := 4, lb := n, lbTo := m, len := len, need := List.range len, left := List.range len, data := [], stage := 0, old := 0, cells := [], err := none,
              refusals := 0, hold := false }] }
/-- A command of the die's tables, or a copy entry in progress, uses a link buffer (R389). -/
def lbUsed (s : State) (d : Fin 4) (n : Fin 16) : Bool :=
  (s.die d).cores.toList.any fun k =>
    k.cmds.any (fun q => [q.imgA, q.imgB, q.imgM, q.imgSA, q.imgSB].any fun i => tdLB i && tdLBN i == n.val) ||
    k.chans.toList.any fun h => h.opens.any fun o => entryNamesLb o.2.1 n
/-- LBFREE and LBFREE_CLOSE (R389). -/
def lbfreeOut (close : Bool) (n : Fin 16) (c : CtxId) (s : State) : SlotOut :=
  let l := lbOf s c n
  if l.holder ≠ some c then .trap ⟨0x05, BitVec.ofNat 64 n.val⟩
  else if l.sending.isSome || lbUsed s c.die n then .wait none
  else match l.err with
    | some e => .trap e (modLb c.die n fun l => { l with err := none })
    | none => .go (modLb c.die n fun l =>
        if close then l.close else if l.st = .filling then { l with emptyAfter := true } else { l with st := .empty })
/-- A message may not be admitted: its buffer is CLOSED, or held by another tenant (R388). -/
def lbRefuses (s : State) (r : Rop) : Bool :=
  let l := (s.die r.dest).lbs[r.lbTo.val]
  r.kind == .lbsend && r.away.isNone && !r.hold && r.stage != 5 && r.arrived == 0 && r.data != [] && (l.st == .closed || l.tenant != r.tenant)
/-- No earlier message waits for the same buffer. -/
def lbFirst (s : State) (r : Rop) : Bool :=
  match s.rops.find? (fun q => q.kind == .lbsend && q.away.isNone && q.dest == r.dest && q.lbTo == r.lbTo && q.data != [] && !q.hold) with
  | some q => q.id == r.id
  | none => false
/-- Bytes of a message are written into its buffer and counted into the counting object; the last byte completes it (R388, R389). -/
def lbWrite (r : Rop) (n : Nat) (s : State) : State :=
  let bs := (r.data.take n).map Prod.snd
  let l := (s.die r.dest).lbs[r.lbTo.val]
  let s := modLb r.dest r.lbTo (fun l => { l with st := .filling, bytes := wrCells l.bytes r.arrived bs }) s
  let s := match l.obj, l.holder with
    | some a, some h => barDeliver h.coreId a bs.length s
    | _, _ => s
  if r.arrived + bs.length < r.len then modRop r.id (fun q => { q with left := q.left.drop bs.length, data := q.data.drop n }) s
  else
    let s := modLb r.dest r.lbTo (fun l =>
      if l.closeAfter then { l with st := .full }.close
      else if l.emptyAfter then { l with st := .empty, emptyAfter := false } else { l with st := .full }) s
    if r.origin.isSome then routeFlit r.dest (ropFlit s r .putAck 1 0 []) (dropRop r.id s)
    else dropRop r.id (modLb r.src r.lb (fun l => { l with sending := none }) s)
/-- The bytes of a link buffer that the router sends, each 16-byte chunk of an arriving copy whole old or whole new (R388). -/
def lbBytes (r : Rop) (n : Nat) (s : State) : List Byte :=
  rdCells (wholeChunks (arrivingLb s r.src r.lb) ((s.die r.src).lbs[r.lb.val]).bytes) r.moved n
/-- The holder of a link buffer is saved, so that the buffer keeps its state and contents (R390). -/
def lbSaved (s : State) (d : Fin 4) (n : Fin 16) : Bool := s.saved.any fun v => v.die == d && v.lbs.contains n
/-- LB_MESSAGE: a link-buffer message goes on: with `ok` at its destination buffer, which admits it when EMPTY and held, in order of arrival; else the
router sends its next bytes over the named link. `val` says how many bytes at most (R388, R390). -/
def lbMessage (s : State) : State :=
  match s.rops.find? (fun r => r.id == s.arg.id && r.kind == .lbsend && !r.hold) with
  | none => s
  | some r =>
    if s.arg.ok then
      let l := (s.die r.dest).lbs[r.lbTo.val]
      let n := upTo s r.data.length
      if r.stage = 5 then ropRefuse r s
      else if r.data = [] ∨ r.away.isSome ∨ l.tenant ≠ r.tenant ∨ lbSaved s r.dest r.lbTo then s
      else if r.arrived = 0 then (if l.st = .empty ∧ l.holder.isSome ∧ lbFirst s r then lbWrite r n s else s)
      else lbWrite r n s
    else if r.moved = r.len ∨ r.origin.isSome then s
    else
      let n := upTo s (min chunkMax (r.len - r.moved))
      let b := lbBytes r n s
      let k : Fin 6 := Fin.ofNat 6 r.desc.toNat
      let s := if r.away.isSome ∧ r.moved = 0 then
          pushFlit r.src k (ropFlit s r .lbReq 3 0 ([r.tenant.setWidth 8, BitVec.ofNat 8 r.lbTo.val] ++ toBytes 4 r.len)) s else s
      if ropHeld s r then s
      else pushFlit r.src k (ropFlit s r .lbData 3 r.moved b) (modRop r.id (fun q => { q with need := q.need.drop n }) s)
/-- LB_MESSAGE (R388). -/
def execLbMessage (s : State) : Host.Outcome State Fault Refusal := .next (lbMessage s)

/-! ## Refusals and retries (R202) -/

/-- An access that its memory controller or vault may refuse: at its target, none of it performed, not to a peer or a host window. -/
def canRefuse (s : State) (a : Access) : Bool :=
  accessGoes a && !mustTravel s a && a.left.length == (accessParts s a.op a.loc a.size).length && (match a.loc with
    | .dpa d => decide (dpaSpace d ≤ 1)
    | .peer _ _ => false)
/-- A request of a row is at its target. -/
def hopAtTarget (h : Hop) : Bool := h == .start || h == .home
/-- REFUSAL: the target refuses the request that the event names; it is held for the hint's time, and the sixteenth refusal ends it
(R202). -/
def refusal (s : State) : State :=
  let ok : Bool := match s.arg.req with
    | .access id => s.accesses.any fun a => a.id == id && canRefuse s a
    | .remote id => s.rops.any fun r => r.id == id && r.kind != .lbsend && r.away.isNone && !r.hold && r.err.isNone && !hostOut s (.remote id) &&
        (r.kind != .get && r.data != [] || r.stage == 2)
    | .lbSend id => s.rops.any fun r => r.id == id && lbRefuses s r
    | .row k ch n => !hostOut s (.row k ch n) && ((s.core k).chans[ch.val]).rows.any fun r =>
        r.k == n && !r.done && !r.hold && rowAtPage r && hopAtTarget r.hop
    | .winRow k w n => !hostOut s (.winRow k w n) && ((s.core k).wins[w.val]).rows.any fun r =>
        r.id == n && !r.done && !r.hold && winRowAtPage ((s.core k).wins[w.val]).desc r && hopAtTarget r.hop
    | .frame i => !hostOut s (.frame i) && s.runs.any fun r => r.id == i && !r.left.isEmpty && !r.hold && hopAtTarget r.hop
    | .coll _ _ | .plan _ | .text _ | .header _ _ _ | .away _ _ | .mapHdr _ _ => false
  if !ok then s
  else match s.arg.req, s.rops.find? fun r => r.has s.arg.req with
    | .remote _, some r => ropRefuse r s
    | .lbSend _, some r => ropRefuse r s
    | q, _ => refuseReq q s
/-- REFUSAL (R202). -/
def execRefusal (s : State) : Host.Outcome State Fault Refusal := .next (refusal s)
/-- REFUSAL_RETRY: the retry-after time has run out, and the engine sends the request again (R202). -/
def refusalRetry (s : State) : State :=
  match s.arg.req with
  | .access id => modAccess id (fun a => { a with hold := false }) s
  | .remote id => modRop id (fun r => { r with hold := false }) s
  | .lbSend id => modRop id (fun r => { r with hold := false }) s
  | .row k ch n => modRow k ch n (fun r => { r with hold := false }) s
  | .winRow k w n => modWRow k w n (fun r => { r with hold := false }) s
  | .frame i => modRun i (fun r => { r with hold := false }) s
  | .coll _ _ | .plan _ | .text _ | .header _ _ _ | .away _ _ | .mapHdr _ _ => s
/-- REFUSAL_RETRY (R202). -/
def execRefusalRetry (s : State) : Host.Outcome State Fault Refusal := .next (refusalRetry s)

/-! ## Host-window answers (R204) -/

/-- A host-window request is answered: the access, operation, row or text that made it goes on. -/
def hostAnswer (q : HostReq) (data : List Byte) (s : State) : State :=
  let s := { s with hostReqs := s.hostReqs.filter fun r => r.seq != q.seq || r.tenant != q.tenant }
  match q.req with
  | .access id => (match s.accesses.find? (fun a => a.id == id) with
    | none => s
    | some a => performed a (if q.write then 0 else BitVec.ofNat 64 (ofBytes data)) s)
  | .remote id => (match s.rops.find? (fun r => r.id == id) with
    | none => s
    | some r => match r.kind, q.write with
      | .put, true => putDone id q.place q.len s
      | .put, false => putChunk r q.place data s
      | .get, false => getChunk r q.place data s
      | .get, true => getDone id q.place q.len s
      | .ramo, _ => s
      | .lbsend, _ => s)
  | .row _ _ _ | .winRow _ _ _ | .frame _ => rowMoved q.req data s
  | .header d t r => s.modDie d fun x => { x with heads := x.heads.map fun h =>
      if h.tenant = t ∧ h.rec' = r then { h with got := h.got ++ data, out := false } else h }
  | .mapHdr t va => { s with mapHdrs := s.mapHdrs.map fun h => if h.tenant = t ∧ h.rec' = va then { h with got := h.got ++ data, out := false } else h }
  | .lbSend _ | .coll _ _ | .plan _ | .away _ _ => s
  | .text c => s.modCtx c fun x => match x.att with
    | .text l true => { x with att := .text (l ++ (if q.write then q.data else data)) false }
    | _ => x
/-- A host-window request ends as REFUSED after sixteen attempts (R204). -/
def hostRefused (q : HostReq) (s : State) : State :=
  let s := { s with hostReqs := s.hostReqs.filter fun r => r.seq != q.seq || r.tenant != q.tenant }
  match q.req with
  | .access id => (match s.accesses.find? (fun a => a.id == id) with
    | none => s
    | some a => failAccess a ⟨0x0E, a.va⟩ s)
  | .remote id => (match s.rops.find? (fun r => r.id == id) with
    | none => s
    | some r => if r.origin.isSome then ropFail r 0x0E s
      else modRop id (fun q => { q with err := some ⟨0x0E, r.desc.extractLsb' 64 64⟩, stage := 4, data := [] }) s)
  | .row k ch n => (match ((s.core k).chans[ch.val]).rows.find? (fun r => r.k == n) with
    | none => s
    | some r => chanStop k ch ⟨0x0E, rowVa r⟩ s)
  | .winRow k w n => (match ((s.core k).wins[w.val]).rows.find? (fun r => r.id == n) with
    | none => s
    | some r => winStop k w ⟨0x0E, winRowReqVa ((s.core k).wins[w.val]).desc r⟩ s)
  | .header d t r => s.modDie d fun x => { x with heads := x.heads.map fun h =>
      if h.tenant = t ∧ h.rec' = r then { h with out := false, bad := true } else h }
  | .mapHdr t va => { s with mapHdrs := s.mapHdrs.map fun h => if h.tenant = t ∧ h.rec' = va then { h with out := false, bad := true } else h }
  | .frame i => refuseRun i s
  | .lbSend _ | .coll _ _ | .plan _ | .away _ _ => s
  | .text c => s.modCtx c fun x => match x.att with
    | .text _ true => { x with att := .failed ⟨0x0E, 0⟩ }
    | _ => x
/-- HOST_ACCESS_TIMEOUT: a request unanswered for 1 ms is sent again with a new SEQ; the sixteenth attempt without an answer ends it as REFUSED
(R204). -/
def hostAccessTimeout (s : State) : State :=
  match s.hostReqs.find? (fun q => q.seq.toNat == s.arg.id && q.tenant == s.arg.tenant) with
  | none => s
  | some q =>
    if (s.die 0).ptb - q.since < 1000000 then s
    else if 16 ≤ q.tries then hostRefused q s
    else hostSend q.tenant q.req q.write q.off q.data q.len (q.tries + 1)
      { s with hostReqs := s.hostReqs.filter fun r => r.seq != q.seq || r.tenant != q.tenant } q.place
/-- HOST_ACCESS_TIMEOUT (R204). -/
def execHostAccessTimeout (s : State) : Host.Outcome State Fault Refusal := .next (hostAccessTimeout s)

/-! ## The slot-C instructions -/

/-- Plan of PUT: Sends local bytes to a remote location with optional flags. (R381) -/
def planPut (x : Code7) : Plan := planCx true x (ropOut .put)
/-- PUT (R381). -/
def execPut (x : Code7) (s : State) : Host.Outcome State Fault Refusal := runPlan (planPut x) s

/-- Plan of GET: Fetches remote bytes into a local location. (R381) -/
def planGet (x : Code7) : Plan := planCx true x (ropOut .get)
/-- GET (R381). -/
def execGet (x : Code7) (s : State) : Host.Outcome State Fault Refusal := runPlan (planGet x) s

/-- Plan of RAMO: Performs an atomic at a remote die and returns the old value. (R381) -/
def planRamo (x : Code7) : Plan := planCx true x (ropOut .ramo)
/-- RAMO (R381). -/
def execRamo (x : Code7) (s : State) : Host.Outcome State Fault Refusal := runPlan (planRamo x) s

/-- Plan of LBOPEN: Waits for a link buffer and takes it EMPTY with a counting object. (R387) -/
def planLbopen (n : BitVec 4) (x : Code7) : Plan := planCx true x (lbopenOut (Fin.ofNat 16 n.toNat))
/-- LBOPEN (R387). -/
def execLbopen (n : BitVec 4) (x : Code7) (s : State) : Host.Outcome State Fault Refusal := runPlan (planLbopen n x) s

/-- Plan of LBSEND: Sends a link buffer's bytes as one message to a neighbour's buffer. (R388) -/
def planLbsend (n : BitVec 4) (x : Code7) (lk : BitVec 3) (m : BitVec 4) : Plan :=
  planCx true x (lbsendOut (Fin.ofNat 16 n.toNat) (Fin.ofNat 6 lk.toNat) (Fin.ofNat 16 m.toNat))
/-- LBSEND (R388). -/
def execLbsend (n : BitVec 4) (x : Code7) (lk : BitVec 3) (m : BitVec 4) (s : State) : Host.Outcome State Fault Refusal :=
  runPlan (planLbsend n x lk m) s

/-- Plan of LBFREE: Waits for users and makes a link buffer EMPTY. (R389) -/
def planLbfree (n : BitVec 4) : Plan := planC true (lbfreeOut false (Fin.ofNat 16 n.toNat))
/-- LBFREE (R389). -/
def execLbfree (n : BitVec 4) (s : State) : Host.Outcome State Fault Refusal := runPlan (planLbfree n) s

/-- Plan of LBFREE_CLOSE: Waits for users and closes a link buffer. (R389) -/
def planLbfreeClose (n : BitVec 4) : Plan := planC true (lbfreeOut true (Fin.ofNat 16 n.toNat))
/-- LBFREE_CLOSE (R389). -/
def execLbfreeClose (n : BitVec 4) (s : State) : Host.Outcome State Fault Refusal := runPlan (planLbfreeClose n) s

/-- Plan of TGACK: Adopts the die's topology generation. (R392) -/
def planTgack : Plan := planC true fun c s => .go fun t => t.modArch c fun a => { a with ctgen := (s.die c.die).tgen }
/-- TGACK (R392). -/
def execTgack (s : State) : Host.Outcome State Fault Refusal := runPlan planTgack s

end Sys2Proof.Machine
end

