-- ==== Sys2Proof/Machine/Collective.lean ====
section
/-! DEFINITION. Collectives (25 R391 to R402): groups, rounds, the collective branch with its speculative path, and reconfiguration. -/

namespace Sys2Proof.Machine

/-! ## Groups (R396, R397) -/

/-- A context with this CGM value is in the group. -/
def inGroup (t : BitVec 4) (gid : W16) (scope inst : Nat) (c : CtxId) (x : Ctx) : Bool :=
  let g := x.arch.cgm
  x.b.tenant == t && cgCount g != 0 && cgGid g == gid && cgScope g == scope && instOf scope c == inst
/-- A bound or saved context other than c belongs to the group. -/
def groupLives (s : State) (c : CtxId) (t : BitVec 4) (gid : W16) (sc inst : Nat) : Bool :=
  allCtx.any (fun o => o != c && (s.ctx o).st.bound && inGroup t gid sc inst o (s.ctx o)) ||
  s.saved.any fun v => inGroup t gid sc inst ⟨v.die, v.core, 0⟩ v.ctx
/-- Set a context's group: CSEQ restarts, and departures of an earlier group of that id are forgotten (R397, R399). -/
def setGroup (c : CtxId) (g : W64) (s : State) : State :=
  let t := (s.ctx c).b.tenant
  let sc := cgScope g
  let same (l : Left) : Bool := l.tenant == t && l.gid == cgGid g && l.scope == sc && l.inst == instOf sc c
  let old := s.left.filter fun l => !(same l && (l.index == cgIndex g || !groupLives s c t (cgGid g) sc (instOf sc c)))
  ({ s with left := if cgCount g = 0 then s.left else old } : State).modArch c fun a => { a with cgm := g, cseq := 0 }
/-- CGRP (R397). -/
def cgrpOut (scope : BitVec 3) (op : BitVec 1) (tout : BitVec 4) (x : W64) (c : CtxId) (s : State) : SlotOut :=
  let n := bits x.toNat 16 16
  if !committed s c && (bits x.toNat 48 16 != 0 || (n != 0 && decide (n ≤ bits x.toNat 0 16))) then .trap ⟨0x06, x⟩
  else .go (setGroup c (cgm scope op tout (x.extractLsb' 32 16) (x.extractLsb' 16 16) (x.extractLsb' 0 16)))
/-- CGRP.TEAM (R397). -/
def cgrpTeamOut (scope : BitVec 3) (op : BitVec 1) (tout : BitVec 4) (c : CtxId) (s : State) : SlotOut :=
  let b := (s.ctx c).b
  .go (setGroup c (cgm scope op tout b.team (BitVec.ofNat 16 b.teamSize) (BitVec.ofNat 16 b.member)))

/-! ## Rounds (R398, R399) -/

/-- Some member of a round's group, bound or saved, does not agree with it: the outcome flags are unpredictable (R397). -/
def groupOdd (s : State) (r : Round) : Bool :=
  r.count != 0 && decide (r.scope ≤ 5) && (r.odd ||
    allCtx.any (fun o => (s.ctx o).st.bound && inGroup r.tenant r.gid r.scope r.inst o (s.ctx o) && !agrees r (s.arch o).cgm) ||
    s.saved.any fun v => inGroup r.tenant r.gid r.scope r.inst ⟨v.die, v.core, 0⟩ v.ctx && !agrees r v.ctx.arch.cgm)
/-- A member enters the round that its CSEQ names with f[T] ≠ 0; CSEQ advances (R398). -/
def enterRound (c : CtxId) (t : Nat) (s : State) : Nat × State :=
  let x := s.ctx c
  enterAs ⟨c, x.b.uid, x.b.tenant, x.arch.cgm, x.arch.cseq, t, rdFlag (s.core c.coreId).store t != 0⟩ (s.modArch c fun a => { a with cseq := a.cseq + 1 })
/-- Members of a round's group that have left by TEXIT before arriving (R399); those of a team that spans packages that have ended before a barrier (R366). -/
def leftOf (s : State) (r : Round) : List Nat :=
  if r.scope = barrierScope.toNat then
    (s.rounds.filter fun (q : Round) => q.tenant == r.tenant && q.gid == r.gid && q.scope == endScope.toNat).flatMap fun q => q.seen.filter fun i => !r.seen.contains i
  else (s.left.filter fun l => l.tenant == r.tenant && l.gid == r.gid && l.scope == r.scope && l.inst == r.inst && !r.seen.contains l.index).map Left.index
/-- Every member present has arrived. -/
def roundMet (s : State) (r : Round) : Bool := r.formed.isNone && !r.sent && decide (r.count ≤ r.seen.length + (leftOf s r).length)
/-- The recorded leaf of a CBR bundle's tree, with the outcome in f[T] and the other tests as read at issue (R401). -/
def standingLeaf (p : Spec0) (o : Bool) : Nat :=
  let f := cutT (p.bundle.extractLsb' 320 64)
  treeLeaf f.shape.toNat fun n =>
    if p.usesT.getD n false then o != (FT.test f n).getLsbD 10 else p.tests.getD n false
/-- Perform one held entry of a path, or answer none while it cannot perform (R401). -/
def releaseOne (c : CtxId) (h : Held) (s : State) : Option State :=
  let k := s.core c.coreId
  match h with
  | .store a bs => if busyAny k a bs.length then none else some (csWrite c.coreId a bs s)
  | .fadd n v => if busyAny k (4 * n) 4 then none else some (setFlag c.coreId n (rdFlag k.store n + v) s)
  | .flags b v => if busyAny k (4 * b) 128 then none else some (flagsWrite c.coreId b v s)
  | .wait _ => none
  | .acc z b ws => if tileBusy s c z then none else some (s.modCtx c (putAcc z b ws))
  | .cmd i x idx => if tableRoom c i x idx s then some (enterCmd c i x idx s) else none
/-- Release held entries in issue order until one cannot perform. -/
def releaseHeld (c : CtxId) : List Held → State → List Held × State
  | [], s => ([], s)
  | h :: r, s => match releaseOne c h s with
    | some u => releaseHeld c r u
    | none => (h :: r, s)
/-- The release of a path that stands goes on; once every entry has performed the path has ended, and a trap that it held is taken, its bundle counted
(R86, R401, R402). -/
def releaseStep (c : CtxId) (s : State) : State :=
  match (s.ctx c).spec with
  | none => s
  | some p =>
    if p.round ≠ 0 then s
    else
      let g := releaseHeld c p.held s
      g.2.modCtx c fun x =>
        if g.1 = [] then { x with spec := none, trap := p.trap <|> x.trap, arch := if p.trap.isSome then { x.arch with run := x.arch.run + 1 } else x.arch }
        else { x with spec := some { p with held := g.1 } }
/-- The next entry to be released is a result that has not landed (log 55). -/
def releaseWaits (p : Spec0) : Bool :=
  p.round == 0 && (match p.held with
    | .wait _ :: _ => true
    | _ => false)
/-- A mismatch restores the CBR point; the bundle performs again under the actual leaf, whose bundle issues no sooner than 4 cycles later. Faults that
the path has reported are withdrawn (R401). -/
def discardPath (c : CtxId) (p : Spec0) (leaf : Nat) (s : State) : State :=
  (s.modCtx c fun x => { x with
    arch := p.point, mreg := p.mcopy.foldl (fun m e => e.2.foldl (fun m w => wrCell m w.1 w.2) (clearCells m (e.1 * 1024) (e.1 * 1024 + 1024))) x.mreg,
    flights := [], spec := none, trap := none, late := x.late.filter (fun e => !e.path), miss := none, unres := [], att := .forced leaf 4, stall := 0 }).modDie
    c.die fun d => { d with faults := d.faults.filter fun f => f.agent != .fetch c && f.agent != .xlat c }
/-- An outcome reaches a member: its core writes both flag words, a waiting bundle may issue, and a path stands or falls (R399, R401). In an
`odd` group both words are free values, and the tree sees the first (R397, log 13). The release of a barrier of a team that spans packages lets its bundle issue
(R366), and the outcome of the ends of its members goes to the end of the task that waits for it (R356). -/
def tellMember (id sc : Nat) (m : Member) (odd : Bool) (o : Bool) (n : Nat) (s : State) : State :=
  let c := m.c
  if (s.ctx c).b.uid ≠ m.uid then s
  else if 5 < sc then s.modCtx c fun x => if x.att = .round id then { x with att := if sc = barrierScope.toNat then .arrived id else .done (if o then 1 else 0) } else x
  else
    let w : Nat := 2 ^ 31 + (if n = 0 then 0 else 0x0C0000) + min n 65535
    let v : W32 := if odd then Config.freeWord s.draws else if o then 1 else 0
    let u : W32 := if odd then Config.freeWord (s.draws + 1) else BitVec.ofNat 32 w
    let o := decide (v ≠ 0)
    let s := setFlag c.coreId (m.flag + 1) u (setFlag c.coreId m.flag v (if odd then { s with draws := s.draws + 2 } else s))
    let x := s.ctx c
    if x.att = .round id then s.modCtx c fun x => { x with att := .arrived id }
    else match x.spec with
      | none => s
      | some p =>
        if p.round ≠ id then s
        else
          let leaf := standingLeaf p o
          if leaf = p.leaf then releaseStep c (s.modCtx c fun x => { x with spec := some { p with round := 0 } })
          else discardPath c p leaf s
/-- Tell a member of a formed round; a round whose members all know is gone. -/
def tellRound (id : Nat) (m : Member) (s : State) : State :=
  match s.rounds.find? (fun (r : Round) => r.id == id) with
  | none => s
  | some r => match r.formed with
    | none => s
    | some f =>
      let r' := { r with members := r.members.filter (· != m) }
      let rs := if r'.members = [] ∧ r'.absent = [] ∧ r'.afar = [] then s.rounds.filter (fun (q : Round) => q.id != id)
        else s.rounds.map (fun (q : Round) => if q.id = id then r' else q)
      tellMember id r.scope m (groupOdd s r) f.1 f.2 { s with rounds := rs }
/-- The outcome of a formed round goes out to a member whose arrival has been joined: at once on the same die, else by a flit (R373). -/
def sendOutcome (r : Round) (m : Member) (s : State) : State :=
  if m.c.die = r.die then modMember r.id m.c (fun m => { m with hop := .done }) s
  else routeFlit r.die (collFlit s .outcome r.die m.c.die r.id m.c) (modMember r.id m.c (fun m => { m with hop := .back }) s)
/-- A formed round's outcome goes out to the members of other packages that have arrived; a round that nobody waits for any more is gone (R373, R399). -/
def tellAfar (id : Nat) (s : State) : State :=
  match s.rounds.find? (fun (r : Round) => r.id == id) with
  | none => s
  | some r => match r.formed with
    | none => s
    | some f =>
      if r.afar = [] then s
      else
        let flit (p : BitVec 12 × BitVec 16 × Nat) : Flit :=
          ⟨.outcome, 0, dieId s r.die, p.1, .away p.1 p.2.1, 0, outcomeBytes p.2.2 f.1 f.2 (groupOdd s r), 0, false⟩
        let u := modRound id (fun q => { q with afar := [] }) s
        forEach r.afar (fun p => routeFlit r.die (flit p))
          { u with rounds := u.rounds.filter fun (q : Round) => !(q.id == id && q.members.isEmpty && q.absent.isEmpty) }
/-- A round forms its outcome, with so many members declared absent, and sends it to the members that have arrived (R399). -/
def formRound (r : Round) (absent : List Nat) (s : State) : State :=
  tellAfar r.id (forEach (r.members.filter fun m => m.hop == .home) (sendOutcome r)
    (modRound r.id (fun q => { q with formed := some (r.acc, absent.length), absent := absent }) s))
/-- An arrival that has reached the round's die joins: its contribution counts while the outcome has not formed, else it is told (R399). -/
def joinRound (r : Round) (m : Member) (s : State) : State :=
  if m.hop ≠ .home then s
  else if r.formed.isSome then sendOutcome r m (modRound r.id (fun q => { q with absent := q.absent.filter (· != m.index) }) s)
  else if r.seen.contains m.index then s
  else modRound r.id (fun q => { q with seen := q.seen ++ [m.index], acc := joinVals q.op q.acc m.val }) s
/-- Arrivals join their rounds, and a round that every member present has reached forms (R399). -/
def settleRounds (s : State) : State :=
  let s := forEach s.rounds (fun r s => forEach r.members (fun m s => joinRound r m s) s) s
  let s := forEach (s.rounds.filter (roundMet s)) (fun r => formRound r []) s
  forEach s.rounds (fun r s => tellAfar r.id s) s
/-- The outcome of a round may reach a member: it has come to its die, and the latency has passed since the last arrival, or has only a bound (Table 05.8). -/
def outcomeReady (r : Round) (m : Member) : Bool :=
  r.formed.isSome && m.hop == .done && (r.bounded || r.due)
/-- CBR_OUTCOME: the outcome of the round that the event names reaches the member context that it names (R399, R401). -/
def cbrOutcome (s : State) : State :=
  let c : CtxId := ⟨s.arg.die, s.arg.core, s.arg.ctx⟩
  match s.rounds.find? (fun (r : Round) => r.id == s.arg.id) with
  | none => s
  | some r =>
    match r.members.find? (fun m => m.c == c) with
    | none => s
    | some m => if outcomeReady r m then tellRound r.id m s else s
/-- CBR_OUTCOME (R401). -/
def execCbrOutcome (s : State) : Host.Outcome State Fault Refusal := .next (cbrOutcome s)
/-- The absence timeout has passed since the round's first arrival: 16 µs × 2^TOUT in ticks of 1 ns (Table 25.10). -/
def roundExpired (s : State) (r : Round) : Bool := decide (16000 * 2 ^ r.tout ≤ ((s.die r.die).ptb - r.start).toNat)
/-- COLLECTIVE_TIMEOUT: the members of a round that have not arrived are declared absent, and the outcome forms (R399). -/
def collectiveTimeout (s : State) : State :=
  match s.rounds.find? (fun (r : Round) => r.id == s.arg.id) with
  | none => s
  | some r =>
    if r.formed.isSome || r.sent || decide (5 < r.scope) || !roundExpired s r then s
    else
      let gone := (List.range r.count).filter fun i => !r.seen.contains i && !(leftOf s r).contains i
      formRound r gone s
/-- COLLECTIVE_TIMEOUT (R399). -/
def execCollectiveTimeout (s : State) : Host.Outcome State Fault Refusal := .next (collectiveTimeout s)
/-- One cycle of a core passes for the outcomes that its members wait for, at pod scope one round (R34, R399, Table 05.8). -/
def tickRounds (pod : Bool) (k : CoreId) (s : State) : State :=
  { s with rounds := s.rounds.map fun (r : Round) => if pod = r.bounded then
    { r with members := r.members.map fun m => if m.c.coreId = k then { m with left := m.left.map (· - 1) } else m } else r }
/-- The outcome that has to reach a context of a core now, if any: the last cycle of its latency has passed. -/
def outcomeDue (s : State) (k : CoreId) : Option (Nat × CtxId) :=
  firstSome (fun (r : Round) => (r.members.find? fun m => m.c.coreId == k && outcomeReady r m && r.due).map
    fun m => (r.id, m.c)) s.rounds

/-! ## The collective branch (R398) -/

/-- The context enters the speculative path under leaf k; the bundle's issue adds the tests that its tree read. -/
def enterPath (c : CtxId) (t k : Nat) (s : State) : State :=
  let r := enterRound c t s
  r.2.modCtx c fun x => { x with spec := some ⟨x.arch, [], r.1, t, k, [], [], 0, [], 0, 0, none⟩ }
/-- CBR and CBR.WAIT (R398, R422): the read of f[T] waits for an acquire and for a command that writes it (R252, R302). -/
def cbrOut (wait : Bool) (t k : Nat) (c : CtxId) (s : State) : SlotOut :=
  let clear (s : State) : State := s.modCtx c fun x => { x with att := .none }
  match (s.ctx c).att with
  | .arrived _ => .go clear
  | .forced _ _ => .go clear
  | .round _ => .wait none
  | _ =>
    if (s.ctx c).flights ≠ [] then .land
    else if acqPending s c || busyWritten (s.core c.coreId) (4 * t) 4 then .freeze id
    else if wait then
      .wait (some fun u =>
        let r := enterRound c t u
        r.2.modCtx c fun x => { x with att := .round r.1 })
    else .go (enterPath c t k)

/-! ## Reconfiguration (R393 to R395) -/

/-- The contexts of the module in a reconfiguring group. -/
def groupDies (s : State) (t : BitVec 4) (gid : W16) : List (Fin 4) :=
  ((allCtx.filter fun o => (s.ctx o).st.bound && inGroup t gid 5 0 o (s.ctx o)).map CtxId.die) ++
  (s.saved.filter fun v => inGroup t gid 5 0 ⟨v.die, v.core, 0⟩ v.ctx).map Saved.die
/-- The group has scope pod and one member on every die of the pod: as many members as dies, one of them on each die of this package; the dies of other
packages are taken to hold theirs (R393, log 9). -/
def podGroup (s : State) (c : CtxId) : Bool :=
  let g := (s.arch c).cgm
  cgScope g == 5 && cgCount g == podDies s &&
    (List.finRange 4).all fun d => ((groupDies s (s.ctx c).b.tenant (cgGid g)).filter (· == d)).length == 1
/-- The reconfiguration of a group in progress. -/
def reconfOf (s : State) (t : BitVec 4) (gid : W16) : Option Reconf := s.reconfs.find? fun r => r.tenant == t && r.gid == gid
/-- A member's arrival at a reconfiguration goes to die 0 of the package, where the arrivals meet (R373, R395). -/
def meetPlan (c : CtxId) (s : State) : State :=
  if c.die = 0 then s else routeFlit c.die ⟨.planMeet, 0, dieId s c.die, dieId s 0, .plan c, 0, [], 0, false⟩ s
/-- RECONF (R393): the member arrives with its plan of 4,160 bytes. -/
def reconfOut (x : W64) (n : Nat) (c : CtxId) (s : State) : SlotOut :=
  let a : W64 := BitVec.ofNat 64 (alignDown x.toNat 64)
  let b := (s.ctx c).b
  let gid := cgGid (s.arch c).cgm
  match staleTopo s c with
  | some e => .trap e
  | none =>
    if !(s.ten b.tenant).reconf then .trap ⟨0x11, x⟩
    else if !podGroup s c then .trap ⟨0x06, x⟩
    else if (match reconfOf s b.tenant gid with
      | some r => r.stage != ReconfStage.arriving || r.members.any (fun m => m.c.die == c.die)
      | none => false) then .trap ⟨0x06, x⟩
    else match csCheckRun (s.core c.coreId) a.toNat 4160 with
      | some e => .trap e
      | none =>
        let me : PlanArrival := ⟨c, b.uid, n, rdCells (s.core c.coreId).store a.toNat 4160, c.die == 0⟩
        csLoad s c a 4160 (.go fun u =>
          meetPlan c <| match reconfOf u b.tenant gid with
          | some r => { u with reconfs := u.reconfs.map fun (q : Reconf) => if q.tenant = r.tenant ∧ q.gid = r.gid then { q with members := q.members ++ [me] } else q }
          | none => { u with reconfs := u.reconfs ++ [⟨b.tenant, gid, .arriving, [me], 0, [], []⟩] })
/-- A field of a plan (Table 25.9). -/
def planNat (p : List Byte) (off n : Nat) : Nat := ofBytes ((p.drop off).take n)
/-- LINKS bit k. -/
def circSet (p : List Byte) (l : Fin 6) : Bool := (planNat p 4 4).testBit l.val
/-- CIRCUIT k. -/
def planCircuit (p : List Byte) (l : Fin 6) : Nat := planNat p (0x10 + 8 * l.val) 8
/-- USED of CIRCUIT k. -/
def planUsed (p : List Byte) (l : Fin 6) : Bool := (planCircuit p l).testBit 16
/-- The far end that CIRCUIT k of a die's plan names, if it exists: a link of this package, or one of another. -/
def planFar (s : State) (d : Fin 4) (p : List Byte) (l : Fin 6) : Option (Fin 4 × Fin 6 × Option (BitVec 12 × Fin 6)) :=
  let n := planCircuit p l
  let i := BitVec.ofNat 12 n
  if 6 ≤ bits n 12 4 then none
  else match dieOfId s i with
    | some e => some (e, Fin.ofNat 6 (bits n 12 4), none)
    | none => if dieExists s i then some (d, l, some (i, Fin.ofNat 6 (bits n 12 4))) else none
/-- The route byte for a die. -/
def planRoute (p : List Byte) (i : BitVec 12) : Nat := planNat p (0x40 + i.toNat) 1
/-- A link will be in service under the die's plan. -/
def planUp (s : State) (d : Fin 4) (p : List Byte) (l : Fin 6) : Bool := if circSet p l then planUsed p l else (linkOf s d l).up
/-- A die's own checks of its member's plan (R394). -/
def planValid (s : State) (m : PlanArrival) : Bool :=
  let p := m.plan
  let d := m.c.die
  planNat p 0 4 == 1 && bits (planNat p 4 4) 6 26 == 0 && planNat p 8 8 == 0 &&
  (List.finRange 6).all (fun l => bits (planCircuit p l) 17 15 == 0 && !((circSet p l || planUsed p l) && inPackage d l)) &&
  planRoute p (dieId s d) == 7 &&
  (podIds s).all fun e => decide (planRoute p e ≠ 6) && decide (planRoute p e ≤ 7) &&
    (planRoute p e == 7 || planUp s d p (Fin.ofNat 6 (planRoute p e)))
/-- The plans agree across dies: a circuit's two ends name each other (R394); those of other packages are taken to (log 9). -/
def plansAgree (s : State) (ms : List PlanArrival) : Bool :=
  ms.all fun m => (List.finRange 6).all fun l =>
    !(circSet m.plan l && planUsed m.plan l) || (match planFar s m.c.die m.plan l with
      | none => false
      | some (_, _, some _) => true
      | some (d, l', none) => ms.any fun q => q.c.die == d && circSet q.plan l' && planUsed q.plan l' && planFar s d q.plan l' == some (m.c.die, l, none))
/-- The links whose circuits a reconfiguration changes. -/
def planLinks (r : Reconf) : List (Fin 4 × Fin 6) :=
  r.members.flatMap fun m => ((List.finRange 6).filter (circSet m.plan)).map fun l => (m.c.die, l)
/-- Change a reconfiguration. -/
def modReconf (r : Reconf) (f : Reconf → Reconf) (s : State) : State :=
  { s with reconfs := s.reconfs.map fun q => if q.tenant = r.tenant ∧ q.gid = r.gid then f q else q }
/-- A reconfiguration ends, with its outcome in every member's flag (R395). -/
def endReconf (r : Reconf) (v : W32) (s : State) : State :=
  forEach r.members (fun m s => setFlag m.c.coreId m.flag v s)
    { s with reconfs := s.reconfs.filter fun q => !(q.tenant == r.tenant && q.gid == r.gid) }
/-- A flit that goes to the far end of its link and no further. -/
def Flit.ofLink (f : Flit) : Bool := f.kind == .lbReq || f.kind == .lbData || f.kind == .time || f.kind == .credits
/-- Routers send the waiting flits of a die again by its present routes; the messages that wait at a link out of service are refused (R377, R395). -/
def reroute (d : Fin 4) (s : State) : State :=
  let l := (List.finRange 6).flatMap fun l => (linkOf s d l).txq.filter fun f => !f.ofLink
  let s := forEach (List.finRange 6) (fun l s =>
    let x := linkOf s d l
    if x.up then s
    else forEach (x.txq.filter fun f => f.ofLink && f.kind.isRequest) (refuseFlit d)
      (modLink d l (fun x => { x with txq := x.txq.filter fun f => !(f.ofLink && f.kind.isRequest) }) s)) s
  forEach l (routeFlit d) (forEach (List.finRange 6) (fun l => modLink d l fun x => { x with txq := x.txq.filter Flit.ofLink }) s)
/-- ROUTE_INSTALL: every die installs its routes and counts a new generation; the members adopt it and learn the outcome (R395). With
`ok` false the previous routes stay and the members' CTGEN with them (log 72). -/
def routeInstall (r : Reconf) (ok : Bool) (s : State) : State :=
  let s := forEach (r.prev.map (fun p => (p.die, p.link)) ++ r.prev.filterMap oldFar) (fun p => modLink p.1 p.2 fun x => { x with draining := false }) s
  let s := if ok then forEach (r.prev.filterMap oldFar) dropLoose s else s
  let s := forEach (List.finRange 4) (fun d s => s.modDie d fun x =>
    { x with tgen := x.tgen + 1
             routes := if ok then (match r.members.find? (fun m => m.c.die == d) with
               | some m => some ((podIds s).map fun i => (i.toNat, planRoute m.plan i))
               | none => x.routes) else x.routes }) s
  let adopt (m : PlanArrival) (g : W32) (x : Ctx) : Ctx :=
    if x.b.uid = m.uid then { x with arch := { x.arch with ctgen := g }, spec := x.spec.map fun p => { p with point := { p.point with ctgen := g } } } else x
  let s := if !ok then s else forEach r.members (fun m s =>
    let g := (s.die m.c.die).tgen
    ({ s with saved := s.saved.map fun v => { v with ctx := adopt m g v.ctx } } : State).modCtx m.c (adopt m g)) s
  let s := if ok then forEach (List.finRange 4) reroute s else s
  endReconf r (if ok then 1 else 3) (forEach (List.finRange 4) dropXlink s)
where
  /-- The far end in this package that an affected link had. -/
  oldFar (p : PrevLink) : Option (Fin 4 × Fin 6) := if p.far.2.2.isSome then none else some (p.far.1, p.far.2.1)
  /-- A link whose circuit has been moved away or left unused is out of service: no far end answers it; keyed tenants are told, unless its other end went out
  of service with the plans (R377, R417, log 72). -/
  dropLoose (p : Fin 4 × Fin 6) (s : State) : State :=
    let x := linkOf s p.1 p.2
    let y := linkOf s x.farDie x.farLink
    if x.out.isSome || !x.up || (y.up && y.out.isNone && y.farDie == p.1 && y.farLink == p.2) then s
    else (if y.up then notifyKeyed 3 else id) (endOut p.1 p.2 0 s)
/-- The circuit codes of the affected links go to the fibre cross-connect (R395 step 3). -/
def askCircuits (r : Reconf) (s : State) : State :=
  { s with crossOut := s.crossOut ++ r.members.flatMap fun m => ((List.finRange 6).filter (circSet m.plan)).map fun l =>
      .circuit m.c.die l (BitVec.ofNat 32 (bits (planCircuit m.plan l) 32 32)) }
/-- The affected links are drained: what they sent is acknowledged (R395 step 2). -/
def linksDrained (s : State) (r : Reconf) : Bool :=
  (planLinks r).all fun p =>
    let x := linkOf s p.1 p.2
    x.replay.isEmpty && (x.out.isSome || (linkOf s x.farDie x.farLink).replay.isEmpty)
/-- Both ends of every affected link stop sending, and resume. -/
def drainLinks (r : Reconf) (on : Bool) (s : State) : State :=
  forEach (planLinks r) (fun p s => bothEnds p.1 p.2 (fun x => { x with draining := on }) s) s
/-- RECONF_MEET: all arrivals have met and the plans are checked; once the affected links are drained, the fibre cross-connect is asked for the
circuits (R395 steps 1 to 3). The event names the tenant and the group; in a pod of several packages `ok` tells that the members of the others have met
and their plans are valid (log 9). -/
def reconfMeet (s : State) : State :=
  match reconfOf s s.arg.tenant (BitVec.ofNat 16 s.arg.id) with
  | none => s
  | some r => match r.stage with
    | .arriving =>
      if r.members.length < 4 || !r.members.all PlanArrival.met then s
      else if !(r.members.all (planValid s) && plansAgree s r.members && (s.arg.ok || podDies s == 4)) then endReconf r 2 s
      else drainLinks r true (modReconf r (fun q => { q with stage := .draining }) s)
    | .draining =>
      if !linksDrained s r then s
      else askCircuits r <| modReconf r (fun q => { q with
        stage := .asked, start := (s.die 0).ptb,
        prev := (planLinks r).map fun p => let x := linkOf s p.1 p.2; ⟨p.1, p.2, x.up, x.farDie, x.farLink, x.out⟩ }) s
    | _ => s
/-- RECONF_MEET (R395). -/
def execReconfMeet (s : State) : Host.Outcome State Fault Refusal := .next (reconfMeet s)
/-- A link that starts afresh on a new circuit: nothing is outstanding on it, and its far end's buffers are free. -/
def Link.newCircuit (x : Link) (used : Bool) (far : Fin 4 × Fin 6 × Option (BitVec 12 × Fin 6)) : Link :=
  { x with up := used, training := used, replay := [], sent := 0, seq := 0, expect := 0, fails := 0, nack := false, rejects := 0, farDie := far.1, farLink := far.2.1,
           out := far.2.2, credit := .replicate 4 vcBuffers, owed := .replicate 4 0, repairDue := [], again := 0, awaits := 0 }
/-- The links that the plans have put out of service, one end of each: an end that is down now and was up, and whose previous far end is not such an end with a
lower number (R377, R417). -/
def linksLeft (r : Reconf) (s : State) : List PrevLink :=
  let left (p : PrevLink) : Bool := p.up && !(linkOf s p.die p.link).up
  r.prev.filter fun p => left p && !(r.prev.any fun q => left q && p.far == (q.die, q.link, none) && decide (q.die.val * 6 + q.link.val < p.die.val * 6 + p.link.val))
/-- CROSSCONNECT_CONFIRM: the circuits of the group that the event names stand, and its links train (R395 step 4). -/
def crossconnectConfirm (s : State) : State :=
  match reconfOf s s.arg.tenant (BitVec.ofNat 16 s.arg.id) with
  | none => s
  | some r =>
    if r.stage ≠ .asked then s
    else
      let u := forEach r.members (fun m s => forEach ((List.finRange 6).filter (circSet m.plan)) (fun l s =>
        match planFar s m.c.die m.plan l with
        | some f => modLink m.c.die l (fun x => x.newCircuit (planUsed m.plan l) f) s
        | none => modLink m.c.die l (fun x => x.newCircuit false (x.farDie, x.farLink, x.out)) s) s) s
      let u := forEach (linksLeft r u) (fun _ => notifyKeyed 3) u
      let todo := (planLinks r).filter fun p => (linkOf u p.1 p.2).training
      if todo = [] then routeInstall r true u
      else modReconf r (fun q => { q with stage := .training, todo := todo }) u
/-- CROSSCONNECT_CONFIRM (R395). -/
def execCrossconnectConfirm (s : State) : Host.Outcome State Fault Refusal := .next (crossconnectConfirm s)
/-- The previous circuits are restored and retrain, both ends of each afresh, those that no plan named as well (R395). -/
def restoreCircuits (r : Reconf) (s : State) : State :=
  let ends := r.prev.map fun p => (p.die, p.link)
  let u := forEach r.prev (fun p s =>
    let s := modLink p.die p.link (fun x => x.newCircuit p.up p.far) s
    if p.far.2.2.isSome ∨ ends.contains (p.far.1, p.far.2.1) then s
    else modLink p.far.1 p.far.2.1 (fun x => x.newCircuit p.up (p.die, p.link, none)) s) s
  let u := { u with crossOut := u.crossOut ++ r.prev.map fun p => .restore p.die p.link }
  let todo := (r.prev.filter PrevLink.up).map fun p => (p.die, p.link)
  if todo = [] then routeInstall r false u
  else modReconf r (fun q => { q with stage := .restoring, todo := todo }) u
/-- RECONF_TIMEOUT: no confirmation within 1 s of asking (R395). -/
def reconfTimeout (s : State) : State :=
  match reconfOf s s.arg.tenant (BitVec.ofNat 16 s.arg.id) with
  | none => s
  | some r => if r.stage = .asked ∧ 10 ^ 9 ≤ ((s.die 0).ptb - r.start).toNat then restoreCircuits r s else s
/-- RECONF_TIMEOUT (R395). -/
def execReconfTimeout (s : State) : Host.Outcome State Fault Refusal := .next (reconfTimeout s)
/-- The reconfiguration whose training includes a link. -/
def trainsFor (s : State) (d : Fin 4) (l : Fin 6) : Option Reconf := s.reconfs.find? fun r => r.todo.contains (d, l)
/-- A link's training has ended for a reconfiguration; the last one installs routes (R395 step 5). -/
def trainDone (r : Reconf) (d : Fin 4) (l : Fin 6) (s : State) : State :=
  let x := linkOf s d l
  let todo := r.todo.filter fun p => p != (d, l) && p != (x.farDie, x.farLink)
  if todo = [] then routeInstall r (decide (r.stage = .training)) s else modReconf r (fun q => { q with todo := todo }) s
/-- A trained link carries flits again, replaying every unacknowledged one in order (R375); training has measured its delay, half of a round trip of
`val` ticks (R371). A die that has lost XLINK does not show it again by this before a start (DESIGN CHOICE, log 47: R31 says nothing of it). -/
def linkTrained (d : Fin 4) (l : Fin 6) (s : State) : State :=
  let t := s.arg.val.toNat / 2
  bothEnds d l (fun x => { x.replayAll with training := false, up := true, fails := 0, nack := false, delay := if t = 0 then x.delay else t }) s
/-- LINK_TRAIN_COMPLETE: training of the link that the event names ends: `ok` trained, else the link goes out of service; `num` 1 tells that a
reconfiguration's training found another far end than the planned one (R375, R377, R395). -/
def linkTrainComplete (s : State) : State :=
  let d := s.arg.die
  let l : Fin 6 := Fin.ofNat 6 s.arg.unit
  if !(linkOf s d l).training then s
  else match trainsFor s d l with
    | none => if s.arg.ok then linkTrained d l s else setReplaceIf d l (linkOut d l s)
    | some r =>
      if s.arg.num = 1 ∧ r.stage = .training then restoreCircuits r s
      else trainDone r d l (if s.arg.ok then linkTrained d l s else linkOut d l s)
where
  /-- A link that has gone out of service with its spares used leaves its pool empty (R417). -/
  setReplaceIf (d : Fin 4) (l : Fin 6) (s : State) : State := if (linkOf s d l).spares = 0 then setReplace s else s
/-- LINK_TRAIN_COMPLETE (R375). -/
def execLinkTrainComplete (s : State) : Host.Outcome State Fault Refusal := .next (linkTrainComplete s)

/-! ## The slot-C instructions -/

/-- Plan of CGRP: Sets the context's collective group from an operand. (R397) -/
def planCgrp (x : Code7) (scope : BitVec 3) (op : BitVec 1) (tout : BitVec 4) : Plan := planCx true x (cgrpOut scope op tout)
/-- CGRP (R397). -/
def execCgrp (x : Code7) (scope : BitVec 3) (op : BitVec 1) (tout : BitVec 4) (s : State) : Host.Outcome State Fault Refusal :=
  runPlan (planCgrp x scope op tout) s

/-- Plan of CGRP_TEAM: Sets the collective group from the task's team. (R397) -/
def planCgrpTeam (scope : BitVec 3) (op : BitVec 1) (tout : BitVec 4) : Plan := planC true (cgrpTeamOut scope op tout)
/-- CGRP_TEAM (R397). -/
def execCgrpTeam (scope : BitVec 3) (op : BitVec 1) (tout : BitVec 4) (s : State) : Host.Outcome State Fault Refusal :=
  runPlan (planCgrpTeam scope op tout) s

/-- Plan of CBR: Contributes to a collective round and runs speculatively on a predicted leaf. (R398) -/
def planCbr (t : BitVec 10) (k : BitVec 3) : Plan := planC true (cbrOut false t.toNat k.toNat)
/-- CBR (R398). -/
def execCbr (t : BitVec 10) (k : BitVec 3) (s : State) : Host.Outcome State Fault Refusal := runPlan (planCbr t k) s

/-- Plan of CBR_WAIT: Contributes to a collective round and waits for the outcome. (R398) -/
def planCbrWait (t : BitVec 10) : Plan := planC true (cbrOut true t.toNat 0)
/-- CBR_WAIT (R398). -/
def execCbrWait (t : BitVec 10) (s : State) : Host.Outcome State Fault Refusal := runPlan (planCbrWait t) s

/-- Plan of RECONF: Contributes a reconfiguration plan to the pod group. (R393) -/
def planReconf (x : Code7) (n : BitVec 10) : Plan := planCx true x fun v => reconfOut v n.toNat
/-- RECONF (R393). -/
def execReconf (x : Code7) (n : BitVec 10) (s : State) : Host.Outcome State Fault Refusal := runPlan (planReconf x n) s

end Sys2Proof.Machine
end

