-- ==== Sys2Proof/Machine/Service.lean ====
section
/-! DEFINITION. NTFY, SVC and the health word (27 R410, R417 to R419). -/

namespace Sys2Proof.Machine

/-! ## The health word (Table 27.5) -/

/-- Cores that a die exposes (R416). -/
def coresUp (d : Die) : Nat := (d.cores.toList.filter Core.inService).length
/-- The link ends of a module; the Z links of a pod of Z size 1 have no far end and are not counted (log 9). -/
def linkEnds (s : State) : List Link :=
  (List.finRange 4).flatMap fun d => (List.range (if s.podZ = 0 then 4 else 6)).map fun l => linkOf s d (Fin.ofNat 6 l)
/-- Links for which it is so: one end each of a link to another package, both ends of a link between dies of the package. -/
def linkCount (s : State) (p : Link → Bool) : Nat :=
  let l := (linkEnds s).filter p
  (l.filter (·.out.isSome)).length + (l.filter (·.out.isNone)).length / 2
/-- The health word. -/
def healthWord (s : State) : W64 :=
  let cores (d : Fin 4) : BitVec 4 := BitVec.ofNat 4 (coresUp (s.die d) - 1)
  let bit (b : Bool) : BitVec 1 := if b then 1 else 0
  s.authfail ++ cores 3 ++ cores 2 ++ cores 1 ++ cores 0 ++ BitVec.ofNat 8 (linkCount s fun l => !l.up && !l.training) ++
  BitVec.ofNat 8 (linkCount s Link.lanes8) ++ 0#7 ++ bit (s.dies.toList.any Die.ptbLost) ++ bit s.replace ++
  bit (s.dies.toList.any fun d => d.feat != 0x7FF#11 || decide (coresUp d < 16)) ++ 0#2 ++ s.hstate
/-- What an unsealed HEALTH reply shows: STATE, REPLACE, DEGRADED and PTBLOST (R410). -/
def healthPublic (s : State) : W64 := healthWord s &&& 0x1CF#64

/-- The Ethernet port is up: from step 8 of a start on (R411). -/
def etherUp (s : State) : Bool := s.hstate != 0#4 || s.starting.any fun p => decide (8 ≤ p.2)

/-! ## Notifications (R418) -/

/-- The tenant's notification queue has a free entry. -/
def notesRoom (s : State) (t : BitVec 4) : Bool := decide ((s.ten t).notes.length < 64)
/-- NTFY (R418). -/
def ntfyOut (code : BitVec 16) (x : W64) (c : CtxId) (s : State) : SlotOut :=
  afterFence c s <|
    let t := (s.ctx c).b.tenant
    if notesRoom s t then .go (notify t 1 code x 0) else .wait none

/-! ## Services (R419) -/

/-- The block that an SVC names. -/
def svcBlock (x : W64) : W64 := BitVec.ofNat 64 (alignDown x.toNat 64)
/-- SVC: the context waits in its issued bundle until the supervisor has written the block. -/
def svcOut (n : BitVec 8) (x : W64) (c : CtxId) (s : State) : SlotOut :=
  afterFence c s <|
    let a := svcBlock x
    if busyAny (s.core c.coreId) a.toNat 64 then .freeze id
    else match (if committed s c then none else csCheck (s.core c.coreId) a) with
      | some e => .trap e
      | none => .go fun t => t.modCtx c fun y => { y with svc := some (a.toNat, n) }
/-- What the supervisor writes into a request block, as offsets with their bytes. -/
def svcWrites (s : State) (t : BitVec 4) (n : Byte) : List (Nat × List Byte) :=
  let r := s.ten t
  if n = 0 then [(0, toBytes 4 0), (8, toBytes 8 (healthWord s).toNat)]
  else if n = 1 then
    [(0, toBytes 4 0), (8, toBytes 4 r.ceiling.toNat), (12, toBytes 4 r.weight), (16, toBytes 4 r.cstoreLimit.toNat),
     (20, toBytes 4 r.saveLimit.toNat), (24, toBytes 4 r.teamLimit.toNat)]
  else [(0, toBytes 4 0xFFFFFFFF)]
/-- What the supervisor sets for a tenant, as 16 bytes: its priority ceiling (R354; tenant 0's is 3, R406), its weight (R363), its right to reconfigure
(R393), and its core-store, save-area and team limits (R419; log 56). -/
def setTenant (t : BitVec 4) (l : List Byte) (s : State) : State :=
  let f (i n : Nat) : Nat := ofBytes ((l.drop i).take n)
  s.modTen t fun x =>
    { x with ceiling := if t = 0 then 3 else BitVec.ofNat 2 (f 0 1), weight := max 1 (f 1 1), reconf := (f 2 1).testBit 0
             cstoreLimit := BitVec.ofNat 32 (f 4 4), saveLimit := BitVec.ofNat 32 (f 8 4), teamLimit := BitVec.ofNat 32 (f 12 4) }
/-- SVC_ANSWER: the supervisor writes the block of the context that the event names, which resumes. With `ok` it sets what it grants the tenant of the
event instead (log 56). -/
def svcAnswer (s : State) : State :=
  let c : CtxId := ⟨s.arg.die, s.arg.core, s.arg.ctx⟩
  if s.arg.ok then setTenant s.arg.tenant s.arg.data s
  else match (s.ctx c).svc with
  | none => s
  | some (a, n) =>
    (forEach (svcWrites s (s.ctx c).b.tenant n) (fun w => csWrite c.coreId (a + w.1) w.2) s).modCtx c fun x => { x with svc := none }
/-- SVC_ANSWER (R419). -/
def execSvcAnswer (s : State) : Host.Outcome State Fault Refusal := .next (svcAnswer s)

/-- Plan of SVC: Asks the supervisor for a service and freezes until it writes the block. (R419) -/
def planSvc (x : Code7) (n : BitVec 8) : Plan := planCx true x (svcOut n)
/-- SVC (R419). -/
def execSvc (x : Code7) (n : BitVec 8) (s : State) : Host.Outcome State Fault Refusal := runPlan (planSvc x n) s

/-- Plan of NTFY: Fences and queues a NOTIFY to the tenant. (R418) -/
def planNtfy (x : Code7) (code : BitVec 16) : Plan := planCx true x (ntfyOut code)
/-- NTFY (R418). -/
def execNtfy (x : Code7) (code : BitVec 16) (s : State) : Host.Outcome State Fault Refusal := runPlan (planNtfy x code) s

end Sys2Proof.Machine
end

