-- ==== Sys2Proof/Machine/PlanOf.lean ====
section
/-! DEFINITION. The plan of every instruction of a bundle, by constructor, with the slice specs and registers it names, for the issue of a
bundle and for the code scanner. -/

namespace Sys2Proof.Machine

/-- The plan of a slot instruction; an event has no slot and its plan does nothing. -/
def planOf (i : Instr) : Plan :=
  match i with
  | .add d x y => planAdd d x y
  | .sub d x y => planSub d x y
  | .addw d x y => planAddw d x y
  | .subw d x y => planSubw d x y
  | .mul d x y => planMul d x y
  | .mulh d x y => planMulh d x y
  | .mulhu d x y => planMulhu d x y
  | .mulw d x y => planMulw d x y
  | .div d x y => planDiv d x y
  | .divu d x y => planDivu d x y
  | .rem d x y => planRem d x y
  | .remu d x y => planRemu d x y
  | .and d x y => planAnd d x y
  | .or d x y => planOr d x y
  | .xor d x y => planXor d x y
  | .andn d x y => planAndn d x y
  | .shl d x y => planShl d x y
  | .shr d x y => planShr d x y
  | .sar d x y => planSar d x y
  | .rot d x y => planRot d x y
  | .min d x y => planMin d x y
  | .max d x y => planMax d x y
  | .minu d x y => planMinu d x y
  | .maxu d x y => planMaxu d x y
  | .cmpEq d x y => planCmpEq d x y
  | .cmpNe d x y => planCmpNe d x y
  | .cmpLt d x y => planCmpLt d x y
  | .cmpGe d x y => planCmpGe d x y
  | .cmpLtu d x y => planCmpLtu d x y
  | .cmpGeu d x y => planCmpGeu d x y
  | .addi d x imm => planAddi d x imm
  | .andi d x imm => planAndi d x imm
  | .shli d x imm => planShli d x imm
  | .shri d x imm => planShri d x imm
  | .sari d x imm => planSari d x imm
  | .ldi d hi lo n => planLdi d hi lo n
  | .lea d x y n => planLea d x y n
  | .sextB d x => planSextB d x
  | .sextH d x => planSextH d x
  | .sextW d x => planSextW d x
  | .zextB d x => planZextB d x
  | .zextH d x => planZextH d x
  | .zextW d x => planZextW d x
  | .clz d x => planClz d x
  | .ctz d x => planCtz d x
  | .popc d x => planPopc d x
  | .fadd d x y => planFadd d x y
  | .fsub d x y => planFsub d x y
  | .fmul d x y => planFmul d x y
  | .fmin d x y => planFmin d x y
  | .fmax d x y => planFmax d x y
  | .fcmpEq d x y => planFcmpEq d x y
  | .fcmpLt d x y => planFcmpLt d x y
  | .fcmpLe d x y => planFcmpLe d x y
  | .fcmpUn d x y => planFcmpUn d x y
  | .fcvtF32I32 d x => planFcvtF32I32 d x
  | .fcvtI32F32 d x => planFcvtI32F32 d x
  | .fcvtI32F32Rz d x => planFcvtI32F32Rz d x
  | .fcvtBf16F32 d x => planFcvtBf16F32 d x
  | .fcvtF32Bf16 d x => planFcvtF32Bf16 d x
  | .fcvtF16F32 d x => planFcvtF16F32 d x
  | .fcvtF32F16 d x => planFcvtF32F16 d x
  | .fcvtF32I64 d x => planFcvtF32I64 d x
  | .fdiv d x y => planFdiv d x y
  | .fsqrt d x => planFsqrt d x
  | .sett k x => planSett k x
  | .rdt d k => planRdt d k
  | .rdsys d n => planRdsys d n
  | .wrsys n x => planWrsys n x
  | .mov d x => planMov d x
  | .ldB d base imm => planLdB d base imm
  | .ldBu d base imm => planLdBu d base imm
  | .ldH d base imm => planLdH d base imm
  | .ldHu d base imm => planLdHu d base imm
  | .ldW d base imm => planLdW d base imm
  | .ldWu d base imm => planLdWu d base imm
  | .ldD d base imm => planLdD d base imm
  | .stB data base imm => planStB data base imm
  | .stH data base imm => planStH data base imm
  | .stW data base imm => planStW data base imm
  | .stD data base imm => planStD data base imm
  | .ldmr sl base imm => planLdmr sl base imm
  | .stmr sl base imm => planStmr sl base imm
  | .xlat h off imm => planXlat h off imm
  | .hrel h => planHrel h
  | .hinfo d h => planHinfo d h
  | .ldhW d h off imm => planLdhW d h off imm
  | .ldhD d h off imm => planLdhD d h off imm
  | .sthW data h off imm => planSthW data h off imm
  | .sthD data h off imm => planSthD data h off imm
  | .amoSwap d h off sz scope => planAmoSwap d h off sz scope
  | .amoAdd d h off sz scope => planAmoAdd d h off sz scope
  | .amoAnd d h off sz scope => planAmoAnd d h off sz scope
  | .amoOr d h off sz scope => planAmoOr d h off sz scope
  | .amoXor d h off sz scope => planAmoXor d h off sz scope
  | .amoMin d h off sz scope => planAmoMin d h off sz scope
  | .amoMax d h off sz scope => planAmoMax d h off sz scope
  | .amoMinu d h off sz scope => planAmoMinu d h off sz scope
  | .amoMaxu d h off sz scope => planAmoMaxu d h off sz scope
  | .amoFadd d h off sz scope => planAmoFadd d h off sz scope
  | .amoc d h off sz scope => planAmoc d h off sz scope
  | .pref h off imm => planPref h off imm
  | .vadd t d a b rel => planVadd t d a b rel
  | .vsub t d a b rel => planVsub t d a b rel
  | .vmul t d a b rel => planVmul t d a b rel
  | .vfma t d a b rel => planVfma t d a b rel
  | .vfms t d a b rel => planVfms t d a b rel
  | .vmin t d a b rel => planVmin t d a b rel
  | .vmax t d a b rel => planVmax t d a b rel
  | .vabs t d a rel => planVabs t d a rel
  | .vneg t d a rel => planVneg t d a rel
  | .vadds t d a x rel => planVadds t d a x rel
  | .vmuls t d a x rel => planVmuls t d a x rel
  | .vfmas t d a x rel => planVfmas t d a x rel
  | .vexp2 d a rel => planVexp2 d a rel
  | .vlog2 d a rel => planVlog2 d a rel
  | .vrcp d a rel => planVrcp d a rel
  | .vrsq d a rel => planVrsq d a rel
  | .vsqrt d a rel => planVsqrt d a rel
  | .vcvt t d a src part rel => planVcvt t d a src part rel
  | .vqnt t d a x rel => planVqnt t d a x rel
  | .vdqnt t d a x rel => planVdqnt t d a x rel
  | .vand d a b rel => planVand d a b rel
  | .vor d a b rel => planVor d a b rel
  | .vxor d a b rel => planVxor d a b rel
  | .vshl t d a b rel => planVshl t d a b rel
  | .vshr t d a b rel => planVshr t d a b rel
  | .vsar t d a b rel => planVsar t d a b rel
  | .vcmpEq t fb x y rel => planVcmpEq t fb x y rel
  | .vcmpNe t fb x y rel => planVcmpNe t fb x y rel
  | .vcmpLt t fb x y rel => planVcmpLt t fb x y rel
  | .vcmpLe t fb x y rel => planVcmpLe t fb x y rel
  | .vcmpGt t fb x y rel => planVcmpGt t fb x y rel
  | .vcmpGe t fb x y rel => planVcmpGe t fb x y rel
  | .vcmpUn t fb x y rel => planVcmpUn t fb x y rel
  | .vblend t d a b rel => planVblend t d a b rel
  | .vredsum t d a rel => planVredsum t d a rel
  | .vredmax t d a rel => planVredmax t d a rel
  | .vredmin t d a rel => planVredmin t d a rel
  | .vbcast t d a k rel => planVbcast t d a k rel
  | .vmov d a rel => planVmov d a rel
  | .vslide t d a sh rel => planVslide t d a sh rel
  | .vslide2 t d a b rel => planVslide2 t d a b rel
  | .vmacw t d a b rel => planVmacw t d a b rel
  | .vnar t d a sh rel => planVnar t d a sh rel
  | .vperm t d a b rel => planVperm t d a b rel
  | .vzrd d z rho g rel => planVzrd d z rho g rel
  | .vzrdL d z rho g rel => planVzrdL d z rho g rel
  | .vzwr d z rho g rel => planVzwr d z rho g rel
  | .vzero d rel => planVzero d rel
  | .viota t d rel => planViota t d rel
  | .mmaS z dA dB tA tB acc mx dual bt sclsrc dSA dSB => planMmaS z dA dB tA tB acc mx dual bt sclsrc dSA dSB
  | .mmaV z dA dB tA tB acc mx dual bt sclsrc dSA dSB => planMmaV z dA dB tA tB acc mx dual bt sclsrc dSA dSB
  | .mmaSg z dA dB tA tB acc mx dual bt g r => planMmaSg z dA dB tA tB acc mx dual bt g r
  | .mmaVg z dA dB tA tB acc mx dual bt g r => planMmaVg z dA dB tA tB acc mx dual bt g r
  | .mmaQ z dA dB tA tB acc mx dual bt x => planMmaQ z dA dB tA tB acc mx dual bt x
  | .zalloc z rows1 cols1 dual => planZalloc z rows1 cols1 dual
  | .zfree z => planZfree z
  | .zswap z => planZswap z
  | .zzero z both => planZzero z both
  | .mwait z => planMwait z
  | .chbeg sl z dA tQ dual mask x => planChbeg sl z dA tQ dual mask x
  | .chblk sl dA dB dM tK tV => planChblk sl dA dB dM tK tV
  | .chend sl => planChend sl
  | .chfin sl dA n => planChfin sl dA n
  | .chmrg sA sB => planChmrg sA sB
  | .chst sl x => planChst sl x
  | .chld sl z x => planChld sl z x
  | .chscl sl x => planChscl sl x
  | .scl latch row m => planScl latch row m
  | .sxv latch row m => planSxv latch row m
  | .sts latch row m => planSts latch row m
  | .cpy ch x n dw k => planCpy ch x n dw k
  | .cpwp d ch => planCpwp d ch
  | .cpwait ch x => planCpwait ch x
  | .cpabort ch => planCpabort ch
  | .barinit x y => planBarinit x y
  | .barexp x y => planBarexp x y
  | .bararr x y => planBararr x y
  | .barwait x y => planBarwait x y
  | .bartst d x => planBartst d x
  | .wopen w x => planWopen w x
  | .wadv w x => planWadv w x
  | .wclose w => planWclose w
  | .wstat d w => planWstat d w
  | .rres d x => planRres d x
  | .rpub x y => planRpub x y
  | .rtake x y => planRtake x y
  | .rrel x y => planRrel x y
  | .bgive home buf rcv => planBgive home buf rcv
  | .btake home buf n => planBtake home buf n
  | .bopen buf src ch => planBopen buf src ch
  | .bclose buf src ch => planBclose buf src ch
  | .fset n x => planFset n x
  | .faddFlag n x d => planFaddFlag n x d
  | .fwait n x => planFwait n x
  | .fwaiteq n x => planFwaiteq n x
  | .sbind p dir wd sx x y => planSbind p dir wd sx x y
  | .sbindWindow p dir wd sx w => planSbindWindow p dir wd sx w
  | .sunb p => planSunb p
  | .spos d p => planSpos d p
  | .tdset k x => planTdset k x
  | .tdget d k q => planTdget d k q
  | .loop x n => planLoop x n
  | .loopi lo hi n => planLoopi lo hi n
  | .ploop x n s1 e => planPloop x n s1 e
  | .lexit k => planLexit k
  | .setti k imm => planSetti k imm
  | .drain scope => planDrain scope
  | .fenceAcq scope => planFenceAcq scope
  | .fenceRel scope => planFenceRel scope
  | .tspawn x y => planTspawn x y
  | .tspawnG x y n => planTspawnG x y n
  | .tarm x y => planTarm x y
  | .tsig x => planTsig x
  | .texit x => planTexit x
  | .tsetq x p => planTsetq x p
  | .tsetqSelf p => planTsetqSelf p
  | .bsync scope => planBsync scope
  | .put x => planPut x
  | .get x => planGet x
  | .ramo x => planRamo x
  | .lbopen n x => planLbopen n x
  | .lbsend n x lk m => planLbsend n x lk m
  | .lbfree n => planLbfree n
  | .lbfreeClose n => planLbfreeClose n
  | .cgrp x scope op tout => planCgrp x scope op tout
  | .cgrpTeam scope op tout => planCgrpTeam scope op tout
  | .cbr t k => planCbr t k
  | .cbrWait t => planCbrWait t
  | .reconf x n => planReconf x n
  | .trap code => planTrap code
  | .svc x n => planSvc x n
  | .ntfy x code => planNtfy x code
  | .bundleIssue => Plan.nop .c
  | .dictionaryFill => Plan.nop .c
  | .resultLanding => Plan.nop .c
  | .trapEntry => Plan.nop .c
  | .maxrunExceeded => Plan.nop .c
  | .nop => planNop
  | .nopL => planNopL
  | .ldhReply => Plan.nop .c
  | .accessPerform => Plan.nop .c
  | .refusal => Plan.nop .c
  | .refusalRetry => Plan.nop .c
  | .forwardingPointer => Plan.nop .c
  | .nopV => planNopV
  | .nopM => planNopM
  | .mwaitAll => planMwaitAll
  | .commandIssue => Plan.nop .c
  | .commandComplete => Plan.nop .c
  | .nopS => planNopS
  | .nopC => planNopC
  | .copyEntryStart => Plan.nop .c
  | .copyRowDelivery => Plan.nop .c
  | .windowRowDelivery => Plan.nop .c
  | .windowRowStore => Plan.nop .c
  | .link => planLink
  | .barrierRelease => Plan.nop .c
  | .remoteRequest => Plan.nop .c
  | .putAck => Plan.nop .c
  | .getData => Plan.nop .c
  | .ramoResult => Plan.nop .c
  | .lbMessage => Plan.nop .c
  | .cbrOutcome => Plan.nop .c
  | .collectiveTimeout => Plan.nop .c
  | .reconfMeet => Plan.nop .c
  | .crossconnectConfirm => Plan.nop .c
  | .reconfTimeout => Plan.nop .c
  | .tgack => planTgack
  | .tret => planTret
  | .tlbWalkComplete => Plan.nop .c
  | .faultAnswer => Plan.nop .c
  | .dispatchChoice => Plan.nop .c
  | .preemptWithdraw => Plan.nop .c
  | .scrubDone => Plan.nop .c
  | .coreScrub => Plan.nop .c
  | .gangStart => Plan.nop .c
  | .preemptionSave => Plan.nop .c
  | .restore => Plan.nop .c
  | .trackingPeriod => Plan.nop .c
  | .migrationSwitch => Plan.nop .c
  | .rowExchange => Plan.nop .c
  | .flitReceive => Plan.nop .c
  | .negativeAcknowledgement => Plan.nop .c
  | .ackTimeout => Plan.nop .c
  | .linkRetrain => Plan.nop .c
  | .linkTrainComplete => Plan.nop .c
  | .laneRepair => Plan.nop .c
  | .ptbTimeMessage => Plan.nop .c
  | .ptbMessageReceive => Plan.nop .c
  | .ptbParentLoss => Plan.nop .c
  | .launch => Plan.nop .c
  | .gang => Plan.nop .c
  | .mwrite => Plan.nop .c
  | .mwriteAck => Plan.nop .c
  | .mread => Plan.nop .c
  | .mreadReply => Plan.nop .c
  | .hostAccessTimeout => Plan.nop .c
  | .map => Plan.nop .c
  | .unmap => Plan.nop .c
  | .health => Plan.nop .c
  | .attest => Plan.nop .c
  | .attestCert => Plan.nop .c
  | .tkey => Plan.nop .c
  | .coldStart => Plan.nop .c
  | .warmStart => Plan.nop .c
  | .powerLimit => Plan.nop .c
  | .dieThrottle => Plan.nop .c
  | .hbmRefreshDouble => Plan.nop .c
  | .hbmThrottle => Plan.nop .c
  | .thermalTrip => Plan.nop .c
  | .coreError => Plan.nop .c
  | .dieThrottleRelease => Plan.nop .c
  | .hbmThrottleRelease => Plan.nop .c
  | .svcAnswer => Plan.nop .c
  | .rehashWalk => Plan.nop .c
  | .regionDescriptor => Plan.nop .c
  | .routerAdvertisement => Plan.nop .c
  | .addressLifetimeExpiry => Plan.nop .c
  | .icmpv6Request => Plan.nop .c
  | .correctedError => Plan.nop .c
  | .refreshWindow => Plan.nop .c

/-- The matrix registers that an instruction names in a slice spec, an LM slice or the m field of slot S (R132). -/
def regsOf (i : Instr) : List Nat :=
  match i with
  | .ldmr sl _ _ => [specReg sl]
  | .stmr sl _ _ => [specReg sl]
  | .vadd _ d a b _ => [specReg d, specReg a, specReg b]
  | .vsub _ d a b _ => [specReg d, specReg a, specReg b]
  | .vmul _ d a b _ => [specReg d, specReg a, specReg b]
  | .vfma _ d a b _ => [specReg d, specReg a, specReg b]
  | .vfms _ d a b _ => [specReg d, specReg a, specReg b]
  | .vmin _ d a b _ => [specReg d, specReg a, specReg b]
  | .vmax _ d a b _ => [specReg d, specReg a, specReg b]
  | .vabs _ d a _ => [specReg d, specReg a]
  | .vneg _ d a _ => [specReg d, specReg a]
  | .vadds _ d a _ _ => [specReg d, specReg a]
  | .vmuls _ d a _ _ => [specReg d, specReg a]
  | .vfmas _ d a _ _ => [specReg d, specReg a]
  | .vexp2 d a _ => [specReg d, specReg a]
  | .vlog2 d a _ => [specReg d, specReg a]
  | .vrcp d a _ => [specReg d, specReg a]
  | .vrsq d a _ => [specReg d, specReg a]
  | .vsqrt d a _ => [specReg d, specReg a]
  | .vcvt _ d a _ _ _ => [specReg d, specReg a]
  | .vqnt _ d a _ _ => [specReg d, specReg a]
  | .vdqnt _ d a _ _ => [specReg d, specReg a]
  | .vand d a b _ => [specReg d, specReg a, specReg b]
  | .vor d a b _ => [specReg d, specReg a, specReg b]
  | .vxor d a b _ => [specReg d, specReg a, specReg b]
  | .vshl _ d a b _ => [specReg d, specReg a, specReg b]
  | .vshr _ d a b _ => [specReg d, specReg a, specReg b]
  | .vsar _ d a b _ => [specReg d, specReg a, specReg b]
  | .vcmpEq _ _ x y _ => [specReg x, specReg y]
  | .vcmpNe _ _ x y _ => [specReg x, specReg y]
  | .vcmpLt _ _ x y _ => [specReg x, specReg y]
  | .vcmpLe _ _ x y _ => [specReg x, specReg y]
  | .vcmpGt _ _ x y _ => [specReg x, specReg y]
  | .vcmpGe _ _ x y _ => [specReg x, specReg y]
  | .vcmpUn _ _ x y _ => [specReg x, specReg y]
  | .vblend _ d a b _ => [specReg d, specReg a, specReg b]
  | .vredsum _ d a _ => [specReg d, specReg a]
  | .vredmax _ d a _ => [specReg d, specReg a]
  | .vredmin _ d a _ => [specReg d, specReg a]
  | .vbcast _ d a _ _ => [specReg d, specReg a]
  | .vmov d a _ => [specReg d, specReg a]
  | .vslide _ d a _ _ => [specReg d, specReg a]
  | .vslide2 _ d a b _ => [specReg d, specReg a, specReg b]
  | .vmacw _ d a b _ => [specReg d, specReg a, specReg b]
  | .vnar _ d a _ _ => [specReg d, specReg a]
  | .vperm _ d a b _ => [specReg d, specReg a, specReg b]
  | .vzrd d _ _ _ _ => [specReg d]
  | .vzrdL d _ _ _ _ => [specReg d]
  | .vzwr d _ _ _ _ => [specReg d]
  | .vzero d _ => [specReg d]
  | .viota _ d _ => [specReg d]
  | .scl _ _ m => [m.toNat]
  | .sxv _ _ m => [m.toNat]
  | .sts _ _ m => [m.toNat]
  | _ => []

end Sys2Proof.Machine
end

