-- ==== Sys2Proof/Machine/Scan.lean ====
section
/-! DEFINITION. The code scanner (07 R100 to R110, R118, R119, R129 to R133, R135, R420): the legality of a bundle, the features and registers it
names, the walk of a code page, the check of a dictionary page, and what an unmap does to the page records. -/

namespace Sys2Proof.Machine

/-! ## One bundle (Table 07.23) -/

/-- The slots of a bundle with their instructions, in slot order. -/
def Bundle.ops (b : Bundle) : List (Slot × Instr) :=
  [(.a, b.a), (.b, b.b), (.l, b.l), (.v, b.v), (.m, b.m), (.c, b.c), (.s, b.s)]
/-- The mask field of a slot; slot S has none and executes on every leaf (R104). -/
def FH.mask (h : FH) : Slot → BitVec 5
  | .a => h.maskA | .b => h.maskB | .l => h.maskL | .v => h.maskV | .m => h.maskM | .c => h.maskC
  | .s => 31 | .tree => 0
/-- The six masks. -/
def FH.masks (h : FH) : List (BitVec 5) := [h.maskA, h.maskB, h.maskL, h.maskV, h.maskM, h.maskC]
/-- The consumer codes on the ports. -/
def FH.ports (h : FH) : List Nat :=
  [h.port0, h.port1, h.port2, h.port3, h.port4, h.port5].map BitVec.toNat
/-- A consumer code as slot B has it (Table 07.4). -/
def portCode (sl : Slot) (k : Nat) : Nat := if sl = .b then k + 2 else k
/-- The operand fields of a bundle with their consumer codes. -/
def Bundle.srcs (b : Bundle) : List (Nat × Code7) :=
  (Bundle.ops b).flatMap fun p => (planOf p.2).srcs.map fun q => (portCode p.1 q.1, q.2)
/-- The destination fields of a bundle. -/
def Bundle.dsts (b : Bundle) : List Code7 := (Bundle.ops b).filterMap fun p => (planOf p.2).dst
/-- Consumer codes of the s-register reads (R106). -/
def Bundle.needs (b : Bundle) : List Nat := ((Bundle.srcs b).filter fun q => decide (q.2.toNat < 0x40)).map Prod.fst
/-- The ports carry each needed consumer as often as it is needed, and no other (R106). -/
def portsOk (b : Bundle) : Bool :=
  (List.range 16).all fun k => k == 0 || (FH.ports b.h).count k == (Bundle.needs b).count k
/-- No element of a list occurs twice. -/
def distinct : List Nat → Bool
  | [] => true
  | a :: r => !r.contains a && distinct r
/-- The stream-port rules of R110. -/
def streamsOk (b : Bundle) : Bool :=
  let ins := (Bundle.srcs b).filterMap fun q => portOf q.2
  let outs := (Bundle.dsts b).filterMap fun d => if 0x40 ≤ d.toNat ∧ d.toNat < 0x48 then some (d.toNat - 0x40) else none
  distinct ins && distinct outs && ins.all fun n => !outs.contains n
/-- The tree fields (R118, R119). -/
def treeOk (f : FT) : Bool :=
  let n := f.shape.toNat
  decide (n ≤ 22) && (List.range 4).all (fun k => decide (k < treeTests n) || FT.test f k == 0) &&
  (List.range 5).all fun k => decide (k < treeLeaves n) || FT.leaf f k == 0
/-- The form in which the masks of a place are read (R105): `entry` is a dictionary entry, which has no place. -/
inductive MaskForm where
  | leaf | stage | entry
  deriving DecidableEq, Repr
/-- A mask field is legal in a form under a tree with `n` leaves. -/
def maskOk (n : Nat) (m : BitVec 5) : MaskForm → Bool
  | .leaf => decide (m.toNat < 2 ^ n)
  | .stage => decide (m.toNat < 8)
  | .entry => decide (m.toNat < 2 ^ n) || decide (m.toNat < 8)
/-- The leaf of CBR exists (R398). -/
def cbrLeafOk (n : Nat) : Instr → Bool
  | .cbr _ k => decide (k.toNat < n)
  | _ => true
/-- A bundle whose slots decode is legal in a form. -/
def legal (b : Bundle) (form : MaskForm) : Bool :=
  let n := treeLeaves b.f.shape.toNat
  b.h.res0 == 0 && b.h.res1 == 0 && treeOk b.f && (FH.masks b.h).all (fun m => maskOk n m form) && portsOk b && streamsOk b &&
  cbrLeafOk n b.c
/-- A loop instruction. -/
def isLoop : Instr → Bool
  | .loop _ _ => true
  | .loopi _ _ _ => true
  | .ploop _ _ _ _ => true
  | _ => false
/-- The bundles in the static body of a PLOOP; 0 for any other bundle (R105). -/
def bodyLen (b : Bundle) : Nat :=
  match b.c with
  | .ploop _ n _ _ => n.toNat
  | _ => 0
/-- The FEAT bit of an array operand type (Table 07.24). -/
def typeFeat (t : BitVec 4) : BitVec 11 :=
  match t.toNat with
  | 5 => 2
  | 3 | 4 => 4
  | 12 | 13 | 14 => 8
  | 1 | 2 => 16
  | _ => 0
/-- The FEAT bits that an instruction needs beyond BASE (Table 07.24). -/
def opFeat (i : Instr) : BitVec 11 :=
  (match encM i with
    | some f => typeFeat f.tA ||| typeFeat f.tB
    | none => 0) |||
  (match i with
    | .chbeg _ _ _ _ _ _ _ | .chblk _ _ _ _ _ _ | .chend _ | .chfin _ _ _ | .chmrg _ _ | .chst _ _ | .chld _ _ _ | .chscl _ _ => 32
    | .mmaQ _ _ _ _ _ _ _ _ _ _ => 64
    | .mmaSg _ _ _ _ _ _ _ _ _ _ _ | .mmaVg _ _ _ _ _ _ _ _ _ _ _ => 128
    | .reconf _ _ => 512
    | .cgrp _ _ _ _ | .cgrpTeam _ _ _ | .cbr _ _ | .cbrWait _ => 1024
    | _ => 0)
/-- The features of a bundle. -/
def Bundle.feat (b : Bundle) : BitVec 11 := (Bundle.ops b).foldl (fun f p => f ||| opFeat p.2) 1
/-- The higher of two register indices, 0xFF for none. -/
def highOf (a b : Nat) : Nat := if a = 0xFF then b else if b = 0xFF then a else max a b
/-- The highest matrix register that a bundle names, 0xFF for none (R132). -/
def Bundle.high (b : Bundle) : Nat := ((Bundle.ops b).flatMap fun p => regsOf p.2).foldl highOf 0xFF

/-! ## One code page (R131) -/

/-- Code words of a page (R98). -/
def pageWords : Nat := 32768
/-- A bundle found on a page: its word, its dictionary index if any, its bits; none for an entry on a dictionary page that is not mapped now (R420). -/
structure Found where
  at' : Nat
  idx : Option Nat
  b : Option Bundle
/-- The decoded literal whose first word after the escape is word w. -/
def litBits (word : Nat → W16) (w : Nat) : BitVec 384 :=
  BitVec.ofNat 384 ((List.range 24).foldr (fun i v => v * 2 ^ 16 + (word (w + i)).toNat) 0)
/-- The walk of a page's code words: the bundles, the escape of a literal that goes on to the next page, and the number of words on the
next page at which its walk begins; none where the page is refused. -/
def walkPage (word : Nat → W16) (dictn : Nat) (entry : Nat → Option (Option Bundle)) : Nat → Nat → Option (List Found × Option Nat × Nat)
  | 0, _ => none
  | f + 1, w =>
    if pageWords ≤ w then some ([], none, w - pageWords)
    else
      let v := (word w).toNat
      let go (x : Found) (n : Nat) : Option (List Found × Option Nat × Nat) :=
        (walkPage word dictn entry f (w + n)).map fun r => (x :: r.1, r.2)
      if v = 0xFFFE then none
      else if v = 0xFFFF then
        (if pageWords < w + 25 then some ([], some w, w + 25 - pageWords)
         else match decodeBundle (litBits word (w + 1)) with
           | some b => go ⟨w, none, some b⟩ 25
           | none => none)
      else if dictn ≤ v then none
      else match entry v with
        | some b => go ⟨w, some v, b⟩ 1
        | none => none
/-- The longest static body of a PLOOP. -/
def bodyMax : Nat := 4095
/-- The mask forms of a page's bundles in order (R105). `m` tells by its bits how many bundles a PLOOP's static body may still hold: it has one bit while every
bundle can be read; an entry that cannot be read now is a bundle of the body it stands in, or may begin a body of any length, and the page passes while some
reading of such entries makes it legal (R420). -/
def formsOk : Nat → List Found → Bool
  | m, [] => m.testBit 0
  | m, x :: r => match x.b with
    | none => formsOk (m / 2 ||| (if m.testBit 0 then 2 ^ (bodyMax + 1) - 1 else 0)) r
    | some b => formsOk ((if m.testBit 0 && legal b .leaf then 2 ^ bodyLen b else 0) ||| (if legal b .stage && !isLoop b.c then m / 2 else 0)) r
/-- The bundles found that can be read. -/
def bundlesOf (l : List Found) : List Bundle := l.filterMap Found.b
/-- The union of the features of some bundles (R132). -/
def featsOf (l : List Bundle) : BitVec 11 := l.foldl (fun f b => f ||| Bundle.feat b) 0
/-- The highest matrix register that some bundles name (R132). -/
def highsOf (l : List Bundle) : Nat := l.foldl (fun m b => highOf m (Bundle.high b)) 0xFF
/-- The two values of R132 of each dictionary entry that a page's words name: an entry that cannot be read now keeps those recorded for it. -/
def usesOf (old : List (Nat × BitVec 11 × Nat)) (l : List Found) : List (Nat × BitVec 11 × Nat) :=
  l.filterMap fun x => x.idx.map fun n => match x.b with
    | some b => (n, Bundle.feat b, Bundle.high b)
    | none => (old.find? fun e => e.1 == n).getD (n, 0, 0xFF)
/-- The two values of R132 of a code page, without a literal that goes on to the next page: those of its literals and of the entries that its words name. -/
def ownOf (uses : List (Nat × BitVec 11 × Nat)) (l : List Found) : BitVec 11 × Nat :=
  let lits := bundlesOf (l.filter fun x => x.idx.isNone)
  (uses.foldl (fun f e => f ||| e.2.1) (featsOf lits) ||| 1, uses.foldl (fun m e => highOf m e.2.2) (highsOf lits))
/-- The start bitmap of the bundles found. -/
def bitmapOf (l : List Found) : Nat := l.foldl (fun m x => m ||| 2 ^ x.at') 0

/-! ## Pages of a kernel (R129, R130, R132, R420) -/

/-- A 16-bit word at a tenant's VA, by the page tables. -/
def scanWord (s : State) (t : BitVec 4) (va : Nat) : W16 :=
  match walk s t (BitVec.ofNat 64 va) with
  | none => 0
  | some e =>
    let a := vaDpa e (BitVec.ofNat 64 va)
    dpaRead s (reach s (pteView e) (a + 1)) ++ dpaRead s (reach s (pteView e) a)
/-- The first and last page of a kernel's dictionary; none without entries (R129). -/
def dictPages (h : Hdr) : List Nat :=
  if h.dictn = 0 then []
  else
    let a := h.dict.toNat / 2 ^ 16
    (List.range ((h.dict.toNat + 48 * h.dictn - 1) / 2 ^ 16 - a + 1)).map fun i => (a + i) * 2 ^ 16
/-- A usable page record. -/
def goodPage (s : State) (t : BitVec 4) (va : Nat) (h : Hdr) (dict : Bool) : Option PageRec :=
  match pageOf s t va with
  | none => none
  | some p => if p.refused.isNone && p.isDict == dict && p.serves h then some p else none
/-- Every page of the dictionary is mapped executable and checked. -/
def dictReady (s : State) (t : BitVec 4) (h : Hdr) : Bool := (dictPages h).all fun p => (goodPage s t p h true).isSome
/-- The bits of dictionary entry n (R95). -/
def entryBits (s : State) (t : BitVec 4) (h : Hdr) (n : Nat) : BitVec 384 :=
  litBits (fun i => scanWord s t (h.dict.toNat + 48 * n + 2 * i)) 0
/-- The pages that an entry lies on. -/
def entryPages (h : Hdr) (n : Nat) : List Nat :=
  let a := h.dict.toNat + 48 * n
  [a / 2 ^ 16 * 2 ^ 16, (a + 47) / 2 ^ 16 * 2 ^ 16]
/-- The entries that lie wholly or partly on a dictionary page. -/
def entriesOn (h : Hdr) (page : Nat) : List Nat := (List.range h.dictn).filter fun n => (entryPages h n).contains page
/-- The decoded entry, if it is legal without a place. -/
def entryOf (s : State) (t : BitVec 4) (h : Hdr) (n : Nat) : Option Bundle :=
  match decodeBundle (entryBits s t h n) with
  | some b => if legal b .entry then some b else none
  | none => none
/-- A record of a page of a kernel, with nothing found yet. -/
def pageRec (t : BitVec 4) (va : Nat) (dict : Bool) (h : Hdr) : PageRec :=
  { tenant := t, vpage := va, isDict := dict, code := h.code, dict := h.dict, dictn := h.dictn, featreq := h.featreq, starts := 0,
    pending := none, from0 := 0, endAt := 0, feat := 0, high := 0xFF, own := (0, 0xFF), uses := [], refused := none }
/-- A refused page keeps the cause of a fetch from it, and the features for which it was refused (R133). -/
def refusedPage (t : BitVec 4) (va : Nat) (dict : Bool) (h : Hdr) (f : BitVec 11) : PageRec :=
  { pageRec t va dict h with refused := some 0x10, feat := f }
/-- Store a page record. -/
def putPage (p : PageRec) (s : State) : State :=
  { s with pages := p :: s.pages.filter fun q => !(q.tenant == p.tenant && q.vpage == p.vpage) }
/-- Remove a page record. -/
def dropPage (t : BitVec 4) (va : Nat) (s : State) : State := { s with pages := s.pages.filter fun q => !(q.tenant == t && q.vpage == va) }
/-- Features that a page may need: all in FEATREQ, and all provided by some die of the package, which the page is mapped for (R132, log 60). -/
def featOk (s : State) (h : Hdr) (f : BitVec 11) : Bool :=
  (f.setWidth 32 &&& ~~~h.featreq) == 0 && s.dies.toList.any fun d => (f &&& ~~~d.feat) == 0
/-- The entries on a dictionary page all of whose pages are mapped, the page itself counted as mapped. -/
def checkedOn (s : State) (t : BitVec 4) (va : Nat) (h : Hdr) : List Nat :=
  (entriesOn h va).filter fun n => (entryPages h n).all fun p => p == va || (goodPage s t p h true).isSome
/-- A dictionary page's record takes the two values of the entries on it that can be checked: of an entry over a page end, both pages record them
(R75, R132). -/
def refreshDict (t : BitVec 4) (va : Nat) (h : Hdr) (s : State) : State :=
  match goodPage s t va h true with
  | none => s
  | some p =>
    let bs := (checkedOn s t va h).filterMap (entryOf s t h)
    putPage { p with feat := featsOf bs, high := highsOf bs, own := (featsOf bs, highsOf bs) } s
/-- The records of the dictionary pages beside one follow a change of it. -/
def refreshBeside (t : BitVec 4) (va : Nat) (h : Hdr) (s : State) : State :=
  refreshDict t (va + 2 ^ 16) h (if 2 ^ 16 ≤ va then refreshDict t (va - 2 ^ 16) h s else s)
/-- Map a dictionary page: its entries are checked once every page they lie on is mapped (R130, R132). -/
def scanDict (t : BitVec 4) (va : Nat) (h : Hdr) (s : State) : State :=
  let here := checkedOn s t va h
  let bs := here.filterMap (entryOf s t h)
  let f := featsOf bs
  if bs.length ≠ here.length then putPage (refusedPage t va true h 0) s
  else if !featOk s h f then putPage (refusedPage t va true h f) s
  else refreshBeside t va h (refreshDict t va h (putPage (pageRec t va true h) s))
/-- The literal whose escape is word w of the page at va, read across the page end: none if it is illegal there. -/
def straddle (s : State) (t : BitVec 4) (va w : Nat) : Option Bundle :=
  match decodeBundle (litBits (fun i => scanWord s t (va + 2 * (w + 1) + 2 * i)) 0) with
  | some b => if legal b .leaf && bodyLen b == 0 then some b else none
  | none => none
/-- A checked straddling literal joins the record of the page on which it begins. -/
def joinLit (w : Nat) (b : Bundle) (p : PageRec) : PageRec :=
  { p with starts := p.starts ||| 2 ^ w, pending := none, feat := p.own.1 ||| Bundle.feat b, high := highOf p.own.2 (Bundle.high b) }
/-- The predecessor of a code page of a segment: the word at which the page's walk begins, with the predecessor's record. -/
def predOf (s : State) (t : BitVec 4) (va : Nat) (h : Hdr) : Option (Nat × Option PageRec) :=
  if va = h.code.toNat then some (0, none)
  else match goodPage s t (va - 2 ^ 16) h false with
    | some p => some (p.endAt, some p)
    | none => none
/-- Map a code page (R131, R132, R420). A literal that goes over a page end and fails its check refuses the page being mapped, whichever of the two pages that
is (DESIGN CHOICE, log 61: R131 and R420 only say when its bit is set). -/
def scanCode (t : BitVec 4) (va : Nat) (h : Hdr) (s : State) : State :=
  let bad (f : BitVec 11) : State := putPage (refusedPage t va false h f) s
  if !dictReady s t h || decide (va < h.code.toNat) then bad 0
  else match predOf s t va h with
    | none => bad 0
    | some (w0, pred) =>
      let carried : Option (Option (PageRec × Nat × Bundle)) := match pred with
        | some p => (match p.pending with
          | some w => (straddle s t p.vpage w).map fun b => some (p, w, b)
          | none => some none)
        | none => some none
      match carried, walkPage (fun w => scanWord s t (va + 2 * w)) h.dictn (fun n => (entryOf s t h n).map some) (pageWords + 1) w0 with
      | some c, some (l, tail, e) =>
        let next := goodPage s t (va + 2 ^ 16) h false
        let late : Option (Option (Nat × Bundle)) := match tail, next with
          | some w, some _ => (straddle s t va w).map fun b => some (w, b)
          | _, _ => some none
        match late with
        | none => bad 0
        | some lt =>
          let uses := usesOf [] l
          let own := ownOf uses l
          let all := featsOf ((c.map fun x => x.2.2).toList ++ (lt.map Prod.snd).toList) ||| own.1
          if !formsOk 1 l || (match next with
            | some n => n.from0 != e
            | none => false) then bad 0
          else if !featOk s h all then bad all
          else
            let r := { pageRec t va false h with
              starts := bitmapOf l, pending := tail, from0 := w0, endAt := e, feat := own.1, high := own.2, own := own, uses := uses }
            let r := match lt with
              | some (w, b) => joinLit w b r
              | none => r
            let s := match c with
              | some (p, w, b) => putPage (joinLit w b p) s
              | none => s
            putPage r s
      | _, _ => bad 0
/-- Scan a page mapped executable for a kernel: a dictionary page, or a code page (R129). -/
def scanPage (t : BitVec 4) (va : Nat) (h : Hdr) (s : State) : State :=
  if (dictPages h).contains va then scanDict t va h s else scanCode t va h s
/-- The dictionary entries that a code page's index words name. -/
def namedOn (s : State) (t : BitVec 4) (p : PageRec) : List Nat :=
  ((List.range pageWords).filter p.starts.testBit).filterMap fun w =>
    let v := (scanWord s t (p.vpage + 2 * w)).toNat
    if v = 0xFFFF then none else some v
/-- What the repeated checks of a code page come to: it fails, or its values are recorded afresh. -/
inductive Rescan where
  | fails
  | passes (p : PageRec)
/-- Repeat the per-use checks of a mapped code page of a kernel after a dictionary page was mapped again (R420); none where the page names no entry on
that dictionary page. Of an entry on another page, one that is not mapped now, what was recorded of it stands until that page is mapped. -/
def rescan (s : State) (t : BitVec 4) (dictVa : Nat) (h : Hdr) (p : PageRec) : Option Rescan :=
  let ps (n : Nat) : List Nat := entryPages h n
  if !((namedOn s t p).flatMap ps).contains dictVa then none
  else
    let entry (n : Nat) : Option (Option Bundle) :=
      if (ps n).all fun v => (goodPage s t v h true).isSome then (entryOf s t h n).map some else some none
    some <| match walkPage (fun w => scanWord s t (p.vpage + 2 * w)) h.dictn entry (pageWords + 1) p.from0 with
    | none => .fails
    | some (l, tail, _) =>
      let uses := usesOf p.uses l
      let own := ownOf uses l
      let q := { p with feat := own.1, high := own.2, own := own, uses := uses }
      let q := match tail.bind fun w => if p.starts.testBit w then (straddle s t p.vpage w).map fun b => (w, b) else none with
        | some (w, b) => joinLit w b q
        | none => q
      if formsOk 1 l && featOk s { h with featreq := p.featreq } q.feat then .passes q else .fails
/-- Repeat those checks for every code page of a kernel: the records of the pages that pass, and the pages that fail (R420). -/
def rescanAll (t : BitVec 4) (dictVa : Nat) (h : Hdr) (s : State) : List Nat × State :=
  (s.pages.filter fun p => p.tenant == t && !p.isDict && p.refused.isNone && p.serves h).foldl (fun r p =>
    match rescan r.2 t dictVa h p with
    | some .fails => (p.vpage :: r.1, r.2)
    | some (.passes q) => (r.1, putPage q r.2)
    | none => r) ([], s)
/-- What the unmap of an executable page does to the records (R135, R420): the record goes, the dictionary pages beside it no longer count entries that go
over to it, and a literal of the predecessor that
continues onto the page is pending again. -/
def unscan (t : BitVec 4) (va : Nat) (s : State) : State :=
  match pageOf s t va with
  | none => s
  | some p =>
    let s := dropPage t va s
    if p.refused.isSome then s
    else if p.isDict then refreshBeside t va { Hdr.none with code := p.code, dict := p.dict, dictn := p.dictn, featreq := p.featreq } s
    else match pageOf s t (va - 2 ^ 16) with
      | some q =>
        if !q.isDict && q.refused.isNone && q.code == p.code && decide (0 < q.endAt) && decide (q.vpage + 2 ^ 16 = va) then
          let w := pageWords + q.endAt - 25
          putPage { q with pending := some w, starts := if q.starts.testBit w then q.starts - 2 ^ w else q.starts, feat := q.own.1, high := q.own.2 } s
        else s
      | none => s
/-- Every core drops the cached dictionary entries that lie on a page (R135). -/
def dropDict (t : BitVec 4) (va : Nat) (s : State) : State :=
  forEach allCores (fun k s => s.modCore k fun x => { x with dict := x.dict.filter fun e =>
    !(e.tenant == t && (let a := e.dict.toNat + 48 * e.n
      decide (a < va + 2 ^ 16) && decide (va < a + 48))) }) s

end Sys2Proof.Machine
end

