-- ==== Sys2Proof/Machine/Supervisor.lean ====
section
/-! DEFINITION. The supervisor's side of translation (11 R169 to R177, R190, R198; 21 R330 to R338; 07 R133, R135): the check of a page-table
entry, mapping and unmapping with what they invalidate, walks, answers to page faults, the removal of a feature. -/

namespace Sys2Proof.Machine

/-! ## Ranges -/

/-- Two runs of numbers meet. -/
def runsMeet (a n b m : Nat) : Bool := decide (a < b + m) && decide (b < a + n)
/-- The 64 KiB page numbers of a run of bytes. -/
def pagesOf (a n : Nat) : List Nat := (List.range (cdiv n 0x10000)).map fun i => a / 0x10000 + i
/-- A mapping meets a run of VAs. -/
def mapMeets (m : Nat × W64) (va n : Nat) : Bool := runsMeet m.1 (pteSize m.2) va n
/-- The device-physical run of a mapping. -/
def mapDpa (m : Nat × W64) : Nat := pteDpa m.2
/-- A mapping holds an HBM page, by page number. -/
def mapHolds (m : Nat × W64) (page : Nat) : Bool :=
  dpaSpace (mapDpa m) == 0 && runsMeet (mapDpa m) (pteSize m.2) (page * 0x10000) 0x10000
/-- Some tenant maps an HBM page, with a test of the entry. -/
def mapped (s : State) (test : W64 → Bool) (page : Nat) : Bool :=
  s.tenants.toList.any fun t => t.maps.any fun m => mapHolds m page && test m.2

/-! ## DPIT flags (Table 11.3, R190, R194) -/

/-- A page lies in a view region. -/
def inRegion (s : State) (page : Nat) : Bool := (regionOf s (page * 0x10000)).isSome
/-- A domain of a stack is under rehash: the old one or the new one. -/
def domRehash (s : State) (stack dom : Nat) : Bool := (s.hbmStacks[(Fin.ofNat 8 stack).val]).rehash.any fun r => dom == r.1 || dom == r.2
/-- A page lies in a hash domain under rehash: the domain of its place now. -/
def inRehash (s : State) (page : Nat) : Bool :=
  let e := (dpitEntry s page).toNat
  domRehash s (bits e 20 3) (bits e 14 6)
/-- MIG, FIX and REG as they should stand, as entry bits. -/
def dpitFlags (s : State) (page : Nat) : Nat :=
  (if s.migs.any (fun m => m.page == page) then 2 ^ 31 else 0) +
  (if mapped s ptePin page || inRegion s page || inRehash s page then 2 ^ 30 else 0) + (if inRegion s page then 2 ^ 29 else 0)
/-- Bring MIG, FIX and REG of pages up to date. -/
def syncDpit (pages : List Nat) (s : State) : State :=
  forEach pages (fun p s => setDpit p (BitVec.ofNat 32 (bits (dpitEntry s p).toNat 0 23 + dpitFlags s p)) s) s

/-! ## Places (R172, R173, R195 to R198) -/

/-- STACK and LPAGE of a DPIT entry. -/
def entryPlace (e : BitVec 32) : Nat × Nat := (bits e.toNat 20 3, bits e.toNat 0 20)
/-- Where a page is held now. -/
def placeNow (s : State) (page : Nat) : Nat × Nat := entryPlace (dpitEntry s page)
/-- The page whose entry names a place: the entries are a permutation of the start-up ones (log 41). -/
def pageAt (s : State) (p : Nat × Nat) : Nat :=
  match s.dpit.find? fun e => entryPlace e.2 == p with
  | some e => e.1
  | none => p.1 * 2 ^ 21 + p.2
/-- Key of the first byte of a place in the HBM contents. -/
def placeKey (p : Nat × Nat) : Nat := p.1 * 2 ^ 36 + p.2 * 2 ^ 16
/-- Set the place of a page, its flags kept. -/
def setPlace (page : Nat) (p : Nat × Nat) (s : State) : State :=
  setDpit page (BitVec.ofNat 32 ((dpitEntry s page).toNat / 2 ^ 23 * 2 ^ 23 + p.1 * 2 ^ 20 + p.2)) s
/-- A freed place holds nothing. -/
def clearPlace (p : Nat × Nat) (s : State) : State := { s with hbm := clearCells s.hbm (placeKey p) (placeKey p + 0x10000) }
/-- The HBM pages that some tenant maps, and those of the page tables (R330, log 40). -/
def usedPages (s : State) : List Nat :=
  (s.tenants.toList.flatMap fun t => t.maps.flatMap fun m =>
    if dpaSpace (mapDpa m) = 0 then pagesOf (mapDpa m) (pteSize m.2) else []) ++
  pagesOf ((7 * 2 ^ 37 + 2 ^ 36 - s.tables) / 0x10000 * 0x10000) (s.tables + 0xFFFF)
/-- The device-physical bytes that requests under way will reach by a translation made before: those of accesses, of rows, of host frames and of results of
RAMO (R176). -/
def cellsUnderWay (s : State) : List Nat :=
  (s.accesses.flatMap fun a => match a.loc with
    | .peer _ _ => []
    | .dpa d => (List.range a.size).map fun i => reach s a.view (d + i)) ++
  (s.rops.flatMap Rop.cells) ++
  (s.runs.flatMap fun r => (r.req.map PageReq.cells).getD []) ++
  allCores.flatMap fun k =>
    let q := s.core k
    (q.chans.toList.flatMap fun h => h.rows.flatMap fun r => (r.req.map PageReq.cells).getD []) ++
    q.wins.toList.flatMap fun w => w.rows.flatMap fun r => (r.req.map PageReq.cells).getD []
/-- The HBM pages of those bytes. -/
def pagesUnderWay (s : State) : List Nat := ((cellsUnderWay s).filter fun a => dpaSpace a == 0).map (· / 2 ^ 16)
/-- A place is kept: a copy is being made there, or an old copy there is not freed yet (R197). -/
def reserved (s : State) (p : Nat × Nat) : Bool := (s.migs ++ s.oldCopies).any fun m => (m.stack, m.lpage) == p
/-- Stack-local pages of a stack that some use keeps: a mapped page or a table stands there, a request under way goes there, or a copy is kept there. -/
def usedPlaces (s : State) (stack : Nat) : List Nat :=
  (((usedPages s ++ pagesUnderWay s).map (placeNow s)).filter (·.1 == stack)).map Prod.snd ++
  (((s.migs ++ s.oldCopies).filter fun m => m.stack == stack).map Mig.lpage)
/-- Stack-local pages of a stack in use, or with bytes that are not 0. -/
def takenPlaces (s : State) (stack : Nat) : List Nat :=
  usedPlaces s stack ++ ((sliceCells s.hbm (stack * 2 ^ 36) ((stack + 1) * 2 ^ 36)).map fun c => c.1 % 2 ^ 36 / 2 ^ 16)
/-- Pages of the view regions of the module. -/
def regionPages (s : State) : Nat := (s.hbmStacks.toList.map fun k => (k.regions.map fun d => cdiv (regRows d * regCols d * regE d) 0x10000).sum).sum
/-- The lowest free stack-local page of a domain of a stack, before others one whose bytes are all 0; a page of a view region, which has FIX, does not leave
its place (R195). -/
def freeIn (s : State) (stack dom : Nat) : Option Nat :=
  let find (l : List Nat) : Option Nat :=
    ((List.range (min 16384 (l.length + regionPages s + 1))).map fun i => dom * 16384 + i).find? fun p =>
      !l.contains p && !inRegion s (pageAt s (stack, p))
  (find (takenPlaces s stack)).orElse fun _ => find (usedPlaces s stack)
/-- The lowest free stack-local page of a stack, outside domains under rehash. -/
def freePlace (s : State) (stack : Nat) : Option Nat := firstSome (fun dom => if domRehash s stack dom then none else freeIn s stack dom) (List.range 64)
/-- The memory-side caches drop the lines of pages: a line stands only in front of the stack that holds it, and never for a page of a view region
(R173, R189). -/
def dropLines (pages : List Nat) (s : State) : State :=
  { s with dies := s.dies.map fun d => { d with msc := d.msc.filter fun l => !pages.contains (l / 256) } }
/-- Copies of pages are aborted and their destinations freed (R198). -/
def abortMigs (pages : List Nat) (s : State) : State :=
  let l := s.migs.filter fun m => pages.contains m.page
  forEach l (fun m => clearPlace (m.stack, m.lpage)) { s with migs := s.migs.filter fun m => !pages.contains m.page }
/-- A page that is about to be used stands at a place that is kept for a copy: it moves to a free place; with none left the copy is aborted, or the old
copy freed. -/
def makeRoom (page : Nat) (s : State) : State :=
  let p := placeNow s page
  if !reserved s p then s
  else match freePlace s p.1 with
    | some l => setPlace (pageAt s (p.1, l)) p (setPlace page (p.1, l) s)
    | none =>
      let l := (s.migs.filter fun m => (m.stack, m.lpage) == p).map Mig.page
      clearPlace p (syncDpit l (abortMigs l { s with oldCopies := s.oldCopies.filter fun m => (m.stack, m.lpage) != p }))

/-! ## Page tables (R330) -/

/-- Write an 8-byte table entry. -/
def wrTable (a : Nat) (e : W64) (s : State) : State := dpaStore 0 a (toBytes 8 e.toNat) s
/-- Bytes of a table of a level (Table 21.1). -/
def tableBytes (l : Nat) : Nat := 8 * 2 ^ (walkField l).2
/-- A fresh table of a level, its entries 0: tables fill the range of stack 7 from its top (log 40). -/
def newTable (l : Nat) (s : State) : Nat × State :=
  let a := 7 * 2 ^ 37 + 2 ^ 36 - s.tables - tableBytes l
  (a, forEach (List.range (tableBytes l)) (fun i => dpaWrite (a + i) 0) { s with tables := s.tables + tableBytes l })
/-- A directory entry for a table (R330). -/
def dirEntry (a : Nat) : W64 := BitVec.ofNat 64 (2 ^ 63 + 2 ^ 54 + a)
/-- Write a leaf at the place of a VA, with the directories above it. -/
def mapLeaf (va : Nat) (pte : W64) : Nat → Nat → Nat → State → State
  | 0, _, _, s => s
  | f + 1, l, table, s =>
    let w := walkField l
    let a := table + 8 * bits va w.1 w.2
    if walkSize l = some (bits pte.toNat 55 2) then wrTable a pte s
    else
      let e := rdTable s a
      if pteV e && e.getLsbD 54 then mapLeaf va pte f (l + 1) (bits e.toNat 8 36 * 2 ^ 8) s
      else
        let n := newTable (l + 1) s
        mapLeaf va pte f (l + 1) n.1 (wrTable a (dirEntry n.1) n.2)
/-- Write a leaf for a tenant; the list of its mappings follows. -/
def putLeaf (t : BitVec 4) (va : Nat) (pte : W64) (s : State) : State :=
  (mapLeaf va pte 4 0 (s.ten t).root s).modTen t fun x => { x with maps := if pteV pte then (va, pte) :: x.maps else x.maps }

/-! ## Unmapping (R176, R198, R333, R135) -/

/-- A handle of a tenant's context references a page in a run of VAs (R176). -/
def Handle.meets (h : Handle) (va n : Nat) : Bool :=
  h.valid && h.space != 3#2 && runsMeet (h.page.toNat * 0x10000) h.bytes va n
/-- A handle that has lost its page. -/
def Handle.drop (va n : Nat) (h : Handle) : Handle := if h.meets va n then { h with valid := false } else h
/-- The handles of a context lose the pages of a run, those still in flight as well. -/
def Ctx.dropHandles (va n : Nat) (x : Ctx) : Ctx :=
  { x with
    h := x.h.map (Handle.drop va n)
    flights := x.flights.map fun f => match f.act with
      | .handle i h => { f with act := .handle i (h.drop va n) }
      | _ => f }
/-- Every handle of a tenant on a run of VAs loses its valid bit, saved tasks' handles too (R176, R177). -/
def dropHandles (t : BitVec 4) (va n : Nat) (s : State) : State :=
  let one (x : Ctx) : Ctx := if x.b.tenant = t then x.dropHandles va n else x
  let s := forEach allCores (fun k s => s.modCore k fun q => { q with ctxs := q.ctxs.map one }) s
  { s with saved := s.saved.map fun v => { v with ctx := one v.ctx } }
/-- Every TLB of the package loses a tenant's entries on a run of VAs (R333). -/
def dropTlbs (t : BitVec 4) (va n : Nat) (s : State) : State :=
  let keep (e : TlbEnt) : Bool := !(e.tenant == t && runsMeet e.vpage (pteSize e.pte) va n)
  { s with dies := s.dies.map fun d => { d with tlb := d.tlb.filter keep, cores := d.cores.map fun k => { k with tlb := k.tlb.filter keep } } }
/-- Remove one mapping of a tenant. -/
def unmapOne (t : BitVec 4) (m : Nat × W64) (s : State) : State :=
  let n := pteSize m.2
  let s := putLeaf t m.1 (m.2 &&& (BitVec.ofNat 64 (2 ^ 63 - 1))) s
  let s := s.modTen t fun x => { x with maps := x.maps.filter (· != m) }
  let s := dropHandles t m.1 n (dropTlbs t m.1 n s)
  let s := forEach ((pagesOf m.1 n).filter fun p => (pageOf s t (p * 0x10000)).isSome) (fun p s =>
    dropDict t (p * 0x10000) (unscan t (p * 0x10000) s)) s
  if dpaSpace (mapDpa m) = 0 then syncDpit (pagesOf (mapDpa m) n) (abortMigs (pagesOf (mapDpa m) n) s) else s
/-- Remove every mapping of a tenant that meets a run of VAs. -/
def dropRange (t : BitVec 4) (va n : Nat) (s : State) : State :=
  forEach ((s.ten t).maps.filter fun m => mapMeets m va n) (unmapOne t) s

/-! ## Mapping (R170, R203, R204, R135, R133) -/

/-- The entry names a DPA that exists in its space (Table 11.1). -/
def dpaLegal (a : Nat) : Bool :=
  match dpaSpace a with
  | 0 => !a.testBit 36
  | 1 => bits a 30 10 == 0
  | 2 => true
  | _ => false
/-- An entry for a VA that the supervisor refuses (R170, R203, R204). -/
def pteRefused (s : State) (t : BitVec 4) (va : Nat) (e : W64) : Bool :=
  let n := pteSize e
  let a := pteDpa e
  bits e.toNat 55 2 == 3 || pteView e == 3#2 || bits e.toNat 44 11 != 0 || bits e.toNat 0 16 != 0 || decide (2 ^ 48 ≤ va) ||
  va % n != 0 || a % n != 0 || !dpaLegal a || (dpaSpace a == 1 && bits e.toNat 55 2 == 2) ||
  (pteView e != 0#2 && (bits e.toNat 55 2 != 0 || (regionOf s a).isNone)) ||
  (dpaSpace a == 2 && (pteX e || decide ((s.ten t).window < a % 2 ^ 40 + n)))
/-- Clear W. -/
def noWrite (e : W64) : W64 := e &&& ~~~(1#64 <<< 59)
/-- Clear X. -/
def noExec (e : W64) : W64 := e &&& ~~~(1#64 <<< 58)
/-- Two mappings name common device-physical bytes. -/
def sameDpa (a b : W64) : Bool := runsMeet (pteDpa a) (pteSize a) (pteDpa b) (pteSize b)
/-- No tenant writes a page that is mapped executable: the other mappings of a page that becomes executable lose W (R135). -/
def lockCode (e : W64) (s : State) : State :=
  forEach (List.range 16) (fun i s =>
    let t := BitVec.ofNat 4 i
    forEach ((s.ten t).maps.filter fun m => pteW m.2 && sameDpa m.2 e) (fun m s => putLeaf t m.1 (noWrite m.2) (unmapOne t m s)) s) s
/-- A new entry as it is stored: without W where the page is executable here or for any tenant (R135). -/
def storedPte (s : State) (e : W64) : W64 :=
  if pteX e || s.tenants.toList.any (fun t => t.maps.any fun m => pteX m.2 && sameDpa m.2 e) then noWrite e else e
/-- What the supervisor has read of the kernel header at a VA from a host window. -/
def mapText (s : State) (t : BitVec 4) (va : W64) : HeadText := (s.mapHdrs.find? fun h => h.tenant == t && h.rec' == va).getD ⟨t, va, [], false, false⟩
/-- The kernel header at a VA as the supervisor reads it: the part of it on host-window pages by transfers (R203). -/
def mapHeader (s : State) (t : BitVec 4) (va : W64) : Text :=
  let x := mapText s t va
  if x.bad then .bad ⟨0x0E, va⟩ else textFrom s ⟨0, 0⟩ t va.toNat 64 3 x.got
/-- The header by which an executable page is scanned; an empty one where it cannot be read. -/
def headerAt (s : State) (t : BitVec 4) (va : W64) : Hdr :=
  match mapHeader s t va with
  | .done l => hdrOf l
  | _ => Hdr.none
/-- A transfer for the header by which an entry is to be scanned is out. -/
def headerOut (s : State) (t : BitVec 4) (e : W64) (va : W64) : Bool := pteX e && (mapText s t va).out
/-- Before an executable entry is mapped, the next bytes of its kernel header that lie in a host window are asked for; none where nothing is left to ask. -/
def askHeader (t : BitVec 4) (e va : W64) (s : State) : Option State :=
  if !pteX e then none
  else match mapHeader s t va with
    | .ask got o n => some (hostSend t (.mapHdr t va) false o [] n 1
        { s with mapHdrs := ⟨t, va, got, true, false⟩ :: s.mapHdrs.filter fun h => !(h.tenant == t && h.rec' == va) })
    | .done _ | .miss _ | .bad _ => none
/-- A header that has been read for a mapping is kept no longer. -/
def dropHeader (t : BitVec 4) (va : W64) (s : State) : State := { s with mapHdrs := s.mapHdrs.filter fun h => !(h.tenant == t && h.rec' == va) }
/-- A context that waits for a page of a run goes on (R334). -/
def Ctx.wake (va n : Nat) (x : Ctx) : Ctx :=
  match x.miss with
  | some p => if runsMeet va n p.1.toNat 1 then { x with miss := none } else x
  | none => x
/-- Fault reports of a tenant on a run of VAs are answered: contexts, channels and windows that wait for it go on (R334). -/
def answerMiss (t : BitVec 4) (va n : Nat) (s : State) : State :=
  let hit (p : W64) : Bool := runsMeet va n p.toNat 1
  let miss (p : Option W64) : Option W64 := p.filter fun p => !hit p
  { s with dies := s.dies.map fun d =>
    { d with
      faults := d.faults.filter fun f => !(f.tenant == t && hit f.va)
      cores := d.cores.map fun k =>
        if k.tenant = some t then
          { k with ctxs := k.ctxs.map (Ctx.wake va n), chans := k.chans.map fun h => { h with miss := miss h.miss }
                   wins := k.wins.map fun w => { w with miss := miss w.miss } }
        else k } }
/-- A request that was translated before its page was unmapped has not completed, and no tenant maps the page now: the supervisor does not reuse it yet
(R176). -/
def reuseWaits (s : State) (e : W64) : Bool :=
  pteV e && (cellsUnderWay s).any fun d => runsMeet (pteDpa e) (pteSize e) d 1 &&
    !(s.tenants.toList.any fun t => t.maps.any fun m => runsMeet (mapDpa m) (pteSize m.2) d 1)
/-- An entry mapped executable is scanned for its kernel, each 64 KiB part as a page of code or dictionary. Where the scanner refuses a part, the whole
entry is not executable, and a fetch from any part finds the refusal (R133; DESIGN CHOICE, log 62: R98 gives code pages 64 KiB and says nothing of
larger executable entries). After a dictionary page, code pages that now fail their checks are unmapped (R420). -/
def mapCode (t : BitVec 4) (va : Nat) (e : W64) (h : Hdr) (s : State) : State :=
  let pages := (pagesOf va (pteSize e)).map (· * 0x10000)
  let s := forEach pages (fun p s => scanPage t p h s) s
  let bad := (pages.filterMap fun p => pageOf s t p).filter (·.refused.isSome)
  if bad = [] then
    forEach (pages.filter fun p => (dictPages h).contains p) (fun p s =>
      let r := rescanAll t p h s
      forEach r.1 (fun c s => dropRange t c 0x10000 s) r.2) (lockCode e s)
  else
    let f := bad.foldl (fun f p => f ||| p.feat) 0
    let s := forEach pages (fun p s => putPage (refusedPage t p ((dictPages h).contains p) h f) (unscan t p s)) s
    (putLeaf t va (noExec e) s).modTen t fun x => { x with maps := x.maps.filter (· != (va, e)) }
/-- Map an entry that is not refused: it replaces every mapping that it meets. -/
def mapEntry (t : BitVec 4) (va : Nat) (e : W64) (hva : Nat) (s : State) : State :=
  let n := pteSize e
  if reuseWaits s e then s
  else
    let s := dropRange t va n s
    if !pteV e then putLeaf t va 0 s
    else
      let e := storedPte s e
      let hbm := if dpaSpace (pteDpa e) = 0 then pagesOf (pteDpa e) n else []
      let s := syncDpit hbm (putLeaf t va e (forEach hbm makeRoom s))
      let h := BitVec.ofNat 64 hva
      answerMiss t va n (if pteX e then dropHeader t h (mapCode t va e (headerAt s t h) s) else s)

/-! ## Walks and answers to page faults (R331, R334, Table 21.2) -/

/-- A fault report of a context is open. -/
def ctxReported (s : State) (c : CtxId) : Bool :=
  s.dies.toList.any fun d => d.faults.any fun f => f.agent == .xlat c || f.agent == .fetch c
/-- TLB_WALK_COMPLETE: the walk for a context's miss fills both TLBs, and the bundle may try again; a missing entry is a page fault. -/
def tlbWalkComplete (s : State) : State :=
  let c : CtxId := ⟨s.arg.die, s.arg.core, s.arg.ctx⟩
  let x := s.ctx c
  match x.miss with
  | none => s
  | some (p, kind) =>
    if ctxReported s c then s
    else match walk s x.b.tenant p with
      | some e => (tlbFill c.coreId x.b.tenant p e s).modCtx c fun x => { x with miss := none }
      | none => reportFault c.die ⟨x.b.tenant, p, kind, if kind = .fetch then .fetch c else .xlat c⟩ s
/-- TLB_WALK_COMPLETE (R331). -/
def execTlbWalkComplete (s : State) : Host.Outcome State Fault Refusal := .next (tlbWalkComplete s)
/-- The fault of a remote operation lies at its own side. -/
def ropLocalSide (r : Rop) (k : FaultKind) : Bool :=
  match r.kind with
  | .put => k == .read
  | .get => k == .write
  | _ => decide (r.stage ≠ 1 ∧ r.stage ≠ 2)
/-- An unresolvable fault ends as Table 21.2 says, that of a channel or window which still waits for the page; `d` is the die that reported it. -/
def unresolvable (d : Fin 4) (f : FaultRep) (s : State) : State :=
  let e : Err := ⟨0x11, f.va⟩
  let give (c : CtxId) (s : State) : State := s.modCtx c fun x => { x with miss := none, unres := x.unres ++ [pageVa f.va.toNat] }
  match f.agent with
  | .xlat c => give c s
  | .fetch c => give c s
  | .chan k ch => if ((s.core k).chans[ch.val]).miss = some f.va then chanStop k ch e s else s
  | .win k w => if ((s.core k).wins[w.val]).miss = some f.va then winStop k w e s else s
  | .remote id => (match s.rops.find? (fun r => r.id == id) with
    | none => s
    | some r => if ropLocalSide r f.kind then ropLocalErr r ⟨0x11, BitVec.ofNat 64 (ropL r.desc)⟩ s else ropFail r 0x11 s)
  | .header q r => refuseHead d q r 1 s
  | .save c => failSave c s
/-- FAULT_ANSWER: the supervisor answers the reports of a tenant's page at a die: it has mapped the page, with the entry that the event gives
unless that is 0, or it declares the fault unresolvable. It waits while it reads the page's kernel header from a host window (R203). -/
def faultAnswer (s : State) : State :=
  let t := s.arg.tenant
  let va := s.arg.va.toNat
  if s.hstate = 3 then s
  else if s.arg.ok then
    let e := s.arg.val
    let b := va / pteSize e * pteSize e
    if e = 0 then answerMiss t (va / 0x10000 * 0x10000) 0x10000 s
    else if pteRefused s t b e then s
    else match askHeader t e (BitVec.ofNat 64 s.arg.num) s with
      | some u => { u with inbox := (.faultAnswer, s.arg) :: u.inbox }
      | none => mapEntry t b e s.arg.num s
  else
    let mine (f : FaultRep) : Bool := f.tenant == t && f.va.toNat / 0x10000 == va / 0x10000
    let l := (s.die s.arg.die).faults.filter mine
    forEach l (unresolvable s.arg.die) (s.modDie s.arg.die fun d => { d with faults := d.faults.filter fun f => !mine f })
/-- FAULT_ANSWER (R334). -/
def execFaultAnswer (s : State) : Host.Outcome State Fault Refusal := .next (faultAnswer s)

/-! ## A die loses a feature (R338) -/

/-- The tasks bound on a die that need a feature about to go. -/
def needsFeat (s : State) (d : Fin 4) (c : CtxId) : Bool :=
  c.die == d && (s.ctx c).st.bound && ((s.ctx c).b.hdr.featreq &&& (s.die d).featDrop.setWidth 32) != 0
/-- A saved task whose die can no longer take it fails, or waits on the lowest die of its affinity that can (R338, R361). -/
def moveSaved (v : Saved) (s : State) : State :=
  let b := v.ctx.b
  match queueEntry s b.tenant b.task with
  | none => s
  | some (d, q, e) =>
    if hasFeat s d b.hdr then s
    else match savedDie s d b with
      | some d' => if qRoom (s.die d') q then qPut d' (BitVec.ofNat 4 (q.val / 4)) (q.val % 4) true e (qTake d q e s) else s
      | none => killRec ⟨v.die, 0⟩ b.tenant b.task (faultWord 7 0x12 0 0 0)
          (qTake d q e { s with saved := s.saved.filter fun w => w.ctx.b.uid != b.uid })
/-- The supervisor removes lost bits from a die's FEAT once every task bound there that needs them has been saved; code pages that need
them are unmapped, and keyed tenants are told (R338, R417). -/
def settleFeat (d : Fin 4) (s : State) : State :=
  let s := forEach s.saved moveSaved s
  let x := s.die d
  if x.featDrop = 0 then s
  else if allCtx.any (needsFeat s d) then
    forEach (allCtx.filter fun c => needsFeat s d c && (s.ctx c).st != .saving && (s.ctx c).exit.isNone)
      (fun c s => s.modCtx c fun y => { y with preempt := true }) s
  else
    let lost := x.featDrop
    let s := s.modDie d fun y => { y with feat := y.feat &&& ~~~lost, featDrop := 0 }
    let s := forEach (s.pages.filter fun p => (p.feat &&& lost) != 0) (fun p s => dropRange p.tenant p.vpage 0x10000 s) s
    notifyKeyed 2 s

end Sys2Proof.Machine
end

