-- ==== Sys2Proof/Machine/Hbm.lean ====
section
/-! DEFINITION. HBM placement as it changes (11 R185, R190, R192, R194 to R200): hot-page migration, rehash walks, row exchange, refresh windows, view
regions. -/

namespace Sys2Proof.Machine

/-! ## Migration -/

/-- Mapped pages that a stack holds. -/
def stackFill (s : State) (stack : Nat) : Nat := (((usedPages s).map (placeNow s)).filter (·.1 == stack)).length
/-- A copy of a page begins (R196): MIG is set, and from now on writes go to both places. The copy opens the rows of both (R199). -/
def startMig (page : Nat) (p : Nat × Nat) (s : State) : State :=
  let src := placeKey (placeNow s page)
  let dst := placeKey p
  let l := sliceCells s.hbm src (src + 0x10000)
  let rows (k : Nat) : List Nat := (List.range 256).map (k / 256 + ·)
  syncDpit [page] <| openRows (rows src ++ rows dst) { s with
    migs := s.migs ++ [⟨page, p.1, p.2⟩]
    hbm := l.foldl (fun m c => wrCell m (c.1 - src + dst) c.2) (clearCells s.hbm dst (dst + 0x10000)) }
/-- Some die's fabric has cached an entry that names an old copy's place for its page. -/
def cachedOld (s : State) (m : Mig) : Bool :=
  s.dies.toList.any fun d => d.dcache.any fun e => e.1 == m.page && entryPlace e.2 == (m.stack, m.lpage)
/-- MIGRATION_SWITCH: the entry of the page that the event names switches to the copy's place; a page whose switch is done has its old copy freed once
no cached entry names it (R197), and the fabrics let such entries go at a time of their own (DESIGN CHOICE, log 41: the spec does not say when a fabric
drops an entry). -/
def migrationSwitch (s : State) : State :=
  match s.migs.find? fun m => m.page == s.arg.id with
  | some m =>
    let old := placeNow s m.page
    let other := pageAt s (m.stack, m.lpage)
    let s := setPlace other old (setPlace m.page (m.stack, m.lpage) { s with migs := s.migs.filter fun q => q.page != m.page })
    dropLines [m.page, other] (syncDpit [m.page] { s with oldCopies := s.oldCopies ++ [⟨m.page, old.1, old.2⟩] })
  | none => match s.oldCopies.find? fun m => m.page == s.arg.id with
    | none => s
    | some m =>
      if cachedOld s m then { s with dies := s.dies.map fun d => { d with dcache := d.dcache.filter fun e => !(e.1 == m.page && entryPlace e.2 == (m.stack, m.lpage)) } }
      else clearPlace (m.stack, m.lpage) { s with oldCopies := s.oldCopies.erase m }
/-- MIGRATION_SWITCH (R197). -/
def execMigrationSwitch (s : State) : Host.Outcome State Fault Refusal := .next (migrationSwitch s)

/-! ## The hot-page tracker (R195) -/

/-- A die's count for a page. -/
def heat (s : State) (d : Fin 4) (page : Nat) : Nat := (((s.die d).hot.find? fun e => e.1 == page).map Prod.snd).getD 0
/-- The die that used a page most, the lowest on a tie. -/
def hottest (s : State) (page : Nat) : Fin 4 :=
  ([1, 2, 3] : List (Fin 4)).foldl (fun b d => if heat s b page < heat s d page then d else b) 0
/-- The more lightly filled of the near stacks of a die, with a free page of it; none where it has none, though the other stack had one. How full a stack
is, is the number of mapped pages that it holds (DESIGN CHOICE, log 65: R195 says neither). -/
def lightStack (s : State) (d : Fin 4) : Option (Nat × Nat) :=
  let a := 2 * d.val
  let order := if stackFill s (a + 1) < stackFill s a then [a + 1, a] else [a, a + 1]
  match freePlace s (order.headD a) with
  | some p => some (order.headD a, p)
  | none => none
/-- Choose one page for migration, if the rules choose it: a page that some tenant maps; `most` is the number of copies at which the period has moved its 256
pages. -/
def trackPage (most page : Nat) (s : State) : State :=
  let d := hottest s page
  let home := stackDie (placeNow s page).1
  if most ≤ s.migs.length ∨ heat s d page ≤ heat s home page ∨ (dpitEntry s page).getLsbD 30 ∨ s.migs.any (fun m => m.page == page) ∨
      mapped s (fun _ => true) page = false then s
  else match lightStack s d with
    | some p => startMig page p s
    | none => s
/-- TRACKING_PERIOD: at the end of a period up to 256 pages are chosen, where more qualify in the order of the dies and of each die's latest new counts (DESIGN
CHOICE, log 29: R195 gives no order), and the counts restart. -/
def trackingPeriod (s : State) : State :=
  let pages := (s.dies.toList.flatMap fun d => d.hot.map Prod.fst).eraseDups
  let s := forEach pages (trackPage (s.migs.length + 256)) s
  { s with dies := s.dies.map fun d => { d with hot := [] } }
/-- TRACKING_PERIOD (R195). -/
def execTrackingPeriod (s : State) : Host.Outcome State Fault Refusal := .next (trackingPeriod s)

/-! ## Rehash walks (R192, R194) -/

/-- Six masks restricted to bits [13:8] are linearly independent over GF(2): no sum of some of them is 0 there. -/
def independent (ms : List W32) : Bool :=
  (List.range 64).all fun n => n == 0 ||
    (ms.zipIdx.foldl (fun a m => if n.testBit m.2 then a ^^^ bits m.1.toNat 8 6 else a) 0) != 0
/-- The conditions of R192. -/
def masksOk (ms : List W32) : Bool := ms.length == 6 && ms.all (fun m => (m &&& ~~~0x3FFFFF00#32) == 0) && independent ms
/-- The hash domain of a stack-local page. -/
def pageDom (lpage : Nat) : Nat := lpage / 2 ^ 14
/-- No DPA page maps into a domain of a stack: no mapped page, table or request under way uses a place of it, and none is kept for a copy (R194, log 63). -/
def domEmpty (s : State) (stack dom : Nat) : Bool := (usedPlaces s stack).all fun p => pageDom p != dom
/-- Change a stack. -/
def modStack (n : Fin 8) (f : Stack → Stack) (s : State) : State := { s with hbmStacks := s.hbmStacks.set n.val (f s.hbmStacks[n.val]) }
/-- Where the byte at a stack-local address of a domain is found when its masks have become others: the bytes stay in their pseudo-channels, and the
address of bits [13:8] by which a pseudo-channel is reached is another (R191, R194). -/
def rehashedAt (old new : Stack) (sla : Nat) : Nat :=
  let base := sla - bits sla 8 6 * 256
  base + (((List.range 64).find? fun g => pseudoChan new (base + g * 256) == pseudoChan old sla).getD (bits sla 8 6)) * 256
/-- Give a domain its masks: the bytes in it stay where they are, under other addresses. -/
def setMasks (n : Fin 8) (dom : Nat) (ms : List W32) (s : State) : State :=
  let k := s.hbmStacks[n.val]
  let k' := { k with masks := (dom, ms) :: k.masks.filter fun m => m.1 != dom }
  let lo := n.val * 2 ^ 36 + dom * 2 ^ 30
  let l := sliceCells s.hbm lo (lo + 2 ^ 30)
  { s with
    hbmStacks := s.hbmStacks.set n.val k'
    hbm := l.foldl (fun m c => wrCell m (n.val * 2 ^ 36 + rehashedAt k k' (c.1 % 2 ^ 36)) c.2) (clearCells s.hbm lo (lo + 2 ^ 30)) }
/-- The pages in use, or with bytes that are not 0, that a domain of a stack holds. -/
def domHeld (s : State) (stack dom : Nat) : List Nat :=
  (((takenPlaces s stack).filter fun p => pageDom p == dom && !reserved s (stack, p)).eraseDups).map fun p => pageAt s (stack, p)
/-- Those that are not being copied out of it. -/
def domPages (s : State) (stack dom : Nat) : List Nat := (domHeld s stack dom).filter fun p => !s.migs.any fun m => m.page == p
/-- Copies of the pages that are left in the old domain of a rehash begin into the new one, as far as it has free places. -/
def walkOn (n old new : Nat) (s : State) : State :=
  forEach (domPages s n old) (fun p s => match freeIn s n new with
    | some l => startMig p (n, l) s
    | none => s) s
/-- REHASH_WALK: with `ok` the supervisor starts a walk of domain `num` of the stack `unit` into the empty domain `id`, which gets the masks that
the event lists; one domain named twice is an empty domain that takes its masks at once. A domain takes part in one walk at a time (DESIGN CHOICE, log
63: the spec says nothing of it); walks of other domains go on beside it. Without `ok` the walk out of domain `num` goes on with pages that have come
into it since, or, that domain being empty, ends: it takes the masks. -/
def rehashWalk (s : State) : State :=
  let n : Fin 8 := Fin.ofNat 8 s.arg.unit
  let k := s.hbmStacks[n.val]
  let ms := s.arg.list.map fun p => BitVec.ofNat 32 p.1
  let old := s.arg.num
  let new := s.arg.id
  if s.arg.ok then
    if !masksOk ms || decide (64 ≤ old) || decide (64 ≤ new) || domRehash s n.val old || domRehash s n.val new || !domEmpty s n.val new then s
    else if old = new then setMasks n new ms s
    else
      let into := (s.migs.filter fun m => m.stack == n.val && pageDom m.lpage == old).map Mig.page
      let held := domHeld s n.val old ++ into
      let s := modStack n (fun k => { k with rehash := (old, new) :: k.rehash }) (setMasks n new ms s)
      walkOn n.val old new (syncDpit held (abortMigs held s))
  else match k.rehash.find? fun r => r.1 == old with
    | none => s
    | some r =>
      if domPages s n.val r.1 ≠ [] then walkOn n.val r.1 r.2 s
      else if !domEmpty s n.val r.1 || s.migs.any (fun m => m.stack == n.val && pageDom m.lpage == r.2) then s
      else
        let s := modStack n (fun k => { k with rehash := k.rehash.erase r }) (setMasks n r.1 (k.maskOf r.2) s)
        syncDpit (domHeld s n.val r.2) s
/-- REHASH_WALK (R194). -/
def execRehashWalk (s : State) : Host.Outcome State Fault Refusal := .next (rehashWalk s)

/-! ## Row swapping and refresh (R199, R200) -/

/-- The row key that the row indirection table leads to a physical row. -/
def keyOfRow (k : Stack) (row : Nat) : Nat := ((k.rows.find? fun r => r.2 == row).map Prod.fst).getD row
/-- Set an indirection; a row that stands in its own place is not listed. -/
def setRow (key v : Nat) (l : List (Nat × Nat)) : List (Nat × Nat) :=
  let r := l.filter fun e => e.1 != key
  if v = key then r else (key, v) :: r
/-- ROW_EXCHANGE: a row past 4,096 activations exchanges its contents with another row of its bank; contents stay the same at every
stack-local address. The event names the stack, the row and the other row. -/
def rowExchange (s : State) : State :=
  modStack (Fin.ofNat 8 s.arg.unit) (fun k =>
    let a := s.arg.num
    let b := a / 2 ^ 16 * 2 ^ 16 + s.arg.id % 2 ^ 16
    if k.acts.any fun e => e.1 == a && decide (4096 < e.2) then
      { k with rows := setRow (keyOfRow k b) a (setRow (keyOfRow k a) b k.rows), acts := k.acts.filter fun e => e.1 != a
               opened := k.opened.filter fun e => e.1 != a / 2 ^ 16 }
    else k) s
/-- ROW_EXCHANGE (R199). -/
def execRowExchange (s : State) : Host.Outcome State Fault Refusal := .next (rowExchange s)
/-- REFRESH_WINDOW: a 32 ms window of a stack ends and its activation counts restart. -/
def refreshWindow (s : State) : State := modStack (Fin.ofNat 8 s.arg.unit) (fun k => { k with acts := [] }) s
/-- REFRESH_WINDOW (R199). -/
def execRefreshWindow (s : State) : Host.Outcome State Fault Refusal := .next (refreshWindow s)

/-! ## View regions (R185, R190) -/

/-- Bytes of a region. -/
def regBytes (d : BitVec 256) : Nat := regRows d * regCols d * regE d
/-- A descriptor within the limits of R185 and Table 11.6, for a stack that holds every page of the region now. -/
def regOk (s : State) (n : Fin 8) (d : BitVec 256) : Bool :=
  let lim (v : Nat) : Bool := decide (128 ≤ v) && decide (v ≤ 2 ^ 20) && v % 128 == 0
  regBase d % 0x10000 == 0 && lim (regRows d) && lim (regCols d) && decide (bits d.toNat 128 8 ≤ 2) && decide (regArr d ≤ 1) &&
  bits d.toNat 144 112 == 0 && regBytes d % 0x10000 == 0 && decide (regBase d < 2 ^ 40) && decide (regBase d % 2 ^ 37 + regBytes d ≤ 2 ^ 36) &&
  (pagesOf (regBase d) (regBytes d)).all fun p => (placeNow s p).1 == n.val
/-- Requests under way go to pages of the region that the event's descriptor describes, through a translation made before: the descriptor stands until they have
performed (R176). -/
def regionWaits (s : State) : Bool :=
  let d : BitVec 256 := BitVec.ofNat 256 (ofBytes s.arg.data)
  (pagesOf (regBase d) (regBytes d)).any (pagesUnderWay s).contains
/-- REGION_DESCRIPTOR: the supervisor writes (`ok`) or removes a descriptor of 32 bytes in the base die of the stack `unit`; one that breaks the
limits, a 257th, or the removal of a region with a page still mapped is refused. -/
def regionDescriptor (s : State) : State :=
  let n : Fin 8 := Fin.ofNat 8 s.arg.unit
  let d : BitVec 256 := BitVec.ofNat 256 (ofBytes s.arg.data)
  let k := s.hbmStacks[n.val]
  let pages := pagesOf (regBase d) (regBytes d)
  if regionWaits s then s
  else if s.arg.ok then
    if !regOk s n d || decide (256 ≤ k.regions.length) then s
    else dropLines pages (syncDpit pages (abortMigs pages (modStack n (fun k => { k with regions := k.regions ++ [d] }) s)))
  else if !k.regions.contains d || pages.any (mapped s fun _ => true) then s
  else syncDpit pages (modStack n (fun k => { k with regions := k.regions.erase d }) s)
/-- REGION_DESCRIPTOR (R185). -/
def execRegionDescriptor (s : State) : Host.Outcome State Fault Refusal := .next (regionDescriptor s)

end Sys2Proof.Machine
end

