-- ==== Sys2Proof/Machine/Host.lean ====
section
/-! DEFINITION. The host link (27 R403 to R410, R414; 11 R204): the module's addresses, the checks of a frame and the meaning of every kind. A frame
arrives as an event of its kind: `frame` holds the datagram as the wire carries it, and the kinds' fields are read from its opened payload (log 42). -/

namespace Sys2Proof.Machine

/-! ## Addresses (R404) -/

/-- The interface identifier: the modified EUI-64 of the MAC address. -/
def interfaceId : W64 :=
  let m := Config.mac
  (m.extractLsb' 40 8 ^^^ 0x02#8) ++ m.extractLsb' 24 16 ++ 0xFFFE#16 ++ m.extractLsb' 0 24
/-- The address that a 64-bit prefix gives. -/
def addrOf (p : W64) : BitVec 128 := p ++ interfaceId
/-- The link-local address. -/
def linkLocal : BitVec 128 := addrOf 0xFE80000000000000
/-- The time by which lifetimes run: die 0's time base, in nanoseconds (DESIGN CHOICE, log 75). -/
def addrNow (s : State) : Nat := (s.die 0).ptb.toNat
/-- The lifetime of an address runs. -/
def Addr.lives (n : Nat) (a : Addr) : Bool := match a.till with
  | none => true
  | some t => decide (n < t)
/-- The module holds an address: the link-local one, or a global one that is no longer tentative while its lifetime runs. -/
def holds (s : State) (a : BitVec 128) : Bool :=
  a == linkLocal || s.addrs.any fun x => x.addr == a && decide (x.since ≤ addrNow s) && x.lives (addrNow s)
/-- The Ethernet port is up and answers more than HEALTH (R35, R411). -/
def portUp (s : State) : Bool := etherUp s && s.hstate != 3#4

/-! ## Frames (R403, R405) -/

/-- KIND of a frame. -/
def frameKind (f : Frame) : Nat := fieldOf f.bytes 4 1
/-- The tenant of a frame. -/
def frameTen (f : Frame) : BitVec 4 := BitVec.ofNat 4 (fieldOf f.bytes 5 1)
/-- LEN of a frame. -/
def frameLen (f : Frame) : Nat := fieldOf f.bytes 6 2
/-- SEQ of a frame. -/
def frameSeq (f : Frame) : W64 := BitVec.ofNat 64 (fieldOf f.bytes 8 8)
/-- PAYLOAD of a frame as it stands on the wire. -/
def framePayload (f : Frame) : List Byte := (f.bytes.drop 16).take (frameLen f)
/-- TAG of a frame. -/
def frameTag (f : Frame) : List Byte := f.bytes.drop (16 + frameLen f)
/-- The kinds that a host sends (Table 27.2). -/
def hostKinds : List Nat := [1, 2, 3, 4, 5, 6, 8, 9, 10]
/-- A datagram is for the module's BHP port, at an address that the module holds (R403, R404). -/
def forPort (s : State) (f : Frame) : Bool := holds s f.to6 && f.dport == 47000
/-- The datagram holds exactly one frame of at most 8,192 payload bytes, whose MAGIC, KIND and reserved bits are right (R403, R405). -/
def frameFormed (f : Frame) : Bool :=
  f.bytes.length == 32 + frameLen f && decide (frameLen f ≤ 8192) && fieldOf f.bytes 0 4 == frameMagic.toNat && decide (fieldOf f.bytes 5 1 < 16) &&
  hostKinds.contains (frameKind f)
/-- A discard that counts (R405). -/
def authFail (s : State) : State := { s with authfail := if s.authfail = 0xFFFF then 0xFFFF else s.authfail + 1 }
/-- A SEQ that has not been accepted and lies in the window; the first is 1 (R405, R408). -/
def seqFresh (r : Tenant) (q : W64) : Bool :=
  q != 0 && decide (r.rxMax.toNat < q.toNat + 64) && !r.rxSeen.contains q
/-- Record an accepted SEQ. -/
def acceptSeq (t : BitVec 4) (q : W64) (s : State) : State :=
  s.modTen t fun r =>
    let m := max r.rxMax.toNat q.toNat
    { r with rxMax := BitVec.ofNat 64 m, rxSeen := q :: r.rxSeen.filter fun p => decide (m < p.toNat + 64) }
/-- The payload of a sealed frame under a key, if its tag verifies. -/
def openFrame (key : BitVec 256) (f : Frame) : Option (List Byte) :=
  let k := toBytes 32 key.toNat
  let n := frameNonce 0 (frameSeq f)
  if frameTag f = gcmTag k n (f.bytes.take 16) (framePayload f) then some (gcmCrypt k n (framePayload f)) else none
/-- The opened payload of a frame that passes every check of R405. -/
def frameText (s : State) (f : Frame) : Option (List Byte) :=
  if frameFormed f && seqFresh (s.ten (frameTen f)) (frameSeq f) then
    match (s.ten (frameTen f)).key with
    | none => none
    | some k => openFrame k f
  else none
/-- The datagram of an event is not one that it may carry: it is for another address or port, or its KIND is that of another event. -/
def notMine (s : State) (kind : Nat) : Bool :=
  let f := s.arg.frame
  !forPort s f || (frameKind f != kind && hostKinds.contains (frameKind f))
/-- Take a sealed frame while the port is `up`: one that fails a check is discarded and counts; else, where its kind is accepted (`open'`) and its payload
is one of the event's (`mine`), its SEQ is accepted and it acts for its tenant. -/
def takeFrame (kind : Nat) (up open' : Bool) (mine : List Byte → Bool) (act : BitVec 4 → List Byte → State → State) (s : State) : State :=
  let f := s.arg.frame
  if !up || notMine s kind then s
  else match frameText s f with
    | none => authFail s
    | some p => if open' && mine p then act (frameTen f) p (acceptSeq (frameTen f) (frameSeq f) s) else s
/-- Any payload is one of the event's. -/
def anyText : List Byte → Bool := fun _ => true
/-- The module is READY. -/
def isReady (s : State) : Bool := s.hstate == 1#4
/-- A frame refused for its content (R406). -/
def refuseFrame (t : BitVec 4) (reason : Nat) (s : State) : State := notify t 3 (BitVec.ofNat 16 reason) (frameSeq s.arg.frame) 0 s
/-- The bytes of an unsealed frame: SEQ 0, TAG zero (R407, R410). -/
def plainFrame (kind : Byte) (t : BitVec 4) (payload : List Byte) : List Byte := frameHead kind t payload.length 0 ++ payload ++ List.replicate 16 0
/-- Send an unsealed frame to the address that a frame came from. -/
def sendPlain (kind : Byte) (payload : List Byte) (s : State) : State :=
  let f := s.arg.frame
  { s with outbox := s.outbox ++ [⟨none, f.src, f.port, plainFrame kind (frameTen f) payload⟩] }
/-- A 64-bit field of a payload. -/
def textWord (p : List Byte) (off : Nat) : W64 := BitVec.ofNat 64 (fieldOf p off 8)

/-! ## Launches (R406) -/

/-- The record may be created in place: it keeps R348 and is not live. -/
def recFree (s : State) (d : Fin 4) (t : BitVec 4) (r : W64) : Bool := recUsable s ⟨d, 0⟩ t r && !recLive (recSt s ⟨d, 0⟩ t r)
/-- Create a record in place from the template that it holds. -/
def createRec (d : Fin 4) (t : BitVec 4) (r : W64) (team : Bool) (id n m : Nat) (force : Bool) (s : State) : State :=
  let k : CoreId := ⟨d, 0⟩
  let tpl := (vaRead s k t r.toNat 128).getD []
  putRec k t r (newRec tpl t (s.ten t).ceiling false team id n m (2 ^ d.val) force) s
/-- The die that a LAUNCH names (log 42). -/
def launchDie (s : State) (p : List Byte) : Option (Fin 4) := dieOfId s (BitVec.ofNat 12 (fieldOf p 0 2))
/-- The LAUNCH frame that has arrived would be taken, but its enqueue has to wait for room in the queue (R359). -/
def launchWaits (s : State) : Bool :=
  isReady s && !notMine s 1 && (match frameText s s.arg.frame with
    | none => false
    | some p =>
      let t := frameTen s.arg.frame
      let r := textWord p 2
      match launchDie s p with
      | none => false
      | some d => p.length == 10 && recFree s d t r && !enqRoom (createRec d t r false 0 1 0 false s) ⟨d, 0⟩ t r)
/-- LAUNCH: the record is created in place on the die that the frame names, and enqueued; a frame whose enqueue finds no room waits. A die that the
module has not, or a payload of another length, is refused with reason 1 (DESIGN CHOICE, log 71). -/
def launch (s : State) : State :=
  if launchWaits s then s
  else takeFrame 1 (portUp s) (isReady s) anyText (fun t p s =>
    match launchDie s p with
    | none => refuseFrame t 1 s
    | some d =>
      let r := textWord p 2
      if p.length == 10 && recFree s d t r then enqueue ⟨d, 0⟩ t r (createRec d t r false 0 1 0 false s) else refuseFrame t 1 s) s
/-- LAUNCH (R406). -/
def execLaunch (s : State) : Host.Outcome State Fault Refusal := .next (launch s)
/-- The (die identifier, record VA) pairs of a GANG payload, behind its tick (log 42). -/
def gangPairs (p : List Byte) : List (BitVec 12 × W64) :=
  (List.range ((p.length - 8) / 10)).map fun i => (BitVec.ofNat 12 (fieldOf p (8 + 10 * i) 2), textWord p (10 + 10 * i))
/-- The members of a gang that are records of this package, each with its die and its member number. -/
def gangHere (s : State) (l : List (BitVec 12 × W64)) : List ((Fin 4 × W64) × Nat) :=
  l.zipIdx.filterMap fun p => (dieOfId s p.1.1).map fun d => ((d, p.1.2), p.2)
/-- No record occurs twice. -/
def recsDistinct : List (Fin 4 × W64) → Bool
  | [] => true
  | r :: l => !(l.any fun q => q.2 == r.2) && recsDistinct l
/-- A GANG payload of `l` pairs is refused with reason 2: the tick has passed, a record of this package breaks R348 or is live, or dies with and without
a path to the master are named together (R371). So are a payload without a pair, with more than 512 or with bytes left over, a die that the pod has not,
a record twice, and a tenant without a team identifier left (DESIGN CHOICE, log 71). -/
def gangRefused (s : State) (t : BitVec 4) (p : List Byte) : Bool :=
  let l := gangPairs p
  let own := (gangHere s l).map Prod.fst
  decide (p.length ≠ 8 + 10 * l.length) || l.isEmpty || decide (512 < l.length) || !(l.all fun x => dieExists s x.1) ||
  decide ((textWord p 0).toNat < (latestPtb s).toNat) || !recsDistinct own || !(own.all fun r => recFree s r.1 t r.2) || spansLost s (own.map Prod.fst) ||
  decide (65535 ≤ (liveTeams s t).length)
/-- The team identifier of a GANG frame's team: which one is free, found from what the frame says, so that the packages that it names can agree on it (R354,
log 9). -/
def gangTeam (s : State) (t : BitVec 4) (p : List Byte) : W16 := pickTeam (liveTeams s t) (Config.freeTeam (ofBytes p)) 65536
/-- GANG: the records of the pairs become one team, which starts at the frame's tick. Member m is the record of the m-th pair; members of other packages
are created and placed there, and a frame with none here changes nothing here (log 9). -/
def gang (s : State) : State :=
  takeFrame 2 (portUp s) (isReady s) anyText (fun t p s =>
    if gangRefused s t p then refuseFrame t 2 s
    else
      let n := (gangPairs p).length
      let own := gangHere s (gangPairs p)
      let id := gangTeam s t p
      let s := forEach own (fun r s => createRec r.1.1 t r.1.2 true id.toNat n r.2 true s) s
      if own.isEmpty then s
      else { s with teams := ⟨t, id, n, own.map Prod.fst, own.map Prod.snd, some (textWord p 0), false, [], false, none⟩ :: s.teams }) s
/-- GANG (R406). -/
def execGang (s : State) : Host.Outcome State Fault Refusal := .next (gang s)

/-! ## Memory (R406, R257, R414) -/

/-- The pieces of a host frame's run all lie in memory that the frame may reach. -/
def runReaches (s : State) (t : BitVec 4) (write : Bool) : Nat → Nat → Nat → Bool
  | 0, _, _ => true
  | f + 1, va, n =>
    n == 0 || (match pieceAt s ⟨0, 0⟩ t va n write false with
      | .mem _ _ len | .host _ len => runReaches s t write f (va + len) (n - len)
      | .miss _ | .err _ => false)
/-- Pieces of a run of at most 8,192 bytes. -/
def runFuel : Nat := 4
/-- A host frame may reach every byte of its run, and the page of its VA where it has none (R406); the pages of a host window among them (R203). -/
def runOk (s : State) (t : BitVec 4) (write : Bool) (va n : Nat) : Bool :=
  runReaches s t write runFuel va n && (match pieceAt s ⟨0, 0⟩ t va n write false with
    | .mem _ _ _ | .host _ _ => true
    | .miss _ | .err _ => false)
/-- An accepted frame's run begins: its bytes perform one after another in any order, as the events pick them (R254). -/
def startRun (t : BitVec 4) (write : Bool) (va : Nat) (data : List Byte) (s : State) : State :=
  { s with nextId := s.nextId + 1
           runs := s.runs ++ [⟨s.nextId, t, frameSeq s.arg.frame, write, va, data, List.range data.length, .start, none, 0, false⟩] }
/-- Every byte of a frame's run has performed: the MWRITE is acknowledged, or the MREAD answered with the bytes (R406). -/
def endRun (r : HostRun) (s : State) : State :=
  let s := { s with runs := s.runs.filter fun q => q.id != r.id }
  if r.write then notify r.tenant 4 0 r.seq 0 s else sendFrame 4 r.tenant (toBytes 8 r.va ++ r.data) s
/-- A frame's run goes on at the host port, on die 0: bytes that the event picks perform at their page, those of a host window by transfers (R203, R254). -/
def goRun (write : Bool) (id : Nat) (s : State) : State :=
  match s.runs.find? fun r => r.id == id && r.write == write with
  | none => s
  | some r =>
    if r.hold || hostOut s (.frame id) then s
    else if r.left = [] then endRun r s
    else if write then pageWrite (.frame id) ⟨0, 0⟩ r.tenant r.hop r.req r.va r.data r.left 0 s
    else pageRead (.frame id) ⟨0, 0⟩ r.tenant r.hop r.req r.va r.data.length r.left s
/-- The read-write staging area of the diagnostic window (Table 27.11). -/
def inStaging (off n : Nat) : Bool := decide (0x800000 ≤ off) && decide (off + n ≤ 0x1000000)
/-- A run of the diagnostic window lies in the listed ranges; those of the first 256 KiB meet. -/
def inDiag (off n : Nat) : Bool :=
  inStaging off n || decide (off + n ≤ 0x40000) || (decide (0x100000 ≤ off) && decide (off + n ≤ 0x110000))
/-- The bytes of the status block that the table fixes (Table 27.11); the attempts newest first, a failing step before its code
(DESIGN CHOICE, log 71). -/
def statusBytes (s : State) : List (Nat × List Byte) :=
  (s.attempts.take 6).zipIdx.map (fun a => (a.2, [BitVec.ofNat 8 (a.1.1 % 256)])) ++
  (s.attempts.take 6).zipIdx.map (fun a => (8 + 8 * a.2, toBytes 4 (a.1.1 / 256) ++ toBytes 4 a.1.2)) ++
  [(0x40, toBytes 8 (healthWord s).toNat), (0x48, toBytes 4 s.warmFails ++ toBytes 4 s.coldFails),
   (0x50, s.dies.toList.flatMap fun d => toBytes 2 d.feat.toNat)]
/-- What the ranges without a layout show: the start attempts, the spares and repairs of cores, links, HBM and vaults, and the links' training. -/
def diagState (s : State) : List Nat :=
  s.attempts.flatMap (fun a => [a.1, a.2]) ++ [s.warmFails, s.coldFails] ++
  (s.dies.toList.flatMap fun d => [if d.spare then 1 else 0, d.spareSite.toNat, d.feat.toNat] ++ (d.cores.toList.map fun k => k.site.toNat) ++
    d.links.toList.flatMap fun l => [if l.up then 1 else 0, if l.training then 1 else 0, if l.lanes8 then 1 else 0, l.spares, l.delay] ++ l.laneErr.toList) ++
  (s.hbmStacks.toList.flatMap fun k => k.rowsOut.length :: k.rowsOut) ++ s.vaultSpare.toList.map fun b => if b then 1 else 0
/-- The management log as the window shows it, oldest first (Table 27.11). -/
def logBytes (s : State) : List Byte :=
  s.log.flatMap fun r => toBytes 4 r.seq.toNat ++ toBytes 4 r.step.toNat ++ toBytes 4 r.code.toNat ++ toBytes 4 r.value.toNat
/-- The fuse image: what Table 27.11 lists, packed in its order (DESIGN CHOICE, log 10: the table gives no layout). -/
def fuseBytes (s : State) : List Byte :=
  toBytes 16 Config.serial.toNat ++ toBytes 6 Config.mac.toNat ++
  (s.dies.toList.flatMap fun d => toBytes 1 d.spareSite.toNat ++ d.cores.toList.flatMap fun k => toBytes 1 k.site.toNat) ++
  (s.dies.toList.flatMap fun d => toBytes 2 d.feat.toNat) ++ sha3x512 (toBytes 2592 Config.ownerKey.toNat)
/-- One byte of the diagnostic window. -/
def diagRead (s : State) (off : Nat) : Byte :=
  if 0x800000 ≤ off then rdCell s.staging off
  else if 0x1000 ≤ off ∧ off < 0x10000 then (logBytes s).getD (off - 0x1000) 0
  else if 0x100000 ≤ off ∧ off - 0x100000 < (fuseBytes s).length then (fuseBytes s).getD (off - 0x100000) 0
  else match (statusBytes s).find? fun r => decide (r.1 ≤ off) && decide (off < r.1 + r.2.length) with
    | some r => r.2.getD (off - r.1) 0
    | none => Config.diagByte off (diagState s)
/-- Tenant 0's memory frames reach the diagnostic window in safe mode (R413). -/
def safeFrame (s : State) : Bool := s.hstate == 2#4 && frameTen s.arg.frame == 0#4
/-- An MWRITE payload is the answer to a device MWRITE: VA bit [63] is set and there are no data (R204). -/
def isAck (p : List Byte) : Bool := p.length == 8 && (textWord p 0).getLsbD 63
/-- An MWRITE frame: the data are to be written at the VA, and acknowledged once they have performed; in safe mode tenant 0 writes the staging area. A
payload without a VA is refused as one whose page is absent (DESIGN CHOICE, log 71). -/
def mwriteFrame (s : State) : State :=
  let safe := safeFrame s
  takeFrame 3 (portUp s) (isReady s || safe) (fun p => !isAck p) (fun t p s =>
    let data := p.drop 8
    let n := data.length
    let a := (textWord p 0).toNat
    if p.length < 8 then refuseFrame t 3 s
    else if safe then
      (if inStaging a n then notify t 4 0 (frameSeq s.arg.frame) 0 { s with staging := wrCells s.staging a data } else refuseFrame t 3 s)
    else if runOk s t true a n then startRun t true a data s else refuseFrame t 3 s) s
/-- MWRITE: a frame arrives, or the run of one goes on, whose number the event gives. -/
def mwrite (s : State) : State :=
  match s.arg.req with
  | .frame id => goRun true id s
  | _ => mwriteFrame s
/-- MWRITE (R406). -/
def execMwrite (s : State) : Host.Outcome State Fault Refusal := .next (mwrite s)
/-- An MREAD frame: the bytes that the payload asks for by VA and length are returned in a reply. A payload of another length is refused as one whose page is
absent (DESIGN CHOICE, log 71). -/
def mreadFrame (s : State) : State :=
  let safe := safeFrame s
  takeFrame 4 (portUp s) (isReady s || safe) anyText (fun t p s =>
    let n := fieldOf p 8 8
    let a := (textWord p 0).toNat
    let reply (l : List Byte) (s : State) : State := sendFrame 4 t (toBytes 8 a ++ l) s
    if p.length ≠ 16 ∨ 8176 < n then refuseFrame t 3 s
    else if safe then (if inDiag a n then reply ((List.range n).map fun i => diagRead s (a + i)) s else refuseFrame t 3 s)
    else if runOk s t false a n then startRun t false a (List.replicate n 0) s else refuseFrame t 3 s) s
/-- MREAD: a frame arrives, or the run of one goes on, whose number the event gives. -/
def mread (s : State) : State :=
  match s.arg.req with
  | .frame id => goRun false id s
  | _ => mreadFrame s
/-- MREAD (R406). -/
def execMread (s : State) : Host.Outcome State Fault Refusal := .next (mread s)
/-- MWRITE_ACK: the host acknowledges the device MWRITE whose SEQ stands in bits 62 to 0 of the VA (R204). -/
def mwriteAck (s : State) : State :=
  takeFrame 3 (portUp s) (isReady s) isAck (fun t p s =>
    match s.hostReqs.find? fun q => q.tenant == t && q.write && decide (q.seq.toNat = (textWord p 0).toNat % 2 ^ 63) with
    | some q => hostAnswer q [] s
    | none => s) s
/-- MWRITE_ACK (R204). -/
def execMwriteAck (s : State) : Host.Outcome State Fault Refusal := .next (mwriteAck s)
/-- The device MREAD that a reply answers: of several with its window offset and length, the oldest (R204; DESIGN CHOICE, log 66: a reply names no
request). -/
def readAsked (s : State) (t : BitVec 4) (p : List Byte) : Option HostReq :=
  s.hostReqs.find? fun q => q.tenant == t && !q.write && decide (q.off = (textWord p 0).toNat) && decide (q.len + 8 = p.length)
/-- MREAD_REPLY: the host answers a device MREAD (R204). -/
def mreadReply (s : State) : State :=
  takeFrame 4 (portUp s) (isReady s) anyText (fun t p s =>
    match readAsked s t p with
    | some q => hostAnswer q (p.drop 8) s
    | none => s) s
/-- MREAD_REPLY (R204). -/
def execMreadReply (s : State) : Host.Outcome State Fault Refusal := .next (mreadReply s)

/-! ## Mappings (R406) -/

/-- The tenant that a MAP or UNMAP payload names (log 42). -/
def mapTen (p : List Byte) : BitVec 4 := BitVec.ofNat 4 (fieldOf p 0 1)
/-- A MAP payload is refused with reason 5: its entry under R170, its tenant or its length (DESIGN CHOICE, log 71, for the last two). -/
def mapRefused (s : State) (p : List Byte) : Bool :=
  decide (p.length ≠ 17) || decide (15 < fieldOf p 0 1) || pteRefused s (mapTen p) (textWord p 1).toNat (textWord p 9)
/-- The payload of the MAP frame that has arrived, where it would be taken. -/
def mapTaken (s : State) : Option (List Byte) :=
  if portUp s && isReady s && !notMine s 5 && frameTen s.arg.frame == 0 then (frameText s s.arg.frame).filter fun p => !mapRefused s p else none
/-- The MAP frame that has arrived would be taken, but the supervisor does not reuse the page yet (R176), or reads its kernel header from a host window
(R203). -/
def mapWaits (s : State) : Bool :=
  (mapTaken s).any fun p => reuseWaits s (textWord p 9) || headerOut s (mapTen p) (textWord p 9) (BitVec.ofNat 64 s.arg.num)
/-- The transfer for the kernel header of the entry in the MAP frame that has arrived, if one has to be sent. -/
def mapAsks (s : State) : Option State := (mapTaken s).bind fun p => askHeader (mapTen p) (textWord p 9) (BitVec.ofNat 64 s.arg.num) s
/-- MAP: tenant 0 maps an entry at a VA for a tenant; `num` is the VA of the kernel header by which the supervisor has an executable page scanned (log
20). A frame for a page that is not to be reused yet waits, and one whose kernel header lies in a host window stays until that has been read (R203). -/
def mapFrame (s : State) : State :=
  if mapWaits s then s
  else match mapAsks s with
  | some u => { u with inbox := (.map, s.arg) :: u.inbox }
  | none => takeFrame 5 (portUp s) (isReady s) anyText (fun t p s =>
    if t ≠ 0 then refuseFrame t 4 s
    else if mapRefused s p then refuseFrame t 5 s
    else mapEntry (mapTen p) (textWord p 1).toNat (textWord p 9) s.arg.num s) s
/-- MAP (R406). -/
def execMap (s : State) : Host.Outcome State Fault Refusal := .next (mapFrame s)
/-- UNMAP: tenant 0 removes the mapping of a tenant that holds a VA; a payload of another length names no mapping and removes none (DESIGN CHOICE, log
71). -/
def unmapFrame (s : State) : State :=
  takeFrame 6 (portUp s) (isReady s) anyText (fun t p s =>
    if t ≠ 0 then refuseFrame t 4 s
    else if p.length = 9 ∧ fieldOf p 0 1 < 16 then dropRange (mapTen p) (textWord p 1).toNat 1 s else s) s
/-- UNMAP (R406). -/
def execUnmap (s : State) : Host.Outcome State Fault Refusal := .next (unmapFrame s)

/-! ## Health, attestation and keys (R407 to R410) -/

/-- Unsealed HEALTH requests are answered at most 100 times in a second (R410); the seconds are those of die 0's time base (DESIGN CHOICE, log 71). -/
def healthRoom (s : State) : Bool :=
  let now := (s.die 0).ptb.toNat / 10 ^ 9
  s.unsealed.1 != now || decide (s.unsealed.2 < 100)
/-- Count an answer. -/
def countHealth (s : State) : State :=
  let now := (s.die 0).ptb.toNat / 10 ^ 9
  { s with unsealed := (now, if s.unsealed.1 = now then s.unsealed.2 + 1 else 1) }
/-- A HEALTH request is unsealed: TENANT 0, SEQ 0, LEN 0 and TAG zero (R410). -/
def healthPlain (f : Frame) : Bool :=
  fieldOf f.bytes 5 1 == 0 && frameSeq f == 0 && frameLen f == 0 && frameTag f == List.replicate 16 0
/-- HEALTH: an unsealed request is answered with the public part of the word, another, sealed, with the whole word. -/
def health (s : State) : State :=
  let f := s.arg.frame
  if etherUp s && !notMine s 8 && frameFormed f && healthPlain f then
    (if healthRoom s then countHealth (sendPlain 8 (toBytes 8 (healthPublic s).toNat) s) else s)
  else takeFrame 8 (etherUp s) true anyText (fun t _ s => sendFrame 8 t (toBytes 8 (healthWord s).toNat) s) s
/-- HEALTH (R410). -/
def execHealth (s : State) : Host.Outcome State Fault Refusal := .next (health s)
/-- "BHP1-KEY". -/
def keyLabel : List Byte := [0x42, 0x48, 0x50, 0x31, 0x2D, 0x4B, 0x45, 0x59]
/-- FWD: the digest of the running firmware (Table 27.9). -/
def runningDigest (s : State) : BitVec 512 := match s.firmware with
  | none => Config.firmwareDigest
  | some m => Config.imageDigest m
/-- The key under which a tenant's ATTEST requests are checked: tenant 0's is the owner key (R407). -/
def hostKey (s : State) (t : BitVec 4) : Option (List Byte) := if t = 0 then some (toBytes 2592 Config.ownerKey.toNat) else (s.ten t).hkey
/-- An ATTEST frame is plain as R407 says: SEQ 0 and TAG zero. -/
def attestFormed (f : Frame) : Bool := frameFormed f && frameSeq f == 0 && frameTag f == List.replicate 16 0
/-- SIGH of an ATTEST request verifies (Table 27.8). -/
def attestSigned (s : State) (f : Frame) : Bool := match hostKey s (frameTen f) with
  | none => false
  | some k =>
    let q := framePayload f
    q.length == 6227 && dsaVerify k (sha3x512 ((f.bytes.drop 4).take 4 ++ q.take 1600)) (q.drop 1600)
/-- What an accepted ATTEST request comes to (R407, R408): the fields of the reply before SIGD, and the tenant's new key. -/
def attestOut (s : State) (f : Frame) : List Byte × BitVec 256 :=
  let q := framePayload f
  let nd := toBytes 32 (Config.nonce s.draws).toNat
  let e := kemEncaps ((q.drop 32).take 1568) (toBytes 32 (Config.kemSeed s.draws).toNat)
  (q.take 32 ++ nd ++ e.2 ++ toBytes 64 (runningDigest s).toNat ++ (s.dies.toList.flatMap fun d => toBytes 2 d.feat.toNat) ++
     toBytes 8 (healthWord s).toNat ++ toBytes 16 Config.serial.toNat,
   BitVec.ofNat 256 (ofBytes ((sha3x512 (keyLabel ++ [(frameTen f).setWidth 8] ++ q.take 32 ++ nd ++ e.1)).take 32)))
/-- SIGD of an ATTEST reply (Table 27.9). -/
def attestSig (s : State) (f : Frame) (body : List Byte) : List Byte :=
  let head : List Byte := [9, (frameTen f).setWidth 8] ++ toBytes 2 6355
  toBytes 4627 (Config.sign (BitVec.ofNat 512 (ofBytes (sha3x512 (framePayload f ++ head ++ body)))) s.draws).toNat
/-- ATTEST: a request (Table 27.8) whose signature verifies under the tenant's host key is answered by Table 27.9, and the tenant's key is derived (R408).
An empty request is ATTEST_CERT. -/
def attest (s : State) : State :=
  let f := s.arg.frame
  let t := frameTen f
  if !portUp s || notMine s 9 then s
  else if !attestFormed f then authFail s
  else if frameLen f = 0 then s
  else if !attestSigned s f then authFail s
  else
    let r := attestOut s f
    let s := sendPlain 9 (r.1 ++ attestSig s f r.1) { s with draws := s.draws + 1 }
    s.modTen t fun x => { x with key := some r.2, rxMax := 0, rxSeen := [], txSeq := 0, endp := f.src, port := f.port }
/-- ATTEST (R407). -/
def execAttest (s : State) : Host.Outcome State Fault Refusal := .next (attest s)
/-- The device's identity certificate: its public key, and Broesk's signature over it (R407). -/
def certificate : List Byte := toBytes 2592 Config.identityKey.toNat ++ toBytes 4627 Config.keySignature.toNat
/-- ATTEST_CERT: an ATTEST request with LEN = 0 is answered with the device's identity certificate. -/
def attestCert (s : State) : State :=
  let f := s.arg.frame
  if !portUp s || notMine s 9 then s
  else if !attestFormed f then authFail s
  else if frameLen f = 0 then sendPlain 9 certificate s
  else s
/-- ATTEST_CERT (R407). -/
def execAttestCert (s : State) : Host.Outcome State Fault Refusal := .next (attestCert s)
/-- A TKEY payload is malformed (R409, Table 27.10); a length, a TID above 15 or a reserved byte that is wrong counts as such (DESIGN CHOICE, log 71). -/
def tkeyBad (l : List Byte) : Bool :=
  let tid := fieldOf l 0 1
  let w := fieldOf l 8 8
  decide (l.length ≠ 2608) || decide (15 < tid) || fieldOf l 1 7 != 0 || w % 0x10000 != 0 || decide (2 ^ 40 < w) ||
  (tid == 0 && (l.drop 16).any (· != 0))
/-- TKEY: tenant 0 registers or deregisters a tenant's host key and sets its window size (Table 27.10). -/
def tkey (s : State) : State :=
  takeFrame 10 (portUp s) (isReady s) anyText (fun t l s =>
    if t ≠ 0 then refuseFrame t 4 s
    else if tkeyBad l then refuseFrame t 5 s
    else
      let w := fieldOf l 8 8
      let k := l.drop 16
      s.modTen (BitVec.ofNat 4 (fieldOf l 0 1)) fun r =>
        if fieldOf l 0 1 = 0 then { r with window := w }
        else if k.all (· == 0) then { r with hkey := none, key := none }
        else { r with hkey := some k, window := w }) s
/-- TKEY (R409). -/
def execTkey (s : State) : Host.Outcome State Fault Refusal := .next (tkey s)

end Sys2Proof.Machine
end

