-- ==== Sys2Proof/Machine/Issue.lean ====
section
/-! DEFINITION. The issue of a bundle (09 R138 to R146, R161, R163, R164; 05 R66, R82 to R86; 13 R219, R422; 25 R398 to R402; 07 R104,
R105, R421) and one cycle of a core: landings, trap entry, selection, attempt, the passing of time. -/

namespace Sys2Proof.Machine

/-! ## What executes (R104, R105, R118) -/

/-- A slot executes when a leaf is taken: by its leaf mask, or by its stage predicate in an active pipelined loop. -/
def executesOn (a : Arch) (h : FH) (leaf : Nat) : Slot → Bool
  | .s => true
  | sl => match activePipe a with
    | some _ => stagePred a ((FH.mask h sl).toNat % 8)
    | none => (FH.mask h sl).getLsbD leaf
/-- The executing slots of a bundle with their plans, in slot order. -/
def slotsOn (a : Arch) (b : Bundle) (leaf : Nat) : List (Slot × Plan) :=
  ((Bundle.ops b).filter fun p => executesOn a b.h leaf p.1).map fun p => (p.1, planOf p.2)
/-- The truth of test n of a bundle's tree. -/
def testOf (s : State) (c : CtxId) (f : FT) (n : Nat) : Bool := testTruth s c (FT.test f n)
/-- A flag that the tree tests lies in a range that a command writes, or waits for an acquire (R302, R264). -/
def testsFreeze (s : State) (c : CtxId) (f : FT) : Bool :=
  (List.range (treeTests f.shape.toNat)).any fun n =>
    let i := testIdx (FT.test f n)
    decide (i < 1016) && (acqPending s c || busyWritten (s.core c.coreId) (4 * i) 4)

/-! ## The next bundle (R161) -/

/-- The end of the innermost bodies at a bundle: the remaining levels, and the level whose counter sends control back. -/
def endBody (pc : W32) : List Level → List Level × Option Level
  | [] => ([], none)
  | l :: r =>
    if l.hi = pc then
      (if l.cnt - 1 ≠ 0 then ({ l with cnt := l.cnt - 1, idx := l.idx + 1 } :: r, some l) else endBody pc r)
    else (l :: r, none)
/-- What the choice of the next bundle comes to: a code address with the levels and rotation that follow and whether it is a back-edge, a
trap, or a page awaited. -/
inductive Choice where
  | go (pc : W32) (loops : List Level) (rot : Nat) (back : Bool)
  | trap (e : Err)
  | await (page : W64)
/-- A target passes the bitmap test of R134 and R421; that of a committed bundle was made at its first attempt (R422). -/
def checkTarget (s : State) (c : CtxId) (pc : W32) (k : Choice) : Choice :=
  if committed s c then k else match targetAt s c pc with
  | .ok => k
  | .bad => .trap ⟨0x01, pc.setWidth 64⟩
  | .await p => .await p
  | .trap e => .trap e
/-- The body length that a loop instruction gives. -/
def loopLen : Instr → Nat
  | .loop _ n => n.toNat
  | .loopi _ _ n => n.toNat
  | .ploop _ n _ _ => n.toNat
  | _ => 0
/-- The next bundle after b, whose leaf is given: `s` is the state before its slots performed, `t` after. A loop that pushes nothing goes on behind its body;
the FETCH trap of a body whose end cannot be found is that of its own slot, which comes first (R155). -/
def chooseNext (c : CtxId) (b : Bundle) (leaf : Nat) (s t : State) : Choice :=
  let a := s.arch c
  let loops := (t.arch c).loops
  let onC := executesOn a b.h leaf .c
  let lv := (FT.leaf b.f leaf).toNat
  if onC && decide (b.c = .tret) && a.inh then .go a.trappc loops a.rot false
  else if lv ≠ 0 then
    let pc := a.t[(Fin.ofNat 7 (lv - 1)).val]
    checkTarget s c pc (.go pc loops a.rot false)
  else if onC && isLoop b.c then
    (if a.loops.length < loops.length then .go (succAt s c a.pc) loops a.rot false
     else match walkBody s c (succAt s c a.pc) (loopLen b.c) with
       | .last e => .go (succAt s c e) loops a.rot false
       | .await p va => if (s.ctx c).unres.contains (pageVa p.toNat) then .trap ⟨0x10, BitVec.ofNat 64 va⟩ else .await p)
  else match endBody a.pc loops with
    | (ls, some l) => checkTarget s c l.lo (.go l.lo ls (if l.pipelined then (a.rot + 1) % 16 else a.rot) true)
    | (ls, none) => .go (succAt s c a.pc) ls a.rot false

/-! ## One attempt (Table 09.1) -/

/-- What an attempt of a context's next bundle comes to: a frozen cycle, with what it does besides; a yield of a waiting bundle, with its
first-attempt action; a wait for landings in real time; a trap posted or an overrun counted; or the issue. -/
inductive Cycle where
  | frozen (f : State → State)
  | yields (s : Option State)
  | lands
  | moved (s : State)
  | issued (yld back : Bool) (s : State)
/-- The bundle would pass MAXRUN (R86). -/
def overruns (x : Ctx) : Bool := decide (x.b.hdr.maxrun < x.arch.run + 1)
/-- Count a bundle. -/
def countRun (c : CtxId) (s : State) : State := s.modArch c fun a => { a with run := a.run + 1 }
/-- A bundle finds a trap (Table 09.1 steps 5 and 6): posted, or held until the outcome of a speculative path (R402). -/
def trapCycle (c : CtxId) (e : Err) (slot leaf : BitVec 3) (clear : State → State) (s : State) : Cycle :=
  let x := s.ctx c
  match x.spec with
  | some _ =>
    if overruns x then .frozen id
    else .frozen fun t => t.modCtx c fun y => { y with spec := y.spec.map fun p => { p with trap := some ⟨e, x.arch.pc, slot, leaf⟩ } }
  | none => if overruns x then .moved (countRun c s) else .moved (postTrap c e x.arch.pc slot leaf (countRun c (clear s)))
/-- A fetch trap (R75, R133); where a task's first fetch is from a page that cannot be had, the task ends as a trap with no handler does (R421). -/
def fetchTrap (c : CtxId) (e : Err) (s : State) : Cycle :=
  let x := s.ctx c
  let va := codeVa x.b.hdr x.arch.pc
  if !x.b.started && (e.cause == 0x10 || e.cause == 0x12) && (placeOf s x.b x.arch.pc == .unmapped || (pageCause s c.die x.b va).isSome) then
    .moved (failTask c (faultWord 1 e.cause 0 0 x.arch.pc) e.addr s)
  else trapCycle c e 7 0 id s
/-- The first trap of step 5 among the slots: STALLSHORT, then by slot a late error (Table 13.14) or the slot's own trap. -/
def slotTrap (x : Ctx) (ps : List (Slot × Plan)) (outs : List (Slot × SlotOut)) (c : CtxId) : Option (Err × BitVec 3 × (State → State)) :=
  match firstSome (fun (p : Slot × Plan) => (stallShort x p.2).map fun e => (e, slotCode p.1)) ps with
  | some r => some (r.1, r.2, id)
  | none => firstSome (fun sl =>
      match x.late.find? fun l => l.slot == slotCode sl with
      | some l => some (l.err, slotCode sl, fun s => s.modCtx c fun y => { y with late := y.late.erase l })
      | none => firstSome (fun (o : Slot × SlotOut) => match o.2 with
          | .trap e f => if o.1 = sl then some (e, slotCode sl, f) else none
          | _ => none) outs) [.a, .b, .l, .v, .m, .c, .s]
/-- Matrix registers that a path has saved or will save. -/
def pathRegs (x : Ctx) (p : Spec0) : List Nat :=
  x.flights.foldl (fun l f => match f.act with
    | .words ws => ws.foldl (fun l w => if l.contains (w.1 / 1024) then l else (w.1 / 1024) :: l) l
    | _ => l) (p.mcopy.map Prod.fst)
/-- The bundle has passed a limit of the dependency table or of a speculative path (R299, R400). -/
def passesLimits (c : CtxId) (t : State) : Bool :=
  let k := t.core c.coreId
  let x := t.ctx c
  decide (16 < k.cmds.length) || decide (48 < comparators k) || (match x.spec with
    | some p => decide (64 < p.held.length) || decide (4 < (pathRegs x p).length)
    | none => false)
/-- Two or more executing slots send to one output port, and it would be full for the last of their elements, or some of them might be written into a range that a
command uses (R226, R246, R272). -/
def sendsFreeze (s : State) (c : CtxId) (ps : List (Slot × Plan)) : Bool :=
  (List.range 8).any fun n =>
    let m := ps.countP fun p => p.2.dst.any fun d => d.toNat == 0x40 + n
    decide (2 ≤ m) && (portFull s c m n || portOutBusy s c m n)
/-- The bundle issues: `t` is the state in which its slots have performed. After a mismatch the next bundle keeps the distance of R401. -/
def finishIssue (c : CtxId) (b : Bundle) (leaf : Nat) (pc : W32) (loops : List Level) (rot : Nat) (back : Bool) (s t : State) : State :=
  let a := s.arch c
  let yld := b.h.yld == 1#1
  let entered := (s.ctx c).spec.isNone
  let least := match (s.ctx c).att with
    | .forced _ n => n - 1
    | _ => 0
  let u := t.modCtx c fun x => { x with
    arch := { x.arch with
      pc := pc, loops := loops, rot := rot, run := if (yld || back) && (t.ctx c).svc.isNone then 0 else a.run + 1, hpc := if a.inh then some a.pc else none }
    stall := max b.h.stall.toNat least, att := .none, unres := [], skip := false
    trap := x.trap.map fun q => { q with pc := pc, leaf := BitVec.ofNat 3 leaf }
    spec := x.spec.map fun p => if entered then { p with
        tests := (List.range 4).map (testOf s c b.f)
        usesT := (List.range 4).map fun n => decide (testIdx (FT.test b.f n) = p.flag)
        bundle := match fetchAt s c a.pc with
          | .bundle w _ => w
          | _ => 0 }
      else { p with n := p.n + 1 } }
  let x := u.ctx c
  if x.b.started then u
  else wrRec c.coreId x.b.tenant x.b.task 0x48 8 (s.die c.die).ptb.toNat (u.modCtx c fun x => { x with b := { x.b with started := true } })
/-- The outcomes of a bundle's slots together (steps 4 to 7): `s` is the state after the pops of step 2, `u` that in which the slots other
than an entering CBR are looked at, which `outs` gives. A FETCH or FEATURE trap of R421, raised here where the next bundle is chosen, has the taken leaf in
TRAPLEAF.LEAF and comes after the traps of the slots, in the place that step 5 of Table 09.1 gives BADTARGET (DESIGN CHOICE, log 73: R421 gives SLOT 7 only, and the
step names only BADTARGET). A bundle that would pass MAXRUN is counted and performs nothing (DESIGN CHOICE, log 68: R86 says
that the task fails when the count exceeds MAXRUN, and not whether that bundle still performs). -/
def settleBundle (c : CtxId) (b : Bundle) (leaf : Nat) (ps : List (Slot × Plan)) (outs : List (Slot × SlotOut)) (s u : State) : Cycle :=
  let x := s.ctx c
  let com := committed s c
  let waitC (f : Option (State → State)) : Cycle :=
    if b.h.yld = 1#1 then .yields (f.map fun f => f s) else .frozen (f.getD id)
  if outs.any fun o => (match o.2 with
    | .land => true
    | _ => false) then .lands
  else match firstSome (fun (o : Slot × SlotOut) => match o.2 with
      | .freeze f => some f
      | _ => none) outs with
    | some f => .frozen f
    | none =>
      let t := outs.foldl (fun t o => match o.2 with
        | .go f => f t
        | _ => t) u
      if passesLimits c t || sendsFreeze s c ps || (x.spec.isSome && !x.late.isEmpty) then .frozen id
      else match chooseNext c b leaf s t with
        | .await p => .frozen (awaitPage c p)
        | ch =>
          if outs.any fun o => (match o.2 with
            | .wait none => true
            | _ => false) then waitC none
          else
            let tr := if com then firstSome (fun (o : Slot × SlotOut) => match o.2 with
                | .trap e f => some (e, slotCode o.1, f)
                | _ => none) outs
              else slotTrap x ps outs c
            match tr, ch with
            | some (e, sl, f), _ => trapCycle c e sl (BitVec.ofNat 3 leaf) f s
            | none, .trap e => trapCycle c e 7 (BitVec.ofNat 3 leaf) id s
            | none, .await p => .frozen (awaitPage c p)
            | none, .go pc loops rot back =>
              match firstSome (fun (o : Slot × SlotOut) => match o.2 with
                  | .wait (some f) => some f
                  | _ => none) outs with
              | some f => waitC (some f)
              | none =>
                if overruns x then (if x.spec.isSome then .frozen id else .moved (countRun c s))
                else .issued (b.h.yld == 1#1) back (finishIssue c b leaf pc loops rot back s t)
/-- A CBR bundle that runs on speculatively: the slots beside CBR under leaf k, none of them in the stall row, in a bundle that does not
yield (R398). -/
def entersPath (s : State) (c : CtxId) (b : Bundle) (k : Nat) : Bool :=
  b.h.yld == 0#1 && (slotsOn (s.arch c) b k).all fun p => p.1 == .c || !stallRow s c p.2
/-- Steps 2 to 7 of Table 09.1 for a fetched bundle. -/
def attemptBundle (c : CtxId) (b : Bundle) (s0 : State) : Cycle :=
  let x0 := s0.ctx c
  let full := match x0.spec with
    | some p => decide (256 ≤ p.n) || b.h.yld == 1#1
    | none => false
  if full || testsFreeze s0 c b.f then .frozen id
  else
    let s := s0.modArch c fun a => { a with loops := popOutside a a.loops }
    let a := s.arch c
    let leaf := match x0.att with
      | .forced k _ => k
      | _ => treeLeaf b.f.shape.toNat (testOf s c b.f)
    let plain (ps : List (Slot × Plan)) : Cycle := settleBundle c b leaf ps (ps.map fun p => (p.1, slotOut p.2 p.1 c s)) s s
    match x0.att, b.c with
    | .none, .cbr t k =>
      if !executesOn a b.h leaf .c then plain (slotsOn a b leaf)
      else if !entersPath s c b k.toNat then
        plain ((slotsOn a b leaf).map fun p => if p.1 = .c then (.c, planCbrWait t) else p)
      else
        let ps := slotsOn a b k.toNat
        (match slotOut (planCbr t k) .c c s with
         | .go f =>
           let u := f s
           let rest := ps.filter fun p => p.1 != .c
           settleBundle c b k.toNat rest (rest.map fun p => (p.1, slotOut p.2 p.1 c u)) s u
         | o => settleBundle c b k.toNat ps [(.c, o)] s s)
    | _, _ => plain (slotsOn a b leaf)
/-- One attempt of a context whose STALL allows it. -/
def attempt (c : CtxId) (s : State) : Cycle :=
  match fetchAt s c (s.arch c).pc with
  | .await va => .frozen (awaitPage c va)
  | .miss va => .frozen fun t => t.modCtx c fun x => { x with miss := some (va, .fetch) }
  | .dict _ => .frozen id
  | .trap e => fetchTrap c e s
  | .bundle w _ => match decodeBundle w with
    | some b => attemptBundle c b s
    | none => fetchTrap c (fetchErr 0x10 (codeVa (s.ctx c).b.hdr (s.arch c).pc)) s

/-! ## A running context's cycle -/

/-- What a cycle is to the RUNNING context of a core. -/
inductive Turn where
  | passes
  | stalls
  | frozen (f : State → State)
  | tries (y : Cycle)
/-- The turn of a running context, its results that are due counted as landed (R144). A release that has come to a result in flight lets it land (R401,
log 55). While a trap waits for landings the STALL of its bundle is held, so that the handler's first bundle waits for it (DESIGN CHOICE, log 73: R163
says nothing of it). -/
def turnOf (c : CtxId) (s : State) : Turn :=
  let x := s.ctx c
  if x.exit.isSome then .passes
  else if x.trap.isSome then (if x.miss.isSome then .frozen id else .passes)
  else if 0 < x.stall then .stalls
  else if x.miss.isSome || x.svc.isSome then .frozen id
  else
    let try' : Turn := match attempt c (if hasDue x then landDue c s else s) with
      | .frozen f => .frozen f
      | y => .tries y
    match x.spec with
    | some p => if releaseWaits p then .passes else if p.round = 0 then .frozen (releaseStep c) else if p.trap.isSome then .frozen id else try'
    | none => try'
/-- The cycle is a frozen cycle of the context. -/
def Turn.isFrozen : Turn → Bool
  | .frozen _ => true
  | _ => false
/-- The results of a context that are due may land in this cycle: not those of a frozen, restored or saving context. -/
def mayLand (s : State) (c : CtxId) : Bool :=
  let x := s.ctx c
  hasDue x && (x.exit.isSome || (match x.st with
    | .running => !(turnOf c s).isFrozen
    | .landing => true
    | .ready => !x.held
    | .saving => x.flights.any fun f => f.rem == 0 && landsWhileSaving f
    | _ => false))
/-- Land those results of a SAVING context that land there (R278). -/
def landSaving (c : CtxId) (s : State) : State :=
  let due (f : Flight) : Bool := f.rem == 0 && landsWhileSaving f
  forEach ((s.ctx c).flights.filter due) (landOne c) (s.modCtx c fun x => { x with flights := x.flights.filter fun f => !due f })
/-- RESULT_LANDING: the results of a context that are due land (R139 to R142). -/
def resultLanding (s : State) : State :=
  let c : CtxId := ⟨s.arg.die, s.arg.core, s.arg.ctx⟩
  if !mayLand s c then s
  else if (s.ctx c).st = .saving ∧ (s.ctx c).exit.isNone then landSaving c s
  else landDue c s
/-- RESULT_LANDING (R141). -/
def execResultLanding (s : State) : Host.Outcome State Fault Refusal := .next (resultLanding s)
/-- The trap that waits may be entered now: every fixed-latency result of the running context has landed (R163). -/
def trapReady (x : Ctx) : Bool := x.st == .running && x.trap.isSome && x.flights.isEmpty && x.miss.isNone && x.exit.isNone
/-- TRAP_ENTRY: the trap of a running context is taken (R163). -/
def trapEntry (s : State) : State :=
  let c : CtxId := ⟨s.arg.die, s.arg.core, s.arg.ctx⟩
  match (s.ctx c).trap with
  | some t => if trapReady (s.ctx c) then takeTrap c t s else s
  | none => s
/-- TRAP_ENTRY (R163). -/
def execTrapEntry (s : State) : Host.Outcome State Fault Refusal := .next (trapEntry s)
/-- The running context's count has passed MAXRUN. -/
def overrun (x : Ctx) : Bool := x.st == .running && x.exit.isNone && x.spec.isNone && decide (x.b.hdr.maxrun < x.arch.run)
/-- MAXRUN_EXCEEDED: the task fails with KIND 4 (R86). -/
def maxrunExceeded (s : State) : State :=
  let c : CtxId := ⟨s.arg.die, s.arg.core, s.arg.ctx⟩
  if overrun (s.ctx c) then failTask c (faultWord 4 0 0 0 (s.arch c).pc) 0 s else s
/-- MAXRUN_EXCEEDED (R86). -/
def execMaxrunExceeded (s : State) : Host.Outcome State Fault Refusal := .next (maxrunExceeded s)
/-- The dictionary entry that a running context's fetch waits for (R98). -/
def dictWanted (s : State) (c : CtxId) : Option Nat :=
  let x := s.ctx c
  if x.st = .running ∧ x.exit.isNone ∧ x.miss.isNone then (match fetchAt s c x.arch.pc with
    | .dict n => some n
    | _ => none) else none
/-- DICTIONARY_FILL: the cache receives the entry that a running context waits for (R98). -/
def dictionaryFill (s : State) : State :=
  let c : CtxId := ⟨s.arg.die, s.arg.core, s.arg.ctx⟩
  let t := (s.ctx c).b.tenant
  match dictWanted s c with
  | none => s
  | some n =>
    let a := (s.ctx c).b.hdr.dict + BitVec.ofNat 64 (48 * n)
    match dictBytes s c n with
    | some w => fillDict c n w (noteHbm c.die (dictCells s c n) (fillWalk c.coreId t a (fillWalk c.coreId t (a + 47) s)))
    | none => awaitPage c (if (translate s c.coreId t a).isSome then a + 47 else a) s
/-- DICTIONARY_FILL (R98). -/
def execDictionaryFill (s : State) : Host.Outcome State Fault Refusal := .next (dictionaryFill s)

/-! ## The slot of a core (R66, R82 to R84) -/

/-- The contexts of a core. -/
def coreCtxs (k : CoreId) : List CtxId := (List.finRange 8).map fun i => ⟨k.die, k.core, i⟩
/-- The RUNNING context of a core. -/
def runningOf (s : State) (k : CoreId) : Option CtxId := (coreCtxs k).find? fun c => (s.ctx c).st == .running
/-- A context's request takes effect here: it is READY at a boundary, or waits for its gang's start (R340, Table 21.3). -/
def atBoundary (s : State) (c : CtxId) : Bool :=
  let x := s.ctx c
  x.preempt && x.exit.isNone && x.spec.isNone && x.att == .none && ((x.st == .ready && !x.skip) || (x.st == .waiting && x.b.start.isSome && (s.core c.coreId).scrub.isNone && (restoring s c).isNone))
/-- Contexts change state at the start of a cycle: landed ones become READY or resume, failed ones leave the slot, requests take effect. -/
def settleCtx (c : CtxId) (s : State) : State :=
  let x := s.ctx c
  let s :=
    if x.exit.isSome then
      (if (match x.exit with
        | some e => e.failed
        | none => false) && x.st == .running then s.modCtx c fun x => { x with st := .ready, preempt := false }
       else s.modCtx c fun x => { x with preempt := false })
    else if x.st = .landing ∧ x.flights = [] then
      s.modCtx c fun x => { x with st := if x.skip && !x.preempt then .running else .ready, skip := false }
    else s
  if atBoundary s c then beginSave c s else s
/-- A READY context may be selected: its task has not ended, and its waiting condition, if it yielded on one, holds (R219). -/
def selectable (s : State) (c : CtxId) : Bool :=
  let x := s.ctx c
  x.st == .ready && x.exit.isNone && (!x.skip || (match attempt c s with
    | .yields none => false
    | _ => true))
/-- The order of R82 after the context that last ran. -/
def selectOrder (s : State) (k : CoreId) : List CtxId :=
  (List.range 8).map fun i => ⟨k.die, k.core, Fin.ofNat 8 ((s.core k).last.val + 1 + i)⟩
/-- The core selects a context when none runs and none keeps the slot. -/
def selectCtx (k : CoreId) (s : State) : State :=
  if (runningOf s k).isSome || (coreCtxs k).any fun c => (s.ctx c).st == .landing && (s.ctx c).skip then s
  else match (selectOrder s k).find? (selectable s) with
    | none => s
    | some c => (s.modCtx c fun x => { x with st := .running, skip := false }).modCore k fun q => { q with last := c.ctx }
/-- The running context after an issue: one that waits for a service is frozen, its bundle a boundary for nothing (R419); a yield gives up the slot unless no
other context can take it (R82, R83); a request at the boundary takes effect (R340), the snapshot being that of the next cycle's start. -/
def afterIssue (c : CtxId) (yld back : Bool) (s : State) : State :=
  let x := s.ctx c
  if x.exit.isSome || x.svc.isSome then s
  else
    let fl := !x.flights.isEmpty
    let s :=
      if !yld then s
      else if (coreCtxs c.coreId).any fun o => o != c && selectable s o then
        s.modCtx c fun x => { x with st := if fl then .landing else .ready }
      else if fl then s.modCtx c fun x => { x with st := .landing, skip := true }
      else s
    if x.preempt && x.spec.isNone && (back && !yld || yld && !fl) then
      beginSave c (s.modCtx c fun x => { x with flights := x.flights.map fun f => if landsWhileSaving f then f else { f with rem := f.rem - 1 } })
    else s
/-- The cycle of the running context, and whether it is frozen. -/
def runTurn (c : CtxId) (s : State) : State × Bool :=
  let land (u : State) : State := if hasDue (u.ctx c) then landDue c u else u
  match turnOf c s with
  | .passes => (s, false)
  | .stalls => ((land s).modCtx c fun x => { x with stall := x.stall - 1 }, false)
  | .frozen f => (f s, true)
  | .tries y => match y with
    | .frozen f => (f s, true)
    | .yields u => ((u.getD (land s)).modCtx c fun x => { x with st := .ready, skip := true }, false)
    | .lands => (land s, false)
    | .moved u => (u, false)
    | .issued yld back u => (afterIssue c yld back (noteFetch s c u), false)

/-! ## Time -/

/-- A cycle passes for the distance of R401. -/
def tickForced (x : Ctx) : Ctx :=
  match x.att with
  | .forced k n => { x with att := .forced k (n - 1) }
  | _ => x
/-- The passing of a cycle for the results and counts of one context. -/
def tickCtx (isFrozen : Bool) (x : Ctx) : Ctx :=
  let x := tickForced x
  if x.exit.isSome then { tickFlights x with frozen := 0 }
  else match x.st with
    | .running => if isFrozen then { x with frozen := x.frozen + 1 } else { tickFlights x with frozen := 0 }
    | .landing => { tickFlights x with frozen := 0 }
    | .ready => if x.held then x else { tickFlights x with frozen := 0 }
    | .saving => { x with frozen := 0, flights := x.flights.map fun f => if landsWhileSaving f then { f with rem := f.rem - 1 } else f }
    | .scrub => { x with scrubLeft := x.scrubLeft - 1 }
    | _ => x
/-- STALL passes in real time for a context that does not run. -/
def stallPasses (x : Ctx) : Ctx :=
  match x.st with
  | .landing => { x with stall := x.stall - 1 }
  | .ready => if x.held then x else { x with stall := x.stall - 1 }
  | _ => x
/-- The end of a cycle of a core (R168, R300, R67, R90, R399, R356). -/
def endCycle (k : CoreId) (isFrozen : Bool) (s : State) : State :=
  let s := (markReady k s).modCore k fun q => tickCmds { q with
    ctxs := q.ctxs.map (tickCtx isFrozen), cycle := q.cycle + 1
    scrub := q.scrub.map fun g => (g.1, g.2 - 1) }
  let s := tickBarriers false k (tickRounds false k (meetBarriers (settleRounds s)))
  forEach (coreCtxs k) (fun c s => if (s.ctx c).exit.isSome then finishStep c s else s) s
/-- A restored context takes its first cycle: a trap that waited at the boundary is entered in it, the results that are due landing first, as in the cycle
whose place it takes (R345). -/
def resumeHeld (c : CtxId) (s : State) : State :=
  let x := s.ctx c
  let s := s.modCtx c fun x => { x with held := false }
  if x.held && x.trap.isSome && x.miss.isNone && x.exit.isNone then
    let s := if hasDue x then landDue c s else s
    match (s.ctx c).trap with
    | some t => if trapReady (s.ctx c) then takeTrap c t s else s
    | none => s
  else s
/-- One cycle of a core. -/
def coreCycle (k : CoreId) (s : State) : State :=
  let s := selectCtx k (forEach (coreCtxs k) settleCtx s)
  let s := forEach (coreCtxs k) (fun c s => s.modCtx c stallPasses) s
  match runningOf s k with
  | none => endCycle k false s
  | some c =>
    let r := runTurn c (resumeHeld c s)
    endCycle k r.2 r.1
/-- One round of the cores passes for the pod time base of a die: 1 tick each nanosecond, whatever the cores' clocks; the rate changes by at most 1 tick
per µs, and a die that has slowed down to its master's count clears PTBLOST (R34, R371). -/
def tickPtb (d : Fin 4) (s : State) : State :=
  s.modDie d fun x =>
    let a := x.ptbAcc + 1000
    if a < 1700 then { x with ptbAcc := a }
    else
      let x := { x with ptbAcc := a - 1700 }
      if x.ptbUs < 999 ∨ x.ptbSlew = 0 then { x with ptb := x.ptb + 1, ptbUs := min 999 (x.ptbUs + 1) }
      else if 0 < x.ptbSlew then { x with ptb := x.ptb + 2, ptbUs := 0, ptbSlew := x.ptbSlew - 1 }
      else { x with ptbUs := 0, ptbSlew := x.ptbSlew + 1, ptbLost := x.ptbLost && decide (x.ptbSlew + 1 < -2) }
/-- The core that takes its cycle after a given one. -/
def nextCore (c : CtxId) : CtxId := ⟨if c.core.val = 15 then c.die + 1 else c.die, c.core + 1, 0⟩
/-- The round of the cores, at 1,700 MHz, is a cycle of a core: at a lower clock some rounds are not (R34). -/
def cycleNow (k : Core) : Bool := decide (1700 ≤ k.phase + k.ctl.mhz)
/-- A round of the cores passes for one core. -/
def coreRound (k : CoreId) (s : State) : State :=
  let p := (s.core k).phase + (s.core k).ctl.mhz
  tickBarriers true k (tickRounds true k
    (if cycleNow (s.core k) then coreCycle k (s.modCore k fun q => { q with phase := p - 1700 }) else s.modCore k fun q => { q with phase := p }))
/-- A round of all cores is over: the barriers and rounds whose latency has passed reach their members from the next round on (R90). -/
def roundOver (s : State) : State :=
  { s with
    barriers := s.barriers.map fun (b : Barrier) => { b with due := b.due || b.left == some 0 }
    rounds := s.rounds.map fun (r : Round) => { r with due := r.due || (r.formed.isSome && r.members.all fun m => m.left == some 0) } }
/-- A cycle of the first core of a die has passed: features may go, and the dispatcher may choose again (R338, R363). -/
def dieCycle (d : Fin 4) (s : State) : State := settleFeat d (s.modDie d fun x => { x with chosen := false })
/-- BUNDLE_ISSUE: the core in focus has its round: its running context tries to issue, and the core's time passes. The removal of features, the
dispatcher and the notification queues advance with the first core, the die's time base with the last; the releases and outcomes whose latency has passed
reach every core in the next round. -/
def bundleIssue (s : State) : State :=
  let k := s.focus.coreId
  let first := k.core = 0
  let cyc := cycleNow (s.core k)
  let s := if s.hstate ≠ 1 then s else
    let s := coreRound k s
    if first then (if cyc then dieCycle k.die s else settleFeat k.die s) else s
  let s := if first ∧ k.die = 0 ∧ (s.hstate = 1 ∨ s.hstate = 2) then drainNotes s else s
  let s := if k.core = 15 then tickPtb k.die s else s
  let s := if k.core = 15 ∧ k.die = 3 then roundOver s else s
  { s with focus := nextCore s.focus }
/-- BUNDLE_ISSUE (R138). -/
def execBundleIssue (s : State) : Host.Outcome State Fault Refusal := .next (bundleIssue s)

end Sys2Proof.Machine
end

