-- ==== Sys2Proof/Machine/System.lean ====
section
/-! DEFINITION. The module as a whole (27 R404, R411 to R417; 01 R32 to R35): starts, clocks and temperature, core errors, corrected errors, IPv6. -/

namespace Sys2Proof.Machine

/-! ## Starts (R411 to R414) -/

/-- A core after a start: its logical number keeps the site that fuses and substitution gave it (R32). -/
def Core.restart (n : Nat) (k : Core) : Core := { Core.reset n k.site with inService := k.inService }
/-- A link after a start faces what the pod's configuration gives it (R29): spares used stay used; the links that the event lists as failed, and the Z
links of a pod of Z size 1, are out of service. -/
def Link.restart (s : State) (failed : List (Nat × Nat)) (d : Fin 4) (l : Fin 6) : Link :=
  let far := farEnd s d l
  let bad := failed.any fun p => p == (d.val, l.val) || (far.2.2.isNone && p == (far.1.val, far.2.1.val))
  let k := (s.die d).links[l.val]
  { Link.fresh d l ((decide (l.val < 4) || s.podZ != 0) && !bad) far with spares := k.spares, lanes8 := k.lanes8 }
/-- The pod is a single package (R371). -/
def onePackage (s : State) : Bool := s.podX == 1 && s.podY == 1 && s.podZ == 0
/-- A die after a start. Its features are those that its cores still provide, XLINK as its links have trained. Its receiver starts the pod's count where
no neighbour is locked, which bit 4 of the event's `val` tells in a pod of several packages; else it is not locked until it has taken a neighbour's count
(R371). -/
def Die.restart (s : State) (failed : List (Nat × Nat)) (d : Fin 4) : Die :=
  let x := s.die d
  let links := Vector.ofFn fun (l : Fin 6) => Link.restart s failed d l
  { Die.reset d with
    cores := .ofFn fun (i : Fin 16) => Core.restart (coreNo d i) x.cores[i.val]
    links := links, spare := x.spare, spareSite := x.spareSite, ptbLocked := onePackage s || s.arg.val.getLsbD 4
    feat := (x.feat &&& ~~~x.featDrop &&& 0x5FF) ||| (if hasExternal d links then 0x200 else 0) }
/-- The spare pools are full and no link runs on 8 lanes (R417). -/
def poolsFull (s : State) : Bool :=
  s.dies.toList.all (fun d => d.spare && d.links.toList.all fun l => l.spares == 2 && !l.lanes8) && s.hbmStacks.toList.all (·.rowsOut.isEmpty) &&
  s.vaultSpare.toList.all id
/-- A die whose spares have been replaced in service (28): sites 0 to 15 serve its cores, its spare is site 16 and it has every feature, as at reset
(DESIGN CHOICE, log 7: the spec does not say what the fuses of the parts put in are). -/
def Die.serviced (d : Fin 4) (x : Die) : Die :=
  { x with
    spare := true, spareSite := 16, feat := 0x7FF
    cores := .ofFn fun (i : Fin 16) => Core.reset (coreNo d i) (BitVec.ofNat 5 i.val)
    links := .ofFn fun (l : Fin 6) => Link.reset d l }
/-- The module with every spare replaced (R416, 28). -/
def serviced (s : State) : State :=
  { s with
    dies := .ofFn fun (d : Fin 4) => Die.serviced d (s.die d), hbmStacks := s.hbmStacks.map fun (k : Stack) => { k with rowsOut := [] }
    vaultSpare := .replicate 16 true }
/-- HBM as a warm start preserves it, but for the tenants' root tables, which start empty (R412, log 40). -/
def keptHbm (s : State) : Cells 8 := clearCells s.hbm (8 * 2 ^ 36 - 16 * rootBytes) (8 * 2 ^ 36)
/-- The module after the steps of a start; HBM keeps its contents only when `keep` (R412). What the world outside has seen or sent stays. -/
def restarted (keep : Bool) (failed : List (Nat × Nat)) (s : State) : State :=
  let u := { State.reset with
    dies := .ofFn (Die.restart s failed), hbmStacks := s.hbmStacks.map fun (k : Stack) => { Stack.reset with rowsOut := k.rowsOut }
    hbm := if keep then keptHbm s else []
    replace := s.replace, attempts := s.attempts, log := s.log, logged := s.logged, staging := s.staging, firmware := s.firmware, vaultSpare := s.vaultSpare, paramsValid := s.paramsValid, corrected := s.corrected
    warmFails := s.warmFails, coldFails := s.coldFails, podX := s.podX, podY := s.podY, podZ := s.podZ, blkX := s.blkX, blkY := s.blkY, blkZ := s.blkZ
    nextId := s.nextId, draws := s.draws, focus := s.focus, arg := s.arg, inbox := s.inbox, outbox := s.outbox, crossOut := s.crossOut }
  { u with dies := .ofFn fun (d : Fin 4) => { u.die d with ptbParent := if dieId u d = ptbMaster u then none else ptbChoice u d } }
/-- A pod's configuration as six bytes, the sizes less 1 and the block (R29): X and Y sizes even, 2 to 16, the Z size 1 to 12, the block inside. -/
def podOk (l : List Byte) : Bool :=
  let n (i : Nat) : Nat := (l.getD i 0).toNat
  l.length == 6 && n 0 % 2 == 1 && decide (n 0 ≤ 15) && n 1 % 2 == 1 && decide (n 1 ≤ 15) && decide (n 2 ≤ 11) &&
  decide (2 * n 3 + 1 ≤ n 0) && decide (2 * n 4 + 1 ≤ n 1) && decide (n 5 ≤ n 2)
/-- The supervisor assigns the package its block of the pod. -/
def assignPod (l : List Byte) (s : State) : State :=
  let n (i : Nat) : BitVec 4 := (l.getD i 0).setWidth 4
  if podOk l then { s with podX := n 0, podY := n 1, podZ := n 2, blkX := n 3, blkY := n 4, blkZ := n 5 } else s
/-- The records that the management log holds, 16 bytes each in 60 KiB (Table 27.11). -/
def logSize : Nat := 3840
/-- The management log takes a record, with the next sequence number; a full log loses its oldest (R414). What is recorded is the end of every start attempt,
with a value that is free (DESIGN CHOICE, log 10: the spec says neither what is recorded nor what a value is). -/
def logStep (step code : Nat) (s : State) : State :=
  let r : LogRec := ⟨BitVec.ofNat 32 s.logged, BitVec.ofNat 32 step, BitVec.ofNat 32 code, Config.freeWord s.draws⟩
  { s with log := (s.log ++ [r]).drop (s.log.length + 1 - logSize), logged := s.logged + 1, draws := s.draws + 1 }
/-- The last six attempts, newest first: last step reached and failing step (as last + 256 · failing), error code (Table 27.11). -/
def noteAttempt (last failing code : Nat) (s : State) : State :=
  logStep (if failing = 0 then last else failing) code { s with attempts := ((last + 256 * failing, code) :: s.attempts).take 6 }
/-- The start that an event tells of is the one under way: of its kind, and the step that the event names, if it names one, lies beyond the steps that
the start has run (R411). -/
def goesOn (warm : Bool) (step : Option Nat) (s : State) : Bool :=
  s.hstate == 0#4 && s.starting.any fun p => p.1 == warm && step.all fun n => decide (p.2 < n)
/-- The links that are in service in one state and not in another, one end of each. -/
def linksLost (s u : State) : List (Fin 4 × Fin 6) :=
  let lost (p : Fin 4 × Fin 6) : Bool := (linkOf s p.1 p.2).up && !(linkOf u p.1 p.2).up
  ((List.finRange 4).flatMap fun d => (List.finRange 6).map fun l => (d, l)).filter fun p =>
    let x := linkOf s p.1 p.2
    lost p && !(x.out.isNone && lost (x.farDie, x.farLink) && decide (x.farDie.val * 6 + x.farLink.val < p.1.val * 6 + p.2.val))
/-- A start that goes on keeps the keys and addresses that it has taken since its Ethernet port came up (R404, R408, R411), and tells the holders of keys of
the links that do not train (R417); one that begins has none. -/
def keepPort (on : Bool) (s u : State) : State :=
  if on && etherUp s then
    forEach (linksLost s u) (fun _ => notifyKeyed 3) { u with tenants := s.tenants, addrs := s.addrs, authfail := s.authfail, unsealed := s.unsealed }
  else u
/-- A start has come as far as a step, and is not READY before step 10. -/
def startAt (warm : Bool) (step : Nat) (u : State) : State := { u with hstate := 0, starting := some (warm, min 9 step) }
/-- The step that a start event names: that it has come to (bit 2 of `val`) or that has failed; none where the start is done. -/
def startStep (s : State) : Option Nat := if s.arg.val.getLsbD 2 || !s.arg.ok then some s.arg.num else none
/-- The boot ROM installs an image that waits in the staging area and verifies, and the area is empty (R414). -/
def bootImage (ok : Bool) (s : State) : State :=
  { s with firmware := if ok && !s.staging.isEmpty then some s.staging else s.firmware, staging := [] }
/-- COLD_START: power-on or a cold start runs the steps of Table 27.4 in order. With bit 2 of `val` it has come to step `num`; else with `ok` it ends
READY, with the links that `list` names untrained, and without it step `num` has failed with code `id`: the third failed cold start in a row ends in safe
mode, which only power cycling leaves (R413). An event goes on with a cold start under way, or begins one. Of `val`, bit 0 tells that the spares have
been replaced (R417), bit 3 that the power has been cycled, with bit 1 that an image in the staging area verifies (R414), bit 4 that no neighbour in
another package is locked (R371); `data` holds the pod's configuration, if it has changed (R29). -/
def coldStart (s : State) : State :=
  let cycled := s.arg.val.getLsbD 3
  if s.hstate = 2 ∧ cycled = false then s
  else
    let on := goesOn false (startStep s) s && !cycled
    let s := assignPod s.arg.data (if cycled then bootImage (s.arg.val.getLsbD 1) s else s)
    let s := if s.arg.val.getLsbD 0 then serviced s else s
    let u := keepPort on s (restarted false s.arg.list s)
    if s.arg.val.getLsbD 2 then startAt false s.arg.num u
    else if s.arg.ok then
      noteAttempt 10 0 0 { u with warmFails := 0, coldFails := 0, paramsValid := true, replace := if poolsFull u then false else u.replace }
    else
      noteAttempt (s.arg.num - 1) s.arg.num s.arg.id
        { u with coldFails := s.coldFails + 1, paramsValid := false, hstate := if 3 ≤ s.coldFails + 1 then 2 else 0 }
/-- COLD_START (R411). -/
def execColdStart (s : State) : Host.Outcome State Fault Refusal := .next (coldStart s)
/-- WARM_START: bit 0 of `val` asks to preserve HBM, bit 1 tells that the saved parameters are valid; HBM is kept only if step 5 is skipped
as well (R412); bits 2 and 4 as in COLD_START. The third failed warm start in a row is followed by a cold start: it begins, and its events go on with it
(R413). Safe mode and THERMAL-TRIP are not left by a warm start, nor may one follow three that failed (R35, R413). -/
def warmStart (s : State) : State :=
  if s.hstate = 2 ∨ s.hstate = 3 ∨ 3 ≤ s.warmFails then s
  else
    let keep := s.arg.val.getLsbD 0 && s.arg.val.getLsbD 1 && s.paramsValid
    let u := keepPort (goesOn true (startStep s) s) s (restarted keep s.arg.list s)
    if s.arg.val.getLsbD 2 then startAt true s.arg.num u
    else if s.arg.ok then noteAttempt 10 0 0 { u with warmFails := 0, coldFails := 0, paramsValid := true }
    else if s.warmFails = 2 then
      noteAttempt (s.arg.num - 1) s.arg.num s.arg.id (startAt false 0 { restarted false s.arg.list s with warmFails := 3, paramsValid := false })
    else noteAttempt (s.arg.num - 1) s.arg.num s.arg.id { u with warmFails := s.warmFails + 1, hstate := 0 }
/-- WARM_START (R411). -/
def execWarmStart (s : State) : Host.Outcome State Fault Refusal := .next (warmStart s)

/-! ## Power and temperature (R34, R35) -/

/-- A clock that the management core sets: 850 MHz to 1,700 MHz in steps of 50. -/
def clockOk (n : Nat) : Bool := decide (850 ≤ n) && decide (n ≤ 1700) && n % 50 == 0
/-- The clock of a core: the least that the power limit, a throttle of its die and the throttles of its die's stacks leave of 1,700 MHz (R34, R35). When a
throttle ends, the clock is again what the others leave (DESIGN CHOICE, log 67: R35 gives no value). -/
def coreClock (s : State) (c : CoreId) : Nat :=
  let d := s.die c.die
  ((List.finRange 8).filter fun n => stackDie n.val == c.die && (s.hbmStacks[n.val]).throttled).foldl
    (fun m n => min m (s.hbmStacks[n.val]).cap) (min (s.core c).cap (if d.throttled then d.cap else 1700))
/-- Both islands of the cores of a die run at their clock. -/
def syncClocks (d : Fin 4) (s : State) : State :=
  forEach (List.finRange 16) (fun i s => s.modCore ⟨d, i⟩ fun k =>
    { k with ctl := { k.ctl with mhz := coreClock s ⟨d, i⟩ }, arr := { k.arr with mhz := coreClock s ⟨d, i⟩ } }) s
/-- A clock lowered to n MHz, if that is a clock. -/
def lowered (n cap : Nat) : Nat := if clockOk n then min n cap else cap
/-- POWER_LIMIT: the clock of a core's islands is lowered to `num` MHz; it rises again only at a start (DESIGN CHOICE, log 67: R34 says nothing of it). -/
def powerLimit (s : State) : State :=
  syncClocks s.arg.die (s.modCore ⟨s.arg.die, s.arg.core⟩ fun k => { k with cap := lowered s.arg.num k.cap })
/-- POWER_LIMIT (R34). -/
def execPowerLimit (s : State) : Host.Outcome State Fault Refusal := .next (powerLimit s)
/-- DIE_THROTTLE: a die at its throttle temperature has its cores' clocks lowered to `num` MHz. -/
def dieThrottle (s : State) : State :=
  syncClocks s.arg.die (s.modDie s.arg.die fun x => { x with throttled := true, cap := lowered s.arg.num x.cap })
/-- DIE_THROTTLE (R35). -/
def execDieThrottle (s : State) : Host.Outcome State Fault Refusal := .next (dieThrottle s)
/-- DIE_THROTTLE_RELEASE: the die has cooled by 3 °C. -/
def dieThrottleRelease (s : State) : State := syncClocks s.arg.die (s.modDie s.arg.die fun x => { x with throttled := false, cap := 1700 })
/-- DIE_THROTTLE_RELEASE (R35). -/
def execDieThrottleRelease (s : State) : Host.Outcome State Fault Refusal := .next (dieThrottleRelease s)
/-- HBM_REFRESH_DOUBLE: a stack above 85 °C refreshes twice as often; with `ok` it has cooled and no longer does. -/
def hbmRefreshDouble (s : State) : State := modStack (Fin.ofNat 8 s.arg.unit) (fun k => { k with refresh2 := !s.arg.ok }) s
/-- HBM_REFRESH_DOUBLE (R35). -/
def execHbmRefreshDouble (s : State) : Host.Outcome State Fault Refusal := .next (hbmRefreshDouble s)
/-- HBM_THROTTLE: a stack spaces its activations, and the clocks of its die's cores are lowered to `num` MHz. -/
def hbmThrottle (s : State) : State :=
  syncClocks (stackDie (s.arg.unit % 8))
    (modStack (Fin.ofNat 8 s.arg.unit) (fun k => { k with throttled := true, cap := lowered s.arg.num k.cap }) s)
/-- HBM_THROTTLE (R35). -/
def execHbmThrottle (s : State) : Host.Outcome State Fault Refusal := .next (hbmThrottle s)
/-- HBM_THROTTLE_RELEASE: the stack has cooled by 3 °C, and both measures end. -/
def hbmThrottleRelease (s : State) : State :=
  syncClocks (stackDie (s.arg.unit % 8)) (modStack (Fin.ofNat 8 s.arg.unit) (fun k => { k with throttled := false, cap := 1700 }) s)
/-- HBM_THROTTLE_RELEASE (R35). -/
def execHbmThrottleRelease (s : State) : Host.Outcome State Fault Refusal := .next (hbmThrottleRelease s)
/-- THERMAL_TRIP: every die stops, the HBM stacks are powered down and lose their contents, and HEALTH reports THERMAL-TRIP. -/
def thermalTrip (s : State) : State :=
  { s with hstate := 3, hbm := [], islands := s.islands.map fun i => if i.kind = .phy then { i with on := false } else i }
/-- THERMAL_TRIP (R35). -/
def execThermalTrip (s : State) : Host.Outcome State Fault Refusal := .next (thermalTrip s)

/-! ## Errors (R416, R417) -/

/-- A task bound on a failed core fails with KIND 9 and ends as any task that fails; one that has written its end goes on with it (R357, R416). -/
def failCtx (c : CtxId) (s : State) : State :=
  let x := s.ctx c
  let ended := x.exit.any fun e => e.failed || e.sig.isSome
  if !x.st.bound || ended then s
  else
    let s := match restoring s c with
      | some v => heldBy c v { s with saved := s.saved.filter fun w => w.ctx.b.uid != x.b.uid }
      | none => s
    (failTask c (faultWord 9 0 0 0 0) 0 s).modCtx c fun y => { y with st := if y.st = .waiting ∨ y.st = .saving then .ready else y.st, quiesce := false, admSaved := none, preempt := false }
/-- The members of gangs that are reserved on a failed core fail as those bound on it do. -/
def failReserved (k : CoreId) (s : State) : State :=
  let u := forEach s.teams (fun g s => forEach (g.pend.filter fun p => p.core == k) (fun p s => killRec k g.tenant p.take.task (faultWord 9 0 0 0 0) s) s) s
  { u with teams := u.teams.map fun g => { g with pend := g.pend.filter fun p => p.core != k } }
/-- A failed core whose tasks have all ended. -/
def coreEmpty (s : State) (k : CoreId) : Bool := (s.core k).failing && (coreCtxs k).all fun c => !(s.ctx c).st.bound
/-- The die's spare takes the number of a failed core and its two islands, or the core stays out of service. -/
def swapCore (k : CoreId) (s : State) : State :=
  let x := s.die k.die
  let old := s.core k
  let s := s.setCore k { Core.reset (coreNo k.die k.core) (if x.spare then x.spareSite else old.site) with
    inService := x.spare, cycle := old.cycle, cap := old.cap, phase := old.phase }
  setReplace (syncClocks k.die (s.modDie k.die fun d => { d with spare := false }))
/-- CORE_ERROR: the tasks of a core with an uncorrectable error fail, and the bits `num` of the die's features that are lost with it are removed under R338; once
its tasks have ended, of which an event with `ok` tells, the die's spare takes its place. -/
def coreError (s : State) : State :=
  let k : CoreId := ⟨s.arg.die, s.arg.core⟩
  if s.arg.ok then (if coreEmpty s k then swapCore k s else s)
  else
    let s := failReserved k (forEach (coreCtxs k) failCtx (s.modCore k fun q => { q with failing := true, scrub := none, want := none }))
    s.modDie k.die fun d => { d with featDrop := d.featDrop ||| (BitVec.ofNat 11 s.arg.num &&& d.feat &&& 0x7FE) }
/-- CORE_ERROR (R416). -/
def execCoreError (s : State) : Host.Outcome State Fault Refusal := .next (coreError s)
/-- The spare pool that a corrected error has emptied: with 1 in `val` the spare rows of bank `unit` of stack `ctx`, with 2 the spare bank of vault `core`
(R416; which bank or vault is the event's to say, log 19). -/
def emptyPool (s : State) : State :=
  if s.arg.val = 1 then setReplace (modStack s.arg.ctx (fun k => { k with rowsOut := s.arg.unit :: k.rowsOut.filter (· != s.arg.unit) }) s)
  else if s.arg.val = 2 then setReplace { s with vaultSpare := s.vaultSpare.set s.arg.core.val false }
  else s
/-- CORRECTED_ERROR: a corrected error at second `va` of the management core's clock counts with those of the 24 h before it (log 19); past the
supervisor's limit `num`, or when it empties a spare pool, REPLACE is set. -/
def correctedError (s : State) : State :=
  let now := s.arg.va.toNat
  let l := now :: s.corrected.filter fun u => decide (now < u + 86400)
  let s := emptyPool { s with corrected := l }
  if s.arg.num < l.length then setReplace s else s
/-- CORRECTED_ERROR (R417). -/
def execCorrectedError (s : State) : Host.Outcome State Fault Refusal := .next (correctedError s)

/-! ## IPv6 (R404) -/

/-- An ICMPv6 packet to an address. -/
def sendIcmp (type : Byte) (to6 : BitVec 128) (body : List Byte) (s : State) : State :=
  { s with outbox := s.outbox ++ [⟨some type, to6, 0, body⟩] }
/-- An address as 16 bytes of a packet, the highest first. -/
def addrBytes (a : BitVec 128) : List Byte := (toBytes 16 a.toNat).reverse
/-- The address that 16 bytes of a packet name. -/
def bytesAddr (l : List Byte) : BitVec 128 := BitVec.ofNat 128 (ofBytes ((l.take 16).reverse))
/-- The multicast address at which a node that holds an address is solicited. -/
def solicited (a : BitVec 128) : BitVec 128 := 0xFF0200000000000000000001FF#104 ++ a.extractLsb' 0 24
/-- When a lifetime of n seconds from now ends; 0xFFFF_FFFF is for ever. -/
def lifeEnd (now n : Nat) : Option Nat := if n = 0xFFFFFFFF then none else some (now + n * 10 ^ 9)
/-- RFC 4862 5.5.3 e: a lifetime above two hours, or above what is left, is taken; else one of at most two hours stands, and a longer one is cut to two
hours. -/
def Addr.renew (now n : Nat) (a : Addr) : Addr :=
  let hours := 7200 * 10 ^ 9
  match a.till with
  | none => if 7200 < n then { a with till := lifeEnd now n } else { a with till := some (now + hours) }
  | some t =>
    if 7200 < n ∨ t < now + n * 10 ^ 9 then { a with till := lifeEnd now n }
    else if t ≤ now + hours then a
    else { a with till := some (now + hours) }
/-- ROUTER_ADVERTISEMENT: the prefix `va`, of 64 bits and for autoconfiguration, with the valid lifetime `num` and the preferred lifetime `id` forms a
global address, tentative for a second in which its duplicate is looked for, or renews its lifetime (RFC 4862 5.4, 5.5.3; log 75). -/
def routerAdvertisement (s : State) : State :=
  let a := addrOf s.arg.va
  let now := addrNow s
  if !portUp s || s.arg.va == 0xFE80000000000000#64 || decide (s.arg.num < s.arg.id) then s
  else if s.addrs.any (fun x => x.addr == a && x.lives now) then { s with addrs := s.addrs.map fun x => if x.addr = a then x.renew now s.arg.num else x }
  else if s.arg.num = 0 then s
  else sendIcmp 135 (solicited a) (addrBytes a)
    { s with addrs := s.addrs.filter (fun x => x.addr != a) ++ [⟨a, now + 10 ^ 9, lifeEnd now s.arg.num⟩] }
/-- ROUTER_ADVERTISEMENT (R404). -/
def execRouterAdvertisement (s : State) : Host.Outcome State Fault Refusal := .next (routerAdvertisement s)
/-- ADDRESS_LIFETIME_EXPIRY: the addresses whose lifetime has run out are gone. -/
def addressLifetimeExpiry (s : State) : State := { s with addrs := s.addrs.filter fun x => x.lives (addrNow s) }
/-- ADDRESS_LIFETIME_EXPIRY (R404). -/
def execAddressLifetimeExpiry (s : State) : Host.Outcome State Fault Refusal := .next (addressLifetimeExpiry s)
/-- An address has turned out to be another node's: a tentative one is given up (RFC 4862 5.4). -/
def duplicate (a : BitVec 128) (s : State) : State := { s with addrs := s.addrs.filter fun x => x.addr != a || decide (x.since ≤ addrNow s) }
/-- ICMPV6_REQUEST: the packet `frame`, whose bytes follow its type: an echo request for its destination, a solicitation or an advertisement for the target in
its first 16 bytes; a solicitation from no address looks for a duplicate. The answer to a router solicitation is free (log 43). -/
def icmpv6Request (s : State) : State :=
  let f := s.arg.frame
  let a := bytesAddr f.bytes
  if !portUp s then s
  else match s.arg.icmp with
    | .neighbourSolicitation =>
      if holds s a then sendIcmp 136 (if f.src = 0 then 0xFF020000000000000000000000000001 else f.src) (addrBytes a) s
      else if f.src = 0 then duplicate a s else s
    | .neighbourAdvertisement => duplicate a s
    | .echoRequest => if holds s f.to6 then sendIcmp 129 f.src f.bytes s else s
    | .routerSolicitation => sendIcmp (Config.freeByte s.draws) f.src [] { s with draws := s.draws + 1 }
    | .other => s
/-- ICMPV6_REQUEST (R404). -/
def execIcmpv6Request (s : State) : Host.Outcome State Fault Refusal := .next (icmpv6Request s)

end Sys2Proof.Machine
end

