-- ==== Sys2Proof/Machine/Dispatch.lean ====
section
/-! DEFINITION. The dispatch of an instruction or event to its meaning: one arm per constructor. -/

namespace Sys2Proof.Machine

/-- The meaning of every instruction and event. -/
def exec (i : Instr) (s : State) : Host.Outcome State Fault Refusal :=
  match i with
  | .add d x y => Sys2Proof.Machine.execAdd d x y s
  | .sub d x y => Sys2Proof.Machine.execSub d x y s
  | .addw d x y => Sys2Proof.Machine.execAddw d x y s
  | .subw d x y => Sys2Proof.Machine.execSubw d x y s
  | .mul d x y => Sys2Proof.Machine.execMul d x y s
  | .mulh d x y => Sys2Proof.Machine.execMulh d x y s
  | .mulhu d x y => Sys2Proof.Machine.execMulhu d x y s
  | .mulw d x y => Sys2Proof.Machine.execMulw d x y s
  | .div d x y => Sys2Proof.Machine.execDiv d x y s
  | .divu d x y => Sys2Proof.Machine.execDivu d x y s
  | .rem d x y => Sys2Proof.Machine.execRem d x y s
  | .remu d x y => Sys2Proof.Machine.execRemu d x y s
  | .and d x y => Sys2Proof.Machine.execAnd d x y s
  | .or d x y => Sys2Proof.Machine.execOr d x y s
  | .xor d x y => Sys2Proof.Machine.execXor d x y s
  | .andn d x y => Sys2Proof.Machine.execAndn d x y s
  | .shl d x y => Sys2Proof.Machine.execShl d x y s
  | .shr d x y => Sys2Proof.Machine.execShr d x y s
  | .sar d x y => Sys2Proof.Machine.execSar d x y s
  | .rot d x y => Sys2Proof.Machine.execRot d x y s
  | .min d x y => Sys2Proof.Machine.execMin d x y s
  | .max d x y => Sys2Proof.Machine.execMax d x y s
  | .minu d x y => Sys2Proof.Machine.execMinu d x y s
  | .maxu d x y => Sys2Proof.Machine.execMaxu d x y s
  | .cmpEq d x y => Sys2Proof.Machine.execCmpEq d x y s
  | .cmpNe d x y => Sys2Proof.Machine.execCmpNe d x y s
  | .cmpLt d x y => Sys2Proof.Machine.execCmpLt d x y s
  | .cmpGe d x y => Sys2Proof.Machine.execCmpGe d x y s
  | .cmpLtu d x y => Sys2Proof.Machine.execCmpLtu d x y s
  | .cmpGeu d x y => Sys2Proof.Machine.execCmpGeu d x y s
  | .addi d x imm => Sys2Proof.Machine.execAddi d x imm s
  | .andi d x imm => Sys2Proof.Machine.execAndi d x imm s
  | .shli d x imm => Sys2Proof.Machine.execShli d x imm s
  | .shri d x imm => Sys2Proof.Machine.execShri d x imm s
  | .sari d x imm => Sys2Proof.Machine.execSari d x imm s
  | .ldi d hi lo n => Sys2Proof.Machine.execLdi d hi lo n s
  | .lea d x y n => Sys2Proof.Machine.execLea d x y n s
  | .sextB d x => Sys2Proof.Machine.execSextB d x s
  | .sextH d x => Sys2Proof.Machine.execSextH d x s
  | .sextW d x => Sys2Proof.Machine.execSextW d x s
  | .zextB d x => Sys2Proof.Machine.execZextB d x s
  | .zextH d x => Sys2Proof.Machine.execZextH d x s
  | .zextW d x => Sys2Proof.Machine.execZextW d x s
  | .clz d x => Sys2Proof.Machine.execClz d x s
  | .ctz d x => Sys2Proof.Machine.execCtz d x s
  | .popc d x => Sys2Proof.Machine.execPopc d x s
  | .fadd d x y => Sys2Proof.Machine.execFadd d x y s
  | .fsub d x y => Sys2Proof.Machine.execFsub d x y s
  | .fmul d x y => Sys2Proof.Machine.execFmul d x y s
  | .fmin d x y => Sys2Proof.Machine.execFmin d x y s
  | .fmax d x y => Sys2Proof.Machine.execFmax d x y s
  | .fcmpEq d x y => Sys2Proof.Machine.execFcmpEq d x y s
  | .fcmpLt d x y => Sys2Proof.Machine.execFcmpLt d x y s
  | .fcmpLe d x y => Sys2Proof.Machine.execFcmpLe d x y s
  | .fcmpUn d x y => Sys2Proof.Machine.execFcmpUn d x y s
  | .fcvtF32I32 d x => Sys2Proof.Machine.execFcvtF32I32 d x s
  | .fcvtI32F32 d x => Sys2Proof.Machine.execFcvtI32F32 d x s
  | .fcvtI32F32Rz d x => Sys2Proof.Machine.execFcvtI32F32Rz d x s
  | .fcvtBf16F32 d x => Sys2Proof.Machine.execFcvtBf16F32 d x s
  | .fcvtF32Bf16 d x => Sys2Proof.Machine.execFcvtF32Bf16 d x s
  | .fcvtF16F32 d x => Sys2Proof.Machine.execFcvtF16F32 d x s
  | .fcvtF32F16 d x => Sys2Proof.Machine.execFcvtF32F16 d x s
  | .fcvtF32I64 d x => Sys2Proof.Machine.execFcvtF32I64 d x s
  | .fdiv d x y => Sys2Proof.Machine.execFdiv d x y s
  | .fsqrt d x => Sys2Proof.Machine.execFsqrt d x s
  | .sett k x => Sys2Proof.Machine.execSett k x s
  | .rdt d k => Sys2Proof.Machine.execRdt d k s
  | .rdsys d n => Sys2Proof.Machine.execRdsys d n s
  | .wrsys n x => Sys2Proof.Machine.execWrsys n x s
  | .mov d x => Sys2Proof.Machine.execMov d x s
  | .ldB d base imm => Sys2Proof.Machine.execLdB d base imm s
  | .ldBu d base imm => Sys2Proof.Machine.execLdBu d base imm s
  | .ldH d base imm => Sys2Proof.Machine.execLdH d base imm s
  | .ldHu d base imm => Sys2Proof.Machine.execLdHu d base imm s
  | .ldW d base imm => Sys2Proof.Machine.execLdW d base imm s
  | .ldWu d base imm => Sys2Proof.Machine.execLdWu d base imm s
  | .ldD d base imm => Sys2Proof.Machine.execLdD d base imm s
  | .stB data base imm => Sys2Proof.Machine.execStB data base imm s
  | .stH data base imm => Sys2Proof.Machine.execStH data base imm s
  | .stW data base imm => Sys2Proof.Machine.execStW data base imm s
  | .stD data base imm => Sys2Proof.Machine.execStD data base imm s
  | .ldmr sl base imm => Sys2Proof.Machine.execLdmr sl base imm s
  | .stmr sl base imm => Sys2Proof.Machine.execStmr sl base imm s
  | .xlat h off imm => Sys2Proof.Machine.execXlat h off imm s
  | .hrel h => Sys2Proof.Machine.execHrel h s
  | .hinfo d h => Sys2Proof.Machine.execHinfo d h s
  | .ldhW d h off imm => Sys2Proof.Machine.execLdhW d h off imm s
  | .ldhD d h off imm => Sys2Proof.Machine.execLdhD d h off imm s
  | .sthW data h off imm => Sys2Proof.Machine.execSthW data h off imm s
  | .sthD data h off imm => Sys2Proof.Machine.execSthD data h off imm s
  | .amoSwap d h off sz scope => Sys2Proof.Machine.execAmoSwap d h off sz scope s
  | .amoAdd d h off sz scope => Sys2Proof.Machine.execAmoAdd d h off sz scope s
  | .amoAnd d h off sz scope => Sys2Proof.Machine.execAmoAnd d h off sz scope s
  | .amoOr d h off sz scope => Sys2Proof.Machine.execAmoOr d h off sz scope s
  | .amoXor d h off sz scope => Sys2Proof.Machine.execAmoXor d h off sz scope s
  | .amoMin d h off sz scope => Sys2Proof.Machine.execAmoMin d h off sz scope s
  | .amoMax d h off sz scope => Sys2Proof.Machine.execAmoMax d h off sz scope s
  | .amoMinu d h off sz scope => Sys2Proof.Machine.execAmoMinu d h off sz scope s
  | .amoMaxu d h off sz scope => Sys2Proof.Machine.execAmoMaxu d h off sz scope s
  | .amoFadd d h off sz scope => Sys2Proof.Machine.execAmoFadd d h off sz scope s
  | .amoc d h off sz scope => Sys2Proof.Machine.execAmoc d h off sz scope s
  | .pref h off imm => Sys2Proof.Machine.execPref h off imm s
  | .vadd t d a b rel => Sys2Proof.Machine.execVadd t d a b rel s
  | .vsub t d a b rel => Sys2Proof.Machine.execVsub t d a b rel s
  | .vmul t d a b rel => Sys2Proof.Machine.execVmul t d a b rel s
  | .vfma t d a b rel => Sys2Proof.Machine.execVfma t d a b rel s
  | .vfms t d a b rel => Sys2Proof.Machine.execVfms t d a b rel s
  | .vmin t d a b rel => Sys2Proof.Machine.execVmin t d a b rel s
  | .vmax t d a b rel => Sys2Proof.Machine.execVmax t d a b rel s
  | .vabs t d a rel => Sys2Proof.Machine.execVabs t d a rel s
  | .vneg t d a rel => Sys2Proof.Machine.execVneg t d a rel s
  | .vadds t d a x rel => Sys2Proof.Machine.execVadds t d a x rel s
  | .vmuls t d a x rel => Sys2Proof.Machine.execVmuls t d a x rel s
  | .vfmas t d a x rel => Sys2Proof.Machine.execVfmas t d a x rel s
  | .vexp2 d a rel => Sys2Proof.Machine.execVexp2 d a rel s
  | .vlog2 d a rel => Sys2Proof.Machine.execVlog2 d a rel s
  | .vrcp d a rel => Sys2Proof.Machine.execVrcp d a rel s
  | .vrsq d a rel => Sys2Proof.Machine.execVrsq d a rel s
  | .vsqrt d a rel => Sys2Proof.Machine.execVsqrt d a rel s
  | .vcvt t d a src part rel => Sys2Proof.Machine.execVcvt t d a src part rel s
  | .vqnt t d a x rel => Sys2Proof.Machine.execVqnt t d a x rel s
  | .vdqnt t d a x rel => Sys2Proof.Machine.execVdqnt t d a x rel s
  | .vand d a b rel => Sys2Proof.Machine.execVand d a b rel s
  | .vor d a b rel => Sys2Proof.Machine.execVor d a b rel s
  | .vxor d a b rel => Sys2Proof.Machine.execVxor d a b rel s
  | .vshl t d a b rel => Sys2Proof.Machine.execVshl t d a b rel s
  | .vshr t d a b rel => Sys2Proof.Machine.execVshr t d a b rel s
  | .vsar t d a b rel => Sys2Proof.Machine.execVsar t d a b rel s
  | .vcmpEq t fb x y rel => Sys2Proof.Machine.execVcmpEq t fb x y rel s
  | .vcmpNe t fb x y rel => Sys2Proof.Machine.execVcmpNe t fb x y rel s
  | .vcmpLt t fb x y rel => Sys2Proof.Machine.execVcmpLt t fb x y rel s
  | .vcmpLe t fb x y rel => Sys2Proof.Machine.execVcmpLe t fb x y rel s
  | .vcmpGt t fb x y rel => Sys2Proof.Machine.execVcmpGt t fb x y rel s
  | .vcmpGe t fb x y rel => Sys2Proof.Machine.execVcmpGe t fb x y rel s
  | .vcmpUn t fb x y rel => Sys2Proof.Machine.execVcmpUn t fb x y rel s
  | .vblend t d a b rel => Sys2Proof.Machine.execVblend t d a b rel s
  | .vredsum t d a rel => Sys2Proof.Machine.execVredsum t d a rel s
  | .vredmax t d a rel => Sys2Proof.Machine.execVredmax t d a rel s
  | .vredmin t d a rel => Sys2Proof.Machine.execVredmin t d a rel s
  | .vbcast t d a k rel => Sys2Proof.Machine.execVbcast t d a k rel s
  | .vmov d a rel => Sys2Proof.Machine.execVmov d a rel s
  | .vslide t d a sh rel => Sys2Proof.Machine.execVslide t d a sh rel s
  | .vslide2 t d a b rel => Sys2Proof.Machine.execVslide2 t d a b rel s
  | .vmacw t d a b rel => Sys2Proof.Machine.execVmacw t d a b rel s
  | .vnar t d a sh rel => Sys2Proof.Machine.execVnar t d a sh rel s
  | .vperm t d a b rel => Sys2Proof.Machine.execVperm t d a b rel s
  | .vzrd d z rho g rel => Sys2Proof.Machine.execVzrd d z rho g rel s
  | .vzrdL d z rho g rel => Sys2Proof.Machine.execVzrdL d z rho g rel s
  | .vzwr d z rho g rel => Sys2Proof.Machine.execVzwr d z rho g rel s
  | .vzero d rel => Sys2Proof.Machine.execVzero d rel s
  | .viota t d rel => Sys2Proof.Machine.execViota t d rel s
  | .mmaS z dA dB tA tB acc mx dual bt sclsrc dSA dSB => Sys2Proof.Machine.execMmaS z dA dB tA tB acc mx dual bt sclsrc dSA dSB s
  | .mmaV z dA dB tA tB acc mx dual bt sclsrc dSA dSB => Sys2Proof.Machine.execMmaV z dA dB tA tB acc mx dual bt sclsrc dSA dSB s
  | .mmaSg z dA dB tA tB acc mx dual bt g r => Sys2Proof.Machine.execMmaSg z dA dB tA tB acc mx dual bt g r s
  | .mmaVg z dA dB tA tB acc mx dual bt g r => Sys2Proof.Machine.execMmaVg z dA dB tA tB acc mx dual bt g r s
  | .mmaQ z dA dB tA tB acc mx dual bt x => Sys2Proof.Machine.execMmaQ z dA dB tA tB acc mx dual bt x s
  | .zalloc z rows1 cols1 dual => Sys2Proof.Machine.execZalloc z rows1 cols1 dual s
  | .zfree z => Sys2Proof.Machine.execZfree z s
  | .zswap z => Sys2Proof.Machine.execZswap z s
  | .zzero z both => Sys2Proof.Machine.execZzero z both s
  | .mwait z => Sys2Proof.Machine.execMwait z s
  | .chbeg sl z dA tQ dual mask x => Sys2Proof.Machine.execChbeg sl z dA tQ dual mask x s
  | .chblk sl dA dB dM tK tV => Sys2Proof.Machine.execChblk sl dA dB dM tK tV s
  | .chend sl => Sys2Proof.Machine.execChend sl s
  | .chfin sl dA n => Sys2Proof.Machine.execChfin sl dA n s
  | .chmrg sA sB => Sys2Proof.Machine.execChmrg sA sB s
  | .chst sl x => Sys2Proof.Machine.execChst sl x s
  | .chld sl z x => Sys2Proof.Machine.execChld sl z x s
  | .chscl sl x => Sys2Proof.Machine.execChscl sl x s
  | .scl latch row m => Sys2Proof.Machine.execScl latch row m s
  | .sxv latch row m => Sys2Proof.Machine.execSxv latch row m s
  | .sts latch row m => Sys2Proof.Machine.execSts latch row m s
  | .cpy ch x n dw k => Sys2Proof.Machine.execCpy ch x n dw k s
  | .cpwp d ch => Sys2Proof.Machine.execCpwp d ch s
  | .cpwait ch x => Sys2Proof.Machine.execCpwait ch x s
  | .cpabort ch => Sys2Proof.Machine.execCpabort ch s
  | .barinit x y => Sys2Proof.Machine.execBarinit x y s
  | .barexp x y => Sys2Proof.Machine.execBarexp x y s
  | .bararr x y => Sys2Proof.Machine.execBararr x y s
  | .barwait x y => Sys2Proof.Machine.execBarwait x y s
  | .bartst d x => Sys2Proof.Machine.execBartst d x s
  | .wopen w x => Sys2Proof.Machine.execWopen w x s
  | .wadv w x => Sys2Proof.Machine.execWadv w x s
  | .wclose w => Sys2Proof.Machine.execWclose w s
  | .wstat d w => Sys2Proof.Machine.execWstat d w s
  | .rres d x => Sys2Proof.Machine.execRres d x s
  | .rpub x y => Sys2Proof.Machine.execRpub x y s
  | .rtake x y => Sys2Proof.Machine.execRtake x y s
  | .rrel x y => Sys2Proof.Machine.execRrel x y s
  | .bgive home buf rcv => Sys2Proof.Machine.execBgive home buf rcv s
  | .btake home buf n => Sys2Proof.Machine.execBtake home buf n s
  | .bopen buf src ch => Sys2Proof.Machine.execBopen buf src ch s
  | .bclose buf src ch => Sys2Proof.Machine.execBclose buf src ch s
  | .fset n x => Sys2Proof.Machine.execFset n x s
  | .faddFlag n x d => Sys2Proof.Machine.execFaddFlag n x d s
  | .fwait n x => Sys2Proof.Machine.execFwait n x s
  | .fwaiteq n x => Sys2Proof.Machine.execFwaiteq n x s
  | .sbind p dir wd sx x y => Sys2Proof.Machine.execSbind p dir wd sx x y s
  | .sbindWindow p dir wd sx w => Sys2Proof.Machine.execSbindWindow p dir wd sx w s
  | .sunb p => Sys2Proof.Machine.execSunb p s
  | .spos d p => Sys2Proof.Machine.execSpos d p s
  | .tdset k x => Sys2Proof.Machine.execTdset k x s
  | .tdget d k q => Sys2Proof.Machine.execTdget d k q s
  | .loop x n => Sys2Proof.Machine.execLoop x n s
  | .loopi lo hi n => Sys2Proof.Machine.execLoopi lo hi n s
  | .ploop x n s1 e => Sys2Proof.Machine.execPloop x n s1 e s
  | .lexit k => Sys2Proof.Machine.execLexit k s
  | .setti k imm => Sys2Proof.Machine.execSetti k imm s
  | .drain scope => Sys2Proof.Machine.execDrain scope s
  | .fenceAcq scope => Sys2Proof.Machine.execFenceAcq scope s
  | .fenceRel scope => Sys2Proof.Machine.execFenceRel scope s
  | .tspawn x y => Sys2Proof.Machine.execTspawn x y s
  | .tspawnG x y n => Sys2Proof.Machine.execTspawnG x y n s
  | .tarm x y => Sys2Proof.Machine.execTarm x y s
  | .tsig x => Sys2Proof.Machine.execTsig x s
  | .texit x => Sys2Proof.Machine.execTexit x s
  | .tsetq x p => Sys2Proof.Machine.execTsetq x p s
  | .tsetqSelf p => Sys2Proof.Machine.execTsetqSelf p s
  | .bsync scope => Sys2Proof.Machine.execBsync scope s
  | .put x => Sys2Proof.Machine.execPut x s
  | .get x => Sys2Proof.Machine.execGet x s
  | .ramo x => Sys2Proof.Machine.execRamo x s
  | .lbopen n x => Sys2Proof.Machine.execLbopen n x s
  | .lbsend n x lk m => Sys2Proof.Machine.execLbsend n x lk m s
  | .lbfree n => Sys2Proof.Machine.execLbfree n s
  | .lbfreeClose n => Sys2Proof.Machine.execLbfreeClose n s
  | .cgrp x scope op tout => Sys2Proof.Machine.execCgrp x scope op tout s
  | .cgrpTeam scope op tout => Sys2Proof.Machine.execCgrpTeam scope op tout s
  | .cbr t k => Sys2Proof.Machine.execCbr t k s
  | .cbrWait t => Sys2Proof.Machine.execCbrWait t s
  | .reconf x n => Sys2Proof.Machine.execReconf x n s
  | .trap code => Sys2Proof.Machine.execTrap code s
  | .svc x n => Sys2Proof.Machine.execSvc x n s
  | .ntfy x code => Sys2Proof.Machine.execNtfy x code s
  | .bundleIssue => Sys2Proof.Machine.execBundleIssue s
  | .dictionaryFill => Sys2Proof.Machine.execDictionaryFill s
  | .resultLanding => Sys2Proof.Machine.execResultLanding s
  | .trapEntry => Sys2Proof.Machine.execTrapEntry s
  | .maxrunExceeded => Sys2Proof.Machine.execMaxrunExceeded s
  | .nop => Sys2Proof.Machine.execNop s
  | .nopL => Sys2Proof.Machine.execNopL s
  | .ldhReply => Sys2Proof.Machine.execLdhReply s
  | .accessPerform => Sys2Proof.Machine.execAccessPerform s
  | .refusal => Sys2Proof.Machine.execRefusal s
  | .refusalRetry => Sys2Proof.Machine.execRefusalRetry s
  | .forwardingPointer => Sys2Proof.Machine.execForwardingPointer s
  | .nopV => Sys2Proof.Machine.execNopV s
  | .nopM => Sys2Proof.Machine.execNopM s
  | .mwaitAll => Sys2Proof.Machine.execMwaitAll s
  | .commandIssue => Sys2Proof.Machine.execCommandIssue s
  | .commandComplete => Sys2Proof.Machine.execCommandComplete s
  | .nopS => Sys2Proof.Machine.execNopS s
  | .nopC => Sys2Proof.Machine.execNopC s
  | .copyEntryStart => Sys2Proof.Machine.execCopyEntryStart s
  | .copyRowDelivery => Sys2Proof.Machine.execCopyRowDelivery s
  | .windowRowDelivery => Sys2Proof.Machine.execWindowRowDelivery s
  | .windowRowStore => Sys2Proof.Machine.execWindowRowStore s
  | .link => Sys2Proof.Machine.execLink s
  | .barrierRelease => Sys2Proof.Machine.execBarrierRelease s
  | .remoteRequest => Sys2Proof.Machine.execRemoteRequest s
  | .putAck => Sys2Proof.Machine.execPutAck s
  | .getData => Sys2Proof.Machine.execGetData s
  | .ramoResult => Sys2Proof.Machine.execRamoResult s
  | .lbMessage => Sys2Proof.Machine.execLbMessage s
  | .cbrOutcome => Sys2Proof.Machine.execCbrOutcome s
  | .collectiveTimeout => Sys2Proof.Machine.execCollectiveTimeout s
  | .reconfMeet => Sys2Proof.Machine.execReconfMeet s
  | .crossconnectConfirm => Sys2Proof.Machine.execCrossconnectConfirm s
  | .reconfTimeout => Sys2Proof.Machine.execReconfTimeout s
  | .tgack => Sys2Proof.Machine.execTgack s
  | .tret => Sys2Proof.Machine.execTret s
  | .tlbWalkComplete => Sys2Proof.Machine.execTlbWalkComplete s
  | .faultAnswer => Sys2Proof.Machine.execFaultAnswer s
  | .dispatchChoice => Sys2Proof.Machine.execDispatchChoice s
  | .preemptWithdraw => Sys2Proof.Machine.execPreemptWithdraw s
  | .scrubDone => Sys2Proof.Machine.execScrubDone s
  | .coreScrub => Sys2Proof.Machine.execCoreScrub s
  | .gangStart => Sys2Proof.Machine.execGangStart s
  | .preemptionSave => Sys2Proof.Machine.execPreemptionSave s
  | .restore => Sys2Proof.Machine.execRestore s
  | .trackingPeriod => Sys2Proof.Machine.execTrackingPeriod s
  | .migrationSwitch => Sys2Proof.Machine.execMigrationSwitch s
  | .rowExchange => Sys2Proof.Machine.execRowExchange s
  | .flitReceive => Sys2Proof.Machine.execFlitReceive s
  | .negativeAcknowledgement => Sys2Proof.Machine.execNegativeAcknowledgement s
  | .ackTimeout => Sys2Proof.Machine.execAckTimeout s
  | .linkRetrain => Sys2Proof.Machine.execLinkRetrain s
  | .linkTrainComplete => Sys2Proof.Machine.execLinkTrainComplete s
  | .laneRepair => Sys2Proof.Machine.execLaneRepair s
  | .ptbTimeMessage => Sys2Proof.Machine.execPtbTimeMessage s
  | .ptbMessageReceive => Sys2Proof.Machine.execPtbMessageReceive s
  | .ptbParentLoss => Sys2Proof.Machine.execPtbParentLoss s
  | .launch => Sys2Proof.Machine.execLaunch s
  | .gang => Sys2Proof.Machine.execGang s
  | .mwrite => Sys2Proof.Machine.execMwrite s
  | .mwriteAck => Sys2Proof.Machine.execMwriteAck s
  | .mread => Sys2Proof.Machine.execMread s
  | .mreadReply => Sys2Proof.Machine.execMreadReply s
  | .hostAccessTimeout => Sys2Proof.Machine.execHostAccessTimeout s
  | .map => Sys2Proof.Machine.execMap s
  | .unmap => Sys2Proof.Machine.execUnmap s
  | .health => Sys2Proof.Machine.execHealth s
  | .attest => Sys2Proof.Machine.execAttest s
  | .attestCert => Sys2Proof.Machine.execAttestCert s
  | .tkey => Sys2Proof.Machine.execTkey s
  | .coldStart => Sys2Proof.Machine.execColdStart s
  | .warmStart => Sys2Proof.Machine.execWarmStart s
  | .powerLimit => Sys2Proof.Machine.execPowerLimit s
  | .dieThrottle => Sys2Proof.Machine.execDieThrottle s
  | .hbmRefreshDouble => Sys2Proof.Machine.execHbmRefreshDouble s
  | .hbmThrottle => Sys2Proof.Machine.execHbmThrottle s
  | .thermalTrip => Sys2Proof.Machine.execThermalTrip s
  | .coreError => Sys2Proof.Machine.execCoreError s
  | .dieThrottleRelease => Sys2Proof.Machine.execDieThrottleRelease s
  | .hbmThrottleRelease => Sys2Proof.Machine.execHbmThrottleRelease s
  | .svcAnswer => Sys2Proof.Machine.execSvcAnswer s
  | .rehashWalk => Sys2Proof.Machine.execRehashWalk s
  | .regionDescriptor => Sys2Proof.Machine.execRegionDescriptor s
  | .routerAdvertisement => Sys2Proof.Machine.execRouterAdvertisement s
  | .addressLifetimeExpiry => Sys2Proof.Machine.execAddressLifetimeExpiry s
  | .icmpv6Request => Sys2Proof.Machine.execIcmpv6Request s
  | .correctedError => Sys2Proof.Machine.execCorrectedError s
  | .refreshWindow => Sys2Proof.Machine.execRefreshWindow s

end Sys2Proof.Machine
end

