-- ==== Sys2Proof/Machine/Step.lean ====
section
/-! DEFINITION. One step of the module (log 1): an input, else an event that may happen now, else the clock of the core in focus. -/

namespace Sys2Proof.Machine

/-! ## What can happen -/

/-- An argument with nothing in it but a context. -/
def argCtx (c : CtxId) : EvArg := { EvArg.none with die := c.die, core := c.core, ctx := c.ctx }
/-- An argument with an identifier. -/
def argId (n : Nat) : EvArg := { EvArg.none with id := n }
/-- An argument with a core, a unit of it and a number. -/
def argUnit (k : CoreId) (u n : Nat) (ok : Bool) : EvArg := { EvArg.none with die := k.die, core := k.core, unit := u, num := n, ok := ok }
/-- An argument that picks bytes of a row or an operation, freely: which, and how many at most (R254). -/
def argPick (s : State) (a : EvArg) : EvArg :=
  let w := (Config.freeWord s.draws).toNat
  { a with va := BitVec.ofNat 64 (w % 2 ^ 16), val := BitVec.ofNat 64 (w / 2 ^ 16) }
/-- An event of a row or an operation, for bytes that are freely picked. -/
def picked (s : State) (e : Instr × EvArg) : Instr × EvArg := (e.1, argPick s e.2)
/-- An argument with a die. -/
def argDie (d : Fin 4) : EvArg := { EvArg.none with die := d }
/-- An event of a context where a condition holds. -/
def ctxEvent (c : CtxId) (b : Bool) (i : Instr) : List (Instr × EvArg) := if b then [(i, argCtx c)] else []
/-- Events of one context of a core at times that the spec leaves open. -/
def ctxEvents (s : State) (c : CtxId) : List (Instr × EvArg) :=
  let x := s.ctx c
  ctxEvent c (dictWanted s c).isSome .dictionaryFill ++ ctxEvent c x.miss.isSome .tlbWalkComplete ++ ctxEvent c x.svc.isSome .svcAnswer
/-- Events of one core: those of its contexts, its commands, its channels and its windows. -/
def coreEvents (s : State) (k : CoreId) : List (Instr × EvArg) :=
  let q := s.core k
  if q.tenant.isNone && q.scrub.isNone then []
  else
    (coreCtxs k).flatMap (ctxEvents s) ++
    (q.cmds.flatMap fun c => [(.commandIssue, { argUnit k 0 0 false with id := c.id }), (.commandComplete, { argUnit k 0 0 false with id := c.id })]) ++
    ((List.finRange 2).flatMap fun ch =>
      let h := q.chans[ch.val]
      if h.busy then (.copyEntryStart, argUnit k ch.val 0 false) :: picked s (.copyRowDelivery, argUnit k ch.val 0 true) ::
        h.rows.map fun r => picked s (.copyRowDelivery, argUnit k ch.val r.k false)
      else []) ++
    ((List.finRange 8).flatMap fun w =>
      let x := q.wins[w.val]
      if x.opn then
        let both (n : Nat) (ok : Bool) : List (Instr × EvArg) :=
          [picked s (.windowRowDelivery, argUnit k w.val n ok), picked s (.windowRowStore, argUnit k w.val n ok)]
        both 0 true ++ x.rows.flatMap fun r => both r.id false
      else [])
/-- Requests that a target has refused and that wait for their retry time. -/
def heldRequests (s : State) : List Req :=
  (s.accesses.filter (·.hold)).map (Req.access ·.id) ++
  (s.rops.filter (·.hold)).map (fun r => if r.kind = .lbsend then .lbSend r.id else .remote r.id) ++
  ((s.runs.filter (·.hold)).map (Req.frame ·.id)) ++
  allCores.flatMap fun k =>
    let q := s.core k
    if q.tenant.isNone then []
    else ((List.finRange 2).flatMap fun ch => ((q.chans[ch.val]).rows.filter (·.hold)).map fun r => Req.row k ch r.k) ++
      ((List.finRange 8).flatMap fun w => ((q.wins[w.val]).rows.filter (·.hold)).map fun r => Req.winRow k w r.id)
/-- Events of one link: a flit that its wire carries, its acknowledgements, retraining and a lane repair that is due. -/
def linkEvents (s : State) (d : Fin 4) (l : Fin 6) : List (Instr × EvArg) :=
  let k := linkOf s d l
  let a : EvArg := { argDie d with unit := l.val, ok := true }
  (if (wireNext (if k.out.isSome then k else linkOf s k.farDie k.farLink)).isSome then [(.flitReceive, a)] else []) ++
  (if k.nack then [(.negativeAcknowledgement, a)] else []) ++ (if k.replay.isEmpty then [] else [(.ackTimeout, a)]) ++
  (if k.failed then [(.linkRetrain, a)] else []) ++ (if k.repairDue ≠ [] then [(.laneRepair, { a with ok := false })] else [])
/-- Events of one die: its links and its time base. -/
def dieEvents (s : State) (d : Fin 4) : List (Instr × EvArg) :=
  let x := s.die d
  (List.finRange 6).flatMap (linkEvents s d) ++
  (if x.ptbSent ≠ ptbPeriod x then [(.ptbTimeMessage, argDie d)] else []) ++
  (if x.ptbMsg.isSome then [(.ptbMessageReceive, argDie d)] else []) ++ [(.ptbParentLoss, argDie d)]
/-- Events of the memory of the module. -/
def memEvents (s : State) : List (Instr × EvArg) :=
  (s.accesses.flatMap fun a => (if a.left = [] then [0] else a.left).map (fun n => picked s (.accessPerform, { argId a.id with num := n })) ++
    [(.accessPerform, { argId a.id with ok := true }), (.ldhReply, argId a.id), (.forwardingPointer, argId a.id)]) ++
  (s.runs.map fun r => picked s (if r.write then .mwrite else .mread, { EvArg.none with req := .frame r.id })) ++
  ((s.migs ++ s.oldCopies).map fun m => (.migrationSwitch, argId m.page)) ++
  (if s.dies.toList.any fun d => !d.hot.isEmpty then [(.trackingPeriod, EvArg.none)] else []) ++
  ((List.finRange 8).flatMap fun n =>
    let k := s.hbmStacks[n.val]
    (if k.acts.isEmpty then [] else [(.refreshWindow, { EvArg.none with unit := n.val })]) ++
    (k.rehash.map fun r => (.rehashWalk, { EvArg.none with unit := n.val, num := r.1 })) ++
    (k.acts.filter fun e => decide (4096 < e.2)).map fun e =>
      (.rowExchange, { argId (Config.freeWord s.draws).toNat with unit := n.val, num := e.1 }))
/-- Events between cores and dies: the releases and outcomes of pod scope within their bound (R90), reconfigurations, remote operations. -/
def fabricEvents (s : State) : List (Instr × EvArg) :=
  ((s.barriers.filter (·.scope == 5)).flatMap fun b => b.arrived.map fun c => (.barrierRelease, { argCtx c with id := b.id, ok := true })) ++
  (s.rounds.flatMap fun r => (.collectiveTimeout, argId r.id) ::
    if r.bounded then r.members.map fun m => (.cbrOutcome, { argCtx m.c with id := r.id }) else []) ++
  (s.reconfs.flatMap fun r =>
    let a : EvArg := { argId r.gid.toNat with tenant := r.tenant }
    [(.reconfMeet, a), (.reconfTimeout, a)]) ++
  ((s.rops.flatMap fun r => if r.kind = .lbsend then [(.lbMessage, { argId r.id with ok := true }), (.lbMessage, argId r.id)]
    else [(.remoteRequest, argId r.id), (.remoteRequest, { argId r.id with ok := true }), (.putAck, argId r.id), (.getData, argId r.id), (.ramoResult, argId r.id)]).map
    (picked s))
/-- Every event that the state names whose time the spec leaves open. -/
def candidates (s : State) : List (Instr × EvArg) :=
  if s.hstate ≠ 1 then []
  else allCores.flatMap (coreEvents s) ++ (List.finRange 4).flatMap (dieEvents s) ++ memEvents s ++ fabricEvents s ++
    ((heldRequests s).map fun r => (.refusalRetry, { EvArg.none with req := r })) ++
    (if s.addrs.any fun a => !a.lives (addrNow s) then [(.addressLifetimeExpiry, EvArg.none)] else []) ++
    (s.hostReqs.map fun q => (.hostAccessTimeout, { argId q.seq.toNat with tenant := q.tenant })) ++
    (s.rops.filter (lbRefuses s)).map fun r => (.refusal, { EvArg.none with req := .lbSend r.id })
/-- An event happens: its meaning with its argument. -/
def happen (e : Instr × EvArg) (s : State) : Host.Outcome State Fault Refusal := exec e.1 { s with arg := e.2 }
/-- An event may happen now: it changes the module. -/
def mayHappen (s : State) (e : Instr × EvArg) : Bool :=
  match happen e s with
  | .next u => decide (u ≠ { s with arg := e.2 })
  | _ => true
/-- The events that may happen now. -/
def enabled (s : State) : List (Instr × EvArg) := (candidates s).filter (mayHappen s)
/-- What comes from outside the module, or from the supervisor and the management core, whose acts are policy. -/
def isInput : Instr → Bool
  | .launch | .gang | .mwrite | .mwriteAck | .mread | .mreadReply | .map | .unmap | .health | .attest | .attestCert
  | .tkey | .coldStart | .warmStart | .powerLimit | .dieThrottle | .dieThrottleRelease | .hbmRefreshDouble | .hbmThrottle
  | .hbmThrottleRelease | .thermalTrip | .coreError | .correctedError | .rehashWalk | .regionDescriptor | .routerAdvertisement
  | .icmpv6Request | .refusal | .faultAnswer | .crossconnectConfirm | .flitReceive
  | .negativeAcknowledgement | .linkTrainComplete | .laneRepair | .reconfMeet | .svcAnswer => true
  | _ => false
/-- An input has to wait for room in a queue, for accesses under way to a page or for a kernel header (R176, R203, R359, log 42). -/
def inputWaits (s : State) (e : Instr × EvArg) : Bool :=
  let t := { s with arg := e.2 }
  match e.1 with
  | .launch => launchWaits t
  | .map => mapWaits t
  | .regionDescriptor => regionWaits t
  | .faultAnswer => e.2.ok && (reuseWaits s e.2.val || headerOut s e.2.tenant e.2.val (BitVec.ofNat 64 e.2.num))
  | _ => false
/-- In THERMAL-TRIP only HEALTH and a cold start act (R35). -/
def inputActs (s : State) (i : Instr) : Bool := isInput i && (s.hstate != 3 || i == .health || i == .coldStart)
/-- The input that is taken next, with the others. -/
def nextInput (s : State) : Option ((Instr × EvArg) × List (Instr × EvArg)) :=
  (s.inbox.find? fun e => !inputWaits s e).map fun e => (e, s.inbox.erase e)

/-! ## The clock -/

/-- Events of a context that take place in a cycle of its core as soon as their condition holds (R67, R88, R339, R341, R344). -/
def ctxDue (s : State) (c : CtxId) : List (Instr × EvArg) :=
  let x := s.ctx c
  ctxEvent c (startDue s c) .gangStart ++ ctxEvent c (x.st == .scrub && x.scrubLeft == 0) .scrubDone ++
  ctxEvent c (restoring s c).isSome .restore ++ ctxEvent c (x.st == .saving) .preemptionSave ++
  ctxEvent c (x.preempt && decide (4096 ≤ x.frozen)) .preemptWithdraw
/-- Events that take place in a cycle of a core as soon as their condition holds: those of its contexts, its scrub, releases and outcomes whose
latency has passed (R90), and with the first core of a die its dispatcher's choice. -/
def coreDue (s : State) (k : CoreId) : List (Instr × EvArg) :=
  (if k.core = 0 ∧ dispatcherBusy s k.die then [(.dispatchChoice, argDie k.die)] else []) ++
  ((s.barriers.filter Barrier.due).map fun b => (.barrierRelease, argId b.id)) ++
  (match outcomeDue s k with
   | some o => [(.cbrOutcome, { argCtx o.2 with id := o.1 })]
   | none => []) ++
  (match (s.core k).scrub with
   | some (_, 0) => [(.coreScrub, argUnit k 0 0 false)]
   | _ => []) ++ (if coreEmpty s k then [(.coreError, argUnit k 0 0 true)] else []) ++
  (coreCtxs k).flatMap (ctxDue s)
/-- The first context of the core in focus with something to do, and its event. -/
def focusEvent (s : State) (p : CtxId → Bool) (i : Instr) : Option (Instr × EvArg) := ((coreCtxs s.focus.coreId).find? p).map fun c => (i, argCtx c)
/-- What the clock of the core in focus does next: where its round is a cycle of it, what is due in that cycle, the landings, a trap entry, an overrun;
then the round itself. -/
def clockEvent (s : State) : Instr × EvArg :=
  let k := s.focus.coreId
  if s.hstate ≠ 1 ∨ !cycleNow (s.core k) then (.bundleIssue, EvArg.none)
  else match (if s.mid then none else (coreDue s k).find? (mayHappen s)), focusEvent s (mayLand s) .resultLanding,
      focusEvent s (fun c => trapReady (s.ctx c)) .trapEntry, focusEvent s (fun c => overrun (s.ctx c)) .maxrunExceeded with
    | some e, _, _, _ => e
    | none, some e, _, _ => e
    | none, none, some e, _ => e
    | none, none, none, some e => e
    | none, none, none, none => (.bundleIssue, EvArg.none)
/-- The cycle of the core in focus has begun, by a landing, a trap entry or an overrun: it goes on to its bundle before anything else happens (R258). -/
def beginsCycle (i : Instr) : Bool := i == .resultLanding || i == .trapEntry || i == .maxrunExceeded
/-- The clock of the core in focus. -/
def clockStep (s : State) : Host.Outcome State Fault Refusal :=
  let e := clockEvent s
  happen e { s with mid := beginsCycle e.1 || (s.mid && e.1 != .bundleIssue) }
/-- A step without an input: an event at a time that the spec leaves open, freely chosen, or the clock. -/
def freeStep (s : State) : Host.Outcome State Fault Refusal :=
  match enabled s with
  | [] => clockStep s
  | l =>
    let t := { s with draws := s.draws + 1 }
    match l[Config.freeChoice s.draws % (l.length + 1)]? with
    | some e => happen e t
    | none => clockStep t
/-- One step. -/
def step (s : State) : Host.Outcome State Fault Refusal :=
  if s.mid then clockStep s
  else match nextInput s with
    | some (e, r) => if inputActs s e.1 then happen e { s with inbox := r } else .next { s with inbox := r }
    | none => freeStep s

/-! ## An instruction as the next bundle (log 44) -/

/-- The VA of the code segment of a program that withFetchWord places. -/
def fetchVa : Nat := 0x10000
/-- Its kernel header: every register, every feature, no dictionary. -/
def fetchHdr : Hdr :=
  { Hdr.none with featreq := 0x7FF, mregs := 32, mhigh := 31, maxrun := 65535, savesz := 147456, code := BitVec.ofNat 64 fetchVa, entry := 0 }
/-- The bundle that executes one word in slot A (32 bits) or slot S (16 bits), its operands on the ports. -/
def fetchBundle (nbits w : Nat) : BitVec 384 :=
  let ports := match decodeTableWord nbits w with
    | some i => ((planOf i).srcs.filter fun (q : Nat × Code7) => decide (q.2.toNat < 0x40)).map Prod.fst
    | none => []
  let p (n : Nat) : BitVec 4 := BitVec.ofNat 4 (ports.getD n 0)
  let h : FH := ⟨0, p 5, p 4, p 3, p 2, p 1, p 0, 0, 0, 0, 0, 0, 1, 0, 0, 0⟩
  BitVec.ofNat 384 ((packH h).toNat + (if nbits = 16 then w % 2 ^ 16 * 2 ^ 304 else w % 2 ^ 32 * 2 ^ 64))
/-- The module with one bundle loaded as the code of a task that runs in context 0 of the core in focus: the code page with its entry in the core's
TLB and its start bitmap, and the context bound and RUNNING at the entry. -/
def State.withFetchWord (s : State) (nbits w : Nat) : State :=
  let c : CtxId := ⟨s.focus.die, s.focus.core, 0⟩
  let pte : W64 := BitVec.ofNat 64 (2 ^ 63 + 2 ^ 60 + 2 ^ 58)
  let s : State := { s with
    hbm := wrCells s.hbm 0 ([0xFF, 0xFF] ++ toBytes 48 (fetchBundle nbits w).toNat)
    inbox := [], hstate := 1
    pages := [{ pageRec 1 fetchVa false fetchHdr with starts := 1, feat := 1, high := 31 }] }
  let s := s.modCore c.coreId fun k => { k with tenant := some 1, scrub := none, tlb := [⟨1, fetchVa, pte⟩], phase := 1700 - k.ctl.mhz }
  s.modCtx c fun _ => { Ctx.scrubbed .running 0 with
    b := { Binding.none with uid := s.nextId, tenant := 1, hdr := fetchHdr, gran := 8, started := true } }

end Sys2Proof.Machine
end

