-- ==== Sys2Proof/Safety.lean ====
section
/-! DEFINITION. The terms that the statements use: which memories stand in canonical form, one byte of any memory, when the
operands of a slot instruction let it perform, and what two states share. -/

namespace Sys2Proof.Machine

/-! ## Memories -/

/-- A byte memory of the module: the eight HBM stacks by stack and local address, the vaults, a core's store, a link buffer. -/
inductive Mem where
  | hbm | vault | store (c : CoreId) | link (d : Fin 4) (n : Fin 16)
  deriving DecidableEq, Repr

/-- The contents of a memory. -/
def State.mem (s : State) : Mem → Cells 8
  | .hbm => s.hbm
  | .vault => s.vault
  | .store c => (s.core c).store
  | .link d n => ((s.die d).lbs[n.val]).bytes

/-- One byte of a memory. -/
def State.byte (s : State) (m : Mem) (a : Nat) : Byte := rdCell (s.mem m) a

/-- HBM, the vaults, every core store and every link buffer stand in canonical form. -/
def State.memOk (s : State) : Prop :=
  Memory.wf s.hbm = true ∧ Memory.wf s.vault = true ∧ (∀ c : CoreId, Memory.wf (s.core c).store = true) ∧
  ∀ (d : Fin 4) (n : Fin 16), Memory.wf ((s.die d).lbs[n.val]).bytes = true

/-- No byte of any memory differs. -/
def SameMem (s t : State) : Prop := ∀ (m : Mem) (a : Nat), t.byte m a = s.byte m a

/-- No byte differs but those from `a` to `a + n − 1` of the store of core `k`. -/
def SameMemBut (k : CoreId) (a n : Nat) (s t : State) : Prop :=
  ∀ (m : Mem) (b : Nat), (m = .store k → b < a ∨ a + n ≤ b) → t.byte m b = s.byte m b

/-! ## Registers -/

/-- Every context other than `c` is as it was. -/
def SameOthers (c : CtxId) (s t : State) : Prop := ∀ o : CtxId, o ≠ c → t.ctx o = s.ctx o

/-- The registers of context `c` are as they were, but for the positions of the input streams that an instruction reads. -/
def SameRegs (c : CtxId) (s t : State) : Prop :=
  (t.arch c) = { s.arch c with ports := (t.arch c).ports } ∧ (t.ctx c).b = (s.ctx c).b ∧ (t.ctx c).h = (s.ctx c).h ∧
  (t.ctx c).d = (s.ctx c).d ∧ (t.ctx c).y = (s.ctx c).y ∧ (t.ctx c).z = (s.ctx c).z ∧ (t.ctx c).mreg = (s.ctx c).mreg

/-- The stream ports that no operand of `srcs` reads are as they were. -/
def SamePorts (c : CtxId) (srcs : List Code7) (s t : State) : Prop :=
  ∀ n : Fin 8, (∀ q ∈ srcs, portOf q ≠ some n.val) → (t.arch c).ports[n.val] = (s.arch c).ports[n.val]

/-! ## When a slot instruction performs -/

/-- Every code is free of the `LDH` interlock (R214). -/
def unlocked (s : State) (c : CtxId) (codes : List Code7) : Bool := codes.all fun q => !locked s c q

/-- The input streams that the operands read have an element, which no command still writes, no fence.acq holds back and no check refuses (R226,
R246, R252, R272, R302). -/
def streamsReady (s : State) (c : CtxId) (srcs : List Code7) : Bool :=
  srcs.all fun q => match portOf q with
    | some n => !portEmpty s c n && !portBusy s c n && !(portReads s c n && acqPending s c) && (portCheck s c n).isNone
    | none => true

/-- The destination, if any, is free of the interlock, and as an output stream has room and meets no range that a command uses (R214, R246, R302). -/
def dstReady (s : State) (c : CtxId) : Option Code7 → Bool
  | none => true
  | some d => !locked s c d &&
    !(decide (0x40 ≤ d.toNat) && decide (d.toNat < 0x48) && (portFull s c 1 (d.toNat - 0x40) || portOutBusy s c 1 (d.toNat - 0x40)))

/-- A code names a stream port that is bound to a window. -/
def windowPortCode (s : State) (c : CtxId) (n : Option Nat) : Bool :=
  match n with
  | some n => ((s.arch c).ports[(Fin.ofNat 8 n).val]).win.isSome
  | none => false

/-- Nothing stalls on a speculative path: there is none, or neither the instruction nor a stream is in the stall row of
Table 25.11. -/
def pathReady (s : State) (c : CtxId) (srcs : List Code7) (dst : Option Code7) (stalls : Bool) : Bool :=
  (s.ctx c).spec.isNone ||
  (!stalls && srcs.all (fun q => !windowPortCode s c (portOf q)) && (match dst with
    | some d => !(decide (0x40 ≤ d.toNat) && decide (d.toNat < 0x48) && windowPortCode s c (some d.toNat))
    | none => true))

/-- An operand code names a result that has not landed. -/
def notLanded (x : Ctx) (q : Code7) : Bool :=
  if q.toNat < 0x40 then pendingS x (physReg x.arch.rot q.toNat)
  else decide (q.toNat < 0x60) && x.flights.any (·.hem)

/-- With CKMODE = 1, no operand or matrix register read has a result in flight (R146). -/
def landedReady (x : Ctx) (srcs : List Code7) (mrds : List Nat) : Bool :=
  x.arch.ckmode == 0#1 || (srcs.all (fun q => !notLanded x q) && mrds.all fun m => !pendingM x m)

/-- The operands of a slot instruction of the context in focus let it perform: what Table 09.1 asks of any instruction, apart
from the instruction's own conditions. `srcs` are its operand codes, `mrds` the matrix registers it reads, `dst` its
destination code, `stalls` whether it is in the stall row of Table 25.11. -/
def ready (s : State) (srcs : List Code7) (mrds : List Nat) (dst : Option Code7) (stalls : Bool) : Bool :=
  unlocked s s.focus srcs && dstReady s s.focus dst && streamsReady s s.focus srcs &&
  pathReady s s.focus srcs dst stalls && landedReady (s.ctx s.focus) srcs mrds

/-- Take the stream elements that the operand codes of an instruction have read (R226). -/
def takeAll (c : CtxId) (srcs : List Code7) (s : State) : State := forEach (srcs.filterMap portOf) (portTake c) s

/-! ## Safe runs -/

/-- The states in which the module serves tasks. -/
def State.serves (s : State) : Prop := s.hstate = 1

end Sys2Proof.Machine
end

