-- ==== Sys2Proof/Certificates/Slice0/Obligations.lean ====
section
/-! DEFINITION. The statements for the provers. The tables before them say in the spec's terms what an instruction reads and what
it gives; each statement's docstring names the rules it formalises. -/

namespace Sys2Proof.Machine


/-! ## Slots A and B -/

/-- Integer and move instructions: latency, destination, operands and result from the operand values (R123, R148, R149;
Tables 07.17, 09.3). -/
def intSpec (r : Code7 → W64) : Instr → Option (Nat × Code7 × List Code7 × W64)
  | .add d x y => some (1, d, [x, y], r x + r y)
  | .sub d x y => some (1, d, [x, y], r x - r y)
  | .addw d x y => some (1, d, [x, y], ((r x + r y).setWidth 32).signExtend 64)
  | .subw d x y => some (1, d, [x, y], ((r x - r y).setWidth 32).signExtend 64)
  | .mul d x y => some (3, d, [x, y], r x * r y)
  | .mulh d x y => some (3, d, [x, y], ((r x).signExtend 128 * (r y).signExtend 128).extractLsb' 64 64)
  | .mulhu d x y => some (3, d, [x, y], ((r x).setWidth 128 * (r y).setWidth 128).extractLsb' 64 64)
  | .mulw d x y => some (3, d, [x, y], ((r x * r y).setWidth 32).signExtend 64)
  | .and d x y => some (1, d, [x, y], r x &&& r y)
  | .or d x y => some (1, d, [x, y], r x ||| r y)
  | .xor d x y => some (1, d, [x, y], r x ^^^ r y)
  | .andn d x y => some (1, d, [x, y], r x &&& ~~~(r y))
  | .shl d x y => some (1, d, [x, y], r x <<< ((r y).extractLsb' 0 6).toNat)
  | .shr d x y => some (1, d, [x, y], r x >>> ((r y).extractLsb' 0 6).toNat)
  | .sar d x y => some (1, d, [x, y], (r x).sshiftRight ((r y).extractLsb' 0 6).toNat)
  | .rot d x y => some (1, d, [x, y], (r x).rotateLeft ((r y).extractLsb' 0 6).toNat)
  | .min d x y => some (1, d, [x, y], if (r x).sle (r y) then r x else r y)
  | .max d x y => some (1, d, [x, y], if (r x).sle (r y) then r y else r x)
  | .minu d x y => some (1, d, [x, y], if (r x).ule (r y) then r x else r y)
  | .maxu d x y => some (1, d, [x, y], if (r x).ule (r y) then r y else r x)
  | .cmpEq d x y => some (1, d, [x, y], if r x = r y then 1 else 0)
  | .cmpNe d x y => some (1, d, [x, y], if r x = r y then 0 else 1)
  | .cmpLt d x y => some (1, d, [x, y], if (r x).toInt < (r y).toInt then 1 else 0)
  | .cmpGe d x y => some (1, d, [x, y], if (r y).toInt ≤ (r x).toInt then 1 else 0)
  | .cmpLtu d x y => some (1, d, [x, y], if (r x).toNat < (r y).toNat then 1 else 0)
  | .cmpGeu d x y => some (1, d, [x, y], if (r y).toNat ≤ (r x).toNat then 1 else 0)
  | .addi d x imm => some (1, d, [x], r x + imm.signExtend 64)
  | .andi d x imm => some (1, d, [x], r x &&& imm.signExtend 64)
  | .shli d x imm => some (1, d, [x], r x <<< (imm.extractLsb' 0 6).toNat)
  | .shri d x imm => some (1, d, [x], r x >>> (imm.extractLsb' 0 6).toNat)
  | .sari d x imm => some (1, d, [x], (r x).sshiftRight (imm.extractLsb' 0 6).toNat)
  | .ldi d hi lo n => some (1, d, [], ((hi ++ lo).signExtend 64) <<< (14 * n.toNat))
  | .lea d x y n => some (1, d, [x, y], r x + (r y <<< n.toNat))
  | .sextB d x => some (1, d, [x], ((r x).setWidth 8).signExtend 64)
  | .sextH d x => some (1, d, [x], ((r x).setWidth 16).signExtend 64)
  | .sextW d x => some (1, d, [x], ((r x).setWidth 32).signExtend 64)
  | .zextB d x => some (1, d, [x], ((r x).setWidth 8).setWidth 64)
  | .zextH d x => some (1, d, [x], ((r x).setWidth 16).setWidth 64)
  | .zextW d x => some (1, d, [x], ((r x).setWidth 32).setWidth 64)
  | .clz d x => some (1, d, [x], BitVec.ofNat 64 (clz64 (r x).toNat))
  | .ctz d x => some (1, d, [x], BitVec.ofNat 64 (ctz64 (r x).toNat))
  | .popc d x => some (1, d, [x], BitVec.ofNat 64 (popcount (r x).toNat 64))
  | .mov d x => some (1, d, [x], r x)
  | _ => none

/-- The F32 value of an operand's low word. -/
def f32Of (v : W64) : FV := f32 (v.extractLsb' 0 32).toNat
/-- An F32 result: the rounding of an exact value, zero-extended. -/
def fout (v : FV) : W64 := BitVec.ofNat 64 (rF32 v)
/-- The ordering of two F32 operands is one of a list; NaN operands have none. -/
def fcmp (os : List (Option Ordering)) (x y : W64) : W64 := if FV.cmp (f32Of x) (f32Of y) ∈ os then 1 else 0

/-- Floating-point instructions: latency, destination, operands and result (R123, R150; Table 09.4). -/
def floatSpec (r : Code7 → W64) : Instr → Option (Nat × Code7 × List Code7 × W64)
  | .fadd d x y => some (3, d, [x, y], fout (FV.sum [f32Of (r x), f32Of (r y)]))
  | .fsub d x y => some (3, d, [x, y], fout (FV.sum [f32Of (r x), (f32Of (r y)).neg]))
  | .fmul d x y => some (3, d, [x, y], fout ((f32Of (r x)).mul (f32Of (r y))))
  | .fmin d x y => some (1, d, [x, y], fout ((f32Of (r x)).min2 (f32Of (r y))))
  | .fmax d x y => some (1, d, [x, y], fout ((f32Of (r x)).max2 (f32Of (r y))))
  | .fcmpEq d x y => some (1, d, [x, y], fcmp [some .eq] (r x) (r y))
  | .fcmpLt d x y => some (1, d, [x, y], fcmp [some .lt] (r x) (r y))
  | .fcmpLe d x y => some (1, d, [x, y], fcmp [some .lt, some .eq] (r x) (r y))
  | .fcmpUn d x y => some (1, d, [x, y], fcmp [none] (r x) (r y))
  | .fcvtF32I32 d x => some (2, d, [x], fout (FV.ofInt ((r x).setWidth 32).toInt))
  | .fcvtI32F32 d x => some (2, d, [x], BitVec.ofInt 64 (satInt (f32Of (r x)).toIntRNE (-(2 ^ 31)) (2 ^ 31 - 1)))
  | .fcvtI32F32Rz d x => some (2, d, [x], BitVec.ofInt 64 (satInt (f32Of (r x)).toIntRZ (-(2 ^ 31)) (2 ^ 31 - 1)))
  | .fcvtBf16F32 d x => some (2, d, [x], BitVec.ofNat 64 (FFmt.bf16.round (f32Of (r x))))
  | .fcvtF32Bf16 d x => some (2, d, [x], fout (FFmt.bf16.decode ((r x).extractLsb' 0 16).toNat))
  | .fcvtF16F32 d x => some (2, d, [x], BitVec.ofNat 64 (FFmt.f16.round (f32Of (r x))))
  | .fcvtF32F16 d x => some (2, d, [x], fout (FFmt.f16.decode ((r x).extractLsb' 0 16).toNat))
  | .fcvtF32I64 d x => some (2, d, [x], fout (FV.ofInt (r x).toInt))
  | .fdiv d x y => some (14, d, [x, y], fout ((f32Of (r x)).div (f32Of (r y))))
  | .fsqrt d x => some (14, d, [x], fout (f32Of (r x)).sqrt)
  | _ => none

/-- The system registers 0 to 31 as RDSYS reads them in a context (Tables 01.7 to 01.11, 05.6, 09.8 to 09.10, R167, R168); every other number reads 0 (R123). -/
def sysTable (s : State) (c : CtxId) : List W64 :=
  let a := s.arch c
  let b := (s.ctx c).b
  let k := s.core c.coreId
  [BitVec.ofNat 64 c.ctx.val, 0#51 ++ k.site ++ 0#4 ++ BitVec.ofNat 4 c.core.val, BitVec.ofNat 64 (c.core.val / 4), BitVec.ofNat 64 c.die.val,
   BitVec.ofNat 64 (256 * s.podX.toNat + dieX s c.die), BitVec.ofNat 64 (256 * s.podY.toNat + dieY s c.die),
   BitVec.ofNat 64 (256 * s.podZ.toNat + dieZ s c.die), 0#60 ++ b.tenant, k.cycle, (s.die c.die).ptb, 0#32 ++ (s.die c.die).tgen, 0#32 ++ a.ctgen,
   0#53 ++ b.feat, BitVec.ofNat 64 (4 * b.gran), 0#63 ++ a.ckmode, 0#31 ++ BitVec.ofBool a.trapvecValid ++ a.trapvecAddr,
   0#55 ++ BitVec.ofBool a.inh ++ a.cause, 0#32 ++ a.trappc, 0#53 ++ a.depth ++ a.tslot ++ 0#2 ++ a.tleaf, a.trapaddr, a.cgm, 0#32 ++ a.cseq, b.task, b.save,
   0#32 ++ a.exv] ++ a.scratch.toList

/-- The state after a slot A instruction of the context in focus with a result: the streams read have advanced and the result
is in flight to its destination, which it also enters the Hem with (R139, R140). -/
def sends (s : State) (srcs : List Code7) (lat : Nat) (d : Code7) (v : W64) : State :=
  takeAll s.focus srcs (addFlight s.focus ⟨lat, true, 0, dstAct (s.arch s.focus) d 0 v, none⟩ s)

/-- The state after an instruction whose result enters no Hem. -/
def quiet (s : State) (srcs : List Code7) (slot : BitVec 3) (lat : Nat) (a : Land) : State :=
  takeAll s.focus srcs (addFlight s.focus ⟨lat, false, slot, a, none⟩ s)

/-! ## Slot L -/

/-- The bytes of a little-endian value from an address. -/
def leBytes (m : Cells 8) (a : Nat) : (n : Nat) → BitVec (8 * n)
  | 0 => 0#0
  | n + 1 => (leBytes m (a + 1) n ++ rdCell m a).cast (by omega)

/-- Core-store loads: access size, whether the value is sign-extended, destination, base and offset (R207, Table 13.1). -/
def loadSpec : Instr → Option (Nat × Bool × Code7 × Code7 × BitVec 18)
  | .ldB d b imm => some (1, true, d, b, imm)
  | .ldBu d b imm => some (1, false, d, b, imm)
  | .ldH d b imm => some (2, true, d, b, imm)
  | .ldHu d b imm => some (2, false, d, b, imm)
  | .ldW d b imm => some (4, true, d, b, imm)
  | .ldWu d b imm => some (4, false, d, b, imm)
  | .ldD d b imm => some (8, false, d, b, imm)
  | _ => none

/-- Core-store stores: access size, data, base and offset (R207, Table 13.1). -/
def storeSpec : Instr → Option (Nat × Code7 × Code7 × BitVec 18)
  | .stB x b imm => some (1, x, b, imm)
  | .stH x b imm => some (2, x, b, imm)
  | .stW x b imm => some (4, x, b, imm)
  | .stD x b imm => some (8, x, b, imm)
  | _ => none

/-- The address that a core-store access names (R205). -/
def eaOf (s : State) (b : Code7) (imm : BitVec 18) : W64 := readOp s s.focus b + imm.signExtend 64

/-- A core-store address passes the checks of R206: it lies in the store and its buffer is in HOME. -/
def homeAddr (s : State) (ea : W64) : Bool :=
  decide (ea.toNat < 0x600000) && (s.core s.focus.coreId).own[ea.toNat / 0x10000]? == some .home

/-- Nothing that orders accesses holds up a read of the core store: no acquire is awaited and no command of the core still
writes the bytes (R267, R302). -/
def readsFree (s : State) (a n : Nat) : Bool := !acqPending s s.focus && !busyWritten (s.core s.focus.coreId) a n

/-- Accesses through a handle: operands, destination, handle, offset, size, kind and operation (R212 to R217). -/
def handleSpec (r : Code7 → W64) : Instr → Option (List Code7 × Option Code7 × BitVec 4 × W64 × Nat × HKind × AccOp)
  | .ldhW d h off imm => some ([off], some d, h, r off + imm.signExtend 64 * 8, 4, .load, .load)
  | .ldhD d h off imm => some ([off], some d, h, r off + imm.signExtend 64 * 8, 8, .load, .load)
  | .sthW x h off imm => some ([off, x], none, h, r off + imm.signExtend 64 * 8, 4, .store, .store (r x))
  | .sthD x h off imm => some ([off, x], none, h, r off + imm.signExtend 64 * 8, 8, .store, .store (r x))
  | .amoSwap d h off sz _ => some ([off, d], some d, h, r off, szBytes sz, .atomic, .amo 0 (r d))
  | .amoAdd d h off sz _ => some ([off, d], some d, h, r off, szBytes sz, .atomic, .amo 1 (r d))
  | .amoAnd d h off sz _ => some ([off, d], some d, h, r off, szBytes sz, .atomic, .amo 2 (r d))
  | .amoOr d h off sz _ => some ([off, d], some d, h, r off, szBytes sz, .atomic, .amo 3 (r d))
  | .amoXor d h off sz _ => some ([off, d], some d, h, r off, szBytes sz, .atomic, .amo 4 (r d))
  | .amoMin d h off sz _ => some ([off, d], some d, h, r off, szBytes sz, .atomic, .amo 5 (r d))
  | .amoMax d h off sz _ => some ([off, d], some d, h, r off, szBytes sz, .atomic, .amo 6 (r d))
  | .amoMinu d h off sz _ => some ([off, d], some d, h, r off, szBytes sz, .atomic, .amo 7 (r d))
  | .amoMaxu d h off sz _ => some ([off, d], some d, h, r off, szBytes sz, .atomic, .amo 8 (r d))
  | .amoFadd d h off sz _ => some ([off, d], some d, h, r off, szBytes sz, .atomic, .amo 9 (r d))
  | .amoc d h off sz _ => some ([off, d, d + 1], some d, h, r off, szBytes sz, .atomic, .amoc (r d) (r (d + 1)))
  | _ => none

/-- A core-store access: its address, the first byte and the number of bytes that it touches, its operands, the matrix
register it reads and its destination (R205 to R208). -/
def accessOf (s : State) (i : Instr) : Option (W64 × Nat × Nat × List Code7 × List Nat × Option Code7) :=
  match loadSpec i, storeSpec i, i with
  | some (n, _, d, b, imm), _, _ => some (eaOf s b imm, alignDown (eaOf s b imm).toNat n, n, [b], [], some d)
  | none, some (n, x, b, imm), _ => some (eaOf s b imm, alignDown (eaOf s b imm).toNat n, n, [b, x], [], none)
  | none, none, .ldmr _ b imm =>
    some (readOp s s.focus b + 128 * imm.setWidth 64, alignDown (readOp s s.focus b + 128 * imm.setWidth 64).toNat 128, 128, [b], [], none)
  | none, none, .stmr sl b imm =>
    some (readOp s s.focus b + 128 * imm.setWidth 64, alignDown (readOp s s.focus b + 128 * imm.setWidth 64).toNat 128, 128, [b],
      [specReg sl], none)
  | _, _, _ => none

/-! ## Slot V -/

/-- Element `e` of width `w` of the slice that a spec names for the context in focus (R276, R277). -/
def velt (s : State) (x : Ctx) (sp : Spec) (rel : BitVec 1) (w e : Nat) : Nat :=
  elem w (rdSlice x sp (relOff (s.ctx s.focus) rel)) e

/-- What a vector instruction reads, when its result lands, and each element of width `w` of its destination slice
afterwards. -/
structure VRes where
  srcs : List Code7
  mrds : List Nat
  lat : Nat
  d : Spec
  rel : BitVec 1
  w : Nat
  val : Nat → Nat

/-- The vector instructions whose destination is a slice (R277 to R286, R289 to R291, R293; Tables 17.1 to 17.6). -/
def vSpec (s : State) : Instr → Option VRes
  | .vadd t d a b rel => some ⟨[], [specReg a, specReg b], vLat t, d, rel, vBits t, fun e => vAddE t (E a rel (vBits t) e) (E b rel (vBits t) e)⟩
  | .vsub t d a b rel => some ⟨[], [specReg a, specReg b], vLat t, d, rel, vBits t, fun e => vSubE t (E a rel (vBits t) e) (E b rel (vBits t) e)⟩
  | .vmul t d a b rel => some ⟨[], [specReg a, specReg b], 4, d, rel, vBits t, fun e => vMulE t (E a rel (vBits t) e) (E b rel (vBits t) e)⟩
  | .vfma t d a b rel => some ⟨[], [specReg d, specReg a, specReg b], 4, d, rel, vBits t,
      fun e => vFmaE t false (E a rel (vBits t) e) (E b rel (vBits t) e) (E d rel (vBits t) e)⟩
  | .vfms t d a b rel => some ⟨[], [specReg d, specReg a, specReg b], 4, d, rel, vBits t,
      fun e => vFmaE t true (E a rel (vBits t) e) (E b rel (vBits t) e) (E d rel (vBits t) e)⟩
  | .vmin t d a b rel => some ⟨[], [specReg a, specReg b], 2, d, rel, vBits t, fun e => vMinE t (E a rel (vBits t) e) (E b rel (vBits t) e)⟩
  | .vmax t d a b rel => some ⟨[], [specReg a, specReg b], 2, d, rel, vBits t, fun e => vMaxE t (E a rel (vBits t) e) (E b rel (vBits t) e)⟩
  | .vabs t d a rel => some ⟨[], [specReg a], 2, d, rel, vBits t,
      fun e => vArith t (fun v _ => v.abs) (fun i _ => i.natAbs) (E a rel (vBits t) e) 0⟩
  | .vneg t d a rel => some ⟨[], [specReg a], 2, d, rel, vBits t,
      fun e => vArith t (fun v _ => v.neg) (fun i _ => -i) (E a rel (vBits t) e) 0⟩
  | .vadds t d a x rel => some ⟨[x], [specReg a], vLat t, d, rel, vBits t, fun e => vAddE t (E a rel (vBits t) e) (R x % 2 ^ vBits t)⟩
  | .vmuls t d a x rel => some ⟨[x], [specReg a], 4, d, rel, vBits t, fun e => vMulE t (E a rel (vBits t) e) (R x % 2 ^ vBits t)⟩
  | .vfmas t d a x rel => some ⟨[x], [specReg d, specReg a], 4, d, rel, vBits t,
      fun e => vFmaE t false (E a rel (vBits t) e) (R x % 2 ^ vBits t) (E d rel (vBits t) e)⟩
  | .vexp2 d a rel => some ⟨[], [specReg a], 8, d, rel, 32, fun e => rF32 (FV.exp2 (f32 (E a rel 32 e)))⟩
  | .vlog2 d a rel => some ⟨[], [specReg a], 8, d, rel, 32, fun e => rF32 (FV.log2 (f32 (E a rel 32 e)))⟩
  | .vrcp d a rel => some ⟨[], [specReg a], 8, d, rel, 32, fun e => rF32 (FV.div (.fin false 1 0) (f32 (E a rel 32 e)))⟩
  | .vrsq d a rel => some ⟨[], [specReg a], 8, d, rel, 32, fun e => rF32 (FV.rsqrt (f32 (E a rel 32 e)))⟩
  | .vsqrt d a rel => some ⟨[], [specReg a], 8, d, rel, 32, fun e => rF32 (FV.sqrt (f32 (E a rel 32 e)))⟩
  | .vcvt t d a src part rel =>
    let n := 1024 / max (bitsOf src.toNat) (vBits t)
    let p := part.toNat * n
    some ⟨[], [specReg a], 4, d, rel, vBits t, fun e =>
      if vBits t < bitsOf src.toNat then
        (if p ≤ e ∧ e < p + n then cvtE src.toNat t.toNat (E a rel (bitsOf src.toNat) (e - p)) else E d rel (vBits t) e)
      else cvtE src.toNat t.toNat (E a rel (bitsOf src.toNat) (if bitsOf src.toNat < vBits t then p + e else e))⟩
  | .vqnt t d a x rel =>
    let p := bits (R x) 8 3
    some ⟨[x], [specReg a], 4, d, rel, vBits t, fun e =>
      if p < 32 / vBits t ∧ 32 * p ≤ e ∧ e < 32 * p + 32 then qntE t.toNat (bits (R x) 0 8) (E a rel 32 (e - 32 * p))
      else E d rel (vBits t) e⟩
  | .vdqnt t d a x rel =>
    let p := bits (R x) 8 3
    some ⟨[x], [specReg a], 4, d, rel, 32, fun e =>
      if p < 32 / vBits t then rF32 (mxVal t.toNat (bits (R x) 0 8) (E a rel (vBits t) (32 * p + e))) else E d rel 32 e⟩
  | .vand d a b rel => some ⟨[], [specReg a, specReg b], 2, d, rel, 32, fun e => E a rel 32 e &&& E b rel 32 e⟩
  | .vor d a b rel => some ⟨[], [specReg a, specReg b], 2, d, rel, 32, fun e => E a rel 32 e ||| E b rel 32 e⟩
  | .vxor d a b rel => some ⟨[], [specReg a, specReg b], 2, d, rel, 32, fun e => E a rel 32 e ^^^ E b rel 32 e⟩
  | .vshl t d a b rel => some ⟨[], [specReg a, specReg b], 2, d, rel, vBits t,
      fun e => E a rel (vBits t) e * 2 ^ (E b rel (vBits t) e % vBits t)⟩
  | .vshr t d a b rel => some ⟨[], [specReg a, specReg b], 2, d, rel, vBits t,
      fun e => E a rel (vBits t) e / 2 ^ (E b rel (vBits t) e % vBits t)⟩
  | .vsar t d a b rel => some ⟨[], [specReg a, specReg b], 2, d, rel, vBits t,
      fun e => wrapN (sInt (E a rel (vBits t) e) (vBits t) / (2 ^ (E b rel (vBits t) e % vBits t) : Nat)) (vBits t)⟩
  | .vblend t d a b rel => some ⟨[], [specReg d, specReg a, specReg b], 2, d, rel, vBits t,
      fun e => if E d rel (vBits t) e = 0 then E b rel (vBits t) e else E a rel (vBits t) e⟩
  | .vredsum t d a rel => some ⟨[], [specReg a], 6, d, rel, 32, fun _ => redSum t ((List.range 32).map (E a rel 32))⟩
  | .vredmax t d a rel => some ⟨[], [specReg a], 6, d, rel, 32, fun _ => redBy (vMaxE t) ((List.range 32).map (E a rel 32))⟩
  | .vredmin t d a rel => some ⟨[], [specReg a], 6, d, rel, 32, fun _ => redBy (vMinE t) ((List.range 32).map (E a rel 32))⟩
  | .vbcast t d a k rel => some ⟨[], [specReg a], 2, d, rel, vBits t, fun _ => E a rel (vBits t) k.toNat⟩
  | .vslide t d a sh rel => some ⟨[], [specReg a], 2, d, rel, vBits t, fun e =>
      if (e : Int) < sh.toInt then 0 else E a rel (vBits t) ((e : Int) - sh.toInt).toNat⟩
  | .vslide2 t d a b rel => some ⟨[], [specReg a, specReg b], 2, d, rel, vBits t, fun e =>
      if e = 0 then E b rel (vBits t) (1024 / vBits t - 1) else E a rel (vBits t) (e - 1)⟩
  | .vnar t d a sh rel => some ⟨[], [specReg a], 3, d, rel, 16, fun e =>
      narE t sh.toNat (rdCell (s.ctx s.focus).mreg ((pairCells a (relOff (s.ctx s.focus) rel)).getD e 0)).toNat⟩
  | .vperm t d a b rel => some ⟨[], [specReg a, specReg b], 2, d, rel, vBits t, fun e =>
      E a rel (vBits t) (E b rel (vBits t) e % (1024 / vBits t))⟩
  | .vzero d rel => some ⟨[], [], 1, d, rel, 32, fun _ => 0⟩
  | .viota t d rel => some ⟨[], [], 1, d, rel, vBits t, fun e => if t = 0 then rF32 (FV.ofInt (e : Int)) else e⟩
  | _ => none
where
  /-- An element of a source slice. -/
  E (sp : Spec) (rel : BitVec 1) (w e : Nat) : Nat := velt s (s.ctx s.focus) sp rel w e
  /-- A scalar operand. -/
  R (x : Code7) : Nat := (readOp s s.focus x).toNat

/-- The compares that write 32 flags (R287): condition code, type, flag base, operands. -/
def cmpSpec : Instr → Option (Nat × TypeCode × BitVec 8 × Spec × Spec × BitVec 1)
  | .vcmpEq t fb x y rel => some (0, t, fb, x, y, rel)
  | .vcmpNe t fb x y rel => some (1, t, fb, x, y, rel)
  | .vcmpLt t fb x y rel => some (2, t, fb, x, y, rel)
  | .vcmpLe t fb x y rel => some (3, t, fb, x, y, rel)
  | .vcmpGt t fb x y rel => some (4, t, fb, x, y, rel)
  | .vcmpGe t fb x y rel => some (5, t, fb, x, y, rel)
  | .vcmpUn t fb x y rel => some (6, t, fb, x, y, rel)
  | _ => none

/-! ## Slot M -/

/-- The commands of slot M: their operand codes, the matrix register that a gather reads, and what they capture of them
(R298, R299, R305). -/
def cmdSpec (s : State) : Instr → Option (List Code7 × List Nat × W64 × List W32)
  | .mmaS _ _ _ _ _ _ _ _ _ _ _ _ => some ([], [], 0, [])
  | .mmaV _ _ _ _ _ _ _ _ _ _ _ _ => some ([], [], 0, [])
  | .mmaSg _ _ _ _ _ _ _ _ _ g r => some ([], [g.toNat], 0, rows g r)
  | .mmaVg _ _ _ _ _ _ _ _ _ g r => some ([], [g.toNat], 0, rows g r)
  | .mmaQ _ _ _ _ _ _ _ _ _ x => some ([x], [], readOp s s.focus x, [])
  | .zzero _ _ => some ([], [], 0, [])
  | .chbeg _ _ _ _ _ _ x => some ([x], [], readOp s s.focus x, [])
  | .chblk _ _ _ _ _ _ => some ([], [], 0, [])
  | .chend _ => some ([], [], 0, [])
  | .chfin _ _ _ => some ([], [], 0, [])
  | .chmrg _ _ => some ([], [], 0, [])
  | .chst _ x => some ([x], [], readOp s s.focus x, [])
  | .chld _ _ x => some ([x], [], readOp s s.focus x, [])
  | .chscl _ x => some ([x], [], readOp s s.focus x, [])
  | _ => none
where
  /-- The index rows r and r + 1 of matrix register g (R315). -/
  rows (g r : BitVec 5) : List W32 := (List.range 64).map fun j =>
    rdCell (s.ctx s.focus).mreg (g.toNat * 1024 + (r.toNat + j / 32) % 32 * 32 + j % 32)

/-- Row `row` of matrix register `m` of the context in focus. -/
def scaleRow (s : State) (m row : BitVec 5) (j : Nat) : W32 :=
  rdCell (s.ctx s.focus).mreg (m.toNat * 1024 + row.toNat * 32 + j)

/-- The state after a slot C instruction with a result (R140: 2 cycles, into the Hem). -/
def cSends (s : State) (srcs : List Code7) (d : Code7) (v : W64) (t : State) : State :=
  takeAll s.focus srcs (addFlight s.focus ⟨2, true, 5, dstAct (s.arch s.focus) d 5 v, none⟩ t)

/-- A trap of a slot that the instruction alone raises at the context's bundle (R162 to R164). -/
def traps (s : State) (slot : BitVec 3) (cause : Byte) (addr : W64) (t : State) : State :=
  postTrap s.focus ⟨cause, addr⟩ (s.arch s.focus).pc slot 0 t

/-- The instructions on barriers and rings (R235 to R237, R247 to R250): reference, operands, destination and operation. -/
def objSpec (r : Code7 → W64) : Instr → Option (W64 × List Code7 × Option Code7 × ObjOp)
  | .barinit x y => some (r x, [x, y], none, .barinit ((r y).setWidth 32))
  | .barexp x y => some (r x, [x, y], none, .barexp ((r y).setWidth 32))
  | .bararr x y => some (r x, [x, y], none, .bararr ((r y).setWidth 32))
  | .barwait x y => some (r x, [x, y], none, .barwait ((r y).setWidth 1))
  | .bartst d x => some (r x, [x], some d, .bartst)
  | .rres d x => some (r x, [x], some d, .rres)
  | .rpub x y => some (r x, [x, y], none, .rpub ((r y).setWidth 32))
  | .rtake x y => some (r x, [x, y], none, .rtake ((r y).setWidth 32))
  | .rrel x y => some (r x, [x, y], none, .rrel ((r y).setWidth 32))
  | _ => none

/-- The remote operations (R378, R379). -/
def ropSpec : Instr → Option (RopKind × Code7)
  | .put x => some (.put, x)
  | .get x => some (.get, x)
  | .ramo x => some (.ramo, x)
  | _ => none

/-- The loop instructions: pipelined or not, iterations, body length, stages and epilogue, operands (R153 to R158). -/
def loopSpec (r : Code7 → W64) : Instr → Option (Bool × Nat × Nat × Nat × Nat × List Code7)
  | .loop x n => some (false, ((r x).setWidth 32).toNat, n.toNat, 0, 0, [x])
  | .loopi lo hi n => some (false, hi.toNat * 128 + lo.toNat, n.toNat, 0, 0, [])
  | .ploop x n s1 e => some (true, ((r x).setWidth 32).toNat, n.toNat, s1.toNat + 1, e.toNat, [x])
  | _ => none

/-- Everything that a release at scope 5 waits for has been done: no stream element or compare flag in flight and no write of the context
unperformed (R264, R267). -/
def released (s : State) : Bool :=
  !((s.ctx s.focus).flights.any fun f => match f.act with
    | .port _ _ _ => true
    | .drain _ _ _ => true
    | .flags _ _ => true
    | _ => false) && !relBusy s s.focus 5

/-! ## Landings -/

/-- The value that a result carries into the Hem (R140). -/
def landsVal : Land → Option W64
  | .sreg _ v => some v
  | .hem v => some v
  | .port _ v _ => some v
  | .drain _ v _ => some v
  | .target _ _ | .sys _ _ | .handle _ _ | .words _ | .flags _ _ | .acc _ _ _ | .latch _ _ | .exv _ _ | .tscale _ _ => none

/-- A context once a result has landed that writes only its registers (R139 to R142, R208, R277, R318). -/
def landsIn (x : Ctx) : Land → Option Ctx
  | .sreg r v => some { x with arch := { x.arch with s := x.arch.s.set r.val v } }
  | .hem _ => some x
  | .target k v => some { x with arch := { x.arch with t := x.arch.t.set k.val v } }
  | .sys n v => some { x with arch := wrSysReg n v x.arch }
  | .handle n h => some { x with h := x.h.set n.val h }
  | .words ws => some (putWords ws x)
  | .latch k v => some { x with arch := { x.arch with latch := x.arch.latch.set k.val v } }
  | .exv k v => some { x with arch := { x.arch with exv := (x.arch.exv &&& ~~~(0xFF#32 <<< (8 * k.val))) ||| (v.setWidth 32 <<< (8 * k.val)) } }
  | .tscale k v => some { x with arch := { x.arch with tscale := x.arch.tscale.set k.val v } }
  | .port _ _ _ | .drain _ _ _ | .flags _ _ | .acc _ _ _ => none

/-- An element has gone to a binding of a core-store region at its position: its bytes stand there, or where the address fails R206 a late error names it. -/
def elementOut (c : CtxId) (s t : State) (p : Port) (v : W64) (slot : BitVec 3) : Prop :=
  let a := (p.base + p.pos.toNat % p.len) % 2 ^ 64
  p.bound = true → p.out = true → p.win = none →
    ((∀ i, i < p.bytes → a + i < 0x600000 ∧ (s.core c.coreId).own[(a + i) / 0x10000]? = some .home) →
      SameMemBut c.coreId a p.bytes s t ∧ (∀ i, i < p.bytes → t.byte (.store c.coreId) (a + i) = v.extractLsb' (8 * i) 8) ∧
      (t.ctx c).late = (s.ctx c).late) ∧
    (0x600000 ≤ a → SameMem s t ∧ (t.ctx c).late = (s.ctx c).late ++ [⟨⟨0x11, BitVec.ofNat 64 a⟩, slot, false⟩])

/-- What the landing of one result of a context, off a speculative path, leaves in the core store, the tiles and the streams (R142, R226, R288, R297). -/
def landsOut (c : CtxId) (s t : State) : Land → Prop
  | .flags b v => SameMemBut c.coreId (4 * b) 128 s t ∧ ∀ j, j < 32 → rdFlag (t.core c.coreId).store (b + j) = if v.getLsbD j then 1 else 0
  | .acc z b1 ws => SameMem s t ∧
    ((s.ctx c).z[z.val] = none → (t.ctx c).z = (s.ctx c).z) ∧
    ∀ y, (s.ctx c).z[z.val] = some y → ∃ m : Cells 32,
      (t.ctx c).z = (s.ctx c).z.set z.val (some (if b1 then { y with bank1 := m } else { y with bank0 := m })) ∧
      (∀ e, (∀ w ∈ ws, w.1 ≠ e) → rdCell m e = rdCell (if b1 then y.bank1 else y.bank0) e) ∧
      ((ws.map Prod.fst).Nodup → ∀ w ∈ ws, rdCell m w.1 = w.2)
  | .port n v slot =>
    let p := (s.arch c).ports[n.val]
    elementOut c s t p v slot ∧
    (p.bound = true → p.out = true → p.closing = false → (t.arch c).ports[n.val] = { p with pos := p.pos + BitVec.ofNat 64 p.bytes })
  | .drain p v slot => elementOut c s t p v slot
  | _ => True

/-- One output element of an MMA form (R52, R53, R313 to R316): the products of row `i` of A and column `j` of B, each value decoded at its edge and
scaled, onto the element's old value or 0. `kA` and `kB` are the cores whose tiles `dA` and `dB` supply the operands. -/
def mmaElem (s : State) (c : CtxId) (q : Cmd) (f : MmaF) (kA kB : CoreId) (dA dB : BitVec 256) (old : W32) (i j : Nat) : W32 :=
  let e := if f.value then 2 else 0
  let row := if isGather q.ins then elem 16 q.idx i else i
  let scale (e n l : Nat) (d : BitVec 256) : Option Nat :=
    if f.mx then some (if f.scl then tileElem (tileMem s c.coreId d) d n (l / 32) else bits (q.latch[(Fin.ofNat 4 e).val]).toNat (8 * n) 8) else none
  let A (l : Nat) : FV := edgeOp q e f.tA (scale e i l q.imgSA) (tileElem (tileMem s kA dA) dA row l)
  let B (l : Nat) : FV := edgeOp q (e + 1) f.tB (scale (e + 1) j l q.imgSB)
    (tileElem (tileMem s kB dB) dB (if f.bt then j else l) (if f.bt then l else j))
  BitVec.ofNat 32 (accSum f.tA f.tB (if f.acc then old.toNat else 0) ((List.range (tdCols dA)).map fun l => (A l).mul (B l)))

/-- The words that a command writes into bank `b` of the tile `t` of binding `z`: afterwards the elements of its first `m` rows and `n` columns
are those of `v`, and every other element, the other bank and the shape of the tile are as they were. -/
def fillsTile (x : Ctx) (z : Fin 16) (b : Bool) (t : Tile) (m n : Nat) (v : Nat → Nat → W32) (ws : List (Nat × W32)) : Prop :=
  ∃ u, (putAcc z b ws x).z[z.val] = some u ∧ u = (if b then { t with bank1 := u.bank1 } else { t with bank0 := u.bank0 }) ∧
    ∀ i j, j < 256 → rdCell (u.bank b) (i * 256 + j) = if i < m ∧ j < n then v i j else rdCell (t.bank b) (i * 256 + j)

/-- The values of an F32 at the Cuff: its rounding, −∞, 1 and the canonical NaN in the place of +∞ (R58, R61). -/
def cuffMax (x y : Nat) : Nat := rF32 (FV.max2 (f32 x) (f32 y))

/-- The exponential of a difference at the Cuff (R58, R59). -/
def cuffExp (x m : Nat) : Nat := expc (f32 (cuff (FV.sum [f32 x, (f32 m).neg])))

/-- A byte of a memory after writes made one after the other, each into the store of core `k`, or into a link buffer of its die, from an address on. -/
def byteAfter (k : CoreId) (m : Mem) (a : Nat) (ws : List (Option (Fin 16) × Nat × List Byte)) (v : Byte) : Byte :=
  ws.foldl (fun v w =>
    let into : Mem := match w.1 with
      | none => .store k
      | some n => .link k.die n
    if m = into ∧ w.2.1 ≤ a ∧ a < w.2.1 + w.2.2.length then w.2.2.getD (a - w.2.1) 0 else v) v

/-- A task record can be reached by the context in focus (R352): its page translates and is allowed. -/
def recordAt (s : State) (r : W64) : Bool := recAt s s.focus r == .ok

end Sys2Proof.Machine

open Sys2Proof Sys2Proof.Machine

/-! # Slot instructions: results and completion -/

/-- R148 (Tables 07.17, 09.3): every integer instruction of slots A and B whose operands are ready completes, with the result that the table gives, in flight
for its latency to the destination fixed at issue (R139, R143). -/
def Obligations.IntegerResults : Prop :=
  ∀ (i : Instr) (s : State) (lat : Nat) (d : Code7) (srcs : List Code7) (v : W64),
    intSpec (readOp s s.focus) i = some (lat, d, srcs, v) → ready s srcs [] (some d) false = true →
    exec i s = .next (sends s srcs lat d v)

/-- R149: DIV, DIVU, REM and REMU of any operands, a zero divisor and −2^63 / −1 among them. -/
def Obligations.DivisionResults : Prop :=
  ∀ (s : State) (d x y : Code7), ready s [x, y] [] (some d) false = true →
    let a := readOp s s.focus x
    let b := readOp s s.focus y
    exec (.div d x y) s = .next (sends s [x, y] 12 d (if b = 0 then BitVec.allOnes 64 else a.sdiv b)) ∧
    exec (.divu d x y) s = .next (sends s [x, y] 12 d (if b = 0 then BitVec.allOnes 64 else a / b)) ∧
    exec (.rem d x y) s = .next (sends s [x, y] 12 d (if b = 0 then a else a.srem b)) ∧
    exec (.remu d x y) s = .next (sends s [x, y] 12 d (if b = 0 then a else a % b)) ∧
    (a = BitVec.intMin 64 → b = BitVec.allOnes 64 → a.sdiv b = BitVec.intMin 64 ∧ a.srem b = 0)

/-- R148: what the counts of CLZ, CTZ and POPC are, for every 64-bit value. -/
def Obligations.BitCounts : Prop :=
  ∀ v : W64,
    (clz64 v.toNat ≤ 64 ∧ v.toNat < 2 ^ (64 - clz64 v.toNat) ∧ (clz64 v.toNat < 64 → v.getMsbD (clz64 v.toNat) = true)) ∧
    (ctz64 v.toNat ≤ 64 ∧ (∀ k, k < ctz64 v.toNat → v.getLsbD k = false) ∧ (ctz64 v.toNat < 64 → v.getLsbD (ctz64 v.toNat) = true)) ∧
    popcount v.toNat 64 = ((List.range 64).filter fun k => v.getLsbD k).length

/-- R150 (Table 09.4): every floating-point instruction whose operands are ready completes with the rounding of the exact result. -/
def Obligations.FloatResults : Prop :=
  ∀ (i : Instr) (s : State) (lat : Nat) (d : Code7) (srcs : List Code7) (v : W64),
    floatSpec (readOp s s.focus) i = some (lat, d, srcs, v) → ready s srcs [] (some d) false = true →
    exec i s = .next (sends s srcs lat d v)

/-- R151, R167, R123: SETT, RDT, RDSYS and WRSYS complete. RDSYS of a number reads what Table 09.8 gives it at the issue cycle, and 0 above 31; a WRSYS
writes, when it lands, the writable fields of CKMODE, TRAPVEC and the tenant's scratch registers, and nothing of any other number. -/
def Obligations.SystemRegisters : Prop :=
  ∀ (s : State) (d x : Code7) (k : BitVec 4) (n : BitVec 7), k.toNat ≤ 6 →
    (ready s [x] [] none false = true →
      exec (.sett k x) s = .next (quiet s [x] 0 1 (.target (Fin.ofNat 7 k.toNat) ((readOp s s.focus x).setWidth 32))) ∧
      exec (.wrsys n x) s = .next (quiet s [x] 0 2 (.sys n.toNat (readOp s s.focus x)))) ∧
    (ready s [] [] (some d) false = true →
      exec (.rdt d k) s = .next (sends s [] 1 d (((s.arch s.focus).t[(Fin.ofNat 7 k.toNat).val]).setWidth 64)) ∧
      exec (.rdsys d n) s = .next (sends s [] 2 d ((sysTable s s.focus).getD n.toNat 0))) ∧
    (∀ v : W64,
      let lands : State := landAct s.focus none (.sys n.toNat v) s
      (n.toNat = 14 → lands = s.modArch s.focus fun a => { a with ckmode := v.extractLsb' 0 1 }) ∧
      (n.toNat = 15 → lands = s.modArch s.focus fun a => { a with trapvecValid := v.getLsbD 32, trapvecAddr := v.extractLsb' 0 32 }) ∧
      (∀ q : Fin 7, n.toNat = 25 + q.val → lands = s.modArch s.focus fun a => { a with scratch := a.scratch.set q.val v }) ∧
      (n.toNat ≠ 14 → n.toNat ≠ 15 → (n.toNat < 25 ∨ 31 < n.toNat) → lands = s))

/-- R100: the no-operations of every slot complete and change nothing. -/
def Obligations.NopsChangeNothing : Prop :=
  ∀ s : State,
    exec .nop s = .next s ∧ exec .nopL s = .next s ∧ exec .nopV s = .next s ∧ exec .nopM s = .next s ∧
    exec .nopC s = .next s ∧ exec .nopS s = .next s

/-- R205 to R207 (Table 13.1): a core-store load from the store's own buffers completes with the little-endian bytes at its address, aligned down to its
size, sign- or zero-extended, 4 cycles later. -/
def Obligations.LoadResults : Prop :=
  ∀ (i : Instr) (s : State) (n : Nat) (sx : Bool) (d b : Code7) (imm : BitVec 18), loadSpec i = some (n, sx, d, b, imm) →
    let a := alignDown (eaOf s b imm).toNat n
    let v := leBytes (csView s s.focus) a n
    ready s [b] [] (some d) false = true → homeAddr s (eaOf s b imm) = true → readsFree s a n = true →
    exec i s = .next (takeAll s.focus [b]
      (addFlight s.focus ⟨4, true, 2, dstAct (s.arch s.focus) d 2 (if sx then v.signExtend 64 else v.setWidth 64), none⟩ s))

/-- R206: a core-store load or store of an address outside the store raises PERMISSION, and of a buffer that is not in HOME raises OWNERSHIP, with the
address in TRAPADDR; nothing of its effect happens. -/
def Obligations.CoreStoreChecks : Prop :=
  ∀ (i : Instr) (s : State) (ea : W64) (a n : Nat) (srcs : List Code7) (mrds : List Nat) (dst : Option Code7),
    i.wf = true → accessOf s i = some (ea, a, n, srcs, mrds, dst) →
    ready s srcs mrds dst false = true → readsFree s a n = true → busyAny (s.core s.focus.coreId) a n = false →
    committed s s.focus = false →
    (0x600000 ≤ ea.toNat →
      exec i s = .next (postTrap s.focus ⟨0x11, ea⟩ (s.arch s.focus).pc 2 0 s)) ∧
    (ea.toNat < 0x600000 → (s.core s.focus.coreId).own[ea.toNat / 0x10000]? ≠ some .home →
      exec i s = .next (postTrap s.focus ⟨0x05, ea⟩ (s.arch s.focus).pc 2 0 s))

/-- R207: a core-store store, off a speculative path, writes the low bytes of its operand, little-endian, at its address aligned down to its size, in the
issue cycle, and no other byte of any memory. -/
def Obligations.StoreBytes : Prop :=
  ∀ (i : Instr) (s : State) (n : Nat) (x b : Code7) (imm : BitVec 18), storeSpec i = some (n, x, b, imm) →
    let a := alignDown (eaOf s b imm).toNat n
    (s.ctx s.focus).spec = none → ready s [b, x] [] none false = true → homeAddr s (eaOf s b imm) = true →
    busyAny (s.core s.focus.coreId) a n = false →
    ∃ t, exec i s = .next t ∧
      (∀ k, k < n → t.byte (.store s.focus.coreId) (a + k) = (readOp s s.focus x).extractLsb' (8 * k) 8) ∧
      SameMemBut s.focus.coreId a n s t ∧ SameRegs s.focus s t ∧ SameOthers s.focus s t

/-- R208: LDMR and STMR move one slice of a matrix register and the 128 bytes at their address. -/
def Obligations.SliceMoves : Prop :=
  ∀ (s : State) (sl : Spec) (b : Code7) (imm : BitVec 13),
    let ea := readOp s s.focus b + 128 * imm.setWidth 64
    let a := alignDown ea.toNat 128
    homeAddr s ea = true →
    (ready s [b] [] none false = true → readsFree s a 128 = true →
      exec (.ldmr sl b imm) s = .next (quiet s [b] 2 6 (.words (fullWords (sliceCellsOf sl 0)
        ((List.range 32).map fun k => leBytes (csView s s.focus) (a + 4 * k) 4))))) ∧
    (partSpec sl = true → (s.ctx s.focus).spec = none → ready s [b] [specReg sl] none false = true →
      busyAny (s.core s.focus.coreId) a 128 = false →
      ∃ t, exec (.stmr sl b imm) s = .next t ∧ SameMemBut s.focus.coreId a 128 s t ∧
        ∀ k j, k < 32 → j < 4 → t.byte (.store s.focus.coreId) (a + 4 * k + j) =
          (rdCell (s.ctx s.focus).mreg (sliceCell sl 0 k)).extractLsb' (8 * j) 8)

/-- R212 to R217: an access through a handle that passes the checks of R212 completes: it is sent, behind every access that the context has sent before, with
the operation, size and address that the instruction names; an LDH, AMO or AMOC names the physical register that its result will enter (R214). -/
def Obligations.HandleAccesses : Prop :=
  ∀ (i : Instr) (s : State) (srcs : List Code7) (dst : Option Code7) (h : BitVec 4) (off : W64) (n : Nat) (k : HKind) (op : AccOp),
    handleSpec (readOp s s.focus) i = some (srcs, dst, h, off, n, k, op) →
    ready s srcs [] dst true = true → (dst.isSome = true → loadsOut s s.focus < 16) → handleCheck s s.focus h off n k = none →
    let hd := (s.ctx s.focus).h[h.toNat]
    ∃ t a, exec i s = .next (takeAll s.focus srcs t) ∧ t.accesses = s.accesses ++ [a] ∧ a.id = s.nextId ∧ a.owner = s.focus ∧
      a.op = op ∧ a.size = n ∧ a.loc = hd.loc s.focus (alignDown off.toNat n) ∧ a.va = BitVec.ofNat 64 hd.base + off ∧
      a.dst = dst.map (fun q => physReg (s.arch s.focus).rot q.toNat) ∧ a.performed = false ∧ SameMem s t

/-- R212: the checks of a handle access, in their order: an invalid handle raises STALEHANDLE, an offset past the page or a missing permission PERMISSION, an
atomic toward a host window ATOMICPATH, and an access to a view region that does not start at an element, does not cover whole elements or, as an atomic, is
no one element PERMISSION (R188). -/
def Obligations.HandleChecks : Prop :=
  ∀ (i : Instr) (s : State) (srcs : List Code7) (dst : Option Code7) (h : BitVec 4) (off : W64) (n : Nat) (k : HKind) (op : AccOp),
    handleSpec (readOp s s.focus) i = some (srcs, dst, h, off, n, k, op) →
    ready s srcs [] dst true = true → (dst.isSome = true → loadsOut s s.focus < 16) → committed s s.focus = false →
    let hd := (s.ctx s.focus).h[h.toNat]
    let va := BitVec.ofNat 64 hd.base + off
    let trap (e : Err) : State := postTrap s.focus e (s.arch s.focus).pc 2 0 s
    (hd.valid = false → exec i s = .next (trap ⟨0x03, h.setWidth 64⟩)) ∧
    (hd.valid = true → hd.bytes ≤ off.toNat → exec i s = .next (trap ⟨0x11, va⟩)) ∧
    (hd.valid = true → off.toNat < hd.bytes → k = .load → hd.r = false → exec i s = .next (trap ⟨0x11, va⟩)) ∧
    (hd.valid = true → off.toNat < hd.bytes → k = .store → (hd.w = false ∨ hd.x = true) → exec i s = .next (trap ⟨0x11, va⟩)) ∧
    (hd.valid = true → off.toNat < hd.bytes → k = .atomic → (hd.r = false ∨ hd.w = false ∨ hd.x = true) → exec i s = .next (trap ⟨0x11, va⟩)) ∧
    (hd.valid = true → off.toNat < hd.bytes → k = .atomic → hd.r = true → hd.w = true → hd.x = false → hd.space = 2#2 →
      exec i s = .next (trap ⟨0x07, va⟩)) ∧
    (hd.valid = true → off.toNat < hd.bytes → (k = .store ∨ hd.r = true) → (k = .load ∨ (hd.w = true ∧ hd.x = false)) → hd.space = 0#2 →
      ∀ g : BitVec 256, regionOf s (hd.dpa + alignDown off.toNat n) = some g →
        ((hd.dpa + alignDown off.toNat n - regBase g) % regE g ≠ 0 ∨ n % regE g ≠ 0 ∨ (k = .atomic ∧ n ≠ regE g)) →
        exec i s = .next (trap ⟨0x11, va⟩))

/-- R209 to R211, R214 and R215: XLAT with a translation in the TLBs, HREL, HINFO and PREF complete. -/
def Obligations.HandleInstructions : Prop :=
  ∀ (s : State) (h : BitVec 4) (off d : Code7) (imm : BitVec 14),
    let va := readOp s s.focus off + imm.signExtend 64 * 8
    let hd := (s.ctx s.focus).h[h.toNat]
    (∀ e, ready s [off] [] none true = true → va.toNat < 2 ^ 48 →
      tlbLook s s.focus.coreId (s.ctx s.focus).b.tenant va = some e →
      exec (.xlat h off imm) s = .next (quiet s [off] 2 24 (.handle (Fin.ofNat 16 h.toNat) (handleOf e va)))) ∧
    (ready s [] [] none true = true →
      exec (.hrel h) s = .next (s.modCtx s.focus fun x => { x with h := x.h.set h.toNat { hd with valid := false } })) ∧
    (ready s [] [] (some d) true = true →
      exec (.hinfo d h) s = .next (addFlight s.focus ⟨4, true, 2, dstAct (s.arch s.focus) d 2 (handleInfo hd), none⟩ s)) ∧
    (ready s [off] [] none false = true → (hd.valid && hd.r && hd.space == 0#2 && decide (va.toNat < hd.bytes)) = true →
      exec (.pref h off imm) s = .next (takeAll s.focus [off] (sendAccess s.focus .pref (hd.loc s.focus (alignDown va.toNat 256)) hd.view
        256 (BitVec.ofNat 64 hd.base + va) none (some (Fin.ofNat 16 h.toNat)) s))) ∧
    (ready s [off] [] none false = true → (hd.valid && hd.r && hd.space == 0#2 && decide (va.toNat < hd.bytes)) = false →
      exec (.pref h off imm) s = .next (takeAll s.focus [off] s))

/-- R277 to R286, R289 to R291, R293: a vector instruction with a slice as destination completes, and once its result has landed every element of the
destination slice is the value that the tables give for the elements read at issue, and every word of the matrix registers outside the slice is as it was. A
VZERO of a whole register writes 0 to each of its 1,024 words (R290). -/
def Obligations.VectorElements : Prop :=
  ∀ (i : Instr) (s : State) (r : VRes), i.wf = true → vSpec s i = some r → ready s r.srcs r.mrds none false = true →
    let x := s.ctx s.focus
    ∃ ws, exec i s = .next (quiet s r.srcs 3 r.lat (.words ws)) ∧
      (∀ e, e < 1024 / r.w → velt s (putWords ws x) r.d r.rel r.w e = r.val e % 2 ^ r.w) ∧
      (∀ n, n ∉ sliceCellsOf r.d (relOff x r.rel) → rdCell (putWords ws x).mreg n = rdCell x.mreg n) ∧
      ((∃ rel, i = .vzero r.d rel) → specDir r.d = 3 → ∀ n, n < 1024 → rdCell (putWords ws x).mreg (specReg r.d * 1024 + n) = 0)

/-- R290, R292: VMOV copies a slice or a whole register; VMACW adds 64 products to a row pair. -/
def Obligations.VectorMoves : Prop :=
  ∀ (s : State) (t : TypeCode) (d a b : Spec) (rel : BitVec 1),
    let off := relOff (s.ctx s.focus) rel
    let m := (s.ctx s.focus).mreg
    (ready s [] [specReg a] none false = true →
      exec (.vmov d a rel) s = .next (quiet s [] 3 2 (.words (fullWords (sliceCellsOf d off) ((sliceCellsOf a off).map (rdCell m)))))) ∧
    (ready s [] [specReg d, specReg a, specReg b] none false = true →
      exec (.vmacw t d a b rel) s = .next (quiet s [] 3 4 (.words ((pairCells d off).zipIdx.map fun p =>
        (p.1, BitVec.ofNat 32 (macwE t (velt s (s.ctx s.focus) a rel 16 p.2) (velt s (s.ctx s.focus) b rel 16 p.2) (rdCell m p.1).toNat),
          0xFFFFFFFF#32)))))

/-- R287: a vector compare completes; flag `4 · fb + j` becomes 1 where the condition holds for elements `j`, else 0. While its flags lie in a range that a
command uses it waits (R272, R302; that it does so at issue is the model's choice, log 73). -/
def Obligations.VectorCompares : Prop :=
  ∀ (i : Instr) (s : State) (cc : Nat) (t : TypeCode) (fb : BitVec 8) (x y : Spec) (rel : BitVec 1), i.wf = true →
    cmpSpec i = some (cc, t, fb, x, y, rel) → ready s [] [specReg x, specReg y] none false = true →
    (busyAny (s.core s.focus.coreId) (16 * fb.toNat) 128 = false →
      ∃ v : W32, exec i s = .next (quiet s [] 3 2 (.flags (4 * fb.toNat) v)) ∧
        ∀ j, j < 32 → v.getLsbD j = vCond t cc (velt s (s.ctx s.focus) x rel 32 j) (velt s (s.ctx s.focus) y rel 32 j)) ∧
    (busyAny (s.core s.focus.coreId) (16 * fb.toNat) 128 = true → exec i s = .next s)

/-- R294 to R297: VZRD and VZRD.L read a row group of an accumulator binding, VZWR writes one. An unbound binding, a row at or beyond the tile's rows and a
column at or beyond its width read +0 and take no write; off a speculative path the others read the elements of the bank. -/
def Obligations.AccumulatorMoves : Prop :=
  ∀ (s : State) (d : Spec) (z : BitVec 4) (rho : BitVec 7) (g : BitVec 3) (rel : BitVec 1),
    let c := s.focus
    let zz : Fin 16 := Fin.ofNat 16 z.toNat
    let r := tileRow s c rho rel
    let cells := sliceCellsOf d (relOff (s.ctx c) rel)
    (∀ bank : Tile → Bool,
      ((s.ctx c).z[zz.val] = none → zRow s c zz bank r g.toNat = .replicate 32 0) ∧
      (∀ t j, (s.ctx c).z[zz.val] = some t → j < 32 →
        (t.rows ≤ r ∨ t.cols ≤ 32 * g.toNat + j → (zRow s c zz bank r g.toNat)[j]? = some 0) ∧
        ((s.ctx c).spec = none → r < t.rows → 32 * g.toNat + j < t.cols →
          (zRow s c zz bank r g.toNat)[j]? = some (rdCell (if bank t then t.bank1 else t.bank0) (r * 256 + (32 * g.toNat + j)))))) ∧
    (ready s [] [] none false = true →
      (bankBusy s c zz (match (s.ctx c).z[zz.val] with
        | some t => t.dual && t.vis
        | none => false) = false →
        exec (.vzrd d z rho g rel) s = .next (quiet s [] 3 6 (.words (fullWords cells (zRow s c zz (fun t => t.dual && t.vis) r g.toNat))))) ∧
      ((∀ b j, j < 32 → elemInFlight s c zz b r (32 * g.toNat + j) = false) →
        exec (.vzrdL d z rho g rel) s =
          .next (quiet { s with draws := s.draws + 32 } [] 3 6 (.words (fullWords cells (zRow s c zz (fun t => t.dual && !t.vis) r g.toNat)))))) ∧
    (ready s [] [specReg d] none false = true → tileBusy s c zz = false →
      ((s.ctx c).z[zz.val] = none → exec (.vzwr d z rho g rel) s = .next (quiet s [] 3 6 (.acc zz false []))) ∧
      (∀ t, (s.ctx c).z[zz.val] = some t →
        exec (.vzwr d z rho g rel) s = .next (quiet s [] 3 6 (.acc zz (t.dual && !t.vis)
          (((List.range 32).filter fun j => decide (r < t.rows) && decide (32 * g.toNat + j < t.cols)).map fun j =>
            (r * 256 + 32 * g.toNat + j, ((cells.map (rdCell (s.ctx c).mreg)).getD j 0)))))))

/-- R298, R299: a command of slot M, off a speculative path and with room in the core's dependency table, completes: it enters the table as its youngest
entry, with what it captures at issue, and inverts WPH once in every descriptor register that it names and whose image has BARV and AUTO. MMA.Q carries the
core's quad epoch and advances it (R316). When the mask tile takes part is the mode its slot has once the older commands have completed (log 50), and that
the epoch is the count before the command is the model's choice (log 73). -/
def Obligations.CommandsEnter : Prop :=
  ∀ (i : Instr) (s : State) (srcs : List Code7) (mrds : List Nat) (v : W64) (idx : List W32),
    cmdSpec s i = some (srcs, mrds, v, idx) → ready s srcs mrds none false = true → (s.ctx s.focus).spec = none →
    tableRoom s.focus i v idx s = true →
    let m := maskUsed (s.core s.focus.coreId) (s.ctx s.focus) s.focus.ctx s.nextId i
    ∃ t q, exec i s = .next t ∧ (t.core s.focus.coreId).cmds = (s.core s.focus.coreId).cmds ++ [q] ∧
      q.id = s.nextId ∧ q.ctx = s.focus.ctx ∧ q.ins = i ∧ q.x = v ∧ q.idx = idx ∧ q.latch = (s.arch s.focus).latch ∧
      q.tscale = (s.arch s.focus).tscale ∧ q.exv = (s.arch s.focus).exv ∧ q.left = none ∧ q.mask = m ∧
      cmdImages m q = (cmdDescs m i).map (fun p => (s.ctx s.focus).d[p.2.toNat]) ∧ SameMem s t ∧ SameOthers s.focus s t ∧
      (∀ n : Fin 16,
        let d := (s.ctx s.focus).d[n.val]
        let named : Prop := ∃ p ∈ cmdDescs m i, p.2.toNat = n.val
        (named → d.getLsbD 160 = true → d.getLsbD 162 = true → (t.ctx s.focus).d[n.val] = d ^^^ (1#256 <<< 161)) ∧
        (¬ named ∨ d.getLsbD 160 = false ∨ d.getLsbD 162 = false → (t.ctx s.focus).d[n.val] = d)) ∧
      q.epoch = (s.core s.focus.coreId).epoch ∧
      (t.core s.focus.coreId).epoch = (s.core s.focus.coreId).epoch +
        (if ∃ z a b e f g h y w x, i = .mmaQ z a b e f g h y w x then 1 else 0)

/-- R400 (Table 25.11): on a speculative path a store, an STMR, an FSET, an FADD or a command is held: no byte of any memory changes, no table is entered,
and it stands last in the context's held list; a VCMP and a VZWR take their place there at issue and fill it when they land. A bundle after the 256 of the
path, or one that would leave more than 64 held entries, stalls. -/
def Obligations.HeldOnPath : Prop :=
  ∀ (i : Instr) (s : State) (p : Spec0), (s.ctx s.focus).spec = some p →
    let c := s.focus
    let holds (t : State) (l : List Held) (n : Nat) : Prop :=
      SameMem s t ∧ (∀ k, (t.core k).cmds = (s.core k).cmds) ∧ (t.ctx c).spec = some { p with seq := p.seq + n, held := p.held ++ l }
    (∀ (n : Nat) (x b : Code7) (imm : BitVec 18), storeSpec i = some (n, x, b, imm) →
      let a := alignDown (eaOf s b imm).toNat n
      ready s [b, x] [] none false = true → homeAddr s (eaOf s b imm) = true → busyAny (s.core c.coreId) a n = false →
      ∃ t bs, exec i s = .next t ∧ holds t [.store a bs] 0 ∧
        bs.length = n ∧ ∀ k, k < n → bs[k]? = some ((readOp s c x).extractLsb' (8 * k) 8)) ∧
    (∀ (sl : Spec) (b : Code7) (imm : BitVec 13),
      let ea := readOp s c b + 128 * imm.setWidth 64
      let a := alignDown ea.toNat 128
      partSpec sl = true → ready s [b] [specReg sl] none false = true → homeAddr s ea = true → busyAny (s.core c.coreId) a 128 = false →
      ∃ t bs, exec (.stmr sl b imm) s = .next t ∧ holds t [.store a bs] 0 ∧
        bs.length = 128 ∧ ∀ k j, k < 32 → j < 4 → bs[4 * k + j]? = some ((rdCell (s.ctx c).mreg (sliceCell sl 0 k)).extractLsb' (8 * j) 8)) ∧
    (∀ (n : BitVec 10) (x d : Code7), busyAny (s.core c.coreId) (4 * n.toNat) 4 = false →
      (ready s [x] [] none false = true →
        ∃ t bs, exec (.fset n x) s = .next t ∧ holds t [.store (4 * n.toNat) bs] 0 ∧
          bs.length = 4 ∧ ∀ k, k < 4 → bs[k]? = some ((readOp s c x).extractLsb' (8 * k) 8)) ∧
      (ready s [x] [] (some d) false = true → acqPending s c = false →
        let port := 0x40 ≤ d.toNat ∧ d.toNat < 0x48
        ∃ t, exec (.faddFlag n x d) s = .next t ∧
          holds t (.fadd n.toNat ((readOp s c x).setWidth 32) :: (if port then [.wait p.seq] else [])) (if port then 1 else 0))) ∧
    (∀ (cc : Nat) (ty : TypeCode) (fb : BitVec 8) (x y : Spec) (rel : BitVec 1), i.wf = true →
      cmpSpec i = some (cc, ty, fb, x, y, rel) → ready s [] [specReg x, specReg y] none false = true →
      busyAny (s.core c.coreId) (16 * fb.toNat) 128 = false →
      ∃ t v, exec i s = .next t ∧ holds t [.wait p.seq] 1 ∧
        (t.ctx c).flights = (s.ctx c).flights ++ [⟨2, false, 3, .flags (4 * fb.toNat) v, some p.seq⟩]) ∧
    (∀ (d : Spec) (z : BitVec 4) (rho : BitVec 7) (g : BitVec 3) (rel : BitVec 1), ready s [] [specReg d] none false = true →
      tileBusy s c (Fin.ofNat 16 z.toNat) = false →
      ∃ t b1 ws, exec (.vzwr d z rho g rel) s = .next t ∧ holds t [.wait p.seq] 1 ∧
        (t.ctx c).flights = (s.ctx c).flights ++ [⟨6, false, 3, .acc (Fin.ofNat 16 z.toNat) b1 ws, some p.seq⟩]) ∧
    (∀ (f : Flight) (n : Nat) (h : Held), f.ent = some n → f.hem = false →
      ((∃ b v, f.act = .flags b v ∧ h = .flags b v) ∨ (∃ z b ws, f.act = .acc z b ws ∧ h = .acc z b ws)) →
      let t := landOne c f s
      SameMem s t ∧ (t.ctx c).z = (s.ctx c).z ∧
        (t.ctx c).spec = some { p with held := p.held.map fun g => if g = .wait n then h else g }) ∧
    (∀ (srcs : List Code7) (mrds : List Nat) (v : W64) (idx : List W32),
      cmdSpec s i = some (srcs, mrds, v, idx) → ready s srcs mrds none false = true →
      ∃ t, exec i s = .next t ∧ holds t [.cmd i v idx] 0) ∧
    (∀ b : Bundle, 256 ≤ p.n → attemptBundle c b s = .frozen id) ∧
    (∀ (b : Bundle) (leaf : Nat) (ps : List (Slot × Plan)) (outs : List (Slot × SlotOut)) (u : State) (p' : Spec0),
      (∀ q ∈ outs, ∃ f, q.2 = .go f) →
      ((outs.foldl (fun t q => match q.2 with
        | .go f => f t
        | _ => t) u).ctx c).spec = some p' → 64 < p'.held.length → settleBundle c b leaf ps outs s u = .frozen id)

/-- R307 to R309: ZALLOC, ZFREE and ZSWAP of accumulator bindings; ZALLOC without banks raises ZALLOCFAIL. -/
def Obligations.AccumulatorBindings : Prop :=
  ∀ (s : State) (z : BitVec 4) (rows1 : BitVec 7) (cols1 : BitVec 8) (dual : BitVec 1), ready s [] [] none true = true →
    let c := s.focus
    let x := s.ctx c
    let zz : Fin 16 := Fin.ofNat 16 z.toNat
    let n := tileBanks (rows1.toNat + 1) (cols1.toNat + 1) (dual == 1#1)
    let fits := banksUsed (s.core c.coreId) + n ≤ 512 ∧ banksHeld x + n ≤ saveBanks x
    (x.z[zz.val] = none → fits → exec (.zalloc z rows1 cols1 dual) s =
      .next (s.modCtx c fun y => { y with z := y.z.set zz.val (some ⟨rows1.toNat + 1, cols1.toNat + 1, dual == 1#1, false, [], []⟩) })) ∧
    (committed s c = false → (x.z[zz.val] ≠ none ∨ ¬ fits) →
      exec (.zalloc z rows1 cols1 dual) s = .next (traps s 4 0x09 (BitVec.ofNat 64 n) s)) ∧
    (x.z[zz.val] = none → exec (.zfree z) s = .next s) ∧
    (∀ t, x.z[zz.val] = some t → zWaits s c zz = false →
      exec (.zfree z) s = .next (s.modCtx c fun y => { y with z := y.z.set zz.val none }) ∧
      (t.dual = true → exec (.zswap z) s = .next (s.modCtx c fun y => { y with z := y.z.set zz.val (some { t with vis := !t.vis }) })) ∧
      (t.dual = false → exec (.zswap z) s = .next s))

/-- R303, R312: MWAIT and MWAIT.ALL complete once no entry of the table that they name is left, MWAIT of an unbound binding at once; a stored command error
is raised and cleared. -/
def Obligations.CommandWaits : Prop :=
  ∀ (s : State) (z : BitVec 4), ready s [] [] none true = true →
    let c := s.focus
    let zz : Fin 16 := Fin.ofNat 16 z.toNat
    let clear := s.modCtx c fun x => { x with cmdErr := none }
    ((s.ctx c).z[zz.val] = none ∨ namesZ s c zz = false →
      ((s.ctx c).cmdErr = none → exec (.mwait z) s = .next s) ∧
      (∀ e, (s.ctx c).cmdErr = some e → committed s c = false → exec (.mwait z) s = .next (traps s 4 e.cause e.addr clear))) ∧
    ((∀ q ∈ (s.core c.coreId).cmds, q.ctx = c.ctx → ∃ ch x n dw k, q.ins = .cpy ch x n dw k) →
      ((s.ctx c).cmdErr = none → exec .mwaitAll s = .next s) ∧
      (∀ e, (s.ctx c).cmdErr = some e → committed s c = false → exec .mwaitAll s = .next (traps s 4 e.cause e.addr clear)))

/-- R317, R318: SCL loads a scale latch with the 32 words of a matrix-register row, SXV an extra value and STS a tensor scale with the low byte of its first
word. -/
def Obligations.ScaleLoads : Prop :=
  ∀ (s : State) (l : BitVec 2) (row m : BitVec 5), ready s [] [m.toNat] none false = true →
    let b := (scaleRow s m row 0).setWidth 8
    (∃ v, exec (.scl l row m) s = .next (quiet s [] 6 6 (.latch (Fin.ofNat 4 l.toNat) v)) ∧
      ∀ j, j < 32 → v.extractLsb' (32 * j) 32 = scaleRow s m row j) ∧
    exec (.sxv l row m) s = .next (quiet s [] 6 6 (.exv (Fin.ofNat 4 l.toNat) b)) ∧
    exec (.sts l row m) s = .next (quiet s [] 6 6 (.tscale (Fin.ofNat 4 l.toNat) (if b = 0xFF#8 then 0x180#9 else (b - 127#8).setWidth 9)))

/-- R232 to R234: CPY waits for its channel to be idle, then starts it or, with DW, enters the dependency table; CPWP and CPWAIT read the watermark, and
raise a stored channel error, each of them clearing it; CPABORT frees a channel without rows in flight, and with some stops it and waits. That copy commands
which wait in the dependency table stay there is log 64. -/
def Obligations.CopyCommands : Prop :=
  ∀ (s : State) (ch : BitVec 1) (x d : Code7) (n : BitVec 12) (k : BitVec 4),
    let c := s.focus
    let v := readOp s c x
    (ready s [x] [] none true = true → chanBusy s c ch = false →
      exec (.cpy ch x n 0#1 k) s = .next (takeAll c [x] (modChan c.coreId (Fin.ofNat 2 ch.toNat) (fun _ =>
        { Chan.idle with
          busy := true, owner := c, uid := (s.ctx c).b.uid, nrow := (chanOf s c ch).nrow, next := alignDown v.toNat 32, left := n.toNat }) s)) ∧
      (tableRoom c (.cpy ch x n 1#1 k) v [] s = true →
        exec (.cpy ch x n 1#1 k) s = .next (takeAll c [x] (enterCmd c (.cpy ch x n 1#1 k) v [] s)))) ∧
    (∀ dw : BitVec 1, ready s [x] [] none true = true → chanBusy s c ch = true → exec (.cpy ch x n dw k) s = .next s) ∧
    ((chanOf s c ch).err = none →
      (ready s [] [] (some d) true = true → exec (.cpwp d ch) s = .next (cSends s [] d (chanOf s c ch).wp s)) ∧
      (ready s [x] [] none true = true → v.toNat ≤ (chanOf s c ch).wp.toNat → exec (.cpwait ch x) s = .next (takeAll c [x] s)) ∧
      (ready s [x] [] none true = true → (chanOf s c ch).wp.toNat < v.toNat → exec (.cpwait ch x) s = .next s)) ∧
    (∀ e, (chanOf s c ch).err = some e →
      (ready s [] [] (some d) true = true → exec (.cpwp d ch) s = .next (traps s 5 e.cause e.addr (chanIdle c.coreId ch s))) ∧
      (ready s [x] [] none true = true → exec (.cpwait ch x) s = .next (traps s 5 e.cause e.addr (chanIdle c.coreId ch s)))) ∧
    (ready s [] [] none true = true →
      ((chanOf s c ch).rows = [] →
        exec (.cpabort ch) s = .next ((chanIdle c.coreId ch s).modCtx c fun y => { y with att := .none })) ∧
      ((chanOf s c ch).rows ≠ [] →
        ((s.ctx c).att = .aborting → exec (.cpabort ch) s = .next s) ∧
        ((s.ctx c).att ≠ .aborting → exec (.cpabort ch) s = .next
          ((modChan c.coreId (Fin.ofNat 2 ch.toNat) (fun y => { y with stop := true }) s).modCtx c fun y => { y with att := .aborting }))))

/-- R219, R221, R235 to R237, R247 to R250, R422: an instruction on a barrier or ring in the own core's store acts on the object in one step: it writes what
the object's rule gives and returns its value, waits where the rule waits, and raises RINGPROTO with the reference. The reference is checked first, in the
order of R221; one of the handle form that passes is sent to the object's home at the first attempt, and the bundle waits for its answer. That TRAPADDR of a
core-store reference has bits 3 to 0 clear is log 73. -/
def Obligations.ObjectInstructions : Prop :=
  ∀ (i : Instr) (s : State) (ref : W64) (srcs : List Code7) (dst : Option Code7) (op : ObjOp),
    objSpec (readOp s s.focus) i = some (ref, srcs, dst, op) → ready s srcs [] dst true = true →
    let c := s.focus
    let k := c.coreId
    let a := alignDown (ref.setWidth 32).toNat 16
    let n : Fin 16 := Fin.ofNat 16 (ref.extractLsb' 56 4).toNat
    let hd := (s.ctx c).h[n.val]
    let va := BitVec.ofNat 64 (hd.base + a)
    let reserved : Prop := ref.extractLsb' 60 3 ≠ 0#3 ∨ ref.extractLsb' 32 24 ≠ 0#24 ∨ (ref.getLsbD 63 = false ∧ ref.extractLsb' 56 4 ≠ 0#4)
    let trap (cause : Byte) (addr : W64) : Prop := exec i s = .next (traps s 5 cause addr s)
    ((s.ctx c).att = .none →
      (reserved → trap 0x11 ref) ∧
      (¬ reserved → ref.getLsbD 63 = false →
        (0x600000 ≤ a → trap 0x11 (BitVec.ofNat 64 a)) ∧
        (a < 0x600000 → (s.core k).own[a / 0x10000]? ≠ some .home → trap 0x05 (BitVec.ofNat 64 a)) ∧
        (a < 0x600000 → (s.core k).own[a / 0x10000]? = some .home → acqPending s c = false →
          (if op.stores then busyAny (s.core k) a (objBytes op) else busyWritten (s.core k) a (objBytes op)) = false →
          (∀ q, op = .rpub q → objectOut.slotLanding s c (objectOut.ringSlot s c a q) = false) →
          objectOut.slotUsed s c op (fun q => objectOut.ringSlot s c a q) = false →
          let l := rdCells (s.core k).store a (objBytes op)
          (∀ off bs v, objStep l op = .done off bs v → exec i s = .next (match dst with
            | none => takeAll c srcs (csWrite k (a + off) bs s)
            | some d => cSends s srcs d v (csWrite k (a + off) bs s))) ∧
          (objStep l op = .wait → exec i s = .next s) ∧
          (objStep l op = .proto → trap 0x0A ref))) ∧
      (¬ reserved → ref.getLsbD 63 = true →
        (hd.valid = false → trap 0x03 (BitVec.ofNat 64 n.val)) ∧
        (hd.valid = true → (hd.space = 0#2 ∨ hd.space = 2#2 ∨ hd.bytes ≤ a ∨ hd.r = false ∨ hd.w = false ∨ hd.x = true) → trap 0x11 va) ∧
        (hd.valid = true → (hd.space = 1#2 ∨ hd.space = 3#2) → a < hd.bytes → hd.r = true → hd.w = true → hd.x = false →
          exec i s = .next ((sendAccess c (.obj op) (hd.loc c a) hd.view (objBytes op) va none (some n) s).modCtx c fun x =>
            { x with att := .sent s.nextId })))) ∧
    (∀ id, (s.ctx c).att = .sent id → exec i s = .next s) ∧
    (∀ v, (s.ctx c).att = .done v → exec i s = .next (takeAll c srcs ((match dst with
      | none => s
      | some d => addFlight c ⟨2, true, 5, dstAct (s.arch c) d 5 v, none⟩ s).modCtx c fun x => { x with att := .none }))) ∧
    (∀ e, (s.ctx c).att = .failed e → trap e.cause (if e.cause = 0x0A then ref else e.addr))

/-- R235 to R237, R247 to R250: what the operations do to a barrier of 16 bytes, its phase, expected, arrived and pending words, and to a ring descriptor of
32 bytes: when RRES, RPUB, RTAKE and RREL wait, when they break the ring protocol, as each of them does with NSLOT = 0, and the counters afterwards. -/
def Obligations.ObjectRules : Prop :=
  (∀ (l : List Byte) (n : W32), l.length = 16 →
    let b := Bar.ofBytes l
    let flip (x : Bar) : Bar := if x.expect.toNat ≤ x.arrived.toNat ∧ x.pending = 0 then { x with phase := x.phase ^^^ 1, arrived := 0 } else x
    (∃ bs, objStep l (.barinit n) = .done 0 bs 0 ∧ Bar.ofBytes bs = ⟨0, n, 0, 0⟩) ∧
    (∃ bs, objStep l (.barexp n) = .done 0 bs 0 ∧ Bar.ofBytes bs = flip { b with pending := b.pending + n }) ∧
    (∃ bs, objStep l (.bararr n) = .done 0 bs 0 ∧ Bar.ofBytes bs = flip { b with arrived := b.arrived + 1, pending := b.pending + n }) ∧
    (∀ p : BitVec 1, objStep l (.barwait p) = if b.phase.setWidth 1 = p then .wait else .done 0 [] 0) ∧
    objStep l .bartst = .done 0 [] (b.phase.setWidth 64)) ∧
  (∀ (l : List Byte) (q : W32), l.length = 32 → (Ring.ofBytes l).nslot = 0 →
    objStep l .rres = .proto ∧ objStep l (.rpub q) = .proto ∧ objStep l (.rtake q) = .proto ∧ objStep l (.rrel q) = .proto) ∧
  (∀ (l : List Byte) (q : W32), l.length = 32 → (Ring.ofBytes l).nslot ≠ 0 →
    let r := Ring.ofBytes l
    let after (bs : List Byte) : Ring := Ring.ofBytes (patch l 12 bs)
    (((r.resv - r.rel).toNat ≥ r.nslot ∨ (r.resv - r.pub).toNat ≥ 32) → objStep l .rres = .wait) ∧
    ((r.resv - r.rel).toNat < r.nslot → (r.resv - r.pub).toNat < 32 →
      ∃ bs, objStep l .rres = .done 12 bs (r.resv.setWidth 64) ∧ after bs = { r with resv := r.resv + 1 }) ∧
    (objStep l (.rtake q) = if seqLt q r.pub then .done 0 [] 0 else .wait) ∧
    ((q ≠ r.pub ∧ seqLt r.pub q = false) ∨ seqLt q r.resv = false ∨ 32 ≤ (q - r.pub).toNat ∨ r.pmask.getLsbD (q - r.pub).toNat = true →
      objStep l (.rpub q) = .proto) ∧
    ((q = r.pub ∨ seqLt r.pub q = true) → seqLt q r.resv = true → (q - r.pub).toNat < 32 → r.pmask.getLsbD (q - r.pub).toNat = false →
      ∃ bs, objStep l (.rpub q) = .done 12 bs 0 ∧
        (after bs).pmask = (advMask 32 (r.pmask ||| (1#32 <<< (q - r.pub).toNat)) r.pub).1 ∧
        (after bs).pub = (advMask 32 (r.pmask ||| (1#32 <<< (q - r.pub).toNat)) r.pub).2 ∧
        (after bs).resv = r.resv ∧ (after bs).rel = r.rel ∧ (after bs).rmask = r.rmask) ∧
    ((q ≠ r.rel ∧ seqLt r.rel q = false) ∨ seqLt q r.pub = false ∨ 32 ≤ (q - r.rel).toNat ∨ r.rmask.getLsbD (q - r.rel).toNat = true →
      objStep l (.rrel q) = .proto) ∧
    ((q = r.rel ∨ seqLt r.rel q = true) → seqLt q r.pub = true → (q - r.rel).toNat < 32 → r.rmask.getLsbD (q - r.rel).toNat = false →
      ∃ bs, objStep l (.rrel q) = .done 12 bs 0 ∧
        (after bs).rmask = (advMask 32 (r.rmask ||| (1#32 <<< (q - r.rel).toNat)) r.rel).1 ∧
        (after bs).rel = (advMask 32 (r.rmask ||| (1#32 <<< (q - r.rel).toNat)) r.rel).2 ∧
        (after bs).resv = r.resv ∧ (after bs).pub = r.pub ∧ (after bs).pmask = r.pmask))

/-- R241, R243 to R245: WOPEN opens a free window on the descriptor at its address, WADV, WCLOSE and WSTAT act on a window without a stored error, and raise
the stored error of one that has stopped, which is free then. RET after a WADV is R243's clamp, and the status word has OPEN in bit 63, DIR in bit 62 and
DONE in bits 31 to 0 (Table 13.12). That a BARV byte above 1 breaks Table 13.11, and that a WADV publishes its rows in the step in which it performs, are the
model's choices (log 73). -/
def Obligations.WindowInstructions : Prop :=
  ∀ (s : State) (w : BitVec 3) (x d : Code7),
    let c := s.focus
    let k := c.coreId
    let ww : Fin 8 := Fin.ofNat 8 w.toNat
    let win := (s.core k).wins[ww.val]
    let a : W64 := readOp s c x &&& ~~~63#64
    (ready s [x] [] none true = true → win.opn = false → homeAddr s a = true → readsFree s a.toNat 64 = true →
      exec (.wopen w x) s = .next (takeAll c [x] (modWin k ww (fun _ =>
        let dsc := BitVec.ofNat 512 (rdLE (s.core k).store a.toNat 64)
        ⟨true, false, dsc, c, 0, 0, 0, [], if winOk dsc then none else some ⟨0x06, a⟩, none⟩) s))) ∧
    (win.err = none →
      (ready s [x] [] none true = true →
        let n := ((readOp s c x).setWidth 32).toNat
        let ret := if wDir win.desc = 0 then min (win.ret + n) win.done else min (min (win.ret + n) (wTRows win.desc)) (win.done + wNSlot win.desc)
        exec (.wadv w x) s = .next (takeAll c [x]
          (if win.opn = true ∧ win.closing = false then modWin k ww (fun y => { y with ret := ret }) s else s))) ∧
      (ready s [] [] none true = true →
        exec (.wclose w) s = .next (modWin k ww (fun y => if y.opn then Win.settle { y with closing := true } else y) s)) ∧
      (ready s [] [] (some d) true = true → ∃ v : W64, exec (.wstat d w) s = .next (cSends s [] d v s) ∧
        v.getLsbD 63 = win.opn ∧ v.extractLsb' 62 1 = BitVec.ofNat 1 (wDir win.desc) ∧ v.extractLsb' 32 30 = 0 ∧ v.extractLsb' 0 32 = BitVec.ofNat 32 win.done)) ∧
    (∀ e, win.err = some e →
      let raised := traps s 5 e.cause e.addr (modWin k ww (fun y => { y with opn := false, closing := false, err := none, rows := [], miss := none }) s)
      (ready s [x] [] none true = true → exec (.wadv w x) s = .next raised) ∧
      (ready s [] [] none true = true → exec (.wclose w) s = .next raised) ∧
      (ready s [] [] (some d) true = true → exec (.wstat d w) s = .next raised))

/-- R238 to R240: BGIVE offers a buffer that the core holds and takes its handles away, BTAKE completes on a buffer offered to the core, BOPEN and BCLOSE set
one admission bit. -/
def Obligations.BufferInstructions : Prop :=
  ∀ (s : State) (home rcv src : BitVec 2) (buf : BitVec 7) (n : BitVec 4) (ch : BitVec 1), ready s [] [] none true = true →
    let c := s.focus
    let me := inQuad c.core
    let h := peerCore c home.toNat
    let o := (s.core h).own[buf.toNat]?
    ((o = some .home ∧ home.toNat = me.val) ∨ o = some (.held me) →
      exec (.bgive home buf rcv) s = .next (dropBufHandles c.coreId home.toNat buf.toNat
        (setOwn h buf.toNat (.offered (Fin.ofNat 4 rcv.toNat) me) s))) ∧
    (committed s c = false → ¬ ((o = some .home ∧ home.toNat = me.val) ∨ o = some (.held me)) →
      exec (.bgive home buf rcv) s = .next (traps s 5 0x05 (0x10000 * buf.setWidth 64) s)) ∧
    (∀ g, o = some (.offered me g) → giverBusy s (peerCore c g.val) h buf.toNat = false →
      exec (.btake home buf n) s = .next (if home.toNat = me.val then setOwn h buf.toNat .home s
        else addFlight c ⟨2, false, 5, .handle (Fin.ofNat 16 n.toNat) (bufHandle home.toNat buf.toNat), none⟩ (setOwn h buf.toNat (.held me) s))) ∧
    (∀ b : Fin 96, buf.toNat = b.val →
      let m : Byte := 1#8 <<< (2 * src.toNat + ch.toNat)
      exec (.bopen buf src ch) s = .next (s.modCore c.coreId fun y => { y with adm := y.adm.set b.val (y.adm[b.val] ||| m) }) ∧
      exec (.bclose buf src ch) s = .next (s.modCore c.coreId fun y => { y with adm := y.adm.set b.val (y.adm[b.val] &&& ~~~m) }))

/-- R223: the flag instructions, off a speculative path: FSET writes a flag, FADD adds to one and returns its old value, FWAIT completes when the flag is at
least its operand and FWAITEQ when they are equal, and each waits otherwise. -/
def Obligations.FlagInstructions : Prop :=
  ∀ (s : State) (n : BitVec 10) (x d : Code7),
    let c := s.focus
    let k := c.coreId
    let v := (readOp s c x).setWidth 32
    let f := rdFlag (csView s c) n.toNat
    (ready s [x] [] none false = true → (s.ctx c).spec = none → busyAny (s.core k) (4 * n.toNat) 4 = false →
      ∃ t, exec (.fset n x) s = .next t ∧ rdFlag (t.core k).store n.toNat = v ∧ SameMemBut k (4 * n.toNat) 4 s t ∧ SameRegs c s t) ∧
    (ready s [x] [] (some d) false = true → (s.ctx c).spec = none → acqPending s c = false →
      busyAny (s.core k) (4 * n.toNat) 4 = false →
      ∃ t, exec (.faddFlag n x d) s = .next t ∧ rdFlag (t.core k).store n.toNat = f + v ∧
        (t.ctx c).flights = (s.ctx c).flights ++ [⟨4, true, 5, dstAct (s.arch c) d 5 (f.setWidth 64), none⟩] ∧
        SameMemBut k (4 * n.toNat) 4 s t ∧ SameRegs c s t) ∧
    (ready s [x] [] none true = true → readsFree s (4 * n.toNat) 4 = true →
      exec (.fwait n x) s = .next (if v.toNat ≤ f.toNat then takeAll c [x] s else s) ∧
      exec (.fwaiteq n x) s = .next (if f = v then takeAll c [x] s else s))

/-- R225, R227: SBIND, SBIND.W, SUNB and SPOS on a stream port. A binding has the direction, width and extension of its fields and starts at position 0, over
the region of its two operands or the rows of its window; a length of 0 or no multiple of the width, and a window that is not open or of the other direction,
bind the port unbound (Table 13.9). Results in flight to the port keep the binding that they were sent to. SUNB of an output port with results in flight
takes effect once the last of them has landed. -/
def Obligations.StreamInstructions : Prop :=
  ∀ (s : State) (p w : BitVec 3) (dir sx : BitVec 1) (wd : BitVec 2) (x y d : Code7),
    let c := s.focus
    let pp : Fin 8 := Fin.ofNat 8 p.toNat
    let b := (s.arch c).ports[pp.val]
    (ready s [x, y] [] none true = true →
      let n := ((readOp s c y).setWidth 32).toNat
      exec (.sbind p dir wd sx x y) s = .next (bindPort c pp
        (if n = 0 ∨ n % 2 ^ wd.toNat ≠ 0 then .unbound
         else { bound := true, out := dir == 1#1, wd := wd, sx := sx == 1#1, win := none, base := (readOp s c x).toNat, len := n, pos := 0, closing := false })
        (takeAll c [x, y] s))) ∧
    (ready s [] [] none true = true →
      let v := (s.core c.coreId).wins[w.toNat]
      exec (.sbindWindow p dir wd sx w) s = .next (bindPort c pp
        (if v.opn = true ∧ wDir v.desc = dir.toNat then
          { bound := true, out := dir == 1#1, wd := wd, sx := sx == 1#1, win := some (Fin.ofNat 8 w.toNat), base := 0, len := 0, pos := 0, closing := false }
         else .unbound) s) ∧
      (inFlightTo (s.ctx c) pp = 0 ∨ b.bound = false ∨ b.out = false →
        exec (.sunb p) s = .next (s.modArch c fun a => { a with ports := a.ports.set pp.val .unbound })) ∧
      (inFlightTo (s.ctx c) pp ≠ 0 → b.bound = true → b.out = true →
        exec (.sunb p) s = .next (s.modArch c fun a => { a with ports := a.ports.set pp.val { b with closing := true } }))) ∧
    (∀ (q : Port) (u : State),
      let t := bindPort c pp q u
      (t.arch c).ports[pp.val] = q ∧ (∀ n : Fin 8, n ≠ pp → (t.arch c).ports[n.val] = (u.arch c).ports[n.val]) ∧ SameMem u t ∧
      ((t.ctx c).flights.length = (u.ctx c).flights.length) ∧
      (∀ (j : Nat) (f g : Flight), (u.ctx c).flights[j]? = some f → (t.ctx c).flights[j]? = some g →
        ((∀ e sl, f.act ≠ .port pp e sl) → g = f) ∧
        (∀ e sl, f.act = .port pp e sl → ∃ r, g = { f with act := .drain r e sl } ∧ ∃ pos, r = { (u.arch c).ports[pp.val] with pos := pos }))) ∧
    (∀ u : State, ((u.arch c).ports[pp.val]).closing = true →
      ((closePorts c u).arch c).ports[pp.val] = if inFlightTo (u.ctx c) pp = 0 then .unbound else (u.arch c).ports[pp.val]) ∧
    (ready s [] [] (some d) true = true →
      exec (.spos d p) s = .next (cSends s [] d (if b.bound then b.pos else 0) s))

/-- R228: TDSET loads a tile descriptor from the 32 bytes at its address, TDGET returns one of its four words. -/
def Obligations.DescriptorInstructions : Prop :=
  ∀ (s : State) (k : BitVec 4) (q : BitVec 2) (x d : Code7),
    let c := s.focus
    let a : W64 := readOp s c x &&& ~~~31#64
    (ready s [x] [] none true = true → homeAddr s a = true → readsFree s a.toNat 32 = true →
      exec (.tdset k x) s = .next (takeAll c [x] (s.modCtx c fun z =>
        { z with d := z.d.set k.toNat ((leBytes (csView s c) a.toNat 32).cast rfl) }))) ∧
    (ready s [] [] (some d) true = true →
      exec (.tdget d k q) s = .next (cSends s [] d (((s.ctx c).d[k.toNat]).extractLsb' (64 * q.toNat) 64) s))

/-- R153 to R156, R158, R162: a loop instruction whose body has been walked completes: with no iteration it pushes nothing, else it pushes one level over the
bodies that the context runs; a seventh level raises RANGE with 6. LEXIT pops levels; SETTI and LINK write target registers. R119, R120: the leaf that each
of the 23 tree shapes takes (Table 07.15). R104, R105, R118, R158: a slot with a mask executes on the leaves of its mask, and in the body of an active
pipelined loop by stage predicate k of its mask, whatever the leaf: on pass j when k < S and 0 ≤ j − k < N. R157, R161: the levels that a bundle outside
their body pops, and the next bundle: after a TRET with INH = 1 at TRAPPC, else at the target register that the leaf selects, else behind a loop instruction,
at a body end by its counter and its back-edge, or the successor. R159: a back-edge of a pipelined level rotates s48 to s63. R108 (Table 07.5): what each
operand code reads. (A target that is no bundle start is BADTARGET; the pops while a handler runs: log 15.) -/
def Obligations.LoopsAndTargets : Prop :=
  (∀ (i : Instr) (s : State) (pipe : Bool) (cnt n st ep : Nat) (srcs : List Code7) (e : W32),
    loopSpec (readOp s s.focus) i = some (pipe, cnt, n, st, ep, srcs) → ready s srcs [] none false = true →
    let a := s.arch s.focus
    let start := succAt s s.focus a.pc
    walkBody s s.focus start n = .last e →
    (cnt = 0 → exec i s = .next (takeAll s.focus srcs s)) ∧
    (cnt ≠ 0 → a.loops.length < 6 → exec i s = .next (takeAll s.focus srcs (s.modArch s.focus fun b =>
      { b with loops := (if pipe then ⟨true, cnt + ep, 0, start, e, BitVec.ofNat 32 cnt, st, ep, false⟩ else ⟨false, cnt, 0, start, e, 0, 0, 0, false⟩)
          :: b.loops }))) ∧
    (cnt ≠ 0 → 6 ≤ a.loops.length → exec i s = .next (traps s 5 0x06 6 s))) ∧
  (∀ (s : State) (k : BitVec 3) (imm : BitVec 18), ready s [] [] none false = true →
    exec (.lexit k) s = .next (s.modArch s.focus fun a => { a with loops := a.loops.drop k.toNat }) ∧
    exec (.setti k imm) s = .next (quiet s [] 5 1 (.target (Fin.ofNat 7 k.toNat) ((s.arch s.focus).pc + imm.signExtend 32))) ∧
    exec .link s = .next (quiet s [] 5 1 (.target 6 (succAt s s.focus (s.arch s.focus).pc)))) ∧
  (∀ t : Nat → Bool,
    treeLeaf 0 t = 0 ∧
    treeLeaf 1 t = (if t 0 then 0 else 1) ∧
    treeLeaf 2 t = (if t 0 then (if t 1 then 0 else 1) else 2) ∧
    treeLeaf 3 t = (if t 0 then 0 else if t 1 then 1 else 2) ∧
    treeLeaf 4 t = (if t 0 then (if t 1 then (if t 2 then 0 else 1) else 2) else 3) ∧
    treeLeaf 5 t = (if t 0 then (if t 1 then 0 else if t 2 then 1 else 2) else 3) ∧
    treeLeaf 6 t = (if t 0 then (if t 1 then 0 else 1) else if t 2 then 2 else 3) ∧
    treeLeaf 7 t = (if t 0 then 0 else if t 1 then (if t 2 then 1 else 2) else 3) ∧
    treeLeaf 8 t = (if t 0 then 0 else if t 1 then 1 else if t 2 then 2 else 3) ∧
    treeLeaf 9 t = (if t 0 then (if t 1 then (if t 2 then (if t 3 then 0 else 1) else 2) else 3) else 4) ∧
    treeLeaf 10 t = (if t 0 then (if t 1 then (if t 2 then 0 else if t 3 then 1 else 2) else 3) else 4) ∧
    treeLeaf 11 t = (if t 0 then (if t 1 then (if t 2 then 0 else 1) else if t 3 then 2 else 3) else 4) ∧
    treeLeaf 12 t = (if t 0 then (if t 1 then (if t 2 then 0 else 1) else 2) else if t 3 then 3 else 4) ∧
    treeLeaf 13 t = (if t 0 then (if t 1 then 0 else if t 2 then (if t 3 then 1 else 2) else 3) else 4) ∧
    treeLeaf 14 t = (if t 0 then (if t 1 then 0 else if t 2 then 1 else if t 3 then 2 else 3) else 4) ∧
    treeLeaf 15 t = (if t 0 then (if t 1 then 0 else if t 2 then 1 else 2) else if t 3 then 3 else 4) ∧
    treeLeaf 16 t = (if t 0 then (if t 1 then 0 else 1) else if t 2 then (if t 3 then 2 else 3) else 4) ∧
    treeLeaf 17 t = (if t 0 then (if t 1 then 0 else 1) else if t 2 then 2 else if t 3 then 3 else 4) ∧
    treeLeaf 18 t = (if t 0 then 0 else if t 1 then (if t 2 then (if t 3 then 1 else 2) else 3) else 4) ∧
    treeLeaf 19 t = (if t 0 then 0 else if t 1 then (if t 2 then 1 else if t 3 then 2 else 3) else 4) ∧
    treeLeaf 20 t = (if t 0 then 0 else if t 1 then (if t 2 then 1 else 2) else if t 3 then 3 else 4) ∧
    treeLeaf 21 t = (if t 0 then 0 else if t 1 then 1 else if t 2 then (if t 3 then 2 else 3) else 4) ∧
    treeLeaf 22 t = (if t 0 then 0 else if t 1 then 1 else if t 2 then 2 else if t 3 then 3 else 4)) ∧
  (∀ (a : Arch) (h : FH) (leaf : Nat) (sl : Slot), sl ≠ .s →
    let m := FH.mask h sl
    let k := m.toNat % 8
    let inBody (l : Level) : Prop := l.lo.toNat ≤ a.pc.toNat ∧ a.pc.toNat ≤ l.hi.toNat
    (∀ l r, a.loops = l :: r → l.pipelined = true → inBody l →
      (executesOn a h leaf sl = true ↔ k < l.s ∧ (k : Int) ≤ l.idx ∧ (l.idx : Int) - k < l.n.toNat)) ∧
    ((∀ l r, a.loops = l :: r → l.pipelined = true → ¬ inBody l) → executesOn a h leaf sl = m.getLsbD leaf)) ∧
  (∀ (a : Arch) (l : Level) (r : List Level),
    (l.lo.toNat ≤ a.pc.toNat ∧ a.pc.toNat ≤ l.hi.toNat → popOutside a (l :: r) = l :: r) ∧
    (a.pc.toNat < l.lo.toNat ∨ l.hi.toNat < a.pc.toNat → a.inh = false ∨ l.kept = false → popOutside a (l :: r) = popOutside a r)) ∧
  (∀ (c : CtxId) (b : Bundle) (leaf : Nat) (s t : State) (l : Level) (r : List Level), committed s c = false →
    let a := s.arch c
    let lv := (FT.leaf b.f leaf).toNat
    let ls := (t.arch c).loops
    let onC := executesOn a b.h leaf .c
    let next (pc : W32) : Choice := .go pc ls a.rot false
    let aim (pc : W32) (k : Choice) : Prop :=
      (targetAt s c pc = .ok → chooseNext c b leaf s t = k) ∧
      (targetAt s c pc = .bad → chooseNext c b leaf s t = .trap ⟨0x01, pc.setWidth 64⟩)
    (onC = true → b.c = .tret → a.inh = true → chooseNext c b leaf s t = next a.trappc) ∧
    (onC = false ∨ b.c ≠ .tret ∨ a.inh = false →
      (lv ≠ 0 → let pc := a.t[(Fin.ofNat 7 (lv - 1)).val]; aim pc (next pc)) ∧
      (lv = 0 → onC = true → isLoop b.c = true →
        (a.loops.length < ls.length → chooseNext c b leaf s t = next (succAt s c a.pc)) ∧
        (∀ e, ls.length ≤ a.loops.length → walkBody s c (succAt s c a.pc) (loopLen b.c) = .last e → chooseNext c b leaf s t = next (succAt s c e))) ∧
      (lv = 0 → onC = false ∨ isLoop b.c = false →
        (ls = [] → chooseNext c b leaf s t = next (succAt s c a.pc)) ∧
        (ls = l :: r → l.hi ≠ a.pc → chooseNext c b leaf s t = next (succAt s c a.pc)) ∧
        (ls = l :: r → l.hi = a.pc → l.cnt ≠ 1 → l.cnt ≠ 0 →
          aim l.lo (.go l.lo ({ l with cnt := l.cnt - 1, idx := l.idx + 1 } :: r) (if l.pipelined then (a.rot + 1) % 16 else a.rot) true)) ∧
        (ls = l :: r → l.hi = a.pc → l.cnt = 1 →
          chooseNext c b leaf s t = chooseNext c b leaf s (t.modArch c fun x => { x with loops := r }))))) ∧
  (∀ (a : Arch) (n : Nat), n < 16 → ({ a with rot := (a.rot + 1) % 16 } : Arch).rdS (48 + (n + 1) % 16) = a.rdS (48 + n)) ∧
  (∀ (s : State) (c : CtxId) (n : Code7), let a := s.arch c
    (∀ r : Fin 48, n.toNat = r.val → readOp s c n = a.s[r.val]) ∧
    (∀ r : Fin 16, n.toNat = 48 + r.val → readOp s c n = a.s[48 + (r.val + 16 - a.rot % 16) % 16]) ∧
    (∀ r : Fin 32, n.toNat = 64 + r.val → readOp s c n = a.hem[r.val]) ∧
    (n = 0x60 → readOp s c n = 0) ∧
    (∀ r : Fin 6, n.toNat = 0x61 + r.val → readOp s c n = match a.loops[r.val]? with
      | some l => BitVec.ofNat 64 l.idx
      | none => 0) ∧
    (∀ r : Fin 8, n.toNat = 0x68 + r.val → let p := a.ports[r.val]
      (p.bound = false ∨ p.out = true → readOp s c n = 0) ∧
      (p.bound = true → p.out = false →
        let v := ofBytes ((portAddrs (s.core c.coreId) p p.pos.toNat).map (rdCell (csView s c)))
        readOp s c n = if p.sx then sext64 v (8 * p.bytes) else zext64 v (8 * p.bytes))))

/-- R251, R252, R263, R264: DRAIN completes when no access of the context within its scope is outstanding, FENCE.REL when its earlier writes have performed,
and each waits otherwise; FENCE.ACQ completes at once and orders later reads after the accesses it names. -/
def Obligations.Fences : Prop :=
  ∀ (s : State) (x : BitVec 3), ready s [] [] none true = true →
    let c := s.focus
    (drainBusy s c x.toNat = false →
      exec (.drain x) s = .next s ∧ ∃ f, slotOut (planDrain x) .c c s = .go f ∧ f s = s) ∧
    (drainBusy s c x.toNat = true → slotOut (planDrain x) .c c s = .wait none ∧ exec (.drain x) s = .next s) ∧
    ((s.ctx c).flights = [] → relBusy s c x.toNat = false →
      exec (.fenceRel x) s = .next s ∧ ∃ f, slotOut (planFenceRel x) .c c s = .go f ∧ f s = s) ∧
    ((s.ctx c).flights = [] → relBusy s c x.toNat = true →
      slotOut (planFenceRel x) .c c s = .wait none ∧ exec (.fenceRel x) s = .next s) ∧
    exec (.fenceAcq x) s = .next (s.modCtx c fun z => { z with acq := z.acq ++ acqIds s c x.toNat })

/-- R164, R165: TRAP posts SOFTWARE with its code in TRAPADDR and the next bundle in TRAPPC; TRET with INH = 1 returns to TRAPPC, clears INH and pops the
levels above TRAPLEAF.DEPTH, with INH = 0 it does nothing, and to no bundle start it raises BADTARGET. -/
def Obligations.TrapAndReturn : Prop :=
  ∀ (s : State) (code : BitVec 18), ready s [] [] none true = true →
    let c := s.focus
    let a := s.arch c
    exec (.trap code) s = .next (postTrap c ⟨0x0D, code.setWidth 64⟩ (succAt s c a.pc) 5 0 s) ∧
    (a.inh = false → exec .tret s = .next s) ∧
    (a.inh = true → targetAt s c a.trappc = .ok → exec .tret s = .next (s.modArch c fun b =>
      { b with inh := false, pc := b.trappc, loops := (b.loops.drop (b.loops.length - b.depth.toNat)).map fun l => { l with kept := false } })) ∧
    (a.inh = true → targetAt s c a.trappc = .bad → exec .tret s = .next (traps s 5 0x01 (a.trappc.setWidth 64) s))

/-- R378, R379, R392: PUT, GET and RAMO with a valid descriptor and the die's current topology complete: the operation is queued with the descriptor's 32
bytes; a stale topology raises STALETOPO with the die's TGEN. -/
def Obligations.RemoteOperations : Prop :=
  ∀ (i : Instr) (s : State) (k : RopKind) (x : Code7), ropSpec i = some (k, x) → ready s [x] [] none true = true →
    let c := s.focus
    let a : W64 := readOp s c x &&& ~~~31#64
    let d : BitVec 256 := BitVec.ofNat 256 (rdLE (s.core c.coreId).store a.toNat 32)
    ((s.arch c).ctgen ≠ (s.die c.die).tgen → exec i s = .next (traps s 5 0x04 ((s.die c.die).tgen.setWidth 64) s)) ∧
    (∀ dest, (s.arch c).ctgen = (s.die c.die).tgen → homeAddr s a = true → readsFree s a.toNat 32 = true → ropBad s k d = false →
      dieOfId s (ropDie d) = dest →
      (ropLK d = false → csCheckRun (s.core c.coreId) (ropL d) (ropBytes k d) = none) →
      (s.rops.filter fun r => r.owner == c && r.uid == (s.ctx c).b.uid && r.kind != .lbsend).length < 32 →
      ∃ t r, exec i s = .next (takeAll c [x] t) ∧ t.rops = s.rops ++ [r] ∧ r.id = s.nextId ∧ r.owner = c ∧ r.kind = k ∧ r.desc = d ∧
        r.src = c.die ∧ r.dest = dest.getD c.die ∧ r.away = (if dest.isSome then none else some (ropDie d)) ∧ r.len = ropBytes k d ∧ r.need = List.range (ropBytes k d) ∧
        r.left = (if k = .ramo then List.range 8 else List.range (ropBytes k d)) ∧ r.data = [] ∧ r.stage = 0 ∧ r.cells = [] ∧ SameMem s t)

/-- R387 to R389: LBOPEN takes a closed link buffer, with the counting object in the own core's store that its operand names, or with none when it is 0; a
reference in handle form raises PERMISSION with the reference. LBSEND sends from a held buffer, and of 0 or more than 65,536 bytes raises RANGE; LBFREE
empties and LBFREE.C closes one. That an object reference is checked as R221 checks one, with bits 3 to 0 of TRAPADDR clear, is log 73. -/
def Obligations.LinkBufferInstructions : Prop :=
  ∀ (s : State) (n m : BitVec 4) (lk : BitVec 3) (x : Code7),
    let c := s.focus
    let nn : Fin 16 := Fin.ofNat 16 n.toNat
    let l := lbOf s c nn
    let len := ((readOp s c x).setWidth 32).toNat
    (ready s [x] [] none true = true →
      (l.st = .closed → readOp s c x = 0 → exec (.lbopen n x) s = .next (takeAll c [x] (modLb c.die nn (fun y =>
        { y with st := .empty, holder := some c, tenant := (s.ctx c).b.tenant,
                 bytes := if y.tenant = (s.ctx c).b.tenant then y.bytes else [], obj := none, err := none,
                 sending := none, closeAfter := false, emptyAfter := false }) s))) ∧
      (l.st = .closed → committed s c = false →
        let v := readOp s c x
        let o := alignDown (v.setWidth 32).toNat 16
        let reserved : Prop := v.extractLsb' 60 3 ≠ 0#3 ∨ v.extractLsb' 32 24 ≠ 0#24 ∨ v.extractLsb' 56 4 ≠ 0#4
        let traps (cause : Byte) (addr : W64) : Prop := exec (.lbopen n x) s = .next (traps s 5 cause addr s)
        (v.getLsbD 63 = true → traps 0x11 v) ∧
        (v.getLsbD 63 = false → v ≠ 0 → reserved → traps 0x11 v) ∧
        (v.getLsbD 63 = false → ¬ reserved →
          (0x600000 ≤ o → traps 0x11 (BitVec.ofNat 64 o)) ∧
          (v ≠ 0 → o < 0x600000 → (s.core c.coreId).own[o / 0x10000]? ≠ some .home → traps 0x05 (BitVec.ofNat 64 o)) ∧
          (v ≠ 0 → o < 0x600000 → (s.core c.coreId).own[o / 0x10000]? = some .home →
            exec (.lbopen n x) s = .next (takeAll c [x] (modLb c.die nn (fun y =>
              { y with st := .empty, holder := some c, tenant := (s.ctx c).b.tenant,
                       bytes := if y.tenant = (s.ctx c).b.tenant then y.bytes else [], obj := some o, err := none,
                       sending := none, closeAfter := false, emptyAfter := false }) s))))) ∧
      ((s.arch c).ctgen = (s.die c.die).tgen → l.holder = some c → committed s c = false → (len = 0 ∨ 65536 < len) →
        exec (.lbsend n x lk m) s = .next (traps s 5 0x06 (BitVec.ofNat 64 len) s)) ∧
      (l.st ≠ .closed → exec (.lbopen n x) s = .next s) ∧
      ((s.arch c).ctgen = (s.die c.die).tgen → l.holder ≠ some c → exec (.lbsend n x lk m) s = .next (traps s 5 0x05 (BitVec.ofNat 64 nn.val) s)) ∧
      ((s.arch c).ctgen = (s.die c.die).tgen → l.holder = some c → 1 ≤ len → len ≤ 65536 → l.sending = none → l.err = none →
        ∃ t r, exec (.lbsend n x lk m) s = .next (takeAll c [x] t) ∧ t.rops = s.rops ++ [r] ∧ r.kind = .lbsend ∧ r.lb = nn ∧
          r.lbTo = Fin.ofNat 16 m.toNat ∧ r.len = len ∧ r.src = c.die ∧ r.dest = (linkOf s c.die (Fin.ofNat 6 lk.toNat)).farDie ∧
          r.away = (linkOf s c.die (Fin.ofNat 6 lk.toNat)).out.map Prod.fst ∧
          (lbOf t c nn).sending = some r.id)) ∧
    (ready s [] [] none true = true → l.holder = some c → l.sending = none → lbUsed s c.die nn = false → l.err = none →
      exec (.lbfree n) s = .next (modLb c.die nn (fun y => if y.st = .filling then { y with emptyAfter := true } else { y with st := .empty }) s) ∧
      exec (.lbfreeClose n) s = .next (modLb c.die nn LinkBuf.close s))

/-- R392, R396 to R398: TGACK adopts the die's topology generation; CGRP and CGRP.T join a collective group with sequence 0 and CGM written; CBR without
results in flight, its flag free to be read, enters its round and a speculative path, CBR.WAIT enters the round and completes when its outcome has come.
Either brings f[T] ≠ 0 to round CSEQ of the group and increments CSEQ; CBR records the CBR point, the registers as they stand with CSEQ advanced, with the
flag and the predicted leaf, and its path starts with no entry held. -/
def Obligations.CollectiveInstructions : Prop :=
  ∀ (s : State) (x : Code7) (scope : BitVec 3) (op : BitVec 1) (tout : BitVec 4) (t : BitVec 10) (k : BitVec 3),
    let c := s.focus
    let v := readOp s c x
    let b := (s.ctx c).b
    (∀ g, (setGroup c g s).arch c = { s.arch c with cgm := g, cseq := 0 } ∧ SameMem s (setGroup c g s) ∧ SameOthers c s (setGroup c g s)) ∧
    (ready s [] [] none true = true →
      exec .tgack s = .next (s.modArch c fun a => { a with ctgen := (s.die c.die).tgen }) ∧
      exec (.cgrpTeam scope op tout) s =
        .next (setGroup c (cgm scope op tout b.team (BitVec.ofNat 16 b.teamSize) (BitVec.ofNat 16 b.member)) s) ∧
      ((s.ctx c).att = .none → (s.ctx c).flights = [] → readsFree s (4 * t.toNat) 4 = true →
        let a := s.arch c
        let flag := rdFlag (s.core c.coreId).store t.toNat
        let next : Arch := { a with cseq := a.cseq + 1 }
        let entered (id : Nat) (u : State) : Prop :=
          (∃ r m, r ∈ u.rounds ∧ r.id = id ∧ m ∈ r.members ∧ m.c = c ∧ m.uid = b.uid ∧ m.val = decide (flag ≠ 0) ∧ m.flag = t.toNat ∧
            r.seq = a.cseq ∧ r.tenant = b.tenant ∧ r.gid = cgGid a.cgm ∧ r.scope = cgScope a.cgm) ∧ SameMem s u ∧ SameOthers c s u
        exec (.cbr t k) s = .next (enterPath c t.toNat k.toNat s) ∧
        exec (.cbrWait t) s = .next ((enterRound c t.toNat s).2.modCtx c fun y => { y with att := .round (enterRound c t.toNat s).1 }) ∧
        (∃ id u, exec (.cbr t k) s = .next u ∧ entered id u ∧ u.ctx c =
          { s.ctx c with
            arch := next
            spec := some { point := next, mcopy := [], round := id, flag := t.toNat, leaf := k.toNat, tests := [], usesT := [], bundle := 0, held := [], seq := 0, n := 0, trap := none } }) ∧
        (∃ id u, exec (.cbrWait t) s = .next u ∧ entered id u ∧ u.ctx c = { s.ctx c with arch := next, att := .round id })) ∧
      (∀ id, (s.ctx c).att = .arrived id →
        exec (.cbr t k) s = .next (s.modCtx c fun y => { y with att := .none }) ∧
        exec (.cbrWait t) s = .next (s.modCtx c fun y => { y with att := .none })) ∧
      (∀ id, (s.ctx c).att = .round id → exec (.cbrWait t) s = .next s)) ∧
    (ready s [x] [] none true = true →
      (v.extractLsb' 48 16 = 0 → (v.extractLsb' 16 16 = 0 ∨ (v.extractLsb' 0 16).toNat < (v.extractLsb' 16 16).toNat) →
        exec (.cgrp x scope op tout) s = .next (takeAll c [x]
          (setGroup c (scope ++ op ++ tout ++ 0#8 ++ v.extractLsb' 32 16 ++ v.extractLsb' 16 16 ++ v.extractLsb' 0 16) s))) ∧
      (committed s c = false → (v.extractLsb' 48 16 ≠ 0 ∨ (v.extractLsb' 16 16 ≠ 0 ∧ (v.extractLsb' 16 16).toNat ≤ (v.extractLsb' 0 16).toNat)) →
        exec (.cgrp x scope op tout) s = .next (traps s 5 0x06 v s)))

/-- R352, R354: TSPAWN writes one CREATED record, TSPAWN.G the records of a team whose template overlaps none of them but the first; a record in a live state
raises RANGE with its address. The read of the template counts in the tracking of its page (R195). -/
def Obligations.Spawning : Prop :=
  ∀ (s : State) (x y : Code7) (n : BitVec 16), ready s [x, y] [] none true = true → released s = true →
    let c := s.focus
    let k := c.coreId
    let t := (s.ctx c).b.tenant
    let p := readOp s c x
    let r := readOp s c y
    let recs := (List.range n.toNat).map fun m => r + BitVec.ofNat 64 (128 * m)
    vaAt s c p pteR = .ok → vaAt s c (p + 127) pteR = .ok →
    (recordAt s r = true → recLive (recSt s k t r) = true → exec (.tspawn x y) s = .next (traps s 5 0x06 r s)) ∧
    (∀ tpl, (s.ctx c).att = .none → textFrom s k t p.toNat 128 3 [] = .done tpl →
      (recordAt s r = true → recLive (recSt s k t r) = false → exec (.tspawn x y) s = .next (takeAll c [x, y]
        (putRec k t r (newRec tpl t (s.ten t).ceiling true false 0 1 0 (2 ^ c.die.val) false) (noteText k t p.toNat 128 s)))) ∧
      ((∀ q ∈ recs, recordAt s q = true ∧ recLive (recSt s k t q) = false) → (liveTeams s t).length < 65535 →
        (∀ q ∈ recs.drop 1, p.toNat + 128 ≤ q.toNat ∨ q.toNat + 128 ≤ p.toNat) →
        let id := (freshTeam s t).1
        let w := forEach recs.zipIdx (fun q u => putRec k t q.1
          (newRec tpl t (u.ten t).ceiling true true id.toNat n.toNat q.2 (2 ^ c.die.val) false) u) (noteText k t p.toNat 128 { s with draws := s.draws + 1 })
        exec (.tspawnG x y n) s =
          .next (takeAll c [x, y] { w with teams :=
            { tenant := t, id := id, size := n.toNat, recs := recs.map (fun q => (c.die, q)), nums := List.range n.toNat, tick := none, placed := false, pend := []
              failed := false, succ := none } :: w.teams })))

/-- R352, R353, R356: TARM arms a record, TSIG signals one, TEXIT ends the task with its operand as result; a record in another state, another member of a
team than its record 0 and a counter that would leave its range raise RANGE with the record's address. TEXIT reads its successor list first, from a host
window by requests, and raises RANGE where a signal that it causes would take a counter below −2^31: which instruction traps there is the model's choice (log
54). R356, R357, R390, R70: a task that ends waits for its commands, its fence and its engines, which it closes; a stored command error and a bound
accumulator make its end a failure; then FAULT, TEND, RESULT and DONE or FAILED stand in its record, and it notifies a failure, or what its NTFYX asks for; a
task that is DONE signals its successors in the order of their list, of a team those of record 0 once the last member has ended, and none where a member has
failed; at last its link buffers close and its context is scrubbed for 64 cycles. (What is passed over and what waits among the signals is by log 54; the
ends of a team over packages meet in a round, log 18.) -/
def Obligations.TaskSignals : Prop :=
  (∀ (s : State) (x y : Code7),
    let c := s.focus
    let k := c.coreId
    let t := (s.ctx c).b.tenant
    let r := readOp s c x
    let n : Int := recCount s k t r + (((readOp s c y).setWidth 32).toNat : Int)
    (ready s [x, y] [] none true = true → released s = true → recordAt s r = true →
      (recSt s k t r = 1 → isMember s k t r = false → n < 2 ^ 31 →
        (0 < n → exec (.tarm x y) s = .next (takeAll c [x, y] (setSt k t r 2 (setCount k t r n s)))) ∧
        (n = 0 → enqRoom s k t r = true → exec (.tarm x y) s = .next (takeAll c [x, y] (enqueue k t r (setCount k t r n s)))) ∧
        (n < 0 → exec (.tarm x y) s = .next (takeAll c [x, y] (killRec k t r (faultWord 8 0 0 0 0) (setCount k t r n s))))) ∧
      (recSt s k t r ≠ 1 ∨ isMember s k t r = true ∨ 2 ^ 31 ≤ n → exec (.tarm x y) s = .next (traps s 5 0x06 r s))) ∧
    (ready s [x] [] none true = true →
      (released s = true → recordAt s r = true →
        (recSt s k t r = 1 ∨ recSt s k t r = 2 → isMember s k t r = false → recCount s k t r ≠ -(2 ^ 31) → signalBlocked s k t r = false →
          exec (.tsig x) s = .next (takeAll c [x] (signalRec k t r s))) ∧
        ((recSt s k t r ≠ 1 ∧ recSt s k t r ≠ 2) ∨ isMember s k t r = true ∨ recCount s k t r = -(2 ^ 31) →
          exec (.tsig x) s = .next (traps s 5 0x06 r s))) ∧
      (let endsAt (s : State) := takeAll c [x] (s.modCtx c fun z => { z with exit := some ⟨r, 0, false, none, none⟩ })
       let ends := endsAt s
       (∀ l, (s.ctx c).att = .text l true → exec (.texit x) s = .next s) ∧
       (∀ e, (s.ctx c).att = .failed e → exec (.texit x) s = .next ends) ∧
       ((∀ l, (s.ctx c).att ≠ .text l true) → (∀ e, (s.ctx c).att ≠ .failed e) →
        (∀ l, succText c s = .done l → texitErr c l s = none →
          exec (.texit x) s = .next (match succList s c ⟨0, 0, false, none, none⟩ with
            | some a => endsAt (noteText k t a.1 l.length s)
            | none => ends)) ∧
        (∀ l e, succText c s = .done l → texitErr c l s = some e → exec (.texit x) s = .next (traps s 5 e.cause e.addr s)) ∧
        (∀ got o n, succText c s = .ask got o n → exec (.texit x) s = .next (askText c t got o n s)) ∧
        (∀ w, succText c s = .miss w → exec (.texit x) s = .next (s.modCtx c fun z => { z with miss := some (w, .read) })))))) ∧
  (∀ (s : State) (c : CtxId) (e : Exit),
    let x := s.ctx c
    let k := c.coreId
    let t := x.b.tenant
    let r := x.b.task
    let waits : Prop := (∃ q ∈ (s.core k).cmds, q.ctx = c.ctx) ∨ outputsInFlight x = true ∨ relBusy s c 5 = true
    let open' (u : State) : Prop := (∃ w : Fin 8, ((u.core k).wins[w.val]).opn = true ∧ ((u.core k).wins[w.val]).opener = c) ∨
      (∃ h : Fin 2, ((u.core k).chans[h.val]).busy = true ∧ ((u.core k).chans[h.val]).owner = c) ∨
      ∃ n : Fin 16, ((u.die c.die).lbs[n.val]).holder = some c ∧ ((u.die c.die).lbs[n.val]).sending ≠ none
    let v : Exit := if e.failed then e else match x.cmdErr with
      | some q => { e with fault := faultWord 5 q.cause 0 0 0, result := q.addr, failed := true }
      | none => if ∃ z : Fin 16, x.z[z.val] ≠ none then { e with fault := faultWord 6 0x08 0 0 0, result := 0, failed := true } else e
    x.exit = some e → x.miss = none → e.sig = none →
    (waits → finishStep c s = s) ∧
    (¬ waits → ∃ u, SameMem s u ∧ SameOthers c s u ∧ u.ctx c = x ∧
      (∀ w : Fin 8, ((s.core k).wins[w.val]).opn = true → ((s.core k).wins[w.val]).opener = c →
        ((u.core k).wins[w.val]).opn = false ∨ ((u.core k).wins[w.val]).closing = true) ∧
      (∀ h : Fin 2, ((s.core k).chans[h.val]).busy = true → ((s.core k).chans[h.val]).owner = c →
        ((u.core k).chans[h.val]).busy = false ∨ ((u.core k).chans[h.val]).stop = true) ∧
      (open' u → finishStep c s = u) ∧
      (¬ open' u → translate s k t r = none → x.unres.contains (pageVa r.toNat) = false →
        finishStep c s = u.modCtx c fun y => { y with miss := some (r, .write) }) ∧
      (¬ open' u → recUsable s k t r = true → ∃ w l,
        let f : Exit := ⟨v.result, v.fault, v.failed, some 0, l⟩
        finishStep c s = signalStep c f 0 w ∧ (w.ctx c).exit = some f ∧
        rdRec w k t r 0x38 8 = v.fault.toNat ∧ rdRec w k t r 0x50 8 = ((s.die c.die).ptb).toNat ∧ rdRec w k t r 0x58 8 = v.result.toNat ∧
        rdRec w k t r 0 4 = rdRec s k t r 0 4 / 16 * 16 + (if v.failed then 7 else 6) ∧
        (∀ k' a, w.byte (.store k') a = s.byte (.store k') a) ∧
        (v.failed = true ∨ (rdRec s k t r 0 4).testBit 10 = true → ⟨2, 0, r, v.fault⟩ ∈ (w.ten t).notes) ∧
        (v.failed = true → l = none ∧ (x.b.team ≠ 0 → ∀ m ∈ w.teams, m.tenant = t → m.id = x.b.team → m.failed = true)) ∧
        (let own := (rdRec s k t r 0x18 8, rdRec s k t r 0x20 2)
         v.failed = false →
          (x.b.team = 0 → l = some own) ∧
          (x.b.team ≠ 0 → othersRun s c = true → l = none) ∧
          (∀ m, x.b.team ≠ 0 → othersRun s c = false → teamOf s t x.b.team = some m →
            l = if m.failed then none else if x.b.member = 0 then some own else m.succ)) ∧
        ((∀ m ∈ s.teams, m.tenant = t → m.id = x.b.team → m.spans = false) → (w.ctx c).att = .none)))) ∧
  (∀ (s : State) (c : CtxId) (e : Exit) (n : Nat),
    let x := s.ctx c
    let k := c.coreId
    let t := x.b.tenant
    let pause (u : State) : State := u.modCtx c fun y => { y with exit := y.exit.map fun f => { f with sig := some n } }
    (e.succ = none → signalStep c e n s = releaseCtx c s) ∧
    (∀ a cnt, e.succ = some (a, cnt) → x.att = .none → cnt < 2 ^ 16 →
      (cnt ≤ n → signalStep c e n s = releaseCtx c s) ∧
      (n < cnt →
        let next (u : State) : State := signalStep c e (n + 1) (u.modCtx c fun y => { y with att := .none })
        (∀ l, textFrom s k t (a + 8 * n) 8 3 [] = .done l →
          let q := BitVec.ofNat 64 (ofBytes l)
          let w := noteText k t (a + 8 * n) 8 s
          (canSignal s k t q = true → signalBlocked s k t q = true →
            signalStep c e n s = pause (s.modCtx c fun y => { y with att := .text l false })) ∧
          (canSignal s k t q = true → signalBlocked s k t q = false → signalStep c e n s = next (signalRec k t q w)) ∧
          (canSignal s k t q = false → signalStep c e n s = next (notify t 2 1 q 0 (markDrop k t q w)))) ∧
        (∀ got o m, textFrom s k t (a + 8 * n) 8 3 [] = .ask got o m → signalStep c e n s = pause (askText c t got o m s)) ∧
        (∀ v, textFrom s k t (a + 8 * n) 8 3 [] = .miss v →
          signalStep c e n s = if x.unres.contains (pageVa v.toNat) then next s else pause (s.modCtx c fun y => { y with miss := some (v, .read) })) ∧
        (∀ r, textFrom s k t (a + 8 * n) 8 3 [] = .bad r → signalStep c e n s = next s)))) ∧
  (∀ (s : State) (c : CtxId),
    let u := releaseCtx c s
    u.ctx c = { Ctx.scrubbed .scrub (s.die c.die).tgen with b := { Binding.none with gran := (s.ctx c).b.gran }, scrubLeft := 64 } ∧ SameOthers c s u ∧
    SameMem s u ∧ ∀ n : Fin 16,
      let l := (s.die c.die).lbs[n.val]
      let l' := (u.die c.die).lbs[n.val]
      (l.holder ≠ some c → l' = l) ∧ (l.holder = some c → l.st = .filling → l'.closeAfter = true) ∧
      (l.holder = some c → l.st ≠ .filling → l'.holder = none ∧ l'.st = .closed))

/-- R362, R366: TSETQ and TSETQ.SELF move a task to another priority, never above the tenant's ceiling; BSYNC counts the context's arrival, passes when the
barrier has released, and passes at once without a team. At pod scope a member of a team that spans packages enters a round of the team's members in all of
them, numbered by its k (that such a barrier is a round is the model's choice, log 18). -/
def Obligations.PriorityAndBarrier : Prop :=
  ∀ (s : State) (x : Code7) (p : BitVec 2) (scope : BitVec 3),
    let c := s.focus
    let k := c.coreId
    let t := (s.ctx c).b.tenant
    let q := min p.toNat (s.ten t).ceiling.toNat
    let at' (r : W64) : Fin 64 := queueOf s k t r
    let old (r : W64) : Nat := (at' r).val % 4
    let room (r : W64) : Prop := ∀ d w e, queueEntry s t r = some (d, w, e) → qRoom (s.die d) (atPrio w q) = true
    (ready s [x] [] none true = true →
      let r := readOp s c x
      recordAt s r = true → recLive (recSt s k t r) = true → isMember s k t r = false → room r →
      exec (.tsetq x p) s = .next (takeAll c [x] (if old r = q then noteText k t r.toNat 128 s else requeue k t r q s))) ∧
    (ready s [] [] none true = true →
      let r := (s.ctx c).b.task
      (recordAt s r = true → room r → exec (.tsetqSelf p) s = .next (if old r = q then noteText k t r.toNat 128 s else requeue k t r q s)) ∧
      (∀ id, (s.ctx c).att = .arrived id → exec (.bsync scope) s = .next (passBarrier scope.toNat c s)) ∧
      (∀ id, (s.ctx c).att = .round id → exec (.bsync scope) s = .next s) ∧
      ((s.ctx c).att = .none → (s.ctx c).flights = [] → relBusy s c scope.toNat = false →
        exec (.bsync scope) s = .next (if (s.ctx c).b.team = 0 then passBarrier scope.toNat c s else arriveTeam scope.toNat c s)) ∧
      ((spanningTeam s c = none ∨ scope ≠ 5) → arriveTeam scope.toNat c s = arriveBarrier scope.toNat c s) ∧
      (∀ m, spanningTeam s c = some m → ∃ (id : Nat) (u : State), arriveTeam 5 c s = u.modCtx c (fun y => { y with att := .round id }) ∧ u.ctx c = s.ctx c ∧
        ∃ r ∈ u.rounds, r.id = id ∧ r.tenant = t ∧ r.gid = (s.ctx c).b.team ∧ r.seq = BitVec.ofNat 32 ((s.ctx c).b.count 5) ∧
          ∃ p ∈ r.members, p.c = c ∧ p.val = true))

/-- R419, R418, R393: SVC hands its block to the supervisor, NTFY queues a notification, RECONF hands in the die's plan. -/
def Obligations.SupervisorInstructions : Prop :=
  ∀ (s : State) (x : Code7) (n : BitVec 8) (code : BitVec 16) (f : BitVec 10), ready s [x] [] none true = true →
    let c := s.focus
    let v := readOp s c x
    let a : W64 := v &&& ~~~63#64
    let t := (s.ctx c).b.tenant
    let gid := cgGid (s.arch c).cgm
    (released s = true → homeAddr s a = true → busyAny (s.core c.coreId) a.toNat 64 = false →
      exec (.svc x n) s = .next (takeAll c [x] (s.modCtx c fun y => { y with svc := some (a.toNat, n) }))) ∧
    (released s = true → (s.ten t).notes.length < 64 → exec (.ntfy x code) s = .next (takeAll c [x] (notify t 1 code v 0 s))) ∧
    ((s.arch c).ctgen = (s.die c.die).tgen → (s.ten t).reconf = true → podGroup s c = true → reconfOf s t gid = none →
      csCheckRun (s.core c.coreId) a.toNat 4160 = none → homeAddr s a = true → readsFree s a.toNat 4160 = true →
      exec (.reconf x f) s = .next (takeAll c [x] (meetPlan c { s with reconfs := s.reconfs ++
        [⟨t, gid, .arriving, [⟨c, (s.ctx c).b.uid, f.toNat, rdCells (s.core c.coreId).store a.toNat 4160, c.die == 0⟩], 0, [], []⟩] }))) ∧
    ((s.arch c).ctgen = (s.die c.die).tgen → (s.ten t).reconf = false → exec (.reconf x f) s = .next (traps s 5 0x11 v s))

/-- R86, R98, R139 to R142, R163, R331, R334, R350 and R419: a result goes to the register, stream port or Hem that its destination code names; when it is
due it lands there, and in the Hem where the instruction's group says so, two results of one cycle in their order; a posted trap whose results have landed is
taken, to the handler, or to the end of the task with KIND 1, or with KIND 2 under INH = 1; a run of more than MAXRUN bundles ends the task with KIND 4; a
dictionary fill, a walk and an SVC answer let the context go on. The status words of an SVC answer are log 30, RESULT under KIND 2 is log 31, the mark `kept`
of a loop level is log 15, and that the cache keeps the newest 2,048 entries is log 27. -/
def Obligations.ResultsAndTraps : Prop :=
  ∀ (s : State),
    let c : CtxId := ⟨s.arg.die, s.arg.core, s.arg.ctx⟩
    let k := c.coreId
    let x := s.ctx c
    let a := s.arch c
    let due := x.flights.filter fun f => f.rem == 0
    let rest := x.flights.filter fun f => f.rem != 0
    let fails (y : Ctx) (fault result : W64) : Ctx :=
      { y with exit := some ⟨result, fault, true, none, none⟩, trap := none, spec := none, svc := none, att := .none, miss := none }
    (∀ (d : Code7) (slot : BitVec 3) (v : W64),
      (d.toNat < 48 → dstAct a d slot v = .sreg (Fin.ofNat 64 d.toNat) v) ∧
      (∀ n, n < 16 → d.toNat = 48 + n → dstAct a d slot v = .sreg (Fin.ofNat 64 (48 + (n + (16 - a.rot % 16)) % 16)) v) ∧
      (∀ n : Fin 8, d.toNat = 0x40 + n.val → dstAct a d slot v = .port n v slot) ∧
      (d = 0x7F → dstAct a d slot v = .hem v)) ∧
    (mayLand s c = true → x.st ≠ .saving → ∃ t, exec .resultLanding s = .next t ∧ SameOthers c s t ∧ (t.ctx c).flights = rest ∧
      (∀ hem sl act en, due = [⟨0, hem, sl, act, en⟩] →
        (∀ y, landsIn x act = some y → SameMem s t ∧
          t.ctx c = { y with flights := rest, spec := (t.ctx c).spec, arch := { y.arch with hem := (t.arch c).hem, ports := (t.arch c).ports } } ∧
          (∀ n : Fin 8, (a.ports[n.val]).closing = false → (t.arch c).ports[n.val] = a.ports[n.val])) ∧
        (∀ ws, act = .words ws →
          (∀ e, (∀ w ∈ ws, w.1 ≠ e) → rdCell (t.ctx c).mreg e = rdCell x.mreg e) ∧
          ((ws.map Prod.fst).Nodup → ∀ w ∈ ws, rdCell (t.ctx c).mreg w.1 = (rdCell x.mreg w.1 &&& ~~~w.2.2) ||| (w.2.1 &&& w.2.2))) ∧
        (x.spec = none → landsOut c s t act) ∧
        (hem = false → (t.arch c).hem = a.hem) ∧
        (∀ v, landsVal act = some v → hem = true →
          (t.arch c).hem[0] = v ∧ ∀ i : Fin 31, (t.arch c).hem[i.val + 1] = a.hem[i.val])) ∧
      (∀ sl sl' r v w, due = [⟨0, true, sl, .sreg r v, none⟩, ⟨0, true, sl', .sreg r w, none⟩] →
        (t.arch c).s = a.s.set r.val w ∧ (t.arch c).hem[0] = w ∧ (t.arch c).hem[1] = v ∧
        ∀ i : Fin 30, (t.arch c).hem[i.val + 2] = a.hem[i.val])) ∧
    (∀ q, x.trap = some q → x.st = .running → x.flights = [] → x.miss = none → x.exit = none →
      let h := if a.trapvecValid then a.trapvecAddr else x.b.hdr.traph
      let va := codeVa x.b.hdr h
      let e : Arch := { a with
        cause := q.err.cause, inh := true, trappc := q.pc, depth := BitVec.ofNat 3 a.loops.length,
        loops := a.loops.map (fun l => { l with kept := true }), tslot := q.slot, tleaf := q.leaf
        trapaddr := q.err.addr, hpc := none }
      let dies : Prop := exec .trapEntry s = .next (s.setCtx c (fails { x with arch := e } (faultWord 1 q.err.cause 0 0 q.pc) q.err.addr))
      (a.inh = true → exec .trapEntry s = .next (s.setCtx c (fails x (faultWord 2 a.cause q.err.cause 0 a.trappc) a.trapaddr))) ∧
      (a.inh = false → h = 0xFFFFFFFF → dies) ∧
      (a.inh = false → h ≠ 0xFFFFFFFF →
        (placeOf s x.b h = .start ∨ placeOf s x.b h = .pending → exec .trapEntry s =
          .next (s.setCtx c { x with arch := { e with pc := h }, trap := none })) ∧
        (placeOf s x.b h = .inside → dies) ∧
        (placeOf s x.b h = .unmapped → x.unres.contains (pageVa va) = true → dies) ∧
        (placeOf s x.b h = .unmapped → x.unres.contains (pageVa va) = false →
          exec .trapEntry s = .next (awaitPage c (BitVec.ofNat 64 va) s)))) ∧
    (x.st = .running → x.exit = none → x.spec = none → x.b.hdr.maxrun < a.run →
      exec .maxrunExceeded s = .next (s.setCtx c (fails x (faultWord 4 0 0 0 a.pc) 0))) ∧
    (∀ n l, x.st = .running → x.exit = none → x.miss = none → fetchAt s c a.pc = .dict n →
      vaRead s k x.b.tenant (x.b.hdr.dict.toNat + 48 * n) 48 = some l → ∃ t, exec .dictionaryFill s = .next t ∧ t.ctx c = x ∧ SameMem s t ∧
        (t.core k).dict = (⟨x.b.tenant, x.b.hdr.dict, n, BitVec.ofNat 384 (ofBytes l)⟩ :: (s.core k).dict).take 2048) ∧
    (∀ p kind e, x.miss = some (p, kind) → ctxReported s c = false → walk s x.b.tenant p = some e →
      ∃ t, exec .tlbWalkComplete s = .next t ∧ t.ctx c = { x with miss := none } ∧ tlbLook t k x.b.tenant p = some e ∧ SameMem s t) ∧
    (∀ p kind, x.miss = some (p, kind) → ctxReported s c = false → walk s x.b.tenant p = none →
      ∃ t, exec .tlbWalkComplete s = .next t ∧ ⟨x.b.tenant, p, kind, if kind = .fetch then .fetch c else .xlat c⟩ ∈ (t.die c.die).faults ∧
        t.ctx c = x ∧ SameMem s t) ∧
    (∀ p n, x.svc = some (p, n) → s.arg.ok = false →
      ∃ t, exec .svcAnswer s = .next t ∧ t.ctx c = { x with svc := none } ∧ SameMemBut k p 28 s t ∧
        let w (o : Nat) : Nat := rdLE (t.core k).store (p + o) 4
        (n = 0 → w 0 = 0 ∧ w 8 + 2 ^ 32 * w 12 = (healthWord s).toNat) ∧
        (n = 1 → let q := s.ten x.b.tenant
          w 0 = 0 ∧ w 8 = q.ceiling.toNat ∧ w 12 = q.weight % 2 ^ 32 ∧ w 16 = q.cstoreLimit.toNat ∧ w 20 = q.saveLimit.toNat ∧
          w 24 = q.teamLimit.toNat) ∧
        (2 ≤ n.toNat → w 0 = 0xFFFFFFFF))

/-- R201 to R204, R214, R216, R217, R221, R254, R373: an access beyond the core first goes to the die of its target; there a load takes the bytes of one of
its locations, a store writes those of one, an atomic writes its result over the old value, an object instruction acts on its object, and an access to the
host sends a frame; once all of it has performed it ends at its die. A reply lands in the register; a stale route is followed to the new place; a refused
access is held for a retry, the sixteenth refusal raises REFUSED; a host access without an answer for 1 ms is sent again, sixteen times. An access that reads
a store of its quad sees, of each 16-byte chunk that an issued command writes, the old bytes or the new ones (R302). That an access is presented at its bank
before it performs, and waits there for those that come before it (R193, R415), is by log 77. -/
def Obligations.AccessEvents : Prop :=
  ∀ (s : State) (a : Access) (q : HostReq),
    let drop (s : State) : State := { s with accesses := s.accesses.filter fun b => b.id != a.id }
    let upd (f : Access → Access) (s : State) : State := { s with accesses := s.accesses.map fun b => if b.id = a.id then f b else b }
    let found := s.accesses.find? (fun b => b.id == s.arg.id) = some a
    let shown := peerShow a (0, a.size) s
    let old := ofBytes (accessBytes shown a)
    let left := s.hostReqs.filter fun r => r.seq != q.seq || r.tenant != q.tenant
    (found → accessGoes a = true → mustTravel s a = true → exec .accessPerform s = .next (sendAway a s)) ∧
    (found → accessGoes a = true → mustTravel s a = false → s.arg.ok = true → routeFresh s a = true → toHost a = false → a.since = none →
      exec .accessPerform s = .next (upd (fun b => { b with since := some (s.die (accessHome s a)).ptb }) s)) ∧
    (∀ p, found → mustTravel s a = false → s.arg.ok = false → accessPiece s a s.arg.num = some p → accessQueues s a p = true → exec .accessPerform s = .next s) ∧
    (∀ p, (∀ d, a.loc = .dpa d → peerShow a p s = s) ∧ (a.op.reads = false → peerShow a p s = s) ∧
      (∀ k d, a.loc = .peer k d → a.op.reads = true → ∀ i, i < p.2 →
        let n := d + p.1 + i
        let m : CoreId := ⟨a.owner.die, k⟩
        let was := s.byte (.store m) n
        let now := (peerShow a p s).byte (.store m) n
        (s.arg.val.toNat.testBit (n / 16 - (d + p.1) / 16) = false → now = was) ∧
        (now = was ∨ ∃ c ∈ (s.core m).cmds, c.left.isSome = true ∧ ∃ w ∈ c.out.mem, w.1 = none ∧ w.2.1 ≤ n ∧ w.2.2[n - w.2.1]? = some now))) ∧
    (found → canPerform s a (0, a.size) = true → s.arg.ok = false → accessQueues s a (0, a.size) = false →
      (∀ o v, a.op = .amo o v → exec .accessPerform s =
        .next (performed a (BitVec.ofNat 64 old) (accessStore a 0 (toBytes a.size (amoOp o.toNat a.size old v.toNat)) shown))) ∧
      (∀ v w, a.op = .amoc v w → exec .accessPerform s = .next (performed a (BitVec.ofNat 64 old) (if old = v.toNat % 2 ^ (8 * a.size) then
        accessStore a 0 (toBytes a.size w.toNat) shown else shown))) ∧
      (∀ o off bs v, a.op = .obj o → objStep (accessBytes shown a) o = .done off bs v → exec .accessPerform s =
        .next (performed a v (accessStore a off bs shown))) ∧
      (∀ o, a.op = .obj o → objStep (accessBytes shown a) o = .proto → exec .accessPerform s =
        .next (performed { a with bad := some ⟨0x0A, a.va⟩ } 0 shown))) ∧
    (∀ p, found → accessPiece s a s.arg.num = some p → canPerform s a p = true → toHost a = false → s.arg.ok = false → accessQueues s a p = false →
      (a.op = .load →
        (∀ d, a.loc = .dpa d → exec .accessPerform s = .next (loadPiece a p (dpaBytes s a.view (d + p.1) p.2) s)) ∧
        (∀ k d, a.loc = .peer k d → exec .accessPerform s =
          .next (loadPiece a p (rdCells ((peerShow a p s).core ⟨a.owner.die, k⟩).store (d + p.1) p.2) (peerShow a p s)))) ∧
      (∀ v, a.op = .store v →
        let w := accessStore a p.1 (toBytes p.2 (v.toNat / 2 ^ (8 * p.1))) s
        let rest := a.left.filter (· != p.1)
        exec .accessPerform s = .next (if rest = [] then performed a 0 w else upd (fun b => { b with left := rest }) w))) ∧
    (∀ v, accessHome s a = a.owner.die → a.bad = none →
      (a.op.reads = true → (∀ o, a.op ≠ .obj o) →
        performed a v s = upd (fun _ => { a with performed := true, left := [], val := v, hop := .done }) (noteAccess a s)) ∧
      (∀ w, a.op = .store w → performed a v s = drop (noteAccess a s)) ∧
      (∀ o, a.op = .obj o → performed a v s =
        (drop (noteAccess a s)).modCtx a.owner fun x => if x.att = .sent a.id then { x with att := .done v } else x)) ∧
    (found → canPerform s a (0, a.size) = true → toHost a = true → a.op = .load → s.arg.ok = false → accessQueues s a (0, a.size) = false →
      ∃ t, exec .accessPerform s = .next t ∧ SameMem s t ∧ (∃ r, t.hostReqs = s.hostReqs ++ [r] ∧ r.req = .access a.id ∧ r.write = false ∧
        r.len = a.size ∧ r.tries = 1) ∧ ∀ b ∈ t.accesses, b.id = a.id → b.host.isSome = true) ∧
    (∀ r, s.accesses.find? (fun b => b.id == s.arg.id && b.performed && b.hop == .done) = some a → a.dst = some r →
      s.saved.any (fun v => v.ctx.b.uid == a.uid) = false → (s.ctx a.owner).b.uid = a.uid →
      ∃ t, exec .ldhReply s = .next t ∧ t.accesses = (drop s).accesses ∧ (t.arch a.owner) = (s.arch a.owner).wrPhys r a.val ∧ SameMem s t ∧
        SameOthers a.owner s t) ∧
    (∀ d, found → a.loc = .dpa d → accessGoes a = true → mustTravel s a = false → routeFresh s a = false → exec .forwardingPointer s =
        .next ((upd (fun b => { b with route := dpitEntry s (d / 2 ^ 16), hop := .start, since := none }) s).modDie a.owner.die fun x =>
          { x with dcache := (d / 2 ^ 16, dpitEntry s (d / 2 ^ 16)) :: x.dcache.filter fun e => e.1 != d / 2 ^ 16 })) ∧
    (s.arg.req = .access a.id → s.accesses.find? (fun b => b.id == a.id) = some a → canRefuse s a = true →
      (a.refusals + 1 < 16 → exec .refusal s = .next (upd (fun b => { b with refusals := b.refusals + 1, hold := true, hop := .start, since := none }) s)) ∧
      (16 ≤ a.refusals + 1 → ∀ v, a.op = .store v → (s.ctx a.owner).b.uid = a.uid → (s.ctx a.owner).st.bound = true →
        exec .refusal s = .next ((drop s).modCtx a.owner fun x => { x with late := x.late ++ [⟨⟨0x0E, a.va⟩, 2, false⟩] }))) ∧
    (s.arg.req = .access a.id → exec .refusalRetry s = .next (upd (fun b => { b with hold := false }) s)) ∧
    (s.hostReqs.find? (fun r => r.seq.toNat == s.arg.id && r.tenant == s.arg.tenant) = some q →
      1000000 ≤ ((s.die 0).ptb - q.since).toNat →
      (q.tries < 16 → ∃ t r, exec .hostAccessTimeout s = .next t ∧ t.hostReqs = left ++ [r] ∧ r.tenant = q.tenant ∧ r.req = q.req ∧
        r.place = q.place ∧ r.write = q.write ∧ r.off = q.off ∧ r.data = q.data ∧ r.len = q.len ∧ r.tries = q.tries + 1 ∧ SameMem s t) ∧
      (16 ≤ q.tries → ∃ t, exec .hostAccessTimeout s = .next t ∧ t.hostReqs = left ∧ SameMem s t))

/-- R271, R272, R300, R301, R303, R315, R316, R328: a ready command goes to its engine with what it comes to on the stores as it reads them (the stores
themselves where no row is about to arrive), CPY starts its channel, the first issue of a gather starts its collection, which takes the gathered rows as they
then are, and the four members of an MMA.Q gang issue together, with GANGMISMATCH unless they agree; a command whose time has passed leaves the table and
performs its writes: the elements of every tile bank that it names, its bytes in the order in which it gives them, its flag after them, and its chain slots;
it leaves its error unless one is stored, and every other byte, tile and slot is as it was. -/
def Obligations.CommandEvents : Prop :=
  ∀ (s : State) (q : Cmd),
    let k : CoreId := ⟨s.arg.die, s.arg.core⟩
    let c : CtxId := ⟨k.die, k.core, q.ctx⟩
    let x := s.ctx c
    let rest := (s.core k).cmds.filter fun p => p.id != q.id
    (s.core k).cmds.find? (fun p => p.id == s.arg.id) = some q →
    (canIssue s k q = true →
      (isGather q.ins = true → q.gather = none → exec .commandIssue s = .next (s.modCore k fun y =>
        { y with
          cmds := y.cmds.map fun p => if p.id = q.id then
            { p with gather := some (cdiv (tdRows q.imgA) 4), ready := false, tab := gatherTab (tileMem (readView [k] s) k q.imgA) q, taken := (gatherRange q).length } else p
          eng := y.eng.set 4 (cdiv (tdRows q.imgA) 4) })) ∧
      (∀ (m : Cells 8) (e b : Nat), e < tdRows q.imgA → b < tdRowBytes q.imgA →
        let a := tdBase q.imgA + elem 16 q.idx e * tdPitch q.imgA + swz (tdLay q.imgA) (elem 16 q.idx e) b
        rdCell (gatherTab m q) a = rdCell m a) ∧
      ((isGather q.ins = false ∨ q.gather ≠ none) →
        (∀ ch v n dw b, q.ins = .cpy ch v n dw b → ∃ t, exec .commandIssue s = .next t ∧ (t.core k).cmds = rest ∧
          (t.core k).chans[(Fin.ofNat 2 ch.toNat).val] =
            { Chan.idle with
              busy := true, owner := c, uid := x.b.uid, nrow := ((s.core k).chans[(Fin.ofNat 2 ch.toNat).val]).nrow
              next := alignDown q.x.toNat 32, left := n.toNat }) ∧
        (∀ z a b f g acc mx dual bt cl, q.ins = .mmaQ z a b f g acc mx dual bt cl → ∀ m, gangOf s k q = some m →
          ∃ t, exec .commandIssue s = .next t ∧ m.length = 4 ∧ ∀ p ∈ m, ∃ r ∈ (t.core p.1).cmds, r.id = p.2.id ∧ r.left.isSome = true ∧
            (gangAgrees m = true → r.out = gangResult (readView (readCores k q.ins) s) m p.1 p.2) ∧
            (gangAgrees m = false → r.out.err = some ⟨0x0B, BitVec.ofNat 64 p.2.epoch⟩ ∧ r.out.acc = [] ∧ r.out.mem = [])) ∧
        ((∀ ch v n dw b, q.ins ≠ .cpy ch v n dw b) → (∀ z a b f g acc mx dual bt cl, q.ins ≠ .mmaQ z a b f g acc mx dual bt cl) →
          ∃ t, exec .commandIssue s = .next t ∧ (t.core k).cmds = (s.core k).cmds.map (fun p => if p.id = q.id then
            { p with left := some ((cmdTime x q).1 + (cmdTime x q).2), out := cmdResult (readView [k] s) c q } else p) ∧ SameMem s t))) ∧
    ((∀ d ∈ readCores k q.ins, arriving s d = []) → (∀ n, arrivingLb s k.die n = []) → (readView (readCores k q.ins) s).draws = s.draws ∧ SameMem s (readView (readCores k q.ins) s)) ∧
    (q.left = some 0 → ∃ t, exec .commandComplete s = .next t ∧ (t.core k).cmds = rest ∧
      (t.ctx c).cmdErr = (match x.cmdErr with
        | some e => some e
        | none => q.out.err) ∧
      (t.ctx c).z = (q.out.acc.foldl (fun y w => putAcc w.1 w.2.1 w.2.2 y) x).z ∧
      (q.out.acc = [] → (t.ctx c).z = x.z) ∧ (q.out.mem = [] → q.out.flag = none → SameMem s t) ∧
      (∀ z b w, q.out.acc = [(z, b, w)] → (t.ctx c).z = (putAcc z b w x).z) ∧
      (∀ z b v z' b' w, q.out.acc = [(z, b, v), (z', b', w)] → (t.ctx c).z = (putAcc z' b' w (putAcc z b v x)).z) ∧
      (∀ n v, q.out.flag = some (n, v) → rdFlag (t.core k).store n = v) ∧
      (∀ m a, t.byte m a = byteAfter k m a (q.out.mem ++ match q.out.flag with
        | some (n, v) => [(none, 4 * n, (List.range 4).map fun i => v.extractLsb' (8 * i) 8)]
        | none => []) (s.byte m a)) ∧
      (∀ n : Fin 4, (t.ctx c).y[n.val] = (((q.out.chain.filter fun w => w.1 == n).getLast?).map Prod.snd).getD x.y[n.val]) ∧
      t.ctx c = { x with z := (t.ctx c).z, y := (t.ctx c).y, cmdErr := (t.ctx c).cmdErr } ∧ SameOthers c s t)

/-- R230 to R232, R181, R182, R236, R240, R242, R245, R254: an idle fetch of a channel takes the next 32-byte entry, and a bad entry, or one that another
core does not admit, stops the channel; as a row starts, a source byte that its core may not read or a place of its own core that it may not write stops the
channel too. A row is read piece by piece from its core's store, a link buffer or pages, and delivered piece by piece in any order to the cores of its entry,
a link buffer or pages, as it is or summed onto the old words (OP), WP counting the bytes that have been delivered without a gap. Once it is delivered
everywhere its bytes count at the barrier object of each of the cores (BV), and the last row of its entry counts at their flag (FV). A window fills its ring
with the rows of its source in order while a slot is free, the delivered row standing in its slot and counted as done; a draining window takes each released
row from its slot, writes it page by page and counts it once it is written. Which piece moves next is the event's (DESIGN CHOICE, log 28), and a row over two
pages is checked page by page (DESIGN CHOICE, log 46). -/
def Obligations.CopyAndWindowEvents : Prop :=
  (∀ (s : State),
    let k : CoreId := ⟨s.arg.die, s.arg.core⟩
    let ch : Fin 2 := Fin.ofNat 2 s.arg.unit
    let h := (s.core k).chans[ch.val]
    let at' (t : State) : Chan := (t.core k).chans[ch.val]
    let stopped (e : Err) : State := dropFaults k.die (.chan k ch)
      (modChan k ch (fun y => { y with err := some e, left := 0, cur := none, rows := [], opens := [], miss := none }) s)
    let pick (l : List Nat) (words : Bool) : Nat × Nat := pickRun l s.arg.va.toNat s.arg.val.toNat words
    h.busy = true → h.stop = false → h.err = none → h.miss = none →
    (h.cur = none → h.left ≠ 0 → csCheck (s.core k) (BitVec.ofNat 64 h.next) = none →
      let e : BitVec 256 := BitVec.ofNat 256 (rdLE (s.core k).store h.next 32)
      (entryOk e = false → exec .copyEntryStart s = .next (stopped ⟨0x06, BitVec.ofNat 64 h.next⟩)) ∧
      (∀ x, entryOk e = true → lbNotHeld s h.owner e = some x → exec .copyEntryStart s = .next (stopped x)) ∧
      (entryOk e = true → lbNotHeld s h.owner e = none →
        let starts : State := modChan k ch (fun y =>
          { y with next := h.next + 32, left := h.left - 1, cur := some (h.next, e, 0), opens := h.opens ++ [(h.next, e, entRows e)] }) s
        let admits (d : CoreId) : Prop := ∀ r, r < entRows e → deliveryErr s k d ch (rowAddrs (entDLay e) (entryDst e r) r (entryLen e)) = none
        (entMcast e = 0 ∨ (∀ d ∈ entryCores k e, d ≠ k → admits d) → exec .copyEntryStart s = .next starts) ∧
        (entMcast e ≠ 0 → (∃ d ∈ entryCores k e, d ≠ k ∧ ¬ admits d) → ∃ x, (x.cause = 0x05 ∨ x.cause = 0x11) ∧ exec .copyEntryStart s = .next (stopped x)))) ∧
    (∀ (d : CoreId) (as : List Nat), deliveryErr s k d ch as = none ↔ ∀ a ∈ as, a < 0x600000 ∧
      ((((s.core d).adm[a / 0x10000]?).getD 0).getLsbD (2 * (k.core.val % 4) + ch.val) = true ∨ (d = k ∧ (s.core k).own[a / 0x10000]? = some .home))) ∧
    (∀ n e r, s.arg.ok = true → h.cur = some (n, e, r) →
      let as := rowAddrs (entSLay e) (entrySrc e r) r (entryLen e)
      let p := pick (List.range (entryLen e)) false
      let starts (bs : List Byte) : State := modChan k ch (fun y =>
        { y with
          nrow := y.nrow + 1, cur := if r + 1 < entRows e then some (n, e, r + 1) else none
          rows := [{ Row.start k h.nrow n e r with
            data := setSlice (List.replicate (entryLen e) 0) p.1 bs
            need := outside p.1 p.2 (List.range (entryLen e)) }] }) s
      (rowStartErr s k ch e r = none ↔ (entSKind e = 0 → ∀ a ∈ as, a < 0x600000 ∧ (s.core k).own[a / 0x10000]? = some .home) ∧
        (entDKind e = 0 → k ∈ entryCores k e → deliveryErr s k k ch (rowAddrs (entDLay e) (entryDst e r) r (entryLen e)) = none)) ∧
      (∀ x, rowStartErr s k ch e r = some x → exec .copyRowDelivery s = .next (stopped x)) ∧
      (rowStartErr s k ch e r = none → h.rows = [] →
        (entSKind e = 0 → exec .copyRowDelivery s = .next (starts (((as.drop p.1).take p.2).map (rdCell (s.core k).store)))) ∧
        (entSKind e = 2 → exec .copyRowDelivery s = .next (starts
          (rdCells ((s.die k.die).lbs[(entLb (entrySrc e 0)).val]).bytes (entrySrc e r % 2 ^ 16 + p.1) p.2))))) ∧
    (∀ r, s.arg.ok = false → h.rows = [r] → r.k = s.arg.num → r.done = false → r.hold = false → hostOut s (.row k ch r.k) = false →
      (r.need ≠ [] → entSKind r.img = 1 → r.hop = .start → r.req = none →
        let p := pick r.need false
        let t := (s.ctx h.owner).b.tenant
        ∀ q, pageReq s k t (entrySrc r.img r.r) (entryLen r.img) p.1 p.2 false false = .req q → q.stale s = false →
          (q.home s = k.die → engineQueues s k.die false q.cells = false →
            ∃ t, exec .copyRowDelivery s = .next t ∧ SameMem s t ∧ (at' t).wp = (Chan.count h).wp ∧ ∃ c, (at' t).rows =
              [{ r with data := setSlice r.data q.off (q.cells.map (dpaRead s)), need := outside q.off q.n r.need, refusals := 0, counted := c }]) ∧
          (q.home s ≠ k.die → exec .copyRowDelivery s = .next (routeFlit k.die
            ⟨.rowReq, 3, dieId s k.die, dieId s (q.home s), .row k ch r.k, 0, [], 0, dpaVault q.dpa⟩
            (modRow k ch r.k (fun r => { r with hop := .out, req := some q })
              (cacheRoute k.die (.dpa q.dpa) (walkPages k t (entrySrc r.img r.r + p.1) 1 s)))))) ∧
      (r.need ≠ [] → entSKind r.img = 2 →
        let p := pick r.need false
        exec .copyRowDelivery s = .next (modRow k ch r.k (fun q =>
          { q with
            data := setSlice q.data p.1 (rdCells ((s.die k.die).lbs[(entLb (entrySrc r.img 0)).val]).bytes (entrySrc r.img r.r % 2 ^ 16 + p.1) p.2)
            need := outside p.1 p.2 q.need }) s)) ∧
      (r.need = [] → r.left ≠ [] → r.data.length = entryLen r.img →
        let e := r.img
        let d := (r.left.getD (s.arg.va.toNat % r.left.length) (0, 0)).1
        let p := pick ((r.left.filter fun l => l.1 == d).map Prod.snd) (entOp e != 0)
        let new := (r.data.drop p.1).take p.2
        let rest := r.left.filter fun l => l.1 != d || decide (l.2 < p.1) || decide (p.1 + p.2 ≤ l.2)
        let last := h.opens.any fun o => o.1 == r.ent && o.2.2 == 1
        let cs := entryCores k e
        let marks (u : State) : State :=
          let u := if entBV e then forEach cs (fun c => barDeliver c (entBar e) (entryLen e)) u else u
          if entFV e && last then forEach cs (fun c => incFlag c (entFlag e)) u else u
        let moves (u : State) : Prop := ∃ t, exec .copyRowDelivery s = .next t ∧
          (∀ m b, t.byte m b = (if rest = [] then marks u else u).byte m b) ∧
          (at' t).wp = h.wp + BitVec.ofNat 64 ((rest.map Prod.snd).foldl min (entryLen e) - r.counted) ∧
          (if rest = [] then (at' t).rows = [] else ∃ q, (at' t).rows = [q] ∧ q.left = rest ∧ q.data = r.data)
        (∀ c, entDKind e = 0 → cs[d]? = some c →
          let as := ((rowAddrs (entDLay e) (entryDst e r.r) r.r (entryLen e)).drop p.1).take p.2
          as.Nodup → ∃ u, moves u ∧
            (∀ b ∈ as.zip (combine (entOp e) (as.map (rdCell (s.core c).store)) new), u.byte (.store c) b.1 = b.2) ∧
            (∀ m b, (m = .store c → b ∉ as) → u.byte m b = s.byte m b)) ∧
        (entDKind e = 2 → ∃ u, moves u ∧
          let n := entLb (entryDst e 0)
          let a := entryDst e r.r % 2 ^ 16 + p.1
          ((u.die k.die).lbs[n.val]).bytes = wrCells ((s.die k.die).lbs[n.val]).bytes a
            (combine (entOp e) (rdCells ((s.die k.die).lbs[n.val]).bytes a p.2) new) ∧
          ∀ m b, m ≠ .link k.die n → u.byte m b = s.byte m b) ∧
        (entDKind e = 1 → r.hop = .start → r.req = none →
          ∀ q, pageReq s k (s.ctx h.owner).b.tenant (entryDst e r.r) r.data.length p.1 p.2 true (entOp e != 0) = .req q → q.stale s = false →
            q.home s = k.die → engineQueues s k.die true q.cells = false → (∀ l ∈ r.left, l.1 = 0) →
            let left := r.left.filter fun l => decide (l.2 < q.off) || decide (q.off + q.n ≤ l.2)
            let u := storeCells q.cells (combine (entOp e) (q.cells.map (dpaRead s)) ((r.data.drop q.off).take q.n)) s
            ∃ t, exec .copyRowDelivery s = .next t ∧ (∀ m b, t.byte m b = (if left = [] then marks u else u).byte m b) ∧
              (if left = [] then (at' t).rows = [] else ∃ q, (at' t).rows = [q] ∧ q.left = left ∧ q.data = r.data)))) ∧
    (∀ (old new : List Byte) (i : Nat), combine 0 old new = new ∧ (new.length % 4 = 0 → 4 * i < new.length →
      let w (l : List Byte) : Nat := ofBytes ((l.drop (4 * i)).take 4)
      w (combine 1 old new) = (w old + w new) % 2 ^ 32 ∧ w (combine 2 old new) = rF32 (FV.sum [f32 (w old), f32 (w new)]))) ∧
    (∀ (c : CoreId) (a n : Nat) (u : State), ∃ b, Bar.ofBytes (rdCells ((barDeliver c a n u).core c).store (alignDown a 16) 16) = b ∧
      let o := Bar.ofBytes (rdCells (u.core c).store (alignDown a 16) 16)
      let p : W32 := o.pending - BitVec.ofNat 32 n
      b = if o.expect.toNat ≤ o.arrived.toNat ∧ p = 0 then ⟨o.phase ^^^ 1, o.expect, 0, p⟩ else { o with pending := p })) ∧
  (∀ (s : State),
    let k : CoreId := ⟨s.arg.die, s.arg.core⟩
    let w : Fin 8 := Fin.ofNat 8 s.arg.unit
    let x := (s.core k).wins[w.val]
    let d := x.desc
    let at' (t : State) : Win := (t.core k).wins[w.val]
    let all := List.range (wRBytes d)
    let pick (l : List Nat) : Nat × Nat := pickRun l s.arg.va.toNat s.arg.val.toNat false
    x.opn = true → x.closing = false → x.err = none → x.miss = none →
    let t := winTenant s k w
    (wDir d = 0 → s.arg.ok = true → openerRuns s x = true → x.next < wTRows d → x.next < x.ret + wNSlot d → x.rows = [] →
      firstSome (fun a => csCheck (s.core k) (BitVec.ofNat 64 a)) (winRowAddrs d x.next) = none →
      ∀ q, pageReq s k t (winRowVa d x.next) (wRBytes d) (pick all).1 (pick all).2 false false = .req q → q.home s = k.die → q.stale s = false →
        engineQueues s k.die false q.cells = false →
        ∃ u, exec .windowRowDelivery s = .next u ∧ SameMem s u ∧ (at' u).next = x.next + 1 ∧ (at' u).rows =
          [{ WRow.start d x.next s.fresh.1 with
            data := setSlice (List.replicate (wRBytes d) 0) q.off (q.cells.map (dpaRead s)), need := outside q.off q.n all }]) ∧
    (∀ r, wDir d = 0 → s.arg.ok = false → x.rows = [r] → r.id = s.arg.num → r.done = false → r.hold = false →
      hostOut s (.winRow k w r.id) = false → r.need = [] → r.data.length = wRBytes d →
      let as := winRowAddrs d r.n
      let p := pick r.left
      let cs := (as.drop p.1).take p.2
      as.Nodup →
      ∃ t u, exec .windowRowDelivery s = .next t ∧ (∀ b ∈ cs.zip ((r.data.drop p.1).take p.2), u.byte (.store k) b.1 = b.2) ∧
        (∀ m b, (m = .store k → b ∉ cs) → u.byte m b = s.byte m b) ∧
        (∀ m b, t.byte m b = (if outside p.1 p.2 r.left = [] ∧ wBarV d = 1 then barDeliver k (wBar d) (wRBytes d) u else u).byte m b) ∧
        (outside p.1 p.2 r.left = [] → (at' t).rows = [] ∧ (at' t).done = x.done + 1) ∧
        (outside p.1 p.2 r.left ≠ [] → (at' t).done = x.done ∧ ∃ q, (at' t).rows = [q] ∧ q.left = outside p.1 p.2 r.left ∧ q.data = r.data)) ∧
    (wDir d = 1 → s.arg.ok = true → openerRuns s x = true → x.next < x.ret → (∀ r ∈ x.rows, r.id ≠ s.fresh.1) →
      let as := winRowAddrs d x.next
      let p := pick all
      firstSome (fun a => csCheck (s.core k) (BitVec.ofNat 64 a)) as = none →
      exec .windowRowStore s = .next (modWin k w (fun y =>
        { y with
          next := y.next + 1
          rows := y.rows ++ [{ WRow.start d x.next s.fresh.1 with
            data := setSlice (List.replicate (wRBytes d) 0) p.1 (((as.drop p.1).take p.2).map (rdCell (s.core k).store)), need := outside p.1 p.2 all }] })
        s.fresh.2)) ∧
    (∀ r, wDir d = 1 → s.arg.ok = false → x.rows = [r] → r.id = s.arg.num → r.done = false → r.hold = false →
      hostOut s (.winRow k w r.id) = false → r.need = [] →
      (∀ q, r.left ≠ [] → r.hop = .start → r.req = none →
        pageReq s k t (winRowVa d r.n) r.data.length (pick r.left).1 (pick r.left).2 true false = .req q → q.home s = k.die → q.stale s = false →
        engineQueues s k.die true q.cells = false →
        let v := storeCells q.cells ((r.data.drop q.off).take q.n) s
        ∃ u, exec .windowRowStore s = .next u ∧
          (∀ m b, u.byte m b = (if outside q.off q.n r.left = [] ∧ wBarV d = 1 then barDeliver k (wBar d) (wRBytes d) v else v).byte m b) ∧
          (outside q.off q.n r.left = [] → (at' u).rows = [] ∧ (at' u).done = x.done + 1) ∧
          (outside q.off q.n r.left ≠ [] → (at' u).done = x.done ∧ (at' u).rows = [{ r with left := outside q.off q.n r.left, refusals := 0 }])) ∧
      (r.left = [] →
        ∃ u, exec .windowRowStore s = .next u ∧ (∀ m b, u.byte m b = (if wBarV d = 1 then barDeliver k (wBar d) (wRBytes d) s else s).byte m b) ∧
          (at' u).rows = [] ∧ (at' u).done = x.done + 1)))

/-- R90, R366, R396 to R401: a team barrier whose participants have all arrived counts the cycles of its scope, and then releases every context that has
arrived; at pod scope, within its bound, a release may reach one of them earlier. The outcome of a formed round whose members agree (R397) goes to a member's
flags and lets it go on: past its CBR.WAIT, or off its path. Where the leaf followed is the one that stands the registers stand, and the held entries perform
in issue order until one meets a range that a command uses, a busy tile or a full table; where it is not, the registers are those of the CBR point, every
matrix register that the path wrote is as its copy has it, and the bundle is performed again under the actual leaf. A round whose time has run out forms
without the absent members. -/
def Obligations.BarriersAndRounds : Prop :=
  (∀ (s : State) (r : Barrier),
    (r ∈ s.barriers → r.left = none → barrierMet s r = true → barrierPaths s r = true →
      { r with left := some (if r.scope = 5 then 3398 else if r.scope = 1 then 8 else if r.scope = 2 then 24 else if r.scope = 3 then 60 else 200) } ∈
        (meetBarriers s).barriers) ∧
    (s.barriers.find? (fun q => q.id == s.arg.id) = some r →
      (r.due = true → ∃ t, exec .barrierRelease s = .next t ∧ t.barriers = s.barriers.filter (fun q => q.id != r.id) ∧ SameMem s t ∧
        ∀ o : CtxId, t.ctx o = if o ∈ r.arrived ∧ (s.ctx o).att = .round r.id then { s.ctx o with att := .arrived r.id } else s.ctx o) ∧
      (r.due = false → r.left.isSome = true → r.scope = 5 → s.arg.ok = true →
        let c : CtxId := ⟨s.arg.die, s.arg.core, s.arg.ctx⟩
        c ∈ r.arrived → (s.ctx c).att = .round r.id →
        ∃ t, exec .barrierRelease s = .next t ∧ t.ctx c = { s.ctx c with att := .arrived r.id } ∧ SameOthers c s t ∧ SameMem s t) ∧
      (barrierReady r = false → exec .barrierRelease s = .next s))) ∧
  (∀ (s : State) (r : Round) (m : Member),
    let c : CtxId := ⟨s.arg.die, s.arg.core, s.arg.ctx⟩
    let x := s.ctx c
    s.rounds.find? (fun q => q.id == s.arg.id) = some r →
    (r.formed = none → r.sent = false → roundExpired s r = true →
      let gone := (List.range r.count).filter fun i => !r.seen.contains i && !(leftOf s r).contains i
      gone ≠ [] → ∃ t, exec .collectiveTimeout s = .next t ∧ SameMem s t ∧ (∀ o, t.ctx o = s.ctx o) ∧
        ∃ q ∈ t.rounds, q.id = r.id ∧ q.formed = some (r.acc, gone.length) ∧ q.absent = gone) ∧
    (∀ v n, r.formed = some (v, n) → r.members.find? (fun m => m.c == c) = some m → outcomeReady r m = true → x.b.uid = m.uid →
      r.scope ≤ 5 → groupOdd s r = false →
      ∃ t, exec .cbrOutcome s = .next t ∧
        ((∀ p, x.spec = some p → p.held = []) → rdFlag (t.core c.coreId).store m.flag = (if v then 1 else 0) ∧
          rdFlag (t.core c.coreId).store (m.flag + 1) = BitVec.ofNat 32 (2 ^ 31 + (if n = 0 then 0 else 0x0C0000) + min n 65535)) ∧
        (x.att = .round r.id → t.ctx c = { x with att := .arrived r.id }) ∧
        (∀ p, x.att = .none → x.spec = some p → p.round = r.id →
          (standingLeaf p v = p.leaf → p.held = [] → t.ctx c = { x with
            spec := none, trap := p.trap <|> x.trap, arch := if p.trap.isSome then { x.arch with run := x.arch.run + 1 } else x.arch }) ∧
          (standingLeaf p v = p.leaf → ∃ w, SameMemBut c.coreId (4 * m.flag) 8 s w ∧ rdFlag (w.core c.coreId).store m.flag = (if v then 1 else 0) ∧
            w.ctx c = { x with spec := some { p with round := 0 } } ∧ SameOthers c s w ∧ (∀ k, (w.core k).cmds = (s.core k).cmds) ∧
            let g := releaseHeld c p.held w
            (g.1 = [] → (t.ctx c).spec = none ∧ (t.ctx c).trap = (p.trap <|> (g.2.ctx c).trap)) ∧
            (g.1 ≠ [] → (t.ctx c).spec = some { p with round := 0, held := g.1 } ∧ (t.ctx c).arch = (g.2.ctx c).arch) ∧
            (t.ctx c).z = (g.2.ctx c).z ∧ (∀ k, (t.core k).cmds = (g.2.core k).cmds) ∧ SameMem g.2 t) ∧
          (standingLeaf p v ≠ p.leaf → (t.ctx c).arch = p.point ∧ (t.ctx c).flights = [] ∧ (t.ctx c).spec = none ∧
            (t.ctx c).att = .forced (standingLeaf p v) 4 ∧ (t.ctx c).stall = 0 ∧ (p.mcopy = [] → (t.ctx c).mreg = x.mreg) ∧
            ((p.mcopy.map Prod.fst).Nodup → (∀ e ∈ p.mcopy, (e.2.map Prod.fst).Nodup ∧ ∀ w ∈ e.2, w.1 / 1024 = e.1) →
              (∀ e ∈ p.mcopy, ∀ n, n / 1024 = e.1 → rdCell (t.ctx c).mreg n = rdCell e.2 n) ∧
              (∀ n, (∀ e ∈ p.mcopy, n / 1024 ≠ e.1) → rdCell (t.ctx c).mreg n = rdCell x.mreg n)))))) ∧
  (∀ (c : CtxId) (h : Held) (l : List Held) (u : State),
    let k := c.coreId
    let room (a n : Nat) : Prop := busyAny (u.core k) a n = false
    releaseHeld c [] u = ([], u) ∧
    (releaseOne c h u = none → releaseHeld c (h :: l) u = (h :: l, u)) ∧
    (∀ t, releaseOne c h u = some t → releaseHeld c (h :: l) u = releaseHeld c l t) ∧
    (∀ a bs, h = .store a bs → (¬ room a bs.length → releaseOne c h u = none) ∧
      (room a bs.length → ∃ t, releaseOne c h u = some t ∧ SameMemBut k a bs.length u t ∧ ∀ i b, bs[i]? = some b → t.byte (.store k) (a + i) = b)) ∧
    (∀ n v, h = .fadd n v → (¬ room (4 * n) 4 → releaseOne c h u = none) ∧
      (room (4 * n) 4 → ∃ t, releaseOne c h u = some t ∧ SameMemBut k (4 * n) 4 u t ∧
        rdFlag (t.core k).store n = rdFlag (u.core k).store n + v)) ∧
    (∀ b v, h = .flags b v → (¬ room (4 * b) 128 → releaseOne c h u = none) ∧
      (room (4 * b) 128 → ∃ t, releaseOne c h u = some t ∧ SameMemBut k (4 * b) 128 u t ∧
        ∀ j, j < 32 → rdFlag (t.core k).store (b + j) = if v.getLsbD j then 1 else 0)) ∧
    (∀ z b ws, h = .acc z b ws → releaseOne c h u = if tileBusy u c z then none else some (u.modCtx c (putAcc z b ws))) ∧
    (∀ i v idx, h = .cmd i v idx → releaseOne c h u = if tableRoom c i v idx u then some (enterCmd c i v idx u) else none) ∧
    (∀ n, h = .wait n → releaseOne c h u = none))

/-- R391 to R395: four valid plans that have met, those of the package's dies, start the draining of the links they name, plans that do not agree end the
reconfiguration with 2 in each member's flag (that the plans of the dies of other packages have met and agree is what the event's `ok` says, or the pod has
four dies, is the model's choice, log 9); drained links are asked of the cross-connect, by the circuit code of each; its confirmation sets the circuits, and
with none left to train installs the routes, counts TGEN on every die, gives each member the new generation and 1 in its flag; without a confirmation for 1 s
it ends with 3. -/
def Obligations.Reconfigurations : Prop :=
  ∀ (s : State) (r : Reconf),
    let gid : W16 := BitVec.ofNat 16 s.arg.id
    let ends (v : W32) (t : State) : Prop := reconfOf t r.tenant r.gid = none ∧
      ∀ m ∈ r.members, rdFlag (t.core m.c.coreId).store m.flag = v
    let counts (t : State) : Prop := ∀ d : Fin 4, (t.die d).tgen = (s.die d).tgen + 1
    let good := r.members.all (planValid s) && plansAgree s r.members && (s.arg.ok || podDies s == 4)
    reconfOf s s.arg.tenant gid = some r →
    (r.stage = .arriving → 4 ≤ r.members.length → r.members.all PlanArrival.met = true →
      (good = false → ∃ t, exec .reconfMeet s = .next t ∧ ends 2 t) ∧
      (good = true → ∃ t, exec .reconfMeet s = .next t ∧
        reconfOf t s.arg.tenant gid = some { r with stage := .draining } ∧ SameMem s t ∧
        ∀ p ∈ planLinks r, (linkOf t p.1 p.2).draining = true)) ∧
    (r.stage = .draining → linksDrained s r = true → ∃ t q, exec .reconfMeet s = .next t ∧ reconfOf t s.arg.tenant gid = some q ∧
      q.stage = .asked ∧ q.start = (s.die 0).ptb ∧ q.members = r.members ∧
      ∀ m ∈ r.members, ∀ l : Fin 6, circSet m.plan l = true →
        CrossMsg.circuit m.c.die l (BitVec.ofNat 32 (planNat m.plan (0x10 + 8 * l.val + 4) 4)) ∈ t.crossOut) ∧
    (r.stage = .asked →
      (planLinks r = [] → ∃ t, exec .crossconnectConfirm s = .next t ∧ ends 1 t ∧ counts t ∧
        ∀ m ∈ r.members, (s.ctx m.c).b.uid = m.uid → (t.arch m.c).ctgen = (s.die m.c.die).tgen + 1) ∧
      ((r.members.map fun m => m.c.die).Nodup →
        (∃ m ∈ r.members, ∃ l, circSet m.plan l = true ∧ planUsed m.plan l = true ∧ (planFar s m.c.die m.plan l).isSome = true) →
        ∃ t q, exec .crossconnectConfirm s = .next t ∧ reconfOf t s.arg.tenant gid = some q ∧ q.stage = .training ∧ q.todo ≠ []) ∧
      (10 ^ 9 ≤ ((s.die 0).ptb - r.start).toNat →
        ((∀ p ∈ r.prev, p.up = false) → ∃ t, exec .reconfTimeout s = .next t ∧ ends 3 t ∧ counts t) ∧
        ((∃ p ∈ r.prev, p.up = true) → ∃ t q, exec .reconfTimeout s = .next t ∧ reconfOf t s.arg.tenant gid = some q ∧
          q.stage = .restoring)))

/-- R378 to R390: a PUT sends its bytes in flits of at most 236, with their place, from its core's store or its VA; its target writes them as the event picks
them, into a core's store or at a VA, counts the flag after the last and acknowledges, and refuses with PERMISSION what the target core does not own. A GET
and a RAMO send a request; the target of a GET sends the bytes back, that of a RAMO writes its result and keeps the old value; the acknowledgement counts the
sender's flag or raises the error; GET data and a RAMO's old value land in the sender's store or at its VA, piece by piece. A link-buffer message fills the
far buffer, each chunk counted at the buffer's counting object; the last leaves it FULL, and frees the sender. A request of another package's die becomes an
operation served here, whose answer goes back to that die; what goes to another package says its tenant and descriptor first (the layout of these flits, the
place of their bytes among it, is the model's, PRESUMED, log 18). -/
def Obligations.RemoteEvents : Prop :=
  ∀ (s : State) (r : Rop),
    let k : CoreId := ⟨r.dest, ropCore r.desc⟩
    let w0 : CoreId := ⟨r.dest, 0⟩
    let h := r.owner.coreId
    let upd (f : Rop → Rop) (u : State) : State := { u with rops := u.rops.map fun q => if q.id = r.id then f q else q }
    let drop (u : State) : State := { u with rops := u.rops.filter fun q => q.id != r.id }
    let quiet' := r.hold = false ∧ r.err = none ∧ ropFaulted s r.id = false ∧ hostOut s (.remote r.id) = false
    let sends := s.arg.ok = false ∧ r.stage = 0 ∧ r.origin = none ∧ ropBlocked s r = false
    let goes := r.away = none ∧ s.arg.ok = true ∧ r.stage ≠ 5 ∧ earlierAt s r.owner r.uid r.id (r.remoteCells s) = false
    let pick (l : List Nat) : Nat × Nat := pickRun l s.arg.va.toNat s.arg.val.toNat false
    let chunk (l : List Nat) : Nat × Nat := ((pick l).1, min (pick l).2 236)
    let n := upTo s (min 236 (r.len - r.moved))
    let far := r.away.getD (dieId s r.dest)
    let before (f : Flit) : List Flit := if r.away.isSome = true ∧ r.moved = 0 then [f] else []
    let counts (u : State) : State := if ropLfv r.desc then incFlag h (ropLflag r.desc) u else u
    let owned := (s.ctx r.owner).b.uid = r.uid ∧ (s.ctx r.owner).st.bound = true
    let found := s.rops.find? (fun q => q.id == s.arg.id) = some r
    let answer : BitVec 12 × Req := match r.origin with
      | some o => (o.1, .away o.1 o.2)
      | none => (dieId s r.src, .remote r.id)
    let served (c : CoreId) (write : Bool) (q : PageReq) : Prop := q.stale s = false ∧ q.home s = c.die ∧ engineQueues s c.die write q.cells = false
    let used (c : CoreId) (va : Nat) (write : Bool) (q : PageReq) : State :=
      noteUse c.die write q.cells (cacheRoute c.die (.dpa q.dpa) (walkPages c r.tenant va 1 s))
    let refused (cause : Byte) : Prop :=
      (r.origin = none → ∃ t q, exec .remoteRequest s = .next t ∧ q ∈ t.rops ∧ q.id = r.id ∧ q.err = some ⟨cause, r.desc.extractLsb' 64 64⟩ ∧ SameMem s t) ∧
      (∀ o, r.origin = some o → exec .remoteRequest s =
        .next (routeFlit r.dest ⟨.failed, 1, dieId s r.dest, o.1, .away o.1 o.2, 0, [cause], 0, false⟩ (drop s)))
    (found → quiet' →
      (sends → r.kind = .put →
        let p := chunk r.need
        let sent (u : State) (o : Nat) (bs : List Byte) : Prop :=
          let f : Flit := ⟨.putData, 3, dieId s r.src, far, .remote r.id, o, bs, 0, false⟩
          let g : Flit := ⟨.putReq, 3, dieId s r.src, far, .remote r.id, 0, ropHead r, 0, false⟩
          let left := outside o bs.length r.need
          dieOfId s far ≠ some r.src → (linkOf s r.src (nextHop s r.src f)).up = true →
          exec .remoteRequest s = .next (modLink r.src (nextHop s r.src f) (fun l => { l with txq := l.txq ++ before g ++ [f] })
            (upd (fun q => { q with need := left, stage := if left = [] then 1 else 0 }) u))
        (ropLK r.desc = false → sent s p.1 (rdCells (s.core h).store (ropL r.desc + p.1) p.2)) ∧
        (∀ q, ropLK r.desc = true → pageReq s h r.tenant (ropL r.desc) r.len p.1 p.2 false false = .req q → served h false q →
          sent (used h (ropL r.desc + p.1) false q) q.off (q.cells.map (dpaRead s)))) ∧
      (sends → r.kind = .get ∨ (r.kind = .ramo ∧ ropLK r.desc = false) →
        exec .remoteRequest s = .next (routeFlit r.src
          ⟨if r.kind = .get then .getReq else .ramoReq, 2, dieId s r.src, far, .remote r.id, 0, ropHead r, 0, false⟩
          (upd (fun q => { q with stage := 1, cells := [] }) s))) ∧
      (goes → r.kind = .put → r.data ≠ [] → r.stage ≠ 3 →
        let p := pick (r.data.map Prod.fst)
        let took (o n : Nat) (w : State) : Prop :=
          let left := outside o n r.left
          (left ≠ [] → ∃ t q, exec .remoteRequest s = .next t ∧ SameMem w t ∧ q ∈ t.rops ∧
            q = { r with left := left, data := r.data.filter fun b => decide (b.1 < o) || decide (o + n ≤ b.1) }) ∧
          (left = [] → ∃ t, exec .remoteRequest s = .next t ∧
            rdFlag (t.core k).store (ropRflag r.desc) = rdFlag (w.core k).store (ropRflag r.desc) + 1 ∧
            SameMemBut k (4 * ropRflag r.desc) 4 w t ∧ (∀ q ∈ t.rops, q.id = r.id → r.origin = none ∧ q.stage = 3))
        (ropRK r.desc = 0 →
          let bs := r.bytes p.1 p.2
          (ropCoreOk s r = true → took p.1 bs.length (csWrite k (ropAddr .put r.desc + p.1) bs s)) ∧
          (ropCoreOk s r = false → refused 0x11)) ∧
        (ropRK r.desc ≠ 0 →
          ((s.core k).tenant ≠ some r.tenant → refused 0x11) ∧
          (∀ q, (s.core k).tenant = some r.tenant → pageReq s w0 r.tenant (ropAddr .put r.desc) r.len p.1 p.2 true false = .req q → served w0 true q →
            r.hasBytes q = true → took q.off q.n (storeCells q.cells (r.bytes q.off q.n) s)) ∧
          (∀ e, (s.core k).tenant = some r.tenant → pageReq s w0 r.tenant (ropAddr .put r.desc) r.len p.1 p.2 true false = .err e → refused 0x11))) ∧
      (goes → r.kind = .get → r.stage = 2 →
        let p := chunk r.need
        let a := ropAddr .get r.desc
        let back (u : State) (o : Nat) (bs : List Byte) : Prop :=
          let left := outside o bs.length r.need
          exec .remoteRequest s = .next (routeFlit r.dest ⟨.getData, 1, dieId s r.dest, answer.1, answer.2, o, bs, 0, false⟩
            (if left = [] then (if r.origin.isSome = true then drop u else upd (fun q => { q with need := left, stage := 3 }) u)
             else upd (fun q => { q with need := left }) u))
        (ropRK r.desc = 0 →
          (ropCoreOk s r = true → back s p.1 (rdCells (s.core k).store (a + p.1) p.2)) ∧ (ropCoreOk s r = false → refused 0x11)) ∧
        (ropRK r.desc ≠ 0 →
          (∀ q, pageReq s w0 r.tenant a r.len p.1 p.2 false false = .req q → served w0 false q →
            back (used w0 (a + p.1) false q) q.off (q.cells.map (dpaRead s))) ∧
          (∀ e, pageReq s w0 r.tenant a r.len p.1 p.2 false false = .err e → refused 0x11))) ∧
      (goes → r.kind = .ramo → r.stage = 2 →
        let m := ropSize r.desc
        let a := ropAddr .ramo r.desc
        let keeps (old : Nat) (t : State) : Prop := r.origin = none → ∃ q ∈ t.rops, q.id = r.id ∧ q.stage = 3 ∧ q.old = BitVec.ofNat 64 old
        (ropRK r.desc = 0 →
          (ropCoreOk s r = true →
            let old := rdLE (s.core k).store a m
            ∃ t, exec .remoteRequest s = .next t ∧ SameMemBut k a m s t ∧
              rdLE (t.core k).store a m = amoOp (ropLen r.desc % 16) m old (ropOpnd r.desc) % 2 ^ (8 * m) ∧ keeps old t) ∧
          (ropCoreOk s r = false → refused 0x11)) ∧
        (ropRK r.desc ≠ 0 →
          (∀ q, pageReq s w0 r.tenant a r.len 0 m true true = .req q → served w0 true q →
            let old := ofBytes (q.cells.map (dpaRead s))
            (oneElement s q.dpa m = true → ∃ t, exec .remoteRequest s = .next t ∧ keeps old t ∧ ∀ l b, t.byte l b =
              (storeCells q.cells (toBytes m (amoOp (ropLen r.desc % 16) m old (ropOpnd r.desc))) s).byte l b) ∧
            (oneElement s q.dpa m = false → refused 0x11)) ∧
          (∀ e, pageReq s w0 r.tenant a r.len 0 m true true = .err e → refused e.cause)))) ∧
    (s.rops.find? (fun q => q.id == s.arg.id && q.kind == .put && q.stage == 4) = some r → owned →
      (r.err = none → exec .putAck s = .next (counts (drop s))) ∧
      (∀ e, r.err = some e → exec .putAck s = .next ((drop s).modCtx r.owner fun x => { x with late := x.late ++ [⟨e, 5, false⟩] }))) ∧
    (s.rops.find? (fun q => q.id == s.arg.id && q.kind == .get) = some r → owned → quiet' → r.origin = none → r.data ≠ [] →
      earlierAt s r.owner r.uid r.id (r.localCells s) = false →
      let p := pick (r.data.map Prod.fst)
      let left (o n : Nat) : List Nat := outside o n r.left
      let rest (o n : Nat) (u : State) : State := upd (fun _ =>
        { r with left := left o n, data := r.data.filter fun b => decide (b.1 < o) || decide (o + n ≤ b.1) }) u
      (ropLK r.desc = false →
        let bs := r.bytes p.1 p.2
        ropL r.desc + p.1 + bs.length ≤ csSize →
        let w := csWrite h (ropL r.desc + p.1) bs s
        (left p.1 p.2 = [] → exec .getData s = .next (counts (drop w))) ∧
        (left p.1 p.2 ≠ [] → exec .getData s = .next (rest p.1 p.2 w))) ∧
      (∀ q, ropLK r.desc = true → pageReq s h r.tenant (ropL r.desc) r.len p.1 p.2 true false = .req q → served h true q →
        (r.bytes q.off q.n).length = q.n →
        let w := storeCells q.cells (r.bytes q.off q.n) (used h (ropL r.desc + p.1) true q)
        (left q.off q.n = [] → exec .getData s = .next (counts (drop w))) ∧
        (left q.off q.n ≠ [] → exec .getData s = .next (rest q.off q.n w)))) ∧
    (s.rops.find? (fun q => q.id == s.arg.id && q.kind == .ramo && q.stage == 4) = some r → owned → r.err = none →
      earlierAt s r.owner r.uid r.id (r.localCells s) = false →
      let p := pickRun r.left s.arg.va.toNat s.arg.val.toNat (r.cells.any fun a => (regionOf s a).isSome)
      let bs := ((toBytes 8 r.old.toNat).drop p.1).take p.2
      let cells := (r.cells.drop p.1).take p.2
      let ends (w : State) : Prop :=
        (outside p.1 p.2 r.left = [] → exec .ramoResult s = .next (counts (drop w))) ∧
        (outside p.1 p.2 r.left ≠ [] → ∃ t q, exec .ramoResult s = .next t ∧ SameMem w t ∧ q ∈ t.rops ∧ q.id = r.id ∧ q.left = outside p.1 p.2 r.left)
      (ropLK r.desc = false → ropL r.desc + 8 ≤ csSize → p.1 + bs.length ≤ 8 → ends (csWrite h (ropL r.desc + p.1) bs s)) ∧
      (ropLK r.desc = true → ends (storeCells cells bs (noteWrite r.owner.die cells s)))) ∧
    (s.rops.find? (fun q => q.id == s.arg.id && q.kind == .lbsend && !q.hold) = some r →
      (s.arg.ok = false → r.moved ≠ r.len → r.origin = none → r.err = none → arrivingLb s r.src r.lb = [] →
        let e : Flit := ⟨.lbReq, 3, dieId s r.src, far, .lbSend r.id, 0, [r.tenant.setWidth 8, BitVec.ofNat 8 r.lbTo.val] ++ toBytes 4 r.len, 0, false⟩
        let f : Flit := ⟨.lbData, 3, dieId s r.src, far, .lbSend r.id, r.moved, rdCells ((s.die r.src).lbs[r.lb.val]).bytes r.moved n, 0, false⟩
        (linkOf s r.src (Fin.ofNat 6 r.desc.toNat)).up = true → exec .lbMessage s =
        .next (modLink r.src (Fin.ofNat 6 r.desc.toNat) (fun l => { l with txq := l.txq ++ before e ++ [f] })
          (upd (fun q => { q with need := q.need.drop n }) s))) ∧
      (s.arg.ok = true → r.stage ≠ 5 → r.data ≠ [] → r.away = none → lbSaved s r.dest r.lbTo = false →
        let l := (s.die r.dest).lbs[r.lbTo.val]
        let m := upTo s r.data.length
        let bs := (r.data.take m).map Prod.snd
        let w := modLb r.dest r.lbTo (fun l => { l with st := .filling, bytes := wrCells l.bytes r.arrived bs }) s
        let w := match l.obj, l.holder with
          | some a, some c => barDeliver c.coreId a bs.length w
          | _, _ => w
        l.tenant = r.tenant → l.st = .empty ∨ r.arrived ≠ 0 → (r.arrived = 0 → l.holder.isSome = true ∧ lbFirst s r = true) →
        (r.arrived + bs.length < r.len → exec .lbMessage s =
          .next (upd (fun q => { q with left := q.left.drop bs.length, data := q.data.drop m }) w)) ∧
        (r.len ≤ r.arrived + bs.length →
          let full := modLb r.dest r.lbTo (fun l => if l.closeAfter then LinkBuf.close { l with st := .full }
            else if l.emptyAfter then { l with st := .empty, emptyAfter := false } else { l with st := .full }) w
          (r.origin = none → exec .lbMessage s = .next (drop (modLb r.src r.lb (fun l => { l with sending := none }) full))) ∧
          (∀ o, r.origin = some o → exec .lbMessage s =
            .next (routeFlit r.dest ⟨.putAck, 1, dieId s r.dest, o.1, .away o.1 o.2, 0, [], 0, false⟩ (drop full)))))) ∧
    (∀ (f : Flit) (a : BitVec 12) (i : BitVec 16) (d : Fin 4) (t : BitVec 4) (e : BitVec 256),
      f.tag = .away a i → dieOfId s f.dest = some d → (∀ q ∈ s.rops, q.has f.tag = false) →
      f.data = toBytes 1 t.toNat ++ toBytes 32 e.toNat →
      (f.kind = .putReq ∨ f.kind = .getReq ∨ f.kind = .ramoReq) →
      ∃ q, (deliverFlit f s).rops = s.rops ++ [q] ∧ q.origin = some (a, i) ∧ q.tenant = t ∧ q.desc = e ∧ q.dest = d ∧ q.away = none ∧
        q.kind = (match f.kind with
          | .putReq => .put
          | .getReq => .get
          | _ => .ramo))

/-- R371 to R377: a receiver takes the flit with the sequence number that it expects, counts its credit and acknowledges by its next, else it asks for a
repeat and the sender begins again at the oldest flit kept; at a flit that fails as it is first sent and in three replays, here or at a far end in another
package, the link stops carrying flits, takes a spare lane, or falls to 8 lanes, and trains; a lane repair that is due replaces that lane once no replay is
outstanding, and waits until then; a trained link is up at both ends, and one that does not train is out of service at both. Each 10 µs a die sends its time
on to the neighbours that follow it; a receiver that was never set takes the time, one that had lost its path steps forward to it or slows down toward it,
and a locked one changes its rate; a die without its parent takes a nearer neighbour, or PTBLOST is set. The master is the die with the lowest identifier
among the locked dies of this package and those that other packages have named (log 18). For a link to another package these are events of its end here (log
9). -/
def Obligations.LinksAndTime : Prop :=
  (∀ (s : State),
    let d := s.arg.die
    let l : Fin 6 := Fin.ofNat 6 s.arg.unit
    let x := linkOf s d l
    let y := linkOf s x.farDie x.farLink
    let near := x.out = none ∧ (x.farDie ≠ d ∨ x.farLink ≠ l)
    let spare (z : Link) : Link := if 0 < z.spares then { z with spares := z.spares - 1 } else { z with lanes8 := true, training := true }
    let mend (n : Fin 18) (z : Link) : Link := { z with laneErr := z.laneErr.set n.val 0, repairDue := z.repairDue.filter (· != n) }
    let fails (z : Link) : Prop := 4 ≤ z.fails ∨ 4 ≤ z.rejects
    let trains (z : Link) : Link := { z with training := true, fails := 0, rejects := 0 }
    let again (z : Link) : Link := { z with sent := 0, again := z.replay.length }
    let took (f : Flit) (e : BitVec 12) (u : State) : State := acceptFlit d l f (returnCredits d l (modLink d l (fun z =>
      ({ z with
        expect := z.expect + 1, fails := 0, awaits := z.awaits - 1, nack := false, credit := z.credit.set f.chan.val (z.credit[f.chan.val] + f.credit)
        owed := if f.kind = .credits then z.owed else z.owed.set f.chan.val (z.owed[f.chan.val] + 1) } : Link).ack e) u))
    let missed (q : BitVec 12) (u : State) : State :=
      modLink d l (fun z => { z with
        nack := true, fails := if q = z.expect then z.fails + 1 else z.fails
        awaits := if (q - z.expect).toNat < 2048 then max z.awaits ((q - z.expect).toNat + 1) else z.awaits }) u
    let trained (z : Link) : Link :=
      { z with
        training := false, up := true, sent := 0, again := z.replay.length, fails := 0, nack := false
        delay := if s.arg.val.toNat / 2 = 0 then z.delay else s.arg.val.toNat / 2 }
    (exec .ackTimeout s = .next (modLink d l (fun z => if z.sent = z.replay.length then again z else z) s)) ∧
    (linkRuns s d l = true →
      (∀ q f y', near → wireNext y = some ((q, f), y') →
        let u := modLink x.farDie x.farLink (fun _ => y') s
        (s.arg.ok = true → q = x.expect → exec .flitReceive s = .next (took f y'.expect u)) ∧
        ((s.arg.ok = false ∨ q ≠ x.expect) → exec .flitReceive s = .next (missed q u))) ∧
      (∀ q a f, x.out.isSome = true → s.arg.data ≠ [] → wireFlit s s.arg.data = some (q, a, f) →
        (s.arg.ok = true → q = x.expect → exec .flitReceive s = .next (took f (a + 1) (comesHome f s))) ∧
        ((s.arg.ok = false ∨ q ≠ x.expect) → exec .flitReceive s = .next (missed q s))) ∧
      (∀ f x', x.out.isSome = true → s.arg.data = [] → wireNext x = some (f, x') →
        exec .flitReceive s = .next (goesAbroad x f.2 (modLink d l (fun _ => x') s))) ∧
      (x.out.isSome = true → s.arg.data ≠ [] → wireFlit s s.arg.data = none →
        exec .flitReceive s = .next (missed (BitVec.ofNat 12 s.arg.num) s)) ∧
      (near → x.nack = true → ∃ t, exec .negativeAcknowledgement s = .next t ∧ linkOf t d l = { x with nack := false } ∧
        linkOf t x.farDie x.farLink = again (y.ack x.expect)) ∧
      (x.out.isSome = true →
        (s.arg.ok = false → exec .negativeAcknowledgement s =
          let e : BitVec 12 := BitVec.ofNat 12 s.arg.num
          .next (modLink d l (fun z =>
            let z := z.ack e
            again (if z.rejSeq = e ∧ z.rejects ≠ 0 then (if s.arg.id = z.rejects ∧ 0 < z.sent then { z with rejects := z.rejects + 1 } else z)
              else { z with rejSeq := e, rejects := 1 })) s)) ∧
        (s.arg.ok = true → x.nack = true → exec .negativeAcknowledgement s = .next (modLink d l (fun z => { z with nack := false }) s))) ∧
      (∀ n r, s.arg.ok = false → x.repairDue = n :: r →
        (linkQuiet s d l = true → ∃ t, exec .laneRepair s = .next t ∧ linkOf t d l = spare (mend n x) ∧
          (near → linkOf t x.farDie x.farLink = spare y)) ∧
        (linkQuiet s d l = false → exec .laneRepair s = .next s))) ∧
    (linkUp s d l = true →
      (fails x → ∃ t, exec .linkRetrain s = .next t ∧ linkOf t d l = trains (spare (mend x.worst x)) ∧
        (near → linkOf t x.farDie x.farLink = trains (spare y))) ∧
      (near → ¬ fails x → fails y → y.out = none → y.farDie = d → y.farLink = l → ∃ t, exec .linkRetrain s = .next t ∧
        linkOf t x.farDie x.farLink = trains (spare (mend y.worst y)) ∧ linkOf t d l = trains (spare x)) ∧
      (fails x ∨ (x.out = none ∧ fails y) →
        exec .flitReceive s = .next s ∧ exec .negativeAcknowledgement s = .next s) ∧
      (¬ fails x → (x.out = none → ¬ fails y) → exec .linkRetrain s = .next s)) ∧
    (s.arg.ok = true → x.repairDue = [] →
      let n : Fin 18 := Fin.ofNat 18 s.arg.num
      (x.laneErr[n.val] < s.arg.id →
        exec .laneRepair s = .next (modLink d l (fun z => { z with laneErr := z.laneErr.set n.val (z.laneErr[n.val] + 1) }) s)) ∧
      (s.arg.id ≤ x.laneErr[n.val] →
        (linkRuns s d l = true → linkQuiet s d l = true → ∃ t, exec .laneRepair s = .next t ∧ linkOf t d l = spare (mend n x)) ∧
        (linkRuns s d l = false → exec .laneRepair s =
          .next (modLink d l (fun z => { z with laneErr := z.laneErr.set n.val (z.laneErr[n.val] + 1), repairDue := [n] }) s)))) ∧
    (x.training = true → trainsFor s d l = none →
      (s.arg.ok = true → ∃ t, exec .linkTrainComplete s = .next t ∧ linkOf t d l = trained x ∧
        (near → linkOf t x.farDie x.farLink = trained y)) ∧
      (s.arg.ok = false → ∃ t, exec .linkTrainComplete s = .next t ∧ (linkOf t d l).up = false ∧
        (near → (linkOf t x.farDie x.farLink).up = false)))) ∧
  (∀ (s : State),
    let d := s.arg.die
    let x := s.die d
    (x.ptbSent ≠ x.ptb.toNat / 10000 → ∃ t, exec .ptbTimeMessage s = .next t ∧ (t.die d).ptbSent = x.ptb.toNat / 10000 ∧ (t.die d).ptb = x.ptb ∧
      SameMem s t ∧ ∀ l : Fin 6, x.ptbLocked = true → x.ptbLost = false → ptbFollows s d l = true →
        ∃ f ∈ (linkOf t d l).txq, f.kind = .time ∧ f.vc = 0 ∧ f.src = dieId s d ∧ f.data = toBytes 8 x.ptb.toNat ++ toBytes 2 (ptbMaster s).toNat) ∧
    (let locked (i : BitVec 12) : Prop := (∃ e, (s.die e).ptbLocked = true ∧ dieId s e = i) ∨ s.ptbAfar = some i
     (∃ i, locked i) → locked (ptbMaster s) ∧ ∀ i, locked i → (ptbMaster s).toNat ≤ i.toNat) ∧
    (x.ptbSent = x.ptb.toNat / 10000 → exec .ptbTimeMessage s = .next s) ∧
    (∀ m, x.ptbMsg = some m →
      let late : Int := (m.toNat : Int) - x.ptb.toNat
      exec .ptbMessageReceive s = .next (s.setDie d (
        if x.ptbLocked = false then { x with
          ptb := if x.ptb.toNat ≤ m.toNat then m else x.ptb, ptbSlew := min late 0, ptbLocked := true, ptbLost := false, ptbMsg := none }
        else if x.ptbLost = true then
          (if x.ptb.toNat ≤ m.toNat then { x with ptb := m, ptbSlew := 0, ptbLost := false, ptbMsg := none }
           else { x with ptbSlew := late, ptbLost := decide (late < -2), ptbMsg := none })
        else { x with ptbSlew := late, ptbMsg := none }))) ∧
    (dieId s d ≠ ptbMaster s → (∀ l, x.ptbParent = some l → ptbNearer s d l = false) →
      (ptbDist s 4 d = none → exec .ptbParentLoss s =
        .next (s.setDie d { x with ptbParent := (ptbChoice s d).orElse fun _ => x.ptbParent, ptbLost := true, ptbSlew := 0 })) ∧
      (∀ m, (ptbDist s 4 d).isSome = true → ptbChoice s d = some m →
        exec .ptbParentLoss s = .next (s.setDie d { x with ptbParent := some m, ptbSlew := 0 }) ∧ (linkOf s d m).up = true)))

/-- R67, R70, R80, R88, R340 to R345, R359, R361, R363 to R365, R390: once in a cycle the dispatcher binds the task at the head of the first queue that has
one to a core that fits and belongs to its tenant, its record RUNNING, S0 to S3 its arguments and the pc its entry; scrubs end; a gang member starts at its
tick; a pre-emption is withdrawn after 4096 frozen cycles, stops the context's engines once its commands and writes are done, closes its admissions, saves
the context whole and frees it, and a restore brings it back. (That a core is kept for the task that it is scrubbed for and that its scrub sets every buffer
HOME are DESIGN CHOICE and DEDUCED, log 58; that one request is posted for each head and how it is withdrawn is DEDUCED, log 21; that deliveries accepted
before the admissions close complete before the save is DEDUCED, log 58; that a restore reads the task as the state holds it is the model's, log 16.) -/
def Obligations.DispatchEvents : Prop :=
  (∀ (s : State), (s.die s.arg.die).chosen = true → exec .dispatchChoice s = .next s) ∧
  (∀ (s0 : State) (p : Nat) (t : BitVec 4) (r : W64) (l : List W64) (k : Take) (i : Fin 16),
    let d := s0.arg.die
    let s := s0.modDie d fun x => { x with chosen := true }
    let q := qIdx t p
    (s0.die d).chosen = false → frameGangs s0 d = [] → checkHeads d s = s → p < 4 →
    (∀ n, p < n → n < 4 → ∀ u, headPlan s d n u = none) → (tenantOrder s d p).head? = some t →
    qAll (s.die d) q = r :: l → savedOf s t r = none → takeOf s d q r = some k → rdRec s ⟨d, 0⟩ t r 0x24 4 % 2 ^ 16 = 0 →
    (∀ j : Fin 16, (s.core ⟨d, j⟩).want ≠ some (t, r)) → (coreOrder s d).find? (fun c => fits s ⟨d, c⟩ t r k.prio.toNat k.hdr k.aff.toNat) = some i →
    (needsScrub (s.core ⟨d, i⟩) t = false →
      exec .dispatchChoice s0 =
        .next (postRequest d none (useCredit d p t (bindTask ⟨d, i⟩ t k k.prio.toNat 0 1 0 none (qTake d q r s))))) ∧
    ((s.core ⟨d, i⟩).scrub = none → (s.core ⟨d, i⟩).tenant ≠ some t → exec .dispatchChoice s0 = .next (postRequest d none
      (s.modCore ⟨d, i⟩ fun x => { x with scrub := some (t, 1024), tenant := none, want := some (t, r) })))) ∧
  (∀ (s : State) (c : CoreId) (t : BitVec 4) (k : Take) (p : Nat) (i : Fin 8) (b : Nat),
    freeCtx (s.core c) = some i → bufRun (s.core c) k.hdr.bufs = some b →
    let x := (bindTask c t k p 0 1 0 none s).ctx ⟨c.die, c.core, i⟩
    let y := s.ctx ⟨c.die, c.core, i⟩
    x.st = .ready ∧ x.b.tenant = t ∧ x.b.task = k.task ∧ x.b.hdr = k.hdr ∧ x.b.prio = BitVec.ofNat 2 p ∧ x.b.uid = s.nextId ∧
    x.b.feat = (s.die c.die).feat ∧ x.arch.ctgen = (s.die c.die).tgen ∧ x.arch.pc = k.hdr.entry ∧ x.flights = y.flights ∧ x.mreg = y.mreg ∧
    (y.arch.rot = 0 → x.arch.rdS 0 = k.args ∧ x.arch.rdS 1 = (if k.hdr.cstore = 0 then 0 else BitVec.ofNat 64 (0x10000 * b)) ∧
      x.arch.rdS 2 = 0 ∧ x.arch.rdS 3 = 1 ∧ ∀ n, 4 ≤ n → n < 64 → x.arch.rdS n = y.arch.rdS n)) ∧
  (∀ (s : State),
    let c : CtxId := ⟨s.arg.die, s.arg.core, s.arg.ctx⟩
    let k := c.coreId
    let x := s.ctx c
    (x.st = .scrub → x.scrubLeft = 0 → exec .scrubDone s = .next (s.setCtx c (Ctx.scrubbed .free (s.die c.die).tgen))) ∧
    (∀ t, (s.core k).scrub = some (t, 0) → exec .coreScrub s = .next (s.modCore k fun q =>
      { q with scrub := none, tenant := some t, store := [], own := .replicate 96 .home, adm := .replicate 96 0, epoch := 0 })) ∧
    (∀ t, x.b.start = some t → x.st = .waiting →
      (t.toNat ≤ (s.die c.die).ptb.toNat → exec .gangStart s = .next (s.setCtx c { x with st := .ready, b := { x.b with start := none } })) ∧
      ((s.die c.die).ptb.toNat < t.toNat → exec .gangStart s = .next s)) ∧
    (x.preempt = true → 4096 ≤ x.frozen → ∃ t, exec .preemptWithdraw s = .next t ∧ t.ctx c = { x with preempt := false } ∧ SameMem s t) ∧
    (x.st = .saving → x.quiesce = false → saveSettled s c = true → ∃ t, exec .preemptionSave s = .next t ∧ t.ctx c = { x with quiesce := true } ∧
      (∀ h : Fin 2, ((s.core k).chans[h.val]).busy = true → ((s.core k).chans[h.val]).owner = c → ((t.core k).chans[h.val]).stop = true) ∧ SameMem s t) ∧
    (x.st = .saving → saveReady s c = true → x.admSaved = none → ∃ t, exec .preemptionSave s = .next t ∧ SameMem s t ∧ SameOthers c s t ∧
      t.ctx c = { x with admSaved := some ((List.range x.b.nBuf).map fun i => ((s.core k).adm[x.b.firstBuf + i]?).getD 0) } ∧
      ∀ b : Fin 96, (t.core k).adm[b.val] = if x.b.firstBuf ≤ b.val ∧ b.val < x.b.firstBuf + x.b.nBuf then 0 else (s.core k).adm[b.val]) ∧
    (x.st = .saving → x.quiesce = true → x.admSaved ≠ none → saveReady s c = false ∨ acceptedTo s k x.b = true → exec .preemptionSave s = .next s) ∧
    (∀ d u, x.st = .saving → saveReady s c = true → x.admSaved ≠ none → acceptedTo s k x.b = false → savedDie s c.die x.b = some d → savePages s c x.b.save.toNat (saveBytes s c).length = .ok →
      qRoom (s.die d) (qIdx x.b.tenant x.b.prio.toNat) = true → (∀ g, x.att ≠ .text g true) → (∀ e, x.att ≠ .failed e) →
      writeFrom c x.b.tenant x.b.save.toNat (saveBytes s c) (saveBytes s c).length x.att.got.length { s with draws := s.draws + 262144 } = some (true, u) →
      ∃ t, exec .preemptionSave s = .next t ∧ t.saved = s.saved ++ [savedTask s c] ∧ (t.ctx c).st = .scrub ∧ (t.ctx c).scrubLeft = 64 ∧
        x.b.task ∈ qAll (t.die d) (qIdx x.b.tenant x.b.prio.toNat) ∧ SameOthers c s t) ∧
    (∀ v, restoring s c = some v → v.replies = [] →
      (∀ p ∈ v.bufs, v.ctx.b.firstBuf * 0x10000 ≤ p.1 ∧ p.1 < (v.ctx.b.firstBuf + v.ctx.b.nBuf) * 0x10000) →
      ∃ t, exec .restore s = .next t ∧ t.saved = s.saved.filter (fun w => w.ctx.b.uid != v.ctx.b.uid) ∧
        t.ctx c = { v.ctx with
          st := if v.ctx.b.start.isSome then .waiting else .ready, held := true, b := { v.ctx.b with prio := x.b.prio, feat := x.b.feat } } ∧
        (∀ n ∈ v.lbs, ((t.die c.die).lbs[n.val]).holder = some c) ∧
        SameMemBut k (v.ctx.b.firstBuf * 0x10000) (v.ctx.b.nBuf * 0x10000) s t))

/-- R170, R172, R176, R185, R190, R192, R194 to R199, R333, R334, R406: a map writes the page table, a removal takes the entry from it and from every TLB; a
page fault answered without an entry fails the context's fetch; a migration moves a page and its DPIT entry, and the old copy is freed once no cached entry
names it; a row exchange swaps two physical rows of a bank; hash masks and region descriptors are set, these once no request under way uses their pages. (The
exchange of DPIT entries, an old copy's place reading 0 and the fabrics letting entries go are DESIGN CHOICE, log 41; ties of the hottest die and what makes
a stack lighter, logs 29 and 65; one walk at a time for a domain and what makes it empty, log 63; the row that is exchanged with, log 25.) -/
def Obligations.MemoryEvents : Prop :=
  ∀ (s : State),
    let t := s.arg.tenant
    let n : Fin 8 := Fin.ofNat 8 s.arg.unit
    let k := s.hbmStacks[n.val]
    let put (k : Stack) (u : State) : State := { u with hbmStacks := u.hbmStacks.set n.val k }
    (∀ p q, (s.dies.toList.flatMap fun d => d.hot.map Prod.fst).eraseDups = [p] → s.migs.length < 256 → mapped s (fun _ => true) p = true →
      heat s (stackDie (placeNow s p).1) p < heat s (hottest s p) p → (dpitEntry s p).getLsbD 30 = false → (∀ m ∈ s.migs, m.page ≠ p) →
      lightStack s (hottest s p) = some q → ∃ u, exec .trackingPeriod s = .next u ∧ u.migs = s.migs ++ [⟨p, q.1, q.2⟩] ∧
        (dpitEntry u p).getLsbD 31 = true ∧ ∀ d, (u.die d).hot = []) ∧
    (∀ m, s.migs.find? (fun m => m.page == s.arg.id) = some m → ∃ u, exec .migrationSwitch s = .next u ∧
      u.migs = s.migs.filter (fun q => q.page != m.page) ∧ u.oldCopies = s.oldCopies ++ [⟨m.page, (placeNow s m.page).1, (placeNow s m.page).2⟩] ∧
      (m.stack < 8 → m.lpage < 2 ^ 20 → pageAt s (m.stack, m.lpage) ≠ m.page → placeNow u m.page = (m.stack, m.lpage)) ∧ SameMem s u ∧
      ∀ d l, l ∈ (u.die d).msc → l / 256 ≠ m.page ∧ l / 256 ≠ pageAt s (m.stack, m.lpage)) ∧
    (s.migs.find? (fun m => m.page == s.arg.id) = none → ∀ m, s.oldCopies.find? (fun m => m.page == s.arg.id) = some m →
      (cachedOld s m = true → ∃ u, exec .migrationSwitch s = .next u ∧ u.oldCopies = s.oldCopies ∧ SameMem s u ∧ cachedOld u m = false) ∧
      (cachedOld s m = false → ∃ u, exec .migrationSwitch s = .next u ∧ u.oldCopies = s.oldCopies.erase m ∧
        ∀ a, u.byte .hbm a = if placeKey (m.stack, m.lpage) ≤ a ∧ a < placeKey (m.stack, m.lpage) + 0x10000 then 0 else s.byte .hbm a)) ∧
    (exec .refreshWindow s = .next (put { k with acts := [] } s)) ∧
    (let b := s.arg.num / 2 ^ 16 * 2 ^ 16 + s.arg.id % 2 ^ 16;
      let x := keyOfRow k s.arg.num;
      let y := keyOfRow k b;
      (k.acts.any fun e => e.1 == s.arg.num && decide (4096 < e.2)) = true → x ≠ y → ∃ u, exec .rowExchange s = .next u ∧ SameMem s u ∧
        rowOf u.hbmStacks[n.val] x = b ∧ rowOf u.hbmStacks[n.val] y = s.arg.num ∧
        ∀ c, c ≠ x → c ≠ y → rowOf u.hbmStacks[n.val] c = rowOf k c) ∧
    (let ms := s.arg.list.map fun p => BitVec.ofNat 32 p.1;
      let lo := n.val * 2 ^ 36 + s.arg.id * 2 ^ 30;
      s.arg.ok = true → masksOk ms = true → s.arg.num = s.arg.id → s.arg.id < 64 → domRehash s n.val s.arg.id = false →
      domEmpty s n.val s.arg.id = true →
      ∃ u, exec .rehashWalk s = .next u ∧ (u.hbmStacks[n.val]).maskOf s.arg.id = ms ∧
        ∀ m a, (m = .hbm → a < lo ∨ lo + 2 ^ 30 ≤ a) → u.byte m a = s.byte m a) ∧
    (let d : BitVec 256 := BitVec.ofNat 256 (ofBytes s.arg.data);
      (regionWaits s = true → exec .regionDescriptor s = .next s) ∧
      (s.arg.ok = true → regionWaits s = false → regOk s n d = true → k.regions.length < 256 → ∃ u, exec .regionDescriptor s = .next u ∧
        (u.hbmStacks[n.val]).regions = k.regions ++ [d] ∧ ((∀ m ∈ s.migs, m.page ∉ pagesOf (regBase d) (regBytes d)) → SameMem s u))) ∧
    (let f : FaultRep → Bool := fun r => r.tenant == t && r.va.toNat / 0x10000 == s.arg.va.toNat / 0x10000;
      ∀ c v kd, s.hstate ≠ 3 → s.arg.ok = false → (s.die s.arg.die).faults.filter f = [⟨t, v, kd, .fetch c⟩] → exec .faultAnswer s =
        .next ((s.modDie s.arg.die fun d => { d with faults := d.faults.filter fun r => !f r }).modCtx c fun x =>
          { x with miss := none, unres := x.unres ++ [pageVa v.toNat] })) ∧
    (∀ p, frameText s s.arg.frame = some p → s.hstate = 1 → frameTen s.arg.frame = 0 → forPort s s.arg.frame = true →
      let u := acceptSeq 0 (frameSeq s.arg.frame) s
      let va := (textWord p 1).toNat
      (frameKind s.arg.frame = 5 → reuseWaits s (textWord p 9) = false → mapRefused u p = false →
        headerOut s (mapTen p) (textWord p 9) (BitVec.ofNat 64 s.arg.num) = false →
        (askHeader (mapTen p) (textWord p 9) (BitVec.ofNat 64 s.arg.num) s = none →
          exec .map s = .next (mapEntry (mapTen p) va (textWord p 9) s.arg.num u)) ∧
        ∀ v, askHeader (mapTen p) (textWord p 9) (BitVec.ofNat 64 s.arg.num) s = some v →
          exec .map s = .next { v with inbox := (.map, s.arg) :: v.inbox }) ∧
      (frameKind s.arg.frame = 6 → p.length = 9 → fieldOf p 0 1 < 16 → exec .unmap s = .next (dropRange (mapTen p) va 1 u))) ∧
    (∀ va e, (s.ten t).maps.filter (fun m => mapMeets m va (pteSize e)) = [] → reuseWaits s e = false → pteV e = true → pteX e = false →
      (va, storedPte s e) ∈ ((mapEntry t va e 0 s).ten t).maps) ∧
    (∀ va n m, m ∈ (s.ten t).maps → mapMeets m va n = true →
      let u := dropRange t va n s
      m ∉ (u.ten t).maps ∧ ∀ (d : Fin 4) (e : TlbEnt), (e ∈ (u.die d).tlb ∨ ∃ c, e ∈ (u.core ⟨d, c⟩).tlb) → e.tenant = t →
        runsMeet e.vpage (pteSize e.pte) m.1 (pteSize m.2) = false)

/-- R403 to R410, R413, R414, R204: a datagram for another address or port changes nothing; a frame of a tenant that passes every check takes its sequence
number and acts: a LAUNCH queues its record, a GANG notes a team, an MWRITE's bytes are written piece by piece in any order and then acknowledged, an MREAD
answers with the bytes, read so, once it has all of them, an answer from the host completes an access, HEALTH answers with the status word, ATTEST sets the
tenant's frame key, TKEY its key and window; another frame counts in AUTHFAIL. HEALTH and ATTEST are answered from step 8 of a start on, and in safe mode
tenant 0 writes the staging area. (Payload layouts: PRESUMED, log 42; refusals of malformed payloads, and of a frame whose page goes while it is served:
DESIGN CHOICE, log 71; a reply is matched to the oldest request: DESIGN CHOICE, log 66; a team's identifier and its members in other packages: DESIGN CHOICE,
log 9; an ATTEST's signature, encapsulation and hash, PRESUMED, log 74, and its certificate, public-key digest and serial, log 10.) -/
def Obligations.HostFrames : Prop :=
  (∀ (s : State),
    let f := s.arg.frame
    let t := frameTen f
    let q := frameSeq f
    let u := acceptSeq t q s
    let up := s.hstate ≠ 0 ∨ ∃ w n, s.starting = some (w, n) ∧ 8 ≤ n
    let counted : State := { s with authfail := if s.authfail = 0xFFFF then 0xFFFF else s.authfail + 1 }
    let here (kind : Nat) := forPort s f = true ∧ frameKind f = kind
    let sealed' : List (Nat × Instr) :=
      [(1, .launch), (2, .gang), (3, .mwrite), (3, .mwriteAck), (4, .mread), (4, .mreadReply), (5, .map), (6, .unmap), (10, .tkey)]
    let plain (payload : List Byte) : OutFrame :=
      ⟨none, f.src, f.port, frameHead (BitVec.ofNat 8 (frameKind f)) t payload.length 0 ++ payload ++ List.replicate 16 0⟩
    (∀ id, s.arg.req ≠ .frame id) →
    (forPort s f = false → (∀ p ∈ sealed', exec p.2 s = .next s) ∧ exec .health s = .next s ∧ exec .attest s = .next s ∧ exec .attestCert s = .next s) ∧
    (∀ p ∈ sealed', up → s.hstate ≠ 3 → here p.1 → frameText s f = none → exec p.2 s = .next counted) ∧
    (∀ p ∈ [(5, Instr.map), (6, .unmap), (10, .tkey)], ∀ l, s.hstate = 1 → here p.1 → frameText s f = some l → t ≠ 0 →
      exec p.2 s = .next (notify t 3 4 q 0 u)) ∧
    (∀ p, frameText s f = some p → s.hstate = 1 →
      let a := (textWord p 0).toNat
      let data := p.drop 8
      (∀ d, here 1 → launchDie u p = some d → p.length = 10 → recFree u d t (textWord p 2) = true → launchWaits s = false →
        exec .launch s = .next (enqueue ⟨d, 0⟩ t (textWord p 2) (createRec d t (textWord p 2) false 0 1 0 false u))) ∧
      (here 2 →
        let l := gangPairs p
        let own := gangHere u l
        l ≠ [] → l.length ≤ 512 → p.length = 8 + 10 * l.length → (∀ x ∈ l, dieExists u x.1 = true) → (latestPtb u).toNat ≤ (textWord p 0).toNat →
        recsDistinct (own.map Prod.fst) = true → (∀ r ∈ own, recFree u r.1.1 t r.1.2 = true) → spansLost u (own.map fun r => r.1.1) = false →
        (liveTeams u t).length < 65535 → own ≠ [] →
        ∃ v, exec .gang s = .next v ∧
          v.teams = { tenant := t, id := gangTeam u t p, size := l.length, recs := own.map Prod.fst, nums := own.map Prod.snd, tick := some (textWord p 0)
                      placed := false, pend := [], failed := false, succ := none } :: s.teams) ∧
      (here 3 → isAck p = false → 8 ≤ p.length →
        (runOk u t true a data.length = true → exec .mwrite s = .next { u with
          nextId := u.nextId + 1, runs := u.runs ++ [⟨u.nextId, t, q, true, a, data, List.range data.length, .start, none, 0, false⟩] }) ∧
        (runOk u t true a data.length = false → exec .mwrite s = .next (notify t 3 3 q 0 u))) ∧
      (here 4 → p.length = 16 → fieldOf p 8 8 ≤ 8176 →
        let n := fieldOf p 8 8
        (runOk u t false a n = true → exec .mread s = .next { u with
          nextId := u.nextId + 1, runs := u.runs ++ [⟨u.nextId, t, q, false, a, List.replicate n 0, List.range n, .start, none, 0, false⟩] }) ∧
        (runOk u t false a n = false → exec .mread s = .next (notify t 3 3 q 0 u))) ∧
      (∀ r id b w, here 3 → isAck p = true → s.hostReqs.find? (fun r => r.tenant == t && r.write && decide (r.seq.toNat = a % 2 ^ 63)) = some r →
        r.req = .access id → s.accesses.find? (fun b => b.id == id) = some b → b.op = .store w → accessHome s b = b.owner.die →
        ∃ v, exec .mwriteAck s = .next v ∧ (∀ b ∈ v.accesses, b.id ≠ id) ∧ r ∉ v.hostReqs) ∧
      (∀ r id b, here 4 → s.hostReqs.find? (fun r => r.tenant == t && !r.write && decide (r.off = a) && decide (r.len + 8 = p.length)) = some r →
        r.req = .access id → s.accesses.find? (fun b => b.id == id) = some b → b.op = .load → b.bad = none → accessHome s b = b.owner.die →
        ∃ v e, exec .mreadReply s = .next v ∧ r ∉ v.hostReqs ∧ v.accesses.find? (fun b => b.id == id) = some e ∧ e.performed = true ∧
          e.hop = .done ∧ e.val = BitVec.ofNat 64 (ofBytes data)) ∧
      (here 10 → t = 0 → tkeyBad p = false →
        let id : BitVec 4 := BitVec.ofNat 4 (fieldOf p 0 1)
        id ≠ 0 → ((p.drop 16).all (· == 0)) = false → ∃ v, exec .tkey s = .next v ∧ (v.ten id).hkey = some (p.drop 16) ∧
          (v.ten id).window = fieldOf p 8 8)) ∧
    (∀ p, frameText s f = some p → s.hstate = 2 → here 3 → t = 0 → isAck p = false → 8 ≤ p.length → inStaging (textWord p 0).toNat (p.length - 8) = true →
      exec .mwrite s = .next (notify 0 4 0 q 0 { u with staging := wrCells u.staging (textWord p 0).toNat (p.drop 8) })) ∧
    (∀ p, frameText s f = some p → up → here 8 → exec .health s = .next (sendFrame 8 t (toBytes 8 (healthWord u).toNat) u)) ∧
    (up → here 8 → frameFormed f = true → healthPlain f = true → healthRoom s = true →
      ∃ v, exec .health s = .next v ∧ v.outbox = s.outbox ++ [plain (toBytes 8 (healthPublic s).toNat)] ∧ SameMem s v) ∧
    (up → s.hstate ≠ 3 → here 9 → attestFormed f = true →
      (frameLen f = 0 → exec .attestCert s = .next { s with outbox := s.outbox ++ [plain certificate] }) ∧
      (frameLen f ≠ 0 → attestSigned s f = false → exec .attest s = .next counted) ∧
      (attestSigned s f = true →
        let p := framePayload f
        let nd := toBytes 32 (Config.nonce s.draws).toNat
        let e := kemEncaps ((p.drop 32).take 1568) (toBytes 32 (Config.kemSeed s.draws).toNat)
        let body := p.take 32 ++ nd ++ e.2 ++ toBytes 64 (runningDigest s).toNat ++ (s.dies.toList.flatMap fun d => toBytes 2 d.feat.toNat) ++
          toBytes 8 (healthWord s).toNat ++ toBytes 16 Config.serial.toNat
        let key := (sha3x512 (keyLabel ++ [t.setWidth 8] ++ p.take 32 ++ nd ++ e.1)).take 32
        ∃ v, exec .attest s = .next v ∧ v.outbox = s.outbox ++ [plain (body ++ attestSig s f body)] ∧ (v.ten t).key = some (BitVec.ofNat 256 (ofBytes key)) ∧
          (v.ten t).rxMax = 0 ∧ (v.ten t).rxSeen = [] ∧ (v.ten t).txSeq = 0 ∧ (v.ten t).endp = f.src ∧ (v.ten t).port = f.port ∧ SameMem s v))) ∧
  (∀ (s : State) (r : HostRun) (w : Instr),
    let k : CoreId := ⟨0, 0⟩
    let rest : List HostRun := s.runs.filter fun q => q.id != r.id
    w = (if r.write then .mwrite else .mread) → s.arg.req = .frame r.id → s.runs.find? (fun q => q.id == r.id) = some r →
    (r.hold = true ∨ hostOut s (.frame r.id) = true → exec w s = .next s) ∧
    (r.hold = false → hostOut s (.frame r.id) = false →
      (r.left = [] → exec w s = .next (if r.write then notify r.tenant 4 0 r.seq 0 { s with runs := rest }
        else sendFrame 4 r.tenant (toBytes 8 r.va ++ r.data) { s with runs := rest })) ∧
      (r.left ≠ [] → r.hop = .start → r.req = none → s.runs = [r] →
        let p := pickRun r.left s.arg.va.toNat s.arg.val.toNat false
        (∀ q, pageReq s k r.tenant r.va r.data.length p.1 p.2 r.write false = .req q → q.stale s = false → q.home s = 0 →
          engineQueues s 0 r.write q.cells = false → ∃ t, exec w s = .next t ∧
            (r.write = true → t.runs = [{ r with left := outside q.off q.n r.left, refusals := 0 }] ∧
              ∀ m a, t.byte m a = (storeCells q.cells ((r.data.drop q.off).take q.n) s).byte m a) ∧
            (r.write = false → SameMem s t ∧
              t.runs = [{ r with data := setSlice r.data q.off (q.cells.map (dpaRead s)), left := outside q.off q.n r.left, refusals := 0 }])) ∧
        (∀ o n, pageReq s k r.tenant r.va r.data.length p.1 p.2 r.write false = .host o n → ∃ t, exec w s = .next t ∧ SameMem s t ∧
          hostOut t (.frame r.id) = true) ∧
        (∀ e, pageReq s k r.tenant r.va r.data.length p.1 p.2 r.write false = .err e → ∃ t, exec w s = .next t ∧ t.runs = [] ∧ SameMem s t ∧
          ⟨3, 3, r.seq, 0⟩ ∈ (t.ten r.tenant).notes))))

/-- R34, R35, R404, R411 to R413, R416, R417: a start under way leaves the module STARTING at its step, one that ends leaves the module READY with every core
reset, a third failed cold start leaves it in safe mode, which only a power cycle leaves, a third failed warm start begins a cold start, and safe mode and a
thermal trip are not left by a warm start; clocks, throttles, refresh and the trip; the tasks of a failing core fail with KIND 9, and once they have ended it
is replaced by its die's spare or leaves service; corrected errors of 24 hours count, and an emptied spare pool sets REPLACE. A router advertisement forms an
address of its prefix or renews its lifetime, and the end of the lifetime takes it; an echo request and a neighbour solicitation for an address of the module
are answered. (A start as events with STARTING between them is the model's, log 2; that a clock is what the remaining throttles leave is DESIGN CHOICE, log
67; the rules of address lifetimes are those of RFC 4862, PRESUMED, log 75.) -/
def Obligations.ModuleEvents : Prop :=
  (∀ (s : State),
    let d := s.arg.die
    let x := s.die d
    let n : Fin 8 := Fin.ofNat 8 s.arg.unit
    let low (cap : Nat) : Nat := if 850 ≤ s.arg.num ∧ s.arg.num ≤ 1700 ∧ s.arg.num % 50 = 0 then min s.arg.num cap else cap
    let put (f : Stack → Stack) (u : State) : State := { u with hbmStacks := u.hbmStacks.set n.val (f u.hbmStacks[n.val]) }
    let cold := s.hstate ≠ 2 ∨ s.arg.val.getLsbD 3 = true
    let warm := s.hstate ≠ 2 ∧ s.hstate ≠ 3 ∧ s.warmFails < 3
    (s.arg.val.getLsbD 2 = true → (cold → ∃ t, exec .coldStart s = .next t ∧ t.hstate = 0 ∧ t.starting = some (false, min 9 s.arg.num)) ∧
      (warm → ∃ t, exec .warmStart s = .next t ∧ t.hstate = 0 ∧ t.starting = some (true, min 9 s.arg.num))) ∧
    (s.arg.val.getLsbD 2 = false → s.arg.ok = true → cold → ∃ t, exec .coldStart s = .next t ∧ t.hstate = 1 ∧ t.hbm = [] ∧ t.vault = [] ∧
      t.coldFails = 0 ∧ t.warmFails = 0 ∧ t.paramsValid = true ∧
      ∀ k : CoreId, t.core k = { Core.reset (coreNo k.die k.core) (t.core k).site with inService := (t.core k).inService }) ∧
    (s.arg.val.getLsbD 2 = false → s.arg.ok = false → cold → ∃ t, exec .coldStart s = .next t ∧ t.coldFails = s.coldFails + 1 ∧
      t.hstate = (if 3 ≤ s.coldFails + 1 then 2 else 0) ∧ t.attempts.head? = some ((s.arg.num - 1) + 256 * s.arg.num, s.arg.id)) ∧
    (¬ cold → exec .coldStart s = .next s) ∧
    (¬ warm → exec .warmStart s = .next s) ∧
    (warm → s.arg.val.getLsbD 2 = false → s.arg.ok = true → ∃ t, exec .warmStart s = .next t ∧ t.hstate = 1 ∧
      t.hbm = (if s.arg.val.getLsbD 0 ∧ s.arg.val.getLsbD 1 ∧ s.paramsValid then keptHbm s else []) ∧ t.vault = []) ∧
    (warm → s.arg.val.getLsbD 2 = false → s.arg.ok = false → ∃ t, exec .warmStart s = .next t ∧ t.hstate = 0 ∧ t.warmFails = s.warmFails + 1 ∧
      t.attempts.head? = some ((s.arg.num - 1) + 256 * s.arg.num, s.arg.id) ∧ (s.warmFails = 2 → t.starting = some (false, 0))) ∧
    (exec .powerLimit s = .next (syncClocks d (s.modCore ⟨d, s.arg.core⟩ fun k => { k with cap := low k.cap }))) ∧
    (exec .dieThrottle s = .next (syncClocks d (s.setDie d { x with throttled := true, cap := low x.cap }))) ∧
    (exec .dieThrottleRelease s = .next (syncClocks d (s.setDie d { x with throttled := false, cap := 1700 }))) ∧
    (exec .hbmRefreshDouble s = .next (put (fun k => { k with refresh2 := !s.arg.ok }) s)) ∧
    (exec .hbmThrottle s = .next (syncClocks (stackDie n.val) (put (fun k => { k with throttled := true, cap := low k.cap }) s))) ∧
    (exec .hbmThrottleRelease s = .next (syncClocks (stackDie n.val) (put (fun k => { k with throttled := false, cap := 1700 }) s))) ∧
    (∀ k : CoreId, (k.die = d → ((syncClocks d s).core k).ctl.mhz = coreClock s k ∧ ((syncClocks d s).core k).arr.mhz = coreClock s k) ∧
      (k.die ≠ d → (syncClocks d s).core k = s.core k) ∧ coreClock s k ≤ (s.core k).cap) ∧
    (exec .thermalTrip s = .next { s with
      hstate := 3, hbm := [], islands := s.islands.map fun i => if i.kind = .phy then { i with on := false } else i }) ∧
    (let k : CoreId := ⟨d, s.arg.core⟩;
      let old := s.core k;
      let new := Core.reset (coreNo d s.arg.core) (if x.spare then x.spareSite else old.site);
      (s.arg.ok = false → ∃ t, exec .coreError s = .next t ∧ (t.core k).failing = true ∧ (t.die d).spare = x.spare ∧
        (t.die d).featDrop = (x.featDrop ||| (BitVec.ofNat 11 s.arg.num &&& x.feat &&& 0x7FE)) ∧
        ∀ c : CtxId, c.coreId = k → (s.ctx c).st.bound = true → (∀ e, (s.ctx c).exit = some e → e.failed = false ∧ e.sig = none) →
          (t.ctx c).exit = some ⟨0, faultWord 9 0 0 0 0, true, none, none⟩ ∧ (t.ctx c).trap = none ∧ (t.ctx c).spec = none) ∧
      (s.arg.ok = true → (old.failing = false ∨ ∃ i : Fin 8, ((old.ctxs[i.val]).st.bound = true)) → exec .coreError s = .next s) ∧
      (s.arg.ok = true → old.failing = true → (∀ i : Fin 8, (old.ctxs[i.val]).st.bound = false) →
        ∃ t, exec .coreError s = .next t ∧ t.replace = true ∧ (t.die d).spare = false ∧
          t.core k = { new with
            inService := x.spare, cycle := old.cycle, cap := old.cap, phase := old.phase
            ctl := { new.ctl with mhz := coreClock t k }, arr := { new.arr with mhz := coreClock t k } })) ∧
    (let now := s.arg.va.toNat;
      let l := now :: s.corrected.filter fun u => decide (now < u + 86400);
      (l.length ≤ s.arg.num → s.arg.val ≠ 1 → s.arg.val ≠ 2 → exec .correctedError s = .next { s with corrected := l }) ∧
      ((s.arg.val = 1 ∨ s.arg.val = 2) → ∃ t, exec .correctedError s = .next t ∧ t.corrected = l ∧ t.replace = true) ∧
      (s.arg.num < l.length → ∃ t, exec .correctedError s = .next t ∧ t.corrected = l ∧ t.replace = true))) ∧
  (∀ (s : State),
    let a := addrOf s.arg.va
    let f := s.arg.frame
    let now := (s.die 0).ptb.toNat
    let lives (x : Addr) : Bool := match x.till with
      | none => true
      | some t => decide (now < t)
    let b : BitVec 128 := BitVec.ofNat 128 (ofBytes ((f.bytes.take 16).reverse))
    let up := s.hstate = 1 ∨ s.hstate = 2
    let held (c : BitVec 128) := c = linkLocal ∨ ∃ x ∈ s.addrs, x.addr = c ∧ x.since ≤ now ∧ lives x = true
    let sent (type : Byte) (l : List Byte) : State := { s with outbox := s.outbox ++ [⟨some type, f.src, 0, l⟩] }
    (up → s.arg.va ≠ 0xFE80000000000000 → s.arg.id ≤ s.arg.num →
      ((∀ x ∈ s.addrs, x.addr = a → lives x = false) →
        (s.arg.num = 0 → exec .routerAdvertisement s = .next s) ∧
        (s.arg.num ≠ 0 → ∃ t, exec .routerAdvertisement s = .next t ∧ t.addrs = s.addrs.filter (fun x => x.addr != a) ++
          [⟨a, now + 10 ^ 9, if s.arg.num = 0xFFFFFFFF then none else some (now + s.arg.num * 10 ^ 9)⟩])) ∧
      ((∃ x ∈ s.addrs, x.addr = a ∧ lives x = true) → exec .routerAdvertisement s =
        .next { s with addrs := s.addrs.map fun x => if x.addr = a then x.renew now s.arg.num else x })) ∧
    (∀ (x : Addr) (t : Nat), x.till = some t → now < t →
      (7200 < s.arg.num → s.arg.num ≠ 0xFFFFFFFF → (x.renew now s.arg.num).till = some (now + s.arg.num * 10 ^ 9)) ∧
      (s.arg.num ≤ 7200 → now + s.arg.num * 10 ^ 9 ≤ t → (x.renew now s.arg.num).till = some (min t (now + 7200 * 10 ^ 9)))) ∧
    (exec .addressLifetimeExpiry s = .next { s with addrs := s.addrs.filter lives }) ∧
    (up → (held f.to6 → s.arg.icmp = .echoRequest → exec .icmpv6Request s = .next (sent 129 f.bytes)) ∧
      (held b → f.src ≠ 0 → s.arg.icmp = .neighbourSolicitation → exec .icmpv6Request s = .next (sent 136 ((toBytes 16 b.toNat).reverse)))) ∧
    (¬ held f.to6 → s.arg.icmp = .echoRequest → exec .icmpv6Request s = .next s))


/-! # The whole machine -/

/-- R67 to R69, R411: the state after reset. The module is READY with no task, no memory byte other than 0 and no translation; every context is FREE and
scrubbed: registers, Hem, targets, matrix registers and descriptors 0, no accumulator bound, handles invalid, streams unbound. The reset values that the spec
leaves open are the model's choice: that the module stands READY, after a start that has finished (hstate 1: log 2), the pc 0 (log 3) and memory 0 (log 5).
-/
def Obligations.ResetState : Prop :=
  State.reset.memOk ∧ State.reset.hstate = 1 ∧ State.reset.accesses = [] ∧ State.reset.rops = [] ∧ State.reset.pages = [] ∧
  (∀ (m : Mem) (a : Nat), State.reset.byte m a = 0) ∧
  (∀ c : CtxId, let x := State.reset.ctx c
    x.st = .free ∧ x.arch.pc = 0 ∧ x.arch.loops = [] ∧ x.arch.rot = 0 ∧ x.arch.inh = false ∧ x.arch.ckmode = 0 ∧ x.arch.trapvecValid = false ∧
    x.arch.ctgen = (State.reset.die c.die).tgen ∧ x.mreg = [] ∧ x.flights = [] ∧ x.trap = none ∧ x.spec = none ∧ x.att = .none ∧
    (∀ r : Fin 64, x.arch.s[r.val] = 0) ∧ (∀ r : Fin 32, x.arch.hem[r.val] = 0) ∧ (∀ k : Fin 7, x.arch.t[k.val] = 0) ∧
    (∀ p : Fin 8, (x.arch.ports[p.val]).bound = false) ∧
    (∀ k : Fin 16, (x.h[k.val]).valid = false ∧ x.d[k.val] = 0 ∧ x.z[k.val] = none)) ∧
  (∀ k : CoreId, let q := State.reset.core k
    q.tenant = none ∧ q.cycle = 0 ∧ q.cmds = [] ∧ (∀ b : Fin 96, q.own[b.val] = .home ∧ q.adm[b.val] = 0) ∧
    (∀ w : Fin 8, (q.wins[w.val]).opn = false) ∧ ∀ ch : Fin 2, (q.chans[ch.val]).busy = false)

/-- R112 to R117 (Tables 07.7 to 07.13): slot words written out from the fields of its tables decode to the instructions that they stand for. -/
def Obligations.DecodeWords : Prop :=
  decodeTableWord 32 0x00A1C19A = some (.addi 5 3 7) ∧
  decodeSlot (.ab 0x3440201F) = some (.ldi 0x22 0 0x40 3) ∧ decodeSlot (.ab 0x53F84E20) = some (.lea 0x1F 0x1C 0x61 5) ∧
  decodeSlot (.ab 0x03E78FAD) = some (.fdiv 0x1F 0x1F 0x1E) ∧
  decodeSlot (.l 0x00C4307315) = some (.amoAdd 6 3 7 0 3) ∧ decodeSlot (.l 0x208088A111) = some (.ldhW 0x11 1 0x0A 0x820) ∧
  decodeSlot (.v 0x03A218118404) = some (.vfma 0 0x184 0x181 0x3A2 0) ∧ decodeSlot (.v 0x01020020011B) = some (.vcmpLt 0 0x10 1 2 0) ∧
  decodeSlot (.m 0x000013321001) = some (.mmaS 2 0 1 3 3 1 0 0 0 0 0 0) ∧ decodeSlot (.m 0x3FFF80030006) = some (.zalloc 3 0x7F 0x7F 1) ∧
  decodeSlot (.c 0x000A000820) = some (.loopi 8 0 40) ∧ decodeSlot (.c 0x0002400301) = some (.cpy 1 3 4 0 0) ∧
  decodeSlot (.s 0x0041) = some (.scl 0 0 4) ∧ decodeSlot (.s 0x4051) = some (.scl 1 0 5)

/-- R112 to R128: decode and encode agree, from the instruction: what the encoder gives for a well-formed instruction decodes to it, with every operand at
every value that its encoding admits. -/
def Obligations.EncodeDecode : Prop :=
  ∀ (i : Instr) (w : SlotWord), i.wf = true → encode i = some w → decodeSlot w = some i

/-- R10, R101, R130: decode and encode agree, from the word: a word that decodes is the encoding of what it decodes to, which is well formed, so no two words
stand for one instruction and no reserved bit is dropped. -/
def Obligations.DecodeEncode : Prop :=
  ∀ (w : SlotWord) (i : Instr), decodeSlot w = some i → encode i = some w ∧ i.wf = true

/-- R138, R139, R144, R152, R161: a step runs what it has decoded. With no input and no event possible the machine's clock goes on; a cycle of a core gives
the running context its turn; the turn fetches at the pc and decodes; a bundle whose operations can all perform issues, and the state after it is each
operation's own effect, in the order of the slots, and then the choice of the next bundle; an operation's effect is the one that exec gives the instruction.
An input at the head of the inbox is performed as exec of its event, and so is the event that a free choice picks among those possible. (That one input or
event is one step is the model's choice: log 1; a core below 1,700 MHz lets some rounds pass: log 26.) -/
def Obligations.StepRunsDecoded : Prop :=
  (∀ (i : Instr) (w : SlotWord) (s : State), encode i = some w → exec i s = .next (runAlone (planOf i) s)) ∧
  (∀ (i : Instr) (s : State) (f : State → State), slotOut (planOf i) (planOf i).slot s.focus s = .go f →
    stallShort (s.ctx s.focus) (planOf i) = none → runAlone (planOf i) s = f s) ∧
  (∀ (s : State) (e : Instr × EvArg) (r : List (Instr × EvArg)), s.mid = false → s.inbox = e :: r → inputWaits s e = false →
    inputActs s e.1 = true → step s = exec e.1 { s with inbox := r, arg := e.2 }) ∧
  (∀ (s : State), s.mid = false → nextInput s = none → enabled s ≠ [] →
    let t : State := { s with draws := s.draws + 1 }
    step s = match (enabled s)[Config.freeChoice s.draws % ((enabled s).length + 1)]? with
      | some e => exec e.1 { t with arg := e.2 }
      | none => exec (clockEvent t).1 { t with mid := beginsCycle (clockEvent t).1, arg := (clockEvent t).2 }) ∧
  (∀ (s : State), s.mid = true ∨ (nextInput s = none ∧ enabled s = []) → step s = exec (clockEvent s).1 { s with
    mid := beginsCycle (clockEvent s).1 || (s.mid && (clockEvent s).1 != .bundleIssue), arg := (clockEvent s).2 }) ∧
  (∀ (s : State), s.hstate = 1 → s.focus.core ≠ 0 →
    let u := coreRound s.focus.coreId s
    let v := if s.focus.core = 15 then tickPtb s.focus.die u else u
    exec .bundleIssue s = .next { v with focus := nextCore v.focus }) ∧
  (∀ (s : State) (k : CoreId), let p := (s.core k).phase + (s.core k).ctl.mhz
    let passes (u : State) := tickBarriers true k (tickRounds true k u)
    (1700 ≤ p → coreRound k s = passes (coreCycle k (s.modCore k fun q => { q with phase := p - 1700 }))) ∧
    (p < 1700 → coreRound k s = passes (s.modCore k fun q => { q with phase := p }))) ∧
  (∀ (s : State) (c : CtxId) (k : CoreId), k = c.coreId →
    let u := forEach (coreCtxs k) (fun c s => s.modCtx c stallPasses) (selectCtx k (forEach (coreCtxs k) settleCtx s))
    let v := resumeHeld c u
    runningOf u k = some c → coreCycle k s = endCycle k (runTurn c v).2 (runTurn c v).1 ∧
      ((u.ctx c).held = false ∨ (u.ctx c).trap = none → v = u.modCtx c fun x => { x with held := false })) ∧
  (∀ (s : State) (k : CoreId) (b : Bool),
    let u := (markReady k s).modCore k fun q => tickCmds { q with
      ctxs := q.ctxs.map (tickCtx b), cycle := q.cycle + 1, scrub := q.scrub.map fun g => (g.1, g.2 - 1) }
    endCycle k b s = forEach (coreCtxs k) (fun c s => if (s.ctx c).exit.isSome then finishStep c s else s)
      (tickBarriers false k (tickRounds false k (meetBarriers (settleRounds u))))) ∧
  (∀ (s : State) (c : CtxId) (w : BitVec 384) (n : Nat) (b : Bundle) (y l : Bool) (u : State),
    let x := s.ctx c
    x.exit = none → x.trap = none → x.stall = 0 → x.miss = none → x.svc = none → x.spec = none → hasDue x = false →
    fetchAt s c x.arch.pc = .bundle w n → decodeBundle w = some b → attemptBundle c b s = .issued y l u →
    runTurn c s = (afterIssue c y l (noteFetch s c u), false)) ∧
  (∀ (s : State) (c : CtxId) (b : Bundle) (fs : List (State → State)) (pc : W32) (ls : List Level) (rot : Nat) (back : Bool),
    let a := s.arch c
    let leaf := treeLeaf b.f.shape.toNat (testOf s c b.f)
    let ps := slotsOn a b leaf
    let t := fs.foldl (fun t f => f t) s
    (s.ctx c).att = .none → (s.ctx c).spec = none → popOutside a a.loops = a.loops → (∀ t k, b.c ≠ .cbr t k) → testsFreeze s c b.f = false →
    ps.map (fun p => slotOut p.2 p.1 c s) = fs.map .go →
    (∀ p ∈ ps, stallShort (s.ctx c) p.2 = none) → (s.ctx c).late = [] → passesLimits c t = false →
    chooseNext c b leaf s t = .go pc ls rot back → overruns (s.ctx c) = false →
    attemptBundle c b s = .issued (b.h.yld == 1#1) back (finishIssue c b leaf pc ls rot back s t)) ∧
  (∀ (s t : State) (c : CtxId) (b : Bundle) (leaf : Nat) (pc : W32) (ls : List Level) (rot : Nat) (back : Bool),
    let u := finishIssue c b leaf pc ls rot back s t
    (u.arch c).pc = pc ∧ (u.arch c).loops = ls ∧ ((s.ctx c).att = .none → (u.ctx c).stall = b.h.stall.toNat) ∧ (u.ctx c).flights = (t.ctx c).flights ∧
    (u.arch c).s = (t.arch c).s ∧ (u.ctx c).b.started = true ∧ SameOthers c t u)

/-- R139, R140, R143, R277, R318: an instruction of slots A, B, V and S changes no byte of memory, no other context, and of its own context no register,
handle, descriptor, chain, binding or accumulator at issue: its result is only in flight; a stream port changes only if the instruction reads it. -/
def Obligations.SlotFrames : Prop :=
  ∀ (i : Instr) (s t : State) (w : BitVec 32) (v : BitVec 48) (u : BitVec 16),
    encode i = some (.ab w) ∨ encode i = some (.v v) ∨ encode i = some (.s u) → exec i s = .next t →
    SameMem s t ∧ SameOthers s.focus s t ∧ SameRegs s.focus s t ∧ SamePorts s.focus ((planOf i).srcs.map Prod.snd) s t

/-- An invariant of the model's memory that every step keeps: the core stores, HBM, the vault and the link buffers stay in canonical form, whatever the step
does: a bundle, a delivery, an input from the host, a save, a migration or a start. (The form is the model's; the spec gives the memories.) -/
def Obligations.MemoryCanonicalKept : Prop :=
  ∀ s t : State, s.memOk → step s = .next t → t.memOk

/-- R52 to R57, R313 to R316: what the matrix commands come to, for every type, form, bank and scale source. An MMA form whose operands agree adds to each
element of its tile, or to 0, the products of its row and column (of MMA.Q those of the halves that the gang's cores supply), in groups of the rate of their
types and by blocks of 32 for the MX integers, each rounded once; where the operands disagree the command is malformed. R39, R42, R44, R317: the value of an
element at an edge. R310: ZZERO. R320 to R327 with R58 to R63: what CHBEG, CHBLK, CHEND, CHFIN, CHMRG, CHST, CHLD and CHSCL leave in the slot, the tile and
the core store. (What a command comes to is written when it completes: CommandEvents.) -/
def Obligations.MatrixResults : Prop :=
  (∀ (q : Cmd) (e : Fin 4) (t v : Nat),
    let xb := bits q.exv.toNat (8 * e.val) 8
    let extra : Sys2Proof.Machine.FV := if xb.testBit 7 then .fin (xb.testBit 6) (if xb.testBit 5 then 3 else 2) (sInt xb 5 - 1) else .fin true 0 0
    let val : Sys2Proof.Machine.FV := if t = 5 ∧ v = 8 then extra else match fmtOf t with
      | some f => f.decode v
      | none => (FV.ofInt (sInt v (mxWidth t))).scale (2 - (mxWidth t : Int))
    let tensor (y : Sys2Proof.Machine.FV) : Sys2Proof.Machine.FV := if (q.tscale[e.val]).getLsbD 8 then .nan else y.scale (sInt (q.tscale[e.val]).toNat 8)
    edgeOp q e.val t none v = tensor val ∧
    ∀ b : Nat, edgeOp q e.val t (some b) v = tensor (if b = 255 then .nan else val.scale ((b : Int) - 127))) ∧
  (∀ (a b p : Nat) (ts : List Sys2Proof.Machine.FV), accSum a b p [] = p ∧
    (ts ≠ [] → a = 1 ∧ b = 1 ∨ a = 2 ∧ b = 2 → accSum a b p ts = accSum a b (rF32 (FV.sum (f32 p :: ts.take 1))) (ts.drop 1)) ∧
    (ts ≠ [] → 3 ≤ a ∧ a ≤ 5 ∧ 3 ≤ b ∧ b ≤ 5 →
      let g := if a = 5 ∨ b = 5 then 8 else 4
      accSum a b p ts = accSum a b (rF32 (FV.sum (f32 p :: ts.take g))) (ts.drop g)) ∧
    (ts ≠ [] → 12 ≤ a ∧ a ≤ 14 ∧ 12 ≤ b ∧ b ≤ 14 →
      accSum a b p ts = accSum a b (rF32 (FV.sum [f32 p, plusZero (FV.sum (ts.take 32))])) (ts.drop 32))) ∧
  (∀ v : Sys2Proof.Machine.FV, cuff v = (if rF32 v % 2 ^ 31 < 0x00800000 ∧ rF32 v % 2 ^ 31 ≠ 0 then 0 else rF32 v) ∧ expc v = cuff (f32 (rF32 (FV.exp2 v)))) ∧
  (∀ (s : State) (c : CtxId) (q : Cmd) (f : MmaF) (t : Tile) (b : Bool),
    let x := s.ctx c
    let m := tdRows q.imgA
    let k := if f.bt then tdCols q.imgB else tdRows q.imgB
    let n := if f.bt then tdRows q.imgB else tdCols q.imgB
    let bad : CmdOut := { CmdOut.none with err := some ⟨0x06, q.bits.setWidth 64⟩ }
    let agree : Prop := tdCols q.imgA = k ∧ n ≤ 256 ∧ m ≤ t.rows ∧ n ≤ t.cols ∧
      (f.mx = true → f.scl = false → k ≤ 32 ∧ n ≤ 128) ∧
      (f.mx = true → f.scl = true → tdRows q.imgSA = m ∧ tdRows q.imgSB = n ∧ cdiv k 32 ≤ tdCols q.imgSA ∧ cdiv k 32 ≤ tdCols q.imgSB)
    mmaF q.ins = some f → commonErr s c q = none → x.z[f.z.val] = some t → bankOf t f.dual = some b →
      ((∀ z dA dB tA tB acc mx du bt x, q.ins ≠ .mmaQ z dA dB tA tB acc mx du bt x) →
        (agree → (isGather q.ins = true → gatherGood x q = true) →
          ∃ ws, cmdResult s c q = { CmdOut.none with acc := [(f.z, b, ws)] } ∧
            fillsTile x f.z b t m n (fun i j => mmaElem s c q f c.coreId c.coreId q.imgA q.imgB (rdCell (t.bank b) (i * 256 + j)) i j) ws) ∧
        (¬ agree ∨ (isGather q.ins = true ∧ gatherGood x q = false) → cmdResult s c q = bad)) ∧
      (∀ (g : List (CoreId × Cmd)) (kA kB : CoreId) (pA pB : Cmd), isGather q.ins = false →
        g[2 * (c.core.val % 4 / 2)]? = some (kA, pA) → g[c.core.val % 4 % 2]? = some (kB, pB) →
        (tdRows pA.imgA = m ∧ tdCols pA.imgA = k ∧ tdRows pB.imgB = tdRows q.imgB ∧ tdCols pB.imgB = tdCols q.imgB) → q.ctx = c.ctx →
        (agree → ∃ ws, gangResult s g c.coreId q = { CmdOut.none with acc := [(f.z, b, ws)] } ∧
          fillsTile x f.z b t m n (fun i j => mmaElem s c q f kA kB pA.imgA pB.imgB (rdCell (t.bank b) (i * 256 + j)) i j) ws) ∧
        (¬ agree → gangResult s g c.coreId q = bad))) ∧
  (∀ (s : State) (c : CtxId) (q : Cmd) (z both : BitVec _) (t : Tile),
    let x := s.ctx c
    let zz : Fin 16 := Fin.ofNat 16 z.toNat
    q.ins = .zzero z both → commonErr s c q = none → x.z[zz.val] = some t → t.cols ≤ 256 →
    ∃ ws, cmdResult s c q = { CmdOut.none with
        acc := (if t.dual then (if both = 1 then [false, true] else [!t.vis]) else [false]).map fun b => (zz, b, ws) } ∧
      ∀ b, fillsTile x zz b t t.rows t.cols (fun _ _ => 0) ws) ∧
  (∀ (s : State) (c : CtxId) (q : Cmd) (sl mask : BitVec 2) (z dA tQ : BitVec 4) (dual : BitVec 1) (op : Code7) (t : Tile) (b : Bool),
    let x := s.ctx c
    let zz : Fin 16 := Fin.ofNat 16 z.toNat
    q.ins = .chbeg sl z dA tQ dual mask op → commonErr s c q = none → x.z[zz.val] = some t → bankOf t (dual == 1) = some b →
    tdRows q.imgA ≤ t.rows → t.cols ≤ 256 →
    ∃ ws y, cmdResult s c q = { CmdOut.none with acc := [(zz, b, ws)], chain := [(Fin.ofNat 4 sl.toNat, y)] } ∧
      fillsTile x zz b t (tdRows q.imgA) t.cols (fun _ _ => 0) ws ∧
      y.opn = true ∧ y.bound = true ∧ y.z = z ∧ y.dual = (dual == 1) ∧ y.q = q.imgA ∧ y.tq.toNat = tQ.toNat ∧ y.nq = tdRows q.imgA ∧ y.dv = 0 ∧
      y.mode = mask ∧ y.qp = q.x.extractLsb' 0 32 ∧ y.kp = q.x.extractLsb' 32 32 ∧ y.c = (x.y[sl.toNat]).c ∧ y.bc = 0 ∧
      ∀ r : Fin 128, y.m[r.val] = 0xFF800000 ∧ y.l[r.val] = 0 ∧ y.a[r.val] = 0x3F800000) ∧
  (∀ (s : State) (c : CtxId) (q : Cmd) (sl : BitVec 2) (dA dB dM tK tV : BitVec 4) (t : Tile) (b : Bool),
    let x := s.ctx c
    let y := x.y[sl.toNat]
    let zz : Fin 16 := Fin.ofNat 16 y.z.toNat
    let nk := tdRows q.imgA
    let dv := if y.dv = 0 then tdCols q.imgB else y.dv
    let mem (d : BitVec 256) := tileMem s c.coreId d
    let S (r j : Nat) : Nat := accSum y.tq.toNat tK.toNat 0 ((List.range (tdCols y.q)).map fun l =>
      (edgeOp q 0 y.tq.toNat none (tileElem (mem y.q) y.q r l)).mul (edgeOp q 1 tK.toNat none (tileElem (mem q.imgA) q.imgA j l)))
    let hidden (r j : Nat) : Bool :=
      (y.mode.getLsbD 0 && decide (y.qp.toNat + r < y.kp.toNat + j)) || (y.mode.getLsbD 1 && (tileByte (mem q.imgM) q.imgM r (j / 8)).testBit (j % 8))
    let T (r j : Nat) : Nat := if hidden r j then 0xFF800000 else cuff ((f32 (S r j)).mul (f32 y.c.toNat))
    let mx (r : Nat) : Nat := cuffMax (y.m.toList.getD r 0).toNat (((List.range nk).map (T r)).foldl cuffMax 0xFF800000)
    let M (r : Nat) : Nat := if mx r = 0x7F800000 then 0x7FC00000 else mx r
    let A (r : Nat) : Nat := if M r = 0xFF800000 then 0x3F800000 else cuffExp (y.m.toList.getD r 0).toNat (M r)
    let P (r j : Nat) : Nat := if M r = 0xFF800000 then 0 else cuffExp (T r j) (M r)
    let L (r : Nat) : Nat := ((List.range nk).map (P r)).foldl (fun l p => cuff (FV.sum [f32 l, f32 p]))
      (cuff ((f32 (y.l.toList.getD r 0).toNat).mul (f32 (A r))))
    let prob (p : Nat) : Sys2Proof.Machine.FV := match fmtOf tV.toNat with
      | some f => f.decode (f.round (f32 p))
      | none => .nan
    let O (r l : Nat) : W32 := BitVec.ofNat 32 (accSum tV.toNat tV.toNat (rF32 ((f32 (rdCell (t.bank b) (r * 256 + l)).toNat).mul (f32 (A r))))
      ((List.range nk).map fun j => (prob (P r j)).mul (edgeOp q 3 tV.toNat none (tileElem (mem q.imgB) q.imgB j l))))
    q.ins = .chblk sl dA dB dM tK tV → commonErr s c q = none → y.opn = true → y.bound = true → tdCols q.imgA = tdCols y.q → tdRows q.imgB = nk →
    tdCols q.imgB = dv → dv ≤ 256 → dv ≤ t.cols → y.nq ≤ t.rows → y.nq ≤ 128 →
    (y.mode.getLsbD 1 = true → y.nq ≤ tdRows q.imgM ∧ cdiv nk 8 ≤ tdCols q.imgM) →
    y.tq.toNat < 16 → pairOk (BitVec.ofNat 4 y.tq.toNat) tK 0 = true → descGood s c y.q (fun k => k == y.tq.toNat) = true →
    x.z[zz.val] = some t → bankOf t y.dual = some b →
    ∃ ws w, cmdResult s c q = { CmdOut.none with acc := [(zz, b, ws)], chain := [(Fin.ofNat 4 sl.toNat, w)] } ∧
      fillsTile x zz b t y.nq dv O ws ∧
      w = { y with dv := dv, kp := y.kp + BitVec.ofNat 32 nk, bc := y.bc + 1, m := w.m, l := w.l, a := w.a } ∧
      ∀ r : Fin 128, if r.val < y.nq then
          w.m[r.val] = BitVec.ofNat 32 (M r.val) ∧ w.l[r.val] = BitVec.ofNat 32 (L r.val) ∧ w.a[r.val] = BitVec.ofNat 32 (A r.val)
        else w.m[r.val] = y.m[r.val] ∧ w.l[r.val] = y.l[r.val] ∧ w.a[r.val] = y.a[r.val]) ∧
  (∀ (s : State) (c : CtxId) (q : Cmd) (sl : BitVec 2), commonErr s c q = none →
    (q.ins = .chend sl → cmdResult s c q = { CmdOut.none with chain := [(Fin.ofNat 4 sl.toNat, { (s.ctx c).y[sl.toNat] with opn := false })] }) ∧
    (∀ r : Code7, q.ins = .chscl sl r → cmdResult s c q =
      { CmdOut.none with chain := [(Fin.ofNat 4 sl.toNat, { (s.ctx c).y[sl.toNat] with c := q.x.extractLsb' 0 32 })] })) ∧
  (∀ (s : State) (c : CtxId) (q : Cmd) (sl : BitVec 2) (dA : BitVec 4) (n : BitVec 10) (t : Tile) (b : Bool),
    let y := (s.ctx c).y[sl.toNat]
    let d := q.imgA
    let w := bitsOf (tdType d)
    let done (cnt : Nat) : CmdOut :=
      { CmdOut.none with flag := some (n.toNat, BitVec.ofNat 32 cnt), chain := [(Fin.ofNat 4 sl.toNat, { y with bound := false })] }
    let L (r : Nat) : Nat := (y.l.toList.getD r 0).toNat
    let E (r l : Nat) : Nat := if L r = 0 then 0 else match fmtOf (tdType d) with
      | some f => f.round (f32 (rF32 (FV.div (f32 (t.at b r l).toNat) (f32 (L r)))))
      | none => 0
    let B (r k : Nat) : Nat :=
      if w = 4 then E r (2 * k) + 16 * (if 2 * k + 1 < y.dv then E r (2 * k + 1) else tileByte (tileMem s c.coreId d) d r k / 16)
      else E r (k / (w / 8)) / 2 ^ (8 * (k % (w / 8)))
    q.ins = .chfin sl dA n → commonErr s c q = none → y.opn = false → y.bound = true →
    (y.dv = 0 → cmdResult s c q = done y.nq) ∧
    (y.dv ≠ 0 → tdRows d = y.nq → tdCols d = y.dv → (s.ctx c).z[y.z.toNat] = some t → bankOf t y.dual = some b →
      cmdResult s c q = { done ((y.l.toList.take y.nq).countP fun l => l == 0) with
        mem := (List.range y.nq).flatMap fun r => (List.range (cdiv (y.dv * w) 8)).map fun k =>
          (if tdLB d then some (Fin.ofNat 16 (tdLBN d)) else none, tdBase d + r * tdPitch d + swz (tdLay d) r k, [BitVec.ofNat 8 (B r k)]) })) ∧
  (∀ (s : State) (c : CtxId) (q : Cmd) (sa sb : BitVec 2) (t1 : Tile) (b1 : Bool) (o2 : Option (Tile × Bool)),
    let x := s.ctx c
    let y1 := x.y[sa.toNat]
    let y2 := x.y[sb.toNat]
    let dv := max y1.dv y2.dv
    let g (v : Vector W32 128) (r : Nat) : Nat := (v.toList.getD r 0).toNat
    let mx (r : Nat) : Nat := cuffMax (g y1.m r) (g y2.m r)
    let M (r : Nat) : Nat := if mx r = 0x7F800000 then 0x7FC00000 else mx r
    let A (y : Chain) (r : Nat) : Nat := if M r = 0xFF800000 then 0x3F800000 else cuffExp (g y.m r) (M r)
    let LA (y : Chain) (r : Nat) : Nat := cuff ((f32 (g y.l r)).mul (f32 (A y r)))
    let O1 (r l : Nat) : Nat := if y1.dv = 0 then 0 else (t1.at b1 r l).toNat
    let O2 (r l : Nat) : Nat := match o2 with
      | some (t2, b2) => (t2.at b2 r l).toNat
      | none => 0
    let by' (o a : Nat) : Sys2Proof.Machine.FV := f32 (rF32 ((f32 o).mul (f32 a)))
    q.ins = .chmrg sa sb → commonErr s c q = none → y1.opn = false → y1.bound = true → y2.opn = false → y2.bound = true → y1.nq = y2.nq →
    (y1.dv = y2.dv ∨ y1.dv = 0 ∨ y2.dv = 0) → x.z[y1.z.toNat] = some t1 → bankOf t1 y1.dual = some b1 → y1.nq ≤ t1.rows → dv ≤ t1.cols →
    y1.nq ≤ 128 → dv ≤ 256 → (y2.dv = 0 → o2 = none) →
    (y2.dv ≠ 0 → ∃ t2 b2, o2 = some (t2, b2) ∧ x.z[y2.z.toNat] = some t2 ∧ bankOf t2 y2.dual = some b2) →
    ∃ ws w, cmdResult s c q = { CmdOut.none with
        acc := [(Fin.ofNat 16 y1.z.toNat, b1, ws)]
        chain := [(Fin.ofNat 4 sa.toNat, w), (Fin.ofNat 4 sb.toNat, { y2 with bound := false })] } ∧
      fillsTile x (Fin.ofNat 16 y1.z.toNat) b1 t1 y1.nq dv
        (fun r l => BitVec.ofNat 32 (rF32 (FV.sum [by' (O1 r l) (A y1 r), by' (O2 r l) (A y2 r)]))) ws ∧
      w = { y1 with dv := dv, bc := y1.bc + y2.bc, m := w.m, l := w.l } ∧
      ∀ r : Fin 128, if r.val < y1.nq then
          w.m[r.val] = BitVec.ofNat 32 (M r.val) ∧ w.l[r.val] = BitVec.ofNat 32 (cuff (FV.sum [f32 (LA y1 r.val), f32 (LA y2 r.val)]))
        else w.m[r.val] = y1.m[r.val] ∧ w.l[r.val] = y1.l[r.val]) ∧
  (∀ (s : State) (c : CtxId) (q : Cmd) (sl : BitVec 2) (r : Code7),
    let y := (s.ctx c).y[sl.toNat]
    let a := alignDown q.x.toNat 64
    q.ins = .chst sl r → commonErr s c q = none → a + 1600 ≤ csSize → y.nq < 2 ^ 16 → y.dv < 2 ^ 16 →
    ∃ bs, cmdResult s c q = { CmdOut.none with mem := [(none, a, bs)] } ∧ bs.length = 1600 ∧
      ∀ m : Cells 8, let at' (o n : Nat) : Nat := rdLE (wrCells m a bs) (a + o) n
        at' 0 4 = (if y.opn then 1 else 0) + (if y.bound then 2 else 0) + 4 * y.mode.toNat + (if y.dual then 16 else 0) ∧
        at' 4 2 = y.nq ∧ at' 6 2 = y.dv ∧ at' 8 4 = y.bc.toNat ∧ at' 0xC 4 = y.c.toNat ∧ at' 0x10 4 = y.qp.toNat ∧ at' 0x14 4 = y.kp.toNat ∧
        at' 0x18 1 = y.tq.toNat ∧ at' 0x19 7 = 0 ∧ at' 0x20 32 = y.q.toNat ∧
        ∀ r : Fin 128, at' (0x40 + 4 * r.val) 4 = (y.m[r.val]).toNat ∧ at' (0x240 + 4 * r.val) 4 = (y.l[r.val]).toNat ∧
          at' (0x440 + 4 * r.val) 4 = (y.a[r.val]).toNat) ∧
  (∀ (s : State) (c : CtxId) (q : Cmd) (sl : BitVec 2) (z : BitVec 4) (r : Code7),
    let a := alignDown q.x.toNat 64
    let at' (o n : Nat) : Nat := rdLE (s.core c.coreId).store (a + o) n
    let fl := at' 0 4
    let bound := fl.testBit 1
    q.ins = .chld sl z r → commonErr s c q = none → a + 1600 ≤ csSize → fl < 32 → at' 0x19 7 = 0 →
    (bound = true → 1 ≤ at' 4 2 ∧ at' 4 2 ≤ 128 ∧ ∃ t, (s.ctx c).z[z.toNat] = some t ∧ at' 4 2 ≤ t.rows ∧ at' 6 2 ≤ t.cols) →
    ∃ y, cmdResult s c q = { CmdOut.none with chain := [(Fin.ofNat 4 sl.toNat, y)] } ∧
      y.opn = (fl.testBit 0 && bound) ∧ y.bound = bound ∧ y.z = z ∧ y.mode.toNat = fl / 4 % 4 ∧ y.dual = fl.testBit 4 ∧ y.nq = at' 4 2 ∧ y.dv = at' 6 2 ∧
      y.bc.toNat = at' 8 4 ∧ y.c.toNat = at' 0xC 4 ∧ y.qp.toNat = at' 0x10 4 ∧ y.kp.toNat = at' 0x14 4 ∧ y.tq.toNat = at' 0x18 1 ∧
      y.q.toNat = at' 0x20 32 ∧ ∀ r : Fin 128, (y.m[r.val]).toNat = at' (0x40 + 4 * r.val) 4 ∧ (y.l[r.val]).toNat = at' (0x240 + 4 * r.val) 4 ∧
        (y.a[r.val]).toNat = at' (0x440 + 4 * r.val) 4)
end

