-- ==== Sys2Proof/Laws/Encoding.lean ====
section
/-! SUPPORT. Cutting the fields of a packed word gives the fields back, for each slot format, the header and the tree. -/

namespace Sys2Proof

/-- Bits above the low part of an append come from its high part. -/
theorem extract_append_high {n m : Nat} (a : BitVec n) (b : BitVec m) (k l : Nat) (h : m ≤ k) :
    (a ++ b).extractLsb' k l = a.extractLsb' (k - m) l := by
  ext i hi
  simp only [BitVec.getElem_extractLsb', BitVec.getLsbD_append]
  rw [if_neg (by omega)]
  congr 1
  omega
/-- The low bits of an append are its low part. -/
theorem extract_append_low {n m : Nat} (a : BitVec n) (b : BitVec m) : (a ++ b).extractLsb' 0 m = b := by
  ext i hi
  simp [BitVec.getElem_extractLsb', BitVec.getLsbD_append, hi]
/-- All bits of a word are the word. -/
theorem extract_self {n : Nat} (a : BitVec n) : a.extractLsb' 0 n = a := by
  ext i hi
  simp
/-- Format AB. -/
theorem cutAB_packAB (f : FAB) : cutAB (packAB f) = f := by
  obtain ⟨var, dst, y, x, op⟩ := f
  refine FAB.mk.injEq .. ▸ ?_
  change (var ++ dst ++ y ++ x ++ op : BitVec (4+7+7+7+7)).extractLsb' 28 4 = var ∧ (var ++ dst ++ y ++ x ++ op : BitVec (4+7+7+7+7)).extractLsb' 21 7 = dst ∧ (var ++ dst ++ y ++ x ++ op : BitVec (4+7+7+7+7)).extractLsb' 14 7 = y ∧ (var ++ dst ++ y ++ x ++ op : BitVec (4+7+7+7+7)).extractLsb' 7 7 = x ∧ (var ++ dst ++ y ++ x ++ op : BitVec (4+7+7+7+7)).extractLsb' 0 7 = op
  refine ⟨?_, ?_, ?_, ?_, ?_⟩ <;>
    simp (disch := decide) only [extract_append_high, extract_append_low, Nat.reduceSub, extract_self, Nat.sub_self]
/-- Format LA. -/
theorem cutLA_packLA (f : FLA) : cutLA (packLA f) = f := by
  obtain ⟨imm, data, base, op⟩ := f
  refine FLA.mk.injEq .. ▸ ?_
  change (imm ++ data ++ base ++ op : BitVec (18+7+7+8)).extractLsb' 22 18 = imm ∧ (imm ++ data ++ base ++ op : BitVec (18+7+7+8)).extractLsb' 15 7 = data ∧ (imm ++ data ++ base ++ op : BitVec (18+7+7+8)).extractLsb' 8 7 = base ∧ (imm ++ data ++ base ++ op : BitVec (18+7+7+8)).extractLsb' 0 8 = op
  refine ⟨?_, ?_, ?_, ?_⟩ <;>
    simp (disch := decide) only [extract_append_high, extract_append_low, Nat.reduceSub, extract_self, Nat.sub_self]
/-- Format LM. -/
theorem cutLM_packLM (f : FLM) : cutLM (packLM f) = f := by
  obtain ⟨imm, slice, base, op⟩ := f
  refine FLM.mk.injEq .. ▸ ?_
  change (imm ++ slice ++ base ++ op : BitVec (13+12+7+8)).extractLsb' 27 13 = imm ∧ (imm ++ slice ++ base ++ op : BitVec (13+12+7+8)).extractLsb' 15 12 = slice ∧ (imm ++ slice ++ base ++ op : BitVec (13+12+7+8)).extractLsb' 8 7 = base ∧ (imm ++ slice ++ base ++ op : BitVec (13+12+7+8)).extractLsb' 0 8 = op
  refine ⟨?_, ?_, ?_, ?_⟩ <;>
    simp (disch := decide) only [extract_append_high, extract_append_low, Nat.reduceSub, extract_self, Nat.sub_self]
/-- Format LH. -/
theorem cutLH_packLH (f : FLH) : cutLH (packLH f) = f := by
  obtain ⟨imm, data, off, h, op⟩ := f
  refine FLH.mk.injEq .. ▸ ?_
  change (imm ++ data ++ off ++ h ++ op : BitVec (14+7+7+4+8)).extractLsb' 26 14 = imm ∧ (imm ++ data ++ off ++ h ++ op : BitVec (14+7+7+4+8)).extractLsb' 19 7 = data ∧ (imm ++ data ++ off ++ h ++ op : BitVec (14+7+7+4+8)).extractLsb' 12 7 = off ∧ (imm ++ data ++ off ++ h ++ op : BitVec (14+7+7+4+8)).extractLsb' 8 4 = h ∧ (imm ++ data ++ off ++ h ++ op : BitVec (14+7+7+4+8)).extractLsb' 0 8 = op
  refine ⟨?_, ?_, ?_, ?_, ?_⟩ <;>
    simp (disch := decide) only [extract_append_high, extract_append_low, Nat.reduceSub, extract_self, Nat.sub_self]
/-- Format V. -/
theorem cutV_packV (f : FV) : cutV (packV f) = f := by
  obtain ⟨ty, b, a, d, rel, op⟩ := f
  refine FV.mk.injEq .. ▸ ?_
  change (ty ++ b ++ a ++ d ++ rel ++ op : BitVec (4+12+12+12+1+7)).extractLsb' 44 4 = ty ∧ (ty ++ b ++ a ++ d ++ rel ++ op : BitVec (4+12+12+12+1+7)).extractLsb' 32 12 = b ∧ (ty ++ b ++ a ++ d ++ rel ++ op : BitVec (4+12+12+12+1+7)).extractLsb' 20 12 = a ∧ (ty ++ b ++ a ++ d ++ rel ++ op : BitVec (4+12+12+12+1+7)).extractLsb' 8 12 = d ∧ (ty ++ b ++ a ++ d ++ rel ++ op : BitVec (4+12+12+12+1+7)).extractLsb' 7 1 = rel ∧ (ty ++ b ++ a ++ d ++ rel ++ op : BitVec (4+12+12+12+1+7)).extractLsb' 0 7 = op
  refine ⟨?_, ?_, ?_, ?_, ?_, ?_⟩ <;>
    simp (disch := decide) only [extract_append_high, extract_append_low, Nat.reduceSub, extract_self, Nat.sub_self]
/-- Format M. -/
theorem cutM_packM (f : FM) : cutM (packM f) = f := by
  obtain ⟨imm, dual, sclsrc, mx, acc, tB, tA, z, dB, dA, op⟩ := f
  refine FM.mk.injEq .. ▸ ?_
  change (imm ++ dual ++ sclsrc ++ mx ++ acc ++ tB ++ tA ++ z ++ dB ++ dA ++ op : BitVec (16+1+1+1+1+4+4+4+4+4+8)).extractLsb' 32 16 = imm ∧ (imm ++ dual ++ sclsrc ++ mx ++ acc ++ tB ++ tA ++ z ++ dB ++ dA ++ op : BitVec (16+1+1+1+1+4+4+4+4+4+8)).extractLsb' 31 1 = dual ∧ (imm ++ dual ++ sclsrc ++ mx ++ acc ++ tB ++ tA ++ z ++ dB ++ dA ++ op : BitVec (16+1+1+1+1+4+4+4+4+4+8)).extractLsb' 30 1 = sclsrc ∧ (imm ++ dual ++ sclsrc ++ mx ++ acc ++ tB ++ tA ++ z ++ dB ++ dA ++ op : BitVec (16+1+1+1+1+4+4+4+4+4+8)).extractLsb' 29 1 = mx ∧ (imm ++ dual ++ sclsrc ++ mx ++ acc ++ tB ++ tA ++ z ++ dB ++ dA ++ op : BitVec (16+1+1+1+1+4+4+4+4+4+8)).extractLsb' 28 1 = acc ∧ (imm ++ dual ++ sclsrc ++ mx ++ acc ++ tB ++ tA ++ z ++ dB ++ dA ++ op : BitVec (16+1+1+1+1+4+4+4+4+4+8)).extractLsb' 24 4 = tB ∧ (imm ++ dual ++ sclsrc ++ mx ++ acc ++ tB ++ tA ++ z ++ dB ++ dA ++ op : BitVec (16+1+1+1+1+4+4+4+4+4+8)).extractLsb' 20 4 = tA ∧ (imm ++ dual ++ sclsrc ++ mx ++ acc ++ tB ++ tA ++ z ++ dB ++ dA ++ op : BitVec (16+1+1+1+1+4+4+4+4+4+8)).extractLsb' 16 4 = z ∧ (imm ++ dual ++ sclsrc ++ mx ++ acc ++ tB ++ tA ++ z ++ dB ++ dA ++ op : BitVec (16+1+1+1+1+4+4+4+4+4+8)).extractLsb' 12 4 = dB ∧ (imm ++ dual ++ sclsrc ++ mx ++ acc ++ tB ++ tA ++ z ++ dB ++ dA ++ op : BitVec (16+1+1+1+1+4+4+4+4+4+8)).extractLsb' 8 4 = dA ∧ (imm ++ dual ++ sclsrc ++ mx ++ acc ++ tB ++ tA ++ z ++ dB ++ dA ++ op : BitVec (16+1+1+1+1+4+4+4+4+4+8)).extractLsb' 0 8 = op
  refine ⟨?_, ?_, ?_, ?_, ?_, ?_, ?_, ?_, ?_, ?_, ?_⟩ <;>
    simp (disch := decide) only [extract_append_high, extract_append_low, Nat.reduceSub, extract_self, Nat.sub_self]
/-- Format C. -/
theorem cutC_packC (f : FC) : cutC (packC f) = f := by
  obtain ⟨imm, y, x, op⟩ := f
  refine FC.mk.injEq .. ▸ ?_
  change (imm ++ y ++ x ++ op : BitVec (18+7+7+8)).extractLsb' 22 18 = imm ∧ (imm ++ y ++ x ++ op : BitVec (18+7+7+8)).extractLsb' 15 7 = y ∧ (imm ++ y ++ x ++ op : BitVec (18+7+7+8)).extractLsb' 8 7 = x ∧ (imm ++ y ++ x ++ op : BitVec (18+7+7+8)).extractLsb' 0 8 = op
  refine ⟨?_, ?_, ?_, ?_⟩ <;>
    simp (disch := decide) only [extract_append_high, extract_append_low, Nat.reduceSub, extract_self, Nat.sub_self]
/-- Format S. -/
theorem cutS_packS (f : FS) : cutS (packS f) = f := by
  obtain ⟨latch, row, m, op⟩ := f
  refine FS.mk.injEq .. ▸ ?_
  change (latch ++ row ++ m ++ op : BitVec (2+5+5+4)).extractLsb' 14 2 = latch ∧ (latch ++ row ++ m ++ op : BitVec (2+5+5+4)).extractLsb' 9 5 = row ∧ (latch ++ row ++ m ++ op : BitVec (2+5+5+4)).extractLsb' 4 5 = m ∧ (latch ++ row ++ m ++ op : BitVec (2+5+5+4)).extractLsb' 0 4 = op
  refine ⟨?_, ?_, ?_, ?_⟩ <;>
    simp (disch := decide) only [extract_append_high, extract_append_low, Nat.reduceSub, extract_self, Nat.sub_self]
/-- Format H. -/
theorem cutH_packH (f : FH) : cutH (packH f) = f := by
  obtain ⟨res1, port5, port4, port3, port2, port1, port0, maskC, maskM, maskV, maskL, maskB, maskA, res0, yld, stall⟩ := f
  refine FH.mk.injEq .. ▸ ?_
  change (res1 ++ port5 ++ port4 ++ port3 ++ port2 ++ port1 ++ port0 ++ maskC ++ maskM ++ maskV ++ maskL ++ maskB ++ maskA ++ res0 ++ yld ++ stall : BitVec (4+4+4+4+4+4+4+5+5+5+5+5+5+1+1+4)).extractLsb' 60 4 = res1 ∧ (res1 ++ port5 ++ port4 ++ port3 ++ port2 ++ port1 ++ port0 ++ maskC ++ maskM ++ maskV ++ maskL ++ maskB ++ maskA ++ res0 ++ yld ++ stall : BitVec (4+4+4+4+4+4+4+5+5+5+5+5+5+1+1+4)).extractLsb' 56 4 = port5 ∧ (res1 ++ port5 ++ port4 ++ port3 ++ port2 ++ port1 ++ port0 ++ maskC ++ maskM ++ maskV ++ maskL ++ maskB ++ maskA ++ res0 ++ yld ++ stall : BitVec (4+4+4+4+4+4+4+5+5+5+5+5+5+1+1+4)).extractLsb' 52 4 = port4 ∧ (res1 ++ port5 ++ port4 ++ port3 ++ port2 ++ port1 ++ port0 ++ maskC ++ maskM ++ maskV ++ maskL ++ maskB ++ maskA ++ res0 ++ yld ++ stall : BitVec (4+4+4+4+4+4+4+5+5+5+5+5+5+1+1+4)).extractLsb' 48 4 = port3 ∧ (res1 ++ port5 ++ port4 ++ port3 ++ port2 ++ port1 ++ port0 ++ maskC ++ maskM ++ maskV ++ maskL ++ maskB ++ maskA ++ res0 ++ yld ++ stall : BitVec (4+4+4+4+4+4+4+5+5+5+5+5+5+1+1+4)).extractLsb' 44 4 = port2 ∧ (res1 ++ port5 ++ port4 ++ port3 ++ port2 ++ port1 ++ port0 ++ maskC ++ maskM ++ maskV ++ maskL ++ maskB ++ maskA ++ res0 ++ yld ++ stall : BitVec (4+4+4+4+4+4+4+5+5+5+5+5+5+1+1+4)).extractLsb' 40 4 = port1 ∧ (res1 ++ port5 ++ port4 ++ port3 ++ port2 ++ port1 ++ port0 ++ maskC ++ maskM ++ maskV ++ maskL ++ maskB ++ maskA ++ res0 ++ yld ++ stall : BitVec (4+4+4+4+4+4+4+5+5+5+5+5+5+1+1+4)).extractLsb' 36 4 = port0 ∧ (res1 ++ port5 ++ port4 ++ port3 ++ port2 ++ port1 ++ port0 ++ maskC ++ maskM ++ maskV ++ maskL ++ maskB ++ maskA ++ res0 ++ yld ++ stall : BitVec (4+4+4+4+4+4+4+5+5+5+5+5+5+1+1+4)).extractLsb' 31 5 = maskC ∧ (res1 ++ port5 ++ port4 ++ port3 ++ port2 ++ port1 ++ port0 ++ maskC ++ maskM ++ maskV ++ maskL ++ maskB ++ maskA ++ res0 ++ yld ++ stall : BitVec (4+4+4+4+4+4+4+5+5+5+5+5+5+1+1+4)).extractLsb' 26 5 = maskM ∧ (res1 ++ port5 ++ port4 ++ port3 ++ port2 ++ port1 ++ port0 ++ maskC ++ maskM ++ maskV ++ maskL ++ maskB ++ maskA ++ res0 ++ yld ++ stall : BitVec (4+4+4+4+4+4+4+5+5+5+5+5+5+1+1+4)).extractLsb' 21 5 = maskV ∧ (res1 ++ port5 ++ port4 ++ port3 ++ port2 ++ port1 ++ port0 ++ maskC ++ maskM ++ maskV ++ maskL ++ maskB ++ maskA ++ res0 ++ yld ++ stall : BitVec (4+4+4+4+4+4+4+5+5+5+5+5+5+1+1+4)).extractLsb' 16 5 = maskL ∧ (res1 ++ port5 ++ port4 ++ port3 ++ port2 ++ port1 ++ port0 ++ maskC ++ maskM ++ maskV ++ maskL ++ maskB ++ maskA ++ res0 ++ yld ++ stall : BitVec (4+4+4+4+4+4+4+5+5+5+5+5+5+1+1+4)).extractLsb' 11 5 = maskB ∧ (res1 ++ port5 ++ port4 ++ port3 ++ port2 ++ port1 ++ port0 ++ maskC ++ maskM ++ maskV ++ maskL ++ maskB ++ maskA ++ res0 ++ yld ++ stall : BitVec (4+4+4+4+4+4+4+5+5+5+5+5+5+1+1+4)).extractLsb' 6 5 = maskA ∧ (res1 ++ port5 ++ port4 ++ port3 ++ port2 ++ port1 ++ port0 ++ maskC ++ maskM ++ maskV ++ maskL ++ maskB ++ maskA ++ res0 ++ yld ++ stall : BitVec (4+4+4+4+4+4+4+5+5+5+5+5+5+1+1+4)).extractLsb' 5 1 = res0 ∧ (res1 ++ port5 ++ port4 ++ port3 ++ port2 ++ port1 ++ port0 ++ maskC ++ maskM ++ maskV ++ maskL ++ maskB ++ maskA ++ res0 ++ yld ++ stall : BitVec (4+4+4+4+4+4+4+5+5+5+5+5+5+1+1+4)).extractLsb' 4 1 = yld ∧ (res1 ++ port5 ++ port4 ++ port3 ++ port2 ++ port1 ++ port0 ++ maskC ++ maskM ++ maskV ++ maskL ++ maskB ++ maskA ++ res0 ++ yld ++ stall : BitVec (4+4+4+4+4+4+4+5+5+5+5+5+5+1+1+4)).extractLsb' 0 4 = stall
  refine ⟨?_, ?_, ?_, ?_, ?_, ?_, ?_, ?_, ?_, ?_, ?_, ?_, ?_, ?_, ?_, ?_⟩ <;>
    simp (disch := decide) only [extract_append_high, extract_append_low, Nat.reduceSub, extract_self, Nat.sub_self]
/-- Format T. -/
theorem cutT_packT (f : FT) : cutT (packT f) = f := by
  obtain ⟨leaf4, leaf3, leaf2, leaf1, leaf0, test3, test2, test1, test0, shape⟩ := f
  refine FT.mk.injEq .. ▸ ?_
  change (leaf4 ++ leaf3 ++ leaf2 ++ leaf1 ++ leaf0 ++ test3 ++ test2 ++ test1 ++ test0 ++ shape : BitVec (3+3+3+3+3+11+11+11+11+5)).extractLsb' 61 3 = leaf4 ∧ (leaf4 ++ leaf3 ++ leaf2 ++ leaf1 ++ leaf0 ++ test3 ++ test2 ++ test1 ++ test0 ++ shape : BitVec (3+3+3+3+3+11+11+11+11+5)).extractLsb' 58 3 = leaf3 ∧ (leaf4 ++ leaf3 ++ leaf2 ++ leaf1 ++ leaf0 ++ test3 ++ test2 ++ test1 ++ test0 ++ shape : BitVec (3+3+3+3+3+11+11+11+11+5)).extractLsb' 55 3 = leaf2 ∧ (leaf4 ++ leaf3 ++ leaf2 ++ leaf1 ++ leaf0 ++ test3 ++ test2 ++ test1 ++ test0 ++ shape : BitVec (3+3+3+3+3+11+11+11+11+5)).extractLsb' 52 3 = leaf1 ∧ (leaf4 ++ leaf3 ++ leaf2 ++ leaf1 ++ leaf0 ++ test3 ++ test2 ++ test1 ++ test0 ++ shape : BitVec (3+3+3+3+3+11+11+11+11+5)).extractLsb' 49 3 = leaf0 ∧ (leaf4 ++ leaf3 ++ leaf2 ++ leaf1 ++ leaf0 ++ test3 ++ test2 ++ test1 ++ test0 ++ shape : BitVec (3+3+3+3+3+11+11+11+11+5)).extractLsb' 38 11 = test3 ∧ (leaf4 ++ leaf3 ++ leaf2 ++ leaf1 ++ leaf0 ++ test3 ++ test2 ++ test1 ++ test0 ++ shape : BitVec (3+3+3+3+3+11+11+11+11+5)).extractLsb' 27 11 = test2 ∧ (leaf4 ++ leaf3 ++ leaf2 ++ leaf1 ++ leaf0 ++ test3 ++ test2 ++ test1 ++ test0 ++ shape : BitVec (3+3+3+3+3+11+11+11+11+5)).extractLsb' 16 11 = test1 ∧ (leaf4 ++ leaf3 ++ leaf2 ++ leaf1 ++ leaf0 ++ test3 ++ test2 ++ test1 ++ test0 ++ shape : BitVec (3+3+3+3+3+11+11+11+11+5)).extractLsb' 5 11 = test0 ∧ (leaf4 ++ leaf3 ++ leaf2 ++ leaf1 ++ leaf0 ++ test3 ++ test2 ++ test1 ++ test0 ++ shape : BitVec (3+3+3+3+3+11+11+11+11+5)).extractLsb' 0 5 = shape
  refine ⟨?_, ?_, ?_, ?_, ?_, ?_, ?_, ?_, ?_, ?_⟩ <;>
    simp (disch := decide) only [extract_append_high, extract_append_low, Nat.reduceSub, extract_self, Nat.sub_self]

end Sys2Proof
end

