-- ==== Sys2Proof/Laws/Frames.lean ====
section
/-! SUPPORT. What the bytes of a frame say: its fields from its header, and that a frame sealed under a key opens under it to the payload it was made
from. Then the lengths of digests. -/

namespace Sys2Proof.Machine

theorem toBytes_length (n v : Nat) : (toBytes n v).length = n := by
  induction n generalizing v with
  | zero => rfl
  | succ n ih => simp [toBytes, ih]
theorem ofBytes_toBytes (n v : Nat) (h : v < 2 ^ (8 * n)) : ofBytes (toBytes n v) = v := by
  induction n generalizing v with
  | zero =>
    simp only [Nat.mul_zero, Nat.pow_zero] at h
    simp only [toBytes, ofBytes]
    omega
  | succ n ih =>
    have h' : v / 256 < 2 ^ (8 * n) := by
      rw [Nat.mul_add, Nat.pow_add] at h
      exact Nat.div_lt_of_lt_mul (by omega)
    simp only [toBytes, ofBytes, ih _ h', BitVec.toNat_ofNat]
    omega

/-! ## The fields of a frame -/

/-- The bytes of a frame are a header, a payload of the length that it names, and the rest. -/
theorem frame_fields {f : Frame} {kind : Byte} {t : BitVec 4} {n : Nat} {q : W64} {x y : List Byte}
    (h : f.bytes = frameHead kind t n q ++ x ++ y) (hn : n < 65536) (hx : x.length = n) :
    frameKind f = kind.toNat ∧ frameTen f = t ∧ frameLen f = n ∧ frameSeq f = q ∧ framePayload f = x ∧ frameTag f = y ∧
      f.bytes.take 16 = frameHead kind t n q ∧ fieldOf f.bytes 0 4 = frameMagic.toNat ∧ fieldOf f.bytes 5 1 = t.toNat := by
  have hl : (frameHead kind t n q).length = 16 := by simp [frameHead, toBytes_length]
  have ht := t.isLt
  have hlen : frameLen f = n := by
    have e : (f.bytes.drop 6).take 2 = toBytes 2 n := by simp [h, frameHead, toBytes]
    rw [frameLen, fieldOf, e, ofBytes_toBytes _ _ (by omega)]
  have h5 : fieldOf f.bytes 5 1 = t.toNat := by
    have e : (f.bytes.drop 5).take 1 = [t.setWidth 8] := by simp [h, frameHead, toBytes]
    rw [fieldOf, e]
    simp only [ofBytes, BitVec.toNat_setWidth]
    omega
  refine ⟨?_, ?_, hlen, ?_, ?_, ?_, ?_, ?_, h5⟩
  · have e : (f.bytes.drop 4).take 1 = [kind] := by simp [h, frameHead, toBytes]
    simp [frameKind, fieldOf, e, ofBytes]
  · simp [frameTen, h5]
  · have e : (f.bytes.drop 8).take 8 = toBytes 8 q.toNat := by simp [h, frameHead, toBytes]
    rw [frameSeq, fieldOf, e, ofBytes_toBytes _ _ q.isLt]
    simp
  · rw [framePayload, hlen, h, List.append_assoc, List.drop_left' hl, List.take_left' hx]
  · rw [frameTag, hlen, h, List.drop_left' (by simp [hl, hx])]
  · rw [h, List.append_assoc, List.take_left' hl]
  · have e : (f.bytes.drop 0).take 4 = toBytes 4 frameMagic.toNat := by simp [h, frameHead, toBytes]
    rw [fieldOf, e, ofBytes_toBytes _ _ (by decide)]

/-! ## Sealing -/

theorem gcmCrypt_eq (key nonce data : List Byte) : gcmCrypt key nonce data =
    List.zipWith (· ^^^ ·) data (natBytes (keyStream (roundKeys (byteNats key)) (byteNats nonce) data.length)) := rfl
/-- The last round key has 16 bytes, so that blocks have. -/
theorem aesBlock_length {rk : List (List Nat)} (h : (rk.getD 14 []).length = 16) (b : List Nat) : (aesBlock rk b).length = 16 := by
  simp only [aesBlock, xorBytes, subShift, List.length_zipWith, List.length_map, List.length_range, h, Nat.min_self]
theorem keyStream_length {rk : List (List Nat)} (h : (rk.getD 14 []).length = 16) (nonce : List Nat) (n : Nat) :
    (keyStream rk nonce n).length = n := by
  have hm : ∀ m : Nat, ((List.range m).flatMap fun i => aesBlock rk (nonce ++ beBytes 4 (i + 2))).length = 16 * m := by
    intro m
    simp [List.length_flatMap, aesBlock_length h, List.map_const', Nat.mul_comm]
  rw [keyStream, List.length_take, hm]
  simp only [cdiv]
  omega
theorem gcmCrypt_length {key : List Byte} (h : ((roundKeys (byteNats key)).getD 14 []).length = 16) (nonce data : List Byte) :
    (gcmCrypt key nonce data).length = data.length := by
  simp [gcmCrypt_eq, natBytes, keyStream_length h]
theorem gcmTag_length {key : List Byte} (h : ((roundKeys (byteNats key)).getD 14 []).length = 16) (nonce aad ct : List Byte) :
    (gcmTag key nonce aad ct).length = 16 := by
  simp [gcmTag, natBytes, xorBytes, aesBlock_length h, beBytes]
theorem xor_twice (a k : List Byte) (h : a.length ≤ k.length) :
    List.zipWith (· ^^^ ·) (List.zipWith (· ^^^ ·) a k) k = a := by
  induction a generalizing k with
  | nil => rfl
  | cons x r ih => match k, h with
    | y :: k, h => simp [ih k (by simpa using h), BitVec.xor_assoc]
/-- What is enciphered is deciphered under the same key and nonce. -/
theorem gcmCrypt_gcmCrypt {key : List Byte} (h : ((roundKeys (byteNats key)).getD 14 []).length = 16) (nonce data : List Byte) :
    gcmCrypt key nonce (gcmCrypt key nonce data) = data := by
  rw [gcmCrypt_eq, gcmCrypt_length h]
  exact xor_twice _ _ (by simp [natBytes, keyStream_length h])
/-- A frame sealed by the host under a tenant's key opens to its payload where its SEQ is fresh. -/
theorem frameText_sealed {s : State} {f : Frame} {key : BitVec 256} {kind : Byte} {t : BitVec 4} {q : W64} {p : List Byte}
    (hf : f.bytes = sealFrame key 0 kind t q p) (hk : ((roundKeys (byteNats (toBytes 32 key.toNat))).getD 14 []).length = 16)
    (hn : p.length ≤ 8192) (hh : hostKinds.contains kind.toNat = true) (hq : seqFresh (s.ten t) q = true) (hs : (s.ten t).key = some key) :
    frameText s f = some p := by
  obtain ⟨h1, h2, h3, h4, h5, h6, h7, h8, h9⟩ := frame_fields (f := f) hf (by omega) (gcmCrypt_length hk _ p)
  have hl : f.bytes.length = 32 + p.length := by
    rw [hf, sealFrame]
    simp only [List.length_append, gcmCrypt_length hk, gcmTag_length hk, frameHead, toBytes_length, List.length_cons, List.length_nil]
    omega
  have hw : frameFormed f = true := by
    have ht := t.isLt
    simp only [frameFormed, h3, hl, h8, h9, h1, hh, hn, Bool.and_true, beq_self_eq_true, decide_true]
    simpa using ht
  unfold frameText
  simp only [hw, h2, h4, hq, hs, Bool.and_self, if_true, openFrame, h5, h6, h7, gcmCrypt_gcmCrypt hk]

/-! ## Digests -/

theorem keccakF_length (a : List Nat) : (keccakF a).length = 25 := by
  have h : ∀ (a : List Nat) (c : Nat), (keccakRound a c).length = 25 := by
    intro a c
    simp [keccakRound]
  rw [keccakF, List.range_succ, List.foldl_append]
  exact h _ _
theorem absorb_length (r : Nat) (x : Byte) : ∀ (f : Nat) (m : List Byte) (a : List Nat), a.length = 25 → (absorb r x f m a).length = 25
  | 0, _, _, h => h
  | f + 1, m, a, _ => by
    unfold absorb
    split
    · exact absorb_length r x f _ _ (keccakF_length _)
    · exact keccakF_length _
theorem laneBytes_length (a : List Nat) : (laneBytes a).length = 8 * a.length := by
  simp [laneBytes, List.length_flatMap, toBytes_length, List.map_const', Nat.mul_comm]
theorem squeeze_length {r : Nat} (hr : r ≤ 200) : ∀ (n : Nat) (a : List Nat), a.length = 25 → (squeeze r n a).length = r * n
  | 0, _, _ => rfl
  | n + 1, a, h => by
    simp only [squeeze, List.length_append, List.length_take, laneBytes_length, h, squeeze_length hr n _ (keccakF_length _)]
    rw [Nat.mul_add]
    omega
/-- A digest has the bytes asked for. -/
theorem sponge_length {r : Nat} (h0 : 0 < r) (hr : r ≤ 200) (x : Byte) (n : Nat) (m : List Byte) : (sponge r x n m).length = n := by
  have h := Nat.div_add_mod (n + r - 1) r
  have h2 := Nat.mod_lt (n + r - 1) h0
  rw [sponge, List.length_take, squeeze_length hr _ _ (absorb_length _ _ _ _ _ (by simp)), cdiv]
  omega

end Sys2Proof.Machine
end

