-- ==== Sys2Proof/Laws/Issue.lean ====
section
/-! SUPPORT. What the run of one slot's plan comes to: a plan whose operands are ready performs, waits or traps as its own
function says. -/

namespace Sys2Proof.Machine

theorem takePorts_eq (c : CtxId) (p : Plan) (s : State) : takePorts c p s = takeAll c (p.srcs.map Prod.snd) s := by
  simp only [takePorts, takeAll, Plan.ports, List.filterMap_map]
  rfl

theorem firstSome_none {α β : Type} {f : α → Option β} {l : List α} (h : ∀ a ∈ l, f a = none) : firstSome f l = none := by
  induction l with
  | nil => rfl
  | cons a r ih =>
    simp only [firstSome, h a (by simp)]
    exact ih fun b hb => h b (by simp [hb])

theorem firstSome_isNone {α β : Type} {f : α → Option β} {l : List α} :
    firstSome f l = none ↔ ∀ a ∈ l, f a = none := by
  constructor
  · intro h a ha
    induction l with
    | nil => simp at ha
    | cons b r ih =>
      cases hb : f b with
      | some v => simp [firstSome, hb] at h
      | none =>
        simp only [firstSome, hb] at h
        rcases List.mem_cons.mp ha with rfl | ha
        · exact hb
        · exact ih h ha
  · exact firstSome_none

theorem ports_mem {p : Plan} {n : Nat} : n ∈ p.ports ↔ ∃ q ∈ p.srcs.map Prod.snd, portOf q = some n := by
  simp only [Plan.ports, List.mem_filterMap, List.mem_map]
  constructor
  · rintro ⟨a, ha, h⟩; exact ⟨a.2, ⟨a, ha, rfl⟩, h⟩
  · rintro ⟨_, ⟨a, ha, rfl⟩, h⟩; exact ⟨a, ha, h⟩

/-- The four facts that readiness gives about a plan. -/
theorem ready_plan {p : Plan} {s : State} (h : ready s (p.srcs.map Prod.snd) p.mrds p.dst p.stalls = true) :
    operandFreeze s s.focus p = false ∧ specStall s s.focus p = false ∧ firstSome (portCheck s s.focus) p.ports = none ∧
    stallShort (s.ctx s.focus) p = none := by
  simp only [ready, Bool.and_eq_true] at h
  obtain ⟨⟨⟨⟨hu, hd⟩, hs⟩, hp⟩, hl⟩ := h
  simp only [unlocked, List.all_eq_true, Bool.not_eq_true'] at hu
  have hstream : ∀ n ∈ p.ports, portEmpty s s.focus n = false ∧ portBusy s s.focus n = false ∧
      (portReads s s.focus n && acqPending s s.focus) = false ∧ portCheck s s.focus n = none := by
    intro n hn
    obtain ⟨q, hq, hqn⟩ := ports_mem.mp hn
    have := (List.all_eq_true.mp hs) q hq
    simp only [hqn, Bool.and_eq_true, Bool.not_eq_true', Option.isNone_iff_eq_none] at this
    exact ⟨this.1.1.1, this.1.1.2, this.1.2, this.2⟩
  refine ⟨?_, ?_, firstSome_none fun n hn => (hstream n hn).2.2.2, ?_⟩
  · have h1 : p.srcs.any (fun q => locked s s.focus q.2) = false := by
      rw [List.any_eq_false]
      intro q hq
      simpa using hu q.2 (List.mem_map.mpr ⟨q, hq, rfl⟩)
    have h3 : p.ports.any (fun n => portEmpty s s.focus n || portBusy s s.focus n || portReads s s.focus n && acqPending s s.focus) = false := by
      rw [List.any_eq_false]
      intro n hn
      rw [(hstream n hn).1, (hstream n hn).2.1, (hstream n hn).2.2.1]
      simp
    unfold operandFreeze
    rw [h1, h3]
    cases hpd : p.dst with
    | none => rfl
    | some d =>
      rw [hpd] at hd
      simp only [dstReady, Bool.and_eq_true, Bool.not_eq_true'] at hd
      simp only [Bool.false_or, Bool.or_false]
      rw [hd.1, hd.2]
      rfl
  · unfold specStall
    cases hsp : (s.ctx s.focus).spec with
    | none => rfl
    | some q =>
      simp only [pathReady, hsp, Option.isNone_some, Bool.false_or, Bool.and_eq_true, Bool.not_eq_true'] at hp
      obtain ⟨⟨h1, h2⟩, h3⟩ := hp
      simp only [Option.isSome_some, Bool.true_and, stallRow, h1, Bool.false_or]
      have h4 : p.ports.any (fun n => ((s.arch s.focus).ports[(Fin.ofNat 8 n).val]).win.isSome) = false := by
        rw [List.any_eq_false]
        intro n hn
        obtain ⟨q, hq, hqn⟩ := ports_mem.mp hn
        have := (List.all_eq_true.mp h2) q hq
        simpa [hqn, windowPortCode] using this
      rw [h4, Bool.false_or]
      cases hpd : p.dst with
      | none => rfl
      | some d =>
        rw [hpd] at h3
        have h5 : (decide (0x40 ≤ d.toNat) && decide (d.toNat < 0x48) &&
            ((s.arch s.focus).ports[(Fin.ofNat 8 d.toNat).val]).win.isSome) = false := by
          simpa only [windowPortCode, Bool.not_eq_true'] using h3
        exact h5
  · unfold stallShort
    split
    · rfl
    · rename_i hck
      simp only [landedReady, Bool.or_eq_true, beq_iff_eq, Bool.and_eq_true] at hl
      rcases hl with hl | ⟨h1, h2⟩
      · exact absurd hl hck
      · rw [List.all_eq_true] at h1 h2
        have hop : firstSome (fun q : Nat × Code7 =>
            if q.2.toNat < 0x40 then
              (if pendingS (s.ctx s.focus) (physReg (s.ctx s.focus).arch.rot q.2.toNat) then some (⟨0x02, BitVec.ofNat 64 q.2.toNat⟩ : Err) else none)
            else if q.2.toNat < 0x60 then
              (if (s.ctx s.focus).flights.any (·.hem) then some ⟨0x02, BitVec.ofNat 64 q.2.toNat⟩ else none)
            else none) p.srcs = none := by
          apply firstSome_none
          intro q hq
          have := h1 q.2 (List.mem_map.mpr ⟨q, hq, rfl⟩)
          simp only [notLanded, Bool.not_eq_true'] at this
          by_cases h40 : q.2.toNat < 0x40
          · simp only [h40, if_true] at this ⊢
            simp [this]
          · simp only [h40, if_false] at this ⊢
            by_cases h60 : q.2.toNat < 0x60
            · simp only [h60, decide_true, Bool.true_and, if_true] at this ⊢
              simp [this]
            · simp [h60]
        have hm : firstSome (fun m => if pendingM (s.ctx s.focus) m then some (⟨0x02, BitVec.ofNat 64 (0x100 + m)⟩ : Err) else none) p.mrds = none := by
          apply firstSome_none
          intro m hm
          have := h2 m hm
          simp only [Bool.not_eq_true'] at this
          simp [this]
        simp only [hop, hm]

/-- What a ready plan's slot comes to: what its own function says, but that in a committed bundle no slot beside C traps (R422). -/
theorem slotOut_ready {p : Plan} {s : State} (sl : Slot) (h : ready s (p.srcs.map Prod.snd) p.mrds p.dst p.stalls = true) :
    slotOut p sl s.focus s = match p.run sl s.focus s with
      | .go f => .go fun t => takeAll s.focus (p.srcs.map Prod.snd) (f t)
      | .after f => .go fun t => f (takeAll s.focus (p.srcs.map Prod.snd) t)
      | .trap e f => if committed s s.focus && sl != .c then .go (takeAll s.focus (p.srcs.map Prod.snd)) else .trap e f
      | r => r := by
  obtain ⟨h1, h2, h3, -⟩ := ready_plan h
  have hp : takePorts s.focus p = takeAll s.focus (p.srcs.map Prod.snd) := funext (takePorts_eq _ _)
  unfold slotOut
  simp only [h1, h2, h3, Bool.or_false, Bool.false_eq_true, if_false, ite_self, hp]
  all_goals cases p.run sl s.focus s <;> rfl

/-- The scoreboard finds nothing against a ready plan. -/
theorem stallShort_ready {p : Plan} {s : State} (h : ready s (p.srcs.map Prod.snd) p.mrds p.dst p.stalls = true) :
    (if committed s s.focus then none else stallShort (s.ctx s.focus) p) = none := by
  rw [(ready_plan h).2.2.2, ite_self]

/-- A ready plan that performs. -/
theorem runPlan_go {p : Plan} {s : State} {f : State → State}
    (h : ready s (p.srcs.map Prod.snd) p.mrds p.dst p.stalls = true) (hr : p.run p.slot s.focus s = .go f) :
    runPlan p s = .next (takeAll s.focus (p.srcs.map Prod.snd) (f s)) := by
  simp only [runPlan, runAlone, slotOut_ready p.slot h, hr, stallShort_ready h]

/-- A ready plan that performs once its stream elements have been taken. -/
theorem runPlan_after {p : Plan} {s : State} {f : State → State}
    (h : ready s (p.srcs.map Prod.snd) p.mrds p.dst p.stalls = true) (hr : p.run p.slot s.focus s = .after f) :
    runPlan p s = .next (f (takeAll s.focus (p.srcs.map Prod.snd) s)) := by
  simp only [runPlan, runAlone, slotOut_ready p.slot h, hr, stallShort_ready h]

/-- A ready plan that waits with a first-attempt action. -/
theorem runPlan_first {p : Plan} {s : State} {f : State → State}
    (h : ready s (p.srcs.map Prod.snd) p.mrds p.dst p.stalls = true) (hr : p.run p.slot s.focus s = .wait (some f)) :
    runPlan p s = .next (f s) := by
  simp only [runPlan, runAlone, slotOut_ready p.slot h, hr, stallShort_ready h]

/-- A ready plan that waits. -/
theorem runPlan_wait {p : Plan} {s : State}
    (h : ready s (p.srcs.map Prod.snd) p.mrds p.dst p.stalls = true) (hr : p.run p.slot s.focus s = .wait none) :
    runPlan p s = .next s := by
  simp only [runPlan, runAlone, slotOut_ready p.slot h, hr]

/-- A ready plan that freezes. -/
theorem runPlan_freeze {p : Plan} {s : State} {f : State → State}
    (h : ready s (p.srcs.map Prod.snd) p.mrds p.dst p.stalls = true) (hr : p.run p.slot s.focus s = .freeze f) :
    runPlan p s = .next (f s) := by
  simp only [runPlan, runAlone, slotOut_ready p.slot h, hr]

/-- A ready plan that finds a trap, in a bundle that is not committed or in slot C. -/
theorem runPlan_trap {p : Plan} {s : State} {e : Err} {f : State → State}
    (h : ready s (p.srcs.map Prod.snd) p.mrds p.dst p.stalls = true) (hr : p.run p.slot s.focus s = .trap e f)
    (hc : (committed s s.focus && p.slot != .c) = false) :
    runPlan p s = .next (postTrap s.focus e (s.arch s.focus).pc (slotCode p.slot) 0 (f s)) := by
  simp only [runPlan, runAlone, slotOut_ready p.slot h, hr, hc, stallShort_ready h, Bool.false_eq_true, if_false]

end Sys2Proof.Machine
end

