-- ==== Sys2Proof/Laws/State.lean ====
section
/-! SUPPORT. What each update of the state leaves: one lemma per field per update, and reading back a die, core or context
after one is replaced. -/

namespace Sys2Proof.Machine

variable (s : State) (d e : Fin 4) (k q : CoreId) (c o : CtxId)

/-! ## Reading back -/

@[simp] theorem setDie_die_same (x : Die) : (s.setDie d x).die d = x := Vector.getElem_set_self ..
theorem setDie_die_other (x : Die) (h : e ≠ d) : (s.setDie d x).die e = s.die e :=
  Vector.getElem_set_ne d.isLt e.isLt fun he => h (Fin.ext he.symm)
@[simp] theorem setCore_core_same (x : Core) : (s.setCore k x).core k = x := by
  unfold State.core State.setCore
  simp only [setDie_die_same]
  exact Vector.getElem_set_self ..
theorem setCore_core_other (x : Core) (h : q ≠ k) : (s.setCore k x).core q = s.core q := by
  unfold State.core State.setCore
  obtain ⟨qd, qc⟩ := q
  obtain ⟨kd, kc⟩ := k
  by_cases hd : qd = kd
  · subst hd
    simp only [setDie_die_same]
    exact Vector.getElem_set_ne kc.isLt qc.isLt fun he => h (by rw [Fin.ext he])
  · simp only [setDie_die_other _ _ _ _ hd]
theorem setCtx_core_same (x : Ctx) : (s.setCtx c x).core c.coreId = { s.core c.coreId with ctxs := (s.core c.coreId).ctxs.set c.ctx.val x } :=
  setCore_core_same _ _ _
theorem setCtx_core_other (x : Ctx) (h : q ≠ c.coreId) : (s.setCtx c x).core q = s.core q := setCore_core_other _ _ _ _ h
@[simp] theorem setCtx_ctx_same (x : Ctx) : (s.setCtx c x).ctx c = x := by
  unfold State.ctx
  simp only [setCtx_core_same]
  exact Vector.getElem_set_self ..
theorem setCtx_ctx_other (x : Ctx) (h : o ≠ c) : (s.setCtx c x).ctx o = s.ctx o := by
  unfold State.ctx
  by_cases hk : o.coreId = c.coreId
  · simp only [hk, setCtx_core_same]
    refine Vector.getElem_set_ne c.ctx.isLt o.ctx.isLt fun he => h ?_
    cases o; cases c
    simp only [CtxId.coreId, CoreId.mk.injEq] at hk he
    rw [hk.1, hk.2, Fin.ext he]
  · simp only [setCtx_core_other _ _ _ _ hk]
@[simp] theorem modCtx_ctx_same (f : Ctx → Ctx) : (s.modCtx c f).ctx c = f (s.ctx c) := setCtx_ctx_same _ _ _
theorem modCtx_ctx_other (f : Ctx → Ctx) (h : o ≠ c) : (s.modCtx c f).ctx o = s.ctx o := setCtx_ctx_other _ _ _ _ h
@[simp] theorem modCore_core_same (f : Core → Core) : (s.modCore k f).core k = f (s.core k) := setCore_core_same _ _ _
theorem modCore_core_other (f : Core → Core) (h : q ≠ k) : (s.modCore k f).core q = s.core q := setCore_core_other _ _ _ _ h
@[simp] theorem modDie_die_same (f : Die → Die) : (s.modDie d f).die d = f (s.die d) := setDie_die_same _ _ _
theorem modDie_die_other (f : Die → Die) (h : e ≠ d) : (s.modDie d f).die e = s.die e := setDie_die_other _ _ _ _ h
@[simp] theorem modArch_arch_same (f : Arch → Arch) : (s.modArch c f).arch c = f (s.arch c) := by
  simp only [State.arch, State.modArch, modCtx_ctx_same]
@[simp] theorem modArch_ctx_same (f : Arch → Arch) : (s.modArch c f).ctx c = { s.ctx c with arch := f (s.ctx c).arch } :=
  modCtx_ctx_same _ _ _
theorem modArch_ctx_other (f : Arch → Arch) (h : o ≠ c) : (s.modArch c f).ctx o = s.ctx o := modCtx_ctx_other _ _ _ _ h

/-- A change of a context leaves the store of every core. -/
@[simp] theorem setCtx_store (x : Ctx) : ((s.setCtx c x).core q).store = (s.core q).store := by
  by_cases h : q = c.coreId
  · rw [h, setCtx_core_same]
  · rw [setCtx_core_other _ _ _ _ h]
@[simp] theorem modCtx_store (f : Ctx → Ctx) : ((s.modCtx c f).core q).store = (s.core q).store := setCtx_store _ _ _ _
@[simp] theorem modArch_store (f : Arch → Arch) : ((s.modArch c f).core q).store = (s.core q).store := setCtx_store _ _ _ _

/-! ## Fields of the module that an update leaves -/

@[simp] theorem setDie_hbm (x : Die) : (s.setDie d x).hbm = s.hbm := by simp only [State.setDie]
@[simp] theorem setDie_vault (x : Die) : (s.setDie d x).vault = s.vault := by simp only [State.setDie]
@[simp] theorem setDie_hbmStacks (x : Die) : (s.setDie d x).hbmStacks = s.hbmStacks := by simp only [State.setDie]
@[simp] theorem setDie_dpit (x : Die) : (s.setDie d x).dpit = s.dpit := by simp only [State.setDie]
@[simp] theorem setDie_migs (x : Die) : (s.setDie d x).migs = s.migs := by simp only [State.setDie]
@[simp] theorem setDie_pages (x : Die) : (s.setDie d x).pages = s.pages := by simp only [State.setDie]
@[simp] theorem setDie_tenants (x : Die) : (s.setDie d x).tenants = s.tenants := by simp only [State.setDie]
@[simp] theorem setDie_accesses (x : Die) : (s.setDie d x).accesses = s.accesses := by simp only [State.setDie]
@[simp] theorem setDie_rops (x : Die) : (s.setDie d x).rops = s.rops := by simp only [State.setDie]
@[simp] theorem setDie_barriers (x : Die) : (s.setDie d x).barriers = s.barriers := by simp only [State.setDie]
@[simp] theorem setDie_rounds (x : Die) : (s.setDie d x).rounds = s.rounds := by simp only [State.setDie]
@[simp] theorem setDie_left (x : Die) : (s.setDie d x).left = s.left := by simp only [State.setDie]
@[simp] theorem setDie_reconfs (x : Die) : (s.setDie d x).reconfs = s.reconfs := by simp only [State.setDie]
@[simp] theorem setDie_saved (x : Die) : (s.setDie d x).saved = s.saved := by simp only [State.setDie]
@[simp] theorem setDie_teams (x : Die) : (s.setDie d x).teams = s.teams := by simp only [State.setDie]
@[simp] theorem setDie_records (x : Die) : (s.setDie d x).records = s.records := by simp only [State.setDie]
@[simp] theorem setDie_hostReqs (x : Die) : (s.setDie d x).hostReqs = s.hostReqs := by simp only [State.setDie]
@[simp] theorem setDie_runs (x : Die) : (s.setDie d x).runs = s.runs := by simp only [State.setDie]
@[simp] theorem setDie_mapHdrs (x : Die) : (s.setDie d x).mapHdrs = s.mapHdrs := by simp only [State.setDie]
@[simp] theorem setDie_log (x : Die) : (s.setDie d x).log = s.log := by simp only [State.setDie]
@[simp] theorem setDie_logged (x : Die) : (s.setDie d x).logged = s.logged := by simp only [State.setDie]
@[simp] theorem setDie_ptbAfar (x : Die) : (s.setDie d x).ptbAfar = s.ptbAfar := by simp only [State.setDie]
@[simp] theorem setDie_crossOut (x : Die) : (s.setDie d x).crossOut = s.crossOut := by simp only [State.setDie]
@[simp] theorem setDie_hstate (x : Die) : (s.setDie d x).hstate = s.hstate := by simp only [State.setDie]
@[simp] theorem setDie_authfail (x : Die) : (s.setDie d x).authfail = s.authfail := by simp only [State.setDie]
@[simp] theorem setDie_replace (x : Die) : (s.setDie d x).replace = s.replace := by simp only [State.setDie]
@[simp] theorem setDie_warmFails (x : Die) : (s.setDie d x).warmFails = s.warmFails := by simp only [State.setDie]
@[simp] theorem setDie_coldFails (x : Die) : (s.setDie d x).coldFails = s.coldFails := by simp only [State.setDie]
@[simp] theorem setDie_attempts (x : Die) : (s.setDie d x).attempts = s.attempts := by simp only [State.setDie]
@[simp] theorem setDie_staging (x : Die) : (s.setDie d x).staging = s.staging := by simp only [State.setDie]
@[simp] theorem setDie_firmware (x : Die) : (s.setDie d x).firmware = s.firmware := by simp only [State.setDie]
@[simp] theorem setDie_starting (x : Die) : (s.setDie d x).starting = s.starting := by simp only [State.setDie]
@[simp] theorem setDie_vaultSpare (x : Die) : (s.setDie d x).vaultSpare = s.vaultSpare := by simp only [State.setDie]
@[simp] theorem setDie_paramsValid (x : Die) : (s.setDie d x).paramsValid = s.paramsValid := by simp only [State.setDie]
@[simp] theorem setDie_addrs (x : Die) : (s.setDie d x).addrs = s.addrs := by simp only [State.setDie]
@[simp] theorem setDie_corrected (x : Die) : (s.setDie d x).corrected = s.corrected := by simp only [State.setDie]
@[simp] theorem setDie_unsealed (x : Die) : (s.setDie d x).unsealed = s.unsealed := by simp only [State.setDie]
@[simp] theorem setDie_tables (x : Die) : (s.setDie d x).tables = s.tables := by simp only [State.setDie]
@[simp] theorem setDie_podX (x : Die) : (s.setDie d x).podX = s.podX := by simp only [State.setDie]
@[simp] theorem setDie_podY (x : Die) : (s.setDie d x).podY = s.podY := by simp only [State.setDie]
@[simp] theorem setDie_podZ (x : Die) : (s.setDie d x).podZ = s.podZ := by simp only [State.setDie]
@[simp] theorem setDie_oldCopies (x : Die) : (s.setDie d x).oldCopies = s.oldCopies := by simp only [State.setDie]
@[simp] theorem setDie_blkX (x : Die) : (s.setDie d x).blkX = s.blkX := by simp only [State.setDie]
@[simp] theorem setDie_blkY (x : Die) : (s.setDie d x).blkY = s.blkY := by simp only [State.setDie]
@[simp] theorem setDie_blkZ (x : Die) : (s.setDie d x).blkZ = s.blkZ := by simp only [State.setDie]
@[simp] theorem setDie_islands (x : Die) : (s.setDie d x).islands = s.islands := by simp only [State.setDie]
@[simp] theorem setDie_abroad (x : Die) : (s.setDie d x).abroad = s.abroad := by simp only [State.setDie]
@[simp] theorem setDie_mid (x : Die) : (s.setDie d x).mid = s.mid := by simp only [State.setDie]
@[simp] theorem setDie_nextId (x : Die) : (s.setDie d x).nextId = s.nextId := by simp only [State.setDie]
@[simp] theorem setDie_draws (x : Die) : (s.setDie d x).draws = s.draws := by simp only [State.setDie]
@[simp] theorem setDie_focus (x : Die) : (s.setDie d x).focus = s.focus := by simp only [State.setDie]
@[simp] theorem setDie_arg (x : Die) : (s.setDie d x).arg = s.arg := by simp only [State.setDie]
@[simp] theorem setDie_inbox (x : Die) : (s.setDie d x).inbox = s.inbox := by simp only [State.setDie]
@[simp] theorem setDie_outbox (x : Die) : (s.setDie d x).outbox = s.outbox := by simp only [State.setDie]
@[simp] theorem setCore_hbm (x : Core) : (s.setCore k x).hbm = s.hbm := setDie_hbm ..
@[simp] theorem setCore_vault (x : Core) : (s.setCore k x).vault = s.vault := setDie_vault ..
@[simp] theorem setCore_hbmStacks (x : Core) : (s.setCore k x).hbmStacks = s.hbmStacks := setDie_hbmStacks ..
@[simp] theorem setCore_dpit (x : Core) : (s.setCore k x).dpit = s.dpit := setDie_dpit ..
@[simp] theorem setCore_migs (x : Core) : (s.setCore k x).migs = s.migs := setDie_migs ..
@[simp] theorem setCore_pages (x : Core) : (s.setCore k x).pages = s.pages := setDie_pages ..
@[simp] theorem setCore_tenants (x : Core) : (s.setCore k x).tenants = s.tenants := setDie_tenants ..
@[simp] theorem setCore_accesses (x : Core) : (s.setCore k x).accesses = s.accesses := setDie_accesses ..
@[simp] theorem setCore_rops (x : Core) : (s.setCore k x).rops = s.rops := setDie_rops ..
@[simp] theorem setCore_barriers (x : Core) : (s.setCore k x).barriers = s.barriers := setDie_barriers ..
@[simp] theorem setCore_rounds (x : Core) : (s.setCore k x).rounds = s.rounds := setDie_rounds ..
@[simp] theorem setCore_left (x : Core) : (s.setCore k x).left = s.left := setDie_left ..
@[simp] theorem setCore_reconfs (x : Core) : (s.setCore k x).reconfs = s.reconfs := setDie_reconfs ..
@[simp] theorem setCore_saved (x : Core) : (s.setCore k x).saved = s.saved := setDie_saved ..
@[simp] theorem setCore_teams (x : Core) : (s.setCore k x).teams = s.teams := setDie_teams ..
@[simp] theorem setCore_records (x : Core) : (s.setCore k x).records = s.records := setDie_records ..
@[simp] theorem setCore_hostReqs (x : Core) : (s.setCore k x).hostReqs = s.hostReqs := setDie_hostReqs ..
@[simp] theorem setCore_runs (x : Core) : (s.setCore k x).runs = s.runs := setDie_runs ..
@[simp] theorem setCore_mapHdrs (x : Core) : (s.setCore k x).mapHdrs = s.mapHdrs := setDie_mapHdrs ..
@[simp] theorem setCore_log (x : Core) : (s.setCore k x).log = s.log := setDie_log ..
@[simp] theorem setCore_logged (x : Core) : (s.setCore k x).logged = s.logged := setDie_logged ..
@[simp] theorem setCore_ptbAfar (x : Core) : (s.setCore k x).ptbAfar = s.ptbAfar := setDie_ptbAfar ..
@[simp] theorem setCore_crossOut (x : Core) : (s.setCore k x).crossOut = s.crossOut := setDie_crossOut ..
@[simp] theorem setCore_hstate (x : Core) : (s.setCore k x).hstate = s.hstate := setDie_hstate ..
@[simp] theorem setCore_authfail (x : Core) : (s.setCore k x).authfail = s.authfail := setDie_authfail ..
@[simp] theorem setCore_replace (x : Core) : (s.setCore k x).replace = s.replace := setDie_replace ..
@[simp] theorem setCore_warmFails (x : Core) : (s.setCore k x).warmFails = s.warmFails := setDie_warmFails ..
@[simp] theorem setCore_coldFails (x : Core) : (s.setCore k x).coldFails = s.coldFails := setDie_coldFails ..
@[simp] theorem setCore_attempts (x : Core) : (s.setCore k x).attempts = s.attempts := setDie_attempts ..
@[simp] theorem setCore_staging (x : Core) : (s.setCore k x).staging = s.staging := setDie_staging ..
@[simp] theorem setCore_firmware (x : Core) : (s.setCore k x).firmware = s.firmware := setDie_firmware ..
@[simp] theorem setCore_starting (x : Core) : (s.setCore k x).starting = s.starting := setDie_starting ..
@[simp] theorem setCore_vaultSpare (x : Core) : (s.setCore k x).vaultSpare = s.vaultSpare := setDie_vaultSpare ..
@[simp] theorem setCore_paramsValid (x : Core) : (s.setCore k x).paramsValid = s.paramsValid := setDie_paramsValid ..
@[simp] theorem setCore_addrs (x : Core) : (s.setCore k x).addrs = s.addrs := setDie_addrs ..
@[simp] theorem setCore_corrected (x : Core) : (s.setCore k x).corrected = s.corrected := setDie_corrected ..
@[simp] theorem setCore_unsealed (x : Core) : (s.setCore k x).unsealed = s.unsealed := setDie_unsealed ..
@[simp] theorem setCore_tables (x : Core) : (s.setCore k x).tables = s.tables := setDie_tables ..
@[simp] theorem setCore_podX (x : Core) : (s.setCore k x).podX = s.podX := setDie_podX ..
@[simp] theorem setCore_podY (x : Core) : (s.setCore k x).podY = s.podY := setDie_podY ..
@[simp] theorem setCore_podZ (x : Core) : (s.setCore k x).podZ = s.podZ := setDie_podZ ..
@[simp] theorem setCore_oldCopies (x : Core) : (s.setCore k x).oldCopies = s.oldCopies := setDie_oldCopies ..
@[simp] theorem setCore_blkX (x : Core) : (s.setCore k x).blkX = s.blkX := setDie_blkX ..
@[simp] theorem setCore_blkY (x : Core) : (s.setCore k x).blkY = s.blkY := setDie_blkY ..
@[simp] theorem setCore_blkZ (x : Core) : (s.setCore k x).blkZ = s.blkZ := setDie_blkZ ..
@[simp] theorem setCore_islands (x : Core) : (s.setCore k x).islands = s.islands := setDie_islands ..
@[simp] theorem setCore_abroad (x : Core) : (s.setCore k x).abroad = s.abroad := setDie_abroad ..
@[simp] theorem setCore_mid (x : Core) : (s.setCore k x).mid = s.mid := setDie_mid ..
@[simp] theorem setCore_nextId (x : Core) : (s.setCore k x).nextId = s.nextId := setDie_nextId ..
@[simp] theorem setCore_draws (x : Core) : (s.setCore k x).draws = s.draws := setDie_draws ..
@[simp] theorem setCore_focus (x : Core) : (s.setCore k x).focus = s.focus := setDie_focus ..
@[simp] theorem setCore_arg (x : Core) : (s.setCore k x).arg = s.arg := setDie_arg ..
@[simp] theorem setCore_inbox (x : Core) : (s.setCore k x).inbox = s.inbox := setDie_inbox ..
@[simp] theorem setCore_outbox (x : Core) : (s.setCore k x).outbox = s.outbox := setDie_outbox ..
@[simp] theorem setCtx_hbm (x : Ctx) : (s.setCtx c x).hbm = s.hbm := setCore_hbm ..
@[simp] theorem setCtx_vault (x : Ctx) : (s.setCtx c x).vault = s.vault := setCore_vault ..
@[simp] theorem setCtx_hbmStacks (x : Ctx) : (s.setCtx c x).hbmStacks = s.hbmStacks := setCore_hbmStacks ..
@[simp] theorem setCtx_dpit (x : Ctx) : (s.setCtx c x).dpit = s.dpit := setCore_dpit ..
@[simp] theorem setCtx_migs (x : Ctx) : (s.setCtx c x).migs = s.migs := setCore_migs ..
@[simp] theorem setCtx_pages (x : Ctx) : (s.setCtx c x).pages = s.pages := setCore_pages ..
@[simp] theorem setCtx_tenants (x : Ctx) : (s.setCtx c x).tenants = s.tenants := setCore_tenants ..
@[simp] theorem setCtx_accesses (x : Ctx) : (s.setCtx c x).accesses = s.accesses := setCore_accesses ..
@[simp] theorem setCtx_rops (x : Ctx) : (s.setCtx c x).rops = s.rops := setCore_rops ..
@[simp] theorem setCtx_barriers (x : Ctx) : (s.setCtx c x).barriers = s.barriers := setCore_barriers ..
@[simp] theorem setCtx_rounds (x : Ctx) : (s.setCtx c x).rounds = s.rounds := setCore_rounds ..
@[simp] theorem setCtx_left (x : Ctx) : (s.setCtx c x).left = s.left := setCore_left ..
@[simp] theorem setCtx_reconfs (x : Ctx) : (s.setCtx c x).reconfs = s.reconfs := setCore_reconfs ..
@[simp] theorem setCtx_saved (x : Ctx) : (s.setCtx c x).saved = s.saved := setCore_saved ..
@[simp] theorem setCtx_teams (x : Ctx) : (s.setCtx c x).teams = s.teams := setCore_teams ..
@[simp] theorem setCtx_records (x : Ctx) : (s.setCtx c x).records = s.records := setCore_records ..
@[simp] theorem setCtx_hostReqs (x : Ctx) : (s.setCtx c x).hostReqs = s.hostReqs := setCore_hostReqs ..
@[simp] theorem setCtx_runs (x : Ctx) : (s.setCtx c x).runs = s.runs := setCore_runs ..
@[simp] theorem setCtx_mapHdrs (x : Ctx) : (s.setCtx c x).mapHdrs = s.mapHdrs := setCore_mapHdrs ..
@[simp] theorem setCtx_log (x : Ctx) : (s.setCtx c x).log = s.log := setCore_log ..
@[simp] theorem setCtx_logged (x : Ctx) : (s.setCtx c x).logged = s.logged := setCore_logged ..
@[simp] theorem setCtx_ptbAfar (x : Ctx) : (s.setCtx c x).ptbAfar = s.ptbAfar := setCore_ptbAfar ..
@[simp] theorem setCtx_crossOut (x : Ctx) : (s.setCtx c x).crossOut = s.crossOut := setCore_crossOut ..
@[simp] theorem setCtx_hstate (x : Ctx) : (s.setCtx c x).hstate = s.hstate := setCore_hstate ..
@[simp] theorem setCtx_authfail (x : Ctx) : (s.setCtx c x).authfail = s.authfail := setCore_authfail ..
@[simp] theorem setCtx_replace (x : Ctx) : (s.setCtx c x).replace = s.replace := setCore_replace ..
@[simp] theorem setCtx_warmFails (x : Ctx) : (s.setCtx c x).warmFails = s.warmFails := setCore_warmFails ..
@[simp] theorem setCtx_coldFails (x : Ctx) : (s.setCtx c x).coldFails = s.coldFails := setCore_coldFails ..
@[simp] theorem setCtx_attempts (x : Ctx) : (s.setCtx c x).attempts = s.attempts := setCore_attempts ..
@[simp] theorem setCtx_staging (x : Ctx) : (s.setCtx c x).staging = s.staging := setCore_staging ..
@[simp] theorem setCtx_firmware (x : Ctx) : (s.setCtx c x).firmware = s.firmware := setCore_firmware ..
@[simp] theorem setCtx_starting (x : Ctx) : (s.setCtx c x).starting = s.starting := setCore_starting ..
@[simp] theorem setCtx_vaultSpare (x : Ctx) : (s.setCtx c x).vaultSpare = s.vaultSpare := setCore_vaultSpare ..
@[simp] theorem setCtx_paramsValid (x : Ctx) : (s.setCtx c x).paramsValid = s.paramsValid := setCore_paramsValid ..
@[simp] theorem setCtx_addrs (x : Ctx) : (s.setCtx c x).addrs = s.addrs := setCore_addrs ..
@[simp] theorem setCtx_corrected (x : Ctx) : (s.setCtx c x).corrected = s.corrected := setCore_corrected ..
@[simp] theorem setCtx_unsealed (x : Ctx) : (s.setCtx c x).unsealed = s.unsealed := setCore_unsealed ..
@[simp] theorem setCtx_tables (x : Ctx) : (s.setCtx c x).tables = s.tables := setCore_tables ..
@[simp] theorem setCtx_podX (x : Ctx) : (s.setCtx c x).podX = s.podX := setCore_podX ..
@[simp] theorem setCtx_podY (x : Ctx) : (s.setCtx c x).podY = s.podY := setCore_podY ..
@[simp] theorem setCtx_podZ (x : Ctx) : (s.setCtx c x).podZ = s.podZ := setCore_podZ ..
@[simp] theorem setCtx_oldCopies (x : Ctx) : (s.setCtx c x).oldCopies = s.oldCopies := setCore_oldCopies ..
@[simp] theorem setCtx_blkX (x : Ctx) : (s.setCtx c x).blkX = s.blkX := setCore_blkX ..
@[simp] theorem setCtx_blkY (x : Ctx) : (s.setCtx c x).blkY = s.blkY := setCore_blkY ..
@[simp] theorem setCtx_blkZ (x : Ctx) : (s.setCtx c x).blkZ = s.blkZ := setCore_blkZ ..
@[simp] theorem setCtx_islands (x : Ctx) : (s.setCtx c x).islands = s.islands := setCore_islands ..
@[simp] theorem setCtx_abroad (x : Ctx) : (s.setCtx c x).abroad = s.abroad := setCore_abroad ..
@[simp] theorem setCtx_mid (x : Ctx) : (s.setCtx c x).mid = s.mid := setCore_mid ..
@[simp] theorem setCtx_nextId (x : Ctx) : (s.setCtx c x).nextId = s.nextId := setCore_nextId ..
@[simp] theorem setCtx_draws (x : Ctx) : (s.setCtx c x).draws = s.draws := setCore_draws ..
@[simp] theorem setCtx_focus (x : Ctx) : (s.setCtx c x).focus = s.focus := setCore_focus ..
@[simp] theorem setCtx_arg (x : Ctx) : (s.setCtx c x).arg = s.arg := setCore_arg ..
@[simp] theorem setCtx_inbox (x : Ctx) : (s.setCtx c x).inbox = s.inbox := setCore_inbox ..
@[simp] theorem setCtx_outbox (x : Ctx) : (s.setCtx c x).outbox = s.outbox := setCore_outbox ..
@[simp] theorem modDie_hbm (f : Die → Die) : (s.modDie d f).hbm = s.hbm := setDie_hbm ..
@[simp] theorem modDie_vault (f : Die → Die) : (s.modDie d f).vault = s.vault := setDie_vault ..
@[simp] theorem modDie_hbmStacks (f : Die → Die) : (s.modDie d f).hbmStacks = s.hbmStacks := setDie_hbmStacks ..
@[simp] theorem modDie_dpit (f : Die → Die) : (s.modDie d f).dpit = s.dpit := setDie_dpit ..
@[simp] theorem modDie_migs (f : Die → Die) : (s.modDie d f).migs = s.migs := setDie_migs ..
@[simp] theorem modDie_pages (f : Die → Die) : (s.modDie d f).pages = s.pages := setDie_pages ..
@[simp] theorem modDie_tenants (f : Die → Die) : (s.modDie d f).tenants = s.tenants := setDie_tenants ..
@[simp] theorem modDie_accesses (f : Die → Die) : (s.modDie d f).accesses = s.accesses := setDie_accesses ..
@[simp] theorem modDie_rops (f : Die → Die) : (s.modDie d f).rops = s.rops := setDie_rops ..
@[simp] theorem modDie_barriers (f : Die → Die) : (s.modDie d f).barriers = s.barriers := setDie_barriers ..
@[simp] theorem modDie_rounds (f : Die → Die) : (s.modDie d f).rounds = s.rounds := setDie_rounds ..
@[simp] theorem modDie_left (f : Die → Die) : (s.modDie d f).left = s.left := setDie_left ..
@[simp] theorem modDie_reconfs (f : Die → Die) : (s.modDie d f).reconfs = s.reconfs := setDie_reconfs ..
@[simp] theorem modDie_saved (f : Die → Die) : (s.modDie d f).saved = s.saved := setDie_saved ..
@[simp] theorem modDie_teams (f : Die → Die) : (s.modDie d f).teams = s.teams := setDie_teams ..
@[simp] theorem modDie_records (f : Die → Die) : (s.modDie d f).records = s.records := setDie_records ..
@[simp] theorem modDie_hostReqs (f : Die → Die) : (s.modDie d f).hostReqs = s.hostReqs := setDie_hostReqs ..
@[simp] theorem modDie_runs (f : Die → Die) : (s.modDie d f).runs = s.runs := setDie_runs ..
@[simp] theorem modDie_mapHdrs (f : Die → Die) : (s.modDie d f).mapHdrs = s.mapHdrs := setDie_mapHdrs ..
@[simp] theorem modDie_log (f : Die → Die) : (s.modDie d f).log = s.log := setDie_log ..
@[simp] theorem modDie_logged (f : Die → Die) : (s.modDie d f).logged = s.logged := setDie_logged ..
@[simp] theorem modDie_ptbAfar (f : Die → Die) : (s.modDie d f).ptbAfar = s.ptbAfar := setDie_ptbAfar ..
@[simp] theorem modDie_crossOut (f : Die → Die) : (s.modDie d f).crossOut = s.crossOut := setDie_crossOut ..
@[simp] theorem modDie_hstate (f : Die → Die) : (s.modDie d f).hstate = s.hstate := setDie_hstate ..
@[simp] theorem modDie_authfail (f : Die → Die) : (s.modDie d f).authfail = s.authfail := setDie_authfail ..
@[simp] theorem modDie_replace (f : Die → Die) : (s.modDie d f).replace = s.replace := setDie_replace ..
@[simp] theorem modDie_warmFails (f : Die → Die) : (s.modDie d f).warmFails = s.warmFails := setDie_warmFails ..
@[simp] theorem modDie_coldFails (f : Die → Die) : (s.modDie d f).coldFails = s.coldFails := setDie_coldFails ..
@[simp] theorem modDie_attempts (f : Die → Die) : (s.modDie d f).attempts = s.attempts := setDie_attempts ..
@[simp] theorem modDie_staging (f : Die → Die) : (s.modDie d f).staging = s.staging := setDie_staging ..
@[simp] theorem modDie_firmware (f : Die → Die) : (s.modDie d f).firmware = s.firmware := setDie_firmware ..
@[simp] theorem modDie_starting (f : Die → Die) : (s.modDie d f).starting = s.starting := setDie_starting ..
@[simp] theorem modDie_vaultSpare (f : Die → Die) : (s.modDie d f).vaultSpare = s.vaultSpare := setDie_vaultSpare ..
@[simp] theorem modDie_paramsValid (f : Die → Die) : (s.modDie d f).paramsValid = s.paramsValid := setDie_paramsValid ..
@[simp] theorem modDie_addrs (f : Die → Die) : (s.modDie d f).addrs = s.addrs := setDie_addrs ..
@[simp] theorem modDie_corrected (f : Die → Die) : (s.modDie d f).corrected = s.corrected := setDie_corrected ..
@[simp] theorem modDie_unsealed (f : Die → Die) : (s.modDie d f).unsealed = s.unsealed := setDie_unsealed ..
@[simp] theorem modDie_tables (f : Die → Die) : (s.modDie d f).tables = s.tables := setDie_tables ..
@[simp] theorem modDie_podX (f : Die → Die) : (s.modDie d f).podX = s.podX := setDie_podX ..
@[simp] theorem modDie_podY (f : Die → Die) : (s.modDie d f).podY = s.podY := setDie_podY ..
@[simp] theorem modDie_podZ (f : Die → Die) : (s.modDie d f).podZ = s.podZ := setDie_podZ ..
@[simp] theorem modDie_oldCopies (f : Die → Die) : (s.modDie d f).oldCopies = s.oldCopies := setDie_oldCopies ..
@[simp] theorem modDie_blkX (f : Die → Die) : (s.modDie d f).blkX = s.blkX := setDie_blkX ..
@[simp] theorem modDie_blkY (f : Die → Die) : (s.modDie d f).blkY = s.blkY := setDie_blkY ..
@[simp] theorem modDie_blkZ (f : Die → Die) : (s.modDie d f).blkZ = s.blkZ := setDie_blkZ ..
@[simp] theorem modDie_islands (f : Die → Die) : (s.modDie d f).islands = s.islands := setDie_islands ..
@[simp] theorem modDie_abroad (f : Die → Die) : (s.modDie d f).abroad = s.abroad := setDie_abroad ..
@[simp] theorem modDie_mid (f : Die → Die) : (s.modDie d f).mid = s.mid := setDie_mid ..
@[simp] theorem modDie_nextId (f : Die → Die) : (s.modDie d f).nextId = s.nextId := setDie_nextId ..
@[simp] theorem modDie_draws (f : Die → Die) : (s.modDie d f).draws = s.draws := setDie_draws ..
@[simp] theorem modDie_focus (f : Die → Die) : (s.modDie d f).focus = s.focus := setDie_focus ..
@[simp] theorem modDie_arg (f : Die → Die) : (s.modDie d f).arg = s.arg := setDie_arg ..
@[simp] theorem modDie_inbox (f : Die → Die) : (s.modDie d f).inbox = s.inbox := setDie_inbox ..
@[simp] theorem modDie_outbox (f : Die → Die) : (s.modDie d f).outbox = s.outbox := setDie_outbox ..
@[simp] theorem modCore_hbm (f : Core → Core) : (s.modCore k f).hbm = s.hbm := setCore_hbm ..
@[simp] theorem modCore_vault (f : Core → Core) : (s.modCore k f).vault = s.vault := setCore_vault ..
@[simp] theorem modCore_hbmStacks (f : Core → Core) : (s.modCore k f).hbmStacks = s.hbmStacks := setCore_hbmStacks ..
@[simp] theorem modCore_dpit (f : Core → Core) : (s.modCore k f).dpit = s.dpit := setCore_dpit ..
@[simp] theorem modCore_migs (f : Core → Core) : (s.modCore k f).migs = s.migs := setCore_migs ..
@[simp] theorem modCore_pages (f : Core → Core) : (s.modCore k f).pages = s.pages := setCore_pages ..
@[simp] theorem modCore_tenants (f : Core → Core) : (s.modCore k f).tenants = s.tenants := setCore_tenants ..
@[simp] theorem modCore_accesses (f : Core → Core) : (s.modCore k f).accesses = s.accesses := setCore_accesses ..
@[simp] theorem modCore_rops (f : Core → Core) : (s.modCore k f).rops = s.rops := setCore_rops ..
@[simp] theorem modCore_barriers (f : Core → Core) : (s.modCore k f).barriers = s.barriers := setCore_barriers ..
@[simp] theorem modCore_rounds (f : Core → Core) : (s.modCore k f).rounds = s.rounds := setCore_rounds ..
@[simp] theorem modCore_left (f : Core → Core) : (s.modCore k f).left = s.left := setCore_left ..
@[simp] theorem modCore_reconfs (f : Core → Core) : (s.modCore k f).reconfs = s.reconfs := setCore_reconfs ..
@[simp] theorem modCore_saved (f : Core → Core) : (s.modCore k f).saved = s.saved := setCore_saved ..
@[simp] theorem modCore_teams (f : Core → Core) : (s.modCore k f).teams = s.teams := setCore_teams ..
@[simp] theorem modCore_records (f : Core → Core) : (s.modCore k f).records = s.records := setCore_records ..
@[simp] theorem modCore_hostReqs (f : Core → Core) : (s.modCore k f).hostReqs = s.hostReqs := setCore_hostReqs ..
@[simp] theorem modCore_runs (f : Core → Core) : (s.modCore k f).runs = s.runs := setCore_runs ..
@[simp] theorem modCore_mapHdrs (f : Core → Core) : (s.modCore k f).mapHdrs = s.mapHdrs := setCore_mapHdrs ..
@[simp] theorem modCore_log (f : Core → Core) : (s.modCore k f).log = s.log := setCore_log ..
@[simp] theorem modCore_logged (f : Core → Core) : (s.modCore k f).logged = s.logged := setCore_logged ..
@[simp] theorem modCore_ptbAfar (f : Core → Core) : (s.modCore k f).ptbAfar = s.ptbAfar := setCore_ptbAfar ..
@[simp] theorem modCore_crossOut (f : Core → Core) : (s.modCore k f).crossOut = s.crossOut := setCore_crossOut ..
@[simp] theorem modCore_hstate (f : Core → Core) : (s.modCore k f).hstate = s.hstate := setCore_hstate ..
@[simp] theorem modCore_authfail (f : Core → Core) : (s.modCore k f).authfail = s.authfail := setCore_authfail ..
@[simp] theorem modCore_replace (f : Core → Core) : (s.modCore k f).replace = s.replace := setCore_replace ..
@[simp] theorem modCore_warmFails (f : Core → Core) : (s.modCore k f).warmFails = s.warmFails := setCore_warmFails ..
@[simp] theorem modCore_coldFails (f : Core → Core) : (s.modCore k f).coldFails = s.coldFails := setCore_coldFails ..
@[simp] theorem modCore_attempts (f : Core → Core) : (s.modCore k f).attempts = s.attempts := setCore_attempts ..
@[simp] theorem modCore_staging (f : Core → Core) : (s.modCore k f).staging = s.staging := setCore_staging ..
@[simp] theorem modCore_firmware (f : Core → Core) : (s.modCore k f).firmware = s.firmware := setCore_firmware ..
@[simp] theorem modCore_starting (f : Core → Core) : (s.modCore k f).starting = s.starting := setCore_starting ..
@[simp] theorem modCore_vaultSpare (f : Core → Core) : (s.modCore k f).vaultSpare = s.vaultSpare := setCore_vaultSpare ..
@[simp] theorem modCore_paramsValid (f : Core → Core) : (s.modCore k f).paramsValid = s.paramsValid := setCore_paramsValid ..
@[simp] theorem modCore_addrs (f : Core → Core) : (s.modCore k f).addrs = s.addrs := setCore_addrs ..
@[simp] theorem modCore_corrected (f : Core → Core) : (s.modCore k f).corrected = s.corrected := setCore_corrected ..
@[simp] theorem modCore_unsealed (f : Core → Core) : (s.modCore k f).unsealed = s.unsealed := setCore_unsealed ..
@[simp] theorem modCore_tables (f : Core → Core) : (s.modCore k f).tables = s.tables := setCore_tables ..
@[simp] theorem modCore_podX (f : Core → Core) : (s.modCore k f).podX = s.podX := setCore_podX ..
@[simp] theorem modCore_podY (f : Core → Core) : (s.modCore k f).podY = s.podY := setCore_podY ..
@[simp] theorem modCore_podZ (f : Core → Core) : (s.modCore k f).podZ = s.podZ := setCore_podZ ..
@[simp] theorem modCore_oldCopies (f : Core → Core) : (s.modCore k f).oldCopies = s.oldCopies := setCore_oldCopies ..
@[simp] theorem modCore_blkX (f : Core → Core) : (s.modCore k f).blkX = s.blkX := setCore_blkX ..
@[simp] theorem modCore_blkY (f : Core → Core) : (s.modCore k f).blkY = s.blkY := setCore_blkY ..
@[simp] theorem modCore_blkZ (f : Core → Core) : (s.modCore k f).blkZ = s.blkZ := setCore_blkZ ..
@[simp] theorem modCore_islands (f : Core → Core) : (s.modCore k f).islands = s.islands := setCore_islands ..
@[simp] theorem modCore_abroad (f : Core → Core) : (s.modCore k f).abroad = s.abroad := setCore_abroad ..
@[simp] theorem modCore_mid (f : Core → Core) : (s.modCore k f).mid = s.mid := setCore_mid ..
@[simp] theorem modCore_nextId (f : Core → Core) : (s.modCore k f).nextId = s.nextId := setCore_nextId ..
@[simp] theorem modCore_draws (f : Core → Core) : (s.modCore k f).draws = s.draws := setCore_draws ..
@[simp] theorem modCore_focus (f : Core → Core) : (s.modCore k f).focus = s.focus := setCore_focus ..
@[simp] theorem modCore_arg (f : Core → Core) : (s.modCore k f).arg = s.arg := setCore_arg ..
@[simp] theorem modCore_inbox (f : Core → Core) : (s.modCore k f).inbox = s.inbox := setCore_inbox ..
@[simp] theorem modCore_outbox (f : Core → Core) : (s.modCore k f).outbox = s.outbox := setCore_outbox ..
@[simp] theorem modCtx_hbm (f : Ctx → Ctx) : (s.modCtx c f).hbm = s.hbm := setCtx_hbm ..
@[simp] theorem modCtx_vault (f : Ctx → Ctx) : (s.modCtx c f).vault = s.vault := setCtx_vault ..
@[simp] theorem modCtx_hbmStacks (f : Ctx → Ctx) : (s.modCtx c f).hbmStacks = s.hbmStacks := setCtx_hbmStacks ..
@[simp] theorem modCtx_dpit (f : Ctx → Ctx) : (s.modCtx c f).dpit = s.dpit := setCtx_dpit ..
@[simp] theorem modCtx_migs (f : Ctx → Ctx) : (s.modCtx c f).migs = s.migs := setCtx_migs ..
@[simp] theorem modCtx_pages (f : Ctx → Ctx) : (s.modCtx c f).pages = s.pages := setCtx_pages ..
@[simp] theorem modCtx_tenants (f : Ctx → Ctx) : (s.modCtx c f).tenants = s.tenants := setCtx_tenants ..
@[simp] theorem modCtx_accesses (f : Ctx → Ctx) : (s.modCtx c f).accesses = s.accesses := setCtx_accesses ..
@[simp] theorem modCtx_rops (f : Ctx → Ctx) : (s.modCtx c f).rops = s.rops := setCtx_rops ..
@[simp] theorem modCtx_barriers (f : Ctx → Ctx) : (s.modCtx c f).barriers = s.barriers := setCtx_barriers ..
@[simp] theorem modCtx_rounds (f : Ctx → Ctx) : (s.modCtx c f).rounds = s.rounds := setCtx_rounds ..
@[simp] theorem modCtx_left (f : Ctx → Ctx) : (s.modCtx c f).left = s.left := setCtx_left ..
@[simp] theorem modCtx_reconfs (f : Ctx → Ctx) : (s.modCtx c f).reconfs = s.reconfs := setCtx_reconfs ..
@[simp] theorem modCtx_saved (f : Ctx → Ctx) : (s.modCtx c f).saved = s.saved := setCtx_saved ..
@[simp] theorem modCtx_teams (f : Ctx → Ctx) : (s.modCtx c f).teams = s.teams := setCtx_teams ..
@[simp] theorem modCtx_records (f : Ctx → Ctx) : (s.modCtx c f).records = s.records := setCtx_records ..
@[simp] theorem modCtx_hostReqs (f : Ctx → Ctx) : (s.modCtx c f).hostReqs = s.hostReqs := setCtx_hostReqs ..
@[simp] theorem modCtx_runs (f : Ctx → Ctx) : (s.modCtx c f).runs = s.runs := setCtx_runs ..
@[simp] theorem modCtx_mapHdrs (f : Ctx → Ctx) : (s.modCtx c f).mapHdrs = s.mapHdrs := setCtx_mapHdrs ..
@[simp] theorem modCtx_log (f : Ctx → Ctx) : (s.modCtx c f).log = s.log := setCtx_log ..
@[simp] theorem modCtx_logged (f : Ctx → Ctx) : (s.modCtx c f).logged = s.logged := setCtx_logged ..
@[simp] theorem modCtx_ptbAfar (f : Ctx → Ctx) : (s.modCtx c f).ptbAfar = s.ptbAfar := setCtx_ptbAfar ..
@[simp] theorem modCtx_crossOut (f : Ctx → Ctx) : (s.modCtx c f).crossOut = s.crossOut := setCtx_crossOut ..
@[simp] theorem modCtx_hstate (f : Ctx → Ctx) : (s.modCtx c f).hstate = s.hstate := setCtx_hstate ..
@[simp] theorem modCtx_authfail (f : Ctx → Ctx) : (s.modCtx c f).authfail = s.authfail := setCtx_authfail ..
@[simp] theorem modCtx_replace (f : Ctx → Ctx) : (s.modCtx c f).replace = s.replace := setCtx_replace ..
@[simp] theorem modCtx_warmFails (f : Ctx → Ctx) : (s.modCtx c f).warmFails = s.warmFails := setCtx_warmFails ..
@[simp] theorem modCtx_coldFails (f : Ctx → Ctx) : (s.modCtx c f).coldFails = s.coldFails := setCtx_coldFails ..
@[simp] theorem modCtx_attempts (f : Ctx → Ctx) : (s.modCtx c f).attempts = s.attempts := setCtx_attempts ..
@[simp] theorem modCtx_staging (f : Ctx → Ctx) : (s.modCtx c f).staging = s.staging := setCtx_staging ..
@[simp] theorem modCtx_firmware (f : Ctx → Ctx) : (s.modCtx c f).firmware = s.firmware := setCtx_firmware ..
@[simp] theorem modCtx_starting (f : Ctx → Ctx) : (s.modCtx c f).starting = s.starting := setCtx_starting ..
@[simp] theorem modCtx_vaultSpare (f : Ctx → Ctx) : (s.modCtx c f).vaultSpare = s.vaultSpare := setCtx_vaultSpare ..
@[simp] theorem modCtx_paramsValid (f : Ctx → Ctx) : (s.modCtx c f).paramsValid = s.paramsValid := setCtx_paramsValid ..
@[simp] theorem modCtx_addrs (f : Ctx → Ctx) : (s.modCtx c f).addrs = s.addrs := setCtx_addrs ..
@[simp] theorem modCtx_corrected (f : Ctx → Ctx) : (s.modCtx c f).corrected = s.corrected := setCtx_corrected ..
@[simp] theorem modCtx_unsealed (f : Ctx → Ctx) : (s.modCtx c f).unsealed = s.unsealed := setCtx_unsealed ..
@[simp] theorem modCtx_tables (f : Ctx → Ctx) : (s.modCtx c f).tables = s.tables := setCtx_tables ..
@[simp] theorem modCtx_podX (f : Ctx → Ctx) : (s.modCtx c f).podX = s.podX := setCtx_podX ..
@[simp] theorem modCtx_podY (f : Ctx → Ctx) : (s.modCtx c f).podY = s.podY := setCtx_podY ..
@[simp] theorem modCtx_podZ (f : Ctx → Ctx) : (s.modCtx c f).podZ = s.podZ := setCtx_podZ ..
@[simp] theorem modCtx_oldCopies (f : Ctx → Ctx) : (s.modCtx c f).oldCopies = s.oldCopies := setCtx_oldCopies ..
@[simp] theorem modCtx_blkX (f : Ctx → Ctx) : (s.modCtx c f).blkX = s.blkX := setCtx_blkX ..
@[simp] theorem modCtx_blkY (f : Ctx → Ctx) : (s.modCtx c f).blkY = s.blkY := setCtx_blkY ..
@[simp] theorem modCtx_blkZ (f : Ctx → Ctx) : (s.modCtx c f).blkZ = s.blkZ := setCtx_blkZ ..
@[simp] theorem modCtx_islands (f : Ctx → Ctx) : (s.modCtx c f).islands = s.islands := setCtx_islands ..
@[simp] theorem modCtx_abroad (f : Ctx → Ctx) : (s.modCtx c f).abroad = s.abroad := setCtx_abroad ..
@[simp] theorem modCtx_mid (f : Ctx → Ctx) : (s.modCtx c f).mid = s.mid := setCtx_mid ..
@[simp] theorem modCtx_nextId (f : Ctx → Ctx) : (s.modCtx c f).nextId = s.nextId := setCtx_nextId ..
@[simp] theorem modCtx_draws (f : Ctx → Ctx) : (s.modCtx c f).draws = s.draws := setCtx_draws ..
@[simp] theorem modCtx_focus (f : Ctx → Ctx) : (s.modCtx c f).focus = s.focus := setCtx_focus ..
@[simp] theorem modCtx_arg (f : Ctx → Ctx) : (s.modCtx c f).arg = s.arg := setCtx_arg ..
@[simp] theorem modCtx_inbox (f : Ctx → Ctx) : (s.modCtx c f).inbox = s.inbox := setCtx_inbox ..
@[simp] theorem modCtx_outbox (f : Ctx → Ctx) : (s.modCtx c f).outbox = s.outbox := setCtx_outbox ..
@[simp] theorem modArch_hbm (f : Arch → Arch) : (s.modArch c f).hbm = s.hbm := modCtx_hbm ..
@[simp] theorem modArch_vault (f : Arch → Arch) : (s.modArch c f).vault = s.vault := modCtx_vault ..
@[simp] theorem modArch_hbmStacks (f : Arch → Arch) : (s.modArch c f).hbmStacks = s.hbmStacks := modCtx_hbmStacks ..
@[simp] theorem modArch_dpit (f : Arch → Arch) : (s.modArch c f).dpit = s.dpit := modCtx_dpit ..
@[simp] theorem modArch_migs (f : Arch → Arch) : (s.modArch c f).migs = s.migs := modCtx_migs ..
@[simp] theorem modArch_pages (f : Arch → Arch) : (s.modArch c f).pages = s.pages := modCtx_pages ..
@[simp] theorem modArch_tenants (f : Arch → Arch) : (s.modArch c f).tenants = s.tenants := modCtx_tenants ..
@[simp] theorem modArch_accesses (f : Arch → Arch) : (s.modArch c f).accesses = s.accesses := modCtx_accesses ..
@[simp] theorem modArch_rops (f : Arch → Arch) : (s.modArch c f).rops = s.rops := modCtx_rops ..
@[simp] theorem modArch_barriers (f : Arch → Arch) : (s.modArch c f).barriers = s.barriers := modCtx_barriers ..
@[simp] theorem modArch_rounds (f : Arch → Arch) : (s.modArch c f).rounds = s.rounds := modCtx_rounds ..
@[simp] theorem modArch_left (f : Arch → Arch) : (s.modArch c f).left = s.left := modCtx_left ..
@[simp] theorem modArch_reconfs (f : Arch → Arch) : (s.modArch c f).reconfs = s.reconfs := modCtx_reconfs ..
@[simp] theorem modArch_saved (f : Arch → Arch) : (s.modArch c f).saved = s.saved := modCtx_saved ..
@[simp] theorem modArch_teams (f : Arch → Arch) : (s.modArch c f).teams = s.teams := modCtx_teams ..
@[simp] theorem modArch_records (f : Arch → Arch) : (s.modArch c f).records = s.records := modCtx_records ..
@[simp] theorem modArch_hostReqs (f : Arch → Arch) : (s.modArch c f).hostReqs = s.hostReqs := modCtx_hostReqs ..
@[simp] theorem modArch_runs (f : Arch → Arch) : (s.modArch c f).runs = s.runs := modCtx_runs ..
@[simp] theorem modArch_mapHdrs (f : Arch → Arch) : (s.modArch c f).mapHdrs = s.mapHdrs := modCtx_mapHdrs ..
@[simp] theorem modArch_log (f : Arch → Arch) : (s.modArch c f).log = s.log := modCtx_log ..
@[simp] theorem modArch_logged (f : Arch → Arch) : (s.modArch c f).logged = s.logged := modCtx_logged ..
@[simp] theorem modArch_ptbAfar (f : Arch → Arch) : (s.modArch c f).ptbAfar = s.ptbAfar := modCtx_ptbAfar ..
@[simp] theorem modArch_crossOut (f : Arch → Arch) : (s.modArch c f).crossOut = s.crossOut := modCtx_crossOut ..
@[simp] theorem modArch_hstate (f : Arch → Arch) : (s.modArch c f).hstate = s.hstate := modCtx_hstate ..
@[simp] theorem modArch_authfail (f : Arch → Arch) : (s.modArch c f).authfail = s.authfail := modCtx_authfail ..
@[simp] theorem modArch_replace (f : Arch → Arch) : (s.modArch c f).replace = s.replace := modCtx_replace ..
@[simp] theorem modArch_warmFails (f : Arch → Arch) : (s.modArch c f).warmFails = s.warmFails := modCtx_warmFails ..
@[simp] theorem modArch_coldFails (f : Arch → Arch) : (s.modArch c f).coldFails = s.coldFails := modCtx_coldFails ..
@[simp] theorem modArch_attempts (f : Arch → Arch) : (s.modArch c f).attempts = s.attempts := modCtx_attempts ..
@[simp] theorem modArch_staging (f : Arch → Arch) : (s.modArch c f).staging = s.staging := modCtx_staging ..
@[simp] theorem modArch_firmware (f : Arch → Arch) : (s.modArch c f).firmware = s.firmware := modCtx_firmware ..
@[simp] theorem modArch_starting (f : Arch → Arch) : (s.modArch c f).starting = s.starting := modCtx_starting ..
@[simp] theorem modArch_vaultSpare (f : Arch → Arch) : (s.modArch c f).vaultSpare = s.vaultSpare := modCtx_vaultSpare ..
@[simp] theorem modArch_paramsValid (f : Arch → Arch) : (s.modArch c f).paramsValid = s.paramsValid := modCtx_paramsValid ..
@[simp] theorem modArch_addrs (f : Arch → Arch) : (s.modArch c f).addrs = s.addrs := modCtx_addrs ..
@[simp] theorem modArch_corrected (f : Arch → Arch) : (s.modArch c f).corrected = s.corrected := modCtx_corrected ..
@[simp] theorem modArch_unsealed (f : Arch → Arch) : (s.modArch c f).unsealed = s.unsealed := modCtx_unsealed ..
@[simp] theorem modArch_tables (f : Arch → Arch) : (s.modArch c f).tables = s.tables := modCtx_tables ..
@[simp] theorem modArch_podX (f : Arch → Arch) : (s.modArch c f).podX = s.podX := modCtx_podX ..
@[simp] theorem modArch_podY (f : Arch → Arch) : (s.modArch c f).podY = s.podY := modCtx_podY ..
@[simp] theorem modArch_podZ (f : Arch → Arch) : (s.modArch c f).podZ = s.podZ := modCtx_podZ ..
@[simp] theorem modArch_oldCopies (f : Arch → Arch) : (s.modArch c f).oldCopies = s.oldCopies := modCtx_oldCopies ..
@[simp] theorem modArch_blkX (f : Arch → Arch) : (s.modArch c f).blkX = s.blkX := modCtx_blkX ..
@[simp] theorem modArch_blkY (f : Arch → Arch) : (s.modArch c f).blkY = s.blkY := modCtx_blkY ..
@[simp] theorem modArch_blkZ (f : Arch → Arch) : (s.modArch c f).blkZ = s.blkZ := modCtx_blkZ ..
@[simp] theorem modArch_islands (f : Arch → Arch) : (s.modArch c f).islands = s.islands := modCtx_islands ..
@[simp] theorem modArch_abroad (f : Arch → Arch) : (s.modArch c f).abroad = s.abroad := modCtx_abroad ..
@[simp] theorem modArch_mid (f : Arch → Arch) : (s.modArch c f).mid = s.mid := modCtx_mid ..
@[simp] theorem modArch_nextId (f : Arch → Arch) : (s.modArch c f).nextId = s.nextId := modCtx_nextId ..
@[simp] theorem modArch_draws (f : Arch → Arch) : (s.modArch c f).draws = s.draws := modCtx_draws ..
@[simp] theorem modArch_focus (f : Arch → Arch) : (s.modArch c f).focus = s.focus := modCtx_focus ..
@[simp] theorem modArch_arg (f : Arch → Arch) : (s.modArch c f).arg = s.arg := modCtx_arg ..
@[simp] theorem modArch_inbox (f : Arch → Arch) : (s.modArch c f).inbox = s.inbox := modCtx_inbox ..
@[simp] theorem modArch_outbox (f : Arch → Arch) : (s.modArch c f).outbox = s.outbox := modCtx_outbox ..
@[simp] theorem modTen_dies (t : BitVec 4) (f : Tenant → Tenant) : (s.modTen t f).dies = s.dies := by simp only [State.modTen]
@[simp] theorem modTen_hbm (t : BitVec 4) (f : Tenant → Tenant) : (s.modTen t f).hbm = s.hbm := by simp only [State.modTen]
@[simp] theorem modTen_vault (t : BitVec 4) (f : Tenant → Tenant) : (s.modTen t f).vault = s.vault := by simp only [State.modTen]
@[simp] theorem modTen_hbmStacks (t : BitVec 4) (f : Tenant → Tenant) : (s.modTen t f).hbmStacks = s.hbmStacks := by simp only [State.modTen]
@[simp] theorem modTen_dpit (t : BitVec 4) (f : Tenant → Tenant) : (s.modTen t f).dpit = s.dpit := by simp only [State.modTen]
@[simp] theorem modTen_migs (t : BitVec 4) (f : Tenant → Tenant) : (s.modTen t f).migs = s.migs := by simp only [State.modTen]
@[simp] theorem modTen_pages (t : BitVec 4) (f : Tenant → Tenant) : (s.modTen t f).pages = s.pages := by simp only [State.modTen]
@[simp] theorem modTen_accesses (t : BitVec 4) (f : Tenant → Tenant) : (s.modTen t f).accesses = s.accesses := by simp only [State.modTen]
@[simp] theorem modTen_rops (t : BitVec 4) (f : Tenant → Tenant) : (s.modTen t f).rops = s.rops := by simp only [State.modTen]
@[simp] theorem modTen_barriers (t : BitVec 4) (f : Tenant → Tenant) : (s.modTen t f).barriers = s.barriers := by simp only [State.modTen]
@[simp] theorem modTen_rounds (t : BitVec 4) (f : Tenant → Tenant) : (s.modTen t f).rounds = s.rounds := by simp only [State.modTen]
@[simp] theorem modTen_left (t : BitVec 4) (f : Tenant → Tenant) : (s.modTen t f).left = s.left := by simp only [State.modTen]
@[simp] theorem modTen_reconfs (t : BitVec 4) (f : Tenant → Tenant) : (s.modTen t f).reconfs = s.reconfs := by simp only [State.modTen]
@[simp] theorem modTen_saved (t : BitVec 4) (f : Tenant → Tenant) : (s.modTen t f).saved = s.saved := by simp only [State.modTen]
@[simp] theorem modTen_teams (t : BitVec 4) (f : Tenant → Tenant) : (s.modTen t f).teams = s.teams := by simp only [State.modTen]
@[simp] theorem modTen_records (t : BitVec 4) (f : Tenant → Tenant) : (s.modTen t f).records = s.records := by simp only [State.modTen]
@[simp] theorem modTen_hostReqs (t : BitVec 4) (f : Tenant → Tenant) : (s.modTen t f).hostReqs = s.hostReqs := by simp only [State.modTen]
@[simp] theorem modTen_runs (t : BitVec 4) (f : Tenant → Tenant) : (s.modTen t f).runs = s.runs := by simp only [State.modTen]
@[simp] theorem modTen_mapHdrs (t : BitVec 4) (f : Tenant → Tenant) : (s.modTen t f).mapHdrs = s.mapHdrs := by simp only [State.modTen]
@[simp] theorem modTen_log (t : BitVec 4) (f : Tenant → Tenant) : (s.modTen t f).log = s.log := by simp only [State.modTen]
@[simp] theorem modTen_logged (t : BitVec 4) (f : Tenant → Tenant) : (s.modTen t f).logged = s.logged := by simp only [State.modTen]
@[simp] theorem modTen_ptbAfar (t : BitVec 4) (f : Tenant → Tenant) : (s.modTen t f).ptbAfar = s.ptbAfar := by simp only [State.modTen]
@[simp] theorem modTen_crossOut (t : BitVec 4) (f : Tenant → Tenant) : (s.modTen t f).crossOut = s.crossOut := by simp only [State.modTen]
@[simp] theorem modTen_hstate (t : BitVec 4) (f : Tenant → Tenant) : (s.modTen t f).hstate = s.hstate := by simp only [State.modTen]
@[simp] theorem modTen_authfail (t : BitVec 4) (f : Tenant → Tenant) : (s.modTen t f).authfail = s.authfail := by simp only [State.modTen]
@[simp] theorem modTen_replace (t : BitVec 4) (f : Tenant → Tenant) : (s.modTen t f).replace = s.replace := by simp only [State.modTen]
@[simp] theorem modTen_warmFails (t : BitVec 4) (f : Tenant → Tenant) : (s.modTen t f).warmFails = s.warmFails := by simp only [State.modTen]
@[simp] theorem modTen_coldFails (t : BitVec 4) (f : Tenant → Tenant) : (s.modTen t f).coldFails = s.coldFails := by simp only [State.modTen]
@[simp] theorem modTen_attempts (t : BitVec 4) (f : Tenant → Tenant) : (s.modTen t f).attempts = s.attempts := by simp only [State.modTen]
@[simp] theorem modTen_staging (t : BitVec 4) (f : Tenant → Tenant) : (s.modTen t f).staging = s.staging := by simp only [State.modTen]
@[simp] theorem modTen_firmware (t : BitVec 4) (f : Tenant → Tenant) : (s.modTen t f).firmware = s.firmware := by simp only [State.modTen]
@[simp] theorem modTen_starting (t : BitVec 4) (f : Tenant → Tenant) : (s.modTen t f).starting = s.starting := by simp only [State.modTen]
@[simp] theorem modTen_vaultSpare (t : BitVec 4) (f : Tenant → Tenant) : (s.modTen t f).vaultSpare = s.vaultSpare := by simp only [State.modTen]
@[simp] theorem modTen_paramsValid (t : BitVec 4) (f : Tenant → Tenant) : (s.modTen t f).paramsValid = s.paramsValid := by simp only [State.modTen]
@[simp] theorem modTen_addrs (t : BitVec 4) (f : Tenant → Tenant) : (s.modTen t f).addrs = s.addrs := by simp only [State.modTen]
@[simp] theorem modTen_corrected (t : BitVec 4) (f : Tenant → Tenant) : (s.modTen t f).corrected = s.corrected := by simp only [State.modTen]
@[simp] theorem modTen_unsealed (t : BitVec 4) (f : Tenant → Tenant) : (s.modTen t f).unsealed = s.unsealed := by simp only [State.modTen]
@[simp] theorem modTen_tables (t : BitVec 4) (f : Tenant → Tenant) : (s.modTen t f).tables = s.tables := by simp only [State.modTen]
@[simp] theorem modTen_podX (t : BitVec 4) (f : Tenant → Tenant) : (s.modTen t f).podX = s.podX := by simp only [State.modTen]
@[simp] theorem modTen_podY (t : BitVec 4) (f : Tenant → Tenant) : (s.modTen t f).podY = s.podY := by simp only [State.modTen]
@[simp] theorem modTen_podZ (t : BitVec 4) (f : Tenant → Tenant) : (s.modTen t f).podZ = s.podZ := by simp only [State.modTen]
@[simp] theorem modTen_oldCopies (t : BitVec 4) (f : Tenant → Tenant) : (s.modTen t f).oldCopies = s.oldCopies := by simp only [State.modTen]
@[simp] theorem modTen_blkX (t : BitVec 4) (f : Tenant → Tenant) : (s.modTen t f).blkX = s.blkX := by simp only [State.modTen]
@[simp] theorem modTen_blkY (t : BitVec 4) (f : Tenant → Tenant) : (s.modTen t f).blkY = s.blkY := by simp only [State.modTen]
@[simp] theorem modTen_blkZ (t : BitVec 4) (f : Tenant → Tenant) : (s.modTen t f).blkZ = s.blkZ := by simp only [State.modTen]
@[simp] theorem modTen_islands (t : BitVec 4) (f : Tenant → Tenant) : (s.modTen t f).islands = s.islands := by simp only [State.modTen]
@[simp] theorem modTen_abroad (t : BitVec 4) (f : Tenant → Tenant) : (s.modTen t f).abroad = s.abroad := by simp only [State.modTen]
@[simp] theorem modTen_mid (t : BitVec 4) (f : Tenant → Tenant) : (s.modTen t f).mid = s.mid := by simp only [State.modTen]
@[simp] theorem modTen_nextId (t : BitVec 4) (f : Tenant → Tenant) : (s.modTen t f).nextId = s.nextId := by simp only [State.modTen]
@[simp] theorem modTen_draws (t : BitVec 4) (f : Tenant → Tenant) : (s.modTen t f).draws = s.draws := by simp only [State.modTen]
@[simp] theorem modTen_focus (t : BitVec 4) (f : Tenant → Tenant) : (s.modTen t f).focus = s.focus := by simp only [State.modTen]
@[simp] theorem modTen_arg (t : BitVec 4) (f : Tenant → Tenant) : (s.modTen t f).arg = s.arg := by simp only [State.modTen]
@[simp] theorem modTen_inbox (t : BitVec 4) (f : Tenant → Tenant) : (s.modTen t f).inbox = s.inbox := by simp only [State.modTen]
@[simp] theorem modTen_outbox (t : BitVec 4) (f : Tenant → Tenant) : (s.modTen t f).outbox = s.outbox := by simp only [State.modTen]

/-! ## Fields of a context and its registers that an update leaves -/

@[simp] theorem wrPhys_pc (a : Arch) (r : Fin 64) (v : W64) : (a.wrPhys r v).pc = a.pc := by simp only [Arch.wrPhys]
@[simp] theorem wrPhys_loops (a : Arch) (r : Fin 64) (v : W64) : (a.wrPhys r v).loops = a.loops := by simp only [Arch.wrPhys]
@[simp] theorem wrPhys_rot (a : Arch) (r : Fin 64) (v : W64) : (a.wrPhys r v).rot = a.rot := by simp only [Arch.wrPhys]
@[simp] theorem wrPhys_hem (a : Arch) (r : Fin 64) (v : W64) : (a.wrPhys r v).hem = a.hem := by simp only [Arch.wrPhys]
@[simp] theorem wrPhys_t (a : Arch) (r : Fin 64) (v : W64) : (a.wrPhys r v).t = a.t := by simp only [Arch.wrPhys]
@[simp] theorem wrPhys_ports (a : Arch) (r : Fin 64) (v : W64) : (a.wrPhys r v).ports = a.ports := by simp only [Arch.wrPhys]
@[simp] theorem wrPhys_latch (a : Arch) (r : Fin 64) (v : W64) : (a.wrPhys r v).latch = a.latch := by simp only [Arch.wrPhys]
@[simp] theorem wrPhys_tscale (a : Arch) (r : Fin 64) (v : W64) : (a.wrPhys r v).tscale = a.tscale := by simp only [Arch.wrPhys]
@[simp] theorem wrPhys_exv (a : Arch) (r : Fin 64) (v : W64) : (a.wrPhys r v).exv = a.exv := by simp only [Arch.wrPhys]
@[simp] theorem wrPhys_ckmode (a : Arch) (r : Fin 64) (v : W64) : (a.wrPhys r v).ckmode = a.ckmode := by simp only [Arch.wrPhys]
@[simp] theorem wrPhys_trapvecValid (a : Arch) (r : Fin 64) (v : W64) : (a.wrPhys r v).trapvecValid = a.trapvecValid := by simp only [Arch.wrPhys]
@[simp] theorem wrPhys_trapvecAddr (a : Arch) (r : Fin 64) (v : W64) : (a.wrPhys r v).trapvecAddr = a.trapvecAddr := by simp only [Arch.wrPhys]
@[simp] theorem wrPhys_inh (a : Arch) (r : Fin 64) (v : W64) : (a.wrPhys r v).inh = a.inh := by simp only [Arch.wrPhys]
@[simp] theorem wrPhys_cause (a : Arch) (r : Fin 64) (v : W64) : (a.wrPhys r v).cause = a.cause := by simp only [Arch.wrPhys]
@[simp] theorem wrPhys_trappc (a : Arch) (r : Fin 64) (v : W64) : (a.wrPhys r v).trappc = a.trappc := by simp only [Arch.wrPhys]
@[simp] theorem wrPhys_depth (a : Arch) (r : Fin 64) (v : W64) : (a.wrPhys r v).depth = a.depth := by simp only [Arch.wrPhys]
@[simp] theorem wrPhys_tslot (a : Arch) (r : Fin 64) (v : W64) : (a.wrPhys r v).tslot = a.tslot := by simp only [Arch.wrPhys]
@[simp] theorem wrPhys_tleaf (a : Arch) (r : Fin 64) (v : W64) : (a.wrPhys r v).tleaf = a.tleaf := by simp only [Arch.wrPhys]
@[simp] theorem wrPhys_trapaddr (a : Arch) (r : Fin 64) (v : W64) : (a.wrPhys r v).trapaddr = a.trapaddr := by simp only [Arch.wrPhys]
@[simp] theorem wrPhys_cgm (a : Arch) (r : Fin 64) (v : W64) : (a.wrPhys r v).cgm = a.cgm := by simp only [Arch.wrPhys]
@[simp] theorem wrPhys_cseq (a : Arch) (r : Fin 64) (v : W64) : (a.wrPhys r v).cseq = a.cseq := by simp only [Arch.wrPhys]
@[simp] theorem wrPhys_ctgen (a : Arch) (r : Fin 64) (v : W64) : (a.wrPhys r v).ctgen = a.ctgen := by simp only [Arch.wrPhys]
@[simp] theorem wrPhys_scratch (a : Arch) (r : Fin 64) (v : W64) : (a.wrPhys r v).scratch = a.scratch := by simp only [Arch.wrPhys]
@[simp] theorem wrPhys_run (a : Arch) (r : Fin 64) (v : W64) : (a.wrPhys r v).run = a.run := by simp only [Arch.wrPhys]
@[simp] theorem wrPhys_hpc (a : Arch) (r : Fin 64) (v : W64) : (a.wrPhys r v).hpc = a.hpc := by simp only [Arch.wrPhys]
@[simp] theorem pushHem_pc (a : Arch) (v : W64) : (a.pushHem v).pc = a.pc := by simp only [Arch.pushHem]
@[simp] theorem pushHem_loops (a : Arch) (v : W64) : (a.pushHem v).loops = a.loops := by simp only [Arch.pushHem]
@[simp] theorem pushHem_s (a : Arch) (v : W64) : (a.pushHem v).s = a.s := by simp only [Arch.pushHem]
@[simp] theorem pushHem_rot (a : Arch) (v : W64) : (a.pushHem v).rot = a.rot := by simp only [Arch.pushHem]
@[simp] theorem pushHem_t (a : Arch) (v : W64) : (a.pushHem v).t = a.t := by simp only [Arch.pushHem]
@[simp] theorem pushHem_ports (a : Arch) (v : W64) : (a.pushHem v).ports = a.ports := by simp only [Arch.pushHem]
@[simp] theorem pushHem_latch (a : Arch) (v : W64) : (a.pushHem v).latch = a.latch := by simp only [Arch.pushHem]
@[simp] theorem pushHem_tscale (a : Arch) (v : W64) : (a.pushHem v).tscale = a.tscale := by simp only [Arch.pushHem]
@[simp] theorem pushHem_exv (a : Arch) (v : W64) : (a.pushHem v).exv = a.exv := by simp only [Arch.pushHem]
@[simp] theorem pushHem_ckmode (a : Arch) (v : W64) : (a.pushHem v).ckmode = a.ckmode := by simp only [Arch.pushHem]
@[simp] theorem pushHem_trapvecValid (a : Arch) (v : W64) : (a.pushHem v).trapvecValid = a.trapvecValid := by simp only [Arch.pushHem]
@[simp] theorem pushHem_trapvecAddr (a : Arch) (v : W64) : (a.pushHem v).trapvecAddr = a.trapvecAddr := by simp only [Arch.pushHem]
@[simp] theorem pushHem_inh (a : Arch) (v : W64) : (a.pushHem v).inh = a.inh := by simp only [Arch.pushHem]
@[simp] theorem pushHem_cause (a : Arch) (v : W64) : (a.pushHem v).cause = a.cause := by simp only [Arch.pushHem]
@[simp] theorem pushHem_trappc (a : Arch) (v : W64) : (a.pushHem v).trappc = a.trappc := by simp only [Arch.pushHem]
@[simp] theorem pushHem_depth (a : Arch) (v : W64) : (a.pushHem v).depth = a.depth := by simp only [Arch.pushHem]
@[simp] theorem pushHem_tslot (a : Arch) (v : W64) : (a.pushHem v).tslot = a.tslot := by simp only [Arch.pushHem]
@[simp] theorem pushHem_tleaf (a : Arch) (v : W64) : (a.pushHem v).tleaf = a.tleaf := by simp only [Arch.pushHem]
@[simp] theorem pushHem_trapaddr (a : Arch) (v : W64) : (a.pushHem v).trapaddr = a.trapaddr := by simp only [Arch.pushHem]
@[simp] theorem pushHem_cgm (a : Arch) (v : W64) : (a.pushHem v).cgm = a.cgm := by simp only [Arch.pushHem]
@[simp] theorem pushHem_cseq (a : Arch) (v : W64) : (a.pushHem v).cseq = a.cseq := by simp only [Arch.pushHem]
@[simp] theorem pushHem_ctgen (a : Arch) (v : W64) : (a.pushHem v).ctgen = a.ctgen := by simp only [Arch.pushHem]
@[simp] theorem pushHem_scratch (a : Arch) (v : W64) : (a.pushHem v).scratch = a.scratch := by simp only [Arch.pushHem]
@[simp] theorem pushHem_run (a : Arch) (v : W64) : (a.pushHem v).run = a.run := by simp only [Arch.pushHem]
@[simp] theorem pushHem_hpc (a : Arch) (v : W64) : (a.pushHem v).hpc = a.hpc := by simp only [Arch.pushHem]
@[simp] theorem leaveTrap_s (a : Arch) : (leaveTrap a).s = a.s := by simp only [leaveTrap]
@[simp] theorem leaveTrap_rot (a : Arch) : (leaveTrap a).rot = a.rot := by simp only [leaveTrap]
@[simp] theorem leaveTrap_hem (a : Arch) : (leaveTrap a).hem = a.hem := by simp only [leaveTrap]
@[simp] theorem leaveTrap_t (a : Arch) : (leaveTrap a).t = a.t := by simp only [leaveTrap]
@[simp] theorem leaveTrap_ports (a : Arch) : (leaveTrap a).ports = a.ports := by simp only [leaveTrap]
@[simp] theorem leaveTrap_latch (a : Arch) : (leaveTrap a).latch = a.latch := by simp only [leaveTrap]
@[simp] theorem leaveTrap_tscale (a : Arch) : (leaveTrap a).tscale = a.tscale := by simp only [leaveTrap]
@[simp] theorem leaveTrap_exv (a : Arch) : (leaveTrap a).exv = a.exv := by simp only [leaveTrap]
@[simp] theorem leaveTrap_ckmode (a : Arch) : (leaveTrap a).ckmode = a.ckmode := by simp only [leaveTrap]
@[simp] theorem leaveTrap_trapvecValid (a : Arch) : (leaveTrap a).trapvecValid = a.trapvecValid := by simp only [leaveTrap]
@[simp] theorem leaveTrap_trapvecAddr (a : Arch) : (leaveTrap a).trapvecAddr = a.trapvecAddr := by simp only [leaveTrap]
@[simp] theorem leaveTrap_cause (a : Arch) : (leaveTrap a).cause = a.cause := by simp only [leaveTrap]
@[simp] theorem leaveTrap_trappc (a : Arch) : (leaveTrap a).trappc = a.trappc := by simp only [leaveTrap]
@[simp] theorem leaveTrap_depth (a : Arch) : (leaveTrap a).depth = a.depth := by simp only [leaveTrap]
@[simp] theorem leaveTrap_tslot (a : Arch) : (leaveTrap a).tslot = a.tslot := by simp only [leaveTrap]
@[simp] theorem leaveTrap_tleaf (a : Arch) : (leaveTrap a).tleaf = a.tleaf := by simp only [leaveTrap]
@[simp] theorem leaveTrap_trapaddr (a : Arch) : (leaveTrap a).trapaddr = a.trapaddr := by simp only [leaveTrap]
@[simp] theorem leaveTrap_cgm (a : Arch) : (leaveTrap a).cgm = a.cgm := by simp only [leaveTrap]
@[simp] theorem leaveTrap_cseq (a : Arch) : (leaveTrap a).cseq = a.cseq := by simp only [leaveTrap]
@[simp] theorem leaveTrap_ctgen (a : Arch) : (leaveTrap a).ctgen = a.ctgen := by simp only [leaveTrap]
@[simp] theorem leaveTrap_scratch (a : Arch) : (leaveTrap a).scratch = a.scratch := by simp only [leaveTrap]
@[simp] theorem leaveTrap_run (a : Arch) : (leaveTrap a).run = a.run := by simp only [leaveTrap]
@[simp] theorem leaveTrap_hpc (a : Arch) : (leaveTrap a).hpc = a.hpc := by simp only [leaveTrap]
@[simp] theorem tickFlights_st (x : Ctx) : (tickFlights x).st = x.st := by simp only [tickFlights]
@[simp] theorem tickFlights_arch (x : Ctx) : (tickFlights x).arch = x.arch := by simp only [tickFlights]
@[simp] theorem tickFlights_b (x : Ctx) : (tickFlights x).b = x.b := by simp only [tickFlights]
@[simp] theorem tickFlights_h (x : Ctx) : (tickFlights x).h = x.h := by simp only [tickFlights]
@[simp] theorem tickFlights_d (x : Ctx) : (tickFlights x).d = x.d := by simp only [tickFlights]
@[simp] theorem tickFlights_y (x : Ctx) : (tickFlights x).y = x.y := by simp only [tickFlights]
@[simp] theorem tickFlights_z (x : Ctx) : (tickFlights x).z = x.z := by simp only [tickFlights]
@[simp] theorem tickFlights_mreg (x : Ctx) : (tickFlights x).mreg = x.mreg := by simp only [tickFlights]
@[simp] theorem tickFlights_stall (x : Ctx) : (tickFlights x).stall = x.stall := by simp only [tickFlights]
@[simp] theorem tickFlights_trap (x : Ctx) : (tickFlights x).trap = x.trap := by simp only [tickFlights]
@[simp] theorem tickFlights_cmdErr (x : Ctx) : (tickFlights x).cmdErr = x.cmdErr := by simp only [tickFlights]
@[simp] theorem tickFlights_late (x : Ctx) : (tickFlights x).late = x.late := by simp only [tickFlights]
@[simp] theorem tickFlights_att (x : Ctx) : (tickFlights x).att = x.att := by simp only [tickFlights]
@[simp] theorem tickFlights_spec (x : Ctx) : (tickFlights x).spec = x.spec := by simp only [tickFlights]
@[simp] theorem tickFlights_exit (x : Ctx) : (tickFlights x).exit = x.exit := by simp only [tickFlights]
@[simp] theorem tickFlights_svc (x : Ctx) : (tickFlights x).svc = x.svc := by simp only [tickFlights]
@[simp] theorem tickFlights_acq (x : Ctx) : (tickFlights x).acq = x.acq := by simp only [tickFlights]
@[simp] theorem tickFlights_skip (x : Ctx) : (tickFlights x).skip = x.skip := by simp only [tickFlights]
@[simp] theorem tickFlights_held (x : Ctx) : (tickFlights x).held = x.held := by simp only [tickFlights]
@[simp] theorem tickFlights_frozen (x : Ctx) : (tickFlights x).frozen = x.frozen := by simp only [tickFlights]
@[simp] theorem tickFlights_preempt (x : Ctx) : (tickFlights x).preempt = x.preempt := by simp only [tickFlights]
@[simp] theorem tickFlights_scrubLeft (x : Ctx) : (tickFlights x).scrubLeft = x.scrubLeft := by simp only [tickFlights]
@[simp] theorem tickFlights_miss (x : Ctx) : (tickFlights x).miss = x.miss := by simp only [tickFlights]
@[simp] theorem tickFlights_unres (x : Ctx) : (tickFlights x).unres = x.unres := by simp only [tickFlights]

end Sys2Proof.Machine
end

