-- ==== Sys2Proof/Laws/Memory.lean ====
section
/-! SUPPORT. The laws of sparse memory: a read after a write, other addresses, the canonical form kept by every operation, equal
contents as equal data; then the same for the memories of the module. -/

namespace Sys2Proof.Machine

variable {w : Nat}

/-! ## The canonical form -/

/-- Every address is above a bound. -/
def aboveB (lo : Option Nat) (a : Nat) : Bool := match lo with
  | none => true
  | some b => decide (b < a)

theorem cellsFrom_cons (lo : Option Nat) (a : Nat) (x : BitVec w) (r : Cells w) :
    cellsFrom lo ((a, x) :: r) = (aboveB lo a && (x != 0) && cellsFrom (some a) r) := by
  cases lo <;> simp [cellsFrom, aboveB]

theorem cellsFrom_weaken {lo lo' : Option Nat} {m : Cells w} (h : ∀ a, aboveB lo a = true → aboveB lo' a = true)
    (hm : cellsFrom lo m = true) : cellsFrom lo' m = true := by
  cases m with
  | nil => cases lo' <;> rfl
  | cons p r =>
    obtain ⟨a, x⟩ := p
    rw [cellsFrom_cons] at hm ⊢
    simp only [Bool.and_eq_true] at hm ⊢
    exact ⟨⟨h a hm.1.1, hm.1.2⟩, hm.2⟩

theorem cellsFrom_some_none {b : Nat} {m : Cells w} (hm : cellsFrom (some b) m = true) : cellsFrom none m = true :=
  cellsFrom_weaken (fun _ _ => rfl) hm

theorem cellsFrom_mono {a b : Nat} {m : Cells w} (h : a ≤ b) (hm : cellsFrom (some b) m = true) : cellsFrom (some a) m = true :=
  cellsFrom_weaken (fun c hc => by simp only [aboveB, decide_eq_true_eq] at hc ⊢; omega) hm

theorem cellsFrom_filter {lo : Option Nat} {m : Cells w} (p : Nat × BitVec w → Bool) (hm : cellsFrom lo m = true) :
    cellsFrom lo (m.filter p) = true := by
  induction m generalizing lo with
  | nil => exact hm
  | cons q r ih =>
    obtain ⟨a, x⟩ := q
    rw [cellsFrom_cons] at hm
    simp only [Bool.and_eq_true] at hm
    obtain ⟨⟨h1, h2⟩, h3⟩ := hm
    by_cases hp : p (a, x) = true
    · rw [List.filter_cons_of_pos hp, cellsFrom_cons, h1, h2]
      exact ih h3
    · rw [List.filter_cons_of_neg hp]
      exact cellsFrom_weaken (fun c hc => by
        cases lo with
        | none => rfl
        | some l => simp only [aboveB, decide_eq_true_eq] at h1 hc ⊢; omega) (ih h3)

theorem cellsFrom_insCell {lo : Option Nat} {m : Cells w} {a : Nat} (x : BitVec w) (hx : (x != 0) = true) (ha : aboveB lo a = true)
    (hm : cellsFrom lo m = true) : cellsFrom lo (insCell m a x) = true := by
  induction m generalizing lo with
  | nil => simp only [insCell, cellsFrom_cons, ha, hx, Bool.true_and]; rfl
  | cons p r ih =>
    obtain ⟨b, v⟩ := p
    rw [cellsFrom_cons] at hm
    simp only [Bool.and_eq_true] at hm
    obtain ⟨⟨h1, h2⟩, h3⟩ := hm
    simp only [insCell]
    split
    · rename_i hab
      simp only [cellsFrom_cons, ha, hx, h2, h3, Bool.and_true, Bool.true_and]
      simpa [aboveB] using hab
    · split
      · rename_i hab
        subst hab
        simp only [cellsFrom_cons, ha, hx, h3, Bool.and_true]
      · simp only [cellsFrom_cons, h1, h2, Bool.true_and]
        exact ih (by simp only [aboveB, decide_eq_true_eq]; omega) h3

theorem cellsFrom_wrCell {lo : Option Nat} {m : Cells w} {a : Nat} (x : BitVec w) (ha : aboveB lo a = true)
    (hm : cellsFrom lo m = true) : cellsFrom lo (wrCell m a x) = true := by
  unfold wrCell
  split
  · exact cellsFrom_filter _ hm
  · exact cellsFrom_insCell x (by simpa using ‹¬ x = 0›) ha hm

theorem wf_nil : Memory.wf ([] : Cells w) = true := rfl
theorem wf_wrCell {m : Cells w} (a : Nat) (x : BitVec w) (h : Memory.wf m = true) : Memory.wf (wrCell m a x) = true :=
  cellsFrom_wrCell x rfl h
theorem wf_wrCells {m : Cells w} (a : Nat) (l : List (BitVec w)) (h : Memory.wf m = true) : Memory.wf (wrCells m a l) = true := by
  induction l generalizing m a with
  | nil => exact h
  | cons x r ih => exact ih (a + 1) (wf_wrCell a x h)
theorem wf_wrLE {m : Cells 8} (a n v : Nat) (h : Memory.wf m = true) : Memory.wf (wrLE m a n v) = true := wf_wrCells _ _ h

theorem wf_clearCells {m : Cells w} (lo hi : Nat) (h : Memory.wf m = true) : Memory.wf (clearCells m lo hi) = true :=
  cellsFrom_filter _ h
theorem wf_sliceCells {m : Cells w} (lo hi : Nat) (h : Memory.wf m = true) : Memory.wf (sliceCells m lo hi) = true :=
  cellsFrom_filter _ h
theorem wf_foldl_wrCell {α : Type} {m : Cells w} (l : List α) (f : α → Nat) (g : α → BitVec w) (h : Memory.wf m = true) :
    Memory.wf (l.foldl (fun m p => wrCell m (f p) (g p)) m) = true := by
  induction l generalizing m with
  | nil => exact h
  | cons p r ih => exact ih (wf_wrCell _ _ h)

/-! ## Reads and writes -/

theorem rdCell_below {lo a : Nat} {m : Cells w} (h : cellsFrom (some lo) m = true) (ha : a ≤ lo) : rdCell m a = 0 := by
  induction m generalizing lo with
  | nil => rfl
  | cons p r ih =>
    obtain ⟨b, v⟩ := p
    rw [cellsFrom_cons] at h
    simp only [Bool.and_eq_true, aboveB, decide_eq_true_eq] at h
    simp only [rdCell]
    rw [if_neg (by omega)]
    exact ih h.2 (by omega)

theorem rdCell_filter_same (m : Cells w) (a : Nat) : rdCell (m.filter fun c => c.1 != a) a = 0 := by
  induction m with
  | nil => rfl
  | cons p r ih =>
    by_cases h : p.1 = a
    · simpa [List.filter_cons, h] using ih
    · simp only [List.filter_cons, bne_iff_ne, ne_eq, h, not_false_eq_true, if_true, rdCell]
      rw [if_neg (fun e => h e.symm)]
      exact ih

theorem rdCell_filter_other (m : Cells w) (a b : Nat) (hb : b ≠ a) : rdCell (m.filter fun c => c.1 != a) b = rdCell m b := by
  induction m with
  | nil => rfl
  | cons p r ih =>
    by_cases h : p.1 = a
    · simp only [List.filter_cons, bne_iff_ne, ne_eq, h, not_true_eq_false, if_false, rdCell, hb]
      exact ih
    · simp only [List.filter_cons, bne_iff_ne, ne_eq, h, not_false_eq_true, if_true, rdCell, ih]

theorem rdCell_insCell_same (m : Cells w) (a : Nat) (x : BitVec w) : rdCell (insCell m a x) a = x := by
  induction m with
  | nil => simp [insCell, rdCell]
  | cons p r ih =>
    simp only [insCell]
    split
    · simp [rdCell]
    · split
      · simp [rdCell]
      · rename_i h
        simp only [rdCell, h, if_false]
        exact ih

theorem rdCell_insCell_other (m : Cells w) (a b : Nat) (x : BitVec w) (hb : b ≠ a) : rdCell (insCell m a x) b = rdCell m b := by
  induction m with
  | nil => simp [insCell, rdCell, hb]
  | cons p r ih =>
    simp only [insCell]
    split
    · simp [rdCell, hb]
    · split
      · rename_i h
        simp only [rdCell, hb, ← h, if_false]
      · simp only [rdCell, ih]

/-- A unit reads as it was last written, whatever the memory. -/
theorem rdCell_wrCell_same (m : Cells w) (a : Nat) (x : BitVec w) : rdCell (wrCell m a x) a = x := by
  unfold wrCell
  split
  · rw [rdCell_filter_same, ‹x = 0›]
  · exact rdCell_insCell_same m a x

/-- A write leaves every other unit. -/
theorem rdCell_wrCell_other (m : Cells w) (a b : Nat) (x : BitVec w) (hb : b ≠ a) : rdCell (wrCell m a x) b = rdCell m b := by
  unfold wrCell
  split
  · exact rdCell_filter_other m a b hb
  · exact rdCell_insCell_other m a b x hb

theorem rdCell_wrCells_other (m : Cells w) (a b : Nat) (l : List (BitVec w)) (hb : b < a ∨ a + l.length ≤ b) :
    rdCell (wrCells m a l) b = rdCell m b := by
  induction l generalizing m a with
  | nil => rfl
  | cons x r ih =>
    simp only [List.length_cons] at hb
    simp only [wrCells]
    rw [ih (wrCell m a x) (a + 1) (by omega), rdCell_wrCell_other m a b x (by omega)]

theorem rdCell_wrCells_same (m : Cells w) (a i : Nat) (l : List (BitVec w)) (hi : i < l.length) : rdCell (wrCells m a l) (a + i) = l[i] := by
  induction l generalizing m a i with
  | nil => simp at hi
  | cons x r ih =>
    simp only [wrCells]
    cases i with
    | zero =>
      have h1 := rdCell_wrCells_other (wrCell m a x) (a + 1) a r (by omega)
      exact h1.trans (rdCell_wrCell_same m a x)
    | succ i =>
      have := ih (wrCell m a x) (a + 1) i (by simpa using hi)
      rw [show a + (i + 1) = a + 1 + i by omega, this]
      rfl

/-- Memories in canonical form with equal contents are equal data. -/
theorem cells_ext {m n : Cells w} (hm : Memory.wf m = true) (hn : Memory.wf n = true) (h : ∀ a, rdCell m a = rdCell n a) : m = n := by
  unfold Memory.wf at hm hn
  generalize none = lo at hm hn
  induction m generalizing lo n with
  | nil =>
    cases n with
    | nil => rfl
    | cons p r =>
      obtain ⟨a, x⟩ := p
      have := h a
      rw [cellsFrom_cons] at hn
      simp only [Bool.and_eq_true, bne_iff_ne] at hn
      simp only [rdCell, if_true] at this
      exact absurd this.symm hn.1.2
  | cons p r ih =>
    obtain ⟨a, x⟩ := p
    rw [cellsFrom_cons] at hm
    simp only [Bool.and_eq_true, bne_iff_ne] at hm
    cases n with
    | nil =>
      have := h a
      simp only [rdCell, if_true] at this
      exact absurd this hm.1.2
    | cons q t =>
      obtain ⟨b, y⟩ := q
      rw [cellsFrom_cons] at hn
      simp only [Bool.and_eq_true, bne_iff_ne] at hn
      have hab : a = b := by
        rcases Nat.lt_trichotomy a b with hlt | heq | hgt
        · have := h a
          simp only [rdCell, if_true, show ¬ a = b by omega, if_false, rdCell_below hn.2 (Nat.le_of_lt hlt)] at this
          exact absurd this hm.1.2
        · exact heq
        · have := h b
          simp only [rdCell, if_true, show ¬ b = a by omega, if_false, rdCell_below hm.2 (Nat.le_of_lt hgt)] at this
          exact absurd this.symm hn.1.2
      subst hab
      have hxy : x = y := by simpa [rdCell] using h a
      subst hxy
      congr 1
      refine ih (lo := some a) (fun c => ?_) hm.2 hn.2
      by_cases hc : c ≤ a
      · rw [rdCell_below hm.2 hc, rdCell_below hn.2 hc]
      · have := h c
        simp only [rdCell, show ¬ c = a by omega, if_false] at this
        exact this

/-! ## The memories of the module -/

/-- The link buffers of the dies stay with a change of a core. -/
theorem setCore_lbs (s : State) (k : CoreId) (x : Core) (d : Fin 4) : ((s.setCore k x).die d).lbs = (s.die d).lbs := by
  unfold State.setCore
  by_cases hd : d = k.die
  · subst hd; simp only [setDie_die_same]
  · simp only [setDie_die_other s k.die d _ hd]
theorem memOk_of_eq {s t : State} (h1 : t.hbm = s.hbm) (h2 : t.vault = s.vault)
    (h3 : ∀ k : CoreId, (t.core k).store = (s.core k).store) (h4 : ∀ d, (t.die d).lbs = (s.die d).lbs) (h : s.memOk) : t.memOk :=
  ⟨h1 ▸ h.1, h2 ▸ h.2.1, fun k => h3 k ▸ h.2.2.1 k, fun d n => by rw [h4 d]; exact h.2.2.2 d n⟩
theorem memOk_forEach {α : Type} {l : List α} {f : α → State → State} (hf : ∀ a s, s.memOk → (f a s).memOk) {s : State}
    (h : s.memOk) : (forEach l f s).memOk := by
  unfold forEach
  induction l generalizing s with
  | nil => exact h
  | cons a r ih => exact ih (hf a s h)
theorem memOk_modCtx {s : State} (c : CtxId) (f : Ctx → Ctx) (h : s.memOk) : (s.modCtx c f).memOk :=
  memOk_of_eq (s := s) rfl rfl (fun q => modCtx_store s q c f) (fun d => setCore_lbs s c.coreId _ d) h
theorem memOk_setCtx {s : State} (c : CtxId) (x : Ctx) (h : s.memOk) : (s.setCtx c x).memOk :=
  memOk_of_eq (s := s) rfl rfl (fun q => setCtx_store s q c x) (fun d => setCore_lbs s c.coreId _ d) h
theorem memOk_modArch {s : State} (c : CtxId) (f : Arch → Arch) (h : s.memOk) : (s.modArch c f).memOk := memOk_modCtx c _ h
theorem memOk_setCore {s : State} (k : CoreId) (x : Core) (hx : Memory.wf x.store = true) (h : s.memOk) : (s.setCore k x).memOk := by
  refine ⟨h.1, h.2.1, fun q => ?_, fun d n => by rw [setCore_lbs]; exact h.2.2.2 d n⟩
  by_cases hq : q = k
  · subst hq; rw [setCore_core_same]; exact hx
  · rw [setCore_core_other s k q x hq]; exact h.2.2.1 q
theorem memOk_modCore {s : State} (k : CoreId) (f : Core → Core) (hf : ∀ x : Core, Memory.wf x.store = true → Memory.wf (f x).store = true)
    (h : s.memOk) : (s.modCore k f).memOk := memOk_setCore k _ (hf _ (h.2.2.1 k)) h
/-- A change of a core that leaves its store. -/
theorem memOk_modCore_same {s : State} (k : CoreId) (f : Core → Core) (hf : ∀ x : Core, (f x).store = x.store)
    (h : s.memOk) : (s.modCore k f).memOk := memOk_modCore k f (fun x hx => by rw [hf]; exact hx) h
/-- A change of a die that leaves its cores' stores, and its link buffers in the form. -/
theorem memOk_modDie_lbs {s : State} (d : Fin 4) (f : Die → Die) (hf : ∀ x : Die, (f x).cores = x.cores)
    (hl : ∀ x : Die, (∀ n : Fin 16, Memory.wf (x.lbs[n.val]).bytes = true) → ∀ n : Fin 16, Memory.wf ((f x).lbs[n.val]).bytes = true) (h : s.memOk) :
    (s.modDie d f).memOk := by
  refine ⟨h.1, h.2.1, fun q => ?_, fun e n => ?_⟩
  · have : ((s.modDie d f).core q).store = (s.core q).store := by
      unfold State.core
      by_cases hd : q.die = d
      · simp only [hd, modDie_die_same, hf]
      · simp only [modDie_die_other s d q.die f hd]
    rw [this]; exact h.2.2.1 q
  · by_cases hd : e = d
    · subst hd; rw [modDie_die_same]; exact hl _ (h.2.2.2 e) n
    · rw [modDie_die_other s d e f hd]; exact h.2.2.2 e n
/-- A change of a die that leaves its cores and its link buffers. -/
theorem memOk_modDie {s : State} (d : Fin 4) (f : Die → Die) (hf : ∀ x : Die, (f x).cores = x.cores) (hl : ∀ x : Die, (f x).lbs = x.lbs)
    (h : s.memOk) : (s.modDie d f).memOk :=
  memOk_modDie_lbs d f hf (fun x hx n => by rw [hl]; exact hx n) h
/-- Bytes written to a link buffer keep the form. -/
theorem memOk_lbWrite {s : State} (d : Fin 4) (l : Fin 16) (a : Nat) (bs : List Byte) (h : s.memOk) :
    (s.modDie d fun x => { x with lbs := x.lbs.set l.val { x.lbs[l.val] with bytes := wrCells (x.lbs[l.val]).bytes a bs } }).memOk :=
  memOk_modDie_lbs d _ (fun _ => rfl) (fun x hx n => by
    by_cases hn : l.val = n.val
    · have := wf_wrCells a bs (hx n)
      simp only [hn, Vector.getElem_set_self]
      exact this
    · simp only [Vector.getElem_set_ne _ _ hn]; exact hx n) h
theorem memOk_csWrite {s : State} (k : CoreId) (a : Nat) (bs : List Byte) (h : s.memOk) : (csWrite k a bs s).memOk :=
  memOk_modCore k _ (fun _ hx => wf_wrCells _ _ hx) h
/-- A write of a context that may be held: the one fact that the write itself must keep the form. -/
theorem memOk_holdWrite {s : State} (c : CtxId) (ent : Option Nat) (w : Held) (p : State → State) (hp : (p s).memOk) (h : s.memOk) :
    (holdWrite c ent w p s).memOk := by
  unfold holdWrite
  split
  · exact hp
  · exact memOk_modCtx _ _ h
theorem memOk_ctxWrite {s : State} (c : CtxId) (ent : Option Nat) (a : Nat) (bs : List Byte) (h : s.memOk) :
    (ctxWrite c ent a bs s).memOk := memOk_holdWrite _ _ _ _ (memOk_csWrite _ _ _ h) h
theorem memOk_setFlag {s : State} (k : CoreId) (n : Nat) (v : W32) (h : s.memOk) : (setFlag k n v s).memOk := memOk_csWrite _ _ _ h
theorem memOk_dpaWrite {s : State} (dpa : Nat) (b : Byte) (h : s.memOk) : (dpaWrite dpa b s).memOk := by
  unfold dpaWrite
  split
  · split
    · exact ⟨wf_wrCell _ _ (wf_wrCell _ _ h.1), h.2.1, h.2.2⟩
    · exact ⟨wf_wrCell _ _ h.1, h.2.1, h.2.2⟩
  · exact ⟨h.1, wf_wrCell _ _ h.2.1, h.2.2⟩
theorem memOk_dpaStore {s : State} (v : BitVec 2) (a : Nat) (bs : List Byte) (h : s.memOk) : (dpaStore v a bs s).memOk := by
  induction bs generalizing a s with
  | nil => exact h
  | cons b r ih => exact ih (a + 1) (memOk_dpaWrite _ _ h)
/-- Making an owned field of a record unpredictable keeps the canonical form. -/
theorem memOk_tearField {s : State} (a : Nat) (ms : List Byte) (h : s.memOk) : (tearField a ms s).memOk :=
  memOk_of_eq (s := forEach ms.zipIdx (fun p u =>
    dpaWrite (a + p.2) ((dpaRead u (a + p.2) &&& ~~~p.1) ||| (Config.freeByte (s.draws + p.2) &&& p.1)) u) s)
    rfl rfl (fun _ => rfl) (fun _ => rfl) (memOk_forEach (fun _ _ hu => memOk_dpaWrite _ _ hu) h)
theorem memOk_tearRecords {s : State} (as : List Nat) (h : s.memOk) : (tearRecords as s).memOk := by
  unfold tearRecords
  refine memOk_forEach (fun f u hu => ?_) h
  split
  · exact memOk_tearField _ _ hu
  · exact hu
/-- A program's store keeps the canonical form. -/
theorem memOk_progStore {s : State} (v : BitVec 2) (a : Nat) (bs : List Byte) (h : s.memOk) : (progStore v a bs s).memOk :=
  memOk_tearRecords _ (memOk_dpaStore _ _ _ h)
theorem memOk_vaWrite {s : State} (k : CoreId) (t : BitVec 4) (a : Nat) (bs : List Byte) (h : s.memOk) : (vaWrite k t a bs s).memOk := by
  induction bs generalizing a s with
  | nil => exact h
  | cons b r ih =>
    unfold vaWrite
    split
    · exact ih (a + 1) (memOk_dpaWrite _ _ h)
    · exact ih (a + 1) h
theorem memOk_vaPut {s : State} (k : CoreId) (t : BitVec 4) (a n v : Nat) (h : s.memOk) : (vaPut k t a n v s).memOk := memOk_vaWrite _ _ _ _ h

/-! ## Placement, page tables, starts -/

theorem memOk_storeCells {s : State} (cells : List Nat) (bs : List Byte) (h : s.memOk) : (storeCells cells bs s).memOk :=
  memOk_tearRecords _ (memOk_forEach (fun _ _ hu => memOk_dpaWrite _ _ hu) h)
theorem memOk_accessStore {s : State} (a : Access) (off : Nat) (bs : List Byte) (h : s.memOk) : (accessStore a off bs s).memOk := by
  unfold accessStore
  split
  · exact memOk_progStore _ _ _ h
  · exact memOk_csWrite _ _ _ h
theorem memOk_setDpit {s : State} (p : Nat) (e : BitVec 32) (h : s.memOk) : (setDpit p e s).memOk := ⟨h.1, h.2.1, h.2.2⟩
theorem memOk_syncDpit {s : State} (l : List Nat) (h : s.memOk) : (syncDpit l s).memOk :=
  memOk_forEach (fun _ _ hu => memOk_setDpit _ _ hu) h
theorem memOk_setPlace {s : State} (page : Nat) (p : Nat × Nat) (h : s.memOk) : (setPlace page p s).memOk := memOk_setDpit _ _ h
theorem memOk_clearPlace {s : State} (p : Nat × Nat) (h : s.memOk) : (clearPlace p s).memOk := ⟨wf_clearCells _ _ h.1, h.2.1, h.2.2⟩
theorem memOk_dropLines {s : State} (l : List Nat) (h : s.memOk) : (dropLines l s).memOk := by
  refine ⟨h.1, h.2.1, fun k => ?_, fun d n => ?_⟩
  · have := h.2.2.1 k
    simpa [dropLines, State.core, State.die] using this
  · have := h.2.2.2 d n
    simpa [dropLines, State.die] using this
theorem memOk_abortMigs {s : State} (l : List Nat) (h : s.memOk) : (abortMigs l s).memOk :=
  memOk_forEach (fun _ _ hu => memOk_clearPlace _ hu) ⟨h.1, h.2.1, h.2.2⟩
theorem memOk_makeRoom {s : State} (page : Nat) (h : s.memOk) : (makeRoom page s).memOk := by
  unfold makeRoom
  dsimp only
  split
  · exact h
  · split
    · exact memOk_setPlace _ _ (memOk_setPlace _ _ h)
    · exact memOk_clearPlace _ (memOk_syncDpit _ (memOk_abortMigs _ ⟨h.1, h.2.1, h.2.2⟩))
/-- Fields outside the memories do not matter. -/
theorem memOk_migs {s : State} (l o : List Mig) (h : s.memOk) : ({ s with migs := l, oldCopies := o } : State).memOk := ⟨h.1, h.2.1, h.2.2⟩
theorem memOk_hbm {s : State} (m : Cells 8) (l : List Mig) (hm : Memory.wf m = true) (h : s.memOk) :
    ({ s with migs := l, hbm := m } : State).memOk := ⟨hm, h.2.1, h.2.2⟩
theorem memOk_openRows {s : State} (l : List Nat) (h : s.memOk) : (openRows l s).memOk := by
  unfold openRows
  refine memOk_forEach (fun g u hu => ?_) h
  exact ⟨hu.1, hu.2.1, hu.2.2⟩
theorem memOk_startMig {s : State} (page : Nat) (p : Nat × Nat) (h : s.memOk) : (startMig page p s).memOk := by
  unfold startMig
  dsimp only
  exact memOk_syncDpit _ (memOk_openRows _ (memOk_hbm _ _ (wf_foldl_wrCell _ _ _ (wf_clearCells _ _ h.1)) h))
theorem memOk_migrationSwitch {s : State} (h : s.memOk) : (migrationSwitch s).memOk := by
  unfold migrationSwitch
  split
  · exact memOk_dropLines _ (memOk_syncDpit _ (memOk_migs _ _ (memOk_setPlace _ _ (memOk_setPlace _ _ (memOk_migs _ s.oldCopies h)))))
  · split
    · exact h
    · split
      · refine ⟨h.1, h.2.1, fun k => ?_, fun d n => ?_⟩
        · have := h.2.2.1 k
          simpa [State.core, State.die] using this
        · have := h.2.2.2 d n
          simpa [State.die] using this
      · exact memOk_clearPlace _ (memOk_migs s.migs _ h)
theorem memOk_wrTable {s : State} (a : Nat) (e : W64) (h : s.memOk) : (wrTable a e s).memOk := memOk_dpaStore _ _ _ h
theorem memOk_newTable {s : State} (l : Nat) (h : s.memOk) : (newTable l s).2.memOk :=
  memOk_forEach (fun _ _ hu => memOk_dpaWrite _ _ hu) ⟨h.1, h.2.1, h.2.2⟩
theorem memOk_mapLeaf {s : State} (va : Nat) (pte : W64) (f l table : Nat) (h : s.memOk) : (mapLeaf va pte f l table s).memOk := by
  induction f generalizing l table s with
  | zero => exact h
  | succ f ih =>
    unfold mapLeaf
    dsimp only
    split
    · exact memOk_wrTable _ _ h
    · split
      · exact ih _ _ h
      · exact ih _ _ (memOk_wrTable _ _ (memOk_newTable _ h))
theorem memOk_putLeaf {s : State} (t : BitVec 4) (va : Nat) (pte : W64) (h : s.memOk) : (putLeaf t va pte s).memOk :=
  memOk_of_eq (s := mapLeaf va pte 4 0 (s.ten t).root s) rfl rfl (fun _ => rfl) (fun _ => rfl) (memOk_mapLeaf _ _ _ _ _ h)
/-- A start leaves HBM as it was, but for the root tables, or with nothing (R412); every other memory starts empty. -/
theorem memOk_restarted {s : State} (keep : Bool) (failed : List (Nat × Nat)) (h : s.memOk) : (restarted keep failed s).memOk := by
  refine ⟨?_, rfl, fun k => ?_, fun d n => ?_⟩
  · show Memory.wf (if keep then keptHbm s else []) = true
    split
    · exact wf_clearCells _ _ h.1
    · rfl
  · have : ((restarted keep failed s).core k).store = [] := by
      simp [restarted, State.core, State.die, Die.restart, Core.restart, Core.reset]
    rw [this]; rfl
  · have : ((restarted keep failed s).die d).lbs = .replicate 16 .closed := by
      simp [restarted, State.die, Die.restart, Die.reset]
    rw [this]; simp [LinkBuf.closed, Memory.wf, cellsFrom]
/-- A fold of conditional writes keeps the form. -/
theorem wf_foldl_if {α : Type} {m : Cells w} (l : List α) (p : α → Bool) (f : α → Nat) (g : α → BitVec w) (h : Memory.wf m = true) :
    Memory.wf (l.foldl (fun m a => if p a then wrCell m (f a) (g a) else m) m) = true := by
  induction l generalizing m with
  | nil => exact h
  | cons a r ih => exact ih (by dsimp only; split <;> first | exact wf_wrCell _ _ h | exact h)
theorem wf_foldl {α : Type} {m : Cells w} (l : List α) (f : Cells w → α → Cells w) (hf : ∀ m a, Memory.wf m = true → Memory.wf (f m a) = true)
    (h : Memory.wf m = true) : Memory.wf (l.foldl f m) = true := by
  induction l generalizing m with
  | nil => exact h
  | cons a r ih => exact ih (hf m a h)
/-- Whole chunks of arriving rows keep the form. -/
theorem wf_wholeChunks {m : Cells 8} (ls : List Arrival) (h : Memory.wf m = true) : Memory.wf (wholeChunks ls m) = true :=
  wf_foldl _ _ (fun _ _ h => wf_foldl_wrCell _ _ _ h) h
/-- Other masks move bytes, and keep the form. -/
theorem memOk_setMasks {s : State} (n : Fin 8) (dom : Nat) (ms : List W32) (h : s.memOk) : (setMasks n dom ms s).memOk :=
  ⟨wf_foldl_wrCell _ _ _ (wf_clearCells _ _ h.1), h.2.1, h.2.2⟩

/-- A core-store write changes no byte outside its range. -/
theorem csWrite_sameMemBut {s : State} (k : CoreId) (a : Nat) (bs : List Byte) :
    SameMemBut k a bs.length s (csWrite k a bs s) := by
  intro m b hb
  cases m with
  | hbm => rfl
  | vault => rfl
  | store c =>
    by_cases hc : c = k
    · subst hc
      simp only [State.byte, State.mem, csWrite, modCore_core_same]
      exact rdCell_wrCells_other _ _ _ _ (hb rfl)
    · simp only [State.byte, State.mem, csWrite, modCore_core_other s k c _ hc]
  | link d n =>
    have : ((csWrite k a bs s).die d).lbs = (s.die d).lbs := setCore_lbs ..
    simp only [State.byte, State.mem, this]

end Sys2Proof.Machine
end

