-- ==== Sys2Proof/Laws/PerInstr.lean ====
section
/-! SUPPORT. The round trip of each instruction: its slot word, where it has one, decodes to it. One lemma per constructor of Instr. -/

namespace Sys2Proof.Laws.RoundTrip

/-- What the encoder gives for a well-formed instruction decodes to that instruction. -/
def Statement (i : Instr) : Prop := ∀ w, encode i = some w → i.wf = true → decodeSlot w = some i

/-- The decoders on packed fields. -/
theorem decode_packAB (f : FAB) (i : Instr) (h : decAB f = some i) (hw : i.wf = true) : decodeSlot (.ab (packAB f)) = some i := by
  simp [decodeSlot, decodeAB, cutAB_packAB, h, keepWf, hw]
theorem decode_packV (f : FV) (i : Instr) (h : decV f = some i) (hw : i.wf = true) : decodeSlot (.v (packV f)) = some i := by
  simp [decodeSlot, decodeV, cutV_packV, h, keepWf, hw]
theorem decode_packM (f : FM) (i : Instr) (h : decM f = some i) (hw : i.wf = true) : decodeSlot (.m (packM f)) = some i := by
  simp [decodeSlot, decodeM, cutM_packM, h, keepWf, hw]
theorem decode_packC (f : FC) (i : Instr) (h : decC f = some i) (hw : i.wf = true) : decodeSlot (.c (packC f)) = some i := by
  simp [decodeSlot, decodeC, cutC_packC, h, keepWf, hw]
theorem decode_packS (f : FS) (i : Instr) (h : decS f = some i) (hw : i.wf = true) : decodeSlot (.s (packS f)) = some i := by
  simp [decodeSlot, decodeS, cutS_packS, h, keepWf, hw]
/-- The opcode of a packed slot-L word. -/
theorem op_packLA (f : FLA) : (packLA f).toNat % 256 = f.op.toNat := by
  have h : cutLA (packLA f) = f := cutLA_packLA f
  have h2 : (cutLA (packLA f)).op.toNat = f.op.toNat := by rw [h]
  simpa [cutLA] using h2
theorem decode_packLA (f : FLA) (i : Instr) (h : decLA f = some i) (hw : i.wf = true) (ho : f.op.toNat < 12) :
    decodeSlot (.l (packLA f)) = some i := by
  simp only [decodeSlot, decodeL, op_packLA]
  rw [if_neg (by omega), if_pos ho]
  simp [cutLA_packLA, h, keepWf, hw]
/-- The opcode of a packed slot-L word. -/
theorem op_packLM (f : FLM) : (packLM f).toNat % 256 = f.op.toNat := by
  have h : cutLM (packLM f) = f := cutLM_packLM f
  have h2 : (cutLM (packLM f)).op.toNat = f.op.toNat := by rw [h]
  simpa [cutLM] using h2
theorem decode_packLM (f : FLM) (i : Instr) (h : decLM f = some i) (hw : i.wf = true) (ho : f.op.toNat = 12 ∨ f.op.toNat = 13) :
    decodeSlot (.l (packLM f)) = some i := by
  simp only [decodeSlot, decodeL, op_packLM]
  rw [if_pos ho]
  simp [cutLM_packLM, h, keepWf, hw]
/-- The opcode of a packed slot-L word. -/
theorem op_packLH (f : FLH) : (packLH f).toNat % 256 = f.op.toNat := by
  have h : cutLH (packLH f) = f := cutLH_packLH f
  have h2 : (cutLH (packLH f)).op.toNat = f.op.toNat := by rw [h]
  simpa [cutLH] using h2
theorem decode_packLH (f : FLH) (i : Instr) (h : decLH f = some i) (hw : i.wf = true) (ho : 13 < f.op.toNat) :
    decodeSlot (.l (packLH f)) = some i := by
  simp only [decodeSlot, decodeL, op_packLH]
  rw [if_neg (by omega), if_neg (by omega)]
  simp [cutLH_packLH, h, keepWf, hw]
/-! The fields of the immediates that an encoder puts together. -/

theorem amoImm (sz : BitVec 1) (scope : BitVec 3) (k : BitVec 4) : let i : BitVec 14 := 0#6 ++ sz ++ scope ++ k
    i.extractLsb' 8 6 = 0#6 ∧ i.extractLsb' 0 4 = k ∧ i.extractLsb' 7 1 = sz ∧ i.extractLsb' 4 3 = scope := by
  change (0#6 ++ sz ++ scope ++ k : BitVec (6+1+3+4)).extractLsb' 8 6 = 0#6 ∧ (0#6 ++ sz ++ scope ++ k : BitVec (6+1+3+4)).extractLsb' 0 4 = k ∧ (0#6 ++ sz ++ scope ++ k : BitVec (6+1+3+4)).extractLsb' 7 1 = sz ∧ (0#6 ++ sz ++ scope ++ k : BitVec (6+1+3+4)).extractLsb' 4 3 = scope
  refine ⟨?_, ?_, ?_, ?_⟩ <;>
    simp (disch := decide) only [extract_append_high, extract_append_low, extract_self, Nat.reduceSub]
theorem vecScalar (x : BitVec 7) : let i : BitVec 12 := 0#5 ++ x
    i.extractLsb' 7 5 = 0#5 ∧ i.extractLsb' 0 7 = x := by
  change (0#5 ++ x : BitVec (5+7)).extractLsb' 7 5 = 0#5 ∧ (0#5 ++ x : BitVec (5+7)).extractLsb' 0 7 = x
  refine ⟨?_, ?_⟩ <;>
    simp (disch := decide) only [extract_append_high, extract_append_low, extract_self, Nat.reduceSub]
theorem vecCvt (p : BitVec 3) (x : BitVec 4) : let i : BitVec 12 := 0#5 ++ p ++ x
    i.extractLsb' 7 5 = 0#5 ∧ i.extractLsb' 0 4 = x ∧ i.extractLsb' 4 3 = p := by
  change (0#5 ++ p ++ x : BitVec (5+3+4)).extractLsb' 7 5 = 0#5 ∧ (0#5 ++ p ++ x : BitVec (5+3+4)).extractLsb' 0 4 = x ∧ (0#5 ++ p ++ x : BitVec (5+3+4)).extractLsb' 4 3 = p
  refine ⟨?_, ?_, ?_⟩ <;>
    simp (disch := decide) only [extract_append_high, extract_append_low, extract_self, Nat.reduceSub]
theorem vecCmp (x : BitVec 8) (k : BitVec 4) : let i : BitVec 12 := x ++ k
    i.extractLsb' 0 4 = k ∧ i.extractLsb' 4 8 = x := by
  change (x ++ k : BitVec (8+4)).extractLsb' 0 4 = k ∧ (x ++ k : BitVec (8+4)).extractLsb' 4 8 = x
  refine ⟨?_, ?_⟩ <;>
    simp (disch := decide) only [extract_append_high, extract_append_low, extract_self, Nat.reduceSub]
theorem vecBcast (x : BitVec 8) : let i : BitVec 12 := 0#4 ++ x
    i.extractLsb' 8 4 = 0#4 ∧ i.extractLsb' 0 8 = x := by
  change (0#4 ++ x : BitVec (4+8)).extractLsb' 8 4 = 0#4 ∧ (0#4 ++ x : BitVec (4+8)).extractLsb' 0 8 = x
  refine ⟨?_, ?_⟩ <;>
    simp (disch := decide) only [extract_append_high, extract_append_low, extract_self, Nat.reduceSub]
theorem vecSlide (x : BitVec 9) : let i : BitVec 12 := 0#3 ++ x
    i.extractLsb' 9 3 = 0#3 ∧ i.extractLsb' 0 9 = x := by
  change (0#3 ++ x : BitVec (3+9)).extractLsb' 9 3 = 0#3 ∧ (0#3 ++ x : BitVec (3+9)).extractLsb' 0 9 = x
  refine ⟨?_, ?_⟩ <;>
    simp (disch := decide) only [extract_append_high, extract_append_low, extract_self, Nat.reduceSub]
theorem vecNar (x : BitVec 5) : let i : BitVec 12 := 0#7 ++ x
    i.extractLsb' 5 7 = 0#7 ∧ i.extractLsb' 0 5 = x := by
  change (0#7 ++ x : BitVec (7+5)).extractLsb' 5 7 = 0#7 ∧ (0#7 ++ x : BitVec (7+5)).extractLsb' 0 5 = x
  refine ⟨?_, ?_⟩ <;>
    simp (disch := decide) only [extract_append_high, extract_append_low, extract_self, Nat.reduceSub]
theorem vecAccB (x : BitVec 3) : let i : BitVec 12 := 0#9 ++ x
    i.extractLsb' 3 9 = 0#9 ∧ i.extractLsb' 0 3 = x := by
  change (0#9 ++ x : BitVec (9+3)).extractLsb' 3 9 = 0#9 ∧ (0#9 ++ x : BitVec (9+3)).extractLsb' 0 3 = x
  refine ⟨?_, ?_⟩ <;>
    simp (disch := decide) only [extract_append_high, extract_append_low, extract_self, Nat.reduceSub]
theorem vecAccA (l : BitVec 1) (r : BitVec 7) (z : BitVec 4) : let i : BitVec 12 := l ++ r ++ z
    i.extractLsb' 11 1 = l ∧ i.extractLsb' 0 4 = z ∧ i.extractLsb' 4 7 = r := by
  change (l ++ r ++ z : BitVec (1+7+4)).extractLsb' 11 1 = l ∧ (l ++ r ++ z : BitVec (1+7+4)).extractLsb' 0 4 = z ∧ (l ++ r ++ z : BitVec (1+7+4)).extractLsb' 4 7 = r
  refine ⟨?_, ?_, ?_⟩ <;>
    simp (disch := decide) only [extract_append_high, extract_append_low, extract_self, Nat.reduceSub]
theorem immCpy (k : BitVec 4) (dw : BitVec 1) (n : BitVec 12) (ch : BitVec 1) : let i : BitVec 18 := k ++ dw ++ n ++ ch
    i.extractLsb' 14 4 = k ∧ i.extractLsb' 13 1 = dw ∧ i.extractLsb' 1 12 = n ∧ i.extractLsb' 0 1 = ch := by
  change (k ++ dw ++ n ++ ch : BitVec (4+1+12+1)).extractLsb' 14 4 = k ∧ (k ++ dw ++ n ++ ch : BitVec (4+1+12+1)).extractLsb' 13 1 = dw ∧ (k ++ dw ++ n ++ ch : BitVec (4+1+12+1)).extractLsb' 1 12 = n ∧ (k ++ dw ++ n ++ ch : BitVec (4+1+12+1)).extractLsb' 0 1 = ch
  refine ⟨?_, ?_, ?_, ?_⟩ <;>
    simp (disch := decide) only [extract_append_high, extract_append_low, extract_self, Nat.reduceSub]
theorem immCpwp (ch : BitVec 1) : let i : BitVec 18 := 0#17 ++ ch
    i.extractLsb' 1 17 = 0#17 ∧ i.extractLsb' 0 1 = ch := by
  change (0#17 ++ ch : BitVec (17+1)).extractLsb' 1 17 = 0#17 ∧ (0#17 ++ ch : BitVec (17+1)).extractLsb' 0 1 = ch
  refine ⟨?_, ?_⟩ <;>
    simp (disch := decide) only [extract_append_high, extract_append_low, extract_self, Nat.reduceSub]
theorem immCpwait (ch : BitVec 1) : let i : BitVec 18 := 0#17 ++ ch
    i.extractLsb' 1 17 = 0#17 ∧ i.extractLsb' 0 1 = ch := by
  change (0#17 ++ ch : BitVec (17+1)).extractLsb' 1 17 = 0#17 ∧ (0#17 ++ ch : BitVec (17+1)).extractLsb' 0 1 = ch
  refine ⟨?_, ?_⟩ <;>
    simp (disch := decide) only [extract_append_high, extract_append_low, extract_self, Nat.reduceSub]
theorem immCpabort (ch : BitVec 1) : let i : BitVec 18 := 0#17 ++ ch
    i.extractLsb' 1 17 = 0#17 ∧ i.extractLsb' 0 1 = ch := by
  change (0#17 ++ ch : BitVec (17+1)).extractLsb' 1 17 = 0#17 ∧ (0#17 ++ ch : BitVec (17+1)).extractLsb' 0 1 = ch
  refine ⟨?_, ?_⟩ <;>
    simp (disch := decide) only [extract_append_high, extract_append_low, extract_self, Nat.reduceSub]
theorem immWopen (w : BitVec 3) : let i : BitVec 18 := 0#15 ++ w
    i.extractLsb' 3 15 = 0#15 ∧ i.extractLsb' 0 3 = w := by
  change (0#15 ++ w : BitVec (15+3)).extractLsb' 3 15 = 0#15 ∧ (0#15 ++ w : BitVec (15+3)).extractLsb' 0 3 = w
  refine ⟨?_, ?_⟩ <;>
    simp (disch := decide) only [extract_append_high, extract_append_low, extract_self, Nat.reduceSub]
theorem immWadv (w : BitVec 3) : let i : BitVec 18 := 0#15 ++ w
    i.extractLsb' 3 15 = 0#15 ∧ i.extractLsb' 0 3 = w := by
  change (0#15 ++ w : BitVec (15+3)).extractLsb' 3 15 = 0#15 ∧ (0#15 ++ w : BitVec (15+3)).extractLsb' 0 3 = w
  refine ⟨?_, ?_⟩ <;>
    simp (disch := decide) only [extract_append_high, extract_append_low, extract_self, Nat.reduceSub]
theorem immWclose (w : BitVec 3) : let i : BitVec 18 := 0#15 ++ w
    i.extractLsb' 3 15 = 0#15 ∧ i.extractLsb' 0 3 = w := by
  change (0#15 ++ w : BitVec (15+3)).extractLsb' 3 15 = 0#15 ∧ (0#15 ++ w : BitVec (15+3)).extractLsb' 0 3 = w
  refine ⟨?_, ?_⟩ <;>
    simp (disch := decide) only [extract_append_high, extract_append_low, extract_self, Nat.reduceSub]
theorem immWstat (w : BitVec 3) : let i : BitVec 18 := 0#15 ++ w
    i.extractLsb' 3 15 = 0#15 ∧ i.extractLsb' 0 3 = w := by
  change (0#15 ++ w : BitVec (15+3)).extractLsb' 3 15 = 0#15 ∧ (0#15 ++ w : BitVec (15+3)).extractLsb' 0 3 = w
  refine ⟨?_, ?_⟩ <;>
    simp (disch := decide) only [extract_append_high, extract_append_low, extract_self, Nat.reduceSub]
theorem immBgive (rcv : BitVec 2) (home : BitVec 2) (buf : BitVec 7) : let i : BitVec 18 := 0#7 ++ rcv ++ home ++ buf
    i.extractLsb' 11 7 = 0#7 ∧ i.extractLsb' 9 2 = rcv ∧ i.extractLsb' 7 2 = home ∧ i.extractLsb' 0 7 = buf := by
  change (0#7 ++ rcv ++ home ++ buf : BitVec (7+2+2+7)).extractLsb' 11 7 = 0#7 ∧ (0#7 ++ rcv ++ home ++ buf : BitVec (7+2+2+7)).extractLsb' 9 2 = rcv ∧ (0#7 ++ rcv ++ home ++ buf : BitVec (7+2+2+7)).extractLsb' 7 2 = home ∧ (0#7 ++ rcv ++ home ++ buf : BitVec (7+2+2+7)).extractLsb' 0 7 = buf
  refine ⟨?_, ?_, ?_, ?_⟩ <;>
    simp (disch := decide) only [extract_append_high, extract_append_low, extract_self, Nat.reduceSub]
theorem immBtake (n : BitVec 4) (home : BitVec 2) (buf : BitVec 7) : let i : BitVec 18 := 0#5 ++ n ++ home ++ buf
    i.extractLsb' 13 5 = 0#5 ∧ i.extractLsb' 9 4 = n ∧ i.extractLsb' 7 2 = home ∧ i.extractLsb' 0 7 = buf := by
  change (0#5 ++ n ++ home ++ buf : BitVec (5+4+2+7)).extractLsb' 13 5 = 0#5 ∧ (0#5 ++ n ++ home ++ buf : BitVec (5+4+2+7)).extractLsb' 9 4 = n ∧ (0#5 ++ n ++ home ++ buf : BitVec (5+4+2+7)).extractLsb' 7 2 = home ∧ (0#5 ++ n ++ home ++ buf : BitVec (5+4+2+7)).extractLsb' 0 7 = buf
  refine ⟨?_, ?_, ?_, ?_⟩ <;>
    simp (disch := decide) only [extract_append_high, extract_append_low, extract_self, Nat.reduceSub]
theorem immBopen (ch : BitVec 1) (src : BitVec 2) (buf : BitVec 7) : let i : BitVec 18 := 0#8 ++ ch ++ src ++ buf
    i.extractLsb' 10 8 = 0#8 ∧ i.extractLsb' 9 1 = ch ∧ i.extractLsb' 7 2 = src ∧ i.extractLsb' 0 7 = buf := by
  change (0#8 ++ ch ++ src ++ buf : BitVec (8+1+2+7)).extractLsb' 10 8 = 0#8 ∧ (0#8 ++ ch ++ src ++ buf : BitVec (8+1+2+7)).extractLsb' 9 1 = ch ∧ (0#8 ++ ch ++ src ++ buf : BitVec (8+1+2+7)).extractLsb' 7 2 = src ∧ (0#8 ++ ch ++ src ++ buf : BitVec (8+1+2+7)).extractLsb' 0 7 = buf
  refine ⟨?_, ?_, ?_, ?_⟩ <;>
    simp (disch := decide) only [extract_append_high, extract_append_low, extract_self, Nat.reduceSub]
theorem immBclose (ch : BitVec 1) (src : BitVec 2) (buf : BitVec 7) : let i : BitVec 18 := 0#8 ++ ch ++ src ++ buf
    i.extractLsb' 10 8 = 0#8 ∧ i.extractLsb' 9 1 = ch ∧ i.extractLsb' 7 2 = src ∧ i.extractLsb' 0 7 = buf := by
  change (0#8 ++ ch ++ src ++ buf : BitVec (8+1+2+7)).extractLsb' 10 8 = 0#8 ∧ (0#8 ++ ch ++ src ++ buf : BitVec (8+1+2+7)).extractLsb' 9 1 = ch ∧ (0#8 ++ ch ++ src ++ buf : BitVec (8+1+2+7)).extractLsb' 7 2 = src ∧ (0#8 ++ ch ++ src ++ buf : BitVec (8+1+2+7)).extractLsb' 0 7 = buf
  refine ⟨?_, ?_, ?_, ?_⟩ <;>
    simp (disch := decide) only [extract_append_high, extract_append_low, extract_self, Nat.reduceSub]
theorem immFset (n : BitVec 10) : let i : BitVec 18 := 0#8 ++ n
    i.extractLsb' 10 8 = 0#8 ∧ i.extractLsb' 0 10 = n := by
  change (0#8 ++ n : BitVec (8+10)).extractLsb' 10 8 = 0#8 ∧ (0#8 ++ n : BitVec (8+10)).extractLsb' 0 10 = n
  refine ⟨?_, ?_⟩ <;>
    simp (disch := decide) only [extract_append_high, extract_append_low, extract_self, Nat.reduceSub]
theorem immFaddFlag (n : BitVec 10) : let i : BitVec 18 := 0#8 ++ n
    i.extractLsb' 10 8 = 0#8 ∧ i.extractLsb' 0 10 = n := by
  change (0#8 ++ n : BitVec (8+10)).extractLsb' 10 8 = 0#8 ∧ (0#8 ++ n : BitVec (8+10)).extractLsb' 0 10 = n
  refine ⟨?_, ?_⟩ <;>
    simp (disch := decide) only [extract_append_high, extract_append_low, extract_self, Nat.reduceSub]
theorem immFwait (n : BitVec 10) : let i : BitVec 18 := 0#8 ++ n
    i.extractLsb' 10 8 = 0#8 ∧ i.extractLsb' 0 10 = n := by
  change (0#8 ++ n : BitVec (8+10)).extractLsb' 10 8 = 0#8 ∧ (0#8 ++ n : BitVec (8+10)).extractLsb' 0 10 = n
  refine ⟨?_, ?_⟩ <;>
    simp (disch := decide) only [extract_append_high, extract_append_low, extract_self, Nat.reduceSub]
theorem immFwaiteq (n : BitVec 10) : let i : BitVec 18 := 0#8 ++ n
    i.extractLsb' 10 8 = 0#8 ∧ i.extractLsb' 0 10 = n := by
  change (0#8 ++ n : BitVec (8+10)).extractLsb' 10 8 = 0#8 ∧ (0#8 ++ n : BitVec (8+10)).extractLsb' 0 10 = n
  refine ⟨?_, ?_⟩ <;>
    simp (disch := decide) only [extract_append_high, extract_append_low, extract_self, Nat.reduceSub]
theorem immSbind (sx : BitVec 1) (wd : BitVec 2) (dir : BitVec 1) (p : BitVec 3) : let i : BitVec 18 := 0#7 ++ 0#3 ++ 0#1 ++ sx ++ wd ++ dir ++ p
    i.extractLsb' 11 7 = 0#7 ∧ i.extractLsb' 8 3 = 0#3 ∧ i.extractLsb' 7 1 = 0#1 ∧ i.extractLsb' 6 1 = sx ∧ i.extractLsb' 4 2 = wd ∧ i.extractLsb' 3 1 = dir ∧ i.extractLsb' 0 3 = p := by
  change (0#7 ++ 0#3 ++ 0#1 ++ sx ++ wd ++ dir ++ p : BitVec (7+3+1+1+2+1+3)).extractLsb' 11 7 = 0#7 ∧ (0#7 ++ 0#3 ++ 0#1 ++ sx ++ wd ++ dir ++ p : BitVec (7+3+1+1+2+1+3)).extractLsb' 8 3 = 0#3 ∧ (0#7 ++ 0#3 ++ 0#1 ++ sx ++ wd ++ dir ++ p : BitVec (7+3+1+1+2+1+3)).extractLsb' 7 1 = 0#1 ∧ (0#7 ++ 0#3 ++ 0#1 ++ sx ++ wd ++ dir ++ p : BitVec (7+3+1+1+2+1+3)).extractLsb' 6 1 = sx ∧ (0#7 ++ 0#3 ++ 0#1 ++ sx ++ wd ++ dir ++ p : BitVec (7+3+1+1+2+1+3)).extractLsb' 4 2 = wd ∧ (0#7 ++ 0#3 ++ 0#1 ++ sx ++ wd ++ dir ++ p : BitVec (7+3+1+1+2+1+3)).extractLsb' 3 1 = dir ∧ (0#7 ++ 0#3 ++ 0#1 ++ sx ++ wd ++ dir ++ p : BitVec (7+3+1+1+2+1+3)).extractLsb' 0 3 = p
  refine ⟨?_, ?_, ?_, ?_, ?_, ?_, ?_⟩ <;>
    simp (disch := decide) only [extract_append_high, extract_append_low, extract_self, Nat.reduceSub]
theorem immSbindWindow (w : BitVec 3) (sx : BitVec 1) (wd : BitVec 2) (dir : BitVec 1) (p : BitVec 3) : let i : BitVec 18 := 0#7 ++ w ++ 1#1 ++ sx ++ wd ++ dir ++ p
    i.extractLsb' 11 7 = 0#7 ∧ i.extractLsb' 8 3 = w ∧ i.extractLsb' 7 1 = 1#1 ∧ i.extractLsb' 6 1 = sx ∧ i.extractLsb' 4 2 = wd ∧ i.extractLsb' 3 1 = dir ∧ i.extractLsb' 0 3 = p := by
  change (0#7 ++ w ++ 1#1 ++ sx ++ wd ++ dir ++ p : BitVec (7+3+1+1+2+1+3)).extractLsb' 11 7 = 0#7 ∧ (0#7 ++ w ++ 1#1 ++ sx ++ wd ++ dir ++ p : BitVec (7+3+1+1+2+1+3)).extractLsb' 8 3 = w ∧ (0#7 ++ w ++ 1#1 ++ sx ++ wd ++ dir ++ p : BitVec (7+3+1+1+2+1+3)).extractLsb' 7 1 = 1#1 ∧ (0#7 ++ w ++ 1#1 ++ sx ++ wd ++ dir ++ p : BitVec (7+3+1+1+2+1+3)).extractLsb' 6 1 = sx ∧ (0#7 ++ w ++ 1#1 ++ sx ++ wd ++ dir ++ p : BitVec (7+3+1+1+2+1+3)).extractLsb' 4 2 = wd ∧ (0#7 ++ w ++ 1#1 ++ sx ++ wd ++ dir ++ p : BitVec (7+3+1+1+2+1+3)).extractLsb' 3 1 = dir ∧ (0#7 ++ w ++ 1#1 ++ sx ++ wd ++ dir ++ p : BitVec (7+3+1+1+2+1+3)).extractLsb' 0 3 = p
  refine ⟨?_, ?_, ?_, ?_, ?_, ?_, ?_⟩ <;>
    simp (disch := decide) only [extract_append_high, extract_append_low, extract_self, Nat.reduceSub]
theorem immSunb (p : BitVec 3) : let i : BitVec 18 := 0#15 ++ p
    i.extractLsb' 3 15 = 0#15 ∧ i.extractLsb' 0 3 = p := by
  change (0#15 ++ p : BitVec (15+3)).extractLsb' 3 15 = 0#15 ∧ (0#15 ++ p : BitVec (15+3)).extractLsb' 0 3 = p
  refine ⟨?_, ?_⟩ <;>
    simp (disch := decide) only [extract_append_high, extract_append_low, extract_self, Nat.reduceSub]
theorem immSpos (p : BitVec 3) : let i : BitVec 18 := 0#15 ++ p
    i.extractLsb' 3 15 = 0#15 ∧ i.extractLsb' 0 3 = p := by
  change (0#15 ++ p : BitVec (15+3)).extractLsb' 3 15 = 0#15 ∧ (0#15 ++ p : BitVec (15+3)).extractLsb' 0 3 = p
  refine ⟨?_, ?_⟩ <;>
    simp (disch := decide) only [extract_append_high, extract_append_low, extract_self, Nat.reduceSub]
theorem immTdset (k : BitVec 4) : let i : BitVec 18 := 0#14 ++ k
    i.extractLsb' 4 14 = 0#14 ∧ i.extractLsb' 0 4 = k := by
  change (0#14 ++ k : BitVec (14+4)).extractLsb' 4 14 = 0#14 ∧ (0#14 ++ k : BitVec (14+4)).extractLsb' 0 4 = k
  refine ⟨?_, ?_⟩ <;>
    simp (disch := decide) only [extract_append_high, extract_append_low, extract_self, Nat.reduceSub]
theorem immTdget (q : BitVec 2) (k : BitVec 4) : let i : BitVec 18 := 0#12 ++ q ++ k
    i.extractLsb' 6 12 = 0#12 ∧ i.extractLsb' 4 2 = q ∧ i.extractLsb' 0 4 = k := by
  change (0#12 ++ q ++ k : BitVec (12+2+4)).extractLsb' 6 12 = 0#12 ∧ (0#12 ++ q ++ k : BitVec (12+2+4)).extractLsb' 4 2 = q ∧ (0#12 ++ q ++ k : BitVec (12+2+4)).extractLsb' 0 4 = k
  refine ⟨?_, ?_, ?_⟩ <;>
    simp (disch := decide) only [extract_append_high, extract_append_low, extract_self, Nat.reduceSub]
theorem immLoop (n : BitVec 12) : let i : BitVec 18 := 0#6 ++ n
    i.extractLsb' 12 6 = 0#6 ∧ i.extractLsb' 0 12 = n := by
  change (0#6 ++ n : BitVec (6+12)).extractLsb' 12 6 = 0#6 ∧ (0#6 ++ n : BitVec (6+12)).extractLsb' 0 12 = n
  refine ⟨?_, ?_⟩ <;>
    simp (disch := decide) only [extract_append_high, extract_append_low, extract_self, Nat.reduceSub]
theorem immLoopi (n : BitVec 12) : let i : BitVec 18 := 0#6 ++ n
    i.extractLsb' 12 6 = 0#6 ∧ i.extractLsb' 0 12 = n := by
  change (0#6 ++ n : BitVec (6+12)).extractLsb' 12 6 = 0#6 ∧ (0#6 ++ n : BitVec (6+12)).extractLsb' 0 12 = n
  refine ⟨?_, ?_⟩ <;>
    simp (disch := decide) only [extract_append_high, extract_append_low, extract_self, Nat.reduceSub]
theorem immPloop (e : BitVec 3) (s1 : BitVec 3) (n : BitVec 12) : let i : BitVec 18 := e ++ s1 ++ n
    i.extractLsb' 15 3 = e ∧ i.extractLsb' 12 3 = s1 ∧ i.extractLsb' 0 12 = n := by
  change (e ++ s1 ++ n : BitVec (3+3+12)).extractLsb' 15 3 = e ∧ (e ++ s1 ++ n : BitVec (3+3+12)).extractLsb' 12 3 = s1 ∧ (e ++ s1 ++ n : BitVec (3+3+12)).extractLsb' 0 12 = n
  refine ⟨?_, ?_, ?_⟩ <;>
    simp (disch := decide) only [extract_append_high, extract_append_low, extract_self, Nat.reduceSub]
theorem immLexit (k : BitVec 3) : let i : BitVec 18 := 0#15 ++ k
    i.extractLsb' 3 15 = 0#15 ∧ i.extractLsb' 0 3 = k := by
  change (0#15 ++ k : BitVec (15+3)).extractLsb' 3 15 = 0#15 ∧ (0#15 ++ k : BitVec (15+3)).extractLsb' 0 3 = k
  refine ⟨?_, ?_⟩ <;>
    simp (disch := decide) only [extract_append_high, extract_append_low, extract_self, Nat.reduceSub]
theorem immSetti (k : BitVec 3) : let i : BitVec 7 := 0#4 ++ k
    i.extractLsb' 3 4 = 0#4 ∧ i.extractLsb' 0 3 = k := by
  change (0#4 ++ k : BitVec (4+3)).extractLsb' 3 4 = 0#4 ∧ (0#4 ++ k : BitVec (4+3)).extractLsb' 0 3 = k
  refine ⟨?_, ?_⟩ <;>
    simp (disch := decide) only [extract_append_high, extract_append_low, extract_self, Nat.reduceSub]
theorem immDrain (scope : BitVec 3) : let i : BitVec 18 := 0#15 ++ scope
    i.extractLsb' 3 15 = 0#15 ∧ i.extractLsb' 0 3 = scope := by
  change (0#15 ++ scope : BitVec (15+3)).extractLsb' 3 15 = 0#15 ∧ (0#15 ++ scope : BitVec (15+3)).extractLsb' 0 3 = scope
  refine ⟨?_, ?_⟩ <;>
    simp (disch := decide) only [extract_append_high, extract_append_low, extract_self, Nat.reduceSub]
theorem immFenceAcq (scope : BitVec 3) : let i : BitVec 18 := 0#14 ++ 0#1 ++ scope
    i.extractLsb' 4 14 = 0#14 ∧ i.extractLsb' 3 1 = 0#1 ∧ i.extractLsb' 0 3 = scope := by
  change (0#14 ++ 0#1 ++ scope : BitVec (14+1+3)).extractLsb' 4 14 = 0#14 ∧ (0#14 ++ 0#1 ++ scope : BitVec (14+1+3)).extractLsb' 3 1 = 0#1 ∧ (0#14 ++ 0#1 ++ scope : BitVec (14+1+3)).extractLsb' 0 3 = scope
  refine ⟨?_, ?_, ?_⟩ <;>
    simp (disch := decide) only [extract_append_high, extract_append_low, extract_self, Nat.reduceSub]
theorem immFenceRel (scope : BitVec 3) : let i : BitVec 18 := 0#14 ++ 1#1 ++ scope
    i.extractLsb' 4 14 = 0#14 ∧ i.extractLsb' 3 1 = 1#1 ∧ i.extractLsb' 0 3 = scope := by
  change (0#14 ++ 1#1 ++ scope : BitVec (14+1+3)).extractLsb' 4 14 = 0#14 ∧ (0#14 ++ 1#1 ++ scope : BitVec (14+1+3)).extractLsb' 3 1 = 1#1 ∧ (0#14 ++ 1#1 ++ scope : BitVec (14+1+3)).extractLsb' 0 3 = scope
  refine ⟨?_, ?_, ?_⟩ <;>
    simp (disch := decide) only [extract_append_high, extract_append_low, extract_self, Nat.reduceSub]
theorem immTspawn : let i : BitVec 18 := 0#1 ++ 0#1 ++ 0#16
    i.extractLsb' 17 1 = 0#1 ∧ i.extractLsb' 16 1 = 0#1 ∧ i.extractLsb' 0 16 = 0#16 := by
  change (0#1 ++ 0#1 ++ 0#16 : BitVec (1+1+16)).extractLsb' 17 1 = 0#1 ∧ (0#1 ++ 0#1 ++ 0#16 : BitVec (1+1+16)).extractLsb' 16 1 = 0#1 ∧ (0#1 ++ 0#1 ++ 0#16 : BitVec (1+1+16)).extractLsb' 0 16 = 0#16
  refine ⟨?_, ?_, ?_⟩ <;>
    simp (disch := decide) only [extract_append_high, extract_append_low, extract_self, Nat.reduceSub]
theorem immTspawnG (n : BitVec 16) : let i : BitVec 18 := 0#1 ++ 1#1 ++ n
    i.extractLsb' 17 1 = 0#1 ∧ i.extractLsb' 16 1 = 1#1 ∧ i.extractLsb' 0 16 = n := by
  change (0#1 ++ 1#1 ++ n : BitVec (1+1+16)).extractLsb' 17 1 = 0#1 ∧ (0#1 ++ 1#1 ++ n : BitVec (1+1+16)).extractLsb' 16 1 = 1#1 ∧ (0#1 ++ 1#1 ++ n : BitVec (1+1+16)).extractLsb' 0 16 = n
  refine ⟨?_, ?_, ?_⟩ <;>
    simp (disch := decide) only [extract_append_high, extract_append_low, extract_self, Nat.reduceSub]
theorem immTsetq (p : BitVec 2) : let i : BitVec 18 := 0#15 ++ 0#1 ++ p
    i.extractLsb' 3 15 = 0#15 ∧ i.extractLsb' 2 1 = 0#1 ∧ i.extractLsb' 0 2 = p := by
  change (0#15 ++ 0#1 ++ p : BitVec (15+1+2)).extractLsb' 3 15 = 0#15 ∧ (0#15 ++ 0#1 ++ p : BitVec (15+1+2)).extractLsb' 2 1 = 0#1 ∧ (0#15 ++ 0#1 ++ p : BitVec (15+1+2)).extractLsb' 0 2 = p
  refine ⟨?_, ?_, ?_⟩ <;>
    simp (disch := decide) only [extract_append_high, extract_append_low, extract_self, Nat.reduceSub]
theorem immTsetqSelf (p : BitVec 2) : let i : BitVec 18 := 0#15 ++ 1#1 ++ p
    i.extractLsb' 3 15 = 0#15 ∧ i.extractLsb' 2 1 = 1#1 ∧ i.extractLsb' 0 2 = p := by
  change (0#15 ++ 1#1 ++ p : BitVec (15+1+2)).extractLsb' 3 15 = 0#15 ∧ (0#15 ++ 1#1 ++ p : BitVec (15+1+2)).extractLsb' 2 1 = 1#1 ∧ (0#15 ++ 1#1 ++ p : BitVec (15+1+2)).extractLsb' 0 2 = p
  refine ⟨?_, ?_, ?_⟩ <;>
    simp (disch := decide) only [extract_append_high, extract_append_low, extract_self, Nat.reduceSub]
theorem immBsync (scope : BitVec 3) : let i : BitVec 18 := 0#15 ++ scope
    i.extractLsb' 3 15 = 0#15 ∧ i.extractLsb' 0 3 = scope := by
  change (0#15 ++ scope : BitVec (15+3)).extractLsb' 3 15 = 0#15 ∧ (0#15 ++ scope : BitVec (15+3)).extractLsb' 0 3 = scope
  refine ⟨?_, ?_⟩ <;>
    simp (disch := decide) only [extract_append_high, extract_append_low, extract_self, Nat.reduceSub]
theorem immLbopen (n : BitVec 4) : let i : BitVec 18 := 0#14 ++ n
    i.extractLsb' 4 14 = 0#14 ∧ i.extractLsb' 0 4 = n := by
  change (0#14 ++ n : BitVec (14+4)).extractLsb' 4 14 = 0#14 ∧ (0#14 ++ n : BitVec (14+4)).extractLsb' 0 4 = n
  refine ⟨?_, ?_⟩ <;>
    simp (disch := decide) only [extract_append_high, extract_append_low, extract_self, Nat.reduceSub]
theorem immLbsend (m : BitVec 4) (lk : BitVec 3) (n : BitVec 4) : let i : BitVec 18 := 0#7 ++ m ++ lk ++ n
    i.extractLsb' 11 7 = 0#7 ∧ i.extractLsb' 7 4 = m ∧ i.extractLsb' 4 3 = lk ∧ i.extractLsb' 0 4 = n := by
  change (0#7 ++ m ++ lk ++ n : BitVec (7+4+3+4)).extractLsb' 11 7 = 0#7 ∧ (0#7 ++ m ++ lk ++ n : BitVec (7+4+3+4)).extractLsb' 7 4 = m ∧ (0#7 ++ m ++ lk ++ n : BitVec (7+4+3+4)).extractLsb' 4 3 = lk ∧ (0#7 ++ m ++ lk ++ n : BitVec (7+4+3+4)).extractLsb' 0 4 = n
  refine ⟨?_, ?_, ?_, ?_⟩ <;>
    simp (disch := decide) only [extract_append_high, extract_append_low, extract_self, Nat.reduceSub]
theorem immLbfree (n : BitVec 4) : let i : BitVec 18 := 0#13 ++ 0#1 ++ n
    i.extractLsb' 5 13 = 0#13 ∧ i.extractLsb' 4 1 = 0#1 ∧ i.extractLsb' 0 4 = n := by
  change (0#13 ++ 0#1 ++ n : BitVec (13+1+4)).extractLsb' 5 13 = 0#13 ∧ (0#13 ++ 0#1 ++ n : BitVec (13+1+4)).extractLsb' 4 1 = 0#1 ∧ (0#13 ++ 0#1 ++ n : BitVec (13+1+4)).extractLsb' 0 4 = n
  refine ⟨?_, ?_, ?_⟩ <;>
    simp (disch := decide) only [extract_append_high, extract_append_low, extract_self, Nat.reduceSub]
theorem immLbfreeClose (n : BitVec 4) : let i : BitVec 18 := 0#13 ++ 1#1 ++ n
    i.extractLsb' 5 13 = 0#13 ∧ i.extractLsb' 4 1 = 1#1 ∧ i.extractLsb' 0 4 = n := by
  change (0#13 ++ 1#1 ++ n : BitVec (13+1+4)).extractLsb' 5 13 = 0#13 ∧ (0#13 ++ 1#1 ++ n : BitVec (13+1+4)).extractLsb' 4 1 = 1#1 ∧ (0#13 ++ 1#1 ++ n : BitVec (13+1+4)).extractLsb' 0 4 = n
  refine ⟨?_, ?_, ?_⟩ <;>
    simp (disch := decide) only [extract_append_high, extract_append_low, extract_self, Nat.reduceSub]
theorem immCgrp (tout : BitVec 4) (op : BitVec 1) (scope : BitVec 3) : let i : BitVec 18 := 0#9 ++ 0#1 ++ tout ++ op ++ scope
    i.extractLsb' 9 9 = 0#9 ∧ i.extractLsb' 8 1 = 0#1 ∧ i.extractLsb' 4 4 = tout ∧ i.extractLsb' 3 1 = op ∧ i.extractLsb' 0 3 = scope := by
  change (0#9 ++ 0#1 ++ tout ++ op ++ scope : BitVec (9+1+4+1+3)).extractLsb' 9 9 = 0#9 ∧ (0#9 ++ 0#1 ++ tout ++ op ++ scope : BitVec (9+1+4+1+3)).extractLsb' 8 1 = 0#1 ∧ (0#9 ++ 0#1 ++ tout ++ op ++ scope : BitVec (9+1+4+1+3)).extractLsb' 4 4 = tout ∧ (0#9 ++ 0#1 ++ tout ++ op ++ scope : BitVec (9+1+4+1+3)).extractLsb' 3 1 = op ∧ (0#9 ++ 0#1 ++ tout ++ op ++ scope : BitVec (9+1+4+1+3)).extractLsb' 0 3 = scope
  refine ⟨?_, ?_, ?_, ?_, ?_⟩ <;>
    simp (disch := decide) only [extract_append_high, extract_append_low, extract_self, Nat.reduceSub]
theorem immCgrpTeam (tout : BitVec 4) (op : BitVec 1) (scope : BitVec 3) : let i : BitVec 18 := 0#9 ++ 1#1 ++ tout ++ op ++ scope
    i.extractLsb' 9 9 = 0#9 ∧ i.extractLsb' 8 1 = 1#1 ∧ i.extractLsb' 4 4 = tout ∧ i.extractLsb' 3 1 = op ∧ i.extractLsb' 0 3 = scope := by
  change (0#9 ++ 1#1 ++ tout ++ op ++ scope : BitVec (9+1+4+1+3)).extractLsb' 9 9 = 0#9 ∧ (0#9 ++ 1#1 ++ tout ++ op ++ scope : BitVec (9+1+4+1+3)).extractLsb' 8 1 = 1#1 ∧ (0#9 ++ 1#1 ++ tout ++ op ++ scope : BitVec (9+1+4+1+3)).extractLsb' 4 4 = tout ∧ (0#9 ++ 1#1 ++ tout ++ op ++ scope : BitVec (9+1+4+1+3)).extractLsb' 3 1 = op ∧ (0#9 ++ 1#1 ++ tout ++ op ++ scope : BitVec (9+1+4+1+3)).extractLsb' 0 3 = scope
  refine ⟨?_, ?_, ?_, ?_, ?_⟩ <;>
    simp (disch := decide) only [extract_append_high, extract_append_low, extract_self, Nat.reduceSub]
theorem immCbr (k : BitVec 3) (t : BitVec 10) : let i : BitVec 18 := 0#4 ++ 0#1 ++ k ++ t
    i.extractLsb' 14 4 = 0#4 ∧ i.extractLsb' 13 1 = 0#1 ∧ i.extractLsb' 10 3 = k ∧ i.extractLsb' 0 10 = t := by
  change (0#4 ++ 0#1 ++ k ++ t : BitVec (4+1+3+10)).extractLsb' 14 4 = 0#4 ∧ (0#4 ++ 0#1 ++ k ++ t : BitVec (4+1+3+10)).extractLsb' 13 1 = 0#1 ∧ (0#4 ++ 0#1 ++ k ++ t : BitVec (4+1+3+10)).extractLsb' 10 3 = k ∧ (0#4 ++ 0#1 ++ k ++ t : BitVec (4+1+3+10)).extractLsb' 0 10 = t
  refine ⟨?_, ?_, ?_, ?_⟩ <;>
    simp (disch := decide) only [extract_append_high, extract_append_low, extract_self, Nat.reduceSub]
theorem immCbrWait (t : BitVec 10) : let i : BitVec 18 := 0#4 ++ 1#1 ++ 0#3 ++ t
    i.extractLsb' 14 4 = 0#4 ∧ i.extractLsb' 13 1 = 1#1 ∧ i.extractLsb' 10 3 = 0#3 ∧ i.extractLsb' 0 10 = t := by
  change (0#4 ++ 1#1 ++ 0#3 ++ t : BitVec (4+1+3+10)).extractLsb' 14 4 = 0#4 ∧ (0#4 ++ 1#1 ++ 0#3 ++ t : BitVec (4+1+3+10)).extractLsb' 13 1 = 1#1 ∧ (0#4 ++ 1#1 ++ 0#3 ++ t : BitVec (4+1+3+10)).extractLsb' 10 3 = 0#3 ∧ (0#4 ++ 1#1 ++ 0#3 ++ t : BitVec (4+1+3+10)).extractLsb' 0 10 = t
  refine ⟨?_, ?_, ?_, ?_⟩ <;>
    simp (disch := decide) only [extract_append_high, extract_append_low, extract_self, Nat.reduceSub]
theorem immReconf (n : BitVec 10) : let i : BitVec 18 := 0#8 ++ n
    i.extractLsb' 10 8 = 0#8 ∧ i.extractLsb' 0 10 = n := by
  change (0#8 ++ n : BitVec (8+10)).extractLsb' 10 8 = 0#8 ∧ (0#8 ++ n : BitVec (8+10)).extractLsb' 0 10 = n
  refine ⟨?_, ?_⟩ <;>
    simp (disch := decide) only [extract_append_high, extract_append_low, extract_self, Nat.reduceSub]
theorem immSvc (n : BitVec 8) : let i : BitVec 18 := 0#10 ++ n
    i.extractLsb' 8 10 = 0#10 ∧ i.extractLsb' 0 8 = n := by
  change (0#10 ++ n : BitVec (10+8)).extractLsb' 8 10 = 0#10 ∧ (0#10 ++ n : BitVec (10+8)).extractLsb' 0 8 = n
  refine ⟨?_, ?_⟩ <;>
    simp (disch := decide) only [extract_append_high, extract_append_low, extract_self, Nat.reduceSub]
theorem immNtfy (code : BitVec 16) : let i : BitVec 18 := 0#2 ++ code
    i.extractLsb' 16 2 = 0#2 ∧ i.extractLsb' 0 16 = code := by
  change (0#2 ++ code : BitVec (2+16)).extractLsb' 16 2 = 0#2 ∧ (0#2 ++ code : BitVec (2+16)).extractLsb' 0 16 = code
  refine ⟨?_, ?_⟩ <;>
    simp (disch := decide) only [extract_append_high, extract_append_low, extract_self, Nat.reduceSub]
theorem immMmaS (bt : BitVec 1) (dSB : BitVec 4) (dSA : BitVec 4) : let i : BitVec 16 := bt ++ 0#7 ++ dSB ++ dSA
    i.extractLsb' 15 1 = bt ∧ i.extractLsb' 8 7 = 0#7 ∧ i.extractLsb' 4 4 = dSB ∧ i.extractLsb' 0 4 = dSA := by
  change (bt ++ 0#7 ++ dSB ++ dSA : BitVec (1+7+4+4)).extractLsb' 15 1 = bt ∧ (bt ++ 0#7 ++ dSB ++ dSA : BitVec (1+7+4+4)).extractLsb' 8 7 = 0#7 ∧ (bt ++ 0#7 ++ dSB ++ dSA : BitVec (1+7+4+4)).extractLsb' 4 4 = dSB ∧ (bt ++ 0#7 ++ dSB ++ dSA : BitVec (1+7+4+4)).extractLsb' 0 4 = dSA
  refine ⟨?_, ?_, ?_, ?_⟩ <;>
    simp (disch := decide) only [extract_append_high, extract_append_low, extract_self, Nat.reduceSub]
theorem immMmaV (bt : BitVec 1) (dSB : BitVec 4) (dSA : BitVec 4) : let i : BitVec 16 := bt ++ 0#7 ++ dSB ++ dSA
    i.extractLsb' 15 1 = bt ∧ i.extractLsb' 8 7 = 0#7 ∧ i.extractLsb' 4 4 = dSB ∧ i.extractLsb' 0 4 = dSA := by
  change (bt ++ 0#7 ++ dSB ++ dSA : BitVec (1+7+4+4)).extractLsb' 15 1 = bt ∧ (bt ++ 0#7 ++ dSB ++ dSA : BitVec (1+7+4+4)).extractLsb' 8 7 = 0#7 ∧ (bt ++ 0#7 ++ dSB ++ dSA : BitVec (1+7+4+4)).extractLsb' 4 4 = dSB ∧ (bt ++ 0#7 ++ dSB ++ dSA : BitVec (1+7+4+4)).extractLsb' 0 4 = dSA
  refine ⟨?_, ?_, ?_, ?_⟩ <;>
    simp (disch := decide) only [extract_append_high, extract_append_low, extract_self, Nat.reduceSub]
theorem immMmaSg (bt : BitVec 1) (r : BitVec 5) (g : BitVec 5) : let i : BitVec 16 := bt ++ 0#5 ++ r ++ g
    i.extractLsb' 15 1 = bt ∧ i.extractLsb' 10 5 = 0#5 ∧ i.extractLsb' 5 5 = r ∧ i.extractLsb' 0 5 = g := by
  change (bt ++ 0#5 ++ r ++ g : BitVec (1+5+5+5)).extractLsb' 15 1 = bt ∧ (bt ++ 0#5 ++ r ++ g : BitVec (1+5+5+5)).extractLsb' 10 5 = 0#5 ∧ (bt ++ 0#5 ++ r ++ g : BitVec (1+5+5+5)).extractLsb' 5 5 = r ∧ (bt ++ 0#5 ++ r ++ g : BitVec (1+5+5+5)).extractLsb' 0 5 = g
  refine ⟨?_, ?_, ?_, ?_⟩ <;>
    simp (disch := decide) only [extract_append_high, extract_append_low, extract_self, Nat.reduceSub]
theorem immMmaVg (bt : BitVec 1) (r : BitVec 5) (g : BitVec 5) : let i : BitVec 16 := bt ++ 0#5 ++ r ++ g
    i.extractLsb' 15 1 = bt ∧ i.extractLsb' 10 5 = 0#5 ∧ i.extractLsb' 5 5 = r ∧ i.extractLsb' 0 5 = g := by
  change (bt ++ 0#5 ++ r ++ g : BitVec (1+5+5+5)).extractLsb' 15 1 = bt ∧ (bt ++ 0#5 ++ r ++ g : BitVec (1+5+5+5)).extractLsb' 10 5 = 0#5 ∧ (bt ++ 0#5 ++ r ++ g : BitVec (1+5+5+5)).extractLsb' 5 5 = r ∧ (bt ++ 0#5 ++ r ++ g : BitVec (1+5+5+5)).extractLsb' 0 5 = g
  refine ⟨?_, ?_, ?_, ?_⟩ <;>
    simp (disch := decide) only [extract_append_high, extract_append_low, extract_self, Nat.reduceSub]
theorem immMmaQ (bt : BitVec 1) (x : BitVec 7) : let i : BitVec 16 := bt ++ 0#8 ++ x
    i.extractLsb' 15 1 = bt ∧ i.extractLsb' 7 8 = 0#8 ∧ i.extractLsb' 0 7 = x := by
  change (bt ++ 0#8 ++ x : BitVec (1+8+7)).extractLsb' 15 1 = bt ∧ (bt ++ 0#8 ++ x : BitVec (1+8+7)).extractLsb' 7 8 = 0#8 ∧ (bt ++ 0#8 ++ x : BitVec (1+8+7)).extractLsb' 0 7 = x
  refine ⟨?_, ?_, ?_⟩ <;>
    simp (disch := decide) only [extract_append_high, extract_append_low, extract_self, Nat.reduceSub]
theorem immZalloc (cols1 : BitVec 8) (rows1 : BitVec 7) : let i : BitVec 16 := 0#1 ++ cols1 ++ rows1
    i.extractLsb' 15 1 = 0#1 ∧ i.extractLsb' 7 8 = cols1 ∧ i.extractLsb' 0 7 = rows1 := by
  change (0#1 ++ cols1 ++ rows1 : BitVec (1+8+7)).extractLsb' 15 1 = 0#1 ∧ (0#1 ++ cols1 ++ rows1 : BitVec (1+8+7)).extractLsb' 7 8 = cols1 ∧ (0#1 ++ cols1 ++ rows1 : BitVec (1+8+7)).extractLsb' 0 7 = rows1
  refine ⟨?_, ?_, ?_⟩ <;>
    simp (disch := decide) only [extract_append_high, extract_append_low, extract_self, Nat.reduceSub]
theorem immZzero (both : BitVec 1) : let i : BitVec 16 := 0#15 ++ both
    i.extractLsb' 1 15 = 0#15 ∧ i.extractLsb' 0 1 = both := by
  change (0#15 ++ both : BitVec (15+1)).extractLsb' 1 15 = 0#15 ∧ (0#15 ++ both : BitVec (15+1)).extractLsb' 0 1 = both
  refine ⟨?_, ?_⟩ <;>
    simp (disch := decide) only [extract_append_high, extract_append_low, extract_self, Nat.reduceSub]
theorem immChbeg (mask : BitVec 2) (sl : BitVec 2) (x : BitVec 7) : let i : BitVec 16 := 0#5 ++ mask ++ sl ++ x
    i.extractLsb' 11 5 = 0#5 ∧ i.extractLsb' 9 2 = mask ∧ i.extractLsb' 7 2 = sl ∧ i.extractLsb' 0 7 = x := by
  change (0#5 ++ mask ++ sl ++ x : BitVec (5+2+2+7)).extractLsb' 11 5 = 0#5 ∧ (0#5 ++ mask ++ sl ++ x : BitVec (5+2+2+7)).extractLsb' 9 2 = mask ∧ (0#5 ++ mask ++ sl ++ x : BitVec (5+2+2+7)).extractLsb' 7 2 = sl ∧ (0#5 ++ mask ++ sl ++ x : BitVec (5+2+2+7)).extractLsb' 0 7 = x
  refine ⟨?_, ?_, ?_, ?_⟩ <;>
    simp (disch := decide) only [extract_append_high, extract_append_low, extract_self, Nat.reduceSub]
theorem immChblk (dM : BitVec 4) (sl : BitVec 2) : let i : BitVec 16 := 0#10 ++ dM ++ sl
    i.extractLsb' 6 10 = 0#10 ∧ i.extractLsb' 2 4 = dM ∧ i.extractLsb' 0 2 = sl := by
  change (0#10 ++ dM ++ sl : BitVec (10+4+2)).extractLsb' 6 10 = 0#10 ∧ (0#10 ++ dM ++ sl : BitVec (10+4+2)).extractLsb' 2 4 = dM ∧ (0#10 ++ dM ++ sl : BitVec (10+4+2)).extractLsb' 0 2 = sl
  refine ⟨?_, ?_, ?_⟩ <;>
    simp (disch := decide) only [extract_append_high, extract_append_low, extract_self, Nat.reduceSub]
theorem immChend (sl : BitVec 2) : let i : BitVec 16 := 0#14 ++ sl
    i.extractLsb' 2 14 = 0#14 ∧ i.extractLsb' 0 2 = sl := by
  change (0#14 ++ sl : BitVec (14+2)).extractLsb' 2 14 = 0#14 ∧ (0#14 ++ sl : BitVec (14+2)).extractLsb' 0 2 = sl
  refine ⟨?_, ?_⟩ <;>
    simp (disch := decide) only [extract_append_high, extract_append_low, extract_self, Nat.reduceSub]
theorem immChfin (sl : BitVec 2) (n : BitVec 10) : let i : BitVec 16 := 0#4 ++ sl ++ n
    i.extractLsb' 12 4 = 0#4 ∧ i.extractLsb' 10 2 = sl ∧ i.extractLsb' 0 10 = n := by
  change (0#4 ++ sl ++ n : BitVec (4+2+10)).extractLsb' 12 4 = 0#4 ∧ (0#4 ++ sl ++ n : BitVec (4+2+10)).extractLsb' 10 2 = sl ∧ (0#4 ++ sl ++ n : BitVec (4+2+10)).extractLsb' 0 10 = n
  refine ⟨?_, ?_, ?_⟩ <;>
    simp (disch := decide) only [extract_append_high, extract_append_low, extract_self, Nat.reduceSub]
theorem immChmrg (sB : BitVec 2) (sA : BitVec 2) : let i : BitVec 16 := 0#12 ++ sB ++ sA
    i.extractLsb' 4 12 = 0#12 ∧ i.extractLsb' 2 2 = sB ∧ i.extractLsb' 0 2 = sA := by
  change (0#12 ++ sB ++ sA : BitVec (12+2+2)).extractLsb' 4 12 = 0#12 ∧ (0#12 ++ sB ++ sA : BitVec (12+2+2)).extractLsb' 2 2 = sB ∧ (0#12 ++ sB ++ sA : BitVec (12+2+2)).extractLsb' 0 2 = sA
  refine ⟨?_, ?_, ?_⟩ <;>
    simp (disch := decide) only [extract_append_high, extract_append_low, extract_self, Nat.reduceSub]
theorem immChst (sl : BitVec 2) (x : BitVec 7) : let i : BitVec 16 := 0#7 ++ sl ++ x
    i.extractLsb' 9 7 = 0#7 ∧ i.extractLsb' 7 2 = sl ∧ i.extractLsb' 0 7 = x := by
  change (0#7 ++ sl ++ x : BitVec (7+2+7)).extractLsb' 9 7 = 0#7 ∧ (0#7 ++ sl ++ x : BitVec (7+2+7)).extractLsb' 7 2 = sl ∧ (0#7 ++ sl ++ x : BitVec (7+2+7)).extractLsb' 0 7 = x
  refine ⟨?_, ?_, ?_⟩ <;>
    simp (disch := decide) only [extract_append_high, extract_append_low, extract_self, Nat.reduceSub]
theorem immChld (sl : BitVec 2) (x : BitVec 7) : let i : BitVec 16 := 0#7 ++ sl ++ x
    i.extractLsb' 9 7 = 0#7 ∧ i.extractLsb' 7 2 = sl ∧ i.extractLsb' 0 7 = x := by
  change (0#7 ++ sl ++ x : BitVec (7+2+7)).extractLsb' 9 7 = 0#7 ∧ (0#7 ++ sl ++ x : BitVec (7+2+7)).extractLsb' 7 2 = sl ∧ (0#7 ++ sl ++ x : BitVec (7+2+7)).extractLsb' 0 7 = x
  refine ⟨?_, ?_, ?_⟩ <;>
    simp (disch := decide) only [extract_append_high, extract_append_low, extract_self, Nat.reduceSub]
theorem immChscl (sl : BitVec 2) (x : BitVec 7) : let i : BitVec 16 := 0#7 ++ sl ++ x
    i.extractLsb' 9 7 = 0#7 ∧ i.extractLsb' 7 2 = sl ∧ i.extractLsb' 0 7 = x := by
  change (0#7 ++ sl ++ x : BitVec (7+2+7)).extractLsb' 9 7 = 0#7 ∧ (0#7 ++ sl ++ x : BitVec (7+2+7)).extractLsb' 7 2 = sl ∧ (0#7 ++ sl ++ x : BitVec (7+2+7)).extractLsb' 0 7 = x
  refine ⟨?_, ?_, ?_⟩ <;>
    simp (disch := decide) only [extract_append_high, extract_append_low, extract_self, Nat.reduceSub]
theorem add (d : Code7) (x : Code7) (y : Code7) : Statement (.add d x y) := by
  intro w h hw
  cases h
  exact decode_packAB _ _ rfl hw
theorem sub (d : Code7) (x : Code7) (y : Code7) : Statement (.sub d x y) := by
  intro w h hw
  cases h
  exact decode_packAB _ _ rfl hw
theorem addw (d : Code7) (x : Code7) (y : Code7) : Statement (.addw d x y) := by
  intro w h hw
  cases h
  exact decode_packAB _ _ rfl hw
theorem subw (d : Code7) (x : Code7) (y : Code7) : Statement (.subw d x y) := by
  intro w h hw
  cases h
  exact decode_packAB _ _ rfl hw
theorem mul (d : Code7) (x : Code7) (y : Code7) : Statement (.mul d x y) := by
  intro w h hw
  cases h
  exact decode_packAB _ _ rfl hw
theorem mulh (d : Code7) (x : Code7) (y : Code7) : Statement (.mulh d x y) := by
  intro w h hw
  cases h
  exact decode_packAB _ _ rfl hw
theorem mulhu (d : Code7) (x : Code7) (y : Code7) : Statement (.mulhu d x y) := by
  intro w h hw
  cases h
  exact decode_packAB _ _ rfl hw
theorem mulw (d : Code7) (x : Code7) (y : Code7) : Statement (.mulw d x y) := by
  intro w h hw
  cases h
  exact decode_packAB _ _ rfl hw
theorem div (d : Code7) (x : Code7) (y : Code7) : Statement (.div d x y) := by
  intro w h hw
  cases h
  exact decode_packAB _ _ rfl hw
theorem divu (d : Code7) (x : Code7) (y : Code7) : Statement (.divu d x y) := by
  intro w h hw
  cases h
  exact decode_packAB _ _ rfl hw
theorem rem (d : Code7) (x : Code7) (y : Code7) : Statement (.rem d x y) := by
  intro w h hw
  cases h
  exact decode_packAB _ _ rfl hw
theorem remu (d : Code7) (x : Code7) (y : Code7) : Statement (.remu d x y) := by
  intro w h hw
  cases h
  exact decode_packAB _ _ rfl hw
theorem and (d : Code7) (x : Code7) (y : Code7) : Statement (.and d x y) := by
  intro w h hw
  cases h
  exact decode_packAB _ _ rfl hw
theorem or (d : Code7) (x : Code7) (y : Code7) : Statement (.or d x y) := by
  intro w h hw
  cases h
  exact decode_packAB _ _ rfl hw
theorem xor (d : Code7) (x : Code7) (y : Code7) : Statement (.xor d x y) := by
  intro w h hw
  cases h
  exact decode_packAB _ _ rfl hw
theorem andn (d : Code7) (x : Code7) (y : Code7) : Statement (.andn d x y) := by
  intro w h hw
  cases h
  exact decode_packAB _ _ rfl hw
theorem shl (d : Code7) (x : Code7) (y : Code7) : Statement (.shl d x y) := by
  intro w h hw
  cases h
  exact decode_packAB _ _ rfl hw
theorem shr (d : Code7) (x : Code7) (y : Code7) : Statement (.shr d x y) := by
  intro w h hw
  cases h
  exact decode_packAB _ _ rfl hw
theorem sar (d : Code7) (x : Code7) (y : Code7) : Statement (.sar d x y) := by
  intro w h hw
  cases h
  exact decode_packAB _ _ rfl hw
theorem rot (d : Code7) (x : Code7) (y : Code7) : Statement (.rot d x y) := by
  intro w h hw
  cases h
  exact decode_packAB _ _ rfl hw
theorem min (d : Code7) (x : Code7) (y : Code7) : Statement (.min d x y) := by
  intro w h hw
  cases h
  exact decode_packAB _ _ rfl hw
theorem max (d : Code7) (x : Code7) (y : Code7) : Statement (.max d x y) := by
  intro w h hw
  cases h
  exact decode_packAB _ _ rfl hw
theorem minu (d : Code7) (x : Code7) (y : Code7) : Statement (.minu d x y) := by
  intro w h hw
  cases h
  exact decode_packAB _ _ rfl hw
theorem maxu (d : Code7) (x : Code7) (y : Code7) : Statement (.maxu d x y) := by
  intro w h hw
  cases h
  exact decode_packAB _ _ rfl hw
theorem cmpEq (d : Code7) (x : Code7) (y : Code7) : Statement (.cmpEq d x y) := by
  intro w h hw
  cases h
  exact decode_packAB _ _ rfl hw
theorem cmpNe (d : Code7) (x : Code7) (y : Code7) : Statement (.cmpNe d x y) := by
  intro w h hw
  cases h
  exact decode_packAB _ _ rfl hw
theorem cmpLt (d : Code7) (x : Code7) (y : Code7) : Statement (.cmpLt d x y) := by
  intro w h hw
  cases h
  exact decode_packAB _ _ rfl hw
theorem cmpGe (d : Code7) (x : Code7) (y : Code7) : Statement (.cmpGe d x y) := by
  intro w h hw
  cases h
  exact decode_packAB _ _ rfl hw
theorem cmpLtu (d : Code7) (x : Code7) (y : Code7) : Statement (.cmpLtu d x y) := by
  intro w h hw
  cases h
  exact decode_packAB _ _ rfl hw
theorem cmpGeu (d : Code7) (x : Code7) (y : Code7) : Statement (.cmpGeu d x y) := by
  intro w h hw
  cases h
  exact decode_packAB _ _ rfl hw
theorem addi (d : Code7) (x : Code7) (imm : BitVec 7) : Statement (.addi d x imm) := by
  intro w h hw
  cases h
  exact decode_packAB _ _ rfl hw
theorem andi (d : Code7) (x : Code7) (imm : BitVec 7) : Statement (.andi d x imm) := by
  intro w h hw
  cases h
  exact decode_packAB _ _ rfl hw
theorem shli (d : Code7) (x : Code7) (imm : BitVec 7) : Statement (.shli d x imm) := by
  intro w h hw
  cases h
  exact decode_packAB _ _ rfl hw
theorem shri (d : Code7) (x : Code7) (imm : BitVec 7) : Statement (.shri d x imm) := by
  intro w h hw
  cases h
  exact decode_packAB _ _ rfl hw
theorem sari (d : Code7) (x : Code7) (imm : BitVec 7) : Statement (.sari d x imm) := by
  intro w h hw
  cases h
  exact decode_packAB _ _ rfl hw
theorem ldi (d : Code7) (hi : BitVec 7) (lo : BitVec 7) (n : BitVec 4) : Statement (.ldi d hi lo n) := by
  intro w h hw
  cases h
  exact decode_packAB _ _ rfl hw
theorem lea (d : Code7) (x : Code7) (y : Code7) (n : BitVec 4) : Statement (.lea d x y n) := by
  intro w h hw
  cases h
  exact decode_packAB _ _ rfl hw
theorem sextB (d : Code7) (x : Code7) : Statement (.sextB d x) := by
  intro w h hw
  cases h
  exact decode_packAB _ _ rfl hw
theorem sextH (d : Code7) (x : Code7) : Statement (.sextH d x) := by
  intro w h hw
  cases h
  exact decode_packAB _ _ rfl hw
theorem sextW (d : Code7) (x : Code7) : Statement (.sextW d x) := by
  intro w h hw
  cases h
  exact decode_packAB _ _ rfl hw
theorem zextB (d : Code7) (x : Code7) : Statement (.zextB d x) := by
  intro w h hw
  cases h
  exact decode_packAB _ _ rfl hw
theorem zextH (d : Code7) (x : Code7) : Statement (.zextH d x) := by
  intro w h hw
  cases h
  exact decode_packAB _ _ rfl hw
theorem zextW (d : Code7) (x : Code7) : Statement (.zextW d x) := by
  intro w h hw
  cases h
  exact decode_packAB _ _ rfl hw
theorem clz (d : Code7) (x : Code7) : Statement (.clz d x) := by
  intro w h hw
  cases h
  exact decode_packAB _ _ rfl hw
theorem ctz (d : Code7) (x : Code7) : Statement (.ctz d x) := by
  intro w h hw
  cases h
  exact decode_packAB _ _ rfl hw
theorem popc (d : Code7) (x : Code7) : Statement (.popc d x) := by
  intro w h hw
  cases h
  exact decode_packAB _ _ rfl hw
theorem fadd (d : Code7) (x : Code7) (y : Code7) : Statement (.fadd d x y) := by
  intro w h hw
  cases h
  exact decode_packAB _ _ rfl hw
theorem fsub (d : Code7) (x : Code7) (y : Code7) : Statement (.fsub d x y) := by
  intro w h hw
  cases h
  exact decode_packAB _ _ rfl hw
theorem fmul (d : Code7) (x : Code7) (y : Code7) : Statement (.fmul d x y) := by
  intro w h hw
  cases h
  exact decode_packAB _ _ rfl hw
theorem fmin (d : Code7) (x : Code7) (y : Code7) : Statement (.fmin d x y) := by
  intro w h hw
  cases h
  exact decode_packAB _ _ rfl hw
theorem fmax (d : Code7) (x : Code7) (y : Code7) : Statement (.fmax d x y) := by
  intro w h hw
  cases h
  exact decode_packAB _ _ rfl hw
theorem fcmpEq (d : Code7) (x : Code7) (y : Code7) : Statement (.fcmpEq d x y) := by
  intro w h hw
  cases h
  exact decode_packAB _ _ rfl hw
theorem fcmpLt (d : Code7) (x : Code7) (y : Code7) : Statement (.fcmpLt d x y) := by
  intro w h hw
  cases h
  exact decode_packAB _ _ rfl hw
theorem fcmpLe (d : Code7) (x : Code7) (y : Code7) : Statement (.fcmpLe d x y) := by
  intro w h hw
  cases h
  exact decode_packAB _ _ rfl hw
theorem fcmpUn (d : Code7) (x : Code7) (y : Code7) : Statement (.fcmpUn d x y) := by
  intro w h hw
  cases h
  exact decode_packAB _ _ rfl hw
theorem fcvtF32I32 (d : Code7) (x : Code7) : Statement (.fcvtF32I32 d x) := by
  intro w h hw
  cases h
  exact decode_packAB _ _ rfl hw
theorem fcvtI32F32 (d : Code7) (x : Code7) : Statement (.fcvtI32F32 d x) := by
  intro w h hw
  cases h
  exact decode_packAB _ _ rfl hw
theorem fcvtI32F32Rz (d : Code7) (x : Code7) : Statement (.fcvtI32F32Rz d x) := by
  intro w h hw
  cases h
  exact decode_packAB _ _ rfl hw
theorem fcvtBf16F32 (d : Code7) (x : Code7) : Statement (.fcvtBf16F32 d x) := by
  intro w h hw
  cases h
  exact decode_packAB _ _ rfl hw
theorem fcvtF32Bf16 (d : Code7) (x : Code7) : Statement (.fcvtF32Bf16 d x) := by
  intro w h hw
  cases h
  exact decode_packAB _ _ rfl hw
theorem fcvtF16F32 (d : Code7) (x : Code7) : Statement (.fcvtF16F32 d x) := by
  intro w h hw
  cases h
  exact decode_packAB _ _ rfl hw
theorem fcvtF32F16 (d : Code7) (x : Code7) : Statement (.fcvtF32F16 d x) := by
  intro w h hw
  cases h
  exact decode_packAB _ _ rfl hw
theorem fcvtF32I64 (d : Code7) (x : Code7) : Statement (.fcvtF32I64 d x) := by
  intro w h hw
  cases h
  exact decode_packAB _ _ rfl hw
theorem fdiv (d : Code7) (x : Code7) (y : Code7) : Statement (.fdiv d x y) := by
  intro w h hw
  cases h
  exact decode_packAB _ _ rfl hw
theorem fsqrt (d : Code7) (x : Code7) : Statement (.fsqrt d x) := by
  intro w h hw
  cases h
  exact decode_packAB _ _ rfl hw
theorem sett (k : BitVec 4) (x : Code7) : Statement (.sett k x) := by
  intro w h hw
  cases h
  exact decode_packAB _ _ rfl hw
theorem rdt (d : Code7) (k : BitVec 4) : Statement (.rdt d k) := by
  intro w h hw
  cases h
  exact decode_packAB _ _ rfl hw
theorem rdsys (d : Code7) (n : BitVec 7) : Statement (.rdsys d n) := by
  intro w h hw
  cases h
  exact decode_packAB _ _ rfl hw
theorem wrsys (n : BitVec 7) (x : Code7) : Statement (.wrsys n x) := by
  intro w h hw
  cases h
  exact decode_packAB _ _ rfl hw
theorem mov (d : Code7) (x : Code7) : Statement (.mov d x) := by
  intro w h hw
  cases h
  exact decode_packAB _ _ rfl hw
theorem ldB (d : Code7) (base : Code7) (imm : BitVec 18) : Statement (.ldB d base imm) := by
  intro w h hw
  cases h
  refine decode_packLA _ _ ?_ hw ?_
  · rfl
  · simp
theorem ldBu (d : Code7) (base : Code7) (imm : BitVec 18) : Statement (.ldBu d base imm) := by
  intro w h hw
  cases h
  refine decode_packLA _ _ ?_ hw ?_
  · rfl
  · simp
theorem ldH (d : Code7) (base : Code7) (imm : BitVec 18) : Statement (.ldH d base imm) := by
  intro w h hw
  cases h
  refine decode_packLA _ _ ?_ hw ?_
  · rfl
  · simp
theorem ldHu (d : Code7) (base : Code7) (imm : BitVec 18) : Statement (.ldHu d base imm) := by
  intro w h hw
  cases h
  refine decode_packLA _ _ ?_ hw ?_
  · rfl
  · simp
theorem ldW (d : Code7) (base : Code7) (imm : BitVec 18) : Statement (.ldW d base imm) := by
  intro w h hw
  cases h
  refine decode_packLA _ _ ?_ hw ?_
  · rfl
  · simp
theorem ldWu (d : Code7) (base : Code7) (imm : BitVec 18) : Statement (.ldWu d base imm) := by
  intro w h hw
  cases h
  refine decode_packLA _ _ ?_ hw ?_
  · rfl
  · simp
theorem ldD (d : Code7) (base : Code7) (imm : BitVec 18) : Statement (.ldD d base imm) := by
  intro w h hw
  cases h
  refine decode_packLA _ _ ?_ hw ?_
  · rfl
  · simp
theorem stB (data : Code7) (base : Code7) (imm : BitVec 18) : Statement (.stB data base imm) := by
  intro w h hw
  cases h
  refine decode_packLA _ _ ?_ hw ?_
  · rfl
  · simp
theorem stH (data : Code7) (base : Code7) (imm : BitVec 18) : Statement (.stH data base imm) := by
  intro w h hw
  cases h
  refine decode_packLA _ _ ?_ hw ?_
  · rfl
  · simp
theorem stW (data : Code7) (base : Code7) (imm : BitVec 18) : Statement (.stW data base imm) := by
  intro w h hw
  cases h
  refine decode_packLA _ _ ?_ hw ?_
  · rfl
  · simp
theorem stD (data : Code7) (base : Code7) (imm : BitVec 18) : Statement (.stD data base imm) := by
  intro w h hw
  cases h
  refine decode_packLA _ _ ?_ hw ?_
  · rfl
  · simp
theorem ldmr (sl : Spec) (base : Code7) (imm : BitVec 13) : Statement (.ldmr sl base imm) := by
  intro w h hw
  cases h
  refine decode_packLM _ _ ?_ hw ?_
  · rfl
  · simp
theorem stmr (sl : Spec) (base : Code7) (imm : BitVec 13) : Statement (.stmr sl base imm) := by
  intro w h hw
  cases h
  refine decode_packLM _ _ ?_ hw ?_
  · rfl
  · simp
theorem xlat (h : BitVec 4) (off : Code7) (imm : BitVec 14) : Statement (.xlat h off imm) := by
  intro w h hw
  cases h
  refine decode_packLH _ _ ?_ hw ?_
  · rfl
  · simp
theorem hrel (h : BitVec 4) : Statement (.hrel h) := by
  intro w h hw
  cases h
  refine decode_packLH _ _ ?_ hw ?_
  · rfl
  · simp
theorem hinfo (d : Code7) (h : BitVec 4) : Statement (.hinfo d h) := by
  intro w h hw
  cases h
  refine decode_packLH _ _ ?_ hw ?_
  · rfl
  · simp
theorem ldhW (d : Code7) (h : BitVec 4) (off : Code7) (imm : BitVec 14) : Statement (.ldhW d h off imm) := by
  intro w h hw
  cases h
  refine decode_packLH _ _ ?_ hw ?_
  · rfl
  · simp
theorem ldhD (d : Code7) (h : BitVec 4) (off : Code7) (imm : BitVec 14) : Statement (.ldhD d h off imm) := by
  intro w h hw
  cases h
  refine decode_packLH _ _ ?_ hw ?_
  · rfl
  · simp
theorem sthW (data : Code7) (h : BitVec 4) (off : Code7) (imm : BitVec 14) : Statement (.sthW data h off imm) := by
  intro w h hw
  cases h
  refine decode_packLH _ _ ?_ hw ?_
  · rfl
  · simp
theorem sthD (data : Code7) (h : BitVec 4) (off : Code7) (imm : BitVec 14) : Statement (.sthD data h off imm) := by
  intro w h hw
  cases h
  refine decode_packLH _ _ ?_ hw ?_
  · rfl
  · simp
theorem amoSwap (d : Code7) (h : BitVec 4) (off : Code7) (sz : BitVec 1) (scope : BitVec 3) : Statement (.amoSwap d h off sz scope) := by
  intro w h hw
  cases h
  refine decode_packLH _ _ ?_ hw ?_
  · refine (if_pos ?_).trans ?_ <;> first | (simp [amoImm sz scope 0#4]; done) | (simp only [amoImm sz scope 0#4]; decide) | simp only [amoImm sz scope 0#4]
  · simp
theorem amoAdd (d : Code7) (h : BitVec 4) (off : Code7) (sz : BitVec 1) (scope : BitVec 3) : Statement (.amoAdd d h off sz scope) := by
  intro w h hw
  cases h
  refine decode_packLH _ _ ?_ hw ?_
  · refine (if_neg ?_).trans ((if_pos ?_).trans ?_) <;> first | (simp [amoImm sz scope 1#4]; done) | (simp only [amoImm sz scope 1#4]; decide) | simp only [amoImm sz scope 1#4]
  · simp
theorem amoAnd (d : Code7) (h : BitVec 4) (off : Code7) (sz : BitVec 1) (scope : BitVec 3) : Statement (.amoAnd d h off sz scope) := by
  intro w h hw
  cases h
  refine decode_packLH _ _ ?_ hw ?_
  · refine (if_neg ?_).trans ((if_neg ?_).trans ((if_pos ?_).trans ?_)) <;> first | (simp [amoImm sz scope 2#4]; done) | (simp only [amoImm sz scope 2#4]; decide) | simp only [amoImm sz scope 2#4]
  · simp
theorem amoOr (d : Code7) (h : BitVec 4) (off : Code7) (sz : BitVec 1) (scope : BitVec 3) : Statement (.amoOr d h off sz scope) := by
  intro w h hw
  cases h
  refine decode_packLH _ _ ?_ hw ?_
  · refine (if_neg ?_).trans ((if_neg ?_).trans ((if_neg ?_).trans ((if_pos ?_).trans ?_))) <;> first | (simp [amoImm sz scope 3#4]; done) | (simp only [amoImm sz scope 3#4]; decide) | simp only [amoImm sz scope 3#4]
  · simp
theorem amoXor (d : Code7) (h : BitVec 4) (off : Code7) (sz : BitVec 1) (scope : BitVec 3) : Statement (.amoXor d h off sz scope) := by
  intro w h hw
  cases h
  refine decode_packLH _ _ ?_ hw ?_
  · refine (if_neg ?_).trans ((if_neg ?_).trans ((if_neg ?_).trans ((if_neg ?_).trans ((if_pos ?_).trans ?_)))) <;> first | (simp [amoImm sz scope 4#4]; done) | (simp only [amoImm sz scope 4#4]; decide) | simp only [amoImm sz scope 4#4]
  · simp
theorem amoMin (d : Code7) (h : BitVec 4) (off : Code7) (sz : BitVec 1) (scope : BitVec 3) : Statement (.amoMin d h off sz scope) := by
  intro w h hw
  cases h
  refine decode_packLH _ _ ?_ hw ?_
  · refine (if_neg ?_).trans ((if_neg ?_).trans ((if_neg ?_).trans ((if_neg ?_).trans ((if_neg ?_).trans ((if_pos ?_).trans ?_))))) <;> first | (simp [amoImm sz scope 5#4]; done) | (simp only [amoImm sz scope 5#4]; decide) | simp only [amoImm sz scope 5#4]
  · simp
theorem amoMax (d : Code7) (h : BitVec 4) (off : Code7) (sz : BitVec 1) (scope : BitVec 3) : Statement (.amoMax d h off sz scope) := by
  intro w h hw
  cases h
  refine decode_packLH _ _ ?_ hw ?_
  · refine (if_neg ?_).trans ((if_neg ?_).trans ((if_neg ?_).trans ((if_neg ?_).trans ((if_neg ?_).trans ((if_neg ?_).trans ((if_pos ?_).trans ?_)))))) <;> first | (simp [amoImm sz scope 6#4]; done) | (simp only [amoImm sz scope 6#4]; decide) | simp only [amoImm sz scope 6#4]
  · simp
theorem amoMinu (d : Code7) (h : BitVec 4) (off : Code7) (sz : BitVec 1) (scope : BitVec 3) : Statement (.amoMinu d h off sz scope) := by
  intro w h hw
  cases h
  refine decode_packLH _ _ ?_ hw ?_
  · refine (if_neg ?_).trans ((if_neg ?_).trans ((if_neg ?_).trans ((if_neg ?_).trans ((if_neg ?_).trans ((if_neg ?_).trans ((if_neg ?_).trans ((if_pos ?_).trans ?_))))))) <;> first | (simp [amoImm sz scope 7#4]; done) | (simp only [amoImm sz scope 7#4]; decide) | simp only [amoImm sz scope 7#4]
  · simp
theorem amoMaxu (d : Code7) (h : BitVec 4) (off : Code7) (sz : BitVec 1) (scope : BitVec 3) : Statement (.amoMaxu d h off sz scope) := by
  intro w h hw
  cases h
  refine decode_packLH _ _ ?_ hw ?_
  · refine (if_neg ?_).trans ((if_neg ?_).trans ((if_neg ?_).trans ((if_neg ?_).trans ((if_neg ?_).trans ((if_neg ?_).trans ((if_neg ?_).trans ((if_neg ?_).trans ((if_pos ?_).trans ?_)))))))) <;> first | (simp [amoImm sz scope 8#4]; done) | (simp only [amoImm sz scope 8#4]; decide) | simp only [amoImm sz scope 8#4]
  · simp
theorem amoFadd (d : Code7) (h : BitVec 4) (off : Code7) (sz : BitVec 1) (scope : BitVec 3) : Statement (.amoFadd d h off sz scope) := by
  intro w h hw
  cases h
  refine decode_packLH _ _ ?_ hw ?_
  · refine (if_neg ?_).trans ((if_neg ?_).trans ((if_neg ?_).trans ((if_neg ?_).trans ((if_neg ?_).trans ((if_neg ?_).trans ((if_neg ?_).trans ((if_neg ?_).trans ((if_neg ?_).trans ((if_pos ?_).trans ?_))))))))) <;> first | (simp [amoImm sz scope 9#4]; done) | (simp only [amoImm sz scope 9#4]; decide) | simp only [amoImm sz scope 9#4]
  · simp
theorem amoc (d : Code7) (h : BitVec 4) (off : Code7) (sz : BitVec 1) (scope : BitVec 3) : Statement (.amoc d h off sz scope) := by
  intro w h hw
  cases h
  refine decode_packLH _ _ ?_ hw ?_
  · refine (if_pos ?_).trans ?_ <;> first | (simp [amoImm sz scope 0#4]; done) | (simp only [amoImm sz scope 0#4]; decide) | simp only [amoImm sz scope 0#4]
  · simp
theorem pref (h : BitVec 4) (off : Code7) (imm : BitVec 14) : Statement (.pref h off imm) := by
  intro w h hw
  cases h
  refine decode_packLH _ _ ?_ hw ?_
  · rfl
  · simp
theorem vadd (t : TypeCode) (d : Spec) (a : Spec) (b : Spec) (rel : BitVec 1) : Statement (.vadd t d a b rel) := by
  intro w h hw
  cases h
  exact decode_packV _ _ rfl hw
theorem vsub (t : TypeCode) (d : Spec) (a : Spec) (b : Spec) (rel : BitVec 1) : Statement (.vsub t d a b rel) := by
  intro w h hw
  cases h
  exact decode_packV _ _ rfl hw
theorem vmul (t : TypeCode) (d : Spec) (a : Spec) (b : Spec) (rel : BitVec 1) : Statement (.vmul t d a b rel) := by
  intro w h hw
  cases h
  exact decode_packV _ _ rfl hw
theorem vfma (t : TypeCode) (d : Spec) (a : Spec) (b : Spec) (rel : BitVec 1) : Statement (.vfma t d a b rel) := by
  intro w h hw
  cases h
  exact decode_packV _ _ rfl hw
theorem vfms (t : TypeCode) (d : Spec) (a : Spec) (b : Spec) (rel : BitVec 1) : Statement (.vfms t d a b rel) := by
  intro w h hw
  cases h
  exact decode_packV _ _ rfl hw
theorem vmin (t : TypeCode) (d : Spec) (a : Spec) (b : Spec) (rel : BitVec 1) : Statement (.vmin t d a b rel) := by
  intro w h hw
  cases h
  exact decode_packV _ _ rfl hw
theorem vmax (t : TypeCode) (d : Spec) (a : Spec) (b : Spec) (rel : BitVec 1) : Statement (.vmax t d a b rel) := by
  intro w h hw
  cases h
  exact decode_packV _ _ rfl hw
theorem vabs (t : TypeCode) (d : Spec) (a : Spec) (rel : BitVec 1) : Statement (.vabs t d a rel) := by
  intro w h hw
  cases h
  exact decode_packV _ _ rfl hw
theorem vneg (t : TypeCode) (d : Spec) (a : Spec) (rel : BitVec 1) : Statement (.vneg t d a rel) := by
  intro w h hw
  cases h
  exact decode_packV _ _ rfl hw
theorem vadds (t : TypeCode) (d : Spec) (a : Spec) (x : Code7) (rel : BitVec 1) : Statement (.vadds t d a x rel) := by
  intro w h hw
  cases h
  refine decode_packV _ _ ?_ hw
  · refine (if_pos ?_).trans ?_ <;> first | (simp [vecScalar x]; done) | (simp only [vecScalar x]; decide) | simp only [vecScalar x]
theorem vmuls (t : TypeCode) (d : Spec) (a : Spec) (x : Code7) (rel : BitVec 1) : Statement (.vmuls t d a x rel) := by
  intro w h hw
  cases h
  refine decode_packV _ _ ?_ hw
  · refine (if_pos ?_).trans ?_ <;> first | (simp [vecScalar x]; done) | (simp only [vecScalar x]; decide) | simp only [vecScalar x]
theorem vfmas (t : TypeCode) (d : Spec) (a : Spec) (x : Code7) (rel : BitVec 1) : Statement (.vfmas t d a x rel) := by
  intro w h hw
  cases h
  refine decode_packV _ _ ?_ hw
  · refine (if_pos ?_).trans ?_ <;> first | (simp [vecScalar x]; done) | (simp only [vecScalar x]; decide) | simp only [vecScalar x]
theorem vexp2 (d : Spec) (a : Spec) (rel : BitVec 1) : Statement (.vexp2 d a rel) := by
  intro w h hw
  cases h
  exact decode_packV _ _ rfl hw
theorem vlog2 (d : Spec) (a : Spec) (rel : BitVec 1) : Statement (.vlog2 d a rel) := by
  intro w h hw
  cases h
  exact decode_packV _ _ rfl hw
theorem vrcp (d : Spec) (a : Spec) (rel : BitVec 1) : Statement (.vrcp d a rel) := by
  intro w h hw
  cases h
  exact decode_packV _ _ rfl hw
theorem vrsq (d : Spec) (a : Spec) (rel : BitVec 1) : Statement (.vrsq d a rel) := by
  intro w h hw
  cases h
  exact decode_packV _ _ rfl hw
theorem vsqrt (d : Spec) (a : Spec) (rel : BitVec 1) : Statement (.vsqrt d a rel) := by
  intro w h hw
  cases h
  exact decode_packV _ _ rfl hw
theorem vcvt (t : TypeCode) (d : Spec) (a : Spec) (src : TypeCode) (part : BitVec 3) (rel : BitVec 1) : Statement (.vcvt t d a src part rel) := by
  intro w h hw
  cases h
  refine decode_packV _ _ ?_ hw
  · refine (if_pos ?_).trans ?_ <;> first | (simp [vecCvt part src]; done) | (simp only [vecCvt part src]; decide) | simp only [vecCvt part src]
theorem vqnt (t : TypeCode) (d : Spec) (a : Spec) (x : Code7) (rel : BitVec 1) : Statement (.vqnt t d a x rel) := by
  intro w h hw
  cases h
  refine decode_packV _ _ ?_ hw
  · refine (if_pos ?_).trans ?_ <;> first | (simp [vecScalar x]; done) | (simp only [vecScalar x]; decide) | simp only [vecScalar x]
theorem vdqnt (t : TypeCode) (d : Spec) (a : Spec) (x : Code7) (rel : BitVec 1) : Statement (.vdqnt t d a x rel) := by
  intro w h hw
  cases h
  refine decode_packV _ _ ?_ hw
  · refine (if_pos ?_).trans ?_ <;> first | (simp [vecScalar x]; done) | (simp only [vecScalar x]; decide) | simp only [vecScalar x]
theorem vand (d : Spec) (a : Spec) (b : Spec) (rel : BitVec 1) : Statement (.vand d a b rel) := by
  intro w h hw
  cases h
  exact decode_packV _ _ rfl hw
theorem vor (d : Spec) (a : Spec) (b : Spec) (rel : BitVec 1) : Statement (.vor d a b rel) := by
  intro w h hw
  cases h
  exact decode_packV _ _ rfl hw
theorem vxor (d : Spec) (a : Spec) (b : Spec) (rel : BitVec 1) : Statement (.vxor d a b rel) := by
  intro w h hw
  cases h
  exact decode_packV _ _ rfl hw
theorem vshl (t : TypeCode) (d : Spec) (a : Spec) (b : Spec) (rel : BitVec 1) : Statement (.vshl t d a b rel) := by
  intro w h hw
  cases h
  exact decode_packV _ _ rfl hw
theorem vshr (t : TypeCode) (d : Spec) (a : Spec) (b : Spec) (rel : BitVec 1) : Statement (.vshr t d a b rel) := by
  intro w h hw
  cases h
  exact decode_packV _ _ rfl hw
theorem vsar (t : TypeCode) (d : Spec) (a : Spec) (b : Spec) (rel : BitVec 1) : Statement (.vsar t d a b rel) := by
  intro w h hw
  cases h
  exact decode_packV _ _ rfl hw
theorem vcmpEq (t : TypeCode) (fb : BitVec 8) (x : Spec) (y : Spec) (rel : BitVec 1) : Statement (.vcmpEq t fb x y rel) := by
  intro w h hw
  cases h
  refine decode_packV _ _ ?_ hw
  · refine (if_pos ?_).trans ?_ <;> first | (simp [vecCmp fb 0#4]; done) | (simp only [vecCmp fb 0#4]; decide) | simp only [vecCmp fb 0#4]
theorem vcmpNe (t : TypeCode) (fb : BitVec 8) (x : Spec) (y : Spec) (rel : BitVec 1) : Statement (.vcmpNe t fb x y rel) := by
  intro w h hw
  cases h
  refine decode_packV _ _ ?_ hw
  · refine (if_neg ?_).trans ((if_pos ?_).trans ?_) <;> first | (simp [vecCmp fb 1#4]; done) | (simp only [vecCmp fb 1#4]; decide) | simp only [vecCmp fb 1#4]
theorem vcmpLt (t : TypeCode) (fb : BitVec 8) (x : Spec) (y : Spec) (rel : BitVec 1) : Statement (.vcmpLt t fb x y rel) := by
  intro w h hw
  cases h
  refine decode_packV _ _ ?_ hw
  · refine (if_neg ?_).trans ((if_neg ?_).trans ((if_pos ?_).trans ?_)) <;> first | (simp [vecCmp fb 2#4]; done) | (simp only [vecCmp fb 2#4]; decide) | simp only [vecCmp fb 2#4]
theorem vcmpLe (t : TypeCode) (fb : BitVec 8) (x : Spec) (y : Spec) (rel : BitVec 1) : Statement (.vcmpLe t fb x y rel) := by
  intro w h hw
  cases h
  refine decode_packV _ _ ?_ hw
  · refine (if_neg ?_).trans ((if_neg ?_).trans ((if_neg ?_).trans ((if_pos ?_).trans ?_))) <;> first | (simp [vecCmp fb 3#4]; done) | (simp only [vecCmp fb 3#4]; decide) | simp only [vecCmp fb 3#4]
theorem vcmpGt (t : TypeCode) (fb : BitVec 8) (x : Spec) (y : Spec) (rel : BitVec 1) : Statement (.vcmpGt t fb x y rel) := by
  intro w h hw
  cases h
  refine decode_packV _ _ ?_ hw
  · refine (if_neg ?_).trans ((if_neg ?_).trans ((if_neg ?_).trans ((if_neg ?_).trans ((if_pos ?_).trans ?_)))) <;> first | (simp [vecCmp fb 4#4]; done) | (simp only [vecCmp fb 4#4]; decide) | simp only [vecCmp fb 4#4]
theorem vcmpGe (t : TypeCode) (fb : BitVec 8) (x : Spec) (y : Spec) (rel : BitVec 1) : Statement (.vcmpGe t fb x y rel) := by
  intro w h hw
  cases h
  refine decode_packV _ _ ?_ hw
  · refine (if_neg ?_).trans ((if_neg ?_).trans ((if_neg ?_).trans ((if_neg ?_).trans ((if_neg ?_).trans ((if_pos ?_).trans ?_))))) <;> first | (simp [vecCmp fb 5#4]; done) | (simp only [vecCmp fb 5#4]; decide) | simp only [vecCmp fb 5#4]
theorem vcmpUn (t : TypeCode) (fb : BitVec 8) (x : Spec) (y : Spec) (rel : BitVec 1) : Statement (.vcmpUn t fb x y rel) := by
  intro w h hw
  cases h
  refine decode_packV _ _ ?_ hw
  · refine (if_neg ?_).trans ((if_neg ?_).trans ((if_neg ?_).trans ((if_neg ?_).trans ((if_neg ?_).trans ((if_neg ?_).trans ((if_pos ?_).trans ?_)))))) <;> first | (simp [vecCmp fb 6#4]; done) | (simp only [vecCmp fb 6#4]; decide) | simp only [vecCmp fb 6#4]
theorem vblend (t : TypeCode) (d : Spec) (a : Spec) (b : Spec) (rel : BitVec 1) : Statement (.vblend t d a b rel) := by
  intro w h hw
  cases h
  exact decode_packV _ _ rfl hw
theorem vredsum (t : TypeCode) (d : Spec) (a : Spec) (rel : BitVec 1) : Statement (.vredsum t d a rel) := by
  intro w h hw
  cases h
  exact decode_packV _ _ rfl hw
theorem vredmax (t : TypeCode) (d : Spec) (a : Spec) (rel : BitVec 1) : Statement (.vredmax t d a rel) := by
  intro w h hw
  cases h
  exact decode_packV _ _ rfl hw
theorem vredmin (t : TypeCode) (d : Spec) (a : Spec) (rel : BitVec 1) : Statement (.vredmin t d a rel) := by
  intro w h hw
  cases h
  exact decode_packV _ _ rfl hw
theorem vbcast (t : TypeCode) (d : Spec) (a : Spec) (k : BitVec 8) (rel : BitVec 1) : Statement (.vbcast t d a k rel) := by
  intro w h hw
  cases h
  refine decode_packV _ _ ?_ hw
  · refine (if_pos ?_).trans ?_ <;> first | (simp [vecBcast k]; done) | (simp only [vecBcast k]; decide) | simp only [vecBcast k]
theorem vmov (d : Spec) (a : Spec) (rel : BitVec 1) : Statement (.vmov d a rel) := by
  intro w h hw
  cases h
  exact decode_packV _ _ rfl hw
theorem vslide (t : TypeCode) (d : Spec) (a : Spec) (sh : BitVec 9) (rel : BitVec 1) : Statement (.vslide t d a sh rel) := by
  intro w h hw
  cases h
  refine decode_packV _ _ ?_ hw
  · refine (if_pos ?_).trans ?_ <;> first | (simp [vecSlide sh]; done) | (simp only [vecSlide sh]; decide) | simp only [vecSlide sh]
theorem vslide2 (t : TypeCode) (d : Spec) (a : Spec) (b : Spec) (rel : BitVec 1) : Statement (.vslide2 t d a b rel) := by
  intro w h hw
  cases h
  exact decode_packV _ _ rfl hw
theorem vmacw (t : TypeCode) (d : Spec) (a : Spec) (b : Spec) (rel : BitVec 1) : Statement (.vmacw t d a b rel) := by
  intro w h hw
  cases h
  exact decode_packV _ _ rfl hw
theorem vnar (t : TypeCode) (d : Spec) (a : Spec) (sh : BitVec 5) (rel : BitVec 1) : Statement (.vnar t d a sh rel) := by
  intro w h hw
  cases h
  refine decode_packV _ _ ?_ hw
  · refine (if_pos ?_).trans ?_ <;> first | (simp [vecNar sh]; done) | (simp only [vecNar sh]; decide) | simp only [vecNar sh]
theorem vperm (t : TypeCode) (d : Spec) (a : Spec) (b : Spec) (rel : BitVec 1) : Statement (.vperm t d a b rel) := by
  intro w h hw
  cases h
  exact decode_packV _ _ rfl hw
theorem vzrd (d : Spec) (z : BitVec 4) (rho : BitVec 7) (g : BitVec 3) (rel : BitVec 1) : Statement (.vzrd d z rho g rel) := by
  intro w h hw
  cases h
  refine decode_packV _ _ ?_ hw
  · refine (if_pos ?_).trans ?_ <;> first | (simp [vecAccB g, vecAccA 0#1 rho z]; done) | (simp only [vecAccB g, vecAccA 0#1 rho z]; decide) | simp only [vecAccB g, vecAccA 0#1 rho z]
theorem vzrdL (d : Spec) (z : BitVec 4) (rho : BitVec 7) (g : BitVec 3) (rel : BitVec 1) : Statement (.vzrdL d z rho g rel) := by
  intro w h hw
  cases h
  refine decode_packV _ _ ?_ hw
  · refine (if_neg ?_).trans ((if_pos ?_).trans ?_) <;> first | (simp [vecAccB g, vecAccA 1#1 rho z]; done) | (simp only [vecAccB g, vecAccA 1#1 rho z]; decide) | simp only [vecAccB g, vecAccA 1#1 rho z]
theorem vzwr (d : Spec) (z : BitVec 4) (rho : BitVec 7) (g : BitVec 3) (rel : BitVec 1) : Statement (.vzwr d z rho g rel) := by
  intro w h hw
  cases h
  refine decode_packV _ _ ?_ hw
  · refine (if_pos ?_).trans ?_ <;> first | (simp [vecAccB g, vecAccA 0#1 rho z]; done) | (simp only [vecAccB g, vecAccA 0#1 rho z]; decide) | simp only [vecAccB g, vecAccA 0#1 rho z]
theorem vzero (d : Spec) (rel : BitVec 1) : Statement (.vzero d rel) := by
  intro w h hw
  cases h
  exact decode_packV _ _ rfl hw
theorem viota (t : TypeCode) (d : Spec) (rel : BitVec 1) : Statement (.viota t d rel) := by
  intro w h hw
  cases h
  exact decode_packV _ _ rfl hw
theorem mmaS (z : BitVec 4) (dA : BitVec 4) (dB : BitVec 4) (tA : TypeCode) (tB : TypeCode) (acc : BitVec 1) (mx : BitVec 1) (dual : BitVec 1) (bt : BitVec 1) (sclsrc : BitVec 1) (dSA : BitVec 4) (dSB : BitVec 4) : Statement (.mmaS z dA dB tA tB acc mx dual bt sclsrc dSA dSB) := by
  intro w h hw
  cases h
  refine decode_packM _ _ ?_ hw
  · refine (if_pos ?_).trans ?_ <;> first | (simp [immMmaS bt dSB dSA]; done) | (simp only [immMmaS bt dSB dSA]; decide) | simp only [immMmaS bt dSB dSA]
theorem mmaV (z : BitVec 4) (dA : BitVec 4) (dB : BitVec 4) (tA : TypeCode) (tB : TypeCode) (acc : BitVec 1) (mx : BitVec 1) (dual : BitVec 1) (bt : BitVec 1) (sclsrc : BitVec 1) (dSA : BitVec 4) (dSB : BitVec 4) : Statement (.mmaV z dA dB tA tB acc mx dual bt sclsrc dSA dSB) := by
  intro w h hw
  cases h
  refine decode_packM _ _ ?_ hw
  · refine (if_pos ?_).trans ?_ <;> first | (simp [immMmaV bt dSB dSA]; done) | (simp only [immMmaV bt dSB dSA]; decide) | simp only [immMmaV bt dSB dSA]
theorem mmaSg (z : BitVec 4) (dA : BitVec 4) (dB : BitVec 4) (tA : TypeCode) (tB : TypeCode) (acc : BitVec 1) (mx : BitVec 1) (dual : BitVec 1) (bt : BitVec 1) (g : BitVec 5) (r : BitVec 5) : Statement (.mmaSg z dA dB tA tB acc mx dual bt g r) := by
  intro w h hw
  cases h
  refine decode_packM _ _ ?_ hw
  · refine (if_pos ?_).trans ?_ <;> first | (simp [immMmaSg bt r g]; done) | (simp only [immMmaSg bt r g]; decide) | simp only [immMmaSg bt r g]
theorem mmaVg (z : BitVec 4) (dA : BitVec 4) (dB : BitVec 4) (tA : TypeCode) (tB : TypeCode) (acc : BitVec 1) (mx : BitVec 1) (dual : BitVec 1) (bt : BitVec 1) (g : BitVec 5) (r : BitVec 5) : Statement (.mmaVg z dA dB tA tB acc mx dual bt g r) := by
  intro w h hw
  cases h
  refine decode_packM _ _ ?_ hw
  · refine (if_pos ?_).trans ?_ <;> first | (simp [immMmaVg bt r g]; done) | (simp only [immMmaVg bt r g]; decide) | simp only [immMmaVg bt r g]
theorem mmaQ (z : BitVec 4) (dA : BitVec 4) (dB : BitVec 4) (tA : TypeCode) (tB : TypeCode) (acc : BitVec 1) (mx : BitVec 1) (dual : BitVec 1) (bt : BitVec 1) (x : Code7) : Statement (.mmaQ z dA dB tA tB acc mx dual bt x) := by
  intro w h hw
  cases h
  refine decode_packM _ _ ?_ hw
  · refine (if_pos ?_).trans ?_ <;> first | (simp [immMmaQ bt x]; done) | (simp only [immMmaQ bt x]; decide) | simp only [immMmaQ bt x]
theorem zalloc (z : BitVec 4) (rows1 : BitVec 7) (cols1 : BitVec 8) (dual : BitVec 1) : Statement (.zalloc z rows1 cols1 dual) := by
  intro w h hw
  cases h
  refine decode_packM _ _ ?_ hw
  · refine (if_pos ?_).trans ?_ <;> first | (simp [immZalloc cols1 rows1]; done) | (simp only [immZalloc cols1 rows1]; decide) | simp only [immZalloc cols1 rows1]
theorem zfree (z : BitVec 4) : Statement (.zfree z) := by
  intro w h hw
  cases h
  refine decode_packM _ _ ?_ hw
  first
  | rfl
  | refine (if_pos ?_).trans ?_ <;> simp (disch := decide) [extract_append_high, extract_append_low, extract_self] <;> done
  | refine (if_neg ?_).trans ((if_pos ?_).trans ?_) <;> simp (disch := decide) [extract_append_high, extract_append_low, extract_self]
theorem zswap (z : BitVec 4) : Statement (.zswap z) := by
  intro w h hw
  cases h
  refine decode_packM _ _ ?_ hw
  first
  | rfl
  | refine (if_pos ?_).trans ?_ <;> simp (disch := decide) [extract_append_high, extract_append_low, extract_self] <;> done
  | refine (if_neg ?_).trans ((if_pos ?_).trans ?_) <;> simp (disch := decide) [extract_append_high, extract_append_low, extract_self]
theorem zzero (z : BitVec 4) (both : BitVec 1) : Statement (.zzero z both) := by
  intro w h hw
  cases h
  refine decode_packM _ _ ?_ hw
  · refine (if_pos ?_).trans ?_ <;> first | (simp [immZzero both]; done) | (simp only [immZzero both]; decide) | simp only [immZzero both]
theorem mwait (z : BitVec 4) : Statement (.mwait z) := by
  intro w h hw
  cases h
  refine decode_packM _ _ ?_ hw
  first
  | rfl
  | refine (if_pos ?_).trans ?_ <;> simp (disch := decide) [extract_append_high, extract_append_low, extract_self] <;> done
  | refine (if_neg ?_).trans ((if_pos ?_).trans ?_) <;> simp (disch := decide) [extract_append_high, extract_append_low, extract_self]
theorem chbeg (sl : BitVec 2) (z : BitVec 4) (dA : BitVec 4) (tQ : TypeCode) (dual : BitVec 1) (mask : BitVec 2) (x : Code7) : Statement (.chbeg sl z dA tQ dual mask x) := by
  intro w h hw
  cases h
  refine decode_packM _ _ ?_ hw
  · refine (if_pos ?_).trans ?_ <;> first | (simp [immChbeg mask sl x]; done) | (simp only [immChbeg mask sl x]; decide) | simp only [immChbeg mask sl x]
theorem chblk (sl : BitVec 2) (dA : BitVec 4) (dB : BitVec 4) (dM : BitVec 4) (tK : TypeCode) (tV : TypeCode) : Statement (.chblk sl dA dB dM tK tV) := by
  intro w h hw
  cases h
  refine decode_packM _ _ ?_ hw
  · refine (if_pos ?_).trans ?_ <;> first | (simp [immChblk dM sl]; done) | (simp only [immChblk dM sl]; decide) | simp only [immChblk dM sl]
theorem chend (sl : BitVec 2) : Statement (.chend sl) := by
  intro w h hw
  cases h
  refine decode_packM _ _ ?_ hw
  · refine (if_pos ?_).trans ?_ <;> first | (simp [immChend sl]; done) | (simp only [immChend sl]; decide) | simp only [immChend sl]
theorem chfin (sl : BitVec 2) (dA : BitVec 4) (n : BitVec 10) : Statement (.chfin sl dA n) := by
  intro w h hw
  cases h
  refine decode_packM _ _ ?_ hw
  · refine (if_pos ?_).trans ?_ <;> first | (simp [immChfin sl n]; done) | (simp only [immChfin sl n]; decide) | simp only [immChfin sl n]
theorem chmrg (sA : BitVec 2) (sB : BitVec 2) : Statement (.chmrg sA sB) := by
  intro w h hw
  cases h
  refine decode_packM _ _ ?_ hw
  · refine (if_pos ?_).trans ?_ <;> first | (simp [immChmrg sB sA]; done) | (simp only [immChmrg sB sA]; decide) | simp only [immChmrg sB sA]
theorem chst (sl : BitVec 2) (x : Code7) : Statement (.chst sl x) := by
  intro w h hw
  cases h
  refine decode_packM _ _ ?_ hw
  · refine (if_pos ?_).trans ?_ <;> first | (simp [immChst sl x]; done) | (simp only [immChst sl x]; decide) | simp only [immChst sl x]
theorem chld (sl : BitVec 2) (z : BitVec 4) (x : Code7) : Statement (.chld sl z x) := by
  intro w h hw
  cases h
  refine decode_packM _ _ ?_ hw
  · refine (if_pos ?_).trans ?_ <;> first | (simp [immChld sl x]; done) | (simp only [immChld sl x]; decide) | simp only [immChld sl x]
theorem chscl (sl : BitVec 2) (x : Code7) : Statement (.chscl sl x) := by
  intro w h hw
  cases h
  refine decode_packM _ _ ?_ hw
  · refine (if_pos ?_).trans ?_ <;> first | (simp [immChscl sl x]; done) | (simp only [immChscl sl x]; decide) | simp only [immChscl sl x]
theorem scl (latch : BitVec 2) (row : BitVec 5) (m : BitVec 5) : Statement (.scl latch row m) := by
  intro w h hw
  cases h
  exact decode_packS _ _ rfl hw
theorem sxv (latch : BitVec 2) (row : BitVec 5) (m : BitVec 5) : Statement (.sxv latch row m) := by
  intro w h hw
  cases h
  exact decode_packS _ _ rfl hw
theorem sts (latch : BitVec 2) (row : BitVec 5) (m : BitVec 5) : Statement (.sts latch row m) := by
  intro w h hw
  cases h
  exact decode_packS _ _ rfl hw
theorem cpy (ch : BitVec 1) (x : Code7) (n : BitVec 12) (dw : BitVec 1) (k : BitVec 4) : Statement (.cpy ch x n dw k) := by
  intro w h hw
  cases h
  refine decode_packC _ _ ?_ hw
  change some (Instr.cpy _ _ _ _ _) = _
  simp only [immCpy k dw n ch]
theorem cpwp (d : Code7) (ch : BitVec 1) : Statement (.cpwp d ch) := by
  intro w h hw
  cases h
  refine decode_packC _ _ ?_ hw
  · refine (if_pos ?_).trans ?_ <;> first | (simp [immCpwp ch]; done) | (simp only [immCpwp ch]; decide) | simp only [immCpwp ch]
theorem cpwait (ch : BitVec 1) (x : Code7) : Statement (.cpwait ch x) := by
  intro w h hw
  cases h
  refine decode_packC _ _ ?_ hw
  · refine (if_pos ?_).trans ?_ <;> first | (simp [immCpwait ch]; done) | (simp only [immCpwait ch]; decide) | simp only [immCpwait ch]
theorem cpabort (ch : BitVec 1) : Statement (.cpabort ch) := by
  intro w h hw
  cases h
  refine decode_packC _ _ ?_ hw
  · refine (if_pos ?_).trans ?_ <;> first | (simp [immCpabort ch]; done) | (simp only [immCpabort ch]; decide) | simp only [immCpabort ch]
theorem barinit (x : Code7) (y : Code7) : Statement (.barinit x y) := by
  intro w h hw
  cases h
  refine decode_packC _ _ ?_ hw
  first
  | rfl
  | refine (if_pos ?_).trans ?_ <;> simp (disch := decide) [extract_append_high, extract_append_low, extract_self] <;> done
  | refine (if_neg ?_).trans ((if_pos ?_).trans ?_) <;> simp (disch := decide) [extract_append_high, extract_append_low, extract_self]
theorem barexp (x : Code7) (y : Code7) : Statement (.barexp x y) := by
  intro w h hw
  cases h
  refine decode_packC _ _ ?_ hw
  first
  | rfl
  | refine (if_pos ?_).trans ?_ <;> simp (disch := decide) [extract_append_high, extract_append_low, extract_self] <;> done
  | refine (if_neg ?_).trans ((if_pos ?_).trans ?_) <;> simp (disch := decide) [extract_append_high, extract_append_low, extract_self]
theorem bararr (x : Code7) (y : Code7) : Statement (.bararr x y) := by
  intro w h hw
  cases h
  refine decode_packC _ _ ?_ hw
  first
  | rfl
  | refine (if_pos ?_).trans ?_ <;> simp (disch := decide) [extract_append_high, extract_append_low, extract_self] <;> done
  | refine (if_neg ?_).trans ((if_pos ?_).trans ?_) <;> simp (disch := decide) [extract_append_high, extract_append_low, extract_self]
theorem barwait (x : Code7) (y : Code7) : Statement (.barwait x y) := by
  intro w h hw
  cases h
  refine decode_packC _ _ ?_ hw
  first
  | rfl
  | refine (if_pos ?_).trans ?_ <;> simp (disch := decide) [extract_append_high, extract_append_low, extract_self] <;> done
  | refine (if_neg ?_).trans ((if_pos ?_).trans ?_) <;> simp (disch := decide) [extract_append_high, extract_append_low, extract_self]
theorem bartst (d : Code7) (x : Code7) : Statement (.bartst d x) := by
  intro w h hw
  cases h
  refine decode_packC _ _ ?_ hw
  first
  | rfl
  | refine (if_pos ?_).trans ?_ <;> simp (disch := decide) [extract_append_high, extract_append_low, extract_self] <;> done
  | refine (if_neg ?_).trans ((if_pos ?_).trans ?_) <;> simp (disch := decide) [extract_append_high, extract_append_low, extract_self]
theorem wopen (w : BitVec 3) (x : Code7) : Statement (.wopen w x) := by
  intro w h hw
  cases h
  refine decode_packC _ _ ?_ hw
  · refine (if_pos ?_).trans ?_ <;> first | (simp [immWopen w]; done) | (simp only [immWopen w]; decide) | simp only [immWopen w]
theorem wadv (w : BitVec 3) (x : Code7) : Statement (.wadv w x) := by
  intro w h hw
  cases h
  refine decode_packC _ _ ?_ hw
  · refine (if_pos ?_).trans ?_ <;> first | (simp [immWadv w]; done) | (simp only [immWadv w]; decide) | simp only [immWadv w]
theorem wclose (w : BitVec 3) : Statement (.wclose w) := by
  intro w h hw
  cases h
  refine decode_packC _ _ ?_ hw
  · refine (if_pos ?_).trans ?_ <;> first | (simp [immWclose w]; done) | (simp only [immWclose w]; decide) | simp only [immWclose w]
theorem wstat (d : Code7) (w : BitVec 3) : Statement (.wstat d w) := by
  intro w h hw
  cases h
  refine decode_packC _ _ ?_ hw
  · refine (if_pos ?_).trans ?_ <;> first | (simp [immWstat w]; done) | (simp only [immWstat w]; decide) | simp only [immWstat w]
theorem rres (d : Code7) (x : Code7) : Statement (.rres d x) := by
  intro w h hw
  cases h
  refine decode_packC _ _ ?_ hw
  first
  | rfl
  | refine (if_pos ?_).trans ?_ <;> simp (disch := decide) [extract_append_high, extract_append_low, extract_self] <;> done
  | refine (if_neg ?_).trans ((if_pos ?_).trans ?_) <;> simp (disch := decide) [extract_append_high, extract_append_low, extract_self]
theorem rpub (x : Code7) (y : Code7) : Statement (.rpub x y) := by
  intro w h hw
  cases h
  refine decode_packC _ _ ?_ hw
  first
  | rfl
  | refine (if_pos ?_).trans ?_ <;> simp (disch := decide) [extract_append_high, extract_append_low, extract_self] <;> done
  | refine (if_neg ?_).trans ((if_pos ?_).trans ?_) <;> simp (disch := decide) [extract_append_high, extract_append_low, extract_self]
theorem rtake (x : Code7) (y : Code7) : Statement (.rtake x y) := by
  intro w h hw
  cases h
  refine decode_packC _ _ ?_ hw
  first
  | rfl
  | refine (if_pos ?_).trans ?_ <;> simp (disch := decide) [extract_append_high, extract_append_low, extract_self] <;> done
  | refine (if_neg ?_).trans ((if_pos ?_).trans ?_) <;> simp (disch := decide) [extract_append_high, extract_append_low, extract_self]
theorem rrel (x : Code7) (y : Code7) : Statement (.rrel x y) := by
  intro w h hw
  cases h
  refine decode_packC _ _ ?_ hw
  first
  | rfl
  | refine (if_pos ?_).trans ?_ <;> simp (disch := decide) [extract_append_high, extract_append_low, extract_self] <;> done
  | refine (if_neg ?_).trans ((if_pos ?_).trans ?_) <;> simp (disch := decide) [extract_append_high, extract_append_low, extract_self]
theorem bgive (home : BitVec 2) (buf : BitVec 7) (rcv : BitVec 2) : Statement (.bgive home buf rcv) := by
  intro w h hw
  cases h
  refine decode_packC _ _ ?_ hw
  · refine (if_pos ?_).trans ?_ <;> first | (simp [immBgive rcv home buf]; done) | (simp only [immBgive rcv home buf]; decide) | simp only [immBgive rcv home buf]
theorem btake (home : BitVec 2) (buf : BitVec 7) (n : BitVec 4) : Statement (.btake home buf n) := by
  intro w h hw
  cases h
  refine decode_packC _ _ ?_ hw
  · refine (if_pos ?_).trans ?_ <;> first | (simp [immBtake n home buf]; done) | (simp only [immBtake n home buf]; decide) | simp only [immBtake n home buf]
theorem bopen (buf : BitVec 7) (src : BitVec 2) (ch : BitVec 1) : Statement (.bopen buf src ch) := by
  intro w h hw
  cases h
  refine decode_packC _ _ ?_ hw
  · refine (if_pos ?_).trans ?_ <;> first | (simp [immBopen ch src buf]; done) | (simp only [immBopen ch src buf]; decide) | simp only [immBopen ch src buf]
theorem bclose (buf : BitVec 7) (src : BitVec 2) (ch : BitVec 1) : Statement (.bclose buf src ch) := by
  intro w h hw
  cases h
  refine decode_packC _ _ ?_ hw
  · refine (if_pos ?_).trans ?_ <;> first | (simp [immBclose ch src buf]; done) | (simp only [immBclose ch src buf]; decide) | simp only [immBclose ch src buf]
theorem fset (n : BitVec 10) (x : Code7) : Statement (.fset n x) := by
  intro w h hw
  cases h
  refine decode_packC _ _ ?_ hw
  · refine (if_pos ?_).trans ?_ <;> first | (simp [immFset n]; done) | (simp only [immFset n]; decide) | simp only [immFset n]
theorem faddFlag (n : BitVec 10) (x : Code7) (d : Code7) : Statement (.faddFlag n x d) := by
  intro w h hw
  cases h
  refine decode_packC _ _ ?_ hw
  · refine (if_pos ?_).trans ?_ <;> first | (simp [immFaddFlag n]; done) | (simp only [immFaddFlag n]; decide) | simp only [immFaddFlag n]
theorem fwait (n : BitVec 10) (x : Code7) : Statement (.fwait n x) := by
  intro w h hw
  cases h
  refine decode_packC _ _ ?_ hw
  · refine (if_pos ?_).trans ?_ <;> first | (simp [immFwait n]; done) | (simp only [immFwait n]; decide) | simp only [immFwait n]
theorem fwaiteq (n : BitVec 10) (x : Code7) : Statement (.fwaiteq n x) := by
  intro w h hw
  cases h
  refine decode_packC _ _ ?_ hw
  · refine (if_pos ?_).trans ?_ <;> first | (simp [immFwaiteq n]; done) | (simp only [immFwaiteq n]; decide) | simp only [immFwaiteq n]
theorem sbind (p : BitVec 3) (dir : BitVec 1) (wd : BitVec 2) (sx : BitVec 1) (x : Code7) (y : Code7) : Statement (.sbind p dir wd sx x y) := by
  intro w h hw
  cases h
  refine decode_packC _ _ ?_ hw
  · refine (if_pos ?_).trans ?_ <;> first | (simp [immSbind sx wd dir p]; done) | (simp only [immSbind sx wd dir p]; decide) | simp only [immSbind sx wd dir p]
theorem sbindWindow (p : BitVec 3) (dir : BitVec 1) (wd : BitVec 2) (sx : BitVec 1) (w : BitVec 3) : Statement (.sbindWindow p dir wd sx w) := by
  intro w h hw
  cases h
  refine decode_packC _ _ ?_ hw
  · refine (if_neg ?_).trans ((if_pos ?_).trans ?_) <;> first | (simp [immSbindWindow w sx wd dir p]; done) | (simp only [immSbindWindow w sx wd dir p]; decide) | simp only [immSbindWindow w sx wd dir p]
theorem sunb (p : BitVec 3) : Statement (.sunb p) := by
  intro w h hw
  cases h
  refine decode_packC _ _ ?_ hw
  · refine (if_pos ?_).trans ?_ <;> first | (simp [immSunb p]; done) | (simp only [immSunb p]; decide) | simp only [immSunb p]
theorem spos (d : Code7) (p : BitVec 3) : Statement (.spos d p) := by
  intro w h hw
  cases h
  refine decode_packC _ _ ?_ hw
  · refine (if_pos ?_).trans ?_ <;> first | (simp [immSpos p]; done) | (simp only [immSpos p]; decide) | simp only [immSpos p]
theorem tdset (k : BitVec 4) (x : Code7) : Statement (.tdset k x) := by
  intro w h hw
  cases h
  refine decode_packC _ _ ?_ hw
  · refine (if_pos ?_).trans ?_ <;> first | (simp [immTdset k]; done) | (simp only [immTdset k]; decide) | simp only [immTdset k]
theorem tdget (d : Code7) (k : BitVec 4) (q : BitVec 2) : Statement (.tdget d k q) := by
  intro w h hw
  cases h
  refine decode_packC _ _ ?_ hw
  · refine (if_pos ?_).trans ?_ <;> first | (simp [immTdget q k]; done) | (simp only [immTdget q k]; decide) | simp only [immTdget q k]
theorem loop (x : Code7) (n : BitVec 12) : Statement (.loop x n) := by
  intro w h hw
  cases h
  refine decode_packC _ _ ?_ hw
  · refine (if_pos ?_).trans ?_ <;> first | (simp [immLoop n]; done) | (simp only [immLoop n]; decide) | simp only [immLoop n]
theorem loopi (lo : BitVec 7) (hi : BitVec 7) (n : BitVec 12) : Statement (.loopi lo hi n) := by
  intro w h hw
  cases h
  refine decode_packC _ _ ?_ hw
  · refine (if_pos ?_).trans ?_ <;> first | (simp [immLoopi n]; done) | (simp only [immLoopi n]; decide) | simp only [immLoopi n]
theorem ploop (x : Code7) (n : BitVec 12) (s1 : BitVec 3) (e : BitVec 3) : Statement (.ploop x n s1 e) := by
  intro w h hw
  cases h
  refine decode_packC _ _ ?_ hw
  change some (Instr.ploop _ _ _ _) = _
  simp only [immPloop e s1 n]
theorem lexit (k : BitVec 3) : Statement (.lexit k) := by
  intro w h hw
  cases h
  refine decode_packC _ _ ?_ hw
  · refine (if_pos ?_).trans ?_ <;> first | (simp [immLexit k]; done) | (simp only [immLexit k]; decide) | simp only [immLexit k]
theorem setti (k : BitVec 3) (imm : BitVec 18) : Statement (.setti k imm) := by
  intro w h hw
  cases h
  refine decode_packC _ _ ?_ hw
  · refine (if_pos ?_).trans ?_ <;> first | (simp [immSetti k]; done) | (simp only [immSetti k]; decide) | simp only [immSetti k]
theorem drain (scope : BitVec 3) : Statement (.drain scope) := by
  intro w h hw
  cases h
  refine decode_packC _ _ ?_ hw
  · refine (if_pos ?_).trans ?_ <;> first | (simp [immDrain scope]; done) | (simp only [immDrain scope]; decide) | simp only [immDrain scope]
theorem fenceAcq (scope : BitVec 3) : Statement (.fenceAcq scope) := by
  intro w h hw
  cases h
  refine decode_packC _ _ ?_ hw
  · refine (if_pos ?_).trans ?_ <;> first | (simp [immFenceAcq scope]; done) | (simp only [immFenceAcq scope]; decide) | simp only [immFenceAcq scope]
theorem fenceRel (scope : BitVec 3) : Statement (.fenceRel scope) := by
  intro w h hw
  cases h
  refine decode_packC _ _ ?_ hw
  · refine (if_neg ?_).trans ((if_pos ?_).trans ?_) <;> first | (simp [immFenceRel scope]; done) | (simp only [immFenceRel scope]; decide) | simp only [immFenceRel scope]
theorem tspawn (x : Code7) (y : Code7) : Statement (.tspawn x y) := by
  intro w h hw
  cases h
  refine decode_packC _ _ ?_ hw
  · refine (if_pos ?_).trans ?_ <;> first | (simp [immTspawn ]; done) | (simp only [immTspawn ]; decide) | simp only [immTspawn ]
theorem tspawnG (x : Code7) (y : Code7) (n : BitVec 16) : Statement (.tspawnG x y n) := by
  intro w h hw
  cases h
  refine decode_packC _ _ ?_ hw
  · refine (if_neg ?_).trans ((if_pos ?_).trans ?_) <;> first | (simp [immTspawnG n]; done) | (simp only [immTspawnG n]; decide) | (simp only [immTspawnG n]; intro h; exact absurd h.2.1 (by decide)) | simp only [immTspawnG n]
theorem tarm (x : Code7) (y : Code7) : Statement (.tarm x y) := by
  intro w h hw
  cases h
  refine decode_packC _ _ ?_ hw
  first
  | rfl
  | refine (if_pos ?_).trans ?_ <;> simp (disch := decide) [extract_append_high, extract_append_low, extract_self] <;> done
  | refine (if_neg ?_).trans ((if_pos ?_).trans ?_) <;> simp (disch := decide) [extract_append_high, extract_append_low, extract_self]
theorem tsig (x : Code7) : Statement (.tsig x) := by
  intro w h hw
  cases h
  refine decode_packC _ _ ?_ hw
  first
  | rfl
  | refine (if_pos ?_).trans ?_ <;> simp (disch := decide) [extract_append_high, extract_append_low, extract_self] <;> done
  | refine (if_neg ?_).trans ((if_pos ?_).trans ?_) <;> simp (disch := decide) [extract_append_high, extract_append_low, extract_self]
theorem texit (x : Code7) : Statement (.texit x) := by
  intro w h hw
  cases h
  refine decode_packC _ _ ?_ hw
  first
  | rfl
  | refine (if_pos ?_).trans ?_ <;> simp (disch := decide) [extract_append_high, extract_append_low, extract_self] <;> done
  | refine (if_neg ?_).trans ((if_pos ?_).trans ?_) <;> simp (disch := decide) [extract_append_high, extract_append_low, extract_self]
theorem tsetq (x : Code7) (p : BitVec 2) : Statement (.tsetq x p) := by
  intro w h hw
  cases h
  refine decode_packC _ _ ?_ hw
  · refine (if_pos ?_).trans ?_ <;> first | (simp [immTsetq p]; done) | (simp only [immTsetq p]; decide) | simp only [immTsetq p]
theorem tsetqSelf (p : BitVec 2) : Statement (.tsetqSelf p) := by
  intro w h hw
  cases h
  refine decode_packC _ _ ?_ hw
  · refine (if_neg ?_).trans ((if_pos ?_).trans ?_) <;> first | (simp [immTsetqSelf p]; done) | (simp only [immTsetqSelf p]; decide) | simp only [immTsetqSelf p]
theorem bsync (scope : BitVec 3) : Statement (.bsync scope) := by
  intro w h hw
  cases h
  refine decode_packC _ _ ?_ hw
  · refine (if_pos ?_).trans ?_ <;> first | (simp [immBsync scope]; done) | (simp only [immBsync scope]; decide) | simp only [immBsync scope]
theorem put (x : Code7) : Statement (.put x) := by
  intro w h hw
  cases h
  refine decode_packC _ _ ?_ hw
  first
  | rfl
  | refine (if_pos ?_).trans ?_ <;> simp (disch := decide) [extract_append_high, extract_append_low, extract_self] <;> done
  | refine (if_neg ?_).trans ((if_pos ?_).trans ?_) <;> simp (disch := decide) [extract_append_high, extract_append_low, extract_self]
theorem get (x : Code7) : Statement (.get x) := by
  intro w h hw
  cases h
  refine decode_packC _ _ ?_ hw
  first
  | rfl
  | refine (if_pos ?_).trans ?_ <;> simp (disch := decide) [extract_append_high, extract_append_low, extract_self] <;> done
  | refine (if_neg ?_).trans ((if_pos ?_).trans ?_) <;> simp (disch := decide) [extract_append_high, extract_append_low, extract_self]
theorem ramo (x : Code7) : Statement (.ramo x) := by
  intro w h hw
  cases h
  refine decode_packC _ _ ?_ hw
  first
  | rfl
  | refine (if_pos ?_).trans ?_ <;> simp (disch := decide) [extract_append_high, extract_append_low, extract_self] <;> done
  | refine (if_neg ?_).trans ((if_pos ?_).trans ?_) <;> simp (disch := decide) [extract_append_high, extract_append_low, extract_self]
theorem lbopen (n : BitVec 4) (x : Code7) : Statement (.lbopen n x) := by
  intro w h hw
  cases h
  refine decode_packC _ _ ?_ hw
  · refine (if_pos ?_).trans ?_ <;> first | (simp [immLbopen n]; done) | (simp only [immLbopen n]; decide) | simp only [immLbopen n]
theorem lbsend (n : BitVec 4) (x : Code7) (lk : BitVec 3) (m : BitVec 4) : Statement (.lbsend n x lk m) := by
  intro w h hw
  cases h
  refine decode_packC _ _ ?_ hw
  · refine (if_pos ?_).trans ?_ <;> first | (simp [immLbsend m lk n]; done) | (simp only [immLbsend m lk n]; decide) | simp only [immLbsend m lk n]
theorem lbfree (n : BitVec 4) : Statement (.lbfree n) := by
  intro w h hw
  cases h
  refine decode_packC _ _ ?_ hw
  · refine (if_pos ?_).trans ?_ <;> first | (simp [immLbfree n]; done) | (simp only [immLbfree n]; decide) | simp only [immLbfree n]
theorem lbfreeClose (n : BitVec 4) : Statement (.lbfreeClose n) := by
  intro w h hw
  cases h
  refine decode_packC _ _ ?_ hw
  · refine (if_neg ?_).trans ((if_pos ?_).trans ?_) <;> first | (simp [immLbfreeClose n]; done) | (simp only [immLbfreeClose n]; decide) | simp only [immLbfreeClose n]
theorem cgrp (x : Code7) (scope : BitVec 3) (op : BitVec 1) (tout : BitVec 4) : Statement (.cgrp x scope op tout) := by
  intro w h hw
  cases h
  refine decode_packC _ _ ?_ hw
  · refine (if_pos ?_).trans ?_ <;> first | (simp [immCgrp tout op scope]; done) | (simp only [immCgrp tout op scope]; decide) | simp only [immCgrp tout op scope]
theorem cgrpTeam (scope : BitVec 3) (op : BitVec 1) (tout : BitVec 4) : Statement (.cgrpTeam scope op tout) := by
  intro w h hw
  cases h
  refine decode_packC _ _ ?_ hw
  · refine (if_neg ?_).trans ((if_pos ?_).trans ?_) <;> first | (simp [immCgrpTeam tout op scope]; done) | (simp only [immCgrpTeam tout op scope]; decide) | simp only [immCgrpTeam tout op scope]
theorem cbr (t : BitVec 10) (k : BitVec 3) : Statement (.cbr t k) := by
  intro w h hw
  cases h
  refine decode_packC _ _ ?_ hw
  · refine (if_pos ?_).trans ?_ <;> first | (simp [immCbr k t]; done) | (simp only [immCbr k t]; decide) | simp only [immCbr k t]
theorem cbrWait (t : BitVec 10) : Statement (.cbrWait t) := by
  intro w h hw
  cases h
  refine decode_packC _ _ ?_ hw
  · refine (if_neg ?_).trans ((if_pos ?_).trans ?_) <;> first | (simp [immCbrWait t]; done) | (simp only [immCbrWait t]; decide) | simp only [immCbrWait t]
theorem reconf (x : Code7) (n : BitVec 10) : Statement (.reconf x n) := by
  intro w h hw
  cases h
  refine decode_packC _ _ ?_ hw
  · refine (if_pos ?_).trans ?_ <;> first | (simp [immReconf n]; done) | (simp only [immReconf n]; decide) | simp only [immReconf n]
theorem trap (code : BitVec 18) : Statement (.trap code) := by
  intro w h hw
  cases h
  refine decode_packC _ _ ?_ hw
  first
  | rfl
  | refine (if_pos ?_).trans ?_ <;> simp (disch := decide) [extract_append_high, extract_append_low, extract_self] <;> done
  | refine (if_neg ?_).trans ((if_pos ?_).trans ?_) <;> simp (disch := decide) [extract_append_high, extract_append_low, extract_self]
theorem svc (x : Code7) (n : BitVec 8) : Statement (.svc x n) := by
  intro w h hw
  cases h
  refine decode_packC _ _ ?_ hw
  · refine (if_pos ?_).trans ?_ <;> first | (simp [immSvc n]; done) | (simp only [immSvc n]; decide) | simp only [immSvc n]
theorem ntfy (x : Code7) (code : BitVec 16) : Statement (.ntfy x code) := by
  intro w h hw
  cases h
  refine decode_packC _ _ ?_ hw
  · refine (if_pos ?_).trans ?_ <;> first | (simp [immNtfy code]; done) | (simp only [immNtfy code]; decide) | simp only [immNtfy code]
theorem bundleIssue : Statement (.bundleIssue) := by
  intro w h
  cases h
theorem dictionaryFill : Statement (.dictionaryFill) := by
  intro w h
  cases h
theorem resultLanding : Statement (.resultLanding) := by
  intro w h
  cases h
theorem trapEntry : Statement (.trapEntry) := by
  intro w h
  cases h
theorem maxrunExceeded : Statement (.maxrunExceeded) := by
  intro w h
  cases h
theorem nop : Statement (.nop) := by
  intro w h hw
  cases h
  exact decode_packAB _ _ rfl hw
theorem nopL : Statement (.nopL) := by
  intro w h hw
  cases h
  refine decode_packLA _ _ ?_ hw ?_
  · rfl
  · simp
theorem ldhReply : Statement (.ldhReply) := by
  intro w h
  cases h
theorem accessPerform : Statement (.accessPerform) := by
  intro w h
  cases h
theorem refusal : Statement (.refusal) := by
  intro w h
  cases h
theorem refusalRetry : Statement (.refusalRetry) := by
  intro w h
  cases h
theorem forwardingPointer : Statement (.forwardingPointer) := by
  intro w h
  cases h
theorem nopV : Statement (.nopV) := by
  intro w h hw
  cases h
  exact decode_packV _ _ rfl hw
theorem nopM : Statement (.nopM) := by
  intro w h hw
  cases h
  refine decode_packM _ _ ?_ hw
  first
  | rfl
  | refine (if_pos ?_).trans ?_ <;> simp (disch := decide) [extract_append_high, extract_append_low, extract_self] <;> done
  | refine (if_neg ?_).trans ((if_pos ?_).trans ?_) <;> simp (disch := decide) [extract_append_high, extract_append_low, extract_self]
theorem mwaitAll : Statement (.mwaitAll) := by
  intro w h hw
  cases h
  refine decode_packM _ _ ?_ hw
  first
  | rfl
  | refine (if_pos ?_).trans ?_ <;> simp (disch := decide) [extract_append_high, extract_append_low, extract_self] <;> done
  | refine (if_neg ?_).trans ((if_pos ?_).trans ?_) <;> simp (disch := decide) [extract_append_high, extract_append_low, extract_self]
theorem commandIssue : Statement (.commandIssue) := by
  intro w h
  cases h
theorem commandComplete : Statement (.commandComplete) := by
  intro w h
  cases h
theorem nopS : Statement (.nopS) := by
  intro w h hw
  cases h
  exact decode_packS _ _ rfl hw
theorem nopC : Statement (.nopC) := by
  intro w h hw
  cases h
  refine decode_packC _ _ ?_ hw
  first
  | rfl
  | refine (if_pos ?_).trans ?_ <;> simp (disch := decide) [extract_append_high, extract_append_low, extract_self] <;> done
  | refine (if_neg ?_).trans ((if_pos ?_).trans ?_) <;> simp (disch := decide) [extract_append_high, extract_append_low, extract_self]
theorem copyEntryStart : Statement (.copyEntryStart) := by
  intro w h
  cases h
theorem copyRowDelivery : Statement (.copyRowDelivery) := by
  intro w h
  cases h
theorem windowRowDelivery : Statement (.windowRowDelivery) := by
  intro w h
  cases h
theorem windowRowStore : Statement (.windowRowStore) := by
  intro w h
  cases h
theorem link : Statement (.link) := by
  intro w h hw
  cases h
  refine decode_packC _ _ ?_ hw
  first
  | rfl
  | refine (if_pos ?_).trans ?_ <;> simp (disch := decide) [extract_append_high, extract_append_low, extract_self] <;> done
  | refine (if_neg ?_).trans ((if_pos ?_).trans ?_) <;> simp (disch := decide) [extract_append_high, extract_append_low, extract_self]
theorem barrierRelease : Statement (.barrierRelease) := by
  intro w h
  cases h
theorem remoteRequest : Statement (.remoteRequest) := by
  intro w h
  cases h
theorem putAck : Statement (.putAck) := by
  intro w h
  cases h
theorem getData : Statement (.getData) := by
  intro w h
  cases h
theorem ramoResult : Statement (.ramoResult) := by
  intro w h
  cases h
theorem lbMessage : Statement (.lbMessage) := by
  intro w h
  cases h
theorem cbrOutcome : Statement (.cbrOutcome) := by
  intro w h
  cases h
theorem collectiveTimeout : Statement (.collectiveTimeout) := by
  intro w h
  cases h
theorem reconfMeet : Statement (.reconfMeet) := by
  intro w h
  cases h
theorem crossconnectConfirm : Statement (.crossconnectConfirm) := by
  intro w h
  cases h
theorem reconfTimeout : Statement (.reconfTimeout) := by
  intro w h
  cases h
theorem tgack : Statement (.tgack) := by
  intro w h hw
  cases h
  refine decode_packC _ _ ?_ hw
  first
  | rfl
  | refine (if_pos ?_).trans ?_ <;> simp (disch := decide) [extract_append_high, extract_append_low, extract_self] <;> done
  | refine (if_neg ?_).trans ((if_pos ?_).trans ?_) <;> simp (disch := decide) [extract_append_high, extract_append_low, extract_self]
theorem tret : Statement (.tret) := by
  intro w h hw
  cases h
  refine decode_packC _ _ ?_ hw
  first
  | rfl
  | refine (if_pos ?_).trans ?_ <;> simp (disch := decide) [extract_append_high, extract_append_low, extract_self] <;> done
  | refine (if_neg ?_).trans ((if_pos ?_).trans ?_) <;> simp (disch := decide) [extract_append_high, extract_append_low, extract_self]
theorem tlbWalkComplete : Statement (.tlbWalkComplete) := by
  intro w h
  cases h
theorem faultAnswer : Statement (.faultAnswer) := by
  intro w h
  cases h
theorem dispatchChoice : Statement (.dispatchChoice) := by
  intro w h
  cases h
theorem preemptWithdraw : Statement (.preemptWithdraw) := by
  intro w h
  cases h
theorem scrubDone : Statement (.scrubDone) := by
  intro w h
  cases h
theorem coreScrub : Statement (.coreScrub) := by
  intro w h
  cases h
theorem gangStart : Statement (.gangStart) := by
  intro w h
  cases h
theorem preemptionSave : Statement (.preemptionSave) := by
  intro w h
  cases h
theorem restore : Statement (.restore) := by
  intro w h
  cases h
theorem trackingPeriod : Statement (.trackingPeriod) := by
  intro w h
  cases h
theorem migrationSwitch : Statement (.migrationSwitch) := by
  intro w h
  cases h
theorem rowExchange : Statement (.rowExchange) := by
  intro w h
  cases h
theorem flitReceive : Statement (.flitReceive) := by
  intro w h
  cases h
theorem negativeAcknowledgement : Statement (.negativeAcknowledgement) := by
  intro w h
  cases h
theorem ackTimeout : Statement (.ackTimeout) := by
  intro w h
  cases h
theorem linkRetrain : Statement (.linkRetrain) := by
  intro w h
  cases h
theorem linkTrainComplete : Statement (.linkTrainComplete) := by
  intro w h
  cases h
theorem laneRepair : Statement (.laneRepair) := by
  intro w h
  cases h
theorem ptbTimeMessage : Statement (.ptbTimeMessage) := by
  intro w h
  cases h
theorem ptbMessageReceive : Statement (.ptbMessageReceive) := by
  intro w h
  cases h
theorem ptbParentLoss : Statement (.ptbParentLoss) := by
  intro w h
  cases h
theorem launch : Statement (.launch) := by
  intro w h
  cases h
theorem gang : Statement (.gang) := by
  intro w h
  cases h
theorem mwrite : Statement (.mwrite) := by
  intro w h
  cases h
theorem mwriteAck : Statement (.mwriteAck) := by
  intro w h
  cases h
theorem mread : Statement (.mread) := by
  intro w h
  cases h
theorem mreadReply : Statement (.mreadReply) := by
  intro w h
  cases h
theorem hostAccessTimeout : Statement (.hostAccessTimeout) := by
  intro w h
  cases h
theorem map : Statement (.map) := by
  intro w h
  cases h
theorem unmap : Statement (.unmap) := by
  intro w h
  cases h
theorem health : Statement (.health) := by
  intro w h
  cases h
theorem attest : Statement (.attest) := by
  intro w h
  cases h
theorem attestCert : Statement (.attestCert) := by
  intro w h
  cases h
theorem tkey : Statement (.tkey) := by
  intro w h
  cases h
theorem coldStart : Statement (.coldStart) := by
  intro w h
  cases h
theorem warmStart : Statement (.warmStart) := by
  intro w h
  cases h
theorem powerLimit : Statement (.powerLimit) := by
  intro w h
  cases h
theorem dieThrottle : Statement (.dieThrottle) := by
  intro w h
  cases h
theorem hbmRefreshDouble : Statement (.hbmRefreshDouble) := by
  intro w h
  cases h
theorem hbmThrottle : Statement (.hbmThrottle) := by
  intro w h
  cases h
theorem thermalTrip : Statement (.thermalTrip) := by
  intro w h
  cases h
theorem coreError : Statement (.coreError) := by
  intro w h
  cases h
theorem dieThrottleRelease : Statement (.dieThrottleRelease) := by
  intro w h
  cases h
theorem hbmThrottleRelease : Statement (.hbmThrottleRelease) := by
  intro w h
  cases h
theorem svcAnswer : Statement (.svcAnswer) := by
  intro w h
  cases h
theorem rehashWalk : Statement (.rehashWalk) := by
  intro w h
  cases h
theorem regionDescriptor : Statement (.regionDescriptor) := by
  intro w h
  cases h
theorem routerAdvertisement : Statement (.routerAdvertisement) := by
  intro w h
  cases h
theorem addressLifetimeExpiry : Statement (.addressLifetimeExpiry) := by
  intro w h
  cases h
theorem icmpv6Request : Statement (.icmpv6Request) := by
  intro w h
  cases h
theorem correctedError : Statement (.correctedError) := by
  intro w h
  cases h
theorem refreshWindow : Statement (.refreshWindow) := by
  intro w h
  cases h

end Sys2Proof.Laws.RoundTrip
end

