-- ==== Sys2Proof/Tests/Slice0.lean ====
section
/-! SUPPORT. The model's own tests: slot words written out from the spec's encodings, one ill-formed term for each check of WellFormed, a few
single steps, and for every obligation a state and operands that meet its hypotheses. Expected values come from the spec's tables or by hand. -/

/- Each kernel check waits for the ones before it; elaborating the tests one after another keeps the waiting threads' stacks from adding up. -/
set_option Elab.async false

namespace Sys2Proof.Tests
open Sys2Proof.Machine

/-! ## Slot words written out from the fields of the spec's tables -/

/-- Table 07.17: addi, d = 5, x = 3, imm = 7: 0000 0000101 0000111 0000011 0011010. -/
theorem test_decode_addi : decodeTableWord 32 0b00000000101000011100000110011010 = some (.addi 5 3 7) := by decide +kernel
/-- Table 07.12: opcode 7 in the low seven bits of a slot A word, sel in the top four. -/
theorem test_decode_lea : decodeSlot (.ab 0b01010011111110000100111000100000) = some (.lea 0x1F 0x1C 0x61 5) := by decide +kernel
theorem test_decode_ldi : decodeSlot (.ab 0x3440201F) = some (.ldi 0x22 0 0x40 3) := by decide +kernel
theorem test_decode_fdiv : decodeSlot (.ab 0x03E78FAD) = some (.fdiv 0x1F 0x1F 0x1E) := by decide +kernel
theorem test_decode_amoAdd : decodeSlot (.l 0x00C4307315) = some (.amoAdd 6 3 7 0 3) := by decide +kernel
theorem test_decode_ldhW : decodeSlot (.l 0x208088A111) = some (.ldhW 0x11 1 0x0A 0x820) := by decide +kernel
theorem test_decode_xlat : decodeSlot (.l 0x000002810E) = some (.xlat 1 0x28 0) := by decide +kernel
theorem test_decode_vfma : decodeSlot (.v 0x03A218118404) = some (.vfma 0 0x184 0x181 0x3A2 0) := by decide +kernel
theorem test_decode_vfmas : decodeSlot (.v 0x10090060058C) = some (.vfmas 1 5 6 9 1) := by decide +kernel
theorem test_decode_vcmpLt : decodeSlot (.v 0x01020020011B) = some (.vcmpLt 0 0x10 1 2 0) := by decide +kernel
theorem test_decode_vmov : decodeSlot (.v 0x0000001022A1) = some (.vmov 0x022 1 1) := by decide +kernel
theorem test_decode_vadds : decodeSlot (.v 0x00090430430A) = some (.vadds 0 0x43 0x43 9 0) := by decide +kernel
theorem test_decode_mma : decodeSlot (.m 0x000013321001) = some (.mmaS 2 0 1 3 3 1 0 0 0 0 0 0) := by decide +kernel
theorem test_decode_mma_mx : decodeSlot (.m 0x000023324001) = some (.mmaS 2 0 4 3 3 0 1 0 0 0 0 0) := by decide +kernel
theorem test_decode_chblk : decodeSlot (.m 0x00010330320C) = some (.chblk 1 2 3 0 3 3) := by decide +kernel
theorem test_decode_zalloc : decodeSlot (.m 0x3FFF80030006) = some (.zalloc 3 0x7F 0x7F 1) := by decide +kernel
theorem test_decode_loopi : decodeSlot (.c 0x000A000820) = some (.loopi 8 0 40) := by decide +kernel
theorem test_decode_ploop : decodeSlot (.c 0x4800800A21) = some (.ploop 10 2 2 2) := by decide +kernel
theorem test_decode_cpy : decodeSlot (.c 0x0002400301) = some (.cpy 1 3 4 0 0) := by decide +kernel
theorem test_decode_put : decodeSlot (.c 0x0000000C2D) = some (.put 12) := by decide +kernel
theorem test_decode_lbsend : decodeSlot (.c 0x00B4C01431) = some (.lbsend 3 20 5 5) := by decide +kernel
theorem test_decode_cbr : decodeSlot (.c 0x010A000034) = some (.cbr 40 1) := by decide +kernel
theorem test_decode_tspawn : decodeSlot (.c 0x0000058A27) = some (.tspawn 10 11) := by decide +kernel
theorem test_decode_ntfy : decodeSlot (.c 0x0048C0093A) = some (.ntfy 9 0x123) := by decide +kernel
theorem test_decode_scl : decodeSlot (.s 0x0041) = some (.scl 0 0 4) ∧ decodeSlot (.s 0x4051) = some (.scl 1 0 5) := by decide +kernel
/-- R89, R90: a reserved opcode and a reserved field other than 0 decode to nothing. -/
theorem test_decode_reserved : decodeSlot (.ab 0x0000007F) = none ∧ decodeSlot (.c 0x8000000036) = none ∧ decodeTableWord 32 0x10004024 = none := by
  decide +kernel

/-! ## WellFormed: for each check an ill-formed term, which it refuses (R130, Table 07.23) -/

theorem test_wf_operand_code : (Instr.add 5 0x67 3).wf = false ∧ (Instr.add 5 0x6F 0x66).wf = true := by decide
theorem test_wf_destination_code : (Instr.add 0x48 3 3).wf = false ∧ (Instr.add 0x7F 3 3).wf = true := by decide
theorem test_wf_shift : (Instr.shli 1 2 64).wf = false ∧ (Instr.shli 1 2 63).wf = true := by decide
theorem test_wf_ldi : (Instr.ldi 1 0 0 5).wf = false ∧ (Instr.lea 1 2 3 7).wf = false := by decide
theorem test_wf_target : (Instr.sett 7 0).wf = false ∧ (Instr.rdt 0 7).wf = false ∧ (Instr.setti 7 0).wf = false := by decide
theorem test_wf_sReg : (Instr.ldhW 0x40 0 0 0).wf = false ∧ (Instr.ldhW 0x3F 0 0 0).wf = true := by decide
theorem test_wf_scope : (Instr.amoAdd 1 0 0 0 0).wf = false ∧ (Instr.amoAdd 1 0 0 0 6).wf = false ∧ (Instr.drain 1).wf = true := by decide
theorem test_wf_fence_scope : (Instr.fenceAcq 1).wf = false ∧ (Instr.fenceRel 1).wf = false := by decide
theorem test_wf_amo_fadd : (Instr.amoFadd 1 0 0 1 1).wf = false ∧ (Instr.amoc 63 0 0 0 1).wf = false := by decide
theorem test_wf_partSpec : (Instr.ldmr 0x060 0 0).wf = false ∧ (Instr.vexp2 0x060 0 0).wf = false := by decide
theorem test_wf_specOk : (Instr.vzero 0x0E0 0).wf = false ∧ (Instr.vzero 0x060 0).wf = true := by decide
theorem test_wf_movOk : (Instr.vmov 0x060 0 0).wf = false ∧ (Instr.vmov 0x060 0x061 0).wf = true := by decide
theorem test_wf_rowSpec : (Instr.vmacw 1 0x020 0 0 0).wf = false ∧ (Instr.vnar 8 0 0x020 0 0).wf = false := by decide
theorem test_wf_vector_type : (Instr.vadd 3 0 0 0 0).wf = false ∧ (Instr.vshl 0 0 0 0 0).wf = false ∧ (Instr.viota 1 0 0).wf = false := by decide
theorem test_wf_cvtOk : (Instr.vcvt 1 0 0 2 0 0).wf = false ∧ (Instr.vcvt 1 0 0 0 2 0).wf = false ∧ (Instr.vcvt 1 0 0 0 1 0).wf = true := by decide
theorem test_wf_flag_base : (Instr.vcmpEq 0 249 0 0 0).wf = false ∧ (Instr.vcmpEq 0 248 0 0 0).wf = true := by decide
theorem test_wf_vbcast_vslide : (Instr.vbcast 0 0 0 32 0).wf = false ∧ (Instr.vslide 0 0 0 0x100 0).wf = false := by decide
theorem test_wf_pairOk : (Instr.mmaS 0 0 0 1 2 0 0 0 0 0 0 0).wf = false ∧ (Instr.mmaV 0 0 0 12 12 0 0 0 0 0 0 0).wf = false := by decide
theorem test_wf_sclOk : (Instr.mmaS 0 0 0 3 3 0 0 0 0 1 0 0).wf = false ∧ (Instr.mmaS 0 0 0 3 3 0 1 0 0 0 1 0).wf = false := by decide
theorem test_wf_chains : (Instr.chbeg 0 0 0 0 0 0 0).wf = false ∧ (Instr.chblk 0 0 0 0 6 1).wf = false ∧ (Instr.chmrg 1 1).wf = false := by decide
theorem test_wf_cpy : (Instr.cpy 0 0 0 0 0).wf = false ∧ (Instr.cpy 0 0 1 0 1).wf = false ∧ (Instr.cpy 0 0 1 1 1).wf = true := by decide
theorem test_wf_buffers : (Instr.bgive 0 0 0).wf = false ∧ (Instr.btake 0 96 0).wf = false ∧ (Instr.bopen 96 0 0).wf = false := by decide
theorem test_wf_sbind : (Instr.sbind 0 1 0 1 0 0).wf = false ∧ (Instr.sbindWindow 0 1 0 1 0).wf = false := by decide
theorem test_wf_loops : (Instr.loop 0 0).wf = false ∧ (Instr.loopi 0 0 1).wf = false ∧ (Instr.ploop 0 1 1 2).wf = false ∧
    (Instr.lexit 0).wf = false ∧ (Instr.lexit 7).wf = false := by decide
theorem test_wf_tasks : (Instr.tspawnG 0 0 0).wf = false ∧ (Instr.lbsend 0 0 6 0).wf = false ∧ (Instr.cbr 1015 0).wf = false ∧
    (Instr.cbr 0 5).wf = false ∧ (Instr.cbrWait 1015).wf = false ∧ (Instr.reconf 0 1016).wf = false := by decide

/-! ## States for single steps and for the hypotheses of the obligations -/

/-- Every memory of a state is in canonical form, as a computation. -/
def memOkB (s : State) : Bool :=
  Memory.wf s.hbm && Memory.wf s.vault && (List.finRange 4).all fun d => (List.finRange 16).all fun c =>
    Memory.wf (s.core ⟨d, c⟩).store && Memory.wf ((s.die d).lbs[c.val]).bytes
theorem memOk_of (s : State) (h : memOkB s = true) : s.memOk := by
  simp only [memOkB, Bool.and_eq_true, List.all_eq_true] at h
  exact ⟨h.1.1, h.1.2, fun c => (h.2 c.die (List.mem_finRange _) c.core (List.mem_finRange _)).1,
    fun d n => (h.2 d (List.mem_finRange _) n (List.mem_finRange _)).2⟩

/-- A context of tenant 1 running addi 5 3 7 from page 0x10000. -/
def base : State := State.reset.withFetchWord 32 0x00A1C19A
/-- The context that runs. -/
def c0 : CtxId := CtxId.zero
/-- Its core. -/
def k0 : CoreId := ⟨0, 0⟩
/-- Set S registers of the running context. -/
def regs (l : List (Fin 64 × W64)) (s : State) : State := s.modArch c0 fun a => l.foldl (fun a p => a.wrPhys p.1 p.2) a
/-- Change the running context. -/
def onCtx (f : Ctx → Ctx) (s : State) : State := s.modCtx c0 f
/-- Change its core. -/
def onCore (f : Core → Core) (s : State) : State := s.modCore k0 f
/-- Put bytes into its core store. -/
def put (a : Nat) (l : List Byte) (s : State) : State := csWrite k0 a l s
/-- The context is on the speculative path of round 7. -/
def onPath (s : State) : State := onCtx (fun x => { x with spec := some ⟨x.arch, [], 7, 40, 1, [], [], 0, [], 0, 0, none⟩ }) s
/-- Handle 2 names a 64 KiB page of HBM with the permissions given. -/
def hnd (v r w x : Bool) (space : BitVec 2) (s : State) : State :=
  onCtx (fun y => { y with h := y.h.set 2 ⟨v, 0, r, w, x, 0, space, 5, 0x50000⟩ }) s
/-- Event arguments for the running context. -/
def argC : EvArg := argCtx c0

/-! ## Single steps -/

/-- R148: addi adds its sign-extended immediate; the result lands one cycle later (R139). -/
theorem test_step_addi : (match step (regs [(3, 5)] base) with
    | .next t => ((t.ctx c0).flights.map (·.act) == [.sreg 5 12]) && (t.arch c0).pc == 25
    | _ => false) = true := by decide +kernel
/-- R149: a division by zero gives all ones. -/
theorem test_div_zero : (match exec (.div 5 3 4) (regs [(3, 9)] base) with
    | .next t => (t.ctx c0).flights.map (·.act) == [.sreg 5 0xFFFFFFFFFFFFFFFF]
    | _ => false) = true := by decide +kernel
/-- R150: 1.5 + 2.25 = 3.75 in F32. -/
theorem test_fadd : (match exec (.fadd 5 3 4) (regs [(3, 0x3FC00000), (4, 0x40100000)] base) with
    | .next t => (t.ctx c0).flights.map (·.act) == [.sreg 5 0x40700000]
    | _ => false) = true := by decide +kernel
/-- R206: a load from past the end of the core store raises PERMISSION with its address. -/
theorem test_ld_permission : (match exec (.ldW 5 3 0) (regs [(3, 0x600000)] base) with
    | .next t => (t.ctx c0).trap == some ⟨⟨0x11, 0x600000⟩, 0, 2, 0⟩
    | _ => false) = true := by decide +kernel
/-- R207: st.w writes four little-endian bytes at its address aligned down. -/
theorem test_st_bytes : (match exec (.stW 3 4 2) (regs [(3, 0x11223344), (4, 0x100)] base) with
    | .next t => rdCells (t.core k0).store 0x100 5 == [0x44, 0x33, 0x22, 0x11, 0]
    | _ => false) = true := by decide +kernel

/-! ## A state and operands for the hypotheses of each obligation -/

theorem witness_IntegerResults : intSpec (readOp base c0) (.addi 5 3 7) = some (1, 5, [3], 7) ∧ ready base [3] [] (some 5) false = true := by
  decide +kernel
theorem witness_DivisionResults : ready (regs [(3, 0x8000000000000000), (4, 0xFFFFFFFFFFFFFFFF)] base) [3, 4] [] (some 5) false = true ∧
    readOp (regs [(3, 0x8000000000000000), (4, 0xFFFFFFFFFFFFFFFF)] base) c0 3 = BitVec.intMin 64 := by decide +kernel
theorem witness_FloatResults : floatSpec (readOp base c0) (.fsqrt 5 3) = some (14, 5, [3], 0) ∧ ready base [3] [] (some 5) false = true := by
  decide +kernel
theorem witness_SystemRegisters : (6 : BitVec 4).toNat ≤ 6 ∧ ready base [3] [] none false = true ∧ ready base [] [] (some 5) false = true ∧
    31 < (32 : BitVec 7).toNat := by decide +kernel
/-- The last word of the core store. -/
theorem witness_LoadResults : let s := regs [(4, 0x5FFFFF)] base
    loadSpec (.ldD 5 4 0) = some (8, false, 5, 4, 0) ∧ ready s [4] [] (some 5) false = true ∧ homeAddr s (eaOf s 4 0) = true ∧
    readsFree s 0x5FFFF8 8 = true := by decide +kernel
/-- Just past the end of the core store, and its last byte in a buffer given away. -/
theorem witness_CoreStoreChecks : let s := regs [(4, 0x600000)] base
    let t := onCore (fun k => { k with own := k.own.set 95 (.held 1) }) (regs [(4, 0x5FFFFF)] base)
    ((Instr.stB 3 4 0).wf = true ∧ accessOf s (.stB 3 4 0) = some (0x600000, 0x600000, 1, [4, 3], [], none) ∧
      ready s [4, 3] [] none false = true ∧ readsFree s 0x600000 1 = true ∧ busyAny (s.core k0) 0x600000 1 = false ∧ committed s c0 = false) ∧
    (accessOf t (.stB 3 4 0) = some (0x5FFFFF, 0x5FFFFF, 1, [4, 3], [], none) ∧ ready t [4, 3] [] none false = true ∧
      readsFree t 0x5FFFFF 1 = true ∧ busyAny (t.core k0) 0x5FFFFF 1 = false ∧ committed t c0 = false ∧
      (t.core k0).own[(0x5FFFFF : Nat) / 0x10000]? ≠ some .home) := by
  dsimp only
  and_intros <;> first | decide +kernel | rfl
theorem witness_StoreBytes : let s := regs [(4, 0x5FFFFF)] base
    (storeSpec (.stD 3 4 0) = some (8, 3, 4, 0) ∧ (s.ctx c0).spec = none ∧ ready s [4, 3] [] none false = true ∧
      homeAddr s (eaOf s 4 0) = true ∧ busyAny (s.core k0) 0x5FFFF8 8 = false) ∧ s.memOk :=
  ⟨by decide +kernel, memOk_of _ (by decide +kernel)⟩
theorem witness_SliceMoves : let s := regs [(4, 0x5FFF80)] base
    (homeAddr s (readOp s c0 4 + 128 * (0 : BitVec 13).setWidth 64) = true ∧ ready s [4] [] none false = true ∧ readsFree s 0x5FFF80 128 = true ∧
      partSpec 0x01F = true ∧ (s.ctx c0).spec = none ∧ ready s [4] [specReg 0x01F] none false = true ∧
      busyAny (s.core k0) 0x5FFF80 128 = false) ∧ s.memOk := ⟨by decide +kernel, memOk_of _ (by decide +kernel)⟩
/-- The last word of the page of handle 2. -/
theorem witness_HandleAccesses : let s := hnd true true true false 0 (regs [(4, 0xFFFC)] base)
    handleSpec (readOp s c0) (.amoAdd 5 2 4 0 4) = some ([4, 5], some 5, 2, readOp s c0 4, 4, .atomic, .amo 1 (readOp s c0 5)) ∧ readOp s c0 4 = 0xFFFC ∧ ready s [4, 5] [] (some 5) true = true ∧
    loadsOut s c0 < 16 ∧ handleCheck s c0 2 0xFFFC 4 .atomic = none := by
  dsimp only
  and_intros <;> first | decide +kernel | rfl
/-- One state for each check: an invalid handle, the first offset past the page, no R, X set, and an atomic toward the host. -/
theorem witness_HandleChecks : let s (v r w x : Bool) (sp : BitVec 2) (o : W64) := hnd v r w x sp (regs [(4, o)] base)
    (ready (s false true true false 0 0) [4] [] (some 5) true = true ∧ loadsOut (s false true true false 0 0) c0 < 16 ∧
      committed (s false true true false 0 0) c0 = false ∧ (((s false true true false 0 0).ctx c0).h[2]).valid = false) ∧
    (∀ r : Code7 → W64, handleSpec r (.ldhW 5 2 4 0) = some ([4], some 5, 2, r 4 + (0 : BitVec 14).signExtend 64 * 8, 4, .load, .load)) ∧
    (∀ r : Code7 → W64, handleSpec r (.sthW 5 2 4 0) = some ([4, 5], none, 2, r 4 + (0 : BitVec 14).signExtend 64 * 8, 4, .store, .store (r 5))) ∧
    (∀ r : Code7 → W64, handleSpec r (.amoAdd 5 2 4 1 4) = some ([4, 5], some 5, 2, r 4, 8, .atomic, .amo 1 (r 5))) ∧
    (((s true true true false 0 0x10000).ctx c0).h[2]).bytes ≤ (readOp (s true true true false 0 0x10000) c0 4).toNat ∧
    ((readOp (s true false true false 0 0xFFFC) c0 4).toNat < (((s true false true false 0 0xFFFC).ctx c0).h[2]).bytes ∧
      (((s true false true false 0 0xFFFC).ctx c0).h[2]).r = false) ∧
    (((s true true true true 0 0).ctx c0).h[2]).x = true ∧ (((s true true true false 2 0).ctx c0).h[2]).space = 2 := by
  dsimp only
  and_intros <;> first | decide +kernel | exact fun _ => rfl
/-- The page of handle 2 is a region of 128 by 256 elements of 8 bytes: a word there is no whole element. -/
theorem witness_HandleChecks_region :
    let g : BitVec 256 := BitVec.ofNat 256 (0x50000 + 128 * 2 ^ 64 + 256 * 2 ^ 96 + 3 * 2 ^ 128)
    let t := hnd true true true false 0 (regs [(4, 0x100)] base)
    let s : State := { t with hbmStacks := t.hbmStacks.set 0 { Stack.reset with regions := [g] } }
    let hd := (s.ctx c0).h[2]
    (hd.valid = true ∧ (readOp s c0 4).toNat < hd.bytes ∧ hd.r = true ∧ hd.w = true ∧ hd.x = false ∧ hd.space = 0) ∧
    regionOf s (hd.dpa + alignDown (readOp s c0 4).toNat 4) = some g ∧ 4 % regE g ≠ 0 ∧
    (((hnd true true false false 0 base).ctx c0).h[2]).w = false ∧ ready s [4, 5] [] none true = true ∧ ready s [4, 5] [] (some 5) true = true ∧
    committed s c0 = false ∧ loadsOut s c0 < 16 := by
  dsimp only
  and_intros <;> first | decide +kernel | rfl
theorem witness_HandleInstructions : let s := regs [(4, 0x10000)] base
    let t := hnd true true true false 0 (regs [(4, 0xFFFF)] base)
    let va : W64 := readOp s c0 4 + (0 : BitVec 14).signExtend 64 * 8
    (ready s [4] [] none true = true ∧ va.toNat < 2 ^ 48 ∧ (tlbLook s k0 (s.ctx c0).b.tenant va).isSome = true ∧ ready s [] [] none true = true ∧
      ready s [] [] (some 5) true = true ∧ ready s [4] [] none false = true) ∧
    (let hd := (t.ctx c0).h[2]; (hd.valid && hd.r && hd.space == 0#2 && decide (0xFFFF < hd.bytes)) = true) ∧
    (let hd := (s.ctx c0).h[2]; (hd.valid && hd.r && hd.space == 0#2 && decide (va.toNat < hd.bytes)) = false) := by decide +kernel
theorem witness_VectorElements : (Instr.vadd 0 1 2 3 0).wf = true ∧
    (vSpec base (.vadd 0 1 2 3 0)).map (fun r => (r.srcs, r.mrds, r.lat, r.w)) = some ([], [2, 3], vLat 0, 32) ∧
    ready base [] [2, 3] none false = true := by decide +kernel
theorem witness_VectorMoves : ready base [] [specReg 2] none false = true ∧ ready base [] [specReg 1, specReg 2, specReg 3] none false = true := by
  decide +kernel
theorem witness_VectorCompares : (Instr.vcmpUn 0 248 2 3 0).wf = true ∧ cmpSpec (.vcmpUn 0 248 2 3 0) = some (6, 0, 248, 2, 3, 0) ∧
    ready base [] [specReg 2, specReg 3] none false = true := by decide +kernel
/-- An accumulator of 2 by 3 in binding 1, none in binding 0. -/
def bound1 : State := onCtx (fun x => { x with z := x.z.set 1 (some ⟨2, 3, false, false, [], []⟩) }) base
theorem witness_AccumulatorMoves : (∀ j < 32, elemInFlight bound1 c0 1 false 0 j = false) ∧ (bound1.ctx c0).spec = none ∧ ready bound1 [] [] none false = true ∧ bankBusy bound1 c0 1 false = false ∧ (bound1.core k0).cmds = [] ∧
    ready bound1 [] [specReg 1] none false = true ∧ tileBusy bound1 c0 0 = false ∧ (bound1.ctx c0).z[0] = none ∧ tileBusy bound1 c0 1 = false ∧
    (bound1.ctx c0).z[1] = some ⟨2, 3, false, false, [], []⟩ := by decide +kernel

/-- A tile descriptor: base, rows, columns, pitch, type. -/
def td (a r c p t : Nat) : BitVec 256 := BitVec.ofNat 256 (a + r * 2 ^ 32 + c * 2 ^ 48 + p * 2 ^ 64 + t * 2 ^ 96)
theorem witness_CommandsEnter : let s := regs [(4, 0x3F800000)] base
    cmdSpec s (.chscl 1 4) = some ([4], [], readOp s c0 4, []) ∧ ready s [4] [] none false = true ∧ (s.ctx c0).spec = none ∧
    tableRoom c0 (.chscl 1 4) (readOp s c0 4) [] s = true := by
  dsimp only
  and_intros <;> first | decide +kernel | rfl
theorem witness_HeldOnPath : let s := onPath (regs [(4, 0x5FFFFF)] base)
    ((s.ctx c0).spec).isSome = true ∧ storeSpec (.stB 3 4 0) = some (1, 3, 4, 0) ∧ ready s [4, 3] [] none false = true ∧
    homeAddr s (eaOf s 4 0) = true ∧ busyAny (s.core k0) 0x5FFFFF 1 = false ∧ cmdSpec s (.chend 1) = some ([], [], 0, []) ∧
    ready s [] [] none false = true ∧
    (partSpec 0x01F = true ∧ ready s [4] [specReg 0x01F] none false = true ∧
      homeAddr s (readOp s c0 4 + 128 * (0 : BitVec 13).setWidth 64) = true ∧ busyAny (s.core k0) 0x5FFF80 128 = false) ∧
    (busyAny (s.core k0) (4 * 1023) 4 = false ∧ ready s [4] [] none false = true ∧ ready s [4] [] (some 5) false = true ∧
      ready s [4] [] (some 0x47) false = true ∧ acqPending s c0 = false) ∧
    ((Instr.vcmpUn 0 248 2 3 0).wf = true ∧ cmpSpec (.vcmpUn 0 248 2 3 0) = some (6, 0, 248, 2, 3, 0) ∧
      ready s [] [specReg 2, specReg 3] none false = true ∧ ready s [] [specReg 2] none false = true ∧ tileBusy s c0 1 = false) ∧
    (let p : Spec0 := ⟨s.arch c0, [], 7, 40, 1, [], [], 0, List.replicate 65 (.wait 0), 0, 256, none⟩; 256 ≤ p.n ∧ 64 < p.held.length) := by
  dsimp only
  and_intros <;> first | decide +kernel | rfl
/-- Binding 1 free, bound and dual; a tile too large for the task's save area. -/
def dual1 : State := onCtx (fun x => { x with z := x.z.set 1 (some ⟨2, 3, true, false, [], []⟩) }) base
/-- base with 32 banks of save area. -/
def roomy : State := onCtx (fun x => { x with b := { x.b with hdr := { x.b.hdr with savesz := 16384 + 4096 * 32 + 2048 * 4 } } }) base
theorem witness_AccumulatorBindings : ready roomy [] [] none true = true ∧ (roomy.ctx c0).z[1] = none ∧
    banksUsed (roomy.core k0) + tileBanks 2 4 false ≤ 512 ∧ banksHeld (roomy.ctx c0) + tileBanks 2 4 false ≤ saveBanks (roomy.ctx c0) ∧
    committed roomy c0 = false ∧ ¬ banksHeld (roomy.ctx c0) + tileBanks 128 256 true ≤ saveBanks (roomy.ctx c0) ∧
    (bound1.ctx c0).z[1] = some ⟨2, 3, false, false, [], []⟩ ∧ zWaits bound1 c0 1 = false ∧
    (dual1.ctx c0).z[1] = some ⟨2, 3, true, false, [], []⟩ ∧ zWaits dual1 c0 1 = false := by decide +kernel
theorem witness_CommandWaits : let s := onCtx (fun x => { x with cmdErr := some ⟨0x06, 9⟩ }) base
    ready base [] [] none true = true ∧ namesZ base c0 1 = false ∧ (base.ctx c0).z[1] = none ∧ (base.core k0).cmds = [] ∧ (base.ctx c0).cmdErr = none ∧
    ready s [] [] none true = true ∧ namesZ s c0 1 = false ∧ (s.core k0).cmds = [] ∧ (s.ctx c0).cmdErr = some ⟨0x06, 9⟩ := by decide +kernel
theorem witness_ScaleLoads : ready base [] [(31 : BitVec 5).toNat] none false = true := by decide +kernel
/-- Channel 1 with a stored error. -/
def chErr : State := onCore (fun k => { k with chans := k.chans.set 1 { Chan.idle with err := some ⟨0x06, 64⟩, wp := 8 } }) base
/-- Channel 1 with 8 bytes delivered. -/
def chWp : State := onCore (fun k => { k with chans := k.chans.set 1 { Chan.idle with wp := 8 } }) (regs [(4, 8), (6, 9)] base)
theorem witness_CopyCommands : (ready base [4] [] none true = true ∧ chanBusy base c0 1 = false ∧
      tableRoom c0 (.cpy 1 4 2 1 3) (readOp base c0 4) [] base = true ∧ ready base [] [] (some 5) true = true ∧ ready base [] [] none true = true) ∧
    ((chanOf chWp c0 1).err = none ∧ (readOp chWp c0 4).toNat ≤ (chanOf chWp c0 1).wp.toNat ∧
      (chanOf chWp c0 1).wp.toNat < (readOp chWp c0 6).toNat ∧ ready chWp [4] [] none true = true ∧ (chanOf chWp c0 1).rows = []) ∧
    (chanOf chErr c0 1).err = some ⟨0x06, 64⟩ ∧ ready chErr [4] [] none true = true ∧ ready chErr [] [] (some 5) true = true ∧
    (let r : Row := Row.start k0 0 0x500 (BitVec.ofNat 256 (0x1000 + 0x2000 * 2 ^ 64 + 2 ^ 192 + 16 * 2 ^ 208)) 0;
      let s := onCore (fun k => { k with chans := k.chans.set 1 { Chan.idle with busy := true, rows := [r] } }) base;
      let t := onCtx (fun x => { x with att := .aborting }) s;
      (chanOf s c0 1).rows ≠ [] ∧ ready s [] [] none true = true ∧ (s.ctx c0).att ≠ .aborting ∧ (chanOf t c0 1).rows ≠ [] ∧
        (t.ctx c0).att = .aborting ∧ ready t [] [] none true = true) := by decide +kernel
/-- A barrier at 0x100 with phase 0 and a ring of 4 slots at 0x200 with one slot reserved. -/
def objs : State := put 0x200 (toBytes 4 0x1000 ++ toBytes 4 64 ++ toBytes 2 4 ++ [0, 0] ++ toBytes 4 1)
  (regs [(4, 0x100), (6, 0x200), (7, 1)] base)
theorem witness_ObjectInstructions : let l := rdCells (objs.core k0).store 0x100 16
    let r := rdCells (objs.core k0).store 0x200 32
    objSpec (readOp objs c0) (.bararr 4 7) = some (readOp objs c0 4, [4, 7], none, .bararr ((readOp objs c0 7).setWidth 32)) ∧
    ready objs [4, 7] [] none true = true ∧ (objs.ctx c0).att = .none ∧
    ((readOp objs c0 4).extractLsb' 60 3 = 0 ∧ (readOp objs c0 4).extractLsb' 32 24 = 0 ∧ (readOp objs c0 4).getLsbD 63 = false ∧
      (readOp objs c0 4).extractLsb' 56 4 = 0) ∧ alignDown ((readOp objs c0 4).setWidth 32).toNat 16 = 0x100 ∧
    (objs.core k0).own[(0x100 : Nat) / 0x10000]? = some .home ∧ alignDown ((readOp objs c0 6).setWidth 32).toNat 16 = 0x200 ∧ acqPending objs c0 = false ∧ busyAny (objs.core k0) 0x100 16 = false ∧
    busyAny (objs.core k0) 0x200 32 = false ∧ (objs.ctx c0).flights = [] ∧
    objectOut.slotLanding objs c0 (objectOut.ringSlot objs c0 0x200 5) = false ∧
    objectOut.slotUsed objs c0 (.rpub 5) (fun q => objectOut.ringSlot objs c0 0x200 q) = false ∧
    objectOut.slotUsed objs c0 (.bararr 1) (fun q => objectOut.ringSlot objs c0 0x100 q) = false ∧ objStep l (.barwait 0) = .wait ∧
    objStep r (.rpub 5) = .proto ∧ (match objStep l (.bararr 1) with
      | .done _ _ _ => true
      | _ => false) = true := by
  dsimp only
  and_intros <;> first | decide +kernel | rfl
/-- References: with reserved bits, past the end of the store, in a buffer given away, through an invalid handle, one that may not be written, and a
handle of a peer's buffer; and the attempts of the handle form. -/
theorem witness_ObjectInstructions_reference :
    let s (v : W64) := regs [(4, v)] base
    let peer := onCtx (fun y => { y with h := y.h.set 2 ⟨true, 0, true, true, false, 0, 1, 0, 0x10000⟩ }) (s 0x8200000000000000)
    ((readOp (s 0x0000000100000000) c0 4).extractLsb' 32 24 ≠ 0 ∧ ready (s 0x0000000100000000) [4] [] none true = true) ∧
    0x600000 ≤ alignDown ((readOp (s 0x600000) c0 4).setWidth 32).toNat 16 ∧
    ((onCore (fun k => { k with own := k.own.set 95 (.held 1) }) (s 0x5FFFF0)).core k0).own[(0x5FFFF0 : Nat) / 0x10000]? ≠ some .home ∧
    (((s 0x8200000000000000).ctx c0).h[2]).valid = false ∧
    ((((hnd true true false false 0 (s 0x8200000000000000)).ctx c0).h[2]).w = false ∧
      (((hnd true true false false 0 (s 0x8200000000000000)).ctx c0).h[2]).valid = true) ∧
    (let hd := (peer.ctx c0).h[2]; hd.valid = true ∧ hd.space = 1 ∧ 0 < hd.bytes ∧ hd.r = true ∧ hd.w = true ∧ hd.x = false) ∧
    ready peer [4] [] none true = true ∧ (readOp peer c0 4).getLsbD 63 = true ∧ (readOp peer c0 4).extractLsb' 56 4 = 2 ∧
    (let a (x : Attempt) : State := onCtx (fun y => { y with att := x }) peer
     ((a (.sent 3)).ctx c0).att = .sent 3 ∧ ready (a (.sent 3)) [4] [] none true = true ∧ ((a (.done 5)).ctx c0).att = .done 5 ∧
      ready (a (.done 5)) [4] [] none true = true ∧ ((a (.failed ⟨0x0A, 0⟩)).ctx c0).att = .failed ⟨0x0A, 0⟩ ∧
      ready (a (.failed ⟨0x0A, 0⟩)) [4] [] none true = true) := by
  dsimp only
  and_intros <;> first | decide +kernel | rfl
/-- One ring for each case: full, with room, q outside the window, and q at its start. -/
theorem witness_ObjectRules : let r (v p q : Nat) : List Byte := (toBytes 4 0 ++ toBytes 4 64 ++ toBytes 2 4 ++ [0, 0] ++ toBytes 4 v ++ toBytes 4 p ++ toBytes 4 q ++ toBytes 8 0);
    (r 1 0 0).length = 32 ∧ (Ring.ofBytes (r 1 0 0)).nslot = 4 ∧ ((Ring.ofBytes (r 4 0 0)).resv - (Ring.ofBytes (r 4 0 0)).rel).toNat ≥ 4 ∧
    ((Ring.ofBytes (r 3 0 0)).resv - (Ring.ofBytes (r 3 0 0)).rel).toNat < 4 ∧ seqLt 1 (Ring.ofBytes (r 1 0 0)).resv = false ∧
    seqLt 0 (Ring.ofBytes (r 1 0 0)).resv = true ∧ (Ring.ofBytes (r 1 0 0)).pmask.getLsbD 0 = false ∧
    seqLt 0 (Ring.ofBytes (r 2 1 0)).pub = true ∧ seqLt 1 (Ring.ofBytes (r 2 1 0)).pub = false ∧ (Ring.ofBytes (r 2 1 0)).rmask.getLsbD 0 = false := by
  decide +kernel
theorem witness_ObjectRules_slots : (List.replicate 32 (0 : Byte)).length = 32 ∧ (Ring.ofBytes (List.replicate 32 0)).nslot = 0 := by decide +kernel
/-- A window descriptor at 0x400 that fills a ring of two slots at 0x2000 from address 0x10000. -/
def winImg : List Byte := toBytes 8 0x10000 ++ toBytes 8 64 ++ toBytes 4 4 ++ toBytes 4 32 ++ toBytes 4 0x2000 ++ toBytes 4 32 ++ toBytes 2 2 ++ List.replicate 30 0
def winS : State := put 0x400 winImg (regs [(4, 0x400)] base)
theorem witness_WindowInstructions : ready winS [4] [] none true = true ∧ ((winS.core k0).wins[7]).opn = false ∧
    homeAddr winS (readOp winS c0 4 &&& ~~~63#64) = true ∧ readsFree winS 0x400 64 = true ∧ ((winS.core k0).wins[7]).err = none ∧
    ready winS [] [] none true = true ∧ ready winS [] [] (some 5) true = true ∧ winOk (BitVec.ofNat 512 (rdLE (winS.core k0).store 0x400 64)) = true ∧
    (let s := onCore (fun k => { k with wins := k.wins.set 7 { Win.free with opn := true, err := some ⟨0x06, 64⟩ } }) winS;
      ((s.core k0).wins[7]).err = some ⟨0x06, 64⟩ ∧ ready s [4] [] none true = true ∧ ready s [] [] none true = true ∧
        ready s [] [] (some 5) true = true) := by
  decide +kernel
/-- Buffer 95 of core 0 offered to core 0 by core 1, and of core 1 offered to core 0. -/
def offered (home : Nat) : State := setOwn (peerCore c0 home) 95 (.offered 0 1) base
theorem witness_BufferInstructions : ready base [] [] none true = true ∧ (base.core k0).own[(95 : Nat)]? = some .home ∧ (inQuad c0.core).val = 0 ∧
    committed base c0 = false ∧ (base.core ⟨0, 1⟩).own[(95 : Nat)]? = some .home ∧
    ((offered 0).core k0).own[(95 : Nat)]? = some (.offered 0 1) ∧ giverBusy (offered 0) (peerCore c0 1) k0 95 = false ∧
    ((offered 1).core ⟨0, 1⟩).own[(95 : Nat)]? = some (.offered 0 1) ∧ giverBusy (offered 1) (peerCore c0 1) ⟨0, 1⟩ 95 = false := by decide +kernel
theorem witness_FlagInstructions : (ready base [4] [] none false = true ∧ (base.ctx c0).spec = none ∧ busyAny (base.core k0) (4 * 1023) 4 = false ∧
    ready base [4] [] (some 5) false = true ∧ acqPending base c0 = false ∧ ready base [4] [] none true = true ∧
    readsFree base (4 * 1023) 4 = true) ∧ base.memOk := ⟨by decide +kernel, memOk_of _ (by decide +kernel)⟩
theorem witness_StreamInstructions : ready base [4, 6] [] none true = true ∧ ready base [] [] none true = true ∧ inFlightTo (base.ctx c0) 7 = 0 ∧
    ready base [] [] (some 5) true = true := by decide +kernel
theorem witness_DescriptorInstructions : ready winS [4] [] none true = true ∧ homeAddr winS (readOp winS c0 4 &&& ~~~31#64) = true ∧
    readsFree winS (readOp winS c0 4 &&& ~~~31#64).toNat 32 = true ∧ ready winS [] [] (some 5) true = true := by decide +kernel
/-- base with six loop levels. -/
def deep : State := base.modArch c0 fun a => { a with loops := List.replicate 6 ⟨false, 2, 0, 0, 25, 0, 0, 0, false⟩ }
/-- The page has a second bundle start after the first. -/
def twoStarts (s : State) : State := { s with pages := s.pages.map fun p => { p with starts := 1 + 2 ^ 25, pending := some 26 } }
theorem witness_LoopsAndTargets : let s := twoStarts base
    let t := twoStarts deep
    loopSpec (readOp s c0) (.loopi 8 0 1) = some (false, 8, 1, 0, 0, []) ∧ ready s [] [] none false = true ∧
    walkBody s c0 (succAt s c0 (s.arch c0).pc) 1 = .last 25 ∧ (s.arch c0).loops.length < 6 ∧
    loopSpec (readOp s c0) (.loop 3 1) = some (false, ((readOp s c0 3).setWidth 32).toNat, 1, 0, 0, [3]) ∧ readOp s c0 3 = 0 ∧ ready s [3] [] none false = true ∧
    6 ≤ (t.arch c0).loops.length ∧ walkBody t c0 (succAt t c0 (t.arch c0).pc) 1 = .last 25 ∧ ready t [] [] none false = true := by
  dsimp only
  and_intros <;> first | decide +kernel | rfl
/-- The bundle of base, with TRET in slot C under every leaf, and with t1 as the target of leaf 0. -/
def bun1 : Option Bundle := match fetchAt base c0 0 with
  | .bundle w _ => decodeBundle w
  | _ => none
/-- One level from 0 to `hi`, and a port over 64 bytes at 0x100. -/
def levelS (hi : W32) (cnt : Nat) : State :=
  base.modArch c0 fun a => { a with loops := [⟨true, cnt, 0, 0, hi, 0, 0, 0, false⟩], ports := a.ports.set 7 ⟨true, false, 2, true, none, 0x100, 64, 0, false⟩ }
theorem witness_LoopsAndTargets_next :
    (bun1.any fun b => let r : Bundle := { b with c := .tret, h := { b.h with maskC := 31 } };
      let j : Bundle := { b with f := { b.f with leaf0 := 2 } };
      let l : Bundle := { b with c := .loopi 8 0 1, h := { b.h with maskC := 31 } };
      executesOn ((base.modArch c0 fun a => { a with inh := true }).arch c0) r.h 0 .c && r.c == .tret && (FT.leaf j.f 0).toNat != 0 && isLoop l.c &&
        executesOn (base.arch c0) l.h 0 .c && (FT.leaf l.f 0).toNat == 0 && !executesOn (base.arch c0) b.h 0 .c) = true ∧
    committed base c0 = false ∧ targetAt base c0 0 = .ok ∧ targetAt base c0 1 = .bad ∧
    (let s := twoStarts base; walkBody s c0 (succAt s c0 (s.arch c0).pc) 1 = .last 25 ∧ (s.arch c0).loops.length ≤ (s.arch c0).loops.length ∧
      (s.arch c0).loops.length < ((levelS 25 8).arch c0).loops.length) ∧
    (((levelS 25 8).arch c0).loops.map (·.hi) = [25] ∧ ((levelS 25 8).arch c0).pc ≠ 25) ∧
    (((levelS 0 8).arch c0).loops.map (fun l => (l.hi, l.cnt, l.pipelined)) = [(((levelS 0 8).arch c0).pc, 8, true)] ∧
      ((levelS 0 1).arch c0).loops.map (fun l => (l.hi, l.cnt)) = [(((levelS 0 1).arch c0).pc, 1)]) ∧
    (let p := ((levelS 0 1).arch c0).ports[7]; p.bound = true ∧ p.out = false) ∧ ((base.arch c0).ports[7]).bound = false := by
  and_intros <;> decide +kernel
/-- R119, R120 (Table 07.15): shape 15 is TTLTLLTLL: where test 0 fails, its left subtree has two tests and three leaves. -/
theorem test_tree : treeLeaf 15 (fun n => n == 3) = 3 ∧ treeLeaf 15 (fun _ => false) = 4 ∧ treeLeaf 15 (fun n => n == 0 || n == 2) = 1 := by decide
/-- An unperformed store of the context to HBM. -/
def storing : State := sendAccess c0 (.store 1) (.dpa 0) 0 4 0 none none base
theorem witness_Fences : ready base [] [] none true = true ∧ drainBusy base c0 5 = false ∧ (base.ctx c0).flights = [] ∧ relBusy base c0 5 = false ∧
    drainBusy storing c0 5 = true ∧ (storing.ctx c0).flights = [] ∧ relBusy storing c0 5 = true ∧ ready storing [] [] none true = true := by decide +kernel
/-- In a trap handler, to return to the bundle at pc. -/
def inTrap (pc : W32) : State := base.modArch c0 fun a => { a with inh := true, trappc := pc }
theorem witness_TrapAndReturn : ready base [] [] none true = true ∧ (base.arch c0).inh = false ∧ ((inTrap 0).arch c0).inh = true ∧
    targetAt (inTrap 0) c0 0 = .ok ∧ targetAt (inTrap 1) c0 1 = .bad ∧ ready (inTrap 1) [] [] none true = true := by decide +kernel
/-- The die has a newer topology than the context. -/
def stale : State := base.modDie 0 fun d => { d with tgen := 1 }
/-- A remote descriptor: local and remote addresses, length, target core, die, operand. -/
def ropD (l r n core die op : Nat) : BitVec 256 :=
  BitVec.ofNat 256 (l + r * 2 ^ 64 + n * 2 ^ 128 + core * 2 ^ 148 + die * 2 ^ 152 + op * 2 ^ 192)
/-- The descriptor of a PUT of 300 bytes to core 3 of die (1, 0) stands at 0x500. -/
def putS : State := put 0x500 (toBytes 32 (ropD 0x1000 0x2000 300 3 1 0).toNat) (regs [(4, 0x500)] base)
theorem witness_RemoteOperations : (ropSpec (.put 4) = some (.put, 4) ∧ ready stale [4] [] none true = true ∧ (stale.arch c0).ctgen ≠ (stale.die 0).tgen) ∧
    (let d := ropD 0x1000 0x2000 300 3 1 0;
      ready putS [4] [] none true = true ∧ (putS.arch c0).ctgen = (putS.die 0).tgen ∧ homeAddr putS (readOp putS c0 4 &&& ~~~31#64) = true ∧
      readsFree putS 0x500 32 = true ∧ BitVec.ofNat 256 (rdLE (putS.core k0).store 0x500 32) = d ∧ ropBad putS .put d = false ∧ dieOfId putS (ropDie d) = some 1 ∧
      csCheckRun (putS.core k0) (ropL d) (ropBytes .put d) = none ∧ putS.rops = []) := by
  dsimp only
  and_intros <;> first | decide +kernel | rfl
/-- Link buffer 15 of die 0. -/
def lb15 (f : LinkBuf → LinkBuf) (s : State) : State := modLb 0 15 f s
def heldLb : State := lb15 (fun l => { l with st := .empty, holder := some c0, tenant := 1 }) (regs [(4, 65536)] base)
theorem witness_LinkBufferInstructions : (ready base [4] [] none true = true ∧ (lbOf base c0 15).st = .closed ∧ readOp base c0 4 = 0 ∧
      (base.arch c0).ctgen = (base.die 0).tgen ∧ (lbOf base c0 15).holder ≠ some c0) ∧
    (ready heldLb [4] [] none true = true ∧ (lbOf heldLb c0 15).st ≠ .closed ∧ (heldLb.arch c0).ctgen = (heldLb.die 0).tgen ∧
      (lbOf heldLb c0 15).holder = some c0 ∧ ((readOp heldLb c0 4).setWidth 32).toNat = 65536 ∧ (lbOf heldLb c0 15).sending = none ∧
      (lbOf heldLb c0 15).err = none ∧ (lbOf heldLb c0 15).st = .empty ∧ lbUsed heldLb 0 15 = false ∧ ready heldLb [] [] none true = true) := by decide +kernel
/-- An attempt of the context under way. -/
def withAtt (a : Attempt) : State := onCtx (fun x => { x with att := a }) base
theorem witness_CollectiveInstructions : ready base [] [] none true = true ∧ (base.ctx c0).att = .none ∧ (base.ctx c0).flights = [] ∧
    ((withAtt (.arrived 3)).ctx c0).att = .arrived 3 ∧ ready (withAtt (.arrived 3)) [] [] none true = true ∧
    ((withAtt (.round 3)).ctx c0).att = .round 3 ∧ ready (withAtt (.round 3)) [] [] none true = true ∧
    (let s := regs [(6, 0x00020001)] base;
      ready s [6] [] none true = true ∧ (readOp s c0 6).extractLsb' 48 16 = 0 ∧
      ((readOp s c0 6).extractLsb' 0 16).toNat < ((readOp s c0 6).extractLsb' 16 16).toNat) ∧
    (let s := regs [(6, 0x00020002)] base;
      ready s [6] [] none true = true ∧ committed s c0 = false ∧ (readOp s c0 6).extractLsb' 16 16 ≠ 0 ∧
      ((readOp s c0 6).extractLsb' 16 16).toNat ≤ ((readOp s c0 6).extractLsb' 0 16).toNat) := by decide +kernel
/-- Page 0x20000 can be read and written; the record at 0x20000 has a state and a count, S4 and S6 name it and the template at 0x20100. -/
def recS (st cnt n : Nat) : State :=
  vaWrite k0 1 0x20000 (toBytes 4 st ++ toBytes 4 cnt) (onCore (fun k => { k with tlb := ⟨1, 0x20000, BitVec.ofNat 64 (2 ^ 63 + 2 ^ 60 + 2 ^ 59 + 0x20000)⟩ :: k.tlb })
    (regs [(4, 0x20000), (6, 0x20100), (7, BitVec.ofNat 64 n)] base))
/-- The same pages with nothing written: the record is free, and the template's bytes are 0. -/
def freeS : State := { onCore (fun k => { k with tlb := ⟨1, 0x20000, BitVec.ofNat 64 (2 ^ 63 + 2 ^ 60 + 2 ^ 59 + 0x20000)⟩ :: k.tlb })
  (regs [(4, 0x20000), (6, 0x20100)] base) with hbm := [] }
theorem witness_Spawning : (ready freeS [6, 4] [] none true = true ∧ released freeS = true ∧
      vaAt freeS c0 0x20100 pteR = .ok ∧ vaAt freeS c0 0x2017F pteR = .ok ∧ readOp freeS c0 6 = 0x20100 ∧
      readOp freeS c0 4 = 0x20000 ∧ recordAt freeS 0x20000 = true ∧ (freeS.ctx c0).att = .none ∧
      recLive (recSt freeS k0 1 0x20000) = false ∧ recordAt freeS 0x20080 = true ∧ recLive (recSt freeS k0 1 0x20080) = false ∧
      (liveTeams freeS 1).length < 65535 ∧ 0x20080 + 128 ≤ (readOp freeS c0 6).toNat) ∧
    (recordAt (recS 5 0 0) 0x20000 = true ∧ recLive (recSt (recS 5 0 0) k0 1 0x20000) = true ∧ ready (recS 5 0 0) [6, 4] [] none true = true) := by
  decide +kernel
theorem witness_Spawning_template : (match textFrom freeS k0 1 0x20100 128 3 [] with
    | .done _ => true
    | _ => false) = true := by decide +kernel
/-- The task's own record stands at 0x20000, with one successor at 0x20080 whose counter is at its lowest. -/
def lowS : State :=
  let s := onCtx (fun x => { x with b := { x.b with task := 0x20000 } }) (recS 5 0 0)
  vaWrite k0 1 0x20200 (toBytes 8 0x20080) (vaWrite k0 1 0x20080 (toBytes 4 1 ++ toBytes 4 0x80000000)
    (vaWrite k0 1 0x20018 (toBytes 8 0x20200 ++ toBytes 2 1) s))
theorem witness_TaskSignals : let s := recS 1 0 5
    let z := recS 1 0 0
    let m := recS 1 0xFFFFFFFF 0
    let t := recS 6 0 0;
    (ready s [4, 7] [] none true = true ∧ released s = true ∧ recordAt s 0x20000 = true ∧ readOp s c0 4 = 0x20000 ∧ recSt s k0 1 0x20000 = 1 ∧
      isMember s k0 1 0x20000 = false ∧ recCount s k0 1 0x20000 + (((readOp s c0 7).setWidth 32).toNat : Int) = 5 ∧ ready s [4] [] none true = true ∧
      recCount s k0 1 0x20000 ≠ -(2 ^ 31) ∧ signalBlocked s k0 1 0x20000 = false) ∧
    (recCount z k0 1 0x20000 + (((readOp z c0 7).setWidth 32).toNat : Int) = 0 ∧ enqRoom z k0 1 0x20000 = true) ∧
    recCount m k0 1 0x20000 + (((readOp m c0 7).setWidth 32).toNat : Int) = -1 ∧
    (recSt t k0 1 0x20000 ≠ 1 ∧ recSt t k0 1 0x20000 ≠ 2 ∧ recordAt t 0x20000 = true ∧ ready t [4] [] none true = true) ∧
    ((match succText c0 base with
      | .done l => l.isEmpty
      | _ => false) = true ∧ (texitErr c0 [] base).isNone = true) ∧
    ((match succText c0 lowS with
      | .done l => (texitErr c0 l lowS).isSome
      | _ => false) = true ∧ ready lowS [4] [] none true = true) := by
  and_intros <;> first | decide +kernel | rfl
/-- The successor list of the task stands in a host window, or at a page without an entry. -/
def listAt (va : Nat) : State := vaWrite k0 1 0x20018 (toBytes 8 va) (onCore (fun k => { k with
  tlb := ⟨1, 0x30000, BitVec.ofNat 64 (2 ^ 63 + 2 ^ 60 + 2 ^ 59 + 2 ^ 41)⟩ :: k.tlb }) lowS)
theorem witness_TaskSignals_list :
    (match succText c0 (listAt 0x30000) with
      | .ask _ _ _ => true
      | _ => false) = true ∧
    (match succText c0 (listAt 0x70000) with
      | .miss _ => true
      | _ => false) = true ∧ ready (listAt 0x30000) [4] [] none true = true ∧
    (let a (x : Attempt) : State := onCtx (fun y => { y with att := x }) lowS
     ((a (.text [] true)).ctx c0).att = .text [] true ∧ ready (a (.text [] true)) [4] [] none true = true ∧
      ((a (.failed ⟨0x0E, 0⟩)).ctx c0).att = .failed ⟨0x0E, 0⟩ ∧ ready (a (.failed ⟨0x0E, 0⟩)) [4] [] none true = true) := by
  dsimp only
  and_intros <;> first | decide +kernel | rfl
/-- The running context is a member of team 7. -/
def inTeam : State := onCtx (fun x => { x with b := { x.b with team := 7 } }) base
theorem witness_PriorityAndBarrier : let s := recS 5 0 0;
    (ready s [4] [] none true = true ∧ recordAt s 0x20000 = true ∧ recLive (recSt s k0 1 0x20000) = true ∧ isMember s k0 1 0x20000 = false ∧
      queueEntry s 1 0x20000 = none) ∧
    (let s := (recS 3 0 0).modDie 0 fun d => { d with queues := d.queues.set (qIdx 1 2).val [0x20000] };
      queueEntry s 1 0x20000 = some (0, qIdx 1 2, 0x20000) ∧ qRoom (s.die 0) (atPrio (qIdx 1 2) 3) = true ∧ recLive (recSt s k0 1 0x20000) = true) ∧
    (let s := onCtx (fun x => { x with b := { x.b with task := 0x20000 } }) (recS 5 0 0);
      recordAt s (s.ctx c0).b.task = true ∧ queueEntry s 1 0x20000 = none) ∧
    (ready base [] [] none true = true ∧ (base.ctx c0).att = .none ∧
      (base.ctx c0).flights = [] ∧ relBusy base c0 5 = false ∧ (base.ctx c0).b.team = 0) ∧
    ((inTeam.ctx c0).b.team ≠ 0 ∧ relBusy inTeam c0 5 = false ∧ ready inTeam [] [] none true = true) := by decide +kernel
/-- A context of a tenant that may reconfigure, in a pod group of four. -/
def podS : State := (List.finRange 4).foldl (fun s d => s.modCtx ⟨d, 0, 0⟩ fun x =>
  { x with st := .running, b := { x.b with tenant := 1 }, arch := { x.arch with cgm := cgm 5 0 0 9 4 (BitVec.ofNat 16 d.val) } })
  (base.modTen 1 fun t => { t with reconf := true })
theorem witness_SupervisorInstructions : (ready base [4] [] none true = true ∧ released base = true ∧ homeAddr base (readOp base c0 4 &&& ~~~63#64) = true ∧
      busyAny (base.core k0) 0 64 = false ∧ (base.ten 1).notes.length < 64 ∧ (base.arch c0).ctgen = (base.die 0).tgen ∧ (base.ten 1).reconf = false) ∧
    (ready podS [4] [] none true = true ∧ (podS.arch c0).ctgen = (podS.die 0).tgen ∧ (podS.ten 1).reconf = true ∧ podGroup podS c0 = true ∧
      reconfOf podS 1 (cgGid (podS.arch c0).cgm) = none ∧ csCheckRun (podS.core k0) 0 4160 = none ∧ homeAddr podS 0 = true ∧
      readsFree podS 0 4160 = true) := by decide +kernel
/-- Give the argument of an event. -/
def argS (a : EvArg) (s : State) : State := { s with arg := a }
/-- A trap waits in a context whose handler is at h. -/
def trapS (inh : Bool) (h : W32) : State := onCtx (fun x => { x with
  trap := some ⟨⟨0x06, 8⟩, 0, 5, 0⟩, arch := { x.arch with inh := inh }, b := { x.b with hdr := { x.b.hdr with traph := h } } }) base
/-- The code page holds the index 0 of a dictionary of one bundle at 0x30000. -/
def dictS : State :=
  let h : Hdr := { fetchHdr with dict := 0x30000, dictn := 1 }
  onCtx (fun x => { x with b := { x.b with hdr := h } }) (onCore (fun k => { k with
    tlb := ⟨1, 0x30000, BitVec.ofNat 64 (2 ^ 63 + 2 ^ 60 + 2 ^ 58 + 0x30000)⟩ :: k.tlb })
    { base with hbm := [], pages := [{ pageRec 1 fetchVa false h with starts := 1, feat := 1, high := 31 }, (pageRec 1 0x30000 true h)] })
/-- Tables for one page of tenant 1: VA 0x40000 at DPA 0x40000. -/
def mappedS : State := wrTable 0x220020 (BitVec.ofNat 64 (2 ^ 63 + 2 ^ 60 + 2 ^ 59 + 0x40000)) (wrTable 0x210000 (dirEntry 0x220000)
  (wrTable 0x200000 (dirEntry 0x210000) (wrTable 0x100000 (dirEntry 0x200000) (base.modTen 1 fun t => { t with root := 0x100000 }))))
/-- The context waits for the walk of page 0x40000. -/
def missS (s : State) : State := onCtx (fun x => { x with miss := some (0x40000, .read) }) s
theorem witness_ResultsAndTraps :
    (let s : State := onCtx (fun x => { x with flights := [⟨0, true, 0, .sreg 5 9, none⟩] }) base;
      mayLand s c0 = true ∧ (s.ctx c0).st ≠ .saving ∧ (s.ctx c0).flights.filter (fun f => f.rem == 0) = [⟨0, true, 0, .sreg 5 9, none⟩]) ∧
    (let s := trapS true 0; (s.ctx c0).trap = some ⟨⟨0x06, 8⟩, 0, 5, 0⟩ ∧ (s.ctx c0).flights = [] ∧ (s.arch c0).inh = true) ∧
    (let s := trapS false 0xFFFFFFFF; (s.ctx c0).st = .running ∧ (s.ctx c0).miss = none ∧ (s.ctx c0).exit = none ∧ (s.arch c0).inh = false) ∧
    (let s := trapS false 0; (s.arch c0).trapvecValid = false ∧ placeOf s (s.ctx c0).b 0 = .start) ∧
    (base.ctx c0).b.hdr.maxrun < ((base.modArch c0 fun a => { a with run := 65536 }).arch c0).run ∧
    (fetchAt dictS c0 0 = .dict 0 ∧ (vaRead dictS k0 1 0x30000 48).isSome = true) := by
  decide +kernel
/-- A result of each kind is due. -/
def dueS (l : Land) : State := onCtx (fun x => { x with flights := [⟨0, false, 0, l, none⟩] }) (bound1.modArch c0 fun a =>
  { a with ports := a.ports.set 7 ⟨true, true, 2, true, none, 0x100, 64, 0, false⟩ })
theorem witness_ResultsAndTraps_lands :
    ([Land.target 3 7, .sys 14 1, .handle 2 .invalid, .latch 1 5, .exv 0 5, .tscale 2 5, .words [(5, 7, 0xFFFFFFFF), (6, 8, 0xFF)]].all fun l =>
      mayLand (dueS l) c0 && (landsIn ((dueS l).ctx c0) l).isSome && ((dueS l).ctx c0).spec.isNone) = true ∧
    ([Land.flags 32 5, .acc 1 false [(0, 3), (1, 4)], .port 7 9 5, .drain ⟨true, true, 2, true, none, 0x600000, 64, 0, true⟩ 9 5].all fun l =>
      mayLand (dueS l) c0 && ((dueS l).ctx c0).spec.isNone) = true ∧
    ((base.arch c0).ports[(3 : Nat)]).closing = false ∧ (([(5, 7, 0xFFFFFFFF), (6, 8, 0xFF)] : List (Nat × W32 × W32)).map Prod.fst).Nodup ∧
    (let s : State := onCtx (fun x => { x with flights := [⟨0, true, 0, .sreg 5 9, none⟩, ⟨0, true, 1, .sreg 6 8, none⟩] }) base; mayLand s c0 = true) := by
  and_intros <;> decide +kernel
theorem witness_ResultsAndTraps_walks : ((missS mappedS).ctx c0).miss = some (0x40000, .read) ∧ ctxReported (missS mappedS) c0 = false ∧
    (walk (missS mappedS) 1 0x40000).isSome = true ∧ ctxReported (missS base) c0 = false ∧ walk (missS base) 1 0x40000 = none ∧
    ((onCtx (fun x => { x with svc := some (0x100, 0) }) base).ctx c0).svc = some (0x100, 0) := by decide +kernel
/-- An access of the running context to a device-physical address, and the argument that names it. -/
def accS (op : AccOp) (d n : Nat) (dst : Option (Fin 64)) : State := argS (argId 1) (sendAccess c0 op (.dpa d) 0 n 0x50000 dst none base)
/-- The access under way. -/
def accOf (s : State) : Option Access := s.accesses.find? fun b => b.id == s.arg.id
theorem witness_AccessEvents :
    (let p (s : State) : Bool := (accOf s).any fun a => canPerform s a (0, a.size) && !toHost a && !accessQueues s a (0, a.size) && !s.arg.ok;
      p (accS (.amo 1 7) 0x50000 4 (some 5)) = true ∧ p (accS (.amoc 0 7) 0x50000 8 (some 5)) = true ∧
      p (accS (.obj (.bararr 1)) 0x50000 16 none) = true ∧ p (accS (.obj (.rpub 5)) 0x50000 32 none) = true) ∧
    (let p (s : State) : Bool := (accOf s).any fun a => (accessPiece s a s.arg.num).any fun q => canPerform s a q && !toHost a && !accessQueues s a q && !s.arg.ok;
      p (accS .load 0x50000 4 (some 5)) = true ∧ p (accS (.store 7) 0x50000 8 none) = true) ∧
    (let s := accS .load (2 ^ 38) 4 (some 5); (accOf s).any fun a => accessGoes a && mustTravel s a) = true ∧
    (match objStep (List.replicate 16 0) (.bararr 1) with
      | .done _ _ _ => true
      | _ => false) = true ∧ objStep (List.replicate 32 0) (.rpub 5) = .proto ∧
    (let s := accS .load 0x50000 4 (some 5); (accOf s).any fun a => accessHome s a == a.owner.die && a.bad.isNone && a.op.reads) = true ∧
    (let s := accS .load (2 ^ 41) 8 (some 5); (accOf s).any fun a => canPerform s a (0, a.size) && toHost a && !accessQueues s a (0, a.size)) = true ∧
    (let s := modAccess 1 (fun a => { a with performed := true, hop := .done }) (accS .load 0x50000 4 (some 5));
      (s.accesses.any fun a => a.id == 1 && a.performed && a.hop == .done && a.dst.isSome) = true ∧ s.saved = [] ∧ (s.ctx c0).b.uid = 1) ∧
    (let s := { accS .load 0x50000 4 (some 5) with dpit := [(5, 7)] };
      (accOf s).any fun a => accessGoes a && !mustTravel s a && !routeFresh s a) = true ∧
    (let s := modAccess 1 (fun a => { a with refusals := 15 }) (accS (.store 7) 0x50000 8 none);
      (accOf s).any (canRefuse s) = true ∧ (s.ctx c0).st.bound = true) ∧
    (let q : HostReq := ⟨3, 1, .access 1, false, 0, [], 8, 16, 0, 0⟩;
      let s := (argS { argId 3 with tenant := 1 } { base with hostReqs := [q] }).modDie 0 fun d => { d with ptb := 1000000 };
      s.hostReqs.find? (fun r => r.seq.toNat == s.arg.id && r.tenant == s.arg.tenant) = some q ∧ 1000000 ≤ ((s.die 0).ptb - q.since).toNat) := by
  decide +kernel
/-- A load is to be presented at its bank; a later one waits there for it; and one reads the store of core 1. -/
theorem witness_AccessEvents_order :
    (let s := argS { argId 1 with ok := true } (accS .load 0x50000 4 (some 5));
      (accOf s).any fun a => accessGoes a && !mustTravel s a && routeFresh s a && !toHost a && a.since.isNone) = true ∧
    (let u := modAccess 1 (fun a => { a with since := some 0 }) (accS .load 0x50000 4 (some 5));
      let s := argS (argId 2) (sendAccess c0 .load (.dpa 0x50000) 0 4 0x50000 (some 6) none (u.modDie 0 fun d => { d with ptb := 9 }));
      (accOf s).any fun a => !mustTravel s a && ((accessPiece s a s.arg.num).any fun p => accessQueues s a p) && !s.arg.ok) = true ∧
    (let s := argS (argId 1) (sendAccess c0 .load (.peer 1 0x50000) 0 4 0x50000 (some 5) none base);
      (accOf s).any fun a => a.loc == .peer 1 0x50000 && a.op.reads && (accessPiece s a s.arg.num).any fun p => canPerform s a p && !accessQueues s a p) = true := by
  decide +kernel
/-- Tiles of 2 by 2, 2 by 3 and 3 by 2, descriptors 0 to 2, and the accumulator of 2 by 3 in binding 1. -/
def tileS : State := onCtx (fun x => { x with d := ((x.d.set 0 (td 0x1000 2 2 16 2)).set 1 (td 0x2000 2 3 16 2)).set 2 (td 0x3000 3 2 16 2) }) bound1
/-- A command of the running context, ready, and the argument that names it. -/
def cmdS (i : Instr) (v : W64) (l : List W32) (s : State) : State :=
  argS (argId 1) (onCore (fun k => { k with cmds := k.cmds.map fun q => { q with ready := true } }) (enterCmd c0 i v l s))
/-- The four cores of the quad of core 0 each hold a ready MMA.Q command with one tag. -/
def gangS : State :=
  let q := (cmdS (.mmaQ 1 0 1 2 2 0 0 0 0 4) 7 [] tileS)
  (List.range 4).foldl (fun s i => s.modCore ⟨0, quadCore 0 i⟩ fun k => { k with cmds := (q.core k0).cmds }) q
/-- A completed command of the context, with an element for binding 1 or a flag. -/
def doneS (flag : Bool) : State :=
  let s := cmdS (.zzero 1 0) 0 [] tileS
  onCore (fun k => { k with cmds := k.cmds.map fun q => { q with left := some 0, out := if flag then { CmdOut.none with flag := some (9, 5) }
    else { CmdOut.none with acc := [(1, false, [(0, 3)])] } } }) s
/-- A completed command with elements for both banks of a tile, bytes for the store and a link buffer, and a chain slot. -/
def wideS : State :=
  let s := cmdS (.zzero 1 1) 0 [] tileS
  onCore (fun k => { k with cmds := k.cmds.map fun q => { q with
    left := some 0
    out := { CmdOut.none with
      acc := [(1, false, [(0, 3)]), (1, true, [(0, 4)])], mem := [(none, 0x300, [1, 2]), (some 3, 7, [9])], chain := [(2, { Chain.scrubbed with opn := true })] } } }) s
/-- The command that the event names may issue. -/
def cmdOk (s : State) : Bool := (s.core k0).cmds.any fun q => q.id == s.arg.id && canIssue s k0 q
theorem witness_CommandEvents :
    ((let s := cmdS (.zzero 1 0) 0 [] tileS; cmdOk s = true ∧ arriving s k0 = [] ∧ ∀ n, arrivingLb s 0 n = []) ∧ cmdOk (cmdS (.cpy 1 4 2 1 3) 0x3000 [] tileS) = true ∧
      (let s := cmdS (.mmaSg 1 0 1 2 2 0 0 0 0 0 0) 0 (List.replicate 64 0) tileS;
        cmdOk s = true ∧ (s.core k0).cmds.map (fun q => (isGather q.ins, q.gather)) = [(true, none)]) ∧
      cmdOk gangS = true ∧ ((gangS.core k0).cmds.map fun q => (gangOf gangS k0 q).map gangAgrees) = [some true]) ∧
    ((doneS false).core k0).cmds.map (fun q => (q.id, q.left, q.out.acc.length)) = [(1, some 0, 1)] ∧
    ((doneS true).core k0).cmds.map (fun q => (q.id, q.left, q.out.flag)) = [(1, some 0, some (9, 5))] ∧
    (wideS.core k0).cmds.map (fun q => (q.id, q.left, q.out.acc.length, q.out.mem.length, q.out.chain.length)) = [(1, some 0, 2, 2, 1)] ∧
    (match commandComplete wideS with
      | t => (rdCells (t.core k0).store 0x300 2, rdCell ((t.die 0).lbs[3]).bytes 7, ((t.ctx c0).y[2]).opn)) = ([1, 2], 9, true) := by
  and_intros <;> decide +kernel
/-- A copy entry: one row of 16 bytes from 0x1000 to 0x2000. -/
def ent1 : BitVec 256 := BitVec.ofNat 256 (0x1000 + 0x2000 * 2 ^ 64 + 2 ^ 192 + 16 * 2 ^ 208)
/-- Channel 1 of core 0 at work, with the entry at 0x500. -/
def chanS (f : Chan → Chan) : State := put 0x500 (toBytes 32 ent1.toNat)
  (onCore (fun k => { k with chans := k.chans.set 1 (f { Chan.idle with busy := true, owner := c0, uid := 1 }) }) base)
/-- Its row 0, read. -/
def row1 : Row := { Row.start k0 0 0x500 ent1 0 with data := List.replicate 16 5, need := [] }
/-- Entries whose source is the VA 0x20000, and whose destination is link buffer 15. -/
def entVa : BitVec 256 := ent1 + BitVec.ofNat 256 (0x1F000 + 2 ^ 48)
def entLbuf : BitVec 256 := BitVec.ofNat 256 (0x1000 + (15 * 2 ^ 16 + 2 ^ 49) * 2 ^ 64 + 2 ^ 192 + 16 * 2 ^ 208)
/-- Window 7 of core 0 over the rows at 0x10000, or outward to the rows at 0x20000. -/
def winD (out : Bool) : BitVec 512 := BitVec.ofNat 512 (ofBytes winImg + (if out then 0x10000 + 2 ^ 272 else 0))
def winW (out : Bool) (f : Win → Win) : State :=
  onCore (fun k => { k with wins := k.wins.set 7 (f { Win.free with opn := true, desc := winD out, opener := c0 }) }) (recS 0 0 0)
theorem witness_CopyAndWindowEvents :
    (let s := chanS fun h => { h with next := 0x500, left := 1 };
      csCheck (s.core k0) 0x500 = none ∧ BitVec.ofNat 256 (rdLE (s.core k0).store 0x500 32) = ent1 ∧ entryOk ent1 = true ∧ lbNotHeld s c0 ent1 = none ∧
      entMcast ent1 = 0) ∧ entryOk (BitVec.ofNat 256 (rdLE (base.core k0).store 0x500 32)) = false ∧
    (let s := chanS fun h => { h with cur := some (0x500, ent1, 0) };
      entSKind ent1 = 0 ∧ firstSome (fun a => csCheck (s.core k0) (BitVec.ofNat 64 a)) (rowAddrs (entSLay ent1) (entrySrc ent1 0) 0 16) = none) ∧
    (let s := chanS fun h => { h with rows := [row1] };
      let as := rowAddrs (entDLay ent1) (entryDst ent1 0) 0 16;
      hostOut s (.row k0 1 0) = false ∧ entDKind ent1 = 0 ∧ entryCores k0 ent1 = [k0] ∧ deliveryErr s k0 k0 1 as = none ∧ as.Nodup ∧ entOp ent1 = 0 ∧
      entBV ent1 = false ∧ entFV ent1 = false ∧ row1.data.length = entryLen ent1 ∧ row1.left.all (fun l => l.1 == 0) = true ∧ row1.left ≠ [] ∧
      deliveryErr (onCore (fun k => { k with own := k.own.set 0 (.held 1) }) s) k0 k0 1 as ≠ none) ∧
    (let r : Row := { Row.start k0 0 0x500 entVa 0 with req := none };
      let q (s : State) := pageReq s k0 (s.ctx c0).b.tenant (entrySrc entVa 0) (entryLen entVa) 0 16 false false;
      let near := onCore (fun k => { k with chans := k.chans.set 1 { Chan.idle with busy := true, owner := c0, uid := 1, rows := [r] } }) (recS 0 0 0);
      let far := onCore (fun k => { k with tlb := [⟨1, 0x20000, BitVec.ofNat 64 (2 ^ 63 + 2 ^ 60 + 2 ^ 59 + 2 ^ 38)⟩] }) near;
      let ok (s : State) (d : Fin 4) := (match q s with
        | .req q => !q.stale s && q.home s == d
        | _ => false);
      entSKind entVa = 1 ∧ r.need ≠ [] ∧ hostOut near (.row k0 1 0) = false ∧ ok near 0 = true ∧ (ok far 1 || ok far 2 || ok far 3) = true) ∧
    (let r : Row := { Row.start k0 0 0x500 entLbuf 0 with data := List.replicate 16 5, need := [] };
      entDKind entLbuf = 2 ∧ r.left ≠ [] ∧ r.left.all (fun l => l.1 == 0) = true ∧ entOp entLbuf = 0 ∧ entBV entLbuf = false ∧ entFV entLbuf = false) ∧
    (let s := winW false id;
      let d := winD false;
      wDir d = 0 ∧ 0 < wTRows d ∧ 0 < wNSlot d ∧ (match pageReq s k0 1 (winRowVa d 0) (wRBytes d) 0 (wRBytes d) false false with
        | .req q => !q.stale s && q.home s == 0
        | _ => false) = true ∧ openerRuns s ((s.core k0).wins[7]) = true ∧ winTenant s k0 7 = 1 ∧ wBarV d ≠ 1 ∧
      firstSome (fun a => csCheck (s.core k0) (BitVec.ofNat 64 a)) (winRowAddrs d 0) = none ∧ (winRowAddrs d 0).Nodup ∧
      (WRow.start d 0 1).left ≠ [] ∧ hostOut s (.winRow k0 7 1) = false) ∧
    (let d := winD true;
      let r : WRow := { WRow.start d 0 1 with data := List.replicate 32 7, need := [] };
      let s := winW true fun w => { w with ret := 1, next := 1, rows := [r] };
      wDir d = 1 ∧ wBarV d ≠ 1 ∧ wRBytes d = 32 ∧ openerRuns s ((s.core k0).wins[7]) = true ∧ hostOut s (.winRow k0 7 1) = false ∧
      firstSome (fun a => csCheck (s.core k0) (BitVec.ofNat 64 a)) (winRowAddrs d 0) = none ∧
      (match pageReq s k0 1 (winRowVa d 0) 32 0 32 true false with
        | .req q => !q.stale s && q.home s == 0
        | _ => false) = true) := by
  and_intros <;> decide +kernel
/-- Round 1 of tenant 1, group 9, with one member, the running context. -/
def rnd1 : Round :=
  { id := 1, tenant := 1, gid := 9, scope := 0, inst := 0, seq := 0, op := 0, count := 1, tout := 0, die := 0, start := 0,
    members := [⟨c0, 1, 0, 40, some 0, true, .done⟩], seen := [0], acc := true, formed := none, absent := [], odd := false, afar := [], sent := false, due := true }
/-- A round of two members, one of whom has not arrived. -/
def rnd2 : Round := { rnd1 with count := 2 }
/-- The context has entered round 1 and waits, or is on its path under a leaf. -/
def rndS (leaf : Option Nat) : State := argS (argId 1) (onCtx (fun x => match leaf with
    | none => { x with att := .round 1 }
    | some l => { x with spec := some ⟨x.arch, [], 1, 40, l, [], [], 0, [], 0, 0, none⟩ })
  (({ base with rounds := [rnd1] } : State).modDie 0 fun d => { d with ptb := 16000 }))
theorem witness_BarriersAndRounds :
    (let r (n : Option Nat) (x : Nat) : Barrier := ⟨1, 1, 7, 1, x, 0, 0, [c0], n, n == some 0⟩;
      let s (n : Option Nat) (x : Nat) : State :=
        argS { argC with id := 1, ok := true } (({ inTeam with barriers := [r n x] } : State).modCtx c0 fun y => { y with att := .round 1 });
      barrierMet (s none 1) (r none 1) = true ∧ barrierPaths (s none 1) (r none 1) = true ∧ barrierReady (r none 1) = false ∧
      (s (some 0) 1).barriers.find? (fun q => q.id == (s (some 0) 1).arg.id) = some (r (some 0) 1) ∧
      (s (some 9) 5).barriers.find? (fun q => q.id == (s (some 9) 5).arg.id) = some (r (some 9) 5) ∧ ((s (some 9) 5).ctx c0).att = .round 1) ∧
    (roundExpired (rndS none) rnd2 = true ∧ ((List.range 2).filter fun i => !rnd2.seen.contains i && !(leftOf (rndS none) rnd2).contains i) = [1]) ∧
    (let r := { rnd1 with formed := some (true, 0) }; r.members.find? (fun m => m.c == c0) = some ⟨c0, 1, 0, 40, some 0, true, .done⟩ ∧
      outcomeReady r ⟨c0, 1, 0, 40, some 0, true, .done⟩ = true) ∧ groupOdd (rndS none) rnd1 = false ∧ ((rndS none).ctx c0).b.uid = 1 ∧
    ((rndS none).ctx c0).att = .round 1 ∧ ((rndS (some 0)).ctx c0).spec.map (fun p => (standingLeaf p true, p.leaf, p.held)) = some (0, 0, []) ∧
    ((rndS (some 1)).ctx c0).spec.map (fun p => (standingLeaf p true, p.leaf)) = some (0, 1) ∧ groupOdd (rndS (some 1)) rnd1 = false := by decide +kernel
/-- A plan that names no die, with circuits. -/
def planOf1 (links : Nat) (cs : List Nat) : List Byte :=
  toBytes 4 1 ++ toBytes 4 links ++ toBytes 8 0 ++ cs.flatMap (toBytes 8) ++ List.replicate 100 7
/-- A reconfiguration of group 9 of tenant 1 with a member on every die. -/
def rcf (st : ReconfStage) (plan : Fin 4 → List Byte) (start : W64) : Reconf :=
  ⟨1, 9, st, (List.finRange 4).map fun d => ⟨⟨d, 0, 0⟩, 1, 50, plan d, true⟩, start, [], []⟩
def rcfS (r : Reconf) : State := argS { argId 9 with tenant := 1 } ({ base with reconfs := [r] } : State)
/-- No circuit; and a circuit of link 4 of die 0 to link 5 of die 1. -/
def idle4 : Fin 4 → List Byte := fun _ => planOf1 0 (List.replicate 6 0)
def circ4 : Fin 4 → List Byte := fun d => if d = 0 then planOf1 16 [0, 0, 0, 0, (dieId base 1).toNat + 5 * 2 ^ 12 + 2 ^ 16, 0] else idle4 d
theorem witness_Reconfigurations :
    (let r := rcf .arriving idle4 0; reconfOf (rcfS r) 1 9 = some r ∧ r.members.all PlanArrival.met = true ∧ 4 ≤ r.members.length ∧
      (r.members.all (planValid (rcfS r)) && plansAgree (rcfS r) r.members && podDies (rcfS r) == 4) = true) ∧
    (let r := rcf .arriving (fun _ => []) 0; reconfOf (rcfS r) 1 9 = some r ∧ (r.members.all (planValid (rcfS r)) && plansAgree (rcfS r) r.members) = false) ∧
    (let r := rcf .draining idle4 0; linksDrained (rcfS r) r = true) ∧
    (let r := rcf .asked idle4 0; planLinks r = [] ∧ (r.members.map fun m => m.c.die).Nodup) ∧
    (let r := rcf .asked circ4 0; r.members.any fun m => (List.finRange 6).any fun l =>
      circSet m.plan l && planUsed m.plan l && (planFar base m.c.die m.plan l).isSome) = true ∧
    10 ^ 9 ≤ ((base.die 0).ptb - (rcf .asked idle4 (BitVec.ofNat 64 (2 ^ 63))).start).toNat := by decide +kernel
/-- A remote operation of the context from core 0 of die 0 to core 3 of die 1, which belongs to its tenant. -/
def rop1 (k : RopKind) (n : Nat) (f : Rop → Rop) : Rop :=
  f { id := 1, owner := c0, uid := 1, tenant := 1, kind := k, desc := ropD 0x1000 0x2000 n 3 1 7, src := 0, dest := 1, away := none, origin := none, scope := 4, lb := 15,
      lbTo := 15, len := n, need := List.range n, left := List.range n, data := [], stage := 0, old := 0, cells := [], err := none, refusals := 0, hold := false }
def ropW (ok : Bool) (r : Rop) : State := argS { argId 1 with ok := ok } (({ base with rops := [r] } : State).modCore ⟨1, 3⟩ fun k => { k with tenant := some 1 })
/-- The event may go on with the operation: none of the waits of R379 and R334 holds. -/
def ropGoes (s : State) (r : Rop) : Bool :=
  (s.rops.find? fun q => q.id == s.arg.id) == some r && !r.hold && r.err.isNone && !ropFaulted s r.id && !hostOut s (.remote r.id) &&
    r.away.isNone && r.stage != 5 && !earlierAt s r.owner r.uid r.id (r.remoteCells s)
/-- Bytes 0 to 7 of an operation. -/
def eight : List (Nat × Byte) := (List.range 8).map fun i => (i, 5)
theorem witness_RemoteEvents :
    (let r := rop1 .put 300 id; let s := ropW false r;
      ropGoes s r = true ∧ ropLK r.desc = false ∧ ropBlocked s r = false ∧ dieOfId s (dieId s r.dest) = some 1 ∧
      (linkOf s 0 (nextHop s 0 ⟨.putData, 3, dieId s 0, dieId s 1, .remote 1, 0, [], 0, false⟩)).up = true) ∧
    (let q (n : Nat) := rop1 .put n fun r => { r with data := eight };
      ropRK (q 8).desc = 0 ∧ (∀ n ∈ [8, 300], ropGoes (ropW true (q n)) (q n) = true ∧ ropCoreOk (ropW true (q n)) (q n) = true) ∧
      pickRun ((q 8).data.map Prod.fst) 0 0 false = (0, 8) ∧ ((q 8).bytes 0 8).length = 8 ∧
      ropCoreOk (argS { argId 1 with ok := true } { base with rops := [q 8] }) (q 8) = false) ∧
    (let r := rop1 .ramo 8 fun r => { r with desc := ropD 0x1000 0x2000 0x81 3 1 7, stage := 2 };
      ropGoes (ropW true r) r = true ∧ ropRK r.desc = 0 ∧ ropCoreOk (ropW true r) r = true) ∧
    (let r := rop1 .put 8 fun r => { r with stage := 4 };
      let s := ropW true r;
      s.rops.find? (fun q => q.id == s.arg.id && q.kind == .put && q.stage == 4) = some r ∧ (s.ctx c0).b.uid = r.uid ∧ (s.ctx c0).st.bound = true) ∧
    (let r := rop1 .get 8 fun r => { r with data := eight };
      ropGoes (ropW true r) r = true ∧ ropLK r.desc = false ∧ earlierAt (ropW true r) r.owner r.uid r.id (r.localCells (ropW true r)) = false ∧
      ropL r.desc + 8 ≤ csSize) ∧
    (∀ k ∈ [0, 2 ^ 185], let r := rop1 .ramo 8 fun r => { r with desc := ropD 0x1000 0x2000 0x81 3 1 7 + BitVec.ofNat 256 k, stage := 4 };
      (let s := ropW true r; s.rops.find? (fun q => q.id == s.arg.id && q.kind == .ramo && q.stage == 4) = some r ∧ r.err = none) ∧
      ropLK r.desc = decide (k ≠ 0) ∧ ropL r.desc + 8 ≤ csSize) ∧
    (let r := rop1 .lbsend 300 fun r => { r with desc := 0 };
      ropGoes (ropW false r) r = true ∧ arrivingLb (ropW false r) 0 15 = [] ∧ (linkOf (ropW false r) 0 0).up = true) ∧
    (let r := rop1 .lbsend 300 fun r => { r with data := eight };
      let s := modLb 1 15 (fun l => { l with st := .empty, holder := some ⟨1, 0, 0⟩, tenant := 1 }) (ropW true r);
      let l := (s.die 1).lbs[15];
      ropGoes s r = true ∧ lbSaved s 1 15 = false ∧ l.tenant = r.tenant ∧ l.st = .empty ∧ l.obj = none ∧ l.holder.isSome = true ∧ lbFirst s r = true) ∧
    (∀ k ∈ [FlitKind.putReq, .getReq, .ramoReq],
      let f : Flit := ⟨k, 1, 0x7, dieId base 0, .away 0x7 3, 0, toBytes 1 1 ++ toBytes 32 (ropD 0x1000 0x2000 8 3 1 7).toNat, 0, false⟩;
      f.tag = .away 0x7 3 ∧ dieOfId base f.dest = some 0 ∧ base.rops = [] ∧
        f.data = toBytes 1 (1 : BitVec 4).toNat ++ toBytes 32 (ropD 0x1000 0x2000 8 3 1 7).toNat) := by
  and_intros <;> decide +kernel
/-- Link 0 of die 0 changed; its far end, link 1 of die 1, has a flit to send. -/
def linkS (f : Link → Link) : State := modLink 0 0 f (modLink 1 1 (fun y => { y with txq := [⟨.putAck, 1, dieId base 1, dieId base 0, .remote 9, 0, [], 0, false⟩] }) base)
/-- Link 4 of die 0 leads to another package, whose end carries flits; the 256 bytes of a flit from there. -/
def awayS : State := modLink 0 4 (fun x => { x with up := true, out := some (0x7, 5) }) base
def flit0 : Flit := ⟨.getData, 1, 0x7, dieId base 0, .remote 9, 0, [], 1, false⟩
theorem witness_LinksAndTime :
    ((linkOf base 0 0).farDie ≠ 0 ∧ (linkOf base 0 0).out = none ∧ linkRuns (linkS id) 0 0 = true ∧
      (wireNext (linkOf (linkS id) 1 1)).map (fun p => p.1.1) = some (linkOf (linkS id) 0 0).expect ∧
      linkRuns (linkS fun x => { x with nack := true }) 0 0 = true ∧ (linkUp (linkS fun x => { x with fails := 4 }) 0 0 = true ∧ linkUp (linkS fun x => { x with rejects := 4 }) 0 0 = true) ∧
      (let s := modLink 1 1 (fun y => { y with fails := 4 }) base;
        linkUp s 0 0 = true ∧ (linkOf s 0 0).fails = 0 ∧ (linkOf s 0 0).rejects = 0 ∧ (linkOf s 1 1).out = none ∧ (linkOf s 1 1).farDie = 0 ∧ (linkOf s 1 1).farLink = 0) ∧
      (linkOf (linkS id) 0 0).replay.length = (linkOf (linkS id) 0 0).sent ∧
      linkRuns (linkS fun x => { x with repairDue := [5] }) 0 0 = true ∧ linkQuiet (linkS fun x => { x with repairDue := [5] }) 0 0 = true ∧
      linkQuiet (linkS fun x => { x with repairDue := [5], replay := [(0, ⟨.putAck, 1, 0, 0, .remote 9, 0, [], 0, false⟩)] }) 0 0 = false ∧
      (linkOf (linkS id) 0 0).laneErr[5] < 1 ∧ (linkOf (linkS id) 0 0).repairDue = [] ∧ trainsFor (linkS fun x => { x with training := true }) 0 0 = none) ∧
    (linkRuns awayS 0 4 = true ∧ (linkOf awayS 0 4).out.isSome = true ∧
      (wireNext (linkOf (modLink 0 4 (fun x => { x with txq := [⟨.putAck, 1, 0, 0x7, .remote 9, 0, [], 0, false⟩] }) awayS) 0 4)).isSome = true) ∧
    (let s := base.modDie 0 fun d => { d with ptb := 10000 }; (s.die 0).ptbSent ≠ (s.die 0).ptb.toNat / 10000 ∧ (s.die 0).ptbLocked = true ∧
      (s.die 0).ptbLost = false ∧ ptbFollows s 0 0 = true) ∧ (base.die 1).ptbParent = some 1 ∧ dieId base 1 ≠ ptbMaster base := by
  and_intros <;> decide +kernel
/-- 252 bytes with their CRC-32C after them are a flit with the SEQ in their low 12 bits (Table 25.2). -/
theorem wireFlit_crc (s : State) (b : List Byte) (c : W32) (k : FlitKind) (hc : crc32c b = c) (hl : b.length = 252)
    (h10 : ofBytes ((b.drop 10).take 1) ≤ 240) (h11 : b[11]? = some 0) (hk : flitKinds[bits (ofBytes (b.take 4)) 26 6]? = some k) :
    (wireFlit s (b ++ toBytes 4 c.toNat)).map Prod.fst = some (BitVec.ofNat 12 (ofBytes (b.take 4))) := by
  have hn : ofBytes (toBytes 4 c.toNat) = c.toNat := by
    have := c.isLt
    simp [toBytes, ofBytes]
    omega
  have hw : wireOk (b ++ toBytes 4 c.toNat) = true := by
    unfold wireOk
    rw [List.take_left' hl, List.drop_left' hl, hn, hc, List.drop_append_of_le_length (by omega),
      List.take_append_of_le_length (by rw [List.length_drop]; omega), List.getElem?_append_left (by omega), h11]
    simp [hl, h10, toBytes]
  unfold wireFlit
  simp only [hw, if_true, Nat.mul_zero, List.drop_zero, List.take_append_of_le_length (show 4 ≤ b.length by omega), hk, Option.map_some]
theorem witness_LinksAndTime_wire : (wireFlit awayS (Flit.wire flit0 0 0)).map Prod.fst = some 0 :=
  (wireFlit_crc awayS (flit0.body 0 0) _ .getData rfl (by decide +kernel) (by decide +kernel) (by decide +kernel) (by decide +kernel)).trans
    (by decide +kernel)
theorem witness_LinksAndTime_lost :
    (let s := modLink 1 1 (fun x => { x with up := false }) base; ptbNearer s 1 1 = false ∧ (ptbDist s 4 1).isSome = true ∧ ptbChoice s 1 = some 0) ∧
    (let s := (List.finRange 6).foldl (fun s l => modLink 1 l (fun x => { x with up := false }) s) base;
      ptbNearer s 1 1 = false ∧ ptbDist s 4 1 = none) := by decide +kernel
/-- A checked task of tenant 1 at priority 2 waits on die 0. -/
def take1 (m : Nat) : Take := ⟨0x20000, { fetchHdr with mregs := m, featreq := 1 }, 9, 0x10000, 0x30000, 2⟩
def waitS (m : Nat) : State := base.modDie 0 fun d =>
  { d with queues := d.queues.set (qIdx 1 2).val [0x20000], taken := [((qIdx 1 2).val, take1 m)], ptr := d.ptr.set 2 1 }
/-- It fits core 0, which belongs to its tenant, or with all the granules the next core, which has to be scrubbed. -/
theorem witness_DispatchChoice :
    let c (m : Nat) : State := (waitS m).modDie 0 fun x => { x with chosen := true };
    (((waitS 0).die 0).chosen = false ∧ frameGangs (waitS 0) 0 = [] ∧ ((c 0).die 0).chosen = true) ∧ checkHeads 0 (c 0) = c 0 ∧
    (∀ u : BitVec 4, (headPlan (c 0) 0 3 u).isNone = true) ∧ (tenantOrder (c 0) 0 2).head? = some 1 ∧ qAll ((c 0).die 0) (qIdx 1 2) = [0x20000] ∧
    savedOf (c 0) 1 0x20000 = none ∧ takeOf (c 0) 0 (qIdx 1 2) 0x20000 = some (take1 0) ∧ rdRec (c 0) k0 1 0x20000 0x24 4 % 2 ^ 16 = 0 ∧
    (∀ j : Fin 16, ((c 0).core ⟨0, j⟩).want ≠ some (1, 0x20000)) ∧
    ((coreOrder (c 0) 0).find? fun i => fits (c 0) ⟨0, i⟩ 1 0x20000 (take1 0).prio.toNat (take1 0).hdr (take1 0).aff.toNat) = some 0 ∧
    needsScrub ((c 0).core k0) 1 = false ∧
    ((coreOrder (c 32) 0).find? fun i => fits (c 32) ⟨0, i⟩ 1 0x20000 (take1 32).prio.toNat (take1 32).hdr (take1 32).aff.toNat) = some 1 ∧
    ((c 32).core ⟨0, 1⟩).scrub = none ∧ ((c 32).core ⟨0, 1⟩).tenant ≠ some 1 ∧
    freeCtx (base.core k0) = some 1 ∧ bufRun (base.core k0) fetchHdr.bufs = some 0 ∧ (base.ctx ⟨0, 0, 1⟩).arch.rot = 0 := by
  dsimp only
  and_intros <;> decide +kernel
/-- The context is being saved to the pages at 0x200000. -/
def savingS : State := onCore (fun k => { k with tlb := ⟨1, 0x200000, BitVec.ofNat 64 (2 ^ 63 + 2 ^ 60 + 2 ^ 59 + 2 ^ 55 + 0x200000)⟩ :: k.tlb })
  (onCtx (fun x => { x with st := .saving, quiesce := true, b := { x.b with save := 0x200000, gran := 0 } }) base)
theorem witness_DispatchEvents :
    (let s := onCtx (fun x => { x with st := .scrub }) base; (s.ctx c0).st = .scrub ∧ (s.ctx c0).scrubLeft = 0) ∧
    (let s := onCore (fun k => { k with scrub := some (2, 0) }) base; (s.core k0).scrub = some (2, 0)) ∧
    (let s (t : W64) := onCtx (fun x => { x with st := .waiting, b := { x.b with start := some t } }) base;
      ((s 0).ctx c0).st = .waiting ∧ (0 : W64).toNat ≤ ((s 0).die 0).ptb.toNat ∧ ((s 9).die 0).ptb.toNat < (9 : W64).toNat) ∧
    (let s := onCtx (fun x => { x with preempt := true, frozen := 4096 }) base; (s.ctx c0).preempt = true ∧ 4096 ≤ (s.ctx c0).frozen) ∧
    (let s := onCtx (fun x => { x with st := .saving }) base; saveSettled s c0 = true ∧ (s.ctx c0).quiesce = false) ∧
    (let v := savedTask base c0;
      let s := onCtx (fun x => { x with st := .waiting }) { base with saved := [v] };
      (restoring s c0).map (fun v => v.ctx.b.uid) = some v.ctx.b.uid ∧ v.replies = [] ∧ v.bufs = [] ∧ v.lbs = []) := by
  and_intros <;> decide +kernel
/-- A page entry of tenant 1 for data: valid, readable, writable, at DPA 0x50000. -/
def dataPte : W64 := BitVec.ofNat 64 (2 ^ 63 + 2 ^ 60 + 2 ^ 59 + 0x50000)
/-- The module holds address 7 beside its own, and a datagram has come to it at the BHP port from address 6, port 5000. -/
def gramS (b : List Byte) (s : State) : State := argS { s.arg with frame := ⟨7, 47000, 6, 5000, b⟩ } { s with addrs := [⟨7, 0, none⟩] }
/-- A frame of a tenant that holds key 7, sealed under it with SEQ 1; reset holds no key. -/
def frameS (kind : Byte) (t : BitVec 4) (p : List Byte) (s : State) : State :=
  gramS (sealFrame 7 0 kind t 1 p) (s.modTen t fun x => { x with key := some 7 })
theorem gramS_forPort (b : List Byte) (s : State) : forPort (gramS b s) (gramS b s).arg.frame = true := by
  simp [forPort, holds, gramS, argS, Addr.lives]
/-- The frame passes every check of R405 and opens to its payload. -/
def opens (s : State) (kind : Nat) (t : BitVec 4) (p : List Byte) : Prop :=
  forPort s s.arg.frame = true ∧ frameKind s.arg.frame = kind ∧ frameTen s.arg.frame = t ∧ frameSeq s.arg.frame = 1 ∧ frameText s s.arg.frame = some p
theorem last_round_key : ((roundKeys (byteNats (toBytes 32 (7 : BitVec 256).toNat))).getD 14 []).length = 16 := by decide +kernel
/-- A tenant that holds key 7. -/
def keyed (t : BitVec 4) (s : State) : State := s.modTen t fun x => { x with key := some 7 }
theorem frameS_ten (kind : Byte) (t : BitVec 4) (p : List Byte) (s : State) : (frameS kind t p s).ten t = (keyed t s).ten t := rfl
theorem frameS_opens (kind : Byte) (t : BitVec 4) (p : List Byte) (s : State) (hn : p.length ≤ 8192) (hh : hostKinds.contains kind.toNat = true)
    (hq : seqFresh ((keyed t s).ten t) 1 = true ∧ ((keyed t s).ten t).key = some 7) : opens (frameS kind t p s) kind.toNat t p := by
  rw [← frameS_ten kind t p s] at hq
  have hb : (frameS kind t p s).arg.frame.bytes = sealFrame 7 0 kind t 1 p := rfl
  have h := frame_fields hb (by omega) (gcmCrypt_length last_round_key _ p)
  exact ⟨gramS_forPort _ _, h.1, h.2.1, h.2.2.2.1, frameText_sealed hb last_round_key hn hh hq.1 hq.2⟩
/-- The payload of a MAP frame: tenant 1, VA 0x40000, an entry. -/
def mapData : List Byte := [1] ++ toBytes 8 0x40000 ++ toBytes 8 dataPte.toNat
theorem witness_MemoryEvents :
    (let s := base.modDie 1 fun d => { d with hot := [(5, 3)] };
      (s.dies.toList.flatMap fun d => d.hot.map Prod.fst).eraseDups = [5] ∧ s.migs.length < 256 ∧
      heat s (stackDie (placeNow s 5).1) 5 < heat s (hottest s 5) 5 ∧ (dpitEntry s 5).getLsbD 30 = false ∧ s.migs = [] ∧ (lightStack s (hottest s 5)).isSome = true) ∧
    (let s := argS (argId 5) { base with migs := [⟨5, 2, 3⟩] };
      (s.migs.find? fun m => m.page == s.arg.id) = some ⟨5, 2, 3⟩ ∧ pageAt s (2, 3) ≠ 5) ∧
    (let s : State := argS (argId 5) { base with oldCopies := [⟨5, 0, 5⟩] };
      (s.migs.find? fun m => m.page == s.arg.id) = none ∧ s.oldCopies.find? (fun m => m.page == s.arg.id) = some ⟨5, 0, 5⟩ ∧
      cachedOld s ⟨5, 0, 5⟩ = false ∧ cachedOld (s.modDie 1 fun d => { d with dcache := [(5, dpitEntry base 5)] }) ⟨5, 0, 5⟩ = true) ∧
    (let k : Stack := { Stack.reset with acts := [(7, 4097)] }; (k.acts.any fun e => e.1 == 7 && decide (4096 < e.2)) = true ∧ keyOfRow k 7 ≠ keyOfRow k 8) ∧
    (masksOk defaultMasks = true ∧ domRehash base 0 63 = false ∧ domEmpty base 0 63 = true) ∧
    regOk base 0 (BitVec.ofNat 256 (128 * 2 ^ 64 + 256 * 2 ^ 96 + 2 ^ 128)) = true ∧
    (let s := argS { EvArg.none with tenant := 1, va := 0x40000 } (base.modDie 0 fun d => { d with faults := [⟨1, 0x40000, .read, .fetch c0⟩] }); s.hstate ≠ 3 ∧ s.arg.ok = false ∧
      (s.die 0).faults.filter (fun r => r.tenant == s.arg.tenant && r.va.toNat / 0x10000 == s.arg.va.toNat / 0x10000) = [⟨1, 0x40000, .read, .fetch c0⟩]) ∧
    (((base.ten 1).maps.filter fun m => mapMeets m 0x40000 (pteSize dataPte)) = [] ∧ reuseWaits base dataPte = false ∧ pteV dataPte = true ∧ pteX dataPte = false) ∧
    (mapMeets (0x40000, dataPte) 0x40000 1 = true ∧
      (0x40000, dataPte) ∈ ((base.modTen 1 fun x => { x with maps := [(0x40000, dataPte)] }).ten 1).maps) := by
  and_intros <;> decide +kernel
theorem witness_MemoryEvents_frames :
    (let s := frameS 5 0 mapData base;
      opens s 5 0 mapData ∧ s.hstate = 1 ∧ reuseWaits s (textWord mapData 9) = false ∧ mapRefused (acceptSeq 0 1 s) mapData = false) ∧
    (opens (frameS 6 0 (mapData.take 9) base) 6 0 (mapData.take 9) ∧ (mapData.take 9).length = 9 ∧ fieldOf (mapData.take 9) 0 1 < 16) :=
  ⟨⟨frameS_opens _ _ _ _ (by decide) (by decide) (by decide +kernel), by decide +kernel, by decide +kernel, by decide +kernel⟩,
    frameS_opens _ _ _ _ (by decide) (by decide) (by decide +kernel), by decide, by decide⟩
/-- A payload that begins with two numbers. -/
def twoWords (a b : Nat) : List Byte := toBytes 8 a ++ toBytes 8 b
/-- A frame without a seal. -/
def plainS (kind : Byte) (t : BitVec 4) (p : List Byte) (s : State) : State := gramS (frameHead kind t p.length 0 ++ p ++ List.replicate 16 0) s
theorem plainS_fields (kind : Byte) (t : BitVec 4) (p : List Byte) (s : State) (hn : p.length ≤ 8192) (hh : hostKinds.contains kind.toNat = true) :
    forPort (plainS kind t p s) (plainS kind t p s).arg.frame = true ∧ frameKind (plainS kind t p s).arg.frame = kind.toNat ∧
      frameTen (plainS kind t p s).arg.frame = t ∧ frameLen (plainS kind t p s).arg.frame = p.length ∧
      framePayload (plainS kind t p s).arg.frame = p ∧ attestFormed (plainS kind t p s).arg.frame = true := by
  have hb : (plainS kind t p s).arg.frame.bytes = frameHead kind t p.length 0 ++ p ++ List.replicate 16 0 := rfl
  obtain ⟨h1, h2, h3, h4, h5, h6, h7, h8, h9⟩ := frame_fields hb (by omega) rfl
  have ht := t.isLt
  have hl : (plainS kind t p s).arg.frame.bytes.length = 32 + p.length := by
    simp [hb, frameHead, toBytes_length]
    omega
  refine ⟨gramS_forPort _ _, h1, h2, h3, h5, ?_⟩
  simp only [attestFormed, frameFormed, h1, h3, h4, h6, h8, h9, hl, hh, hn, Bool.and_true, beq_self_eq_true, decide_true]
  simpa using ht
theorem plainS_ten (kind : Byte) (t u : BitVec 4) (p : List Byte) (s : State) : (plainS kind t p s).ten u = s.ten u := rfl
theorem plainS_hstate (kind : Byte) (t : BitVec 4) (p : List Byte) (s : State) : (plainS kind t p s).hstate = s.hstate := rfl
theorem frameS_hstate (kind : Byte) (t : BitVec 4) (p : List Byte) (s : State) : (frameS kind t p s).hstate = s.hstate := rfl
theorem base_ready : base.hstate = 1 := by decide +kernel
/-- A datagram for another port is none of the module's; one that the tenant has no key for does not open. -/
theorem witness_HostFrames_discards :
    (let s : State := argS { EvArg.none with frame := ⟨7, 5, 6, 5000, []⟩ } base; forPort s s.arg.frame = false) ∧
    (∀ k ∈ [(1 : Byte), 2, 3, 4, 5, 6, 10], let s := plainS k 1 [] base;
      forPort s s.arg.frame = true ∧ frameKind s.arg.frame = k.toNat ∧ frameText s s.arg.frame = none ∧ s.hstate = 1) ∧
    (∀ k ∈ [(5 : Byte), 6, 10], opens (frameS k 1 [] base) k.toNat 1 [] ∧ (frameS k 1 [] base).hstate = 1) := by
  refine ⟨by simp [forPort, argS], fun k hk => ?_, fun k hk => ?_⟩
  · have hh : hostKinds.contains k.toNat = true := by
      revert k
      decide
    obtain ⟨h1, h2, h3, -⟩ := plainS_fields k 1 [] base (by simp) hh
    have e : ((plainS k 1 [] base).ten 1).key = none := by
      rw [plainS_ten]
      decide +kernel
    refine ⟨h1, h2, ?_, (plainS_hstate k 1 [] base).trans base_ready⟩
    unfold frameText
    rw [h3, e]
    exact ite_self none
  · have hh : hostKinds.contains k.toNat = true := by
      revert k
      decide
    exact ⟨frameS_opens k 1 [] base (by simp) hh (by decide +kernel), (frameS_hstate k 1 [] base).trans base_ready⟩
/-- The payloads of a LAUNCH, a GANG, an MWRITE, an MREAD and of the host's answers. -/
def launchData : List Byte := toBytes 2 (dieId base 0).toNat ++ toBytes 8 0x20000
def gangData : List Byte := toBytes 8 0 ++ launchData
def writeData (va : Nat) : List Byte := toBytes 8 va ++ List.replicate 32 5
theorem opens_freeS (k : Byte) (p : List Byte) (hn : p.length ≤ 8192) (hk : hostKinds.contains k.toNat = true) (f : State → State)
    (hq : seqFresh ((keyed 1 (f freeS)).ten 1) 1 = true ∧ ((keyed 1 (f freeS)).ten 1).key = some 7) :
    opens (frameS k 1 p (f freeS)) k.toNat 1 p := frameS_opens k 1 p (f freeS) hn hk hq
/-- A LAUNCH frame whose record has room does not wait. -/
theorem launch_runs : launchWaits (frameS 1 1 launchData freeS) = false := by
  obtain ⟨-, -, ht, -, hp⟩ := opens_freeS 1 launchData (by decide +kernel) (by decide) id (by decide +kernel)
  simp only [id] at ht hp
  unfold launchWaits
  rw [hp, ht]
  refine Bool.and_eq_false_imp.mpr fun _ => ?_
  decide +kernel
theorem witness_HostFrames :
    (let s := frameS 1 1 launchData freeS
      let u := acceptSeq 1 1 s
      (opens s 1 1 launchData ∧ launchWaits s = false) ∧ s.hstate = 1 ∧ launchDie u launchData = some 0 ∧ launchData.length = 10 ∧
      recFree u 0 1 (textWord launchData 2) = true) ∧
    (let s := frameS 2 1 gangData freeS
      let u := acceptSeq 1 1 s
      let l := gangPairs gangData
      let own := gangHere u l
      opens s 2 1 gangData ∧ s.hstate = 1 ∧ l ≠ [] ∧ l.length ≤ 512 ∧ gangData.length = 8 + 10 * l.length ∧ (∀ x ∈ l, dieExists u x.1 = true) ∧
      (latestPtb u).toNat ≤ (textWord gangData 0).toNat ∧ recsDistinct (own.map Prod.fst) = true ∧ (∀ r ∈ own, recFree u r.1.1 1 r.1.2 = true) ∧
      spansLost u (own.map fun r => r.1.1) = false ∧ (liveTeams u 1).length < 65535 ∧ own ≠ []) ∧
    (∀ va ∈ [0x20000, 0x7000000],
      let s := frameS 3 1 (writeData va) freeS
      opens s 3 1 (writeData va) ∧ s.hstate = 1 ∧ isAck (writeData va) = false ∧ 8 ≤ (writeData va).length ∧
        runOk (acceptSeq 1 1 s) 1 true va 32 = decide (va = 0x20000)) ∧
    (∀ va ∈ [0x20000, 0x7000000],
      let s := frameS 4 1 (twoWords va 32) freeS
      opens s 4 1 (twoWords va 32) ∧ s.hstate = 1 ∧ (twoWords va 32).length = 16 ∧ fieldOf (twoWords va 32) 8 8 = 32 ∧
        runOk (acceptSeq 1 1 s) 1 false va 32 = decide (va = 0x20000)) ∧
    (∀ m ∈ [0x20000, 0x800000],
      let s := frameS 3 0 (writeData m) { base with hstate := 2 }
      opens s 3 0 (writeData m) ∧ s.hstate = 2 ∧ isAck (writeData m) = false ∧ 8 ≤ (writeData m).length ∧
        inStaging (textWord (writeData m) 0).toNat ((writeData m).length - 8) = decide (m = 0x800000)) := by
  refine ⟨⟨⟨opens_freeS 1 launchData (by decide +kernel) (by decide) id (by decide +kernel), launch_runs⟩, ?_⟩,
    ⟨opens_freeS 2 gangData (by decide +kernel) (by decide) id (by decide +kernel), ?_⟩, fun va hv => ⟨opens_freeS 3 _ ?_ (by decide) id (by decide +kernel), ?_⟩,
    fun va hv => ⟨opens_freeS 4 _ ?_ (by decide) id (by decide +kernel), ?_⟩, fun va hv => ⟨frameS_opens 3 0 _ _ ?_ (by decide) (by decide +kernel), ?_⟩⟩
  case refine_1 => and_intros <;> decide +kernel
  case refine_2 => and_intros <;> first | exact List.all_eq_true.mp (by decide +kernel) | decide +kernel
  all_goals
    revert va
    decide +kernel
theorem witness_HostFrames_answers :
    let q (w : Bool) : HostReq := ⟨3, 1, .access 1, w, 0x40, [], 8, 1, 0, 0⟩
    let sa := frameS 3 1 (toBytes 8 (2 ^ 63 + 3)) { accS (.store 7) (2 ^ 41) 8 none with hostReqs := [q true] }
    let sr := frameS 4 1 (twoWords 0x40 5) { accS .load (2 ^ 41) 8 (some 5) with hostReqs := [q false] }
    (opens sa 3 1 (toBytes 8 (2 ^ 63 + 3)) ∧ sa.hstate = 1 ∧ isAck (toBytes 8 (2 ^ 63 + 3)) = true ∧
      sa.hostReqs.find? (fun r => r.tenant == 1 && r.write && decide (r.seq.toNat = (textWord (toBytes 8 (2 ^ 63 + 3)) 0).toNat % 2 ^ 63)) = some (q true) ∧
      (sa.accesses.any fun b => b.id == 1 && accessHome sa b == b.owner.die && b.op == .store 7) = true) ∧
    (opens sr 4 1 (twoWords 0x40 5) ∧ sr.hstate = 1 ∧
      sr.hostReqs.find? (fun r => r.tenant == 1 && !r.write && decide (r.off = (textWord (twoWords 0x40 5) 0).toNat) &&
        decide (r.len + 8 = (twoWords 0x40 5).length)) = some (q false) ∧
      (sr.accesses.any fun b => b.id == 1 && accessHome sr b == b.owner.die && b.op == .load && b.bad.isNone) = true) := by
  refine ⟨⟨frameS_opens 3 1 _ _ (by decide) (by decide) (by decide +kernel), ?_⟩, frameS_opens 4 1 _ _ (by decide) (by decide) (by decide +kernel), ?_⟩
  all_goals and_intros <;> decide +kernel
/-- The payload of a TKEY frame that gives tenant 1 a key and a window of 64 KiB. -/
def tkeyData : List Byte := 1 :: List.replicate 7 0 ++ toBytes 8 0x10000 ++ List.replicate 2592 7
theorem witness_HostFrames_keys :
    (opens (frameS 10 0 tkeyData base) 10 0 tkeyData ∧ (frameS 10 0 tkeyData base).hstate = 1 ∧ tkeyBad tkeyData = false ∧
      BitVec.ofNat 4 (fieldOf tkeyData 0 1) ≠ 0 ∧ ((tkeyData.drop 16).all (· == 0)) = false) ∧
    opens (frameS 8 1 [] base) 8 1 [] ∧
    (let s := plainS 8 0 [] base;
      forPort s s.arg.frame = true ∧ frameKind s.arg.frame = 8 ∧ frameFormed s.arg.frame = true ∧ healthPlain s.arg.frame = true ∧ healthRoom s = true) ∧
    (let s := plainS 9 1 [] base;
      forPort s s.arg.frame = true ∧ frameKind s.arg.frame = 9 ∧ attestFormed s.arg.frame = true ∧ frameLen s.arg.frame = 0 ∧ s.hstate = 1) ∧
    (let s := plainS 9 1 [5] base;
      forPort s s.arg.frame = true ∧ frameKind s.arg.frame = 9 ∧ attestFormed s.arg.frame = true ∧ frameLen s.arg.frame = 1 ∧ attestSigned s s.arg.frame = false) := by
  refine ⟨⟨frameS_opens 10 0 _ _ (by decide +kernel) (by decide) (by decide +kernel), ?_⟩, frameS_opens 8 1 _ _ (by decide) (by decide) (by decide +kernel),
    ⟨gramS_forPort _ _, ?_⟩, ⟨gramS_forPort _ _, ?_⟩, gramS_forPort _ _, ?_⟩
  all_goals and_intros <;> decide +kernel

/-- Known answers: AES-256 of FIPS 197 (C.3), GCM with a key, nonce and text of zeros, SHA3-256 of nothing. -/
theorem test_sealing : aesBlock (roundKeys (List.range 32)) ((List.range 16).map (· * 17)) = beBytes 16 0x8EA2B7CA516745BFEAFC49904B496089 ∧
    gcmTag (List.replicate 32 0) (List.replicate 12 0) [] [] = natBytes (beBytes 16 0x530F8AFBC74536B9A963B4F1C4CB738B) := by decide +kernel
theorem test_digest : sha3x256 [] = natBytes (beBytes 32 0xA7FFC6F8BF1ED76651C14756A061D662F580FF4DE43B49FA82D80A4B80F8434A) := by decide +kernel

/-! ### A request with a signature: under a key whose t1 is 0 the challenge is the hash of what it leaves -/

def zeroKey : List Byte := List.replicate 2592 0
/-- The response of a signature, each coefficient 0, and no hints. -/
def zeroZ : List Byte := (List.replicate 896 [0x00, 0x00, 0x08, 0x00, 0x80]).flatten
/-- The high parts under a transformed challenge, packed. -/
def zeroHigh (cs : List Nat) : List Byte :=
  let zs := ((parts 640 zeroZ).map (unpackBits 20 256)).map fun f => dsaNtt (f.map fun v => (2 ^ 19 + dsaQ - v) % dsaQ)
  ((List.replicate 8 (List.replicate 256 0, ([] : List Nat))).zipIdx.map fun p =>
    let row := (List.range 7).map fun s => dsaUniform (zeroKey.take 32 ++ [BitVec.ofNat 8 s, BitVec.ofNat 8 p.2])
    let az := polySum dsaQ (List.zipWith (polyWith dsaQ (· * ·)) row zs)
    let w := dsaIntt (polyWith dsaQ (fun a b => a + (dsaQ - b)) az (polyWith dsaQ (· * ·) cs p.1.1))
    packBits 4 (w.zipIdx.map fun x => dsaUseHint (p.1.2.contains x.2) x.1)).flatten
def zeroChallenge (msg : List Byte) : List Byte := 
  shake256 64 (shake256 64 (shake256 64 zeroKey ++ [0, 0] ++ msg) ++ zeroHigh (List.replicate 256 0))
def zeroSig (msg : List Byte) : List Byte := zeroChallenge msg ++ (zeroZ ++ List.replicate 83 0)
theorem polyWith_zero (q : Nat) (a : List Nat) (n : Nat) (h : a.length = n) : polyWith q (· * ·) a (List.replicate n 0) = List.replicate n 0 := by
  subst h
  induction a with
  | nil => rfl
  | cons x r ih => simpa [polyWith, List.replicate_succ] using ih
/-- The challenge makes no difference. -/
theorem zeroHigh_const (cs : List Nat) (h : cs.length = 256) : zeroHigh cs = zeroHigh (List.replicate 256 0) := by
  unfold zeroHigh
  refine congrArg List.flatten (List.map_congr_left fun p hp => ?_)
  have e : p.1.1 = List.replicate 256 0 := by
    have := List.mem_replicate.mp (List.fst_mem_of_mem_zipIdx hp)
    rw [this.2]
  rw [e, polyWith_zero _ _ _ h, polyWith_zero _ _ _ List.length_replicate]
theorem nttFrom_length (q : Nat) (z : Nat → Nat) : ∀ (d i : Nat) (f : List Nat), f.length = 2 ^ d → (nttFrom q z d i f).length = 2 ^ d
  | 0, _, _, h => h
  | d + 1, i, f, h => by
    have hp : 2 ^ (d + 1) = 2 * 2 ^ d := by omega
    simp only [nttFrom, List.length_append]
    rw [nttFrom_length q z d _ _ ?_, nttFrom_length q z d _ _ ?_, hp, Nat.two_mul]
    all_goals
      simp [polyWith, h]
      omega
theorem dsaPlace_length (h : Nat) (l : List Byte) : ∀ (f n : Nat) (c : List Nat), (dsaPlace h f n l c).length = c.length := by
  induction l with
  | nil => exact fun _ _ _ => rfl
  | cons b r ih =>
    intro f n c
    unfold dsaPlace
    split
    · rfl
    · split <;> simp [ih]
/-- The signature verifies, whatever the message. -/
theorem zeroSig_verifies (msg : List Byte) : dsaVerify zeroKey msg (zeroSig msg) = true := by
  have hc : (zeroChallenge msg).length = 64 := sponge_length (by decide) (by decide) _ _ _
  have hz : zeroZ.length = 4480 := by decide +kernel
  have e1 : (zeroSig msg).take 64 = zeroChallenge msg := List.take_left' hc
  have e2 : (zeroSig msg).drop 64 = zeroZ ++ List.replicate 83 0 := List.drop_left' hc
  have e3 : (zeroSig msg).drop 4544 = List.replicate 83 0 := by
    rw [show 4544 = 64 + 4480 from rfl, ← List.drop_drop, e2]
    exact List.drop_left' hz
  have e4 : ((zeroSig msg).drop 64).take 4480 = zeroZ := by
    rw [e2]
    exact List.take_left' hz
  have hl : (zeroSig msg).length = 4627 := by simp [zeroSig, hc, hz]
  have hn : (dsaNtt (dsaBall (zeroChallenge msg))).length = 256 := nttFrom_length _ _ 8 _ _ ((dsaPlace_length _ _ _ _ _).trans List.length_replicate)
  have ht : (parts 320 (zeroKey.drop 32)).map (fun b => dsaNtt ((unpackBits 10 256 b).map (· * 2 ^ 13))) = List.replicate 8 (List.replicate 256 0) := by
    decide +kernel
  have hh : dsaHints (((List.replicate 83 (0 : Byte)).map BitVec.toNat).take 75) 0 (((List.replicate 83 (0 : Byte)).map BitVec.toNat).drop 75) =
      some (List.replicate 8 []) := by decide +kernel
  have hb : ((parts 640 zeroZ).map (unpackBits 20 256)).all (fun f => f.all fun v => decide (120 < v) && decide (v < 2 ^ 20 - 120)) = true := by decide +kernel
  have hk : (zeroKey.length == 2592) = true := by decide +kernel
  have hzip : ((List.replicate 8 (List.replicate 256 0)).zip (List.replicate 8 ([] : List Nat))) = List.replicate 8 (List.replicate 256 0, []) := by
    decide +kernel
  unfold dsaVerify
  simp only [e1, e3, e4, hh, ht, hb, hl, hk, hzip]
  change (true && 4627 == 4627 && true &&
    shake256 64 (shake256 64 (shake256 64 zeroKey ++ [0, 0] ++ msg) ++ zeroHigh (dsaNtt (dsaBall (zeroChallenge msg)))) == zeroChallenge msg) = true
  rw [zeroHigh_const _ hn]
  exact beq_self_eq_true (zeroChallenge msg)
/-- What an ATTEST request of tenant 1 signs, and its payload. -/
def attestMsg : List Byte := sha3x512 ([9, 1] ++ toBytes 2 6227 ++ List.replicate 1600 3)
def attestData : List Byte := List.replicate 1600 3 ++ zeroSig attestMsg
/-- Tenant 1 has registered the key. -/
def registered : State := base.modTen 1 fun x => { x with hkey := some zeroKey }
theorem attestData_length : attestData.length = 6227 := by
  have hc : (zeroChallenge attestMsg).length = 64 := sponge_length (by decide) (by decide) _ _ _
  have hz : zeroZ.length = 4480 := by decide +kernel
  rw [attestData, zeroSig, List.length_append, List.length_append, List.length_append, hc, hz, List.length_replicate, List.length_replicate]
theorem witness_HostFrames_signed : let s := plainS 9 1 attestData registered
    forPort s s.arg.frame = true ∧ frameKind s.arg.frame = 9 ∧ attestFormed s.arg.frame = true ∧ attestSigned s s.arg.frame = true ∧ s.hstate = 1 := by
  obtain ⟨h1, h2, h3, -, h5, h6⟩ := plainS_fields 9 1 attestData registered (by simp [attestData_length]) (by decide)
  refine ⟨h1, h2, h6, ?_, (plainS_hstate _ _ _ _).trans base_ready⟩
  have hk : hostKey (plainS 9 1 attestData registered) 1 = some zeroKey := by
    rw [hostKey, if_neg (by decide), plainS_ten]
    decide +kernel
  have hb : (((plainS 9 1 attestData registered).arg.frame.bytes.drop 4).take 4) = [9, 1] ++ toBytes 2 6227 := by
    change ((frameHead 9 1 attestData.length 0 ++ attestData ++ List.replicate 16 0).drop 4).take 4 = _
    rw [attestData_length]
    simp [frameHead, toBytes]
  have hq : attestData.take 1600 = List.replicate 1600 3 := List.take_left' List.length_replicate
  have hd : attestData.drop 1600 = zeroSig attestMsg := List.drop_left' List.length_replicate
  unfold attestSigned
  simp only [-List.reduceReplicate, h3, hk, h5, hb, hq, hd, attestData_length, beq_self_eq_true, Bool.true_and]
  exact zeroSig_verifies attestMsg
/-- An address that the module has not formed differs from its link-local address in the upper half. -/
theorem linkLocal_ne : (7 : BitVec 128) ≠ linkLocal := by
  intro h
  have := congrArg (BitVec.extractLsb' 64 64) h
  rw [linkLocal, addrOf, BitVec.extractLsb'_append_eq_left] at this
  exact absurd this (by decide)
theorem witness_ModuleEvents :
    (base.hstate ≠ 2 ∧ base.hstate ≠ 3 ∧ base.warmFails < 3 ∧ base.arg.val.getLsbD 2 = false ∧ (4 : W64).getLsbD 2 = true ∧ (8 : W64).getLsbD 3 = true ∧
      base.arg.val.getLsbD 3 = false) ∧
    (let s : State := { base with hstate := 2 }; s.hstate = 2 ∧ s.arg.val.getLsbD 3 = false) ∧
    (let s : State := { base with warmFails := 2 }; s.warmFails = 2 ∧ s.hstate ≠ 2 ∧ s.hstate ≠ 3) ∧
    ([0].length ≤ 5 ∧ (0 : Nat) < [0].length) ∧
    (let a : Addr := ⟨addrOf 5, 0, some (9 * 10 ^ 12)⟩;
      let s (l : List Addr) : State := { base with addrs := l };
      (5 : W64) ≠ 0xFE80000000000000 ∧ (s []).hstate = 1 ∧ (∀ x ∈ (s []).addrs, x.addr ≠ addrOf 5) ∧ a ∈ (s [a]).addrs ∧ a.addr = addrOf 5 ∧
      ((s [a]).die 0).ptb.toNat < 9 * 10 ^ 12 ∧ (0 : Nat) < 7201 ∧ (0 : Nat) + 7000 * 10 ^ 9 ≤ 9 * 10 ^ 12) ∧
    (let s := gramS (List.replicate 15 (0 : Byte) ++ [7]) base;
      s.arg.frame.to6 = 7 ∧ s.arg.frame.src ≠ 0 ∧ BitVec.ofNat 128 (ofBytes ((s.arg.frame.bytes.take 16).reverse)) = 7 ∧ s.hstate = 1 ∧
      (∃ x ∈ s.addrs, x.addr = 7 ∧ x.since ≤ (s.die 0).ptb.toNat ∧ x.till = none)) ∧
    ((7 : BitVec 128) ≠ linkLocal ∧ base.addrs = []) := by
  refine ⟨by decide +kernel, by decide +kernel, by decide +kernel, by decide, ⟨by decide, by decide +kernel, ?_, List.mem_singleton.mpr rfl, rfl, by decide +kernel,
    by decide, by decide⟩, ⟨by decide +kernel, by decide +kernel, by decide +kernel, by decide +kernel, ⟨⟨7, 0, none⟩, List.mem_singleton.mpr rfl, rfl, Nat.zero_le _, rfl⟩⟩,
    linkLocal_ne, by decide +kernel⟩
  exact fun x h => absurd h List.not_mem_nil
theorem witness_EncodeDecode : (Instr.addi 5 3 7).wf = true ∧ encode (.addi 5 3 7) = some (.ab 0x00A1C19A) ∧ decodeSlot (.ab 0x00A1C19A) = some (.addi 5 3 7) := by
  decide +kernel
theorem witness_SlotFrames : (∃ t, exec (.addi 5 3 7) base = .next t) ∧ encode (.addi 5 3 7) = some (.ab 0x00A1C19A) :=
  ⟨⟨_, rfl⟩, by decide +kernel⟩
theorem witness_StepRunsDecoded :
    ((match slotOut (planOf (.addi 5 3 7)) .a c0 base with
        | .go _ => true
        | _ => false) = true ∧ (planOf (.addi 5 3 7)).slot = .a ∧ stallShort (base.ctx c0) (planOf (.addi 5 3 7)) = none) ∧
    (let e : Instr × EvArg := (.dieThrottle, EvArg.none); let s : State := { base with inbox := [e] }; s.mid = false ∧ inputWaits s e = false ∧ inputActs s e.1 = true) ∧
    (base.mid = false ∧ (nextInput base).isNone = true ∧ (enabled base).isEmpty = true ∧ (enabled (missS base)).isEmpty = false ∧
      (nextInput (missS base)).isNone = true) ∧ (base.hstate = 1 ∧ 1700 ≤ (base.core k0).phase + (base.core k0).ctl.mhz ∧
      ({ base.core k0 with phase := 0, ctl := { (base.core k0).ctl with mhz := 850 } } : Core).phase + 850 < 1700) ∧ ({ base with focus := ⟨0, 1, 0⟩ } : State).focus.core ≠ 0 ∧
    runningOf (forEach (coreCtxs k0) (fun c s => s.modCtx c stallPasses) (selectCtx k0 (forEach (coreCtxs k0) settleCtx base))) k0 = some c0 ∧
    (bun1.any fun b => (match attemptBundle c0 b base with
      | .issued _ _ _ => true
      | _ => false) && (slotsOn (base.arch c0) b 0).all (fun p => match slotOut p.2 p.1 c0 base with
      | .go _ => true
      | _ => false)) = true := by
  and_intros <;> decide +kernel
theorem witness_MemoryCanonicalKept : base.memOk ∧ ∃ t, step base = .next t :=
  ⟨memOk_of _ (by decide +kernel), by
    have h : (match step base with
      | .next _ => true
      | _ => false) = true := by decide +kernel
    cases hs : step base with
    | next t => exact ⟨t, rfl⟩
    | _ => simp [hs] at h⟩
/-- Tiles of every kind beside those of tileS: a mask of 2 rows in descriptor 3, F8 tiles of 2 by 2 and 2 by 3 in 4 and 5 with their scales in 6 and 7;
accumulators 2 and 3, the second dual; and a chain in slots 1 and 2. -/
def matS (f g : Chain → Chain) : State :=
  let y : Chain := { Chain.scrubbed with z := 1, nq := 2, q := td 0x1000 2 2 16 2, tq := 2 }
  onCtx (fun x => { x with
    y := (x.y.set 1 (f y)).set 2 (g { y with z := 2 })
    z := (x.z.set 2 (some ⟨2, 3, false, false, [], []⟩)).set 3 (some ⟨2, 3, true, false, [], []⟩)
    d := ((((x.d.set 3 (td 0x4000 2 1 16 11)).set 4 (td 0x5000 2 2 16 3)).set 5 (td 0x6000 2 3 16 3)).set 6 (td 0x7000 2 1 16 11)).set 7
      (td 0x8000 3 1 16 11) }) tileS
/-- The command that an instruction enters. -/
def matQ (s : State) (i : Instr) : Cmd := captureCmd c0 i 0x1000 (if isGather i then List.replicate 64 0 else []) 1 s
/-- The operands of an MMA command agree (R313, R314), and it is not malformed for another reason. -/
def agrees (s : State) (i : Instr) : Bool :=
  let q := matQ s i
  (mmaF i).any fun f => ((s.ctx c0).z[f.z.val]).any fun t =>
    let m := tdRows q.imgA
    let k := if f.bt then tdCols q.imgB else tdRows q.imgB
    let n := if f.bt then tdRows q.imgB else tdCols q.imgB
    (commonErr s c0 q).isNone && (bankOf t f.dual).isSome && tdCols q.imgA == k && decide (n ≤ 256) && decide (m ≤ t.rows) && decide (n ≤ t.cols) &&
      (!f.mx || (if f.scl then tdRows q.imgSA == m && tdRows q.imgSB == n && decide (cdiv k 32 ≤ tdCols q.imgSA) && decide (cdiv k 32 ≤ tdCols q.imgSB)
        else decide (k ≤ 32) && decide (n ≤ 128))) && (!isGather i || gatherGood (s.ctx c0) q)
theorem witness_MatrixResults :
    (∀ i ∈ ([.mmaS 1 0 1 2 2 0 0 0 0 0 0 0, .mmaV 3 0 0 2 2 1 0 1 1 0 0 0, .mmaS 1 4 5 3 3 0 1 0 0 1 6 7, .mmaS 1 4 5 3 3 0 1 0 0 0 0 0,
      .mmaSg 1 0 1 2 2 0 0 0 0 0 0, .mmaQ 1 0 1 2 2 0 0 0 0 4] : List Instr), agrees (matS id id) i = true) ∧
    (∀ i ∈ ([.mmaS 1 0 2 2 2 0 0 0 0 0 0 0, .mmaQ 1 0 2 2 2 0 0 0 0 4] : List Instr),
      agrees (matS id id) i = false ∧ commonErr (matS id id) c0 (matQ (matS id id) i) = none) ∧
    (let q := matQ (matS id id) (.mmaQ 1 0 1 2 2 0 0 0 0 4); isGather q.ins = false ∧ ([(k0, q)] : List (CoreId × Cmd))[2 * (c0.core.val % 4 / 2)]? = some (k0, q) ∧
      ([(k0, q)] : List (CoreId × Cmd))[c0.core.val % 4 % 2]? = some (k0, q) ∧ q.ctx = c0.ctx) ∧
    (let s := matS id id
     commonErr s c0 (matQ s (.zzero 1 0)) = none ∧ commonErr s c0 (matQ s (.zzero 3 1)) = none ∧ commonErr s c0 (matQ s (.chend 1)) = none ∧
      commonErr s c0 (matQ s (.chscl 1 4)) = none ∧ commonErr s c0 (matQ s (.chbeg 1 1 0 2 0 0 4)) = none ∧ tdRows (matQ s (.chbeg 1 1 0 2 0 0 4)).imgA = 2 ∧
      commonErr s c0 (matQ s (.chst 1 4)) = none) ∧
    (∀ m ∈ [(0 : BitVec 2), 2],
      let s := matS (fun y => { y with opn := true, bound := true, mode := m }) id
      let q := matQ s (.chblk 1 0 1 3 2 2)
      let y := (s.ctx c0).y[1]
      commonErr s c0 q = none ∧ y.opn = true ∧ y.bound = true ∧ tdCols q.imgA = tdCols y.q ∧ tdRows q.imgB = tdRows q.imgA ∧ tdCols q.imgB = 3 ∧ y.dv = 0 ∧
        y.nq ≤ 2 ∧ (m = 2 → y.nq ≤ tdRows q.imgM ∧ cdiv (tdRows q.imgA) 8 ≤ tdCols q.imgM) ∧ pairOk (BitVec.ofNat 4 y.tq.toNat) 2 0 = true ∧
        descGood s c0 y.q (fun k => k == y.tq.toNat) = true ∧ (s.ctx c0).z[y.z.toNat] = some ⟨2, 3, false, false, [], []⟩) ∧
    (∀ v ∈ [0, 3],
      let s := matS (fun y => { y with bound := true, dv := v }) (fun y => { y with bound := true, dv := v })
      let q := matQ s (.chfin 1 1 9)
      let y := (s.ctx c0).y[1]
      commonErr s c0 q = none ∧ y.opn = false ∧ y.bound = true ∧ y.dv = v ∧ tdRows q.imgA = y.nq ∧ tdCols q.imgA = 3 ∧
        (s.ctx c0).z[y.z.toNat] = some ⟨2, 3, false, false, [], []⟩ ∧ commonErr s c0 (matQ s (.chmrg 1 2)) = none ∧ ((s.ctx c0).y[2]).opn = false ∧
        ((s.ctx c0).y[2]).bound = true ∧ ((s.ctx c0).y[2]).nq = y.nq ∧ ((s.ctx c0).y[2]).dv = v ∧
        (s.ctx c0).z[((s.ctx c0).y[2]).z.toNat] = some ⟨2, 3, false, false, [], []⟩) ∧
    (∀ b ∈ [(0 : Byte), 3],
      let s := put 0x1000 [b, 0, 0, 0, 2, 0, 3, 0] (matS id id)
      let q := matQ s (.chld 1 1 4)
      commonErr s c0 q = none ∧ alignDown q.x.toNat 64 + 1600 ≤ csSize ∧ rdLE (s.core k0).store 0x1000 4 = b.toNat ∧ rdLE (s.core k0).store 0x1019 7 = 0 ∧
        rdLE (s.core k0).store 0x1004 2 = 2 ∧ rdLE (s.core k0).store 0x1006 2 = 3) := by
  and_intros <;> decide +kernel
theorem witness_VectorElements_whole : (Instr.vzero 0x61 0).wf = true ∧ specDir 0x61 = 3 ∧
    (vSpec base (.vzero 0x61 0)).map (fun r => (r.d, r.srcs, r.mrds)) = some (0x61, [], []) ∧ ready base [] [] none false = true := by decide +kernel
/-- A command that has still to write the first 128 bytes of the flags keeps a compare waiting. -/
theorem witness_VectorCompares_waits :
    let s := onCore (fun k => { k with cmds := [{ captureCmd c0 (.chend 1) 0 [] 1 base with writes := [(16 * 248, 16 * 248 + 128)] }] }) base
    busyAny (base.core k0) (16 * (248 : BitVec 8).toNat) 128 = false ∧ busyAny (s.core k0) (16 * (248 : BitVec 8).toNat) 128 = true ∧ ready s [] [specReg 2, specReg 3] none false = true := by decide +kernel
/-- Descriptor 1, which an MMA names, has BARV and AUTO. -/
theorem witness_CommandsEnter_phase :
    let s := onCtx (fun x => { x with d := (x.d.set 0 (td 0x1000 2 2 16 2)).set 1 (td 0x2000 2 3 16 2 + 2 ^ 160 + 2 ^ 162) }) bound1
    (∃ p ∈ cmdDescs false (.mmaQ 1 0 1 2 2 0 0 0 0 4), p.2.toNat = 1) ∧ ((s.ctx c0).d[1]).getLsbD 160 = true ∧ ((s.ctx c0).d[1]).getLsbD 162 = true ∧
      (∃ l v r, cmdSpec s (.mmaQ 1 0 1 2 2 0 0 0 0 4) = some ([4], l, v, r) ∧ tableRoom c0 (.mmaQ 1 0 1 2 2 0 0 0 0 4) v r s = true) :=
  ⟨⟨(1, 1), by decide, by decide⟩, by decide +kernel, by decide +kernel, _, _, _, rfl, by decide +kernel⟩
/-- A result is in flight to port 7, which is bound to a region, or has an unbinding to finish. -/
def sendingS (closing : Bool) : State := onCtx (fun x => { x with flights := [⟨3, false, 0, .port 7 9 5, none⟩] }) (base.modArch c0 fun a =>
  { a with ports := a.ports.set 7 ⟨true, true, 2, true, none, 0x100, 64, 0, closing⟩ })
theorem witness_StreamInstructions_closing : inFlightTo ((sendingS false).ctx c0) 7 ≠ 0 ∧ (((sendingS false).arch c0).ports[7]).bound = true ∧
    (((sendingS false).arch c0).ports[7]).out = true ∧ ready (sendingS false) [] [] none true = true ∧ (((sendingS true).arch c0).ports[7]).closing = true ∧
    ((sendingS true).ctx c0).flights[0]? = some ⟨3, false, 0, .port 7 9 5, none⟩ := by decide +kernel
/-- A pipelined level with the bundle in its body, and one with it outside. -/
theorem witness_LoopsAndTargets_stages :
    let s (lo hi : W32) : Arch := (base.modArch c0 fun a => { a with loops := [⟨true, 5, 2, lo, hi, 3, 2, 4, false⟩], pc := 4 }).arch c0
    (∀ l r, (s 0 9).loops = l :: r → l.pipelined = true ∧ l.lo.toNat ≤ (s 0 9).pc.toNat ∧ (s 0 9).pc.toNat ≤ l.hi.toNat) ∧ (s 0 9).loops ≠ [] ∧
    (∀ l r, (s 5 9).loops = l :: r → l.pipelined = true ∧ ¬ (l.lo.toNat ≤ (s 5 9).pc.toNat ∧ (s 5 9).pc.toNat ≤ l.hi.toNat)) ∧ (s 5 9).loops ≠ [] := by
  refine ⟨fun l r h => ?_, List.cons_ne_nil _ _, fun l r h => ?_, List.cons_ne_nil _ _⟩ <;> obtain ⟨rfl, -⟩ := List.cons.inj h <;> decide
/-- A counting object in the core's store, past its end, in a buffer given away, in handle form, and with reserved bits; and a message of no bytes. -/
theorem witness_LinkBufferInstructions_objects :
    let s (v : W64) := regs [(4, v)] base
    ([(0x100 : W64), 0x600000, 0x8000000000000000, 0x0000000100000000].all fun v =>
      ready (s v) [4] [] none true && (lbOf (s v) c0 15).st == .closed && !committed (s v) c0 && readOp (s v) c0 4 == v) = true ∧
    ((s 0x100).core k0).own[(0x100 : Nat) / 0x10000]? = some .home ∧
    ((onCore (fun k => { k with own := k.own.set 0 (.held 1) }) (s 0x100)).core k0).own[(0x100 : Nat) / 0x10000]? ≠ some .home ∧
    (let t := regs [(4, 0)] heldLb
     (t.arch c0).ctgen = (t.die 0).tgen ∧ (lbOf t c0 15).holder = some c0 ∧ committed t c0 = false ∧ ((readOp t c0 4).setWidth 32).toNat = 0) := by
  decide +kernel
/-- The running context is a member of a team of two, the other in another package. -/
theorem witness_PriorityAndBarrier_spans :
    let s : State := { inTeam with teams := [{ tenant := 1, id := 7, size := 2, recs := [(0, 0x20000)], nums := [0], tick := none, placed := true, pend := []
                                               failed := false, succ := none }] }
    (spanningTeam s c0).isSome = true ∧ relBusy s c0 5 = false ∧ ready s [] [] none true = true ∧ spanningTeam inTeam c0 = none := by decide +kernel
/-- The task at 0x20000, RUNNING, ends; its list at 0x20200 names the record at 0x20080, CREATED, whose counter is 3. -/
def endS (e : Exit) : State :=
  let s := onCtx (fun x => { x with exit := some e, b := { x.b with task := 0x20000 } }) (recS 4 0 0)
  vaWrite k0 1 0x20200 (toBytes 8 0x20080) (vaWrite k0 1 0x20080 (toBytes 4 1 ++ toBytes 4 3) (vaWrite k0 1 0x20018 (toBytes 8 0x20200 ++ toBytes 2 1) s))
/-- A task that has begun to end, and one that has written its end and signals its list. -/
def ending : Exit := ⟨5, 0, false, none, none⟩
def signalling : Exit := ⟨5, 0, false, some 0, some (0x20200, 1)⟩
theorem witness_TaskSignals_ends :
    (let s := endS ending
     (s.ctx c0).exit = some ending ∧ (s.ctx c0).miss = none ∧ (s.core k0).cmds = [] ∧ outputsInFlight (s.ctx c0) = false ∧ relBusy s c0 5 = false ∧
      enginesQuiet s c0 = true ∧ recUsable s k0 1 0x20000 = true ∧ (s.ctx c0).b.team = 0 ∧ s.teams = [] ∧ (s.ctx c0).cmdErr = none ∧
      (s.ctx c0).z = .replicate 16 none) ∧
    (let s := onCtx (fun x => { x with exit := some ending }) storing; relBusy s c0 5 = true ∧ (s.ctx c0).exit = some ending) ∧
    (let s := lb15 (fun l => { l with st := .full, holder := some c0, tenant := 1, sending := some 0 }) (endS ending)
     relBusy s c0 5 = false ∧ ((s.die 0).lbs[15]).holder = some c0 ∧ ((s.die 0).lbs[15]).sending ≠ none) ∧
    (let s := onCtx (fun x => { x with exit := some ending, b := { x.b with task := 0x70000 } }) base
     translate s k0 1 0x70000 = none ∧ (s.ctx c0).unres.contains (pageVa 0x70000) = false ∧ relBusy s c0 5 = false) ∧
    (let s := onCtx (fun x => { x with b := { x.b with team := 7 } }) (endS ending)
     (let g : Team := { tenant := 1, id := 7, size := 1, recs := [(0, 0x20000)], nums := [0], tick := none, placed := true, pend := [], failed := false, succ := none }
      let t : State := { s with teams := [g] }
      othersRun t c0 = false ∧ teamOf t 1 7 = some g ∧ g.spans = false) ∧
      othersRun ({ s with saved := [savedTask s c0] } : State) c0 = true) := by
  and_intros <;> first | decide +kernel | rfl
theorem witness_TaskSignals_signals :
    (let s := endS signalling
     signalling.succ = some (0x20200, 1) ∧ (s.ctx c0).att = .none ∧ (match textFrom s k0 1 0x20200 8 3 [] with
      | .done l => BitVec.ofNat 64 (ofBytes l) == 0x20080
      | _ => false) = true ∧ canSignal s k0 1 0x20080 = true ∧ signalBlocked s k0 1 0x20080 = false ∧ canSignal s k0 1 0x20100 = false) ∧
    (match textFrom (listAt 0x30000) k0 1 0x30000 8 3 [] with
      | .ask _ _ _ => true
      | _ => false) = true ∧
    (match textFrom (endS signalling) k0 1 0x70000 8 3 [] with
      | .miss _ => true
      | _ => false) = true ∧
    (match textFrom (endS signalling) k0 1 (2 ^ 48) 8 3 [] with
      | .bad _ => true
      | _ => false) = true ∧
    (let s := heldLb; ((s.die 0).lbs[15]).holder = some c0 ∧ ((s.die 0).lbs[15]).st ≠ .filling) ∧
    (let s := lb15 (fun l => { l with st := .filling, holder := some c0 }) base; ((s.die 0).lbs[15]).holder = some c0 ∧ ((s.die 0).lbs[15]).st = .filling) := by
  and_intros <;> first | decide +kernel | rfl
/-- Every queue of die 0 is full, and the successor is ARMED with one signal to come. -/
def fullS : State := (vaWrite k0 1 0x20080 (toBytes 4 2 ++ toBytes 4 1) (endS signalling)).modDie 0 fun d =>
  { d with queues := .replicate 64 (List.replicate (32 + 2 ^ 16) 0x20000) }
theorem fullS_room (q : Fin 64) : qRoom (fullS.die 0) q = false := by
  have h : (fullS.die 0).queues = .replicate 64 (List.replicate (32 + 2 ^ 16) 0x20000) := rfl
  simp [-List.reduceReplicate, qRoom, qAll, h]
theorem witness_TaskSignals_blocked : canSignal fullS k0 1 0x20080 = true ∧ signalBlocked fullS k0 1 0x20080 = true := by
  refine ⟨by decide +kernel, ?_⟩
  have h : enqWhere fullS k0 1 0x20080 = 0 ∧ (recSt fullS k0 1 0x20080 == 2 && recCount fullS k0 1 0x20080 == 1) = true := by decide +kernel
  rw [signalBlocked, enqRoom, h.1, fullS_room, h.2]
  rfl
/-- The entry to cores 0 and 1 of the quad, with sums (OP 1), the barrier at 0x100 (BV) and flag 9 (FV); the one from link buffer 15; the one to the VA 0x20000. -/
def entMany : BitVec 256 := ent1 + BitVec.ofNat 256 (3 * 2 ^ 116 + 9 * 2 ^ 52 + 0x100 * 2 ^ 224 + 2 ^ 252 + 2 ^ 254 + 2 ^ 255)
def entFromLb : BitVec 256 := ent1 + BitVec.ofNat 256 (14 * 2 ^ 16 + 0xF000 + 2 ^ 49)
def entToVa : BitVec 256 := ent1 + BitVec.ofNat 256 ((0x1E000 + 2 ^ 48) * 2 ^ 64)
/-- Core 1 of the quad admits channel 1 of core 0 to its buffer 0, or does not. -/
def manyS (adm : Byte) : State := put 0x500 (toBytes 32 entMany.toNat) ((chanS fun h => { h with next := 0x500, left := 1 }).modCore ⟨0, 1⟩ fun k => { k with adm := k.adm.set 0 adm })
theorem witness_CopyAndWindowEvents_many :
    (let s := manyS 2;
      BitVec.ofNat 256 (rdLE (s.core k0).store 0x500 32) = entMany ∧ entryOk entMany = true ∧ entMcast entMany ≠ 0 ∧ lbNotHeld s c0 entMany = none ∧
      ((entryCores k0 entMany).all fun d => (List.range (entRows entMany)).all fun r =>
        d == k0 || (deliveryErr s k0 d 1 (rowAddrs (entDLay entMany) (entryDst entMany r) r (entryLen entMany))).isNone) = true ∧
      (deliveryErr (manyS 0) k0 ⟨0, 1⟩ 1 (rowAddrs (entDLay entMany) (entryDst entMany 0) 0 (entryLen entMany))).isSome = true) ∧
    (let s := chanS fun h => { h with cur := some (0x500, ent1, 0) };
      rowStartErr s k0 1 ent1 0 = none ∧ (rowStartErr (onCore (fun k => { k with own := k.own.set 0 (.held 1) }) s) k0 1 ent1 0).isSome = true ∧
      rowStartErr s k0 1 entFromLb 0 = none ∧ entSKind entFromLb = 2) ∧
    (let r : Row := { Row.start k0 0 0x500 entMany 0 with data := List.replicate 16 5, need := [] };
      let s := put 0x2000 (toBytes 4 7) (chanS fun h => { h with rows := [r], opens := [(0x500, entMany, 1)] });
      let as := rowAddrs (entDLay entMany) (entryDst entMany 0) 0 16;
      hostOut s (.row k0 1 0) = false ∧ r.left.length = 32 ∧ r.data.length = entryLen entMany ∧ (entryCores k0 entMany)[0]? = some k0 ∧
      (entryCores k0 entMany)[1]? = some ⟨0, 1⟩ ∧ as.Nodup ∧ entOp entMany = 1 ∧ entBV entMany = true ∧ entFV entMany = true ∧
      (match copyRowDelivery (argS { argC with unit := 1, num := 0 } s) with
        | t => (rdLE (t.core k0).store 0x2000 4, (((t.core k0).chans[1]).rows.map fun q => q.left.length))) = (0x0505050C, [16])) ∧
    (let r : Row := { Row.start k0 0 0x500 entToVa 0 with data := List.replicate 16 5, need := [] };
      let s := onCore (fun k => { k with chans := k.chans.set 1 { Chan.idle with busy := true, owner := c0, uid := 1, rows := [r] } }) (recS 0 0 0);
      entDKind entToVa = 1 ∧ r.left.all (fun l => l.1 == 0) = true ∧ (match pageReq s k0 1 (entryDst entToVa 0) 16 0 16 true false with
        | .req q => !q.stale s && q.home s == 0 && !engineQueues s 0 true q.cells && !engineQueues s 0 false q.cells
        | _ => false) = true) := by
  and_intros <;> decide +kernel
/-- Round 1, formed with the outcome 1. -/
def formed1 : Round := { rnd1 with formed := some (true, 0) }
/-- The path whose round has formed, under a leaf, holds a store and a sum, and has a copy of matrix register 2, of which the path has written word 5. -/
def heldS (leaf : Nat) : State := argS { argC with id := 1 } (onCtx (fun x => { x with
  mreg := [(2053, 9), (5000, 4)]
  spec := x.spec.map fun p => { p with held := [.store 0x300 [1, 2], .fadd 9 4], mcopy := [(2, [(2053, 7)])] } })
  { rndS (some leaf) with rounds := [formed1] })
theorem witness_BarriersAndRounds_held :
    (heldS 0).rounds.find? (fun q => q.id == (heldS 0).arg.id) = some formed1 ∧
    (formed1.members.find? (fun m => m.c == c0)).any (outcomeReady formed1) = true ∧ formed1.scope ≤ 5 ∧ groupOdd (heldS 0) formed1 = false ∧
    ((heldS 0).ctx c0).att = .none ∧
    ((heldS 0).ctx c0).spec.map (fun p => (p.round, standingLeaf p true, p.leaf, p.held.length)) = some (1, 0, 0, 2) ∧
    ((heldS 1).ctx c0).spec.map (fun p => (p.round, standingLeaf p true, p.leaf, p.mcopy.map fun e => (e.1, e.2.map Prod.fst))) = some (1, 0, 1, [(2, [2053])]) ∧
    (2053 : Nat) / 1024 = 2 := by
  and_intros <;> decide +kernel
theorem test_match_releases : (match exec .cbrOutcome (heldS 0) with
    | .next t => rdCells (t.core k0).store 0x300 2 == [1, 2] && rdFlag (t.core k0).store 9 == 4 && (t.ctx c0).spec.isNone
    | _ => false) = true := by decide +kernel
theorem test_mismatch_restores : (match exec .cbrOutcome (heldS 1) with
    | .next t => rdCell (t.ctx c0).mreg 2053 == 7 && rdCell (t.ctx c0).mreg 5000 == 4 && rdFlag (t.core k0).store 9 == 0
    | _ => false) = true := by decide +kernel
/-- Entries of a path that cannot perform yet: a store, a sum and a compare into a range that a command uses, a tile in use, and a command for a full table. -/
theorem witness_BarriersAndRounds_waits :
    let busy := onCore (fun k => { k with cmds := [{ captureCmd c0 (.chend 1) 0 [] 1 base with writes := [(0, 128)] }] }) base
    let full := onCore (fun k => { k with cmds := List.replicate 16 (captureCmd c0 (.chend 1) 0 [] 1 base) }) base
    busyAny (busy.core k0) 0x40 2 = true ∧ busyAny (busy.core k0) (4 * 9) 4 = true ∧ busyAny (busy.core k0) (4 * 0) 128 = true ∧
    (releaseOne c0 (.store 0x40 [1, 2]) busy).isNone = true ∧ (releaseOne c0 (.store 0x400 [1, 2]) busy).isSome = true ∧
    tableRoom c0 (.chend 1) 0 [] full = false ∧ tableRoom c0 (.chend 1) 0 [] base = true ∧ tileBusy tileS c0 1 = false ∧
    tileBusy (cmdS (.zzero 1 0) 0 [] tileS) c0 1 = true := by decide +kernel
theorem witness_Reconfigurations_circuits :
    let r := rcf .draining circ4 0
    linksDrained (rcfS r) r = true ∧ r.members.any (fun m => (List.finRange 6).any fun l => circSet m.plan l) = true := by decide +kernel
/-- An operation of die 0 whose local or remote side, by the bit of its descriptor (LKIND, RKIND), is the page of the VA 0x20000. -/
def ropV (k : RopKind) (n l r bit : Nat) (f : Rop → Rop) : Rop :=
  rop1 k 8 fun q => f { q with desc := ropD l r n 0 0 7 + BitVec.ofNat 256 (2 ^ bit), dest := 0 }
def ropVS (ok : Bool) (r : Rop) : State := argS { argId 1 with ok := ok } ({ recS 0 0 0 with rops := [r] } : State)
/-- A page's request is made and its die serves it now. -/
def servedReq (s : State) (d : Fin 4) (write : Bool) : PageStep → Bool
  | .req q => !q.stale s && q.home s == d && !engineQueues s d write q.cells
  | _ => false
def errReq : PageStep → Bool
  | .err _ => true
  | _ => false
theorem witness_RemoteEvents_local :
    (let r := ropV .put 8 0x20000 0x2000 185 id; let s := ropVS false r;
      ropGoes s r = true ∧ ropBlocked s r = false ∧ ropLK r.desc = true ∧ servedReq s 0 false (pageReq s k0 1 0x20000 8 0 8 false false) = true) ∧
    (∀ k ∈ [RopKind.get, .ramo], let r := rop1 k 8 id; let s := ropW false r; ropGoes s r = true ∧ ropBlocked s r = false ∧ ropLK r.desc = false) ∧
    (let r := ropV .get 8 0x20000 0x2000 185 fun q => { q with data := eight }; let s := ropVS true r;
      ropGoes s r = true ∧ ropLK r.desc = true ∧ earlierAt s r.owner r.uid r.id (r.localCells s) = false ∧
      servedReq s 0 true (pageReq s k0 1 0x20000 8 0 8 true false) = true ∧ (r.bytes 0 8).length = 8) := by
  and_intros <;> decide +kernel
/-- The target's side: a core's store, a mapped page, and an address past the last. -/
theorem witness_RemoteEvents_targets :
    (∀ p ∈ [(0x20000, true), (2 ^ 48, false)], let r := ropV .put 8 0x1000 p.1 186 fun q => { q with data := eight }; let s := ropVS true r;
      ropGoes s r = true ∧ ropRK r.desc ≠ 0 ∧ (s.core k0).tenant = some 1 ∧ (r.hasBytes ⟨0, 8, [], 0, 0, 0⟩ = true) ∧
      servedReq s 0 true (pageReq s k0 1 p.1 8 0 8 true false) = p.2 ∧ errReq (pageReq s k0 1 p.1 8 0 8 true false) = !p.2) ∧
    (let r := rop1 .get 8 fun q => { q with stage := 2 };
      ropGoes (ropW true r) r = true ∧ ropRK r.desc = 0 ∧ ropCoreOk (ropW true r) r = true ∧
      ropCoreOk (argS { argId 1 with ok := true } { base with rops := [r] }) r = false) ∧
    (∀ p ∈ [(0x20000, true), (2 ^ 48, false)], let r := ropV .get 8 0x1000 p.1 186 fun q => { q with stage := 2 }; let s := ropVS true r;
      ropGoes s r = true ∧ ropRK r.desc ≠ 0 ∧ servedReq s 0 false (pageReq s k0 1 p.1 8 0 8 false false) = p.2 ∧
      errReq (pageReq s k0 1 p.1 8 0 8 false false) = !p.2) ∧
    (∀ p ∈ [(0x20000, true), (2 ^ 48, false)], let r := ropV .ramo 0x81 0x1000 p.1 186 fun q => { q with stage := 2 }; let s := ropVS true r;
      ropGoes s r = true ∧ ropRK r.desc ≠ 0 ∧ servedReq s 0 true (pageReq s k0 1 p.1 8 0 (ropSize r.desc) true true) = p.2 ∧
      errReq (pageReq s k0 1 p.1 8 0 (ropSize r.desc) true true) = !p.2) ∧
    oneElement base 0x20000 8 = true ∧
    oneElement { base with hbmStacks := base.hbmStacks.set 0 { Stack.reset with regions := [BitVec.ofNat 256 (128 * 2 ^ 64 + 256 * 2 ^ 96 + 2 ^ 128)] } } 0 8 = false := by
  and_intros <;> decide +kernel
/-- The last chunk of a message to a buffer that counts at an object in its holder's store. -/
theorem witness_RemoteEvents_lastChunk :
    let r := rop1 .lbsend 8 fun r => { r with data := eight, lbTo := 15 }
    let s := modLb 1 15 (fun l => { l with st := .empty, holder := some ⟨1, 0, 0⟩, tenant := 1, obj := some 0x100 }) (ropW true r)
    let l := (s.die 1).lbs[15]
    ropGoes s r = true ∧ lbSaved s 1 15 = false ∧ l.tenant = r.tenant ∧ l.st = .empty ∧ l.obj = some 0x100 ∧ l.holder = some ⟨1, 0, 0⟩ ∧ lbFirst s r = true ∧
      upTo s r.data.length = 8 ∧ r.len ≤ r.arrived + 8 ∧ { r with origin := some (0x7, 3) }.len ≤ r.arrived + 8 := by
  decide +kernel
/-- A save with the admissions of the task's buffers recorded; and a save of a task with buffer 0, which a copy of core 1 still delivers to. -/
def closedS : State := onCtx (fun x => { x with admSaved := some [] }) savingS
def deliveredS : State := (onCtx (fun x => { x with admSaved := some [2], b := { x.b with firstBuf := 0, nBuf := 1 } }) savingS).modCore ⟨0, 1⟩ fun k =>
  { k with chans := k.chans.set 1 { Chan.idle with busy := true, rows := [{ Row.start ⟨0, 1⟩ 0 0x500 (ent1 + BitVec.ofNat 256 (2 ^ 116)) 0 with need := [] }] } }
theorem witness_DispatchEvents_admissions :
    ((savingS.ctx c0).st = .saving ∧ saveReady savingS c0 = true ∧ (savingS.ctx c0).admSaved = none) ∧
    (saveReady deliveredS c0 = true ∧ (deliveredS.ctx c0).admSaved ≠ none ∧ acceptedTo deliveredS k0 (deliveredS.ctx c0).b = true) ∧
    (saveReady closedS c0 = true ∧ (closedS.ctx c0).admSaved ≠ none ∧ acceptedTo closedS k0 (closedS.ctx c0).b = false ∧ savedDie closedS 0 (closedS.ctx c0).b = some 0 ∧
      savePages closedS c0 (closedS.ctx c0).b.save.toNat (saveBytes closedS c0).length = .ok ∧ (closedS.ctx c0).att = .none ∧
      ((writeFrom c0 1 0x200000 (saveBytes closedS c0) (saveBytes closedS c0).length 0 { closedS with draws := closedS.draws + 262144 }).any fun p => p.1) = true ∧
      qRoom (closedS.die 0) (qIdx 1 0) = true) := by
  and_intros <;> decide +kernel
/-- Page 5 is mapped. -/
def mapped5 : State := base.modTen 1 fun x => { x with maps := [(0x40000, dataPte)] }
/-- An access under way to page 5, and the descriptor of a region there. -/
theorem witness_MemoryEvents_mapped :
    mapped mapped5 (fun _ => true) 5 = true ∧ mapped base (fun _ => true) 5 = false ∧ regionWaits base = false ∧
    (let d := BitVec.ofNat 256 (128 * 2 ^ 64 + 256 * 2 ^ 96 + 2 ^ 128)
     regionWaits (argS { EvArg.none with data := toBytes 32 d.toNat } (accS (.store 7) 0 4 none)) = true) := by
  and_intros <;> decide +kernel
/-- The payload of a MAP frame of an executable page whose kernel header stands in a host window. -/
def codeData : List Byte := [1] ++ toBytes 8 0x40000 ++ toBytes 8 (2 ^ 63 + 2 ^ 60 + 2 ^ 58 + 0x50000)
def hostHeader : State := argS { EvArg.none with num := 0x30000 } (onCore (fun k => { k with
  tlb := ⟨1, 0x30000, BitVec.ofNat 64 (2 ^ 63 + 2 ^ 60 + 2 ^ 59 + 2 ^ 41)⟩ :: k.tlb }) base)
theorem witness_MemoryEvents_header :
    (headerOut base 1 dataPte 0 = false ∧ askHeader 1 dataPte 0 base = none ∧ textWord mapData 9 = dataPte ∧ mapTen mapData = 1) ∧
    (let s := frameS 5 0 codeData hostHeader
     opens s 5 0 codeData ∧ s.hstate = 1 ∧ s.arg.num = 0x30000 ∧ reuseWaits s (textWord codeData 9) = false ∧ mapRefused (acceptSeq 0 1 s) codeData = false ∧
      headerOut s (mapTen codeData) (textWord codeData 9) 0x30000 = false ∧ (askHeader (mapTen codeData) (textWord codeData 9) 0x30000 s).isSome = true) := by
  refine ⟨by and_intros <;> decide +kernel, frameS_opens _ _ _ _ (by decide) (by decide) (by decide +kernel), ?_⟩
  and_intros <;> decide +kernel
/-- The run of a host frame under way: at a page in memory, at one in a host window, past the last page. -/
def run1 (w : Bool) (va : Nat) (left : List Nat) : HostRun := ⟨5, 1, 3, w, va, List.replicate 32 5, left, .start, none, 0, false⟩
def runS (r : HostRun) : State := argS { EvArg.none with req := .frame 5 } { onCore (fun k => { k with
  tlb := ⟨1, 0x30000, BitVec.ofNat 64 (2 ^ 63 + 2 ^ 60 + 2 ^ 59 + 2 ^ 41)⟩ :: k.tlb }) (recS 0 0 0) with runs := [r] }
theorem witness_HostFrames_runs :
    (∀ w ∈ [true, false], ∀ l ∈ [[], List.range 32], let r := run1 w 0x20000 l
      (runS r).runs.find? (fun q => q.id == r.id) = some r ∧ (runS r).arg.req = .frame r.id ∧ r.hold = false ∧ hostOut (runS r) (.frame r.id) = false) ∧
    (∀ w ∈ [true, false], let r := run1 w 0x20000 (List.range 32)
      pickRun r.left 0 0 false = (0, 32) ∧ servedReq (runS r) 0 w (pageReq (runS r) k0 1 0x20000 32 0 32 w false) = true) ∧
    (∀ w ∈ [true, false], let r := run1 w 0x30000 (List.range 32)
      (match pageReq (runS r) k0 1 0x30000 32 0 32 w false with
        | .host _ _ => true
        | _ => false) = true) ∧
    (∀ w ∈ [true, false], let r := run1 w (2 ^ 48) (List.range 32)
      errReq (pageReq (runS r) k0 1 (2 ^ 48) 32 0 32 w false) = true) ∧
    { run1 true 0x20000 [] with hold := true }.hold = true ∧ (∀ id, base.arg.req ≠ .frame id) := by
  refine ⟨by decide +kernel, by decide +kernel, by decide +kernel, by decide +kernel, rfl, fun id h => ?_⟩
  have e : (match base.arg.req with
    | .frame _ => true
    | _ => false) = false := by decide +kernel
  rw [h] at e
  cases e
/-- Core 0, with a task, fails; core 1, without one, is failing. -/
theorem witness_ModuleEvents_cores :
    (base.arg.ok = false ∧ c0.coreId = k0 ∧ (base.ctx c0).st.bound = true ∧ (base.ctx c0).exit = none ∧ (base.core k0).failing = false) ∧
    (let s := onCore (fun k => { k with failing := true }) base; (s.core k0).failing = true ∧ ((s.core k0).ctxs[0]).st.bound = true) ∧
    (let s := base.modCore ⟨0, 1⟩ fun k => { k with failing := true }
     (s.core ⟨0, 1⟩).failing = true ∧ ∀ i : Fin 8, (((s.core ⟨0, 1⟩).ctxs[i.val]).st.bound = false)) := by
  and_intros <;> decide +kernel
/-- An acknowledgement on a link to another package, after a flit that was not taken; and 256 bytes that are no flit. -/
theorem witness_LinksAndTime_away :
    (let s := modLink 0 4 (fun x => { x with nack := true }) awayS; linkRuns s 0 4 = true ∧ (linkOf s 0 4).nack = true ∧ (linkOf s 0 4).out.isSome = true) ∧
    (wireFlit awayS [1]).isNone = true ∧ (∃ e : Fin 4, (base.die e).ptbLocked = true ∧ dieId base e = ptbMaster base) ∧
    (let s := modLink 0 0 (fun x => { x with training := true }) base; (linkOf s 0 0).training = true ∧ trainsFor s 0 0 = none) := by
  refine ⟨by decide +kernel, by decide +kernel, ⟨0, by decide +kernel⟩, by decide +kernel⟩

end Sys2Proof.Tests
end

