-- ==== Sys2Proof/Proofs/PriorityAndBarrier.lean ====
section
/-! PROOF. Priorities and the team barrier (23 R362, R366): what TSETQ and BSYNC come to, and how a member of a team that spans packages enters the round
of its pod barrier (log 18). -/

namespace Sys2Proof.Machine

/-! ## TSETQ and TSETQ.SELF -/

theorem exec_tsetq (x : Code7) (p : BitVec 2) (s : State) : exec (.tsetq x p) s = runPlan (planTsetq x p) s := rfl
theorem exec_tsetqSelf (p : BitVec 2) (s : State) : exec (.tsetqSelf p) s = runPlan (planTsetqSelf p) s := rfl

/-- A record that the context in focus reaches neither freezes nor traps its instruction (R352). -/
theorem withVas_recordAt {s : State} {r : W64} (h : recordAt s r = true) (k : SlotOut) :
    withVas [(r, recAt s s.focus r)] s.focus k = k := by
  have hr : recAt s s.focus r = .ok := by simpa [recordAt] using h
  simp [withVas, firstSome, hr]

/-- A change of priority performs where the record may be changed and the queue of its new priority has room for its entry. -/
theorem tsetqOut_go (s : State) (r : W64) (self : Bool) (p : Nat) :
    let k := s.focus.coreId
    let t := (s.ctx s.focus).b.tenant
    let q := min p (s.ten t).ceiling.toNat
    recordAt s r = true → (self = true ∨ recLive (recSt s k t r) = true ∧ isMember s k t r = false) →
    (∀ d w e, queueEntry s t r = some (d, w, e) → qRoom (s.die d) (atPrio w q) = true) →
    tsetqOut self r p s.focus s =
      .go fun u => if (queueOf s k t r).val % 4 = q then noteText k t r.toNat 128 u else requeue k t r q u := by
  intro k t q ha hl hq
  have hmay : ¬ ((!self) = true ∧ ((!recLive (recSt s k t r)) = true ∨ isMember s k t r = true)) := by
    rcases hl with hself | ⟨hlive, hmem⟩
    · simp [hself]
    · simp [hlive, hmem]
  simp only [tsetqOut, withVas_recordAt ha]
  rw [if_neg hmay]
  by_cases hold : (queueOf s k t r).val % 4 = q
  · rw [if_pos hold]
    exact congrArg SlotOut.go (funext fun _ => (if_pos hold).symm)
  · have hmove : SlotOut.go (requeue k t r q) = .go fun u => if (queueOf s k t r).val % 4 = q then noteText k t r.toNat 128 u else requeue k t r q u :=
      congrArg SlotOut.go (funext fun _ => (if_neg hold).symm)
    rw [if_neg hold]
    split
    next d w e he => exact (if_pos (hq d w e he)).trans hmove
    next => exact hmove

/-! ## BSYNC -/

theorem exec_bsync (scope : BitVec 3) (s : State) : exec (.bsync scope) s = runPlan (planBsync scope) s := rfl

/-- A release has nothing to wait for where no result is in flight and every write in its scope has performed (R264). -/
theorem relOut_go {s : State} {c : CtxId} {x : Nat} (hf : (s.ctx c).flights = []) (hb : relBusy s c x = false) : relOut x c s = .go id := by
  simp [relOut, hf, hb]

/-- At its first attempt BSYNC passes without a team and arrives at the barrier of its team (R366). -/
theorem bsyncOut_first {s : State} {c : CtxId} {x : Nat} (ha : (s.ctx c).att = .none) (hf : (s.ctx c).flights = []) (hb : relBusy s c x = false) :
    bsyncOut x c s = if (s.ctx c).b.team = 0 then .go (passBarrier x c) else .wait (some (arriveTeam x c)) := by
  simp [bsyncOut, ha, relOut_go hf hb]
theorem bsyncOut_arrived {s : State} {c : CtxId} {x id : Nat} (ha : (s.ctx c).att = .arrived id) : bsyncOut x c s = .go (passBarrier x c) := by
  simp [bsyncOut, ha]
theorem bsyncOut_round {s : State} {c : CtxId} {x id : Nat} (ha : (s.ctx c).att = .round id) : bsyncOut x c s = .wait none := by
  simp [bsyncOut, ha]

/-- A barrier below the pod, or of a team within one package, meets in the module. -/
theorem arriveTeam_local {s : State} {c : CtxId} {x : Nat} (h : spanningTeam s c = none ∨ x ≠ 5) : arriveTeam x c s = arriveBarrier x c s := by
  have hn : (if x = 5 then spanningTeam s c else none) = none := by
    rcases h with h | h <;> simp [h]
  simp only [arriveTeam, hn]

/-- What a member of a team brings to the team's pod barrier: the round has the number of the barriers that the member has passed (R366). -/
def barrierEntrant (s : State) (c : CtxId) (m : Team) : Entrant :=
  teamEntrant m c (s.ctx c).b.uid (s.ctx c).b.member barrierScope ((s.ctx c).b.count 5) true

/-- The pod barrier of a team that spans packages is entered as a round (log 18). -/
theorem arriveTeam_spans {s : State} {c : CtxId} {m : Team} (h : spanningTeam s c = some m) :
    arriveTeam 5 c s = (enterAs (barrierEntrant s c m) s).2.modCtx c (fun y => { y with att := .round (enterAs (barrierEntrant s c m) s).1 }) := by
  simp only [arriveTeam, if_true, h, barrierEntrant]

/-- The team that a context finds is the one its binding names. -/
theorem spanningTeam_names {s : State} {c : CtxId} {m : Team} (h : spanningTeam s c = some m) :
    m.tenant = (s.ctx c).b.tenant ∧ m.id = (s.ctx c).b.team := by
  obtain ⟨hm, -⟩ := Option.filter_eq_some_iff.mp h
  simpa using List.find?_some hm

theorem cgGid_cgm (sc : BitVec 3) (op : BitVec 1) (tout : BitVec 4) (gid count index : W16) : cgGid (cgm sc op tout gid count index) = gid := by
  unfold cgGid cgm
  rw [extract_append_high _ _ _ _ (by decide), extract_append_high _ _ _ _ (by decide)]
  exact extract_append_low _ _

/-! ## What a flit of an arrival leaves -/

/-- A change of a die beside its cores leaves every context. -/
theorem modDie_ctx (s : State) (d : Fin 4) (f : Die → Die) (hf : ∀ x, (f x).cores = x.cores) (c : CtxId) : (s.modDie d f).ctx c = s.ctx c := by
  unfold State.ctx State.core
  by_cases h : c.coreId.die = d
  · simp only [h, modDie_die_same, hf]
  · simp only [modDie_die_other _ _ _ _ h]
theorem modLink_ctx (s : State) (d : Fin 4) (l : Fin 6) (f : Link → Link) (c : CtxId) : (modLink d l f s).ctx c = s.ctx c :=
  modDie_ctx s d _ (by intro; rfl) c
theorem modLink_rounds (s : State) (d : Fin 4) (l : Fin 6) (f : Link → Link) : (modLink d l f s).rounds = s.rounds := setDie_rounds ..
theorem memberHop_coll_ctx (s : State) (id : Nat) (m : CtxId) (f : Hop → Hop) (c : CtxId) : (memberHop (.coll id m) f s).ctx c = s.ctx c := rfl

/-- An arrival of a member here has reached the die where its round meets, or goes to a link, which never refuses it (R373, R377). -/
theorem routeFlit_arrival {f : Flit} {id : Nat} {c : CtxId} (hk : f.kind = .arrival) (ht : f.tag = .coll id c) (d : Fin 4) (s : State) :
    routeFlit d f s = memberHop (.coll id c) Hop.arrive s ∨ ∃ l g, routeFlit d f s = modLink d l g s := by
  unfold routeFlit
  split
  · left
    simp only [deliverFlit, hk, ht]
  · right
    refine ⟨nextHop s d f, _, if_pos ?_⟩
    simp [hk, FlitKind.isRequest]

theorem sendArrival_cases (e : Entrant) (id : Nat) (s : State) :
    sendArrival e id s = s ∨ sendArrival e id s = memberHop (.coll id e.c) Hop.arrive s ∨ ∃ l g, sendArrival e id s = modLink e.c.die l g s := by
  unfold sendArrival
  dsimp only
  split
  · exact .inl rfl
  · split
    · exact .inr (routeFlit_arrival rfl rfl _ s)
    · split
      · exact .inl rfl
      · exact .inr (routeFlit_arrival rfl rfl _ s)

theorem sendArrival_ctx (e : Entrant) (id : Nat) (s : State) (c : CtxId) : (sendArrival e id s).ctx c = s.ctx c := by
  rcases sendArrival_cases e id s with h | h | ⟨l, g, h⟩
  · rw [h]
  · rw [h, memberHop_coll_ctx]
  · rw [h, modLink_ctx]

/-! ## The round that a member enters -/

/-- An entrant stands in a round of its own group and number, with what it contributes. -/
def Entrant.inRound (e : Entrant) (r : Round) : Prop :=
  r.tenant = e.tenant ∧ r.gid = cgGid e.g ∧ r.seq = e.seq ∧ ∃ p ∈ r.members, p.c = e.c ∧ p.val = e.val

/-- An entrant stands in a round with this identifier. -/
def Entrant.entered (e : Entrant) (id : Nat) (s : State) : Prop := ∃ r ∈ s.rounds, r.id = id ∧ e.inRound r

/-- A step of an arrival or an outcome changes where members' flits are, and none of what they entered with. -/
theorem entered_memberHop {e : Entrant} {id : Nat} {s : State} (h : e.entered id s) (n : Nat) (m : CtxId) (f : Hop → Hop) :
    e.entered id (memberHop (.coll n m) f s) := by
  obtain ⟨r, hr, hid, ht, hg, hs, p, hp, hc, hv⟩ := h
  refine ⟨_, List.mem_map_of_mem hr, ?_⟩
  split
  · refine ⟨hid, ht, hg, hs, _, List.mem_map_of_mem hp, ?_⟩
    split
    · exact ⟨hc, hv⟩
    · exact ⟨hc, hv⟩
  · exact ⟨hid, ht, hg, hs, p, hp, hc, hv⟩

theorem entered_sendArrival {e : Entrant} {id : Nat} {s : State} (h : e.entered id s) (n : Nat) : e.entered id (sendArrival e n s) := by
  rcases sendArrival_cases e n s with hs | hs | ⟨l, g, hs⟩
  · rwa [hs]
  · rw [hs]
    exact entered_memberHop h n e.c Hop.arrive
  · rw [hs, Entrant.entered, modLink_rounds]
    exact h

/-- An entrant stands in a round of its own to whose members it has been added. -/
theorem inRound_of_added {e : Entrant} {r : Round} (ht : r.tenant = e.tenant) (hg : r.gid = cgGid e.g) (hs : r.seq = e.seq)
    {l : List Member} {n : Nat} {h : Hop} (hm : r.members = l ++ [e.member n h]) : e.inRound r :=
  ⟨ht, hg, hs, e.member n h, by simp [hm], rfl, rfl⟩

theorem entered_of_added {e : Entrant} {r : Round} {id : Nat} {s : State} {l : List Round} (hs : s.rounds = l ++ [r]) (hid : r.id = id)
    (hr : e.inRound r) : e.entered id s :=
  ⟨r, by simp [hs], hid, hr⟩

theorem entered_modRound {e : Entrant} {r : Round} {s : State} (f : Round → Round) (hr : r ∈ s.rounds) (hid : (f r).id = r.id) (hf : e.inRound (f r)) :
    e.entered r.id (modRound r.id f s) :=
  ⟨f r, List.mem_map.mpr ⟨r, hr, if_pos rfl⟩, hid, hf⟩

/-- A round that an entrant joins is of its tenant, group and number. -/
theorem joins_names {e : Entrant} {r : Round} (h : e.joins r = true) : r.tenant = e.tenant ∧ r.gid = cgGid e.g ∧ r.seq = e.seq := by
  simp only [Entrant.joins, Bool.and_eq_true, beq_iff_eq] at h
  obtain ⟨⟨⟨⟨⟨⟨-, ht⟩, hg⟩, -⟩, -⟩, hs⟩, -⟩ := h
  exact ⟨ht, hg, hs⟩

/-- An entrant stands in the round that it makes or joins, whose identifier `enterAs` gives, before and after its arrival is sent. -/
theorem enterAs_cases (e : Entrant) (s : State) : ∃ v : State,
    ((enterAs e s).2 = v ∨ (enterAs e s).2 = sendArrival e (enterAs e s).1 v) ∧ (∀ c, v.ctx c = s.ctx c) ∧ e.entered (enterAs e s).1 v := by
  unfold enterAs
  dsimp only
  split
  next => exact ⟨_, .inl rfl, fun _ => rfl, entered_of_added rfl rfl (inRound_of_added (l := []) rfl rfl rfl rfl)⟩
  next =>
    split
    next => exact ⟨_, .inr rfl, fun _ => rfl, entered_of_added rfl rfl (inRound_of_added (l := []) rfl rfl rfl rfl)⟩
    next r hr =>
      obtain ⟨ht, hg, hs⟩ := joins_names (List.find?_some hr)
      refine ⟨_, .inr rfl, fun _ => rfl, entered_modRound _ (List.mem_of_find?_eq_some hr) ?_ ?_⟩
      · split <;> rfl
      · split
        · exact inRound_of_added ht hg hs rfl
        · exact inRound_of_added ht hg hs rfl

theorem enterAs_ctx (e : Entrant) (s : State) (c : CtxId) : (enterAs e s).2.ctx c = s.ctx c := by
  obtain ⟨v, h | h, hctx, -⟩ := enterAs_cases e s
  · rw [h, hctx]
  · rw [h, sendArrival_ctx, hctx]

theorem enterAs_entered (e : Entrant) (s : State) : e.entered (enterAs e s).1 (enterAs e s).2 := by
  obtain ⟨v, h | h, -, hin⟩ := enterAs_cases e s
  · rwa [h]
  · rw [h]
    exact entered_sendArrival hin _

/-- The member of a team that spans packages stands in the round of its team numbered by its k. -/
theorem arriveTeam_entered {s : State} {c : CtxId} {m : Team} (h : spanningTeam s c = some m) :
    ∃ (id : Nat) (u : State), arriveTeam 5 c s = u.modCtx c (fun y => { y with att := .round id }) ∧ u.ctx c = s.ctx c ∧
      ∃ r ∈ u.rounds, r.id = id ∧ r.tenant = (s.ctx c).b.tenant ∧ r.gid = (s.ctx c).b.team ∧
        r.seq = BitVec.ofNat 32 ((s.ctx c).b.count 5) ∧ ∃ p ∈ r.members, p.c = c ∧ p.val = true := by
  obtain ⟨htenant, hteam⟩ := spanningTeam_names h
  refine ⟨_, _, arriveTeam_spans h, enterAs_ctx _ s c, ?_⟩
  obtain ⟨r, hr, hid, ht, hg, hs, p, hp, hc, hv⟩ := enterAs_entered (barrierEntrant s c m) s
  exact ⟨r, hr, hid, ht.trans htenant, hg.trans ((cgGid_cgm ..).trans hteam), hs, p, hp, hc, hv⟩

/-! ## The statement -/

/-- Settles O39, by what each instruction's plan comes to, and for the pod barrier of a spanning team by the round that its member enters. -/
theorem priorityAndBarrier : Obligations.PriorityAndBarrier := by
  intro s x p scope
  refine ⟨fun hready ha hlive hmem hroom => ?_, fun hready => ⟨fun ha hroom => ?_, fun id hatt => ?_, fun id hatt => ?_, fun hatt hfl hbusy => ?_,
    fun hloc => ?_, fun m hm => arriveTeam_entered hm⟩⟩
  · rw [exec_tsetq, runPlan_go hready (tsetqOut_go _ _ _ _ ha (.inr ⟨hlive, hmem⟩) hroom)]
    rfl
  · rw [exec_tsetqSelf, runPlan_go hready (tsetqOut_go _ _ _ _ ha (.inl rfl) hroom)]
    rfl
  · rw [exec_bsync, runPlan_go hready (bsyncOut_arrived hatt)]
    rfl
  · rw [exec_bsync, runPlan_wait hready (bsyncOut_round hatt)]
  · have hout := bsyncOut_first hatt hfl hbusy
    rw [exec_bsync]
    by_cases hteam : (s.ctx s.focus).b.team = 0
    · rw [if_pos hteam] at hout ⊢
      rw [runPlan_go hready hout]
      rfl
    · rw [if_neg hteam] at hout ⊢
      rw [runPlan_first hready hout]
  · exact arriveTeam_local (hloc.imp_right fun h hn => h (BitVec.eq_of_toNat_eq hn))

end Sys2Proof.Machine
end

