-- ==== Sys2Proof/Proofs/MatrixResults.lean ====
section
/-! PROOF. The results of the matrix commands (19 R315): a gather multiplies the rows that the gather unit collected into the edge's operand latch, which a
later write to the store does not change, where the statement reads those rows in the store as it stands when the command goes to its array. -/

namespace Sys2Proof.Machine

/-- Words that fill the first rows and columns of a tile leave, written over the bank in their order, the given value at each of those elements. -/
theorem fillsTile_elem {x : Ctx} {z : Fin 16} {b : Bool} {t : Tile} {m n : Nat} {v : Nat → Nat → W32} {ws : List (Nat × W32)}
    (ht : x.z[z.val] = some t) (h : fillsTile x z b t m n v ws) {i j : Nat} (hi : i < m) (hj : j < n) (hc : j < 256) :
    rdCell (ws.foldl (fun m w => wrCell m w.1 w.2) (t.bank b)) (i * 256 + j) = v i j := by
  obtain ⟨u, hu, -, hv⟩ := h
  have hbank : u.bank b = ws.foldl (fun m w => wrCell m w.1 w.2) (t.bank b) := by
    simp only [putAcc, ht, Vector.getElem_set_self, Option.some.injEq] at hu
    subst hu
    cases b <;> rfl
  rw [← hbank, hv i j hc, if_pos ⟨hi, hj⟩]

/-! ## A gather whose row changes after it is collected -/

/-- The descriptor of a tile of one E4M3 element at an address (Table 13.7). -/
def gatherDesc (a : Nat) : BitVec 256 := BitVec.ofNat 256 (a + 2 ^ 32 + 2 ^ 48 + 16 * 2 ^ 64 + 3 * 2 ^ 96)

/-- A tile of one element in one bank, which is 0. -/
def gatherTile : Tile := ⟨1, 1, false, false, [], []⟩

/-- The running context has `gatherTile` as binding 0, and in descriptors 0 and 1 a tile of A at 0x1000, whose element is 0, and one of B at 0x2000,
whose element is 1.0. -/
def gatherCollecting : State :=
  csWrite ⟨0, 0⟩ 0x2000 [0x38] (State.reset.modCtx CtxId.zero fun x =>
    { x with b := { x.b with gran := 8 }, z := x.z.set 0 (some gatherTile), d := (x.d.set 0 (gatherDesc 0x1000)).set 1 (gatherDesc 0x2000) })

/-- The command of `mma.sg z0, d0, d1` with all indices 0, whose row has been collected from the store (R315). -/
def collectedGather : Cmd :=
  let q := captureCmd CtxId.zero (.mmaSg 0 0 1 3 3 0 0 0 0 0 0) 0 (List.replicate 64 0) 1 gatherCollecting
  { q with gather := some 0, tab := gatherTab (gatherCollecting.core ⟨0, 0⟩).store q }

/-- After the collection and before the command goes to its array, a write makes the element of A 1.0. -/
def gatherIssuing : State := csWrite ⟨0, 0⟩ 0x1000 [0x38] gatherCollecting

/-- The fields of `collectedGather`. -/
def gatherFields : MmaF := ⟨0, 3, 3, false, false, false, false, false, false⟩

/-- The command multiplies the collected row: 0 · 1.0. -/
theorem cmdResult_collectedGather :
    cmdResult gatherIssuing CtxId.zero collectedGather = { CmdOut.none with acc := [(0, false, [(0, 0)])] } := by
  decide +kernel

/-- The statement's element is that of the row as it stands now: 1.0 · 1.0. -/
theorem mmaElem_collectedGather :
    mmaElem gatherIssuing CtxId.zero collectedGather gatherFields CtxId.zero.coreId CtxId.zero.coreId collectedGather.imgA collectedGather.imgB
      (rdCell (gatherTile.bank false) 0) 0 0 = 0x3F800000 := by
  decide +kernel

/-- Refutes O60: a gather that has collected its row multiplies the collected row (R315), and the store's row has changed since. -/
theorem not_matrixResults : ¬ Obligations.MatrixResults := by
  intro h
  obtain ⟨-, -, -, hmma, -⟩ := h
  have hbind : (gatherIssuing.ctx CtxId.zero).z[gatherFields.z.val] = some gatherTile := by decide +kernel
  have hsingle := (hmma gatherIssuing CtxId.zero collectedGather gatherFields gatherTile false rfl (by decide +kernel) hbind rfl).1
  have hnotQ : ∀ z dA dB tA tB acc mx du bt x, collectedGather.ins ≠ .mmaQ z dA dB tA tB acc mx du bt x := nofun
  obtain ⟨ws, hresult, hfills⟩ := (hsingle hnotQ).1 (by decide +kernel) (fun _ => by decide +kernel)
  have hws : ws = [(0, 0)] := by
    have hacc := congrArg CmdOut.acc (hresult.symm.trans cmdResult_collectedGather)
    simp only [List.cons.injEq, Prod.mk.injEq, and_true, true_and] at hacc
    exact hacc.2
  have hsize : (0 : Nat) < tdRows collectedGather.imgA ∧ (0 : Nat) < tdCols collectedGather.imgB := by decide +kernel
  have helem := fillsTile_elem hbind hfills hsize.1 hsize.2 (by decide : (0 : Nat) < 256)
  subst hws
  exact absurd (helem.trans mmaElem_collectedGather) (by decide)

end Sys2Proof.Machine
end

