-- ==== Sys2Proof/Proofs/StateRules.lean ====
section
/-! SUPPORT. One update of the state after another, and what a core's translations depend on. -/

namespace Sys2Proof.Machine

/-! ## One update after another -/

theorem setDie_setDie (s : State) (d : Fin 4) (x y : Die) : (s.setDie d x).setDie d y = s.setDie d y := by
  simp only [State.setDie, Vector.set_set]
theorem setCore_setCore (s : State) (k : CoreId) (x y : Core) : (s.setCore k x).setCore k y = s.setCore k y := by
  simp only [State.setCore, setDie_setDie, setDie_die_same, Vector.set_set]
theorem setCtx_setCtx (s : State) (c : CtxId) (x y : Ctx) : (s.setCtx c x).setCtx c y = s.setCtx c y := by
  rw [State.setCtx, setCtx_core_same, State.setCtx, setCore_setCore]
  simp only [Vector.set_set]
  rfl
theorem setDie_self (s : State) (d : Fin 4) : s.setDie d (s.die d) = s := by
  simp only [State.setDie, State.die, Vector.set_getElem_self]
theorem setCore_self (s : State) (k : CoreId) : s.setCore k (s.core k) = s := by
  simp only [State.setCore, State.core, Vector.set_getElem_self]
  exact setDie_self s k.die
theorem setCtx_self (s : State) (c : CtxId) : s.setCtx c (s.ctx c) = s := by
  simp only [State.setCtx, State.ctx, Vector.set_getElem_self]
  exact setCore_self s c.coreId
theorem modCtx_modCtx (s : State) (c : CtxId) (f g : Ctx → Ctx) : (s.modCtx c f).modCtx c g = s.modCtx c fun x => g (f x) := by
  rw [State.modCtx, modCtx_ctx_same, State.modCtx, setCtx_setCtx]
  rfl
theorem modCtx_id (s : State) (c : CtxId) : s.modCtx c (fun x => x) = s := setCtx_self s c
theorem modCtx_congr {s : State} {c : CtxId} {f g : Ctx → Ctx} (h : f (s.ctx c) = g (s.ctx c)) : s.modCtx c f = s.modCtx c g :=
  congrArg (s.setCtx c) h

/-! ## What an update of one part leaves of the others -/

theorem modDie_core (s : State) (d : Fin 4) (f : Die → Die) (hf : ∀ x, (f x).cores = x.cores) (k : CoreId) : (s.modDie d f).core k = s.core k := by
  unfold State.core
  by_cases h : k.die = d
  · rw [h, modDie_die_same, hf]
  · rw [modDie_die_other s d k.die f h]
theorem modCore_ctx (s : State) (k : CoreId) (f : Core → Core) (hf : ∀ x, (f x).ctxs = x.ctxs) (c : CtxId) : (s.modCore k f).ctx c = s.ctx c := by
  unfold State.ctx
  by_cases h : c.coreId = k
  · rw [h, modCore_core_same, hf]
  · rw [modCore_core_other s k c.coreId f h]
theorem modCore_tlb (s : State) (k q : CoreId) (f : Core → Core) (hf : ∀ x, (f x).tlb = x.tlb) : ((s.modCore k f).core q).tlb = (s.core q).tlb := by
  by_cases h : q = k
  · rw [h, modCore_core_same, hf]
  · rw [modCore_core_other s k q f h]
/-- What a die holds beside its cores stays with a change of a core. -/
theorem setCore_die (s : State) (k : CoreId) (x : Core) (d : Fin 4) :
    (s.setCore k x).die d = { s.die d with cores := ((s.setCore k x).die d).cores } := by
  unfold State.setCore
  by_cases h : d = k.die
  · rw [h, setDie_die_same]
  · rw [setDie_die_other s k.die d _ h]
theorem modCore_dieTlb (s : State) (k : CoreId) (f : Core → Core) (d : Fin 4) : ((s.modCore k f).die d).tlb = (s.die d).tlb := by
  rw [State.modCore, setCore_die]

/-! ## Translation and device-physical memory -/

/-- Two states agree in what a core's translations and the reads of device-physical memory depend on (R171, R186, R329, R330). -/
structure SameVas (k : CoreId) (s u : State) : Prop where
  hbm : u.hbm = s.hbm
  vault : u.vault = s.vault
  dpit : u.dpit = s.dpit
  placed : u.hbmStacks = s.hbmStacks
  tenants : u.tenants = s.tenants
  coreTlb : (u.core k).tlb = (s.core k).tlb
  dieTlb : (u.die k.die).tlb = (s.die k.die).tlb

namespace SameVas
variable {k : CoreId} {s u v : State}

theorem trans (h : SameVas k s u) (g : SameVas k u v) : SameVas k s v :=
  ⟨g.hbm.trans h.hbm, g.vault.trans h.vault, g.dpit.trans h.dpit, g.placed.trans h.placed, g.tenants.trans h.tenants,
    g.coreTlb.trans h.coreTlb, g.dieTlb.trans h.dieTlb⟩
theorem modCore (q : CoreId) (f : Core → Core) (hf : ∀ x, (f x).tlb = x.tlb) : SameVas k s (s.modCore q f) :=
  ⟨modCore_hbm .., modCore_vault .., modCore_dpit .., modCore_hbmStacks .., modCore_tenants .., modCore_tlb s q k f hf, modCore_dieTlb ..⟩
theorem setCtx (c : CtxId) (x : Ctx) : SameVas k s (s.setCtx c x) :=
  modCore c.coreId (fun q => { q with ctxs := q.ctxs.set c.ctx.val x }) fun _ => rfl
theorem modDie (d : Fin 4) (f : Die → Die) (hc : ∀ x, (f x).cores = x.cores) (ht : ∀ x, (f x).tlb = x.tlb) : SameVas k s (s.modDie d f) := by
  refine ⟨modDie_hbm .., modDie_vault .., modDie_dpit .., modDie_hbmStacks .., modDie_tenants .., congrArg Core.tlb (modDie_core s d f hc k), ?_⟩
  by_cases h : k.die = d
  · rw [h, modDie_die_same, ht]
  · rw [modDie_die_other s d k.die f h]

theorem dpaRead (h : SameVas k s u) (a : Nat) : Machine.dpaRead u a = Machine.dpaRead s a := by
  simp only [Machine.dpaRead, dpitEntry, h.hbm, h.vault, h.dpit]
theorem reach (h : SameVas k s u) (w : BitVec 2) (a : Nat) : Machine.reach u w a = Machine.reach s w a := by
  simp only [Machine.reach, regionOf, h.placed]
theorem rdTable (h : SameVas k s u) (a : Nat) : Machine.rdTable u a = Machine.rdTable s a := by
  simp only [Machine.rdTable, dpaBytes, h.dpaRead, h.reach]
theorem walkFrom (h : SameVas k s u) (va table l f : Nat) : Machine.walkFrom u va table l f = Machine.walkFrom s va table l f := by
  induction f generalizing table l with
  | zero => rfl
  | succ f ih => simp only [Machine.walkFrom, h.rdTable, ih]
theorem walk (h : SameVas k s u) (t : BitVec 4) (va : W64) : Machine.walk u t va = Machine.walk s t va := by
  simp only [Machine.walk, State.ten, h.tenants, h.walkFrom]
theorem translate (h : SameVas k s u) (t : BitVec 4) (va : W64) : Machine.translate u k t va = Machine.translate s k t va := by
  simp only [Machine.translate, tlbLook, h.coreTlb, h.dieTlb, h.walk]
theorem rdRec (h : SameVas k s u) (t : BitVec 4) (r : W64) (off n : Nat) : Machine.rdRec u k t r off n = Machine.rdRec s k t r off n := by
  simp only [Machine.rdRec, vaNat, vaRead, h.translate, h.dpaRead, h.reach]

end SameVas

end Sys2Proof.Machine
end

