-- ==== Sys2Proof/Proofs/ResetState.lean ====
section
/-! PROOF. The state after reset. -/

namespace Sys2Proof.Machine

theorem reset_die (d : Fin 4) : State.reset.die d = Die.reset d := Vector.getElem_ofFn ..
theorem reset_core (k : CoreId) : State.reset.core k = Core.reset (coreNo k.die k.core) (BitVec.ofNat 5 k.core.val) := by
  rw [State.core, reset_die]
  exact Vector.getElem_ofFn ..
theorem reset_ctx (c : CtxId) : State.reset.ctx c = .scrubbed .free 0 := by
  rw [State.ctx, reset_core]
  exact Vector.getElem_replicate ..
theorem reset_lbs (d : Fin 4) (n : Fin 16) : (State.reset.die d).lbs[n.val] = .closed := by
  simp [reset_die, Die.reset]

/-- At reset every memory is empty. -/
theorem reset_mem (m : Mem) : State.reset.mem m = [] := by
  cases m with
  | hbm => rfl
  | vault => rfl
  | store c => simp only [State.mem, reset_core, Core.reset]
  | link d n => simp only [State.mem, reset_lbs, LinkBuf.closed]

theorem reset_memOk : State.reset.memOk :=
  ⟨wf_nil, wf_nil, fun c => (congrArg Memory.wf (reset_mem (.store c))).trans wf_nil,
    fun d n => (congrArg Memory.wf (reset_mem (.link d n))).trans wf_nil⟩

/-- Settles O53, by the reset values of a die, of a core and of a context. -/
theorem resetState : Obligations.ResetState := by
  refine ⟨reset_memOk, rfl, rfl, rfl, rfl, fun m a => ?_, fun c => ?_, fun k => ?_⟩
  · rw [State.byte, reset_mem]
    rfl
  · simp [reset_ctx, reset_die, Ctx.scrubbed, Arch.scrubbed, Die.reset, Port.unbound, Handle.invalid]
  · simp [reset_core, Core.reset, Win.free, Chan.idle]

end Sys2Proof.Machine
end

