-- ==== Sys2Proof/Proofs/BarrierRounds.lean ====
section
/-! PROOF. The absence timeout of collective rounds, at a barrier of a spanning team. -/

namespace Sys2Proof.Machine

/-- The absence timeout is that of a collective group's rounds: a round of a scope above the pod's stays as it is. -/
theorem collectiveTimeout_team {s : State} {r : Round} (hr : s.rounds.find? (fun q => q.id == s.arg.id) = some r) (hs : 5 < r.scope) :
    collectiveTimeout s = s := by
  simp [collectiveTimeout, hr, hs]

/-- Round 1 is the pod barrier of a team of two members: member 0 has arrived, and the time that a group's round may take has run out. -/
def lateBarrier : Round :=
  { id := 1, tenant := 0, gid := 1, scope := barrierScope.toNat, inst := 0, seq := 0, op := 0, count := 2, tout := 0, die := 0, start := 0,
    members := [⟨CtxId.zero, 0, 0, 0, none, true, .home⟩], seen := [0], acc := true, formed := none, absent := [], odd := false, afar := [],
    sent := false, due := false }

/-- `COLLECTIVE_TIMEOUT` names the round of `lateBarrier`, 16 µs after its first arrival. -/
def barrierTimedOut : State :=
  { State.reset.modDie 0 fun d => { d with ptb := 16000 } with rounds := [lateBarrier], arg := { EvArg.none with id := 1 } }

theorem roundExpired_lateBarrier : roundExpired barrierTimedOut lateBarrier = true := by decide +kernel

theorem leftOf_lateBarrier : leftOf barrierTimedOut lateBarrier = [] := by decide +kernel

/-- Refutes O45: the round of a pod barrier of a team that spans packages has no absence timeout (R366, R399). -/
theorem not_barriersAndRounds : ¬ Obligations.BarriersAndRounds := by
  intro h
  obtain ⟨-, hrounds, -⟩ := h
  have hfind : barrierTimedOut.rounds.find? (fun q => q.id == barrierTimedOut.arg.id) = some lateBarrier := rfl
  obtain ⟨htimeout, -⟩ := hrounds barrierTimedOut lateBarrier ⟨CtxId.zero, 0, 0, 0, none, true, .home⟩ hfind
  have hgone : (List.range lateBarrier.count).filter (fun i => !lateBarrier.seen.contains i && !(leftOf barrierTimedOut lateBarrier).contains i) ≠ [] := by
    rw [leftOf_lateBarrier]
    decide
  obtain ⟨t, hexec, -, -, q, hq, -, hformed, -⟩ := htimeout rfl rfl roundExpired_lateBarrier hgone
  have hnext : exec .collectiveTimeout barrierTimedOut = .next barrierTimedOut :=
    congrArg Host.Outcome.next (collectiveTimeout_team hfind (by decide))
  obtain rfl : barrierTimedOut = t := Host.Outcome.next.inj (hnext.symm.trans hexec)
  obtain rfl : q = lateBarrier := List.mem_singleton.mp hq
  exact absurd hformed nofun

end Sys2Proof.Machine
end

