-- ==== Sys2Proof/Proofs/ScrubsAndBinds.lean ====
section
/-! PROOF. The end of a core's scrub and the gang members reserved there. -/

namespace Sys2Proof.Machine

/-- Once the gang members that are reserved on a core have been bound, none is reserved there any more. -/
theorem bindReserved_pend {s : State} {c : CoreId} : ∀ g ∈ (bindReserved c s).teams, ∀ p ∈ g.pend, p.core ≠ c := by
  intro g hg p hp
  simp only [bindReserved, List.mem_map] at hg
  obtain ⟨m, -, rfl⟩ := hg
  simpa using (List.mem_filter.mp hp).2

theorem coreScrub_ended {s : State} {t : BitVec 4} (h : (s.core ⟨s.arg.die, s.arg.core⟩).scrub = some (t, 0)) :
    coreScrub s = bindReserved ⟨s.arg.die, s.arg.core⟩ (s.modCore ⟨s.arg.die, s.arg.core⟩ fun q => scrubbedCore q t) := by
  simp only [coreScrub, h]

/-- A gang of one member of tenant 1, reserved on core 0 of die 0, which is being scrubbed for it. -/
def reservedGang : Team :=
  { tenant := 1, id := 1, size := 1, recs := [(0, 0)], nums := [0], tick := none, placed := true,
    pend := [{ take := ⟨0, .none, 0, 0, 0, 0⟩, num := 0, core := ⟨0, 0⟩, start := 0 }], failed := false, succ := none }

/-- The scrub of core 0 for tenant 1 has come to its last cycle. -/
def scrubEnding : State :=
  { State.reset.modCore ⟨0, 0⟩ fun q => { q with scrub := some (1, 0) } with teams := [reservedGang] }

/-- Refutes O49: the end of a core's scrub also binds the gang members that are reserved on the core (R67, R88). -/
theorem not_dispatchEvents : ¬ Obligations.DispatchEvents := by
  intro h
  obtain ⟨-, -, -, hevents⟩ := h
  obtain ⟨-, hscrub, -⟩ := hevents scrubEnding
  have hcore : (scrubEnding.core ⟨0, 0⟩).scrub = some (1, 0) :=
    congrArg Core.scrub (modCore_core_same State.reset ⟨0, 0⟩ fun q => { q with scrub := some (1, 0) })
  have hends := Host.Outcome.next.inj (hscrub 1 hcore)
  rw [coreScrub_ended hcore] at hends
  have hfree := bindReserved_pend (s := scrubEnding.modCore ⟨0, 0⟩ fun q => scrubbedCore q 1) (c := ⟨0, 0⟩)
  exact (hends ▸ hfree) reservedGang (List.mem_singleton.mpr rfl) _ (List.mem_singleton.mpr rfl) rfl

end Sys2Proof.Machine
end

