-- ==== Sys2Proof/Proofs/TaskEnds.lean ====
section
/-! PROOF. The end of a task whose record lies in its own page table. -/

namespace Sys2Proof.Machine

/-! ## The release of a context -/

theorem sameVas_powerArrays (k q : CoreId) (s : State) : SameVas k s (powerArrays q s) := .modCore q _ fun _ => rfl
theorem sameVas_closeLbs (k : CoreId) (c : CtxId) (s : State) : SameVas k s (closeLbs c s) := .modDie c.die _ (fun _ => rfl) fun _ => rfl
theorem sameVas_teams (k : CoreId) (l : List Team) (s : State) : SameVas k s { s with teams := l } := ⟨rfl, rfl, rfl, rfl, rfl, rfl, rfl⟩
theorem sameVas_hostReqs (k : CoreId) (l : List HostReq) (s : State) : SameVas k s { s with hostReqs := l } := ⟨rfl, rfl, rfl, rfl, rfl, rfl, rfl⟩

/-- A release changes nothing that translations and device-physical memory depend on. -/
theorem sameVas_releaseCtx (k : CoreId) (c : CtxId) (s : State) : SameVas k s (releaseCtx c s) := by
  unfold releaseCtx
  dsimp only
  refine .trans ?_ (sameVas_powerArrays ..)
  refine .trans ?_ (.setCtx c _)
  refine .trans ?_ (sameVas_hostReqs ..)
  split
  · exact (sameVas_closeLbs k c s).trans (sameVas_teams ..)
  · exact sameVas_closeLbs k c s

/-- With no list of successors left, the end of a task releases its context. -/
theorem signalStep_empty {c : CtxId} {e : Exit} {a : Nat} {s : State} (he : e.succ = some (a, 0)) (ha : (s.ctx c).att = .none) :
    signalStep c e 0 s = releaseCtx c s := by
  simp [signalStep, he, ha, signalFrom]

theorem endWaits_iff {c : CtxId} {s : State} : endWaits c s = true ↔
    (∃ q ∈ (s.core c.coreId).cmds, q.ctx = c.ctx) ∨ outputsInFlight (s.ctx c) = true ∨ relBusy s c 5 = true := by
  simp [endWaits, or_assoc]

/-! ## A record whose page holds its own page table -/

/-- The record: page 11 of 128 MiB, offset 0x100 in it. -/
def mappedRec : W64 := 11 * 2 ^ 27 + 0x100

/-- The leaf of that page, of 128 MiB at device-physical address 0, readable and writable (Table 11.2). -/
def tableLeaf : W64 := 2 ^ 63 + 2 ^ 60 + 2 ^ 59 + 2 ^ 56

/-- Tenant 0's root table is at 0x1000 and its table of level 1 at 0x100, whose entry 11, at 0x158, maps the page that holds this table: the entry is the
RESULT field of the record. The task of the running context, with that record, ends. -/
def endingInTable : State :=
  (wrTable 0x158 tableLeaf (wrTable 0x1000 (dirEntry 0x100) (State.reset.modTen 0 fun t => { t with root := 0x1000 }))).modCtx CtxId.zero fun x =>
    { x with st := .running, b := { x.b with task := mappedRec }, exit := some ⟨0, 0, false, none, none⟩ }

/-- Before the end the record is usable, in state NONE, with an empty successor list; its task waits for nothing. -/
theorem endingInTable_before :
    let x := endingInTable.ctx CtxId.zero
    x.exit = some ⟨0, 0, false, none, none⟩ ∧ x.miss = none ∧ endWaits CtxId.zero endingInTable = false ∧
    recUsable endingInTable CtxId.zero.coreId x.b.tenant x.b.task = true ∧ rdRec endingInTable CtxId.zero.coreId x.b.tenant x.b.task 0 4 = 0 ∧
    rdRec endingInTable CtxId.zero.coreId x.b.tenant x.b.task 0x20 2 = 0 ∧ endingInTable.teams = [] := by decide +kernel

/-- The task ends at once. The write of its RESULT, 0, has removed the entry that maps its record, so its STATE is not written. -/
theorem endingInTable_after :
    let x := endingInTable.ctx CtxId.zero
    ((finishStep CtxId.zero endingInTable).ctx CtxId.zero).st ≠ x.st ∧
    rdRec (finishStep CtxId.zero endingInTable) CtxId.zero.coreId x.b.tenant x.b.task 0 4 = 0 := by decide +kernel

/-- The STATE that the end of a task writes over NONE is DONE or FAILED (R356). -/
theorem state_written_ne_none (failed : Prop) [Decidable failed] : 0 ≠ 0 / 16 * 16 + if failed then 7 else 6 := by
  split <;> omega

/-- Refutes O38: where the record of a task that ends lies in the page table that maps it, the writes of its end change its own translation. -/
theorem not_taskSignals : ¬ Obligations.TaskSignals := by
  intro h
  obtain ⟨-, hend, -⟩ := h
  obtain ⟨hexit, hmiss, hwaits, husable, hstate, hcount, hteams⟩ := endingInTable_before
  obtain ⟨hscrubs, hafter⟩ := endingInTable_after
  obtain ⟨-, hgo⟩ := hend endingInTable CtxId.zero _ hexit hmiss rfl
  obtain ⟨u, -, -, hctx, -, -, hopen, -, hwrites⟩ := hgo fun hw => absurd (endWaits_iff.mpr hw) (by simp [hwaits])
  obtain ⟨w, l, hstep, -, -, -, -, hwritten, -, -, -, hlist, hatt⟩ :=
    hwrites (fun ho => hscrubs (congrArg Ctx.st ((congrArg (State.ctx · CtxId.zero) (hopen ho)).trans hctx))) husable
  obtain ⟨hown, -⟩ := hlist (by decide +kernel)
  have hl := hown (by decide +kernel)
  rw [hcount] at hl
  subst hl
  have hnone := hatt (by simp [hteams])
  rw [signalStep_empty rfl hnone] at hstep
  have hsame := (sameVas_releaseCtx CtxId.zero.coreId CtxId.zero w).rdRec (endingInTable.ctx CtxId.zero).b.tenant (endingInTable.ctx CtxId.zero).b.task 0 4
  rw [← hstep, hafter, hwritten, hstate] at hsame
  exact absurd hsame (state_written_ne_none _)

end Sys2Proof.Machine
end

