-- ==== Sys2Proof/Proofs/MemoryRules.lean ====
section
/-! SUPPORT. The memories and the contexts under an update; runs of bytes and of cells, written and read. -/

namespace Sys2Proof.Machine

/-! ## The memories under an update -/

theorem sameMem_of_mem {s t : State} (h : t.mem = s.mem) : SameMem s t := fun m a => by rw [State.byte, h, State.byte]
theorem setCtx_mem (s : State) (c : CtxId) (x : Ctx) : (s.setCtx c x).mem = s.mem := by
  funext m
  cases m <;> simp only [State.mem, setCtx_store, setCtx_hbm, setCtx_vault]
  rw [State.setCtx, setCore_lbs]
theorem modCtx_mem (s : State) (c : CtxId) (f : Ctx → Ctx) : (s.modCtx c f).mem = s.mem := setCtx_mem ..
theorem modCore_mem (s : State) (k : CoreId) (f : Core → Core) (hf : ∀ x, (f x).store = x.store) : (s.modCore k f).mem = s.mem := by
  funext m
  cases m with
  | store q =>
    by_cases h : q = k
    · subst h
      simp only [State.mem, modCore_core_same, hf]
    · simp only [State.mem, modCore_core_other s k q f h]
  | link d n => simp only [State.mem, State.modCore, setCore_lbs]
  | hbm => rfl
  | vault => rfl
theorem modDie_mem (s : State) (d : Fin 4) (f : Die → Die) (hc : ∀ x, (f x).cores = x.cores) (hl : ∀ x, (f x).lbs = x.lbs) :
    (s.modDie d f).mem = s.mem := by
  funext m
  cases m with
  | store q => simp only [State.mem, modDie_core s d f hc]
  | link e n =>
    by_cases h : e = d
    · subst h
      simp only [State.mem, modDie_die_same, hl]
    · simp only [State.mem, modDie_die_other s d e f h]
  | hbm => rfl
  | vault => rfl

/-- The bytes that a write puts into a core's store stand there in their order. -/
theorem csWrite_byte (s : State) (k : CoreId) (a i : Nat) (bs : List Byte) (h : i < bs.length) :
    (csWrite k a bs s).byte (.store k) (a + i) = bs[i] := by
  simp only [State.byte, State.mem, csWrite, modCore_core_same, rdCell_wrCells_same _ _ _ _ h]

theorem SameMemBut.refl (k : CoreId) (a n : Nat) (s : State) : SameMemBut k a n s s := fun _ _ _ => rfl
theorem SameMemBut.trans {k : CoreId} {a n : Nat} {s t u : State} (h : SameMemBut k a n s t) (g : SameMemBut k a n t u) : SameMemBut k a n s u :=
  fun m b hb => (g m b hb).trans (h m b hb)
/-- A range may be widened. -/
theorem SameMemBut.mono {k : CoreId} {a n b m : Nat} {s t : State} (h : SameMemBut k a n s t) (hl : b ≤ a) (hh : a + n ≤ b + m) :
    SameMemBut k b m s t := fun q e he => h q e fun hq => by have := he hq; omega

/-! ## What stays of the contexts -/

theorem csWrite_ctx (s : State) (k : CoreId) (a : Nat) (bs : List Byte) (c : CtxId) : (csWrite k a bs s).ctx c = s.ctx c :=
  modCore_ctx s k (fun q => { q with store := wrCells q.store a bs }) (fun _ => rfl) c

/-- Every context but `c` is as it was, and of `c` what `φ` tells. -/
structure Keeps {α : Type} (c : CtxId) (φ : Ctx → α) (s t : State) : Prop where
  others : SameOthers c s t
  own : φ (t.ctx c) = φ (s.ctx c)

namespace Keeps
variable {α β : Type} {c : CtxId} {φ : Ctx → α} {s t u : State}

theorem refl (c : CtxId) (φ : Ctx → α) (s : State) : Keeps c φ s s := ⟨fun _ _ => rfl, rfl⟩
theorem trans (h : Keeps c φ s t) (g : Keeps c φ t u) : Keeps c φ s u := ⟨fun o ho => (g.others o ho).trans (h.others o ho), g.own.trans h.own⟩
theorem comp (g : α → β) (h : Keeps c φ s t) : Keeps c (fun x => g (φ x)) s t := ⟨h.others, congrArg g h.own⟩
theorem setCtx {x : Ctx} (hx : φ x = φ (s.ctx c)) : Keeps c φ s (s.setCtx c x) :=
  ⟨fun o ho => setCtx_ctx_other s c o x ho, by rw [setCtx_ctx_same, hx]⟩
theorem modCtx (f : Ctx → Ctx) (hf : ∀ x, φ (f x) = φ x) : Keeps c φ s (s.modCtx c f) := setCtx (hf _)
theorem csWrite (k : CoreId) (a : Nat) (bs : List Byte) : Keeps c φ s (csWrite k a bs s) :=
  ⟨fun o _ => csWrite_ctx s k a bs o, congrArg φ (csWrite_ctx s k a bs c)⟩
theorem forEach {γ : Type} {f : γ → State → State} (hf : ∀ a s, Keeps c φ s (f a s)) (l : List γ) (s : State) : Keeps c φ s (forEach l f s) := by
  induction l generalizing s with
  | nil => exact refl c φ s
  | cons a l ih => exact (hf a s).trans (ih (f a s))
/-- A write to the core store or to a tile, held or performed. -/
theorem holdWrite (ent : Option Nat) (h : Held) (perform : State → State) (hs : ∀ x p, φ { x with spec := p } = φ x)
    (hp : Keeps c φ s (perform s)) : Keeps c φ s (holdWrite c ent h perform s) := by
  unfold Machine.holdWrite
  split
  · exact hp
  · exact modCtx _ fun x => hs x _

end Keeps

/-! ## Words of matrix registers and of tiles -/

theorem saveReg_eq (r : Nat) (x : Ctx) : saveReg r x = { x with spec := (saveReg r x).spec } := by
  unfold saveReg
  split
  · rfl
  · split <;> rfl

/-- Cell writes change no cell but those named; each named once holds what its write makes of the old contents. -/
theorem rdCell_foldl_other {w : Nat} {α : Type} (ws : List α) (a : α → Nat) (g : Cells w → α → BitVec w) (m : Cells w)
    {e : Nat} (h : ∀ x ∈ ws, a x ≠ e) :
    rdCell (ws.foldl (fun m x => wrCell m (a x) (g m x)) m) e = rdCell m e := by
  induction ws generalizing m with
  | nil => rfl
  | cons x ws ih =>
    rw [List.foldl_cons, ih _ fun y hy => h y (.tail _ hy), rdCell_wrCell_other _ _ _ _ (h x (.head _)).symm]

theorem rdCell_foldl_same {w : Nat} {α : Type} (ws : List α) (a : α → Nat) (g : BitVec w → α → BitVec w) (m : Cells w) (h : (ws.map a).Nodup) :
    ∀ x ∈ ws, rdCell (ws.foldl (fun m x => wrCell m (a x) (g (rdCell m (a x)) x)) m) (a x) = g (rdCell m (a x)) x := by
  induction ws generalizing m with
  | nil => nofun
  | cons x ws ih =>
    obtain ⟨hx, hws⟩ := List.nodup_cons.mp h
    rintro y (_ | ⟨_, hy⟩)
    · rw [List.foldl_cons, rdCell_foldl_other ws a (fun m x => g (rdCell m (a x)) x) _ fun z hz hzx => hx (List.mem_map.mpr ⟨z, hz, hzx⟩),
        rdCell_wrCell_same]
    · have hne : a y ≠ a x := fun hyx => hx (hyx ▸ List.mem_map_of_mem hy)
      rw [List.foldl_cons, ih _ hws y hy, rdCell_wrCell_other _ _ _ _ hne]

theorem putWords_cons (w : Nat × W32 × W32) (ws : List (Nat × W32 × W32)) (x : Ctx) :
    putWords (w :: ws) x = putWords ws { saveReg (w.1 / 1024) x with mreg := wrCell x.mreg w.1 (mergeWord (rdCell x.mreg w.1) w.2.1 w.2.2) } := by
  rw [putWords, List.foldl_cons, saveReg_eq]
  rfl
/-- Words of matrix registers change the matrix registers and, on a path, its copies. -/
theorem putWords_eq (ws : List (Nat × W32 × W32)) (x : Ctx) : putWords ws x = { x with
    mreg := ws.foldl (fun m w => wrCell m w.1 (mergeWord (rdCell m w.1) w.2.1 w.2.2)) x.mreg, spec := (putWords ws x).spec } := by
  induction ws generalizing x with
  | nil => rfl
  | cons w ws ih => rw [putWords_cons, ih, saveReg_eq, List.foldl_cons]

theorem putWords_other (ws : List (Nat × W32 × W32)) (x : Ctx) (e : Nat) (h : ∀ w ∈ ws, w.1 ≠ e) : rdCell (putWords ws x).mreg e = rdCell x.mreg e := by
  rw [putWords_eq]
  exact rdCell_foldl_other ws Prod.fst (fun m w => mergeWord (rdCell m w.1) w.2.1 w.2.2) _ h
theorem putWords_same (ws : List (Nat × W32 × W32)) (x : Ctx) (h : (ws.map Prod.fst).Nodup) :
    ∀ w ∈ ws, rdCell (putWords ws x).mreg w.1 = mergeWord (rdCell x.mreg w.1) w.2.1 w.2.2 := by
  rw [putWords_eq]
  exact rdCell_foldl_same ws Prod.fst (fun v w => mergeWord v w.2.1 w.2.2) _ h

/-- A bank of a tile after elements have been written. -/
def bankAfter (ws : List (Nat × W32)) (m : Cells 32) : Cells 32 := ws.foldl (fun m w => wrCell m w.1 w.2) m

theorem bankAfter_other (ws : List (Nat × W32)) (m : Cells 32) (e : Nat) (h : ∀ w ∈ ws, w.1 ≠ e) : rdCell (bankAfter ws m) e = rdCell m e :=
  rdCell_foldl_other ws Prod.fst (fun _ w => w.2) m h
theorem bankAfter_same (ws : List (Nat × W32)) (m : Cells 32) (h : (ws.map Prod.fst).Nodup) : ∀ w ∈ ws, rdCell (bankAfter ws m) w.1 = w.2 :=
  rdCell_foldl_same ws Prod.fst (fun _ w => w.2) m h

theorem putAcc_unbound {z : Fin 16} {x : Ctx} (h : x.z[z.val] = none) (b1 : Bool) (ws : List (Nat × W32)) : putAcc z b1 ws x = x := by
  simp [putAcc, h]
theorem putAcc_bound {z : Fin 16} {x : Ctx} {y : Tile} (h : x.z[z.val] = some y) (b1 : Bool) (ws : List (Nat × W32)) :
    putAcc z b1 ws x = { x with z := x.z.set z.val (some
      (if b1 then { y with bank1 := bankAfter ws (if b1 then y.bank1 else y.bank0) }
        else { y with bank0 := bankAfter ws (if b1 then y.bank1 else y.bank0) })) } := by
  cases b1 <;> simp [putAcc, h, bankAfter]
theorem putAcc_z (z : Fin 16) (b1 : Bool) (ws : List (Nat × W32)) (x : Ctx) : putAcc z b1 ws x = { x with z := (putAcc z b1 ws x).z } := by
  cases h : x.z[z.val] with
  | none => rw [putAcc_unbound h]
  | some y => rw [putAcc_bound h]

/-! ## Numbers as bytes -/

theorem ofBytes_toBytes_mod (n v : Nat) : ofBytes (toBytes n v) = v % 2 ^ (8 * n) := by
  induction n generalizing v with
  | zero => simp [toBytes, ofBytes, Nat.mod_one]
  | succ n ih =>
    rw [toBytes, ofBytes, ih, BitVec.toNat_ofNat, show 8 * (n + 1) = 8 + 8 * n from by omega, Nat.pow_add, Nat.mod_mul]
theorem getElem_toBytes (n v i : Nat) (h : i < (toBytes n v).length) : (toBytes n v)[i] = BitVec.ofNat 8 (v / 2 ^ (8 * i)) := by
  induction n generalizing v i with
  | zero => exact absurd h (by simp [toBytes])
  | succ n ih =>
    cases i with
    | zero => simp [toBytes]
    | succ i =>
      simp only [toBytes, List.getElem_cons_succ, ih]
      rw [Nat.div_div_eq_div_mul, show 8 * (i + 1) = 8 + 8 * i from by omega, Nat.pow_add]
/-- Cells that hold the elements of a list are read as the list. -/
theorem rdCells_eq {w : Nat} {m : Cells w} {a : Nat} {l : List (BitVec w)} (h : ∀ i (hi : i < l.length), rdCell m (a + i) = l[i]) :
    rdCells m a l.length = l := by
  induction l generalizing a with
  | nil => rfl
  | cons x l ih =>
    have hhead : rdCell m a = x := h 0 (Nat.succ_pos _)
    rw [List.length_cons, rdCells, hhead, ih]
    intro i hi
    simpa [Nat.add_assoc, Nat.add_comm 1] using h (i + 1) (Nat.succ_lt_succ hi)
theorem rdCells_add {w : Nat} (m : Cells w) (a n k : Nat) : rdCells m a (n + k) = rdCells m a n ++ rdCells m (a + n) k := by
  induction n generalizing a with
  | zero => simp [rdCells]
  | succ n ih => rw [Nat.succ_add, rdCells, ih, rdCells, List.cons_append, Nat.add_right_comm, Nat.add_assoc]
theorem rdCells_length {w : Nat} (m : Cells w) (a n : Nat) : (rdCells m a n).length = n := by
  induction n generalizing a with
  | zero => rfl
  | succ n ih => rw [rdCells, List.length_cons, ih]
theorem ofBytes_append (l r : List Byte) : ofBytes (l ++ r) = ofBytes l + 2 ^ (8 * l.length) * ofBytes r := by
  induction l with
  | nil => simp [ofBytes]
  | cons b l ih =>
    rw [List.cons_append, ofBytes, ih, ofBytes, List.length_cons, Nat.mul_add, show 8 * (l.length + 1) = 8 + 8 * l.length from by omega, Nat.pow_add,
      ← Nat.mul_assoc, Nat.add_assoc]
theorem rdLE_add (m : Cells 8) (a n k : Nat) : rdLE m a (n + k) = rdLE m a n + 2 ^ (8 * n) * rdLE m (a + n) k := by
  rw [rdLE, rdCells_add, ofBytes_append, rdCells_length, rdLE, rdLE]

/-! ## Several writes to a core's store -/

theorem SameMemBut.forEach {α : Type} {k : CoreId} {a n : Nat} {f : α → State → State} (l : List α) (h : ∀ x ∈ l, ∀ s, SameMemBut k a n s (f x s))
    (s : State) : SameMemBut k a n s (forEach l f s) := by
  induction l generalizing s with
  | nil => exact .refl k a n s
  | cons x l ih => exact (h x (.head _) s).trans (ih (fun y hy => h y (.tail _ hy)) (f x s))

/-- Two runs of bytes, as offsets with their bytes, have no place in common. -/
def apart (x y : Nat × List Byte) : Prop := x.1 + x.2.length ≤ y.1 ∨ y.1 + y.2.length ≤ x.1

theorem forEach_csWrite_other (k : CoreId) (a : Nat) (l : List (Nat × List Byte)) (s : State) {b : Nat}
    (h : ∀ w ∈ l, b < a + w.1 ∨ a + w.1 + w.2.length ≤ b) :
    (forEach l (fun w => csWrite k (a + w.1) w.2) s).byte (.store k) b = s.byte (.store k) b := by
  induction l generalizing s with
  | nil => rfl
  | cons x l ih =>
    exact (ih _ fun y hy => h y (.tail _ hy)).trans (csWrite_sameMemBut k _ _ (.store k) b fun _ => h x (.head _))

/-- After writes of runs that lie apart, each run stands at its offset. -/
theorem forEach_csWrite_rdLE (k : CoreId) (a : Nat) (l : List (Nat × List Byte)) (s : State) (h : l.Pairwise apart) :
    ∀ w ∈ l, rdLE ((forEach l (fun w => csWrite k (a + w.1) w.2) s).core k).store (a + w.1) w.2.length = ofBytes w.2 := by
  induction l generalizing s with
  | nil => nofun
  | cons x l ih =>
    obtain ⟨hx, hl⟩ := List.pairwise_cons.mp h
    rintro w (_ | ⟨_, hw⟩)
    · refine congrArg ofBytes (rdCells_eq fun i hi => ?_)
      refine (forEach_csWrite_other k a l _ fun y hy => ?_).trans (csWrite_byte s k (a + x.1) i x.2 hi)
      have := hx y hy
      unfold apart at this
      omega
    · exact ih (csWrite k (a + x.1) x.2 s) hl w hw

/-- The flags of a VCMP as runs of bytes, by offset from the first. -/
def flagRuns (v : W32) : List (Nat × List Byte) := (List.range 32).map fun i => (4 * i, toBytes 4 (if v.getLsbD i then 1 else 0))

theorem flagsWrite_eq (k : CoreId) (b : Nat) (v : W32) (s : State) :
    flagsWrite k b v s = forEach (flagRuns v) (fun w => csWrite k (4 * b + w.1) w.2) s := by
  simp only [flagsWrite, forEach, flagRuns, List.foldl_map, Nat.mul_add]
theorem flagRuns_apart (v : W32) : (flagRuns v).Pairwise apart := by
  refine List.pairwise_map.mpr (List.pairwise_lt_range.imp fun {i j} (hij : i < j) => ?_)
  simp only [apart, toBytes_length]
  omega

theorem flagsWrite_sameMemBut (k : CoreId) (b : Nat) (v : W32) (s : State) : SameMemBut k (4 * b) 128 s (flagsWrite k b v s) := by
  refine .forEach _ (fun i hi s => (csWrite_sameMemBut k _ _).mono (by omega) ?_) s
  have := List.mem_range.mp hi
  rw [toBytes_length]
  omega
theorem flagsWrite_flag (k : CoreId) (b : Nat) (v : W32) (s : State) {j : Nat} (hj : j < 32) :
    rdFlag ((flagsWrite k b v s).core k).store (b + j) = if v.getLsbD j then 1 else 0 := by
  have hread := forEach_csWrite_rdLE k (4 * b) (flagRuns v) s (flagRuns_apart v) _ (List.mem_map_of_mem (List.mem_range.mpr hj))
  rw [← flagsWrite_eq, toBytes_length] at hread
  rw [rdFlag, Nat.mul_add, hread, ofBytes_toBytes_mod]
  split <;> rfl

end Sys2Proof.Machine
end

