-- ==== Sys2Proof/Proofs/Landings.lean ====
section
/-! SUPPORT. The landing of results (R139 to R142). -/

namespace Sys2Proof.Machine

/-! ## An element goes to an output binding -/

/-- An element changes of a context no more than its late errors and its path. -/
theorem portPut_keeps (c : CtxId) (ent : Option Nat) (p : Port) (v : W64) (slot : BitVec 3) (s : State) :
    Keeps c (fun x => (x.flights, x.arch)) s (portPut c ent p v slot s) := by
  unfold portPut
  dsimp only
  split
  · exact .refl c _ s
  · split
    · exact .modCtx _ fun _ => rfl
    · split
      · exact .holdWrite ent _ _ (fun _ _ => rfl) (.csWrite ..)
      · exact .forEach (fun ab u => .holdWrite none _ _ (fun _ _ => rfl) (.csWrite ..)) _ s

/-- The address of the first byte of the element of a region's binding at its position. -/
def Port.elemAddr (p : Port) : Nat := (p.base + p.pos.toNat % p.len) % 2 ^ 64

theorem portAddrs_region (k : Core) {p : Port} (h : p.win = none) :
    portAddrs k p p.pos.toNat = (List.range p.bytes).map fun i => (p.base + p.pos.toNat % p.len + i) % 2 ^ 64 := by
  simp only [portAddrs, h]
theorem portAddrs_head (k : Core) {p : Port} (h : p.win = none) : ∃ l, portAddrs k p p.pos.toNat = p.elemAddr :: l := by
  obtain ⟨n, hn⟩ : ∃ n, p.bytes = n + 1 := ⟨p.bytes - 1, (Nat.succ_pred_eq_of_pos (Nat.two_pow_pos _)).symm⟩
  exact ⟨_, by rw [portAddrs_region k h, hn, List.range_succ_eq_map, List.map_cons]; rfl⟩

theorem portPut_region {c : CtxId} {ent : Option Nat} {p : Port} {v : W64} {slot : BitVec 3} {s : State} (hb : p.bound = true) (ho : p.out = true)
    (hw : p.win = none) (hs : (s.ctx c).spec = none) :
    portPut c ent p v slot s =
      match firstSome (fun a => csCheck (s.core c.coreId) (BitVec.ofNat 64 a)) (portAddrs (s.core c.coreId) p p.pos.toNat) with
      | some e => s.modCtx c fun x => { x with late := x.late ++ [⟨⟨e.cause, BitVec.ofNat 64 p.elemAddr⟩, slot, x.spec.isSome⟩] }
      | none => csWrite c.coreId p.elemAddr (toBytes p.bytes v.toNat) s := by
  have hhead : (portAddrs (s.core c.coreId) p p.pos.toNat).headD 0 = p.elemAddr := by
    obtain ⟨l, hl⟩ := portAddrs_head (s.core c.coreId) hw
    rw [hl, List.headD_cons]
  cases hf : firstSome (fun a => csCheck (s.core c.coreId) (BitVec.ofNat 64 a)) (portAddrs (s.core c.coreId) p p.pos.toNat) with
  | some e => simp only [portPut, hb, ho, hw, hf, hhead, Bool.not_true, Bool.or_false, Bool.false_eq_true, if_false]
  | none =>
    simp only [portPut, hb, ho, hw, hf, hhead, ctxWrite, holdWrite, hs, Bool.not_true, Bool.or_false, Bool.false_eq_true, if_false,
      Option.isNone_none, if_true]

theorem csCheck_high (k : Core) {a : Nat} (h : 0x600000 ≤ a) (ha : a < 2 ^ 64) : csCheck k (BitVec.ofNat 64 a) = some ⟨0x11, BitVec.ofNat 64 a⟩ := by
  have : (BitVec.ofNat 64 a).toNat = a := by simpa using ha
  simp [csCheck, this, csSize, h]
theorem csCheck_home {k : Core} {a : Nat} (h : a < 0x600000) (ho : k.own[a / 0x10000]? = some .home) : csCheck k (BitVec.ofNat 64 a) = none := by
  have : (BitVec.ofNat 64 a).toNat = a := by simp; omega
  simp [csCheck, this, csSize, ho, Nat.not_le.mpr h]

/-- An element's byte, as one of its number and as one of its bits. -/
theorem getElem_toBytes_extract (n i : Nat) (v : W64) (h : i < (toBytes n v.toNat).length) : (toBytes n v.toNat)[i] = v.extractLsb' (8 * i) 8 := by
  rw [getElem_toBytes]
  apply BitVec.eq_of_toNat_eq
  simp [BitVec.extractLsb'_toNat, Nat.shiftRight_eq_div_pow]

/-- Off a path, an element to a region's binding does what R226 and R142 say. -/
theorem portPut_elementOut {c : CtxId} {s : State} (hs : (s.ctx c).spec = none) (ent : Option Nat) (p : Port) (v : W64) (slot : BitVec 3) :
    elementOut c s (portPut c ent p v slot s) p v slot := by
  intro hb ho hw
  refine ⟨fun hok => ?_, fun hhigh => ?_⟩
  · have hfirst : firstSome (fun a => csCheck (s.core c.coreId) (BitVec.ofNat 64 a)) (portAddrs (s.core c.coreId) p p.pos.toNat) = none := by
      rw [portAddrs_region _ hw]
      refine firstSome_none fun a ha => ?_
      obtain ⟨i, hi, rfl⟩ := List.mem_map.mp ha
      obtain ⟨hlow, hown⟩ := hok i (List.mem_range.mp hi)
      have hsum : (p.base + p.pos.toNat % p.len + i) % 2 ^ 64 = (p.base + p.pos.toNat % p.len) % 2 ^ 64 + i := by omega
      rw [hsum]
      exact csCheck_home hlow hown
    rw [portPut_region hb ho hw hs, hfirst]
    refine ⟨?_, fun i hi => ?_, by rw [csWrite_ctx]⟩
    · have := csWrite_sameMemBut (s := s) c.coreId p.elemAddr (toBytes p.bytes v.toNat)
      rwa [toBytes_length] at this
    · have hlen : i < (toBytes p.bytes v.toNat).length := by rwa [toBytes_length]
      exact (csWrite_byte s c.coreId p.elemAddr i _ hlen).trans (getElem_toBytes_extract p.bytes i v hlen)
  · obtain ⟨l, hl⟩ := portAddrs_head (s.core c.coreId) hw
    have hcheck : csCheck (s.core c.coreId) (BitVec.ofNat 64 p.elemAddr) = some ⟨0x11, BitVec.ofNat 64 p.elemAddr⟩ :=
      csCheck_high _ hhigh (Nat.mod_lt _ (by decide))
    rw [portPut_region hb ho hw hs, hl, firstSome, hcheck]
    exact ⟨sameMem_of_mem (modCtx_mem ..), by simp [hs, Port.elemAddr]⟩

/-- What an element comes to is told by the memories, the owners of the core's buffers and the context's late errors. -/
theorem elementOut_congr {c : CtxId} {s t s' t' : State} {p : Port} {v : W64} {slot : BitVec 3} (h : elementOut c s' t' p v slot) (hs : s'.mem = s.mem)
    (ht : t'.mem = t.mem) (ho : (s'.core c.coreId).own = (s.core c.coreId).own) (hls : (s'.ctx c).late = (s.ctx c).late)
    (hlt : (t'.ctx c).late = (t.ctx c).late) : elementOut c s t p v slot := by
  simpa only [elementOut, SameMemBut, SameMem, State.byte, hs, ht, ho, hls, hlt] using h

/-! ## What one result does -/

theorem wrSysReg_eq (n : Nat) (v : W64) (a : Arch) : wrSysReg n v a =
    { a with ckmode := (wrSysReg n v a).ckmode, trapvecValid := (wrSysReg n v a).trapvecValid, trapvecAddr := (wrSysReg n v a).trapvecAddr,
             scratch := (wrSysReg n v a).scratch } := by
  unfold wrSysReg
  split
  · rfl
  · split
    · rfl
    · split <;> rfl

/-! ## Results that write registers only -/

theorem landAct_of_landsIn {c : CtxId} {s : State} {act : Land} {y : Ctx} (h : landsIn (s.ctx c) act = some y) (ent : Option Nat) :
    landAct c ent act s = s.setCtx c y := by
  cases act with
  | port | drain | flags | acc => exact absurd h nofun
  | hem => exact (Option.some.inj h) ▸ (setCtx_self s c).symm
  | sreg | target | sys | handle | words | latch | exv | tscale => exact (Option.some.inj h) ▸ rfl

theorem saveReg_flights (r : Nat) (x : Ctx) (l : List Flight) : saveReg r { x with flights := l } = { saveReg r x with flights := l } := by
  unfold saveReg
  dsimp only
  split
  · rfl
  · split <;> rfl
theorem putWords_flights (ws : List (Nat × W32 × W32)) (x : Ctx) (l : List Flight) :
    putWords ws { x with flights := l } = { putWords ws x with flights := l } := by
  induction ws generalizing x with
  | nil => rfl
  | cons w ws ih =>
    rw [putWords_cons, putWords_cons, ← ih, saveReg_flights]
/-- What a result does to the registers does not depend on what is in flight. -/
theorem landsIn_flights {x y : Ctx} {act : Land} (h : landsIn x act = some y) (l : List Flight) :
    landsIn { x with flights := l } act = some { y with flights := l } := by
  cases act with
  | port | drain | flags | acc => exact absurd h nofun
  | words ws => exact (Option.some.inj h) ▸ congrArg some (putWords_flights ws x l)
  | hem | sreg | target | sys | handle | latch | exv | tscale => exact (Option.some.inj h) ▸ rfl
/-- A result that writes registers leaves the Hem and the ports. -/
theorem landsIn_rest {x y : Ctx} {act : Land} (h : landsIn x act = some y) :
    y.flights = x.flights ∧ y.arch.hem = x.arch.hem ∧ y.arch.ports = x.arch.ports := by
  cases act with
  | port | drain | flags | acc => exact absurd h nofun
  | words ws =>
    obtain rfl := Option.some.inj h
    rw [putWords_eq]
    exact ⟨rfl, rfl, rfl⟩
  | sys n v =>
    obtain rfl := Option.some.inj h
    dsimp only
    rw [wrSysReg_eq]
    exact ⟨rfl, rfl, rfl⟩
  | hem | sreg | target | handle | latch | exv | tscale => exact (Option.some.inj h) ▸ ⟨rfl, rfl, rfl⟩

/-! ## The landing of one result -/

/-- A result changes no other context, nothing in flight and not the Hem, which its group writes. -/
theorem landAct_keeps (c : CtxId) (ent : Option Nat) (act : Land) (s : State) : Keeps c (fun x => (x.flights, x.arch.hem)) s (landAct c ent act s) := by
  cases h : landsIn (s.ctx c) act with
  | some y =>
    obtain ⟨hflights, hhem, -⟩ := landsIn_rest h
    rw [landAct_of_landsIn h]
    exact .setCtx (Prod.ext hflights hhem)
  | none => cases act with
    | sreg | hem | target | sys | handle | words | latch | exv | tscale => exact absurd h nofun
    | drain p v slot => exact (portPut_keeps c ent p v slot s).comp fun y => (y.1, y.2.hem)
    | port n v slot =>
      unfold landAct portWrite
      dsimp only
      split
      · exact .refl c _ s
      · refine .trans ?_ ((portPut_keeps c ent _ v slot _).comp fun y => (y.1, y.2.hem))
        exact .modCtx _ fun _ => rfl
    | flags b v =>
      unfold landAct
      refine .holdWrite ent _ _ (fun _ _ => rfl) ?_
      exact .forEach (fun _ _ => .csWrite ..) _ s
    | acc z b1 ws =>
      unfold landAct
      refine .holdWrite ent _ _ (fun _ _ => rfl) ?_
      exact .modCtx _ fun x => by rw [putAcc_z]

/-- A path's record once a result has left its place among the held entries. -/
def withoutPlace (ent : Option Nat) (p : Option Spec0) : Option Spec0 :=
  match ent with
  | none => p
  | some n => p.map fun p => { p with held := p.held.filter (· != .wait n) }
/-- The registers after a result's group has written the Hem (R140, R141). -/
def hemAfter (f : Flight) (a : Arch) : Arch := if f.hem then a.pushHem f.act.value else a
/-- The ports of a context, those unbound whose unbinding waits for no result any more (R227). -/
def portsAfter (x : Ctx) : Vector Port 8 := .ofFn fun (i : Fin 8) =>
  let p := x.arch.ports[i.val]
  if p.closing && !x.flights.any (fun f => match f.act with
    | .port q _ _ => q == i
    | _ => false) then .unbound else p
/-- A context once a result has done what it does: its place on a path, the Hem and the ports. -/
def settled (f : Flight) (x : Ctx) : Ctx :=
  { x with spec := withoutPlace f.ent x.spec, arch := { x.arch with hem := (hemAfter f x.arch).hem, ports := portsAfter x } }
/-- The results that are due have left those in flight. -/
def dueGone (c : CtxId) (s : State) : State := s.modCtx c fun x => { x with flights := x.flights.filter fun f => f.rem != 0 }

theorem dropPlace_eq (c : CtxId) (ent : Option Nat) (s : State) : dropPlace c ent s = s.modCtx c fun x => { x with spec := withoutPlace ent x.spec } := by
  cases ent with
  | none => exact (modCtx_id s c).symm
  | some n => rfl
theorem hemAfter_eq (f : Flight) (a : Arch) : hemAfter f a = { a with hem := (hemAfter f a).hem } := by
  unfold hemAfter
  split <;> rfl
theorem landOne_eq (c : CtxId) (f : Flight) (s : State) :
    landOne c f s = (landAct c f.ent f.act s).modCtx c fun x => { x with spec := withoutPlace f.ent x.spec, arch := hemAfter f x.arch } := by
  unfold landOne
  rw [dropPlace_eq]
  split <;> rename_i h
  · rw [State.modArch, modCtx_modCtx]
    simp only [hemAfter, h, if_true]
  · simp only [hemAfter, h, if_false, Bool.false_eq_true]
theorem closePorts_eq (c : CtxId) (s : State) : closePorts c s = s.modCtx c fun x => { x with arch := { x.arch with ports := portsAfter x } } := rfl

theorem landOne_keeps (c : CtxId) (f : Flight) (s : State) : Keeps c Ctx.flights s (landOne c f s) := by
  rw [landOne_eq]
  exact .trans ((landAct_keeps c f.ent f.act s).comp Prod.fst) (.modCtx _ fun _ => rfl)
theorem landDue_eq (c : CtxId) (s : State) :
    landDue c s = closePorts c (forEach ((s.ctx c).flights.filter fun f => f.rem == 0) (landOne c) (dueGone c s)) := rfl
/-- The results that are due have left, and no other context has changed. -/
theorem landDue_keeps (c : CtxId) (s : State) :
    SameOthers c s (landDue c s) ∧ ((landDue c s).ctx c).flights = (s.ctx c).flights.filter fun f => f.rem != 0 := by
  have hland : Keeps c Ctx.flights (dueGone c s) (landDue c s) := by
    rw [landDue_eq, closePorts_eq]
    exact .trans (.forEach (landOne_keeps c) _ _) (.modCtx _ fun _ => rfl)
  have hleft : ((dueGone c s).ctx c).flights = (s.ctx c).flights.filter fun f => f.rem != 0 := by rw [dueGone, modCtx_ctx_same]
  exact ⟨fun o ho => (hland.others o ho).trans (modCtx_ctx_other s c o _ ho), hland.own.trans hleft⟩

/-- One result that is due alone. -/
theorem landDue_single {c : CtxId} {s : State} {f : Flight} (h : ((s.ctx c).flights.filter fun f => f.rem == 0) = [f]) :
    landDue c s = (landAct c f.ent f.act (dueGone c s)).modCtx c (settled f) := by
  rw [landDue_eq, h, forEach, List.foldl_cons, List.foldl_nil, landOne_eq, closePorts_eq, modCtx_modCtx]
  refine modCtx_congr ?_
  rw [hemAfter_eq]
  rfl

theorem settled_port (f : Flight) (x : Ctx) (n : Fin 8) (h : (x.arch.ports[n.val]).closing = false) :
    (settled f x).arch.ports[n.val] = x.arch.ports[n.val] := by
  simp [settled, portsAfter, h]
theorem settled_hem_of_not {f : Flight} (h : f.hem = false) (x : Ctx) : (settled f x).arch.hem = x.arch.hem := by
  simp [settled, hemAfter, h]
theorem settled_hem {f : Flight} (h : f.hem = true) (x : Ctx) :
    (settled f x).arch.hem[0] = f.act.value ∧ ∀ i : Fin 31, (settled f x).arch.hem[i.val + 1] = x.arch.hem[i.val] := by
  simp [settled, hemAfter, h, Arch.pushHem]

theorem SameMemBut.congr {k : CoreId} {a n : Nat} {s t s' t' : State} (h : SameMemBut k a n s' t') (hs : s'.mem = s.mem) (ht : t'.mem = t.mem) :
    SameMemBut k a n s t := by
  simpa only [SameMemBut, State.byte, hs, ht] using h
theorem holdWrite_offPath {c : CtxId} {s : State} (h : (s.ctx c).spec = none) (ent : Option Nat) (w : Held) (perform : State → State) :
    holdWrite c ent w perform s = perform s := by
  simp only [holdWrite, h]
theorem dueGone_ctx (c : CtxId) (s : State) :
    (dueGone c s).ctx c = { s.ctx c with flights := (s.ctx c).flights.filter fun f => f.rem != 0 } := modCtx_ctx_same ..
theorem dueGone_mem (c : CtxId) (s : State) : (dueGone c s).mem = s.mem := modCtx_mem ..

theorem landAct_dueGone_hem (c : CtxId) (s : State) (f : Flight) : ((landAct c f.ent f.act (dueGone c s)).ctx c).arch.hem = (s.ctx c).arch.hem := by
  have h := congrArg Prod.snd (landAct_keeps c f.ent f.act (dueGone c s)).own
  rwa [dueGone_ctx] at h
theorem modCtx_own (s : State) (q : CoreId) (c : CtxId) (f : Ctx → Ctx) : ((s.modCtx c f).core q).own = (s.core q).own := by
  rw [State.modCtx]
  by_cases h : q = c.coreId
  · rw [h, setCtx_core_same]
  · rw [setCtx_core_other s q c _ h]
/-- A port has taken an element: its position has advanced (R226). -/
def advanced (n : Fin 8) (a : Arch) : Arch :=
  { a with ports := a.ports.set n.val { a.ports[n.val] with pos := (a.ports[n.val]).pos + BitVec.ofNat 64 (a.ports[n.val]).bytes } }

/-! ## The landing of a result that is due alone -/

section
variable {c : CtxId} {s : State} {f : Flight} (hdue : ((s.ctx c).flights.filter fun f => f.rem == 0) = [f])
include hdue

/-- A result for registers: the context is as `landsIn` has it, but for what every landing settles. -/
theorem landDue_registers {y : Ctx} (hy : landsIn (s.ctx c) f.act = some y) :
    landDue c s = s.setCtx c (settled f { y with flights := (s.ctx c).flights.filter fun f => f.rem != 0 }) := by
  have hland : landAct c f.ent f.act (dueGone c s) = (dueGone c s).setCtx c { y with flights := (s.ctx c).flights.filter fun f => f.rem != 0 } := by
    refine landAct_of_landsIn ?_ f.ent
    rw [dueGone_ctx]
    exact landsIn_flights hy _
  rw [landDue_single hdue, hland, State.modCtx, setCtx_ctx_same, setCtx_setCtx, dueGone, State.modCtx, setCtx_setCtx]
/-- A port whose unbinding does not wait is as it was. -/
theorem landDue_registers_port {y : Ctx} (hy : landsIn (s.ctx c) f.act = some y) (n : Fin 8) (h : ((s.arch c).ports[n.val]).closing = false) :
    ((landDue c s).arch c).ports[n.val] = (s.arch c).ports[n.val] := by
  obtain ⟨-, -, hports⟩ := landsIn_rest hy
  have hport : y.arch.ports[n.val] = (s.arch c).ports[n.val] := by rw [hports]; rfl
  rw [landDue_registers hdue hy, State.arch, setCtx_ctx_same]
  exact (settled_port _ _ _ (by rw [hport, h])).trans hport
theorem landDue_words {ws : List (Nat × W32 × W32)} (hact : f.act = .words ws) : ((landDue c s).ctx c).mreg = (putWords ws (s.ctx c)).mreg := by
  rw [landDue_registers hdue (y := putWords ws (s.ctx c)) (by rw [hact]; rfl), setCtx_ctx_same]
  rfl

theorem landDue_hem : ((landDue c s).arch c).hem = (settled f ((landAct c f.ent f.act (dueGone c s)).ctx c)).arch.hem := by
  rw [landDue_single hdue, State.arch, modCtx_ctx_same]
theorem landDue_hem_of_not (h : f.hem = false) : ((landDue c s).arch c).hem = (s.ctx c).arch.hem := by
  rw [landDue_hem hdue, settled_hem_of_not h, landAct_dueGone_hem c s f]
theorem landDue_hem_pushed (h : f.hem = true) :
    ((landDue c s).arch c).hem[0] = f.act.value ∧ ∀ i : Fin 31, ((landDue c s).arch c).hem[i.val + 1] = (s.ctx c).arch.hem[i.val] := by
  simp only [landDue_hem hdue, ← landAct_dueGone_hem c s f]
  exact settled_hem h _

/-! Off a path, a result for the core store, a tile or a stream: -/

variable (hs : (s.ctx c).spec = none)
include hs

theorem landDue_flags {b : Nat} {v : W32} (hact : f.act = .flags b v) : landsOut c s (landDue c s) (.flags b v) := by
  have hland : landAct c f.ent f.act (dueGone c s) = flagsWrite c.coreId b v (dueGone c s) := by
    rw [hact]
    exact holdWrite_offPath (by rw [dueGone_ctx, hs]) _ _ _
  rw [landDue_single hdue, hland]
  refine ⟨(flagsWrite_sameMemBut c.coreId b v (dueGone c s)).congr (dueGone_mem c s) (modCtx_mem ..).symm, fun j hj => ?_⟩
  rw [modCtx_store]
  exact flagsWrite_flag c.coreId b v _ hj
theorem landDue_acc {z : Fin 16} {b1 : Bool} {ws : List (Nat × W32)} (hact : f.act = .acc z b1 ws) :
    landsOut c s (landDue c s) (.acc z b1 ws) := by
  have hland : landAct c f.ent f.act (dueGone c s) = (dueGone c s).modCtx c (putAcc z b1 ws) := by
    rw [hact]
    exact holdWrite_offPath (by rw [dueGone_ctx, hs]) _ _ fun s => s.modCtx c (putAcc z b1 ws)
  have hold : ((dueGone c s).ctx c).z[z.val] = (s.ctx c).z[z.val] := by rw [dueGone_ctx]
  have hz : ((landDue c s).ctx c).z = (putAcc z b1 ws ((dueGone c s).ctx c)).z := by
    rw [landDue_single hdue, hland, modCtx_ctx_same, modCtx_ctx_same]
    rfl
  refine ⟨sameMem_of_mem ?_, fun hnone => ?_, fun y hy => ⟨bankAfter ws (if b1 then y.bank1 else y.bank0), ?_, ?_, ?_⟩⟩
  · rw [landDue_single hdue, hland, modCtx_mem, modCtx_mem, dueGone_mem]
  · rw [hz, putAcc_unbound (hold.trans hnone), dueGone_ctx]
  · rw [hz, putAcc_bound (hold.trans hy), dueGone_ctx]
  · exact fun e he => bankAfter_other ws _ e he
  · exact fun hnodup w hw => bankAfter_same ws _ hnodup w hw
theorem landDue_drain {p : Port} {v : W64} {slot : BitVec 3} (hact : f.act = .drain p v slot) : landsOut c s (landDue c s) (.drain p v slot) := by
  have hland : landAct c f.ent f.act (dueGone c s) = portPut c f.ent p v slot (dueGone c s) := by rw [hact]; rfl
  have hout := portPut_elementOut (s := dueGone c s) (by rw [dueGone_ctx, hs]) f.ent p v slot
  rw [landDue_single hdue, hland]
  exact elementOut_congr hout (dueGone_mem c s) (modCtx_mem ..).symm (modCtx_own ..) (by rw [dueGone_ctx]) (by rw [modCtx_ctx_same]; rfl)
theorem landDue_port {n : Fin 8} {v : W64} {slot : BitVec 3} (hact : f.act = .port n v slot) : landsOut c s (landDue c s) (.port n v slot) := by
  have hport : ((dueGone c s).arch c).ports[n.val] = (s.arch c).ports[n.val] := by
    rw [State.arch, dueGone_ctx]
    rfl
  cases hopen : !((s.arch c).ports[n.val]).bound || !((s.arch c).ports[n.val]).out with
  | true => exact ⟨fun hb ho => absurd hopen (by simp [hb, ho]), fun hb ho => absurd hopen (by simp [hb, ho])⟩
  | false =>
    have hland : landAct c f.ent f.act (dueGone c s) = portPut c f.ent ((s.arch c).ports[n.val]) v slot ((dueGone c s).modArch c (advanced n)) := by
      rw [hact, landAct, portWrite, hport, if_neg (by simp [hopen])]
      exact congrArg _ (modCtx_congr (by simp only [advanced, ← hport]; rfl))
    have hctx : ((dueGone c s).modArch c (advanced n)).ctx c = { (dueGone c s).ctx c with arch := advanced n ((dueGone c s).arch c) } := modArch_ctx_same ..
    have hout := portPut_elementOut (s := (dueGone c s).modArch c (advanced n)) (by rw [hctx, dueGone_ctx, hs]) f.ent ((s.arch c).ports[n.val]) v slot
    have hnew := congrArg (fun a => a.2.ports[n.val]) (portPut_keeps c f.ent ((s.arch c).ports[n.val]) v slot ((dueGone c s).modArch c (advanced n))).own
    simp only [hctx, advanced, Vector.getElem_set_self, hport] at hnew
    have hlate : (((dueGone c s).modArch c (advanced n)).ctx c).late = (s.ctx c).late := by rw [hctx, dueGone_ctx]
    rw [landDue_single hdue, hland]
    generalize portPut c f.ent ((s.arch c).ports[n.val]) v slot ((dueGone c s).modArch c (advanced n)) = u at hout hnew
    refine ⟨elementOut_congr hout ?_ (modCtx_mem ..).symm ?_ hlate ?_, fun _ _ hclosing => ?_⟩
    · exact (modCtx_mem ..).trans (dueGone_mem c s)
    · exact (modCtx_own ..).trans (modCtx_own ..)
    · rw [modCtx_ctx_same]
      rfl
    · rw [State.arch, modCtx_ctx_same, settled_port _ _ _ (by rw [hnew]; exact hclosing), hnew]

/-- Off a path, a result does to the core store, the tiles and the streams what `landsOut` says. -/
theorem landDue_landsOut : landsOut c s (landDue c s) f.act := by
  cases hact : f.act with
  | flags b v => exact landDue_flags hdue hs hact
  | acc z b1 ws => exact landDue_acc hdue hs hact
  | port n v slot => exact landDue_port hdue hs hact
  | drain p v slot => exact landDue_drain hdue hs hact
  | hem | sreg | target | sys | handle | words | latch | exv | tscale => trivial
end

theorem value_of_landsVal {act : Land} {v : W64} (h : landsVal act = some v) : act.value = v := by
  cases act with
  | sreg | hem | port | drain => exact Option.some.inj h
  | target | sys | handle | words | flags | acc | latch | exv | tscale => exact absurd h nofun

/-- Two results of one cycle for one s-register, both of whose groups write the Hem: they land in their order (R141). -/
theorem landDue_pair {c : CtxId} {s : State} {sl sl' : BitVec 3} {r : Fin 64} {v w : W64}
    (hdue : ((s.ctx c).flights.filter fun f => f.rem == 0) = [⟨0, true, sl, .sreg r v, none⟩, ⟨0, true, sl', .sreg r w, none⟩]) :
    ((landDue c s).arch c).s = (s.arch c).s.set r.val w ∧ ((landDue c s).arch c).hem[0] = w ∧ ((landDue c s).arch c).hem[1] = v ∧
      ∀ i : Fin 30, ((landDue c s).arch c).hem[i.val + 2] = (s.arch c).hem[i.val] := by
  have harch : (landDue c s).arch c = { ((((s.arch c).wrPhys r v).pushHem v).wrPhys r w).pushHem w with ports := ((landDue c s).arch c).ports } := by
    rw [landDue_eq, hdue]
    simp only [forEach, List.foldl_cons, List.foldl_nil, landOne_eq, landAct, closePorts_eq, State.modArch, modCtx_modCtx, State.arch, dueGone, modCtx_ctx_same]
    rfl
  rw [harch]
  simp [Arch.wrPhys, Arch.pushHem, Vector.set_set]

end Sys2Proof.Machine
end

