-- ==== Sys2Proof/Proofs/ResultsAndTraps.lean ====
section
/-! PROOF. Results that land, traps taken, fills, walks and service answers. -/

namespace Sys2Proof.Machine

/-! ## Traps and the end of a run -/

/-- A context whose task fails (R357). -/
def taskFailed (fault result : W64) (x : Ctx) : Ctx :=
  { x with exit := some ⟨result, fault, true, none, none⟩, trap := none, spec := none, svc := none, att := .none, miss := none }
/-- The registers once a trap is recorded (R163). -/
def trapRecorded (q : Trap) (a : Arch) : Arch :=
  { a with cause := q.err.cause, inh := true, trappc := q.pc, depth := BitVec.ofNat 3 a.loops.length,
           loops := a.loops.map (fun l => { l with kept := true }), tslot := q.slot, tleaf := q.leaf, trapaddr := q.err.addr, hpc := none }

theorem failTask_eq (c : CtxId) (fault result : W64) (s : State) : failTask c fault result s = s.setCtx c (taskFailed fault result (s.ctx c)) := rfl

section
variable {c : CtxId} {q : Trap} {s : State}

theorem takeTrap_inhibited (h : (s.ctx c).arch.inh = true) :
    takeTrap c q s = s.setCtx c (taskFailed (faultWord 2 (s.ctx c).arch.cause q.err.cause 0 (s.ctx c).arch.trappc) (s.ctx c).arch.trapaddr (s.ctx c)) := by
  simp only [takeTrap, h, if_true, failTask_eq]

/-- What a trap without a handler that can be entered comes to. -/
theorem failTask_recorded : failTask c (faultWord 1 q.err.cause 0 0 q.pc) q.err.addr (s.modArch c (trapRecorded q)) =
    s.setCtx c (taskFailed (faultWord 1 q.err.cause 0 0 q.pc) q.err.addr { s.ctx c with arch := trapRecorded q (s.ctx c).arch }) :=
  modCtx_modCtx s c _ _

variable (h : (s.ctx c).arch.inh = false)
include h

theorem takeTrap_noHandler (hh : handlerOf (s.ctx c) = 0xFFFFFFFF) :
    takeTrap c q s = failTask c (faultWord 1 q.err.cause 0 0 q.pc) q.err.addr (s.modArch c (trapRecorded q)) := by
  simp only [takeTrap, h, hh, if_true, if_false, Bool.false_eq_true]
  rfl
theorem takeTrap_handler (hh : handlerOf (s.ctx c) ≠ 0xFFFFFFFF) :
    takeTrap c q s = match placeOf s (s.ctx c).b (handlerOf (s.ctx c)) with
      | .start | .pending => s.setCtx c { s.ctx c with arch := { trapRecorded q (s.ctx c).arch with pc := handlerOf (s.ctx c) }, trap := none }
      | .inside => failTask c (faultWord 1 q.err.cause 0 0 q.pc) q.err.addr (s.modArch c (trapRecorded q))
      | .unmapped =>
        if (s.ctx c).unres.contains (pageVa (codeVa (s.ctx c).b.hdr (handlerOf (s.ctx c)))) then
          failTask c (faultWord 1 q.err.cause 0 0 q.pc) q.err.addr (s.modArch c (trapRecorded q))
        else awaitPage c (BitVec.ofNat 64 (codeVa (s.ctx c).b.hdr (handlerOf (s.ctx c)))) s := by
  simp only [takeTrap, h, hh, if_false, Bool.false_eq_true]
  cases placeOf s (s.ctx c).b (handlerOf (s.ctx c)) with
  | start | pending => exact modCtx_modCtx s c _ _
  | inside | unmapped => rfl
end

/-! ## Fills and walks -/

/-- A context's view of memory and contexts, and the dictionary caches, are as they were. -/
structure OnlyTlbs (s t : State) : Prop where
  mem : t.mem = s.mem
  ctx : ∀ c, t.ctx c = s.ctx c
  dict : ∀ k, (t.core k).dict = (s.core k).dict

namespace OnlyTlbs
variable {s t u : State}

theorem refl (s : State) : OnlyTlbs s s := ⟨rfl, fun _ => rfl, fun _ => rfl⟩
theorem trans (h : OnlyTlbs s t) (g : OnlyTlbs t u) : OnlyTlbs s u :=
  ⟨g.mem.trans h.mem, fun c => (g.ctx c).trans (h.ctx c), fun k => (g.dict k).trans (h.dict k)⟩
theorem modDie (d : Fin 4) (f : Die → Die) (hc : ∀ x, (f x).cores = x.cores) (hl : ∀ x, (f x).lbs = x.lbs) : OnlyTlbs s (s.modDie d f) :=
  ⟨modDie_mem s d f hc hl, fun c => congrArg (fun k : Core => k.ctxs[c.ctx.val]) (modDie_core s d f hc c.coreId),
    fun k => congrArg Core.dict (modDie_core s d f hc k)⟩
theorem modCoreTlb (k : CoreId) (g : List TlbEnt → List TlbEnt) : OnlyTlbs s (s.modCore k fun x => { x with tlb := g x.tlb }) := by
  refine ⟨modCore_mem s k _ ?_, modCore_ctx s k _ ?_, fun q => ?_⟩
  · exact fun _ => rfl
  · exact fun _ => rfl
  · by_cases h : q = k
    · rw [h, modCore_core_same]
    · rw [modCore_core_other s k q _ h]
theorem placed (l : Vector Stack 8) : OnlyTlbs s { s with hbmStacks := l } := ⟨by funext m; cases m <;> rfl, fun _ => rfl, fun _ => rfl⟩
theorem openRows (l : List Nat) (s : State) : OnlyTlbs s (openRows l s) := by
  unfold Machine.openRows forEach
  induction l.eraseDups generalizing s with
  | nil => exact refl s
  | cons g l ih => exact .trans (placed _) (ih _)
theorem noteHbm (d : Fin 4) (l : List Nat) (s : State) : OnlyTlbs s (noteHbm d l s) := by
  refine .trans ?_ (openRows _ _)
  exact modDie d _ (fun _ => rfl) fun _ => rfl
theorem tlbFill (k : CoreId) (t : BitVec 4) (va pte : W64) (s : State) : OnlyTlbs s (tlbFill k t va pte s) := by
  refine .trans ?_ (modDie k.die (fun d => { d with tlb := tlbAdd d.tlb 4096 t va pte }) (fun _ => rfl) fun _ => rfl)
  refine .trans ?_ (modCoreTlb k fun l => tlbAdd l 64 t va pte)
  exact noteHbm ..
theorem fillWalk (k : CoreId) (t : BitVec 4) (va : W64) (s : State) : OnlyTlbs s (fillWalk k t va s) := by
  unfold Machine.fillWalk
  split
  · exact refl s
  · split
    · exact tlbFill ..
    · exact refl s
theorem reportFault (d : Fin 4) (r : FaultRep) (s : State) : OnlyTlbs s (reportFault d r s) :=
  modDie d (fun x => if x.faults.contains r then x else { x with faults := x.faults ++ [r] }) (fun x => by split <;> rfl) fun x => by split <;> rfl

end OnlyTlbs

/-- A new translation is found under the address that it was made for. -/
theorem tlbFind_tlbAdd (l : List TlbEnt) (n : Nat) (t : BitVec 4) (va pte : W64) : tlbFind (tlbAdd l (n + 1) t va pte) t va = some pte := by
  simp [tlbFind, tlbAdd]
theorem tlbLook_tlbFill (k : CoreId) (t : BitVec 4) (va pte : W64) (s : State) : tlbLook (tlbFill k t va pte s) k t va = some pte := by
  have htlb : ((tlbFill k t va pte s).core k).tlb = tlbAdd ((noteWalk k.die t va s).core k).tlb 64 t va pte := by
    unfold tlbFill
    rw [modDie_core, modCore_core_same]
    exact fun _ => rfl
  rw [tlbLook, htlb, tlbFind_tlbAdd]
theorem reportFault_mem (d : Fin 4) (r : FaultRep) (s : State) : r ∈ ((reportFault d r s).die d).faults := by
  rw [reportFault, modDie_die_same]
  split
  · next h => simpa using h
  · simp

theorem fillDict_dict (c : CtxId) (n : Nat) (bits : BitVec 384) (s : State) : ((fillDict c n bits s).core c.coreId).dict =
    (⟨(s.ctx c).b.tenant, (s.ctx c).b.hdr.dict, n, bits⟩ :: (s.core c.coreId).dict).take 2048 := by
  rw [fillDict, modCore_core_same]
theorem fillDict_mem (c : CtxId) (n : Nat) (bits : BitVec 384) (s : State) : (fillDict c n bits s).mem = s.mem := modCore_mem s _ _ fun _ => rfl
theorem fillDict_ctx (c : CtxId) (n : Nat) (bits : BitVec 384) (s : State) (o : CtxId) : (fillDict c n bits s).ctx o = s.ctx o := by
  unfold fillDict
  refine modCore_ctx s _ _ ?_ o
  exact fun _ => rfl

/-! ## Destination codes -/

theorem dstAct_named (a : Arch) (d : Code7) (slot : BitVec 3) (v : W64) (h : d.toNat < 48) : dstAct a d slot v = .sreg (Fin.ofNat 64 d.toNat) v := by
  simp only [dstAct, physReg, show d.toNat < 0x40 by omega, h, if_true]
theorem dstAct_rotating (a : Arch) (d : Code7) (slot : BitVec 3) (v : W64) {n : Nat} (hn : n < 16) (h : d.toNat = 48 + n) :
    dstAct a d slot v = .sreg (Fin.ofNat 64 (48 + (n + (16 - a.rot % 16)) % 16)) v := by
  have hphys : 48 + n - 48 + 16 - a.rot % 16 = n + (16 - a.rot % 16) := by omega
  simp only [dstAct, physReg, h, show 48 + n < 0x40 by omega, show ¬48 + n < 48 by omega, if_true, if_false, hphys]
theorem dstAct_port (a : Arch) (d : Code7) (slot : BitVec 3) (v : W64) (n : Fin 8) (h : d.toNat = 0x40 + n.val) : dstAct a d slot v = .port n v slot := by
  have hn : Fin.ofNat 8 (0x40 + n.val) = n := Fin.ext (by simp only [Fin.val_ofNat]; omega)
  simp only [dstAct, h, show ¬0x40 + n.val < 0x40 by omega, show 0x40 + n.val < 0x48 by omega, if_true, if_false, hn]

/-! ## The events of a context -/

section
variable {s : State} {c : CtxId} (hc : c = ⟨s.arg.die, s.arg.core, s.arg.ctx⟩)
include hc

theorem resultLanding_of_mayLand (hmay : mayLand s c = true) (hst : (s.ctx c).st ≠ .saving) : resultLanding s = landDue c s := by
  subst hc
  simp only [resultLanding, hmay, hst, Bool.not_true, Bool.false_eq_true, false_and, if_false]

theorem trapEntry_of_ready {q : Trap} (hq : (s.ctx c).trap = some q) (hst : (s.ctx c).st = .running) (hfl : (s.ctx c).flights = [])
    (hmiss : (s.ctx c).miss = none) (hex : (s.ctx c).exit = none) : trapEntry s = takeTrap c q s := by
  subst hc
  simp [trapEntry, trapReady, hq, hst, hfl, hmiss, hex]

theorem maxrunExceeded_of_overrun (hst : (s.ctx c).st = .running) (hex : (s.ctx c).exit = none) (hspec : (s.ctx c).spec = none)
    (hrun : (s.ctx c).b.hdr.maxrun < (s.ctx c).arch.run) : maxrunExceeded s = failTask c (faultWord 4 0 0 0 (s.arch c).pc) 0 s := by
  subst hc
  simp [maxrunExceeded, overrun, hst, hex, hspec, hrun]

/-- A fill whose bytes can be read. -/
theorem dictionaryFill_of_read {n : Nat} {l : List Byte} (hst : (s.ctx c).st = .running)
    (hex : (s.ctx c).exit = none) (hmiss : (s.ctx c).miss = none) (hfetch : fetchAt s c (s.ctx c).arch.pc = .dict n)
    (hread : vaRead s c.coreId (s.ctx c).b.tenant ((s.ctx c).b.hdr.dict.toNat + 48 * n) 48 = some l) :
    ∃ u, OnlyTlbs s u ∧ dictionaryFill s = fillDict c n (BitVec.ofNat 384 (ofBytes l)) u := by
  have hwanted : dictWanted s c = some n := by simp [dictWanted, hst, hex, hmiss, hfetch]
  have hbytes : dictBytes s c n = some (BitVec.ofNat 384 (ofBytes l)) := by simp only [dictBytes, hread, Option.map_some]
  subst hc
  refine ⟨_, ?_, by simp only [dictionaryFill, hwanted, hbytes]; rfl⟩
  exact .trans (.trans (.fillWalk ..) (.fillWalk ..)) (.noteHbm ..)

theorem tlbWalkComplete_found {p e : W64} {kind : FaultKind} (hmiss : (s.ctx c).miss = some (p, kind)) (hrep : ctxReported s c = false)
    (hwalk : walk s (s.ctx c).b.tenant p = some e) :
    tlbWalkComplete s = (tlbFill c.coreId (s.ctx c).b.tenant p e s).modCtx c fun x => { x with miss := none } := by
  subst hc
  simp only [tlbWalkComplete, hmiss, hrep, hwalk, Bool.false_eq_true, if_false]
theorem tlbWalkComplete_missing {p : W64} {kind : FaultKind} (hmiss : (s.ctx c).miss = some (p, kind)) (hrep : ctxReported s c = false)
    (hwalk : walk s (s.ctx c).b.tenant p = none) :
    tlbWalkComplete s = reportFault c.die ⟨(s.ctx c).b.tenant, p, kind, if kind = .fetch then .fetch c else .xlat c⟩ s := by
  subst hc
  simp only [tlbWalkComplete, hmiss, hrep, hwalk, Bool.false_eq_true, if_false]
end

theorem tlbLook_modCtx (s : State) (c : CtxId) (f : Ctx → Ctx) (k : CoreId) (t : BitVec 4) (va : W64) : tlbLook (s.modCtx c f) k t va = tlbLook s k t va := by
  have h := SameVas.setCtx (k := k) (s := s) c (f (s.ctx c))
  simp only [tlbLook, State.modCtx, h.coreTlb, h.dieTlb]

/-! ## Service answers (R419; log 30) -/

theorem svcWrites_apart (s : State) (t : BitVec 4) (n : Byte) : (svcWrites s t n).Pairwise apart := by
  unfold svcWrites
  split
  · simp [apart, toBytes_length]
  · split <;> simp [apart, toBytes_length]
theorem svcWrites_within (s : State) (t : BitVec 4) (n : Byte) : ∀ w ∈ svcWrites s t n, w.1 + w.2.length ≤ 28 := by
  unfold svcWrites
  split
  · simp [toBytes_length]
  · split <;> simp [toBytes_length]

/-- The block of a service request once its answer has been written. -/
def answered (s : State) (c : CtxId) (p : Nat) (n : Byte) : State :=
  forEach (svcWrites s (s.ctx c).b.tenant n) (fun w => csWrite c.coreId (p + w.1) w.2) s

theorem svcAnswer_eq {s : State} {p : Nat} {n : Byte} {c : CtxId} (hc : c = ⟨s.arg.die, s.arg.core, s.arg.ctx⟩)
    (hsvc : (s.ctx c).svc = some (p, n)) (hok : s.arg.ok = false) :
    svcAnswer s = (answered s c p n).modCtx c fun x => { x with svc := none } := by
  subst hc
  simp only [svcAnswer, hok, hsvc, Bool.false_eq_true, if_false]
  rfl
theorem answered_ctx (s : State) (c : CtxId) (p : Nat) (n : Byte) : (answered s c p n).ctx c = s.ctx c :=
  (Keeps.forEach (φ := id) (fun _ _ => .csWrite ..) _ s).own
theorem answered_sameMemBut (s : State) (c : CtxId) (p : Nat) (n : Byte) : SameMemBut c.coreId p 28 s (answered s c p n) := by
  refine .forEach _ (fun w hw u => (csWrite_sameMemBut c.coreId _ _).mono (by omega) ?_) s
  have := svcWrites_within s (s.ctx c).b.tenant n w hw
  omega
/-- A field of the block is the number whose bytes the answer holds there. -/
theorem answered_field {s : State} {c : CtxId} {n : Byte} (p : Nat) {o k v : Nat} (h : (o, toBytes k v) ∈ svcWrites s (s.ctx c).b.tenant n) :
    rdLE ((answered s c p n).core c.coreId).store (p + o) k = v % 2 ^ (8 * k) := by
  have hread := forEach_csWrite_rdLE c.coreId p _ s (svcWrites_apart s (s.ctx c).b.tenant n) _ h
  rwa [toBytes_length, ofBytes_toBytes_mod] at hread

/-- What is written for each service (R419, log 30). -/
theorem svcWrites_health (s : State) (t : BitVec 4) : svcWrites s t 0 = [(0, toBytes 4 0), (8, toBytes 8 (healthWord s).toNat)] := rfl
theorem svcWrites_limits (s : State) (t : BitVec 4) : svcWrites s t 1 =
    [(0, toBytes 4 0), (8, toBytes 4 (s.ten t).ceiling.toNat), (12, toBytes 4 (s.ten t).weight), (16, toBytes 4 (s.ten t).cstoreLimit.toNat),
     (20, toBytes 4 (s.ten t).saveLimit.toNat), (24, toBytes 4 (s.ten t).teamLimit.toNat)] := rfl
theorem svcWrites_unknown (s : State) (t : BitVec 4) {n : Byte} (h : 2 ≤ n.toNat) : svcWrites s t n = [(0, toBytes 4 0xFFFFFFFF)] := by
  have h0 : n ≠ 0 := by rintro rfl; exact absurd h (by decide)
  have h1 : n ≠ 1 := by rintro rfl; exact absurd h (by decide)
  simp only [svcWrites, h0, h1, if_false]

theorem answered_health (s : State) (c : CtxId) (p : Nat) : let w (o : Nat) := rdLE ((answered s c p 0).core c.coreId).store (p + o) 4
    w 0 = 0 ∧ w 8 + 2 ^ 32 * w 12 = (healthWord s).toNat := by
  refine ⟨answered_field p (v := 0) (by rw [svcWrites_health]; simp), ?_⟩
  have hword := answered_field (s := s) (c := c) (n := 0) p (o := 8) (k := 8) (v := (healthWord s).toNat) (by rw [svcWrites_health]; simp)
  rw [Nat.mod_eq_of_lt (healthWord s).isLt, rdLE_add _ _ 4 4] at hword
  exact hword
theorem answered_limits (s : State) (c : CtxId) (p : Nat) : let w (o : Nat) := rdLE ((answered s c p 1).core c.coreId).store (p + o) 4
    let q := s.ten (s.ctx c).b.tenant
    w 0 = 0 ∧ w 8 = q.ceiling.toNat ∧ w 12 = q.weight % 2 ^ 32 ∧ w 16 = q.cstoreLimit.toNat ∧ w 20 = q.saveLimit.toNat ∧ w 24 = q.teamLimit.toNat := by
  intro w q
  have hfield (o v : Nat) (h : (o, toBytes 4 v) ∈ svcWrites s (s.ctx c).b.tenant 1) : w o = v % 2 ^ 32 := answered_field p h
  rw [svcWrites_limits] at hfield
  refine ⟨hfield 0 0 (by simp), ?_, hfield 12 _ (by simp [q]), ?_, ?_, ?_⟩
  · rw [hfield 8 q.ceiling.toNat (by simp [q])]
    exact Nat.mod_eq_of_lt (by omega)
  · rw [hfield 16 q.cstoreLimit.toNat (by simp [q])]
    exact Nat.mod_eq_of_lt q.cstoreLimit.isLt
  · rw [hfield 20 q.saveLimit.toNat (by simp [q])]
    exact Nat.mod_eq_of_lt q.saveLimit.isLt
  · rw [hfield 24 q.teamLimit.toNat (by simp [q])]
    exact Nat.mod_eq_of_lt q.teamLimit.isLt
theorem answered_unknown (s : State) (c : CtxId) (p : Nat) {n : Byte} (h : 2 ≤ n.toNat) :
    rdLE ((answered s c p n).core c.coreId).store (p + 0) 4 = 0xFFFFFFFF :=
  answered_field p (v := 0xFFFFFFFF) (by simp [svcWrites_unknown s _ h])

/-- Settles O41, part by part: a landing is one change of the context after what its kind of result does; the other events by their definitions. -/
theorem resultsAndTraps : Obligations.ResultsAndTraps := by
  intro s c k x a due rest fails
  refine ⟨fun d slot v => ⟨dstAct_named a d slot v, fun n hn h => dstAct_rotating a d slot v hn h, dstAct_port a d slot v, ?_⟩, ?_, ?_, ?_, ?_, ?_, ?_, ?_⟩
  · rintro rfl
    rfl
  · intro hmay hst
    obtain ⟨hothers, hflights⟩ := landDue_keeps c s
    refine ⟨landDue c s, congrArg Host.Outcome.next (resultLanding_of_mayLand rfl hmay hst), hothers, hflights, ?_, ?_⟩
    · intro hem sl act en hdue
      refine ⟨fun y hy => ?_, fun ws hws => ?_, landDue_landsOut hdue, landDue_hem_of_not hdue, ?_⟩
      · refine ⟨?_, ?_, landDue_registers_port hdue hy⟩
        · rw [landDue_registers hdue hy]
          exact sameMem_of_mem (setCtx_mem ..)
        · rw [State.arch, landDue_registers hdue hy, setCtx_ctx_same]
          rfl
      · rw [landDue_words hdue hws]
        exact ⟨putWords_other ws x, putWords_same ws x⟩
      · rintro v hv rfl
        obtain rfl := value_of_landsVal hv
        exact landDue_hem_pushed hdue rfl
    · exact fun sl sl' r v w hdue => landDue_pair hdue
  · intro q hq hst hfl hmiss hex h va e dies
    have hnext {u : State} (hu : takeTrap c q s = u) : exec .trapEntry s = .next u :=
      congrArg Host.Outcome.next ((trapEntry_of_ready rfl hq hst hfl hmiss hex).trans hu)
    refine ⟨fun hinh => hnext (takeTrap_inhibited hinh), fun hinh hh => hnext ((takeTrap_noHandler hinh hh).trans failTask_recorded), fun hinh hh => ?_⟩
    have htake := takeTrap_handler (q := q) hinh hh
    refine ⟨fun hplace => hnext (htake.trans ?_), fun hplace => hnext (htake.trans ?_), fun hplace hun => hnext (htake.trans ?_),
      fun hplace hun => hnext (htake.trans ?_)⟩
    · obtain hplace | hplace : placeOf s (s.ctx c).b (handlerOf (s.ctx c)) = .start ∨ placeOf s (s.ctx c).b (handlerOf (s.ctx c)) = .pending := hplace <;>
        rw [hplace] <;> rfl
    · rw [show placeOf s (s.ctx c).b (handlerOf (s.ctx c)) = .inside from hplace]
      exact failTask_recorded
    · rw [show placeOf s (s.ctx c).b (handlerOf (s.ctx c)) = .unmapped from hplace]
      exact (if_pos hun).trans failTask_recorded
    · rw [show placeOf s (s.ctx c).b (handlerOf (s.ctx c)) = .unmapped from hplace]
      exact if_neg (ne_true_of_eq_false hun)
  · intro hst hex hspec hrun
    exact congrArg Host.Outcome.next (maxrunExceeded_of_overrun rfl hst hex hspec hrun)
  · intro n l hst hex hmiss hfetch hread
    obtain ⟨u, hu, hfill⟩ := dictionaryFill_of_read rfl hst hex hmiss hfetch hread
    refine ⟨_, congrArg Host.Outcome.next hfill, ?_, sameMem_of_mem ((fillDict_mem ..).trans hu.mem), ?_⟩
    · rw [fillDict_ctx, hu.ctx]
    · rw [fillDict_dict, hu.ctx, hu.dict]
  · intro p kind e hmiss hrep hwalk
    have honly := OnlyTlbs.tlbFill k x.b.tenant p e s
    refine ⟨_, congrArg Host.Outcome.next (tlbWalkComplete_found rfl hmiss hrep hwalk), ?_, ?_, sameMem_of_mem ((modCtx_mem ..).trans honly.mem)⟩
    · rw [modCtx_ctx_same, honly.ctx]
    · exact (tlbLook_modCtx ..).trans (tlbLook_tlbFill k x.b.tenant p e s)
  · intro p kind hmiss hrep hwalk
    have honly := OnlyTlbs.reportFault c.die ⟨x.b.tenant, p, kind, if kind = .fetch then .fetch c else .xlat c⟩ s
    exact ⟨_, congrArg Host.Outcome.next (tlbWalkComplete_missing rfl hmiss hrep hwalk), reportFault_mem .., honly.ctx c, sameMem_of_mem honly.mem⟩
  · intro p n hsvc hok
    refine ⟨_, congrArg Host.Outcome.next (svcAnswer_eq rfl hsvc hok), ?_, ?_, ?_⟩
    · rw [modCtx_ctx_same, answered_ctx]
    · exact (answered_sameMemBut s c p n).congr rfl (modCtx_mem ..).symm
    · simp only [modCtx_store]
      refine ⟨?_, ?_, answered_unknown s c p⟩
      · rintro rfl
        exact answered_health s c p
      · rintro rfl
        exact answered_limits s c p

end Sys2Proof.Machine
end

