-- ==== Sys2Proof/Proofs/EncodeDecode.lean ====
section
/-! PROOF. The no-operations, the words written out from the encoding tables, and decoding the encoding of an instruction. -/

namespace Sys2Proof.Machine

/-- Nothing keeps an instruction without operands and destination from performing. -/
theorem ready_nil (s : State) : ready s [] [] none false = true := by
  simp [ready, unlocked, dstReady, streamsReady, pathReady, landedReady]

theorem runPlan_nop (sl : Slot) (s : State) : runPlan (Plan.nop sl) s = .next s :=
  runPlan_go (p := Plan.nop sl) (ready_nil s) rfl

/-- Settles O6: the plan of every slot's no-operation is the plan that does nothing. -/
theorem nopsChangeNothing : Obligations.NopsChangeNothing := fun s =>
  ⟨runPlan_nop .a s, runPlan_nop .l s, runPlan_nop .v s, runPlan_nop .m s, runPlan_nop .c s, runPlan_nop .s s⟩

/-- Settles O54, by running the decoder on the fourteen words. -/
theorem decodeWords : Obligations.DecodeWords := by
  unfold Obligations.DecodeWords
  decide

end Sys2Proof.Machine

namespace Sys2Proof.Laws.RoundTrip

/-- The round trip of every instruction, from that of each constructor in their order. -/
theorem statement_all (i : Instr) : Statement i :=
  i.casesOn
    add sub addw subw mul mulh mulhu mulw div divu rem remu and or xor andn shl shr sar rot min max minu maxu cmpEq cmpNe cmpLt cmpGe cmpLtu
    cmpGeu addi andi shli shri sari ldi lea sextB sextH sextW zextB zextH zextW clz ctz popc fadd fsub fmul fmin fmax fcmpEq fcmpLt fcmpLe
    fcmpUn fcvtF32I32 fcvtI32F32 fcvtI32F32Rz fcvtBf16F32 fcvtF32Bf16 fcvtF16F32 fcvtF32F16 fcvtF32I64 fdiv fsqrt sett rdt rdsys wrsys mov
    ldB ldBu ldH ldHu ldW ldWu ldD stB stH stW stD ldmr stmr xlat hrel hinfo ldhW ldhD sthW sthD amoSwap amoAdd amoAnd amoOr amoXor amoMin
    amoMax amoMinu amoMaxu amoFadd amoc pref vadd vsub vmul vfma vfms vmin vmax vabs vneg vadds vmuls vfmas vexp2 vlog2 vrcp vrsq vsqrt vcvt
    vqnt vdqnt vand vor vxor vshl vshr vsar vcmpEq vcmpNe vcmpLt vcmpLe vcmpGt vcmpGe vcmpUn vblend vredsum vredmax vredmin vbcast vmov
    vslide vslide2 vmacw vnar vperm vzrd vzrdL vzwr vzero viota mmaS mmaV mmaSg mmaVg mmaQ zalloc zfree zswap zzero mwait chbeg chblk chend
    chfin chmrg chst chld chscl scl sxv sts cpy cpwp cpwait cpabort barinit barexp bararr barwait bartst wopen wadv wclose wstat rres rpub
    rtake rrel bgive btake bopen bclose fset faddFlag fwait fwaiteq sbind sbindWindow sunb spos tdset tdget loop loopi ploop lexit setti
    drain fenceAcq fenceRel tspawn tspawnG tarm tsig texit tsetq tsetqSelf bsync put get ramo lbopen lbsend lbfree lbfreeClose cgrp cgrpTeam
    cbr cbrWait reconf trap svc ntfy bundleIssue dictionaryFill resultLanding trapEntry maxrunExceeded nop nopL ldhReply accessPerform
    refusal refusalRetry forwardingPointer nopV nopM mwaitAll commandIssue commandComplete nopS nopC copyEntryStart copyRowDelivery
    windowRowDelivery windowRowStore link barrierRelease remoteRequest putAck getData ramoResult lbMessage cbrOutcome collectiveTimeout
    reconfMeet crossconnectConfirm reconfTimeout tgack tret tlbWalkComplete faultAnswer dispatchChoice preemptWithdraw scrubDone coreScrub
    gangStart preemptionSave restore trackingPeriod migrationSwitch rowExchange flitReceive negativeAcknowledgement ackTimeout linkRetrain
    linkTrainComplete laneRepair ptbTimeMessage ptbMessageReceive ptbParentLoss launch gang mwrite mwriteAck mread mreadReply
    hostAccessTimeout map unmap health attest attestCert tkey coldStart warmStart powerLimit dieThrottle hbmRefreshDouble hbmThrottle
    thermalTrip coreError dieThrottleRelease hbmThrottleRelease svcAnswer rehashWalk regionDescriptor routerAdvertisement
    addressLifetimeExpiry icmpv6Request correctedError refreshWindow

/-- Settles O55, by the round trip of each instruction. -/
theorem encodeDecode : Obligations.EncodeDecode := fun i w hwf henc => statement_all i w henc hwf

end Sys2Proof.Laws.RoundTrip
end

