-- ==== Sys2Proof/Proofs/DecodeEncode.lean ====
section
/-! PROOF. A word that decodes is the encoding of what it decodes to. A decoder cuts a word into fields and fields into operands; a word put together again
from all its pieces is the word (R101: the pieces that an instruction does not use are 0). -/

namespace Sys2Proof

/-! ## Putting a word together from its pieces -/

theorem append_eq_iff {n m : Nat} {a : BitVec n} {b : BitVec m} {w : BitVec (n + m)} :
    a ++ b = w ↔ a = w.extractLsb' m n ∧ b = w.extractLsb' 0 m := by
  constructor
  · rintro rfl
    exact ⟨by rw [extract_append_high _ _ _ _ (Nat.le_refl m), Nat.sub_self, extract_self], (extract_append_low a b).symm⟩
  · rintro ⟨rfl, rfl⟩
    rw [BitVec.extractLsb'_append_extractLsb'_eq_extractLsb' (Nat.zero_add m).symm, extract_self]

/-- A field of a field is a field of the word. -/
theorem extract_extract {k : Nat} (w : BitVec k) (p n q m : Nat) (h : q + m ≤ n) :
    (w.extractLsb' p n).extractLsb' q m = w.extractLsb' (p + q) m := by
  ext i hi
  simp [BitVec.getElem_extractLsb', show q + i < n by omega, Nat.add_assoc]

theorem eq_ofNat_of_toNat_eq {n k : Nat} {w : BitVec n} (h : w.toNat = k) : w = BitVec.ofNat n k := by
  rw [← h, BitVec.ofNat_toNat, BitVec.setWidth_eq]

/-! ## Each format

The cases are the rows of the format's table: the opcode, and the conditions under which the decoder takes the row. In each, the encoder's word is the
decoded one piece by piece, by the opcode and those conditions. -/

theorem encode_of_decAB {w : BitVec 32} {i : Instr} (hdec : decAB (cutAB w) = some i) : encode i = some (.ab w) := by
  unfold decAB cutAB at hdec
  dsimp only at hdec
  split at hdec <;> rename_i hop
  any_goals replace hop := eq_ofNat_of_toNat_eq hop
  all_goals repeat' split at hdec
  all_goals cases hdec
  all_goals
    refine congrArg (fun w => some (SlotWord.ab w)) ?_
    repeat' refine append_eq_iff.mpr ⟨?_, ?_⟩
    all_goals simp_all only [extract_extract, Nat.reduceAdd, Nat.reduceLeDiff]

theorem encode_of_decLA {w : BitVec 40} {i : Instr} (hdec : decLA (cutLA w) = some i) : encode i = some (.l w) := by
  unfold decLA cutLA at hdec
  dsimp only at hdec
  split at hdec <;> rename_i hop
  any_goals replace hop := eq_ofNat_of_toNat_eq hop
  all_goals repeat' split at hdec
  all_goals cases hdec
  all_goals
    refine congrArg (fun w => some (SlotWord.l w)) ?_
    repeat' refine append_eq_iff.mpr ⟨?_, ?_⟩
    all_goals simp_all only [extract_extract, Nat.reduceAdd, Nat.reduceLeDiff]

theorem encode_of_decLM {w : BitVec 40} {i : Instr} (hdec : decLM (cutLM w) = some i) : encode i = some (.l w) := by
  unfold decLM cutLM at hdec
  dsimp only at hdec
  split at hdec <;> rename_i hop
  any_goals replace hop := eq_ofNat_of_toNat_eq hop
  all_goals cases hdec
  all_goals
    refine congrArg (fun w => some (SlotWord.l w)) ?_
    repeat' refine append_eq_iff.mpr ⟨?_, ?_⟩
    all_goals simp_all only [extract_extract, Nat.reduceAdd, Nat.reduceLeDiff]

theorem encode_of_decLH {w : BitVec 40} {i : Instr} (hdec : decLH (cutLH w) = some i) : encode i = some (.l w) := by
  unfold decLH cutLH at hdec
  dsimp only at hdec
  split at hdec <;> rename_i hop
  any_goals replace hop := eq_ofNat_of_toNat_eq hop
  all_goals repeat' split at hdec
  all_goals cases hdec
  all_goals
    refine congrArg (fun w => some (SlotWord.l w)) ?_
    repeat' refine append_eq_iff.mpr ⟨?_, ?_⟩
    all_goals simp_all only [extract_extract, Nat.reduceAdd, Nat.reduceLeDiff]

theorem encode_of_decV {w : BitVec 48} {i : Instr} (hdec : decV (cutV w) = some i) : encode i = some (.v w) := by
  unfold decV cutV at hdec
  dsimp only at hdec
  split at hdec <;> rename_i hop
  any_goals replace hop := eq_ofNat_of_toNat_eq hop
  all_goals repeat' split at hdec
  all_goals cases hdec
  all_goals
    refine congrArg (fun w => some (SlotWord.v w)) ?_
    repeat' refine append_eq_iff.mpr ⟨?_, ?_⟩
    all_goals simp_all only [extract_extract, Nat.reduceAdd, Nat.reduceLeDiff]

theorem encode_of_decM {w : BitVec 48} {i : Instr} (hdec : decM (cutM w) = some i) : encode i = some (.m w) := by
  unfold decM cutM at hdec
  dsimp only at hdec
  split at hdec <;> rename_i hop
  any_goals replace hop := eq_ofNat_of_toNat_eq hop
  all_goals repeat' split at hdec
  all_goals cases hdec
  all_goals
    refine congrArg (fun w => some (SlotWord.m w)) ?_
    repeat' refine append_eq_iff.mpr ⟨?_, ?_⟩
    all_goals simp_all only [extract_extract, Nat.reduceAdd, Nat.reduceLeDiff]

theorem encode_of_decC {w : BitVec 40} {i : Instr} (hdec : decC (cutC w) = some i) : encode i = some (.c w) := by
  unfold decC cutC at hdec
  dsimp only at hdec
  split at hdec <;> rename_i hop
  any_goals replace hop := eq_ofNat_of_toNat_eq hop
  all_goals repeat' split at hdec
  all_goals cases hdec
  all_goals
    refine congrArg (fun w => some (SlotWord.c w)) ?_
    repeat' refine append_eq_iff.mpr ⟨?_, ?_⟩
    all_goals simp_all only [extract_extract, Nat.reduceAdd, Nat.reduceLeDiff]

theorem encode_of_decS {w : BitVec 16} {i : Instr} (hdec : decS (cutS w) = some i) : encode i = some (.s w) := by
  unfold decS cutS at hdec
  dsimp only at hdec
  split at hdec <;> rename_i hop
  any_goals replace hop := eq_ofNat_of_toNat_eq hop
  all_goals repeat' split at hdec
  all_goals cases hdec
  all_goals
    refine congrArg (fun w => some (SlotWord.s w)) ?_
    repeat' refine append_eq_iff.mpr ⟨?_, ?_⟩
    all_goals simp_all only [extract_extract, Nat.reduceAdd, Nat.reduceLeDiff]

/-! ## Every slot word -/

theorem keepWf_eq_some {o : Option Instr} {i : Instr} : keepWf o = some i ↔ o = some i ∧ i.wf = true := by
  cases o with
  | none => simp [keepWf]
  | some j =>
    simp only [keepWf, Option.ite_none_right_eq_some, Option.some.injEq]
    exact ⟨fun ⟨hwf, hj⟩ => ⟨hj, hj ▸ hwf⟩, fun ⟨hj, hwf⟩ => ⟨hj ▸ hwf, hj⟩⟩

/-- A word of slot L decodes by one of the three formats of Table 07.8. -/
theorem decodeL_eq_some {w : BitVec 40} {i : Instr} (h : decodeL w = some i) :
    (decLA (cutLA w) = some i ∨ decLM (cutLM w) = some i ∨ decLH (cutLH w) = some i) ∧ i.wf = true := by
  unfold decodeL at h
  dsimp only at h
  repeat' split at h
  all_goals
    obtain ⟨hdec, hwf⟩ := keepWf_eq_some.mp h
    simp [hdec, hwf]

/-- Settles O56, format by format. -/
theorem decodeEncode : Obligations.DecodeEncode := by
  intro w i h
  cases w with
  | ab w => exact (keepWf_eq_some.mp h).imp_left encode_of_decAB
  | l w =>
    obtain ⟨hdec, hwf⟩ := decodeL_eq_some h
    exact ⟨hdec.elim encode_of_decLA (·.elim encode_of_decLM encode_of_decLH), hwf⟩
  | v w => exact (keepWf_eq_some.mp h).imp_left encode_of_decV
  | m w => exact (keepWf_eq_some.mp h).imp_left encode_of_decM
  | c w => exact (keepWf_eq_some.mp h).imp_left encode_of_decC
  | s w => exact (keepWf_eq_some.mp h).imp_left encode_of_decS

end Sys2Proof
end

