-- ==== Sys2Proof/Proofs/LoopsAndTargets.lean ====
section
/-! PROOF. Loop instructions and target registers, the slots that execute, the levels that a bundle pops, the next bundle and the operand codes (07 R104 to
R120; 09 R153 to R162). -/

namespace Sys2Proof.Machine

/-! ## Loop instructions -/

theorem lo32_eq_setWidth (v : W64) : lo32 v = v.setWidth 32 := by
  ext i hi
  simp [lo32]

/-- The level that a loop instruction pushes (R155, R158). -/
def newLevel (pipe : Bool) (cnt st ep : Nat) (start e : W32) : Level :=
  if pipe then ⟨true, cnt + ep, 0, start, e, BitVec.ofNat 32 cnt, st, ep, false⟩ else ⟨false, cnt, 0, start, e, 0, 0, 0, false⟩

theorem loopOut_last {pipe : Bool} {cnt n st ep : Nat} {c : CtxId} {s : State} {e : W32}
    (h : walkBody s c (succAt s c (s.arch c).pc) n = .last e) :
    loopOut pipe cnt n st ep c s = if cnt = 0 then .go id
      else if 6 ≤ (s.arch c).loops.length then .trap ⟨0x06, 6⟩
      else .go (pushLevel c (newLevel pipe cnt st ep (succAt s c (s.arch c).pc) e)) := by
  simp only [loopOut, h, newLevel]
  cases pipe <;> rfl

/-- A loop instruction runs a plan of slot C that reads its count and comes to `loopOut`. -/
theorem exec_loop {i : Instr} {s : State} {pipe : Bool} {cnt n st ep : Nat} {srcs : List Code7}
    (h : loopSpec (readOp s s.focus) i = some (pipe, cnt, n, st, ep, srcs)) :
    ∃ p : Plan, exec i s = runPlan p s ∧ p.slot = .c ∧ (p.srcs.map Prod.snd, p.mrds, p.dst, p.stalls) = (srcs, [], none, false) ∧
      p.run p.slot s.focus s = loopOut pipe cnt n st ep s.focus s := by
  cases i with
  | loop x n =>
    cases h
    exact ⟨planLoop x n, rfl, rfl, rfl, by rw [← lo32_eq_setWidth]; rfl⟩
  | loopi lo hi n =>
    cases h
    exact ⟨planLoopi lo hi n, rfl, rfl, rfl, rfl⟩
  | ploop x n s1 e =>
    cases h
    exact ⟨planPloop x n s1 e, rfl, rfl, rfl, by rw [← lo32_eq_setWidth]; rfl⟩
  | _ => cases h

section
variable {i : Instr} {s : State} {pipe : Bool} {cnt n st ep : Nat} {srcs : List Code7} {e : W32}
  (hspec : loopSpec (readOp s s.focus) i = some (pipe, cnt, n, st, ep, srcs)) (hready : ready s srcs [] none false = true)
  (hwalk : walkBody s s.focus (succAt s s.focus (s.arch s.focus).pc) n = .last e)
include hspec hready hwalk

/-- A loop instruction whose body has been walked runs a ready plan of slot C. -/
theorem exec_loop_last : ∃ p : Plan, exec i s = runPlan p s ∧ p.slot = .c ∧ p.srcs.map Prod.snd = srcs ∧
    ready s (p.srcs.map Prod.snd) p.mrds p.dst p.stalls = true ∧ p.run p.slot s.focus s = if cnt = 0 then .go id
      else if 6 ≤ (s.arch s.focus).loops.length then .trap ⟨0x06, 6⟩
      else .go (pushLevel s.focus (newLevel pipe cnt st ep (succAt s s.focus (s.arch s.focus).pc) e)) := by
  obtain ⟨p, hexec, hslot, hfields, hrun⟩ := exec_loop hspec
  simp only [Prod.mk.injEq] at hfields
  obtain ⟨hsrcs, hmrds, hdst, hstalls⟩ := hfields
  exact ⟨p, hexec, hslot, hsrcs, by rwa [hsrcs, hmrds, hdst, hstalls], hrun.trans (loopOut_last hwalk)⟩

theorem exec_loop_none (h0 : cnt = 0) : exec i s = .next (takeAll s.focus srcs s) := by
  obtain ⟨p, hexec, -, hsrcs, hp, hrun⟩ := exec_loop_last hspec hready hwalk
  rw [if_pos h0] at hrun
  rw [hexec, runPlan_go hp hrun, hsrcs]
  rfl
theorem exec_loop_push (h0 : cnt ≠ 0) (hlen : (s.arch s.focus).loops.length < 6) :
    exec i s = .next (takeAll s.focus srcs (pushLevel s.focus (newLevel pipe cnt st ep (succAt s s.focus (s.arch s.focus).pc) e) s)) := by
  obtain ⟨p, hexec, -, hsrcs, hp, hrun⟩ := exec_loop_last hspec hready hwalk
  rw [if_neg h0, if_neg (Nat.not_le.mpr hlen)] at hrun
  rw [hexec, runPlan_go hp hrun, hsrcs]
theorem exec_loop_deep (h0 : cnt ≠ 0) (hlen : 6 ≤ (s.arch s.focus).loops.length) : exec i s = .next (traps s 5 0x06 6 s) := by
  obtain ⟨p, hexec, hslot, -, hp, hrun⟩ := exec_loop_last hspec hready hwalk
  rw [if_neg h0, if_pos hlen] at hrun
  rw [hexec, runPlan_trap hp hrun (by simp [hslot]), hslot]
  rfl
end

/-! ## Target registers -/

/-- The offset of SETTI, sign-extended as a code address (R162). -/
theorem extract_sext64 (imm : BitVec 18) : (sext64 imm.toNat 18).extractLsb' 0 32 = imm.signExtend 32 := by
  apply BitVec.eq_of_toNat_eq
  simp only [sext64, BitVec.toNat_signExtend, BitVec.extractLsb'_toNat, BitVec.msb_eq_decide, BitVec.toNat_setWidth, decide_eq_true_eq, ge_iff_le,
    Nat.mod_eq_of_lt imm.isLt]
  split <;> simp only [BitVec.toNat_ofNat, Nat.shiftRight_zero] <;> omega

theorem exec_lexit (k : BitVec 3) (s : State) : exec (.lexit k) s = .next (s.modArch s.focus fun a => { a with loops := a.loops.drop k.toNat }) :=
  runPlan_go (p := planLexit k) (ready_nil s) rfl
theorem exec_setti (k : BitVec 3) (imm : BitVec 18) (s : State) :
    exec (.setti k imm) s = .next (quiet s [] 5 1 (.target (Fin.ofNat 7 k.toNat) ((s.arch s.focus).pc + imm.signExtend 32))) := by
  rw [← extract_sext64]
  exact runPlan_go (p := planSetti k imm) (ready_nil s) rfl
theorem exec_link (s : State) : exec .link s = .next (quiet s [] 5 1 (.target 6 (succAt s s.focus (s.arch s.focus).pc))) :=
  runPlan_go (p := planLink) (ready_nil s) rfl

/-! ## What executes -/

theorem Level.has_iff {l : Level} {pc : W32} : l.has pc = true ↔ l.lo.toNat ≤ pc.toNat ∧ pc.toNat ≤ l.hi.toNat := by
  simp [Level.has]

theorem executesOn_stage {a : Arch} {l : Level} (h : activePipe a = some l) (f : FH) (leaf : Nat) {sl : Slot} (hsl : sl ≠ .s) :
    executesOn a f leaf sl = stagePred a ((FH.mask f sl).toNat % 8) := by
  cases sl with
  | s => exact absurd rfl hsl
  | _ => simp only [executesOn, h]
theorem executesOn_leaf {a : Arch} (h : activePipe a = none) (f : FH) (leaf : Nat) {sl : Slot} (hsl : sl ≠ .s) :
    executesOn a f leaf sl = (FH.mask f sl).getLsbD leaf := by
  cases sl with
  | s => exact absurd rfl hsl
  | _ => simp only [executesOn, h]
theorem activePipe_some {a : Arch} {l : Level} {r : List Level} (hl : a.loops = l :: r) (hp : l.pipelined = true) (hb : l.has a.pc = true) :
    activePipe a = some l := by
  simp [activePipe, hl, hp, hb]
theorem activePipe_none {a : Arch} (h : ∀ l r, a.loops = l :: r → l.pipelined = true → l.has a.pc = false) : activePipe a = none := by
  unfold activePipe
  split
  next l r hl =>
    cases hp : l.pipelined
    · rfl
    · simp [h l r hl hp]
  next => rfl

theorem stagePred_iff {a : Arch} {l : Level} (h : activePipe a = some l) (k : Nat) :
    stagePred a k = true ↔ k < l.s ∧ (k : Int) ≤ l.idx ∧ (l.idx : Int) - k < l.n.toNat := by
  simp only [stagePred, h, Bool.and_eq_true, decide_eq_true_eq]
  omega

/-! ## Levels that a bundle pops -/

theorem popOutside_inside {a : Arch} {l : Level} (r : List Level) (h : l.has a.pc = true) : popOutside a (l :: r) = l :: r := by
  simp [popOutside, h]
theorem popOutside_outside {a : Arch} {l : Level} (r : List Level) (h : l.has a.pc = false) (hk : a.inh = false ∨ l.kept = false) :
    popOutside a (l :: r) = popOutside a r := by
  rcases hk with hk | hk <;> simp [popOutside, h, hk]

/-! ## Operand codes -/

theorem physReg_static (rot : Nat) (r : Fin 48) : (physReg rot r.val).val = r.val := by
  simp only [physReg, r.isLt, if_true, Fin.ofNat]
  omega
theorem physReg_rotating (rot : Nat) (n : Nat) (h : n < 16) : (physReg rot (48 + n)).val = 48 + (n + 16 - rot % 16) % 16 := by
  simp only [physReg, Fin.ofNat]
  rw [if_neg (by omega)]
  simp only
  omega
theorem physReg_rotated (rot n : Nat) (h : n < 16) : physReg ((rot + 1) % 16) (48 + (n + 1) % 16) = physReg rot (48 + n) := by
  apply Fin.ext
  rw [physReg_rotating _ _ (Nat.mod_lt _ (by decide)), physReg_rotating _ _ h]
  omega

section
variable (s : State) (c : CtxId) {n : Code7}

theorem readOp_register (h : n.toNat < 64) : readOp s c n = (s.arch c).rdS n.toNat := if_pos h
theorem readOp_hem (r : Fin 32) (h : n.toNat = 64 + r.val) : readOp s c n = (s.arch c).hem[r.val] := by
  unfold readOp
  dsimp only
  rw [if_neg (by omega), if_pos (by omega)]
  congr 1
  simp only [Fin.ofNat]
  omega
theorem readOp_zero : readOp s c 0x60 = 0 := rfl
theorem readOp_loop (r : Fin 6) (h : n.toNat = 0x61 + r.val) : readOp s c n = (s.arch c).loopIdx r.val := by
  unfold readOp
  dsimp only
  rw [if_neg (by omega), if_neg (by omega), if_neg (by omega), if_pos (by omega), h, Nat.add_sub_cancel_left]
theorem readOp_port (r : Fin 8) (h : n.toNat = 0x68 + r.val) : readOp s c n = portRead s c r.val := by
  unfold readOp
  dsimp only
  rw [if_neg (by omega), if_neg (by omega), if_neg (by omega), if_neg (by omega), if_pos (by omega), h, Nat.add_sub_cancel_left]
end

theorem portRead_none {s : State} {c : CtxId} {r : Fin 8} (h : ((s.arch c).ports[r.val]).bound = false ∨ ((s.arch c).ports[r.val]).out = true) :
    portRead s c r.val = 0 := by
  rcases h with h | h <;> simp [portRead, h]
theorem portRead_input {s : State} {c : CtxId} {r : Fin 8} (hb : ((s.arch c).ports[r.val]).bound = true) (ho : ((s.arch c).ports[r.val]).out = false) :
    let p := (s.arch c).ports[r.val]
    portRead s c r.val = if p.sx then sext64 (portElem s c p) (8 * p.bytes) else zext64 (portElem s c p) (8 * p.bytes) := by
  simp [portRead, hb, ho]

/-! ## The end of a body -/

theorem endBody_other {pc : W32} {l : Level} (r : List Level) (h : l.hi ≠ pc) : endBody pc (l :: r) = (l :: r, none) := if_neg h
theorem endBody_back {pc : W32} {l : Level} (r : List Level) (h : l.hi = pc) (h1 : l.cnt ≠ 1) (h0 : l.cnt ≠ 0) :
    endBody pc (l :: r) = ({ l with cnt := l.cnt - 1, idx := l.idx + 1 } :: r, some l) := by
  simp only [endBody, h, if_true]
  rw [if_pos (by omega)]
theorem endBody_last {pc : W32} {l : Level} (r : List Level) (h : l.hi = pc) (h1 : l.cnt = 1) : endBody pc (l :: r) = endBody pc r := by
  simp [endBody, h, h1]

/-! ## The next bundle -/

theorem checkTarget_ok {s : State} {c : CtxId} (h : committed s c = false) {pc : W32} (ht : targetAt s c pc = .ok) (k : Choice) :
    checkTarget s c pc k = k := by
  simp [checkTarget, h, ht]
theorem checkTarget_bad {s : State} {c : CtxId} (h : committed s c = false) {pc : W32} (ht : targetAt s c pc = .bad) (k : Choice) :
    checkTarget s c pc k = .trap ⟨0x01, pc.setWidth 64⟩ := by
  simp [checkTarget, h, ht]

section
variable {c : CtxId} {b : Bundle} {leaf : Nat} {s t : State}

theorem chooseNext_tret (hC : executesOn (s.arch c) b.h leaf .c = true) (hb : b.c = .tret) (hi : (s.arch c).inh = true) :
    chooseNext c b leaf s t = .go (s.arch c).trappc (t.arch c).loops (s.arch c).rot false := by
  simp [chooseNext, hC, hb, hi]

variable (hret : (executesOn (s.arch c) b.h leaf .c && decide (b.c = .tret) && (s.arch c).inh) = false)
include hret

theorem chooseNext_target (hlv : (FT.leaf b.f leaf).toNat ≠ 0) :
    let pc := (s.arch c).t[(Fin.ofNat 7 ((FT.leaf b.f leaf).toNat - 1)).val]
    chooseNext c b leaf s t = checkTarget s c pc (.go pc (t.arch c).loops (s.arch c).rot false) := by
  simp [chooseNext, hret, hlv]
section
variable (hlv : (FT.leaf b.f leaf).toNat = 0) (hloop : (executesOn (s.arch c) b.h leaf .c && isLoop b.c) = true)
include hlv hloop

theorem chooseNext_pushed (hlen : (s.arch c).loops.length < (t.arch c).loops.length) :
    chooseNext c b leaf s t = .go (succAt s c (s.arch c).pc) (t.arch c).loops (s.arch c).rot false := by
  simp [chooseNext, hret, hlv, hloop, hlen]
theorem chooseNext_skipped (hlen : (t.arch c).loops.length ≤ (s.arch c).loops.length) {e : W32}
    (he : walkBody s c (succAt s c (s.arch c).pc) (loopLen b.c) = .last e) :
    chooseNext c b leaf s t = .go (succAt s c e) (t.arch c).loops (s.arch c).rot false := by
  simp [chooseNext, hret, hlv, hloop, Nat.not_lt.mpr hlen, he]
end

section
variable (hlv : (FT.leaf b.f leaf).toNat = 0) (hloop : (executesOn (s.arch c) b.h leaf .c && isLoop b.c) = false)
include hlv hloop

theorem chooseNext_successor {ls : List Level} (he : endBody (s.arch c).pc (t.arch c).loops = (ls, none)) :
    chooseNext c b leaf s t = .go (succAt s c (s.arch c).pc) ls (s.arch c).rot false := by
  simp [chooseNext, hret, hlv, hloop, he]
theorem chooseNext_back {ls : List Level} {l : Level} (he : endBody (s.arch c).pc (t.arch c).loops = (ls, some l)) :
    chooseNext c b leaf s t =
      checkTarget s c l.lo (.go l.lo ls (if l.pipelined then ((s.arch c).rot + 1) % 16 else (s.arch c).rot) true) := by
  simp [chooseNext, hret, hlv, hloop, he]
/-- At the end of a body only the levels that remain there matter. -/
theorem chooseNext_congr {u : State} (he : endBody (s.arch c).pc (t.arch c).loops = endBody (s.arch c).pc (u.arch c).loops) :
    chooseNext c b leaf s t = chooseNext c b leaf s u := by
  simp only [chooseNext, hret, hlv, hloop, he, Bool.false_eq_true, if_false, ne_eq, not_true_eq_false]
end
end

/-! ## The statement -/

/-- Settles O31, by what each loop, target and level operation comes to, and by the cases of the choice of the next bundle. -/
theorem loopsAndTargets : Obligations.LoopsAndTargets := by
  unfold Obligations.LoopsAndTargets
  refine ⟨fun i s pipe cnt n st ep srcs e hspec hready => ?_, fun s k imm _ => ⟨exec_lexit k s, exec_setti k imm s, exec_link s⟩,
    fun t => by and_intros <;> rfl, fun a f leaf sl hsl => ⟨fun l r hl hp hb => ?_, fun h => ?_⟩, fun a l r => ⟨fun hb => ?_, fun hb hk => ?_⟩,
    fun c b leaf s t l r hcom => ?_, fun a n hn => ?_, fun s c n => ⟨fun r hr => ?_, fun r hr => ?_, fun r hr => readOp_hem s c r hr,
      fun hz => hz ▸ readOp_zero s c, fun r hr => readOp_loop s c r hr, fun r hr => ?_⟩⟩
  · exact fun hwalk => ⟨exec_loop_none hspec hready hwalk, exec_loop_push hspec hready hwalk, exec_loop_deep hspec hready hwalk⟩
  · have hpipe := activePipe_some hl hp (Level.has_iff.mpr hb)
    rw [executesOn_stage hpipe f leaf hsl]
    exact stagePred_iff hpipe _
  · refine executesOn_leaf (activePipe_none fun l r hl hp => ?_) f leaf hsl
    exact eq_false_of_ne_true (mt Level.has_iff.mp (h l r hl hp))
  · exact popOutside_inside r (Level.has_iff.mpr hb)
  · exact popOutside_outside r (eq_false_of_ne_true (mt Level.has_iff.mp (by omega))) hk
  · refine ⟨chooseNext_tret, fun hret => ?_⟩
    replace hret : (executesOn (s.arch c) b.h leaf .c && decide (b.c = .tret) && (s.arch c).inh) = false := by
      rwa [Bool.and_eq_false_iff, Bool.and_eq_false_iff, decide_eq_false_iff_not, or_assoc]
    refine ⟨fun hlv => ?_, fun hlv hC hb => ?_, fun hlv hC => ?_⟩
    · rw [chooseNext_target hret hlv]
      exact ⟨fun ht => checkTarget_ok hcom ht _, fun ht => checkTarget_bad hcom ht _⟩
    · have hloop : (executesOn (s.arch c) b.h leaf .c && isLoop b.c) = true := by rw [hC, hb, Bool.and_self]
      exact ⟨chooseNext_pushed hret hlv hloop, fun _ hlen he => chooseNext_skipped hret hlv hloop hlen he⟩
    · have hloop : (executesOn (s.arch c) b.h leaf .c && isLoop b.c) = false := by rwa [Bool.and_eq_false_iff]
      refine ⟨fun hls => ?_, fun hls hhi => ?_, fun hls hhi h1 h0 => ?_, fun hls hhi h1 => ?_⟩
      · exact chooseNext_successor hret hlv hloop (by rw [hls, endBody])
      · exact chooseNext_successor hret hlv hloop (by rw [hls, endBody_other r hhi])
      · rw [chooseNext_back hret hlv hloop (by rw [hls, endBody_back r hhi h1 h0])]
        exact ⟨fun ht => checkTarget_ok hcom ht _, fun ht => checkTarget_bad hcom ht _⟩
      · exact chooseNext_congr hret hlv hloop (by rw [hls, endBody_last r hhi h1, modArch_arch_same])
  · exact congrArg (fun r => a.s[r.val]) (physReg_rotated a.rot n hn)
  · rw [readOp_register s c (by omega), hr]
    exact getElem_congr_idx (physReg_static _ r)
  · rw [readOp_register s c (by omega), hr]
    exact getElem_congr_idx (physReg_rotating _ _ r.isLt)
  · rw [readOp_port s c r hr]
    exact ⟨portRead_none, portRead_input⟩

end Sys2Proof.Machine
end

