-- ==== Sys2Proof/Proofs/ScalarRules.lean ====
section
/-! SUPPORT. What an instruction of slots A and B sends once its operands are ready, the functions that it computes (R148 to R150) and the words of the system
registers (R151, R167). -/

namespace Sys2Proof.Machine

/-! ## Results of slots A and B -/

section
variable {i : Instr} {s : State} {p : Plan} {lat : Nat} {d x y : Code7} {v : W64}

/-- A ready plan that sends a result from slot A. -/
theorem runPlan_sends (h : ready s (p.srcs.map Prod.snd) p.mrds p.dst p.stalls = true)
    (hr : p.run p.slot s.focus s = .go (sendRes s.focus 0 lat d v)) : runPlan p s = .next (sends s (p.srcs.map Prod.snd) lat d v) :=
  (runPlan_go h hr).trans rfl
/-- A ready plan that sends a result which enters no Hem. -/
theorem runPlan_quiet {sl : BitVec 3} {act : Land} (h : ready s (p.srcs.map Prod.snd) p.mrds p.dst p.stalls = true)
    (hr : p.run p.slot s.focus s = .go (sendQuiet s.focus sl lat act)) : runPlan p s = .next (quiet s (p.srcs.map Prod.snd) sl lat act) :=
  (runPlan_go h hr).trans rfl
/-- An instruction of two operands, once they are ready, sends what its plan's function gives. -/
theorem exec_plan2 {f : W64 → W64 → W64} (hi : exec i s = runPlan (plan2 lat d x y f) s) (hv : f (readOp s s.focus x) (readOp s s.focus y) = v)
    (h : ready s [x, y] [] (some d) false = true) : exec i s = .next (sends s [x, y] lat d v) := by
  rw [hi, ← hv]
  exact runPlan_sends (p := plan2 lat d x y f) h rfl
/-- An instruction of one operand likewise. -/
theorem exec_plan1 {f : W64 → W64} (hi : exec i s = runPlan (plan1 lat d x f) s) (hv : f (readOp s s.focus x) = v)
    (h : ready s [x] [] (some d) false = true) : exec i s = .next (sends s [x] lat d v) := by
  rw [hi, ← hv]
  exact runPlan_sends (p := plan1 lat d x f) h rfl
end

/-! ## Fields of an operand -/

theorem sext64_toNat_mod (v n : Nat) : sext64 (v % 2 ^ n) n = sext64 v n := by simp only [sext64, Nat.mod_mod]
/-- Sign extension of a field of at most 64 bits (Table 00.3). -/
theorem sext64_eq_signExtend {n : Nat} (h : n ≤ 64) (v : BitVec n) : sext64 v.toNat n = v.signExtend 64 := by
  apply BitVec.eq_of_toNat_eq
  have hpow : 2 ^ n ≤ 2 ^ 64 := Nat.pow_le_pow_right (by decide) h
  have hv := v.isLt
  have hmod : v.toNat % 2 ^ 64 = v.toNat := Nat.mod_eq_of_lt (by omega)
  simp only [sext64, Nat.mod_eq_of_lt hv, BitVec.toNat_signExtend, BitVec.msb_eq_decide, BitVec.toNat_setWidth, decide_eq_true_eq, hmod]
  split
  · rw [BitVec.toNat_ofNat, Nat.mod_eq_of_lt (by omega), Nat.add_comm]
  · rw [BitVec.toNat_ofNat, hmod, Nat.add_zero]
theorem sext64_word {n : Nat} (h : n ≤ 64) (v : W64) : sext64 v.toNat n = (v.setWidth n).signExtend 64 := by
  rw [← sext64_eq_signExtend h, BitVec.toNat_setWidth, sext64_toNat_mod]
theorem zext64_word {n : Nat} (v : W64) : zext64 v.toNat n = (v.setWidth n).setWidth 64 := by
  rw [zext64, ← BitVec.toNat_setWidth, BitVec.ofNat_toNat]
theorem sInt_eq_toInt {n : Nat} (v : BitVec n) : sInt v.toNat n = v.toInt := by
  simp only [sInt, Nat.mod_eq_of_lt v.isLt, BitVec.toInt_eq_msb_cond, BitVec.msb_eq_decide, decide_eq_true_eq, ge_iff_le]
  split <;> simp
theorem sInt_word {n : Nat} (v : W64) : sInt v.toNat n = (v.setWidth n).toInt := by
  rw [← sInt_eq_toInt, BitVec.toNat_setWidth, sInt, sInt, Nat.mod_mod]
theorem low6_toNat {n : Nat} (v : BitVec n) : (v.extractLsb' 0 6).toNat = v.toNat % 64 := by simp [BitVec.extractLsb'_toNat]
theorem lowHalf_toNat (v : W64) : (v.extractLsb' 0 16).toNat = v.toNat % 65536 := by simp [BitVec.extractLsb'_toNat]

/-! ## Integer functions -/

theorem extract_high_ofInt (z : Int) : (BitVec.ofInt 128 z).extractLsb' 64 64 = BitVec.ofInt 64 (z / 2 ^ 64) := by
  apply BitVec.eq_of_toNat_eq
  simp only [BitVec.extractLsb'_toNat, BitVec.toNat_ofInt, Nat.shiftRight_eq_div_pow]
  omega
theorem mulHighS_eq (x y : W64) : mulHighS x y = (x.signExtend 128 * y.signExtend 128).extractLsb' 64 64 := by
  rw [mulHighS, ← extract_high_ofInt, BitVec.ofInt_mul]
  rfl
theorem mulHighU_eq (x y : W64) : BitVec.ofNat 64 (x.toNat * y.toNat / 2 ^ 64) = (x.setWidth 128 * y.setWidth 128).extractLsb' 64 64 := by
  apply BitVec.eq_of_toNat_eq
  have hwide (v : W64) : v.toNat % 2 ^ 128 = v.toNat := Nat.mod_eq_of_lt (by omega)
  have hprod : x.toNat * y.toNat % 2 ^ 128 = x.toNat * y.toNat :=
    Nat.mod_eq_of_lt (Nat.lt_of_lt_of_le (Nat.mul_lt_mul'' x.isLt y.isLt) (by decide))
  simp only [BitVec.extractLsb'_toNat, BitVec.toNat_mul, BitVec.toNat_setWidth, BitVec.toNat_ofNat, Nat.shiftRight_eq_div_pow, hwide, hprod]

/-- Where equal operands give the same, less may be read as less or equal. -/
theorem ite_slt_eq_sle {x y a b : W64} (h : x = y → a = b) : (if x.slt y then a else b) = if x.sle y then a else b := by
  by_cases hxy : x = y
  · rw [h hxy, ite_self, ite_self]
  · have hne : x.toInt ≠ y.toInt := fun he => hxy (BitVec.eq_of_toInt_eq he)
    have hiff : x.toInt < y.toInt ↔ x.toInt ≤ y.toInt := by omega
    simp only [BitVec.slt_iff_toInt_lt, BitVec.sle_iff_toInt_le, hiff]
theorem ite_ult_eq_ule {x y a b : W64} (h : x = y → a = b) : (if x.ult y then a else b) = if x.ule y then a else b := by
  by_cases hxy : x = y
  · rw [h hxy, ite_self, ite_self]
  · have hne : x.toNat ≠ y.toNat := fun he => hxy (BitVec.eq_of_toNat_eq he)
    have hiff : x.toNat < y.toNat ↔ x.toNat ≤ y.toNat := by omega
    simp only [BitVec.ult_iff_lt, BitVec.ule_iff_le, BitVec.lt_def, BitVec.le_def, hiff]
theorem ofBool64_of_iff {b : Bool} {q : Prop} [Decidable q] (h : b = true ↔ q) : ofBool64 b = if q then 1 else 0 := by
  simp only [ofBool64, h]

/-! ## Division (R149) -/

theorem divS_eq (x y : W64) : divS x y = if y = 0 then BitVec.allOnes 64 else x.sdiv y := by
  rw [divS]
  split
  · rfl
  · exact BitVec.eq_of_toInt_eq (by rw [BitVec.toInt_ofInt, BitVec.toInt_sdiv])
theorem remS_eq (x y : W64) : remS x y = if y = 0 then x else x.srem y := by
  rw [remS, ← BitVec.toInt_srem, BitVec.ofInt_toInt]
theorem divU_eq (x y : W64) : divU x y = if y = 0 then BitVec.allOnes 64 else x / y := by
  rw [divU, ← BitVec.toNat_udiv, BitVec.ofNat_toNat, BitVec.setWidth_eq]
theorem remU_eq (x y : W64) : remU x y = if y = 0 then x else x % y := by
  rw [remU, ← BitVec.toNat_umod, BitVec.ofNat_toNat, BitVec.setWidth_eq]

/-! ## Counts of bits -/

/-- A count of trailing zeros from bit `i` over `f` bits: the bits before it are 0, and the bit at it is 1 unless none of the `f` is (Table 09.3). -/
theorem ctzFrom_spec (v i f : Nat) : ctzFrom v i f ≤ i + f ∧ (∀ k, i ≤ k → k < ctzFrom v i f → v.testBit k = false) ∧
    (ctzFrom v i f < i + f → v.testBit (ctzFrom v i f) = true) := by
  induction f generalizing i with
  | zero => exact ⟨Nat.le_refl _, fun k hk h => absurd h (Nat.not_lt.mpr hk), fun h => absurd h (Nat.lt_irrefl _)⟩
  | succ f ih =>
    unfold ctzFrom
    split
    next hbit => exact ⟨Nat.le_add_right .., fun k hk h => absurd h (Nat.not_lt.mpr hk), fun _ => hbit⟩
    next hbit =>
      obtain ⟨hle, hzero, hone⟩ := ih (i + 1)
      refine ⟨by omega, fun k hk h => ?_, fun h => hone (by omega)⟩
      rcases Nat.eq_or_lt_of_le hk with rfl | hlt
      · exact eq_false_of_ne_true hbit
      · exact hzero k hlt h
theorem popcount_eq_length (v n : Nat) : popcount v n = ((List.range n).filter fun k => v.testBit k).length := by
  induction n with
  | zero => rfl
  | succ n ih =>
    rw [popcount, ih, List.range_succ, List.filter_append, List.length_append]
    cases hbit : v.testBit n <;> simp [hbit]
/-- A count of leading zeros: the value has no bit among them, and has the one behind them unless it is 0 (Table 09.3). -/
theorem clz64_spec (v : W64) : clz64 v.toNat ≤ 64 ∧ v.toNat < 2 ^ (64 - clz64 v.toNat) ∧
    (clz64 v.toNat < 64 → v.getMsbD (clz64 v.toNat) = true) := by
  unfold clz64
  split
  next h0 => simp [h0]
  next h0 =>
    have hlog : v.toNat.log2 < 64 := (Nat.log2_lt h0).mpr v.isLt
    refine ⟨by omega, ?_, fun _ => ?_⟩
    · rw [show 64 - (63 - v.toNat.log2) = v.toNat.log2 + 1 by omega]
      exact Nat.lt_log2_self
    · rw [BitVec.getMsbD_eq_getLsbD, show 64 - 1 - (63 - v.toNat.log2) = v.toNat.log2 by omega, BitVec.getLsbD, Nat.testBit_log2 h0]
      simp only [Bool.and_true, decide_eq_true_eq]
      omega

/-! ## Floating-point operands (R150) -/

theorem f32In_eq (v : W64) : f32In v = f32Of v := by simp [f32In, f32Of, BitVec.extractLsb'_toNat]
theorem fcmp_eq (os : List (Option Ordering)) {b : Bool} {x y : W64} (h : b = true ↔ FV.cmp (f32In x) (f32In y) ∈ os) : ofBool64 b = fcmp os x y := by
  rw [fcmp, ← f32In_eq, ← f32In_eq, ofBool64_of_iff h]

/-! ## System registers (Tables 09.8 to 09.10) -/

theorem toNat_append_add {m n : Nat} (x : BitVec m) (y : BitVec n) : (x ++ y).toNat = x.toNat * 2 ^ n + y.toNat := by
  rw [BitVec.toNat_append, ← Nat.shiftLeft_add_eq_or_of_lt y.isLt, Nat.shiftLeft_eq]
theorem zero_append_eq {m n : Nat} (x : BitVec n) : 0#m ++ x = x.setWidth (m + n) := by
  apply BitVec.eq_of_toNat_eq
  have : x.toNat < 2 ^ (m + n) := Nat.lt_of_lt_of_le x.isLt (Nat.pow_le_pow_right (by decide) (by omega))
  rw [toNat_append_add, BitVec.toNat_setWidth, Nat.mod_eq_of_lt this]
  simp
theorem siteWord_eq (t : BitVec 5) (k : Fin 16) : BitVec.ofNat 64 (t.toNat * 256 + k.val) = 0#51 ++ t ++ 0#4 ++ BitVec.ofNat 4 k.val :=
  (eq_ofNat_of_toNat_eq (by simp only [toNat_append_add, BitVec.toNat_ofNat]; omega)).symm
theorem trapvecWord_eq (b : Bool) (a : W32) : BitVec.ofNat 64 ((if b then 2 ^ 32 else 0) + a.toNat) = 0#31 ++ BitVec.ofBool b ++ a :=
  (eq_ofNat_of_toNat_eq (by simp only [toNat_append_add, BitVec.toNat_ofNat, BitVec.toNat_ofBool]; cases b <;> simp)).symm
theorem causeWord_eq (b : Bool) (k : Byte) : BitVec.ofNat 64 ((if b then 256 else 0) + k.toNat) = 0#55 ++ BitVec.ofBool b ++ k :=
  (eq_ofNat_of_toNat_eq (by simp only [toNat_append_add, BitVec.toNat_ofNat, BitVec.toNat_ofBool]; cases b <;> simp)).symm
theorem trapleafWord_eq (d sl lf : BitVec 3) : BitVec.ofNat 64 (d.toNat * 256 + sl.toNat * 32 + lf.toNat) = 0#53 ++ d ++ sl ++ 0#2 ++ lf :=
  (eq_ofNat_of_toNat_eq (by simp only [toNat_append_add, BitVec.toNat_ofNat]; omega)).symm
theorem scratch_toList (v : Vector W64 7) : v.toList = [v[0], v[1], v[2], v[3], v[4], v[5], v[6]] := by
  refine List.ext_getElem (by rw [Vector.length_toList]; rfl) fun i hi _ => ?_
  rw [Vector.getElem_toList]
  rw [Vector.length_toList] at hi
  match i, hi with
  | 0, _ | 1, _ | 2, _ | 3, _ | 4, _ | 5, _ | 6, _ => rfl

theorem sysTable_eq (s : State) (c : CtxId) : sysTable s c = (List.range 32).map (rdSysReg s c) := by
  simp only [List.range, List.range.loop, List.map_cons, List.map_nil, rdSysReg, siteWord_eq, trapvecWord_eq, causeWord_eq, trapleafWord_eq]
  simp only [sysTable, scratch_toList, List.cons_append, List.nil_append, zero_append_eq, quadOf, Nat.mul_comm 256]
  rfl
theorem rdSysReg_above (s : State) (c : CtxId) {n : Nat} (h : 32 ≤ n) : rdSysReg s c n = 0 := by
  obtain ⟨k, rfl⟩ := Nat.exists_eq_add_of_le' h
  rfl
/-- What RDSYS reads: the table's word, and 0 above it (R123). -/
theorem sysTable_getD (s : State) (c : CtxId) (n : Nat) : (sysTable s c).getD n 0 = rdSysReg s c n := by
  rw [sysTable_eq, List.getD_eq_getElem?_getD, List.getElem?_map]
  by_cases h : n < 32
  · rw [List.getElem?_range h]
    rfl
  · rw [List.getElem?_eq_none (by simpa using h), rdSysReg_above s c (by omega)]
    rfl

theorem wrSysReg_scratch (q : Fin 7) (v : W64) (a : Arch) : wrSysReg (25 + q.val) v a = { a with scratch := a.scratch.set q.val v } := by
  unfold wrSysReg
  rw [if_neg (by omega), if_neg (by omega), dif_pos (by omega)]
  simp only [Nat.add_sub_cancel_left]
theorem wrSysReg_other {n : Nat} (hk : n ≠ 14) (ht : n ≠ 15) (hs : n < 25 ∨ 31 < n) (v : W64) (a : Arch) : wrSysReg n v a = a := by
  unfold wrSysReg
  rw [if_neg hk, if_neg ht, dif_neg (by omega)]
theorem landAct_sys (c : CtxId) (n : Nat) (v : W64) (s : State) : landAct c none (.sys n v) s = s.modArch c (wrSysReg n v) := rfl

end Sys2Proof.Machine
end

