-- ==== Sys2Proof/Proofs/ScalarResults.lean ====
section
/-! PROOF. The instructions of slots A and B, and TRAP and TRET: their results and how they complete (09 R148 to R151, R163 to R167). -/

namespace Sys2Proof.Machine

/-! ## Slots A and B -/

/-- Settles O1: each row of the table is a plan of its latency and operands, whose function is the row's. -/
theorem integerResults : Obligations.IntegerResults := by
  unfold Obligations.IntegerResults
  intro i s lat d srcs v hspec h
  cases i <;> cases hspec
  case add | sub | mul | and | or | xor | andn | lea => exact exec_plan2 rfl rfl h
  case addw | subw | mulw => exact exec_plan2 rfl (sext64_word (by decide) _) h
  case mulh => exact exec_plan2 rfl (mulHighS_eq ..) h
  case mulhu => exact exec_plan2 rfl (mulHighU_eq ..) h
  case shl | shr | sar | rot => exact exec_plan2 rfl (by rw [low6_toNat]) h
  case min => exact exec_plan2 rfl (ite_slt_eq_sle id) h
  case max => exact exec_plan2 rfl (ite_slt_eq_sle Eq.symm) h
  case minu => exact exec_plan2 rfl (ite_ult_eq_ule id) h
  case maxu => exact exec_plan2 rfl (ite_ult_eq_ule Eq.symm) h
  case cmpEq => exact exec_plan2 rfl (ofBool64_of_iff beq_iff_eq) h
  case cmpNe => exact exec_plan2 rfl ((ofBool64_of_iff bne_iff_ne).trans (ite_not ..)) h
  case cmpLt => exact exec_plan2 rfl (ofBool64_of_iff BitVec.slt_iff_toInt_lt) h
  case cmpGe => exact exec_plan2 rfl (ofBool64_of_iff (by simp [BitVec.slt_eq_decide])) h
  case cmpLtu => exact exec_plan2 rfl (ofBool64_of_iff BitVec.ult_iff_lt) h
  case cmpGeu => exact exec_plan2 rfl (ofBool64_of_iff (by simp [BitVec.ult_eq_decide])) h
  case addi | andi => exact exec_plan1 rfl (by rw [sext64_eq_signExtend (by decide)]) h
  case shli | shri | sari => exact exec_plan1 rfl (by rw [low6_toNat]) h
  case sextB | sextH | sextW => exact exec_plan1 rfl (sext64_word (by decide) _) h
  case zextB | zextH | zextW => exact exec_plan1 rfl (zext64_word _) h
  case clz | ctz | popc | mov => exact exec_plan1 rfl rfl h
  case ldi hi lo n =>
    rw [← sext64_eq_signExtend (by decide)]
    exact runPlan_sends (p := planLdi d hi lo n) h rfl

/-- Settles O2, by the four functions of R149; the quotient −2^63 / −1 wraps to −2^63. -/
theorem divisionResults : Obligations.DivisionResults := by
  unfold Obligations.DivisionResults
  intro s d x y h a b
  refine ⟨exec_plan2 rfl (divS_eq a b) h, exec_plan2 rfl (divU_eq a b) h, exec_plan2 rfl (remS_eq a b) h, exec_plan2 rfl (remU_eq a b) h,
    fun ha hb => ?_⟩
  rw [ha, hb]
  decide

/-- Settles O3, by the laws of the three counts. -/
theorem bitCounts : Obligations.BitCounts := by
  unfold Obligations.BitCounts
  intro v
  obtain ⟨hle, hzero, hone⟩ := ctzFrom_spec v.toNat 0 64
  exact ⟨clz64_spec v, ⟨hle, fun k hk => hzero k (Nat.zero_le k) hk, hone⟩, popcount_eq_length v.toNat 64⟩

/-- Settles O4: each row is a plan whose function reads the same fields of its operands as the row. -/
theorem floatResults : Obligations.FloatResults := by
  unfold Obligations.FloatResults
  intro i s lat d srcs v hspec h
  cases i <;> cases hspec
  case fadd | fsub | fmul | fmin | fmax | fdiv => exact exec_plan2 rfl (by simp only [f32In_eq]; rfl) h
  case fcmpEq | fcmpLt | fcmpLe | fcmpUn => exact exec_plan2 rfl (fcmp_eq _ (by simp)) h
  case fcvtI32F32 | fcvtI32F32Rz | fsqrt => exact exec_plan1 rfl (by rw [f32In_eq]; rfl) h
  case fcvtBf16F32 | fcvtF16F32 => exact exec_plan1 rfl (by rw [f32In_eq]) h
  case fcvtF32Bf16 | fcvtF32F16 => exact exec_plan1 rfl (by rw [lowHalf_toNat]; rfl) h
  case fcvtF32I32 => exact exec_plan1 rfl (by rw [sInt_word]; rfl) h
  case fcvtF32I64 => exact exec_plan1 rfl (by rw [sInt_eq_toInt]; rfl) h

/-- Settles O5, by the plans of the four instructions, the table of what RDSYS reads and what the landing of a WRSYS writes. -/
theorem systemRegisters : Obligations.SystemRegisters := by
  unfold Obligations.SystemRegisters
  intro s d x k n _
  refine ⟨fun h => ⟨runPlan_quiet (p := planSett k x) h rfl, runPlan_quiet (p := planWrsys n x) h rfl⟩,
    fun h => ⟨runPlan_sends (p := planRdt d k) h rfl, ?_⟩, fun v => ?_⟩
  · rw [sysTable_getD]
    exact runPlan_sends (p := planRdsys d n) h rfl
  · dsimp only
    rw [landAct_sys]
    refine ⟨fun hn => ?_, fun hn => ?_, fun q hn => ?_, fun hk ht hs => ?_⟩
    · rw [hn]
      rfl
    · rw [hn]
      rfl
    · rw [hn]
      exact congrArg (s.modArch s.focus) (funext (wrSysReg_scratch q v))
    · rw [show wrSysReg n.toNat v = id from funext (wrSysReg_other hk ht hs v)]
      exact modCtx_id s s.focus

/-! ## TRAP and TRET -/

theorem tretOut_idle {c : CtxId} {s : State} (h : (s.arch c).inh = false) : tretOut c s = .go id := by simp [tretOut, h]
theorem tretOut_ok {c : CtxId} {s : State} (h : (s.arch c).inh = true) (ht : targetAt s c (s.arch c).trappc = .ok) :
    tretOut c s = .go fun t => t.modArch c leaveTrap := by
  simp [tretOut, h, ht]
theorem tretOut_bad {c : CtxId} {s : State} (h : (s.arch c).inh = true) (ht : targetAt s c (s.arch c).trappc = .bad) :
    tretOut c s = .trap ⟨0x01, (s.arch c).trappc.setWidth 64⟩ := by
  simp [tretOut, h, ht]

/-- Settles O33, by the plan of TRAP and the cases of TRET. -/
theorem trapAndReturn : Obligations.TrapAndReturn := by
  unfold Obligations.TrapAndReturn
  intro s code h
  refine ⟨runPlan_go (p := planTrap code) h rfl, fun hinh => ?_, fun hinh ht => ?_, fun hinh ht => ?_⟩
  · exact runPlan_go (p := planTret) h (tretOut_idle hinh)
  · exact runPlan_go (p := planTret) h (tretOut_ok hinh ht)
  · exact runPlan_trap (p := planTret) h (tretOut_bad hinh ht) (Bool.and_false _)

end Sys2Proof.Machine
end

