-- ==== Sys2Proof/Proofs/SlotFrames.lean ====
section
/-! PROOF. What an instruction of slots A, B, V and S changes at issue (R139, R140, R143, R277, R318). -/

namespace Sys2Proof.Machine

/-! ## What stays at issue -/

/-- The memories, the other contexts and the registers of context `c` are as they were, but for the input streams that `srcs` read. -/
structure SlotFrame (c : CtxId) (srcs : List Code7) (s t : State) : Prop where
  mem : SameMem s t
  others : SameOthers c s t
  regs : SameRegs c s t
  ports : SamePorts c srcs s t

/-- A context `x` with the results in flight, the path and the trap of another. -/
def withFlightsOf (y x : Ctx) : Ctx := { x with flights := y.flights, spec := y.spec, trap := y.trap, att := y.att, unres := y.unres }

namespace SlotFrame
variable {c : CtxId} {srcs : List Code7} {s t u : State}

theorem refl (c : CtxId) (srcs : List Code7) (s : State) : SlotFrame c srcs s s :=
  ⟨fun _ _ => rfl, fun _ _ => rfl, ⟨rfl, rfl, rfl, rfl, rfl, rfl, rfl⟩, fun _ _ => rfl⟩
theorem trans (h : SlotFrame c srcs s t) (g : SlotFrame c srcs t u) : SlotFrame c srcs s u := by
  obtain ⟨ha, hb, hh, hd, hy, hz, hm⟩ := h.regs
  obtain ⟨ga, gb, gh, gd, gy, gz, gm⟩ := g.regs
  refine ⟨fun m a => (g.mem m a).trans (h.mem m a), fun o ho => (g.others o ho).trans (h.others o ho),
    ⟨?_, gb.trans hb, gh.trans hh, gd.trans hd, gy.trans hy, gz.trans hz, gm.trans hm⟩, fun n hn => (g.ports n hn).trans (h.ports n hn)⟩
  rw [ga, ha]
/-- A change of the results in flight, the path and the trap of the context. -/
theorem setCtx {y : Ctx} (h : y = withFlightsOf y (s.ctx c)) : SlotFrame c srcs s (s.setCtx c y) := by
  have hctx : (s.setCtx c y).ctx c = withFlightsOf y (s.ctx c) := (setCtx_ctx_same s c y).trans h
  refine ⟨sameMem_of_mem (setCtx_mem s c y), fun o ho => setCtx_ctx_other s c o y ho, ?_, ?_⟩
  · simp only [SameRegs, State.arch, hctx]
    exact ⟨rfl, rfl, rfl, rfl, rfl, rfl, rfl⟩
  · simp only [SamePorts, State.arch, hctx]
    exact fun _ _ => rfl
theorem postTrap (e : Err) (pc : W32) (slot leaf : BitVec 3) : SlotFrame c srcs s (postTrap c e pc slot leaf s) := setCtx rfl
theorem addFlight (f : Flight) : SlotFrame c srcs s (addFlight c f s) :=
  setCtx (by dsimp only; cases if f.act.holds then (s.ctx c).spec else none <;> rfl)
theorem drawn (n : Nat) : SlotFrame c srcs s { s with draws := n } :=
  ⟨sameMem_of_mem (by funext m; cases m <;> rfl), fun _ _ => rfl, ⟨rfl, rfl, rfl, rfl, rfl, rfl, rfl⟩, fun _ _ => rfl⟩

/-- An element taken from a stream moves that stream alone. -/
theorem portTake {n : Nat} (h : ∃ q ∈ srcs, portOf q = some n) : SlotFrame c srcs s (portTake c n s) := by
  obtain ⟨q, hq, hn⟩ := h
  have hval : (Fin.ofNat 8 n).val = n := by
    simp only [portOf, Option.ite_none_right_eq_some, Option.some.injEq] at hn
    simp only [Fin.val_ofNat]
    omega
  refine ⟨sameMem_of_mem (modCtx_mem ..), fun o ho => modArch_ctx_other s c o _ ho, ?_, fun k hk => ?_⟩
  · simp only [SameRegs, State.arch, Machine.portTake, modArch_ctx_same, and_true]
    split <;> rfl
  · have hne : (Fin.ofNat 8 n).val ≠ k.val := fun he => hk q hq (by rw [hn, ← he, hval])
    simp only [Machine.portTake, modArch_arch_same]
    split
    · rfl
    · exact Vector.getElem_set_ne (Fin.isLt _) k.isLt hne
theorem takePorts (p : Plan) : SlotFrame c (p.srcs.map Prod.snd) s (takePorts c p s) := by
  suffices h : ∀ l : List Nat, (∀ n ∈ l, n ∈ p.ports) → ∀ s, SlotFrame c (p.srcs.map Prod.snd) s (forEach l (Machine.portTake c) s)
    from h p.ports (fun _ hn => hn) s
  intro l hl s
  induction l generalizing s with
  | nil => exact refl c _ s
  | cons n l ih => exact (portTake (ports_mem.mp (hl n (.head _)))).trans (ih (fun m hm => hl m (.tail _ hm)) _)

end SlotFrame

/-! ## Plans that only put a result in flight -/

/-- What a slot comes to is no wait, and leaves the registers of its context but for the input streams that `srcs` read. -/
def SlotOut.Frames (c : CtxId) (srcs : List Code7) : SlotOut → Prop
  | .go f | .freeze f | .trap _ f => ∀ s, SlotFrame c srcs s (f s)
  | .after _ | .wait _ | .land => False
/-- What the plan's function comes to leaves the registers and streams of its context, whatever the state. -/
def Plan.Frames (p : Plan) : Prop := ∀ sl c s srcs, (p.run sl c s).Frames c srcs

section
variable {c : CtxId} {srcs : List Code7}

theorem frames_idle : SlotOut.Frames c srcs (.go id) := .refl c srcs
theorem frames_freeze : SlotOut.Frames c srcs (.freeze id) := .refl c srcs
theorem frames_sends {sl : BitVec 3} {lat : Nat} {d : Code7} {v : W64} : SlotOut.Frames c srcs (.go (sendRes c sl lat d v)) :=
  fun _ => .addFlight _
theorem frames_quiet {sl : BitVec 3} {lat : Nat} {act : Land} : SlotOut.Frames c srcs (.go (sendQuiet c sl lat act)) :=
  fun _ => .addFlight _
/-- An operation that waits while a command uses what it names. -/
theorem frames_wait {q : Prop} [Decidable q] {o : SlotOut} (h : o.Frames c srcs) : SlotOut.Frames c srcs (if q then .freeze id else o) := by
  split
  · exact frames_freeze
  · exact h
end

theorem slotOut_frames {p : Plan} (h : p.Frames) (sl : Slot) (c : CtxId) (s : State) : (slotOut p sl c s).Frames c (p.srcs.map Prod.snd) := by
  have hrun := h sl c s (p.srcs.map Prod.snd)
  unfold slotOut
  split
  · exact frames_freeze
  · split
    · exact .refl c _
    · generalize p.run sl c s = o at hrun ⊢
      cases o with
      | go f => exact fun s => (hrun s).trans (.takePorts p)
      | freeze f => exact hrun
      | trap e f =>
        dsimp only
        split
        · exact fun s => .takePorts p
        · exact hrun
      | after | wait | land => exact hrun.elim
/-- Such a plan, run alone, takes the stream elements that it reads and puts results in flight, or posts a trap. -/
theorem runAlone_frame {p : Plan} (h : p.Frames) (s : State) : SlotFrame s.focus (p.srcs.map Prod.snd) s (runAlone p s) := by
  have hout := slotOut_frames h p.slot s.focus s
  unfold runAlone
  dsimp only
  generalize slotOut p p.slot s.focus s = o at hout ⊢
  cases o with
  | go f =>
    dsimp only
    split
    · exact .postTrap ..
    · exact hout s
  | freeze f => exact hout s
  | trap e f =>
    dsimp only
    split
    · exact .postTrap ..
    · exact (hout s).trans (.postTrap ..)
  | after | wait | land => exact hout.elim

/-! ## The instructions -/

/-- The instruction runs its plan, which leaves the registers and streams of its context. -/
def Issues (i : Instr) : Prop := (∀ s, exec i s = runPlan (planOf i) s) ∧ (planOf i).Frames

theorem issues_of_encAB {i : Instr} {f : FAB} (h : encAB i = some f) : Issues i := by
  cases i with
  | nop => exact ⟨fun _ => rfl, fun _ _ _ _ => frames_idle⟩
  | sett | wrsys => exact ⟨fun _ => rfl, fun _ _ _ _ => frames_quiet⟩
  | add | sub | addw | subw | mul | mulh | mulhu | mulw | div | divu | rem | remu | and | or | xor | andn | shl | shr | sar | rot | min | max | minu | maxu
  | cmpEq | cmpNe | cmpLt | cmpGe | cmpLtu | cmpGeu | addi | andi | shli | shri | sari | ldi | lea | sextB | sextH | sextW | zextB | zextH | zextW | clz | ctz
  | popc | fadd | fsub | fmul | fmin | fmax | fcmpEq | fcmpLt | fcmpLe | fcmpUn | fcvtF32I32 | fcvtI32F32 | fcvtI32F32Rz | fcvtBf16F32 | fcvtF32Bf16
  | fcvtF16F32 | fcvtF32F16 | fcvtF32I64 | fdiv | fsqrt | rdt | rdsys | mov => exact ⟨fun _ => rfl, fun _ _ _ _ => frames_sends⟩
  | _ => cases h
theorem issues_of_encV {i : Instr} {f : Sys2Proof.FV} (h : encV i = some f) : Issues i := by
  cases i with
  | nopV => exact ⟨fun _ => rfl, fun _ _ _ _ => frames_idle⟩
  | vadd | vsub | vmul | vfma | vfms | vmin | vmax | vabs | vneg | vadds | vmuls | vfmas | vexp2 | vlog2 | vrcp | vrsq | vsqrt | vcvt | vqnt | vdqnt | vand
  | vor | vxor | vshl | vshr | vsar | vblend | vredsum | vredmax | vredmin | vbcast | vmov | vslide | vslide2 | vmacw | vnar | vperm | vzero
  | viota => exact ⟨fun _ => rfl, fun _ _ _ _ => frames_quiet⟩
  | vcmpEq | vcmpNe | vcmpLt | vcmpLe | vcmpGt | vcmpGe | vcmpUn => exact ⟨fun _ => rfl, fun _ _ _ _ => frames_wait frames_quiet⟩
  | vzrd d z rho g rel => exact ⟨fun _ => rfl, fun _ _ _ _ => frames_wait frames_quiet⟩
  | vzrdL d z rho g rel => exact ⟨fun _ => rfl, fun _ _ _ _ _ => (SlotFrame.drawn _).trans (.addFlight _)⟩
  | vzwr d z rho g rel =>
    refine ⟨fun _ => rfl, fun _ _ _ _ => frames_wait ?_⟩
    dsimp only
    split
    · exact frames_quiet
    · exact frames_quiet
  | _ => cases h
theorem issues_of_encS {i : Instr} {f : FS} (h : encS i = some f) : Issues i := by
  cases i with
  | nopS => exact ⟨fun _ => rfl, fun _ _ _ _ => frames_idle⟩
  | scl | sxv | sts => exact ⟨fun _ => rfl, fun _ _ _ _ => frames_quiet⟩
  | _ => cases h

/-- An instruction that encodes into a word of slot A, B, V or S has its fields there. -/
theorem encode_abvs {i : Instr} {w : BitVec 32} {v : BitVec 48} {u : BitVec 16}
    (h : encode i = some (.ab w) ∨ encode i = some (.v v) ∨ encode i = some (.s u)) :
    (∃ f, encAB i = some f) ∨ (∃ f, encV i = some f) ∨ ∃ f, encS i = some f := by
  cases hab : encAB i with
  | some f => exact .inl ⟨f, rfl⟩
  | none => cases hv : encV i with
    | some f => exact .inr (.inl ⟨f, rfl⟩)
    | none => cases hs : encS i with
      | some f => exact .inr (.inr ⟨f, rfl⟩)
      | none =>
        simp only [encode, hab, hv, hs] at h
        grind

/-- Settles O58: every instruction of these slots runs a plan that only puts results in flight, after the stream elements that it reads are taken. -/
theorem slotFrames : Obligations.SlotFrames := by
  unfold Obligations.SlotFrames
  intro i s t w v u henc hexec
  have hi : Issues i := by
    rcases encode_abvs henc with ⟨f, hf⟩ | ⟨f, hf⟩ | ⟨f, hf⟩
    · exact issues_of_encAB hf
    · exact issues_of_encV hf
    · exact issues_of_encS hf
  obtain ⟨hrun, hframes⟩ := hi
  obtain rfl : runAlone (planOf i) s = t := Host.Outcome.next.inj ((hrun s).symm.trans hexec)
  obtain ⟨hmem, hothers, hregs, hports⟩ := runAlone_frame hframes s
  exact ⟨hmem, hothers, hregs, hports⟩

end Sys2Proof.Machine
end

