-- ==== Sys2Proof/Proofs/RoundOfCores.lean ====
section
/-! PROOF. The round of the last core of the module, which ends the round of all cores (R90). -/

namespace Sys2Proof.Machine

/-- The core that takes its turn last in a round of all cores. -/
def lastCore : CoreId := ⟨3, 15⟩

/-- After the last core's round, the barriers whose latency has passed become due. -/
theorem bundleIssue_lastCore {s : State} (hst : s.hstate = 1) (hk : s.focus.coreId = lastCore) :
    bundleIssue s = { roundOver (tickPtb lastCore.die (coreRound lastCore s)) with focus := nextCore (coreRound lastCore s).focus } := by
  simp only [bundleIssue, hst, hk, ne_eq, not_true_eq_false, if_false]
  rfl

/-- A round of the cores that is no cycle of a core passes for its barriers and rounds alone (R34). -/
theorem coreRound_between {s : State} {k : CoreId} (h : cycleNow (s.core k) = false) :
    coreRound k s = tickBarriers true k (tickRounds true k (s.modCore k fun q => { q with phase := (s.core k).phase + (s.core k).ctl.mhz })) := by
  simp only [coreRound, h, Bool.false_eq_true, if_false]

/-- A barrier at which a context of the first core has arrived last, whose latency has passed in that core's round and which is not due yet. -/
def passedBarrier : Barrier := { id := 1, tenant := 0, team := 0, uid := 0, scope := 0, inst := 0, k := 0, arrived := [CtxId.zero], left := some 0, due := false }

/-- The last core, with its clock at 850 MHz, has its round while `passedBarrier` stands. -/
def lastRound : State :=
  { State.reset.modCore lastCore fun q => { q with phase := 0, ctl := { q.ctl with mhz := 850 } } with
    focus := ⟨lastCore.die, lastCore.core, 0⟩, barriers := [passedBarrier] }

theorem lastRound_cycleNow : cycleNow (lastRound.core lastCore) = false := by
  have hcore : lastRound.core lastCore = { State.reset.core lastCore with phase := 0, ctl := { (State.reset.core lastCore).ctl with mhz := 850 } } :=
    modCore_core_same State.reset lastCore fun q => { q with phase := 0, ctl := { q.ctl with mhz := 850 } }
  rw [hcore]
  rfl
theorem lastRound_hstate : lastRound.hstate = 1 := rfl
/-- The core's round leaves the barrier as it is. -/
theorem coreRound_lastRound_barriers : (coreRound lastCore lastRound).barriers = [passedBarrier] := by
  rw [coreRound_between lastRound_cycleNow]
  simp only [tickBarriers, tickRounds, modCore_barriers]
  rfl

/-- Refutes O57: with the round of the last core, the barriers and rounds whose latency has passed become due (R90). -/
theorem not_stepRunsDecoded : ¬ Obligations.StepRunsDecoded := by
  intro h
  obtain ⟨-, -, -, -, -, hround, -⟩ := h
  have hissue := Host.Outcome.next.inj (hround lastRound lastRound_hstate (by decide))
  have hbarriers := congrArg State.barriers ((bundleIssue_lastCore lastRound_hstate rfl).symm.trans hissue)
  have hafter : (roundOver (tickPtb lastCore.die (coreRound lastCore lastRound))).barriers = [{ passedBarrier with due := true }] := by
    simp only [roundOver, tickPtb, modDie_barriers, coreRound_lastRound_barriers]
    rfl
  have hclaimed : (tickPtb lastCore.die (coreRound lastCore lastRound)).barriers = [passedBarrier] := by
    simp only [tickPtb, modDie_barriers, coreRound_lastRound_barriers]
  exact absurd (hafter.symm.trans (hbarriers.trans hclaimed)) (by decide)

end Sys2Proof.Machine
end

