-- ==== Sys2Proof/Proofs/CommandRules.lean ====
section
/-! SUPPORT. Commands of the dependency table on their way to an engine and out of the table (R271, R272, R300 to R303, R315, R316): what issue makes of a
core, what the stores look like to a command, and what a command's result leaves. -/

namespace Sys2Proof.Machine

/-! ## Changes made one after the other -/

theorem modCore_modCore (s : State) (k : CoreId) (f g : Core → Core) : (s.modCore k f).modCore k g = s.modCore k fun y => g (f y) := by
  rw [State.modCore, modCore_core_same, State.modCore, setCore_setCore]
  rfl

theorem forEach_cons {α : Type} (a : α) (l : List α) (f : α → State → State) (s : State) : forEach (a :: l) f s = forEach l f (f a s) := rfl

theorem forEach_eq_self {α : Type} {l : List α} {f : α → State → State} {s : State} (h : ∀ a ∈ l, f a s = s) : forEach l f s = s := by
  induction l with
  | nil => rfl
  | cons a l ih => rw [forEach_cons, h a (.head _), ih fun b hb => h b (.tail _ hb)]

section
variable {α : Type} (κ : α → CoreId) (f : α → Core → Core)

theorem forEach_modCore_other {l : List α} {k : CoreId} (h : ∀ a ∈ l, κ a ≠ k) (s : State) :
    (forEach l (fun a u => u.modCore (κ a) (f a)) s).core k = s.core k := by
  induction l generalizing s with
  | nil => rfl
  | cons a l ih => rw [forEach_cons, ih fun b hb => h b (.tail _ hb), modCore_core_other s (κ a) k (f a) (h a (.head _)).symm]

/-- Each of several cores is changed once. -/
theorem forEach_modCore_same {l : List α} (h : (l.map κ).Nodup) (s : State) :
    ∀ a ∈ l, (forEach l (fun a u => u.modCore (κ a) (f a)) s).core (κ a) = f a (s.core (κ a)) := by
  induction l generalizing s with
  | nil => nofun
  | cons b l ih =>
    obtain ⟨hb, hl⟩ := List.nodup_cons.mp h
    have hne : ∀ a ∈ l, κ a ≠ κ b := fun a ha hab => hb (hab ▸ List.mem_map_of_mem ha)
    rintro a (_ | ⟨_, ha⟩)
    · rw [forEach_cons, forEach_modCore_other κ f hne, modCore_core_same]
    · rw [forEach_cons, ih hl _ a ha, modCore_core_other s (κ b) (κ a) (f b) (hne a ha)]
end

/-! ## A command goes to its engine -/

/-- A core once a command has gone to its engines with what it comes to. -/
def occupied (q : Cmd) (x : Ctx) (out : CmdOut) (y : Core) : Core :=
  { y with
    eng := (cmdEngines q.ins).foldl (fun e i => e.set i.val (cmdTime x q).1) y.eng
    cmds := y.cmds.map fun p => if p.id = q.id then { p with left := some ((cmdTime x q).1 + (cmdTime x q).2), out := out } else p }

theorem occupy_eq (k : CoreId) (q : Cmd) (x : Ctx) (out : CmdOut) (s : State) : occupy k q x out s = s.modCore k (occupied q x out) := by
  unfold occupy
  exact modCore_modCore ..

/-- A command of the table is there still, at its engine. -/
theorem occupied_mem {q : Cmd} {y : Core} (h : q ∈ y.cmds) (x : Ctx) (out : CmdOut) :
    { q with left := some ((cmdTime x q).1 + (cmdTime x q).2), out := out } ∈ (occupied q x out y).cmds :=
  List.mem_map.mpr ⟨q, h, if_pos rfl⟩

/-- A core once a command has left its table. -/
def withoutCmd (q : Cmd) (y : Core) : Core := { y with cmds := y.cmds.filter fun p => p.id != q.id }

theorem modCore_withoutCmd_ctx (s : State) (k : CoreId) (q : Cmd) (c : CtxId) : (s.modCore k (withoutCmd q)).ctx c = s.ctx c :=
  modCore_ctx s k (withoutCmd q) (fun _ => rfl) c
theorem modCore_withoutCmd_mem (s : State) (k : CoreId) (q : Cmd) : (s.modCore k (withoutCmd q)).mem = s.mem :=
  modCore_mem s k (withoutCmd q) fun _ => rfl

/-- A channel that a CPY starts on its list (R232). -/
def Chan.started (h : Chan) (owner : CtxId) (uid : Nat) (a : W64) (n : Nat) : Chan :=
  { Chan.idle with busy := true, owner := owner, uid := uid, nrow := h.nrow, next := alignDown a.toNat 32, left := n }

theorem startChan_core (k : CoreId) (ch : Fin 2) (owner : CtxId) (a : W64) (n : Nat) (s : State) :
    (startChan k ch owner a n s).core k =
      { s.core k with chans := (s.core k).chans.set ch.val (((s.core k).chans[ch.val]).started owner (s.ctx owner).b.uid a n) } :=
  modCore_core_same s k _

/-! ## The rows of a gather -/

/-- The addresses of the bytes that a gather collects (R315). -/
def gatherAddrs (q : Cmd) : List Nat :=
  (gRows q).flatMap fun g => (List.range (tdRowBytes q.imgA)).map fun b => tdBase q.imgA + g * tdPitch q.imgA + swz (tdLay q.imgA) g b

theorem gatherTab_eq (m : Cells 8) (q : Cmd) : gatherTab m q = (gatherAddrs q).foldl (fun t a => wrCell t a (rdCell m a)) [] := by
  simp only [gatherTab, gatherAddrs, List.foldl_flatMap, List.foldl_map]

theorem rdCell_copied {w : Nat} (m : Cells w) {as : List Nat} {a : Nat} (h : a ∈ as) (t : Cells w) :
    rdCell (as.foldl (fun t a => wrCell t a (rdCell m a)) t) a = rdCell m a := by
  induction as generalizing t with
  | nil => exact absurd h nofun
  | cons b as ih =>
    by_cases ha : a ∈ as
    · exact ih ha _
    · obtain rfl : a = b := (List.mem_cons.mp h).resolve_right ha
      rw [List.foldl_cons, rdCell_foldl_other (e := a) as (fun x => x) (fun _ x => rdCell m x) _ fun x hx hxa => ha (hxa ▸ hx), rdCell_wrCell_same]

/-- What a gather has collected is what the store held at the rows gathered. -/
theorem rdCell_gatherTab (m : Cells 8) (q : Cmd) {e b : Nat} (he : e < tdRows q.imgA) (hb : b < tdRowBytes q.imgA) :
    let a := tdBase q.imgA + gIdx q e * tdPitch q.imgA + swz (tdLay q.imgA) (gIdx q e) b
    rdCell (gatherTab m q) a = rdCell m a := by
  rw [gatherTab_eq]
  refine rdCell_copied m (List.mem_flatMap.mpr ⟨gIdx q e, ?_, ?_⟩) []
  · exact List.mem_map_of_mem (List.mem_range.mpr he)
  · exact List.mem_map_of_mem (f := fun b => tdBase q.imgA + gIdx q e * tdPitch q.imgA + swz (tdLay q.imgA) (gIdx q e) b) (List.mem_range.mpr hb)

/-! ## A gang -/

theorem quadCores_nodup (k : CoreId) : ((List.range 4).map fun i => (⟨k.die, quadCore k.core i⟩ : CoreId)).Nodup := by
  refine List.pairwise_map.mpr (List.Pairwise.imp_of_mem (fun {i j} hi hj hij hcore => hij ?_) List.nodup_range)
  have hval := congrArg (fun c : CoreId => c.core.val) hcore
  simp only [quadCore, Fin.val_ofNat] at hval
  have := k.core.isLt
  have := List.mem_range.mp hi
  have := List.mem_range.mp hj
  omega

/-- The members of a gang are commands of the four cores of the quad, one of each (R316). -/
theorem gangMembers_some {s : State} {k : CoreId} {q : Cmd} {g : List (CoreId × Cmd)} (h : gangMembers s k q = some g) :
    g.map Prod.fst = (List.range 4).map (fun i => (⟨k.die, quadCore k.core i⟩ : CoreId)) ∧ ∀ p ∈ g, p.2 ∈ (s.core p.1).cmds := by
  unfold gangMembers at h
  generalize List.range 4 = l at h ⊢
  induction l generalizing g with
  | nil =>
    rw [List.foldr_nil, Option.some.injEq] at h
    subst h
    exact ⟨rfl, fun _ hp => absurd hp List.not_mem_nil⟩
  | cons i l ih =>
    rw [List.foldr_cons] at h
    dsimp only at h
    split at h
    · rename_i r p hrest hfind
      obtain rfl := Option.some.inj h
      obtain ⟨hcores, hmem⟩ := ih hrest
      refine ⟨by rw [List.map_cons, hcores, List.map_cons], ?_⟩
      rintro m (_ | ⟨_, hm⟩)
      · exact List.mem_of_find?_eq_some hfind
      · exact hmem m hm
    · exact absurd h nofun

theorem gangOf_some {s : State} {k : CoreId} {q : Cmd} {g : List (CoreId × Cmd)} (h : gangOf s k q = some g) :
    g.length = 4 ∧ (g.map Prod.fst).Nodup ∧ ∀ p ∈ g, p.2 ∈ (s.core p.1).cmds := by
  obtain ⟨hcores, hmem⟩ := gangMembers_some (Option.filter_eq_some_iff.mp h).1
  refine ⟨?_, hcores ▸ quadCores_nodup k, hmem⟩
  have := congrArg List.length hcores
  rwa [List.length_map, List.length_map, List.length_range] at this

/-! ## The stores as a command reads them -/

theorem readCores_die {k d : CoreId} {i : Instr} (h : d ∈ readCores k i) : d.die = k.die := by
  unfold readCores at h
  split at h
  · obtain ⟨j, -, rfl⟩ := List.mem_map.mp h
    rfl
  · obtain rfl := List.mem_singleton.mp h
    rfl

/-- Where no row is about to arrive, a command reads the stores themselves (R272). -/
theorem readView_still {ks : List CoreId} {s : State} (hc : ∀ d ∈ ks, arriving s d = []) (hl : ∀ k ∈ ks, ∀ n, arrivingLb s k.die n = []) :
    readView ks s = s := by
  have hcores : forEach ks (fun d u => u.modCore d fun x => { x with store := wholeChunks (arriving s d) x.store }) s = s :=
    forEach_eq_self fun d hd => by
      rw [hc d hd]
      exact setCore_self s d
  unfold readView
  rw [hcores]
  refine forEach_eq_self fun k hk => forEach_eq_self fun n _ => ?_
  simp only [hl k (List.mem_of_mem_take hk) n, List.isEmpty_nil, if_true]

/-! ## The bytes of a result -/

/-- A run of bytes goes into the core's store or a link buffer of its die. -/
def writeRun (c : CtxId) (w : Option (Fin 16) × Nat × List Byte) (s : State) : State :=
  match w.1 with
  | none => csWrite c.coreId w.2.1 w.2.2 s
  | some l => s.modDie c.die fun d => { d with lbs := d.lbs.set l.val { d.lbs[l.val] with bytes := wrCells (d.lbs[l.val]).bytes w.2.1 w.2.2 } }

theorem rdCell_wrCells_eq {w : Nat} (m : Cells w) (a b : Nat) (l : List (BitVec w)) :
    rdCell (wrCells m a l) b = if a ≤ b ∧ b < a + l.length then l.getD (b - a) 0 else rdCell m b := by
  split
  · rename_i h
    obtain ⟨i, rfl⟩ := Nat.exists_eq_add_of_le h.1
    have hi : i < l.length := by omega
    rw [rdCell_wrCells_same m a i l hi, Nat.add_sub_cancel_left, List.getD_eq_getElem?_getD, List.getElem?_eq_getElem hi, Option.getD_some]
  · exact rdCell_wrCells_other m a b l (by omega)

theorem writeRun_byte (c : CtxId) (w : Option (Fin 16) × Nat × List Byte) (s : State) (m : Mem) (a : Nat) :
    (writeRun c w s).byte m a = byteAfter c.coreId m a [w] (s.byte m a) := by
  obtain ⟨into, b, bs⟩ := w
  cases into with
  | none =>
    by_cases hm : m = .store c.coreId
    · subst hm
      simp only [writeRun, csWrite, State.byte, State.mem, modCore_core_same, rdCell_wrCells_eq, byteAfter, List.foldl_cons, List.foldl_nil, true_and]
    · rw [writeRun, csWrite_sameMemBut (s := s) c.coreId b bs m a fun h => absurd h hm]
      simp only [byteAfter, List.foldl_cons, List.foldl_nil, hm, false_and, if_false]
  | some l =>
    simp only [writeRun, byteAfter, List.foldl_cons, List.foldl_nil]
    cases m with
    | hbm | vault => simp [State.byte, State.mem]
    | store k => simp [State.byte, State.mem, modDie_core]
    | link d n =>
      by_cases hd : d = c.die
      · subst hd
        by_cases hn : n = l
        · subst hn
          simp [State.byte, State.mem, rdCell_wrCells_eq, CtxId.coreId]
        · have hne : l.val ≠ n.val := fun h => hn (Fin.ext h.symm)
          simp [State.byte, State.mem, hn, Vector.getElem_set_ne _ _ hne]
      · simp [State.byte, State.mem, modDie_die_other s c.die d _ hd, CtxId.coreId, hd]

theorem writeRuns_byte (c : CtxId) (ws : List (Option (Fin 16) × Nat × List Byte)) (s : State) (m : Mem) (a : Nat) :
    (forEach ws (writeRun c) s).byte m a = byteAfter c.coreId m a ws (s.byte m a) := by
  induction ws generalizing s with
  | nil => rfl
  | cons w ws ih =>
    rw [forEach_cons, ih, writeRun_byte]
    rfl

theorem writeRun_core (c : CtxId) (w : Option (Fin 16) × Nat × List Byte) (s : State) (k : CoreId) :
    (writeRun c w s).core k = { s.core k with store := ((writeRun c w s).core k).store } := by
  obtain ⟨into, b, bs⟩ := w
  cases into with
  | none =>
    by_cases hk : k = c.coreId
    · rw [writeRun, csWrite, hk, modCore_core_same]
    · rw [writeRun, csWrite, modCore_core_other s c.coreId k _ hk]
  | some l => rw [writeRun, modDie_core s c.die _ (fun _ => by rfl)]

/-- Runs of bytes change of a core no more than its store. -/
theorem writeRuns_core (c : CtxId) (ws : List (Option (Fin 16) × Nat × List Byte)) (s : State) (k : CoreId) :
    (forEach ws (writeRun c) s).core k = { s.core k with store := ((forEach ws (writeRun c) s).core k).store } := by
  induction ws generalizing s with
  | nil => rfl
  | cons w ws ih => rw [forEach_cons, ih, writeRun_core]

theorem writeRuns_ctx (c : CtxId) (ws : List (Option (Fin 16) × Nat × List Byte)) (s : State) (o : CtxId) :
    (forEach ws (writeRun c) s).ctx o = s.ctx o := by
  rw [State.ctx, writeRuns_core]
  rfl

/-- The flag that a result writes, as a run of bytes after its others (R325). -/
def flagRun : Option (Nat × W32) → List (Option (Fin 16) × Nat × List Byte)
  | some (n, v) => [(none, 4 * n, (List.range 4).map fun i => v.extractLsb' (8 * i) 8)]
  | none => []

theorem toBytes_word (v : W32) : toBytes 4 v.toNat = (List.range 4).map fun i => v.extractLsb' (8 * i) 8 := by
  refine List.ext_getElem (by simp [toBytes_length]) fun i _ _ => ?_
  rw [getElem_toBytes, List.getElem_map, List.getElem_range]
  apply BitVec.eq_of_toNat_eq
  simp [BitVec.extractLsb'_toNat, Nat.shiftRight_eq_div_pow]

theorem rdFlag_setFlag (k : CoreId) (n : Nat) (v : W32) (s : State) : rdFlag ((setFlag k n v s).core k).store n = v := by
  have hread : rdCells ((setFlag k n v s).core k).store (4 * n) (toBytes 4 v.toNat).length = toBytes 4 v.toNat :=
    rdCells_eq fun i hi => csWrite_byte s k (4 * n) i _ hi
  rw [toBytes_length] at hread
  rw [rdFlag, rdLE, hread, ofBytes_toBytes_mod]
  exact BitVec.eq_of_toNat_eq (by simpa using v.isLt)

/-! ## A result in a context -/

/-- A context after the elements of a result's tile banks have been written. -/
def putAccs (ws : List (Fin 16 × Bool × List (Nat × W32))) (x : Ctx) : Ctx := ws.foldl (fun y w => putAcc w.1 w.2.1 w.2.2 y) x

theorem putAccs_z (ws : List (Fin 16 × Bool × List (Nat × W32))) (x : Ctx) : putAccs ws x = { x with z := (putAccs ws x).z } := by
  induction ws generalizing x with
  | nil => rfl
  | cons w ws ih =>
    rw [putAccs, List.foldl_cons, ← putAccs, ih, putAcc_z]

/-- The chain slots and the stored error after a result (R303). -/
def closeOut (o : CmdOut) (x : Ctx) : Ctx :=
  { x with y := o.chain.foldl (fun y w => y.set w.1.val w.2) x.y, cmdErr := x.cmdErr <|> o.err }

theorem chain_written (ws : List (Fin 4 × Chain)) (y : Vector Chain 4) (n : Fin 4) :
    (ws.foldl (fun y w => y.set w.1.val w.2) y)[n.val] = (((ws.filter fun w => w.1 == n).getLast?).map Prod.snd).getD y[n.val] := by
  induction ws generalizing y with
  | nil => rfl
  | cons w ws ih =>
    rw [List.foldl_cons, ih]
    by_cases hw : w.1 = n
    · subst hw
      rw [Vector.getElem_set_self, List.filter_cons, if_pos (beq_self_eq_true w.1), List.getLast?_cons]
      cases (ws.filter fun v => v.1 == w.1).getLast? <;> rfl
    · have hne : w.1.val ≠ n.val := fun h => hw (Fin.ext h)
      rw [Vector.getElem_set_ne _ _ hne, List.filter_cons, if_neg (by rwa [beq_iff_eq])]

/-- A result's elements go first, then its bytes with the flag after them, then its chain slots and its error. -/
theorem applyOut_eq (c : CtxId) (o : CmdOut) (s : State) :
    applyOut c o s = (forEach (o.mem ++ flagRun o.flag) (writeRun c) (s.modCtx c (putAccs o.acc))).modCtx c (closeOut o) := by
  rw [forEach, List.foldl_append]
  cases hf : o.flag with
  | none =>
    simp only [applyOut, hf]
    rfl
  | some f =>
    simp only [applyOut, hf, setFlag, toBytes_word]
    rfl

section
variable (c : CtxId) (o : CmdOut) (s : State)

theorem applyOut_ctx : (applyOut c o s).ctx c = closeOut o (putAccs o.acc (s.ctx c)) := by
  rw [applyOut_eq, modCtx_ctx_same, writeRuns_ctx, modCtx_ctx_same]
theorem applyOut_others : SameOthers c s (applyOut c o s) := fun d hd => by
  rw [applyOut_eq, modCtx_ctx_other _ c d _ hd, writeRuns_ctx, modCtx_ctx_other s c d _ hd]
theorem applyOut_byte (m : Mem) (a : Nat) : (applyOut c o s).byte m a = byteAfter c.coreId m a (o.mem ++ flagRun o.flag) (s.byte m a) := by
  rw [applyOut_eq, State.byte, modCtx_mem, ← State.byte, writeRuns_byte, State.byte, modCtx_mem, ← State.byte]
theorem applyOut_cmds : ((applyOut c o s).core c.coreId).cmds = (s.core c.coreId).cmds := by
  rw [applyOut_eq, State.modCtx, setCtx_core_same, writeRuns_core, State.modCtx, setCtx_core_same]
theorem applyOut_flag {n : Nat} {v : W32} (h : o.flag = some (n, v)) : rdFlag ((applyOut c o s).core c.coreId).store n = v := by
  simp only [applyOut, h, modCtx_store, rdFlag_setFlag]
end

end Sys2Proof.Machine
end

