-- ==== Sys2Proof/Proofs/CommandEvents.lean ====
section
/-! PROOF. The events of commands: issue and completion (R271, R272, R300 to R303, R315, R316, R328). -/

namespace Sys2Proof.Machine

/-! ## COMMAND_ISSUE -/

section
variable {s : State} {k : CoreId} {q : Cmd} (hk : k = ⟨s.arg.die, s.arg.core⟩) (hfind : (s.core k).cmds.find? (fun p => p.id == s.arg.id) = some q)
  (hcan : canIssue s k q = true)
include hk hfind hcan

/-- The first issue of a gather starts its collection (R315). -/
theorem commandIssue_collects (hg : isGather q.ins = true) (hn : q.gather = none) : commandIssue s = s.modCore k fun y =>
    { y with
      cmds := y.cmds.map fun p => if p.id = q.id then
        { p with gather := some (cdiv (tdRows q.imgA) 4), ready := false, tab := gatherTab (tileMem (readView (readCores k q.ins) s) k q.imgA) q,
                 taken := (gatherRange q).length } else p
      eng := y.eng.set 4 (cdiv (tdRows q.imgA) 4) } := by
  subst hk
  simp only [commandIssue, hfind, hcan, hg, hn, Option.isNone_none, Bool.and_self, Bool.not_true, Bool.false_eq_true, if_false, if_true,
    modCmd, modCore_modCore]

/-- CPY starts its channel (R232). -/
theorem commandIssue_starts {ch : BitVec 1} {v : Code7} {n : BitVec 12} {dw : BitVec 1} {b : BitVec 4} (hi : q.ins = .cpy ch v n dw b) :
    commandIssue s = startChan k (Fin.ofNat 2 ch.toNat) ⟨k.die, k.core, q.ctx⟩ q.x n.toNat (s.modCore k (withoutCmd q)) := by
  subst hk
  have hgather : isGather (.cpy ch v n dw b) = false := rfl
  simp only [commandIssue, hfind, hcan, hi, hgather, Bool.not_true, Bool.false_and, Bool.false_eq_true, if_false]
  rfl

/-- What a member of a gang comes to: its quarter, or GANGMISMATCH (R316). -/
def gangOut (v : State) (g : List (CoreId × Cmd)) (p : CoreId × Cmd) : CmdOut :=
  if gangAgrees g then gangResult v g p.1 p.2 else { CmdOut.none with err := some ⟨0x0B, BitVec.ofNat 64 p.2.epoch⟩ }

/-- The members of a gang go to their engines together (R316). -/
theorem commandIssue_gang {z dA dB : BitVec 4} {tA tB : TypeCode} {acc mx dual bt : BitVec 1} {r : Code7}
    (hi : q.ins = .mmaQ z dA dB tA tB acc mx dual bt r) {g : List (CoreId × Cmd)} (hgang : gangOf s k q = some g) :
    commandIssue s = forEach g (fun p u =>
      u.modCore p.1 (occupied p.2 (s.ctx ⟨p.1.die, p.1.core, p.2.ctx⟩) (gangOut (readView (readCores k q.ins) s) g p))) s := by
  subst hk
  have hgather : isGather (.mmaQ z dA dB tA tB acc mx dual bt r) = false := rfl
  simp only [commandIssue, hfind, hcan, hi, hgather, hgang, occupy_eq, gangOut, Bool.not_true, Bool.false_and, Bool.false_eq_true, if_false]

/-- Any other command goes to its engines with what it comes to (R300, R303). -/
theorem commandIssue_engine (hg : isGather q.ins = false ∨ q.gather ≠ none) (hcpy : ∀ ch v n dw b, q.ins ≠ .cpy ch v n dw b)
    (hgang : ∀ z a b f g acc mx dual bt r, q.ins ≠ .mmaQ z a b f g acc mx dual bt r) :
    commandIssue s = s.modCore k (occupied q (s.ctx ⟨k.die, k.core, q.ctx⟩) (cmdResult (readView [k] s) ⟨k.die, k.core, q.ctx⟩ q)) := by
  subst hk
  have hcores : readCores ⟨s.arg.die, s.arg.core⟩ q.ins = [⟨s.arg.die, s.arg.core⟩] := by
    unfold readCores
    split
    · exact absurd ‹_› (hgang _ _ _ _ _ _ _ _ _ _)
    · rfl
  have hgather : (isGather q.ins && q.gather.isNone) = false := by
    rcases hg with hg | hg
    · rw [hg, Bool.false_and]
    · rw [Option.isNone_eq_false_iff.mpr (Option.isSome_iff_ne_none.mpr hg), Bool.and_false]
  simp only [commandIssue, hfind, hcan, hgather, hcores, Bool.not_true, Bool.false_eq_true, if_false]
  exact occupy_eq ..
end

/-- Each member of a gang that has gone to its engines stands in its core's table with its result (R316). -/
theorem gang_issued {s v : State} {g : List (CoreId × Cmd)} (hcores : (g.map Prod.fst).Nodup) (x : CoreId × Cmd → Ctx) {p : CoreId × Cmd} (hp : p ∈ g)
    (hmem : p.2 ∈ (s.core p.1).cmds) :
    ∃ r ∈ ((forEach g (fun p u => u.modCore p.1 (occupied p.2 (x p) (gangOut v g p))) s).core p.1).cmds,
      r.id = p.2.id ∧ r.left.isSome = true ∧ r.out = gangOut v g p := by
  rw [forEach_modCore_same Prod.fst (fun p => occupied p.2 (x p) (gangOut v g p)) hcores s p hp]
  exact ⟨_, occupied_mem hmem _ _, rfl, rfl, rfl⟩

/-! ## COMMAND_COMPLETE -/

/-- The module once a command has left the table and performed its writes (R303). -/
def completed (k : CoreId) (q : Cmd) (s : State) : State := applyOut ⟨k.die, k.core, q.ctx⟩ q.out (s.modCore k (withoutCmd q))

theorem commandComplete_eq {s : State} {k : CoreId} {q : Cmd} (hk : k = ⟨s.arg.die, s.arg.core⟩)
    (hfind : (s.core k).cmds.find? (fun p => p.id == s.arg.id) = some q) (hleft : q.left = some 0) : commandComplete s = completed k q s := by
  subst hk
  simp only [commandComplete, hfind, hleft, if_true]
  rfl

section
variable (k : CoreId) (q : Cmd) (s : State)

theorem completed_cmds : ((completed k q s).core k).cmds = (s.core k).cmds.filter fun p => p.id != q.id :=
  (applyOut_cmds ⟨k.die, k.core, q.ctx⟩ q.out _).trans (congrArg Core.cmds (modCore_core_same s k _))
theorem completed_ctx : (completed k q s).ctx ⟨k.die, k.core, q.ctx⟩ = closeOut q.out (putAccs q.out.acc (s.ctx ⟨k.die, k.core, q.ctx⟩)) := by
  rw [completed, applyOut_ctx, modCore_withoutCmd_ctx]
theorem completed_others : SameOthers ⟨k.die, k.core, q.ctx⟩ s (completed k q s) := fun o ho =>
  (applyOut_others _ q.out _ o ho).trans (modCore_withoutCmd_ctx s k q o)
theorem completed_byte (m : Mem) (a : Nat) :
    (completed k q s).byte m a = byteAfter k m a (q.out.mem ++ flagRun q.out.flag) (s.byte m a) := by
  rw [completed, applyOut_byte, State.byte, modCore_withoutCmd_mem, ← State.byte]
  rfl
end

/-- Settles O43: by cases on the kind of command that issues; the writes of a result one after the other. -/
theorem commandEvents : Obligations.CommandEvents := by
  unfold Obligations.CommandEvents
  intro s q k c x rest hfind
  refine ⟨fun hcan => ⟨fun hg hn => ?collects, fun m e b he hb => rdCell_gatherTab m q he hb, fun hg => ⟨?starts, ?gang, ?engine⟩⟩,
    fun hc hl => ?still, fun hleft => ?completes⟩
  case collects =>
    have hcores : readCores k q.ins = [k] := by
      unfold readCores
      split
      · exact absurd (‹q.ins = _› ▸ hg) nofun
      · rfl
    rw [← hcores]
    exact congrArg Host.Outcome.next (commandIssue_collects rfl hfind hcan hg hn)
  case starts =>
    intro ch v n dw b hi
    refine ⟨_, congrArg Host.Outcome.next (commandIssue_starts rfl hfind hcan hi), ?_, ?_⟩
    · rw [startChan_core, modCore_core_same]
      rfl
    · rw [startChan_core, Vector.getElem_set_self, modCore_core_same, modCore_withoutCmd_ctx]
      rfl
  case gang =>
    intro z a b f g acc mx dual bt cl hi m hgang
    obtain ⟨hlen, hcores, hmem⟩ := gangOf_some hgang
    refine ⟨_, congrArg Host.Outcome.next (commandIssue_gang rfl hfind hcan hi hgang), hlen, fun p hp => ?_⟩
    obtain ⟨r, hr, hid, hleft, hout⟩ := gang_issued hcores (fun p => s.ctx ⟨p.1.die, p.1.core, p.2.ctx⟩) hp (hmem p hp)
    refine ⟨r, hr, hid, hleft, fun hagree => ?_, fun hagree => ?_⟩
    · rw [hout, gangOut, if_pos hagree]
    · rw [hout, gangOut, hagree]
      exact ⟨rfl, rfl, rfl⟩
  case engine =>
    intro hcpy hgang
    refine ⟨_, congrArg Host.Outcome.next (commandIssue_engine rfl hfind hcan hg hcpy hgang), ?_, ?_⟩
    · exact congrArg Core.cmds (modCore_core_same s k _)
    · exact sameMem_of_mem (modCore_mem s k _ fun _ => rfl)
  case still =>
    rw [readView_still hc fun d hd n => readCores_die hd ▸ hl n]
    exact ⟨rfl, fun _ _ => rfl⟩
  case completes =>
    have hctx : (completed k q s).ctx c = closeOut q.out (putAccs q.out.acc x) := completed_ctx k q s
    have hz : ((completed k q s).ctx c).z = (putAccs q.out.acc x).z := by
      rw [hctx]
      rfl
    refine ⟨completed k q s, congrArg Host.Outcome.next (commandComplete_eq rfl hfind hleft), completed_cmds k q s, ?error, hz,
      fun hacc => ?_, fun hmem hflag m a => ?_, fun z b w hacc => ?_, fun z b v z' b' w hacc => ?_, fun n v => applyOut_flag c q.out _,
      fun m a => ?_, fun n => ?chain, ?rest, completed_others k q s⟩
    case error =>
      rw [hctx, putAccs_z]
      show (x.cmdErr <|> q.out.err) = _
      cases x.cmdErr <;> rfl
    case chain =>
      rw [hctx, putAccs_z]
      exact chain_written q.out.chain x.y n
    case rest =>
      rw [hctx, putAccs_z]
      rfl
    · rw [hz, hacc]
      rfl
    · rw [completed_byte, hmem, hflag]
      rfl
    · rw [hz, hacc]
      rfl
    · rw [hz, hacc]
      rfl
    · rw [completed_byte]
      cases q.out.flag <;> rfl

end Sys2Proof.Machine
end

