-- ==== Sys2Proof/Proofs/MatrixCommands.lean ====
section
/-! PROOF. Slots M and S at issue: how a command enters the dependency table with what it captures (19 R298, R299, R316), the bindings of accumulators (R307 to
R309), the waits for commands (R303, R312) and the loads of scales and extra values (R317, R318). -/

namespace Sys2Proof.Machine

/-! ## The streams that an instruction reads -/

/-- A context whose streams have moved. -/
def withPorts (ps : Vector Port 8) (x : Ctx) : Ctx := { x with arch := { x.arch with ports := ps } }

theorem portTake_eq (c : CtxId) (n : Nat) (s : State) : portTake c n s = s.modCtx c (withPorts ((portTake c n s).arch c).ports) := by
  unfold portTake
  rw [modArch_arch_same]
  refine modCtx_congr ?_
  dsimp only [withPorts, State.arch]
  split <;> rfl

/-- Taking the elements that an instruction has read moves the streams of its context alone. -/
theorem takeAll_eq (c : CtxId) (srcs : List Code7) (s : State) : ∃ ps, takeAll c srcs s = s.modCtx c (withPorts ps) := by
  unfold takeAll
  generalize srcs.filterMap portOf = l
  induction l generalizing s with
  | nil => exact ⟨(s.arch c).ports, (modCtx_id s c).symm⟩
  | cons n l ih =>
    obtain ⟨ps, hps⟩ := ih (portTake c n s)
    refine ⟨ps, ?_⟩
    rw [forEach_cons, hps, portTake_eq]
    exact modCtx_modCtx ..

/-! ## What a command captures -/

theorem mem_cmdDescs_true {m : Bool} {i : Instr} {p : Nat × BitVec 4} (h : p ∈ cmdDescs m i) : p ∈ cmdDescs true i := by
  cases i with
  | chblk => exact List.append_subset.mpr ⟨List.subset_append_left .., by cases m <;> simp⟩ h
  | _ => exact h

/-- The descriptor registers that a command names have different roles. -/
theorem cmdDescs_find {m : Bool} {i : Instr} {p : Nat × BitVec 4} (h : p ∈ cmdDescs m i) :
    (cmdDescs true i).find? (fun r => r.1 == p.1) = some p ∧ p.1 ≤ 4 := by
  replace h := mem_cmdDescs_true h
  cases i with
  | mmaS | mmaV =>
    simp only [cmdDescs, List.mem_append, List.mem_cons, List.not_mem_nil, or_false, List.mem_ite_nil_right] at h
    rcases h with (rfl | rfl) | ⟨hs, rfl | rfl⟩ <;> simp [cmdDescs, *]
  | mmaSg | mmaVg | mmaQ | chbeg | chblk | chfin =>
    simp only [cmdDescs, if_true, List.mem_append, List.mem_cons, List.not_mem_nil, or_false, or_assoc] at h
    rcases h with rfl | rfl | rfl <;> simp [cmdDescs]
  | cpy =>
    simp only [cmdDescs, List.mem_cons, List.not_mem_nil, or_false, List.mem_ite_nil_right] at h
    obtain ⟨hd, rfl⟩ := h
    simp [cmdDescs, hd]
  | _ => exact absurd h List.not_mem_nil

/-- The images of the registers that a command names are those at issue (R299). -/
theorem captured_images (c : CtxId) (i : Instr) (v : W64) (idx : List W32) (id : Nat) (s : State) (m : Bool) :
    cmdImages m (captureCmd c i v idx id s) = (cmdDescs m i).map fun p => (s.ctx c).d[p.2.toNat] := by
  refine List.map_congr_left fun ⟨role, r⟩ h => ?_
  obtain ⟨hfind, hrole⟩ := cmdDescs_find (i := i) h
  match role, hrole with
  | 0, _ | 1, _ | 2, _ | 3, _ | 4, _ => simp only [captureCmd, hfind]

/-! ## The table with a command more -/

/-- A command as it enters the table. -/
def enteredCmd (c : CtxId) (i : Instr) (v : W64) (idx : List W32) (s : State) : Cmd := captureCmd c i v idx s.nextId s

/-- The command advances the quad epoch of its core (R316). -/
abbrev advancesEpoch (i : Instr) : Prop := ∃ z a b e f g h y w x, i = .mmaQ z a b e f g h y w x

/-- A core once a command has entered its table. -/
def withCmd (q : Cmd) (epoch : Nat) (y : Core) : Core := { y with cmds := y.cmds ++ [q], epoch := epoch }

/-- The descriptor registers whose WPH the entry of a command inverts, where their images have BARV and AUTO. -/
def namedDescs (c : CtxId) (i : Instr) (s : State) : List (Nat × BitVec 4) := cmdDescs (maskUsed (s.core c.coreId) (s.ctx c) c.ctx s.nextId i) i

theorem enterCmd_eq (c : CtxId) (i : Instr) (v : W64) (idx : List W32) (s : State) : enterCmd c i v idx s =
    ({ s with nextId := s.nextId + 1 }.modCore c.coreId
      (withCmd (enteredCmd c i v idx s) ((s.core c.coreId).epoch + if advancesEpoch i then 1 else 0))).modCtx c (flipAuto (namedDescs c i s)) := by
  unfold enterCmd
  dsimp only
  split
  next =>
    rw [if_pos ⟨_, _, _, _, _, _, _, _, _, _, rfl⟩]
    rfl
  next h =>
    rw [if_neg]
    · rfl
    · rintro ⟨z, dA, dB, tA, tB, acc, mx, dual, bt, x, rfl⟩
      exact h z dA dB tA tB acc mx dual bt x rfl

theorem flipAuto_d (ds : List (Nat × BitVec 4)) (x : Ctx) (n : Fin 16) :
    (flipAuto ds x).d[n.val] = if (∃ p ∈ ds, p.2.toNat = n.val) ∧ x.d[n.val].getLsbD 160 = true ∧ x.d[n.val].getLsbD 162 = true
      then x.d[n.val] ^^^ (1#256 <<< 161) else x.d[n.val] := by
  simp only [flipAuto, Vector.getElem_ofFn, Bool.and_eq_true, List.any_eq_true, beq_iff_eq, tdBarV, tdAuto, and_assoc, tdFlip]
  rfl

/-- A command of slot M, once ready and with room, enters the table, and the streams that it reads advance. -/
theorem exec_command {i : Instr} {s : State} {srcs : List Code7} {mrds : List Nat} {v : W64} {idx : List W32}
    (hspec : cmdSpec s i = some (srcs, mrds, v, idx)) (hready : ready s srcs mrds none false = true) (hpath : (s.ctx s.focus).spec = none)
    (hroom : tableRoom s.focus i v idx s = true) : exec i s = .next (takeAll s.focus srcs (enterCmd s.focus i v idx s)) := by
  have hissue : issueCmd s.focus i v idx s = .go (enterCmd s.focus i v idx) := by simp only [issueCmd, hpath, hroom, if_true]
  cases i <;> cases hspec
  case mmaS | mmaV | zzero | chblk | chend | chfin | chmrg => exact runPlan_go (p := planCmd _) hready hissue
  case mmaSg g r | mmaVg g r => exact runPlan_go (p := planGather _ g r) hready hissue
  case mmaQ x | chbeg x | chst x | chld x | chscl x => exact runPlan_go (p := planCmdX _ x) hready hissue

section
variable (c : CtxId) (i : Instr) (v : W64) (idx : List W32) (s : State)

theorem enterCmd_cmds : ((enterCmd c i v idx s).core c.coreId).cmds = (s.core c.coreId).cmds ++ [enteredCmd c i v idx s] := by
  rw [enterCmd_eq, State.modCtx, setCtx_core_same, modCore_core_same]
  rfl
theorem enterCmd_epoch : ((enterCmd c i v idx s).core c.coreId).epoch = (s.core c.coreId).epoch + if advancesEpoch i then 1 else 0 := by
  rw [enterCmd_eq, State.modCtx, setCtx_core_same, modCore_core_same]
  rfl
theorem enterCmd_mem : (enterCmd c i v idx s).mem = s.mem := by
  rw [enterCmd_eq, modCtx_mem, modCore_mem _ _ (withCmd _ _) fun _ => rfl]
  rfl
theorem enterCmd_others : SameOthers c s (enterCmd c i v idx s) := fun o ho => by
  rw [enterCmd_eq, modCtx_ctx_other _ c o _ ho, modCore_ctx _ _ (withCmd _ _) fun _ => rfl]
  rfl
theorem enterCmd_ctx : (enterCmd c i v idx s).ctx c = flipAuto (namedDescs c i s) (s.ctx c) := by
  rw [enterCmd_eq, modCtx_ctx_same, modCore_ctx _ _ (withCmd _ _) fun _ => rfl]
  rfl
end

/-- Settles O18, by the command that enters and what its entry leaves; the streams read leave the table, the memories and the descriptors. -/
theorem commandsEnter : Obligations.CommandsEnter := by
  unfold Obligations.CommandsEnter
  intro i s srcs mrds v idx hspec hready hpath hroom m
  obtain ⟨ps, hps⟩ := takeAll_eq s.focus srcs (enterCmd s.focus i v idx s)
  have hexec := exec_command hspec hready hpath hroom
  rw [hps] at hexec
  refine ⟨_, enteredCmd s.focus i v idx s, hexec, ?table, rfl, rfl, rfl, rfl, rfl, rfl, rfl, rfl, rfl, rfl, captured_images .., ?mem, ?others,
    fun n => ?descs, rfl, ?epoch⟩
  case table =>
    rw [State.modCtx, setCtx_core_same]
    exact enterCmd_cmds ..
  case mem => exact sameMem_of_mem ((modCtx_mem ..).trans (enterCmd_mem ..))
  case others => exact fun o ho => (modCtx_ctx_other _ _ o _ ho).trans (enterCmd_others _ i v idx s o ho)
  case epoch =>
    rw [State.modCtx, setCtx_core_same]
    exact enterCmd_epoch ..
  case descs =>
    intro d named
    have hd : (((enterCmd s.focus i v idx s).modCtx s.focus (withPorts ps)).ctx s.focus).d[n.val] =
        (flipAuto (namedDescs s.focus i s) (s.ctx s.focus)).d[n.val] := by
      rw [modCtx_ctx_same, enterCmd_ctx]
      rfl
    rw [hd, flipAuto_d]
    refine ⟨fun hn hb ha => if_pos ⟨hn, hb, ha⟩, fun hno => if_neg ?_⟩
    rintro ⟨hn, hb, ha⟩
    rcases hno with hno | hno | hno
    · exact hno hn
    · exact absurd hb (Bool.eq_false_iff.mp hno)
    · exact absurd ha (Bool.eq_false_iff.mp hno)

/-! ## Bindings of accumulators -/

theorem tileBanks_pos (rows cols : Nat) (dual : Bool) : 0 < tileBanks (rows + 1) (cols + 1) dual := by
  have hwords : 0 < (rows + 1) * (cols + 1) := Nat.mul_pos rows.succ_pos cols.succ_pos
  refine Nat.mul_pos (Nat.div_pos (by omega) (by decide)) ?_
  cases dual <;> decide

section
variable {c : CtxId} {z : Fin 16} {rows cols : Nat} {dual : Bool} {s : State}

/-- ZALLOC binds where the binding is free, and the core and the task's save area have the banks. -/
theorem zalloc_go (hz : (s.ctx c).z[z.val] = none) (hcore : banksUsed (s.core c.coreId) + tileBanks rows cols dual ≤ coreBanks)
    (hsave : banksHeld (s.ctx c) + tileBanks rows cols dual ≤ saveBanks (s.ctx c)) :
    zalloc c z rows cols dual s = .go fun t => t.modCtx c fun x => { x with z := x.z.set z.val (some ⟨rows, cols, dual, false, [], []⟩) } := by
  have hfree : ¬ coreBanks - banksUsed (s.core c.coreId) < tileBanks rows cols dual := by omega
  exact if_neg (by simp [hz, hfree, hsave])
/-- Otherwise it raises ZALLOCFAIL, in a bundle that is not committed. -/
theorem zalloc_trap (hc : committed s c = false) (hn : 0 < tileBanks rows cols dual)
    (h : (s.ctx c).z[z.val] ≠ none ∨ ¬ (banksUsed (s.core c.coreId) + tileBanks rows cols dual ≤ coreBanks ∧
      banksHeld (s.ctx c) + tileBanks rows cols dual ≤ saveBanks (s.ctx c))) :
    zalloc c z rows cols dual s = .trap ⟨0x09, BitVec.ofNat 64 (tileBanks rows cols dual)⟩ := by
  refine if_pos ?_
  simp only [hc, Bool.not_false, Bool.true_and, Bool.or_eq_true, decide_eq_true_eq, Option.isSome_iff_ne_none, or_assoc]
  exact h.imp_right fun hfits => by omega
end

/-- A context after the binding has been freed (R308). -/
def zFreed (z : Fin 16) (x : Ctx) : Ctx := { x with z := x.z.set z.val none }
/-- A context after the banks of a dual tile have been exchanged (R309). -/
def zSwapped (z : Fin 16) (x : Ctx) : Ctx :=
  match x.z[z.val] with
  | some t => if t.dual then { x with z := x.z.set z.val (some { t with vis := !t.vis }) } else x
  | none => x

theorem zSwapped_dual {z : Fin 16} {x : Ctx} {t : Tile} (h : x.z[z.val] = some t) (hd : t.dual = true) :
    zSwapped z x = { x with z := x.z.set z.val (some { t with vis := !t.vis }) } := by
  simp [zSwapped, h, hd]
theorem zSwapped_single {z : Fin 16} {x : Ctx} {t : Tile} (h : x.z[z.val] = some t) (hd : t.dual = false) : zSwapped z x = x := by
  simp [zSwapped, h, hd]

section
variable {s : State} {z : BitVec 4} (h : ready s [] [] none true = true)
include h

theorem exec_zfree_unbound (hz : (s.ctx s.focus).z[(Fin.ofNat 16 z.toNat).val] = none) : exec (.zfree z) s = .next s :=
  runPlan_go (p := planZfree z) h (if_pos (Option.isNone_iff_eq_none.mpr hz))
theorem exec_zfree_bound {t : Tile} (hz : (s.ctx s.focus).z[(Fin.ofNat 16 z.toNat).val] = some t)
    (hw : zWaits s s.focus (Fin.ofNat 16 z.toNat) = false) : exec (.zfree z) s = .next (s.modCtx s.focus (zFreed (Fin.ofNat 16 z.toNat))) := by
  have hbound : ¬ ((s.ctx s.focus).z[(Fin.ofNat 16 z.toNat).val]).isNone = true := by
    rw [hz]
    exact nofun
  exact runPlan_go (p := planZfree z) h ((if_neg hbound).trans (if_neg (Bool.eq_false_iff.mp hw)))
theorem exec_zswap (hw : zWaits s s.focus (Fin.ofNat 16 z.toNat) = false) :
    exec (.zswap z) s = .next (s.modCtx s.focus (zSwapped (Fin.ofNat 16 z.toNat))) :=
  runPlan_go (p := planZswap z) h (if_neg (Bool.eq_false_iff.mp hw))
end

/-- Settles O20, by the two cases of ZALLOC and what ZFREE and ZSWAP come to. -/
theorem accumulatorBindings : Obligations.AccumulatorBindings := by
  unfold Obligations.AccumulatorBindings
  intro s z rows1 cols1 dual h c x zz n fits
  refine ⟨fun hz ⟨hcore, hsave⟩ => ?_, fun hc hno => ?_, exec_zfree_unbound h, fun t ht hw => ⟨exec_zfree_bound h ht hw, fun hd => ?_, fun hd => ?_⟩⟩
  · exact runPlan_go (p := planZalloc z rows1 cols1 dual) h (zalloc_go hz hcore hsave)
  · exact runPlan_trap (p := planZalloc z rows1 cols1 dual) h (zalloc_trap hc (tileBanks_pos ..) hno) (by rw [hc]; rfl)
  · rw [exec_zswap h hw]
    exact congrArg Host.Outcome.next (modCtx_congr (zSwapped_dual ht hd))
  · rw [exec_zswap h hw]
    exact congrArg Host.Outcome.next ((modCtx_congr (zSwapped_single ht hd)).trans (modCtx_id s c))

/-! ## Waits for commands -/

theorem mwait_go {c : CtxId} {s : State} (h : (s.ctx c).cmdErr = none) : mwait c false s = .go id := by simp [mwait, h]
theorem mwait_trap {c : CtxId} {s : State} {e : Err} (h : (s.ctx c).cmdErr = some e) :
    mwait c false s = .trap e fun t => t.modCtx c fun x => { x with cmdErr := none } := by
  simp [mwait, h]

/-- The shape of the plans of MWAIT and MWAIT.ALL: the instruction waits while `busy` (R312). -/
def planWaits (busy : CtxId → State → Bool) : Plan := ⟨.m, [], [], none, true, fun _ c s => mwait c (busy c s) s⟩

/-- An instruction that has nothing to wait for goes on, or raises the stored error and clears it. -/
theorem runPlan_planWaits {s : State} {busy : CtxId → State → Bool} (h : ready s [] [] none true = true) (hb : busy s.focus s = false) :
    ((s.ctx s.focus).cmdErr = none → runPlan (planWaits busy) s = .next s) ∧
    ∀ e, (s.ctx s.focus).cmdErr = some e → committed s s.focus = false →
      runPlan (planWaits busy) s = .next (traps s 4 e.cause e.addr (s.modCtx s.focus fun x => { x with cmdErr := none })) := by
  have hrun : (planWaits busy).run .m s.focus s = mwait s.focus false s := congrArg (mwait s.focus · s) hb
  exact ⟨fun hnone => runPlan_go (p := planWaits busy) h (hrun.trans (mwait_go hnone)),
    fun e he hc => runPlan_trap (p := planWaits busy) h (hrun.trans (mwait_trap he)) (by rw [hc]; rfl)⟩

/-- Settles O21: no command that the instruction names is left, so it has nothing to wait for. -/
theorem commandWaits : Obligations.CommandWaits := by
  unfold Obligations.CommandWaits
  intro s z h c zz clear
  refine ⟨fun hdone => ?_, fun hcopies => ?_⟩
  · refine runPlan_planWaits h ?_
    rcases hdone with hz | hnames
    · exact Bool.and_eq_false_iff.mpr (.inl (Option.isSome_eq_false_iff.mpr (Option.isNone_iff_eq_none.mpr hz)))
    · exact Bool.and_eq_false_iff.mpr (.inr hnames)
  · refine runPlan_planWaits h (List.any_eq_false.mpr fun q hq => ?_)
    by_cases hctx : q.ctx = c.ctx
    · obtain ⟨ch, x, n, dw, k, hins⟩ := hcopies q hq hctx
      simp [hins]
    · simp [hctx, c]

/-! ## Scales and extra values -/

/-- Words as one number, the first of them lowest, as SCL packs its row (R317). -/
def packWords (ws : List W32) : Nat := ws.foldr (fun w a => w.toNat + 2 ^ 32 * a) 0

theorem packWords_cons (w : W32) (ws : List W32) : packWords (w :: ws) = w.toNat + 2 ^ 32 * packWords ws := rfl
theorem packWords_word (ws : List W32) (j : Nat) : packWords ws / 2 ^ (32 * j) % 2 ^ 32 = (ws.getD j 0).toNat := by
  induction ws generalizing j with
  | nil => simp [packWords]
  | cons w ws ih =>
    have hw := w.isLt
    cases j with
    | zero => rw [packWords_cons, Nat.mul_zero, Nat.pow_zero, Nat.div_one, Nat.add_mul_mod_self_left, Nat.mod_eq_of_lt hw, List.getD_cons_zero]
    | succ j =>
      rw [packWords_cons, Nat.mul_succ, Nat.add_comm _ 32, Nat.pow_add, ← Nat.div_div_eq_div_mul, Nat.add_mul_div_left _ _ (by decide), Nat.div_eq_of_lt hw,
        Nat.zero_add, ih, List.getD_cons_succ]

theorem extract_packWords {n : Nat} (ws : List W32) {j : Nat} (h : 32 * j + 32 ≤ n) :
    (BitVec.ofNat n (packWords ws)).extractLsb' (32 * j) 32 = ws.getD j 0 := by
  apply BitVec.eq_of_toNat_eq
  have hdvd : 2 ^ (32 * j) * 2 ^ 32 ∣ 2 ^ n := by
    rw [← Nat.pow_add]
    exact Nat.pow_dvd_pow 2 h
  rw [← packWords_word, BitVec.extractLsb'_toNat, BitVec.toNat_ofNat, Nat.shiftRight_eq_div_pow, ← Nat.mod_mul_right_div_self,
    ← Nat.mod_mul_right_div_self, Nat.mod_mod_of_dvd _ hdvd]

/-- The row that a scale instruction reads. -/
def scaleWords (s : State) (m row : BitVec 5) : List W32 := (List.range 32).map (scaleRow s m row)

/-- An instruction of slot S sends what it makes of the row that it reads. -/
theorem exec_scale {f : List W32 → Land} {row m : BitVec 5} {s : State} (h : ready s [] [m.toNat] none false = true) :
    runPlan (planScale row m f) s = .next (quiet s [] 6 6 (f (scaleWords s m row))) :=
  runPlan_quiet (p := planScale row m f) h rfl

/-- STS keeps a scale's exponent less its bias, or the NaN bit (R42, R317). -/
theorem tensorScale_eq (w : W32) :
    (if w.toNat % 256 = 255 then 0x180#9 else BitVec.ofNat 9 ((w.toNat % 256 + 129) % 256)) =
      if w.setWidth 8 = 0xFF#8 then 0x180#9 else (w.setWidth 8 - 127#8).setWidth 9 := by
  have hnan : w.toNat % 256 = 255 ↔ w.setWidth 8 = 0xFF#8 := by simp [← BitVec.toNat_inj]
  have hexp : BitVec.ofNat 9 ((w.toNat % 256 + 129) % 256) = (w.setWidth 8 - 127#8).setWidth 9 := by
    apply BitVec.eq_of_toNat_eq
    simp only [BitVec.toNat_ofNat, BitVec.toNat_setWidth, BitVec.toNat_sub]
    omega
  simp only [hnan, hexp]

/-- Settles O22, by the row that each instruction reads and what it makes of the row. -/
theorem scaleLoads : Obligations.ScaleLoads := by
  unfold Obligations.ScaleLoads
  intro s l row m h b
  refine ⟨⟨_, exec_scale h, fun j hj => ?_⟩, (exec_scale h).trans ?_, (exec_scale h).trans ?_⟩
  · refine (extract_packWords (scaleWords s m row) (by omega)).trans ?_
    rw [scaleWords, List.getD_eq_getElem?_getD, List.getElem?_map, List.getElem?_range hj]
    rfl
  · have hlow : BitVec.ofNat 8 (scaleRow s m row 0).toNat = b := BitVec.ofNat_toNat ..
    exact congrArg (fun v => Host.Outcome.next (quiet s [] 6 6 (.exv _ v))) hlow
  · exact congrArg (fun v => Host.Outcome.next (quiet s [] 6 6 (.tscale _ v))) (tensorScale_eq (scaleRow s m row 0))

end Sys2Proof.Machine
end
